-- ==== Sys2Proof/Word.lean ====
section
/-! DEFINITION. The words of the machine and nothing else: bytes, 32-bit lanes, 64-bit registers,
2048-bit vectors (R88, R89), 32-byte atoms (R233). -/

namespace Sys2Proof

/-- One byte of memory (R3). -/
abbrev Byte := BitVec 8

/-- One instruction word (R40) or one vector lane (R89). -/
abbrev Word32 := BitVec 32

/-- One scalar register (R88). -/
abbrev Word := BitVec 64

/-- One vector register of 64 lanes of 32 bits (R89). -/
abbrev Vec := BitVec 2048

end Sys2Proof
end

