-- ==== Sys2Proof/Machine/Bits.lean ====
section
/-! DEFINITION. Bit fields, byte order (R3), lanes (R89) and exact narrowing (R9, R108, R109). -/

namespace Sys2Proof.Machine

open Sys2Proof

/-- `w` with bits [lo + n - 1 : lo] replaced by the low bits of `v`. -/
def setField (w : Word) (lo n v : Nat) : Word :=
  (w &&& ~~~(BitVec.ofNat 64 ((2 ^ n - 1) * 2 ^ lo))) ||| BitVec.ofNat 64 ((v % 2 ^ n) * 2 ^ lo)

/-- Bits [lo + n - 1 : lo] of `w` as a number. -/
def field (w : Word) (lo n : Nat) : Nat := (w.extractLsb' lo n).toNat

/-- The number whose little-endian bytes are given, lowest address first (R3). -/
def natOfBytes : List Byte → Nat
  | [] => 0
  | b :: bs => b.toNat + 256 * natOfBytes bs

/-- The `k` little-endian bytes of a number, lowest address first (R3). -/
def bytesOfNat : Nat → Nat → List Byte
  | 0, _ => []
  | k + 1, n => BitVec.ofNat 8 n :: bytesOfNat k (n / 256)

/-- Packs elements of `w` bits, element 0 in the lowest bits (R89). -/
def packNat (w : Nat) : List Nat → Nat
  | [] => 0
  | x :: xs => x % 2 ^ w + 2 ^ w * packNat w xs

/-- Element `k` of `w` bits of a number. -/
def elemNat (w n k : Nat) : Nat := n / 2 ^ (w * k) % 2 ^ w

/-- Lane `k` of a vector (R89). -/
def lane (v : Vec) (k : Nat) : Word32 := v.extractLsb' (32 * k) 32

/-- The vector whose lane `k` is `f k` (R89). -/
def ofLanes (f : Nat → Word32) : Vec :=
  BitVec.ofNat 2048 (packNat 32 ((List.range 64).map fun k => (f k).toNat))

/-- Lane pair `j` of a vector, its low half in lane 2j (R89). -/
def pair (v : Vec) (j : Nat) : BitVec 64 := v.extractLsb' (64 * j) 64

/-- The vector whose lane pair `j` is `f j`. -/
def ofPairs (f : Nat → BitVec 64) : Vec :=
  BitVec.ofNat 2048 (packNat 64 ((List.range 32).map fun k => (f k).toNat))

/-- The number with bit `k` set exactly where `f k` holds, for `k < n`. -/
def maskOf (n : Nat) (f : Nat → Bool) : Nat :=
  packNat 1 ((List.range n).map fun k => if f k then 1 else 0)

/-- Clamps to the range of w-bit two's complement (R109). -/
def satS (w : Nat) (x : Int) : Int :=
  if x < -(2 ^ (w - 1) : Int) then -(2 ^ (w - 1) : Int)
  else if (2 ^ (w - 1) : Int) - 1 < x then (2 ^ (w - 1) : Int) - 1 else x

/-- Replaces the element at `k` of a list, if there is one. -/
def listSet {α : Type} (l : List α) (k : Nat) (x : α) : List α := l.set k x

/-- Finds a key in an association list. -/
def assoc {α : Type} (l : List (Nat × α)) (k : Nat) : Option α :=
  (l.find? fun p => p.1 == k).map Prod.snd

/-- Sets a key of an association list kept by rising key. -/
def assocSet {α : Type} : List (Nat × α) → Nat → α → List (Nat × α)
  | [], k, x => [(k, x)]
  | p :: l, k, x =>
    if k < p.1 then (k, x) :: p :: l else if k = p.1 then (k, x) :: l else p :: assocSet l k x

/-- Removes a key of an association list. -/
def assocErase {α : Type} (l : List (Nat × α)) (k : Nat) : List (Nat × α) := l.filter fun p => p.1 != k

/-- Inserts a number into a rising list without repeats. -/
def insertNat : List Nat → Nat → List Nat
  | [], k => [k]
  | x :: l, k => if k < x then k :: x :: l else if k = x then x :: l else x :: insertNat l k

/-- Inserts an element before the first that it need not follow. -/
def insertBy {α : Type} (le : α → α → Bool) (x : α) : List α → List α
  | [] => [x]
  | y :: l => if le x y then x :: y :: l else y :: insertBy le x l

/-- Sorts a list; elements that are equal under the order keep their places. -/
def sortBy {α : Type} (le : α → α → Bool) : List α → List α
  | [] => []
  | x :: l => insertBy le x (sortBy le l)

end Sys2Proof.Machine
end

