-- ==== Sys2Proof/Machine/Float.lean ====
section
/-! DEFINITION. Numbers: the binary formats (R111, R112), canonical NaNs (R113), minimum and maximum
(R114), the rounding modes (R115-R118), conversions (R119, R120) and EXP2 (R130). A value is exact until
one rounding at the end. -/

namespace Sys2Proof.Machine

open Sys2Proof

/-- A binary format: exponent width and fraction width. -/
structure Fmt where
  ew : Nat
  mw : Nat
  deriving DecidableEq, Repr

def f64 : Fmt := ⟨11, 52⟩
def f32 : Fmt := ⟨8, 23⟩
def f16 : Fmt := ⟨5, 10⟩
def bf16 : Fmt := ⟨8, 7⟩

/-- The rounding modes of R115. -/
inductive Mode where
  | rne | rtz | rup | rdn | rsr
  deriving DecidableEq, Repr

/-- The mode of a 3-bit code; none where it is reserved (R115). -/
def modeOf (n : Nat) : Option Mode :=
  match n with
  | 0 => some .rne
  | 1 => some .rtz
  | 2 => some .rup
  | 3 => some .rdn
  | 4 => some .rsr
  | _ => none

/-- A number: NaN, an infinity, or (-1)^neg x m x 2^e exactly; m = 0 is a signed zero. -/
inductive FVal where
  | nan
  | inf (neg : Bool)
  | fin (neg : Bool) (m : Nat) (e : Int)
  deriving DecidableEq, Repr

/-- The exponent of the least normal value. -/
def Fmt.emin (f : Fmt) : Int := 2 - 2 ^ (f.ew - 1)

/-- The canonical NaN (R113). -/
def Fmt.nan (f : Fmt) : Nat := (2 ^ f.ew - 1) * 2 ^ f.mw + 2 ^ (f.mw - 1)

/-- The encoding of an infinity. -/
def Fmt.inf (f : Fmt) (neg : Bool) : Nat := (2 ^ f.ew - 1) * 2 ^ f.mw + if neg then 2 ^ (f.ew + f.mw) else 0

/-- The value of an encoding (R111, R112). -/
def Fmt.decode (f : Fmt) (n : Nat) : FVal :=
  let neg := n / 2 ^ (f.ew + f.mw) % 2 = 1
  let x := n / 2 ^ f.mw % 2 ^ f.ew
  let m := n % 2 ^ f.mw
  if x = 2 ^ f.ew - 1 then (if m = 0 then .inf neg else .nan)
  else if x = 0 then .fin neg m (f.emin - f.mw)
  else .fin neg (m + 2 ^ f.mw) (f.emin - f.mw + (x - 1 : Nat))

/-- x · 2^k of a natural number and an integer exponent, as a fraction. -/
def scaleUp (n : Nat) (k : Int) : Nat := n * 2 ^ k.toNat

/-- Rounds the fraction N/D to an integer magnitude in a mode; `draw` is the generator value of RSR
(R115, R117). -/
def roundMag (mode : Mode) (draw : Nat) (neg : Bool) (n d : Nat) : Nat :=
  let q := n / d
  let r := n % d
  let up := match mode with
    | .rne => d < 2 * r || (2 * r = d && q % 2 = 1)
    | .rtz => false
    | .rup => r != 0 && !neg
    | .rdn => r != 0 && neg
    | .rsr => draw < r * 2 ^ 32 / d
  if up then q + 1 else q

/-- The largest k with 2^k ≤ n/d. -/
def ratLog (n d : Nat) : Int :=
  let a := n.log2
  let b := d.log2
  let k : Int := (a : Int) - b
  if (if b ≤ a then d * 2 ^ (a - b) ≤ n else d ≤ n * 2 ^ (b - a)) then k else k - 1

/-- Rounds the magnitude n/d x 2^e, with a sign, to an encoding: one rounding, gradual underflow, overflow
as R116. -/
def Fmt.round (f : Fmt) (mode : Mode) (draw : Nat) (neg : Bool) (n d : Nat) (e : Int) : Nat :=
  let sign := if neg then 2 ^ (f.ew + f.mw) else 0
  if n = 0 then sign
  else
    let q : Int := max (ratLog n d + e) f.emin - f.mw
    let m := roundMag mode draw neg (scaleUp n (e - q)) (scaleUp d (q - e))
    let enc := (q - (f.emin - f.mw)).toNat * 2 ^ f.mw + m
    let top := (2 ^ f.ew - 1) * 2 ^ f.mw
    if enc < top then sign + enc
    else match mode with
      | .rne => sign + top
      | .rtz => sign + top - 1
      | .rup => if neg then sign + top - 1 else top
      | .rdn => if neg then sign + top else top - 1
      | .rsr => sign + top - 1

/-- Rounds a number to an encoding; a NaN is the canonical one (R113). -/
def Fmt.ofVal (f : Fmt) (mode : Mode) (draw : Nat) (x : FVal) : Nat :=
  match x with
  | .nan => f.nan
  | .inf neg => f.inf neg
  | .fin neg m e => f.round mode draw neg m 1 e

/-- Negation. -/
def FVal.neg : FVal → FVal
  | .nan => .nan
  | .inf n => .inf (!n)
  | .fin n m e => .fin (!n) m e

/-- The exact sum; an exact zero of opposite signs is +0, under RDN -0 (R111). -/
def FVal.add (mode : Mode) : FVal → FVal → FVal
  | .nan, _ => .nan
  | _, .nan => .nan
  | .inf a, .inf b => if a = b then .inf a else .nan
  | .inf a, _ => .inf a
  | _, .inf b => .inf b
  | .fin na ma ea, .fin nb mb eb =>
    let e := min ea eb
    let x : Int := (if na then -1 else 1) * (scaleUp ma (ea - e) : Nat)
    let y : Int := (if nb then -1 else 1) * (scaleUp mb (eb - e) : Nat)
    let z := x + y
    if z = 0 then .fin (if ma = 0 && mb = 0 && na == nb then na else mode == .rdn) 0 0
    else .fin (z < 0) z.natAbs e

/-- The exact product. -/
def FVal.mul : FVal → FVal → FVal
  | .nan, _ => .nan
  | _, .nan => .nan
  | .inf a, .inf b => .inf (a != b)
  | .inf a, .fin b m _ => if m = 0 then .nan else .inf (a != b)
  | .fin a m _, .inf b => if m = 0 then .nan else .inf (a != b)
  | .fin a ma ea, .fin b mb eb => .fin (a != b) (ma * mb) (ea + eb)

/-- Division with one rounding. -/
def Fmt.div (f : Fmt) (mode : Mode) (x y : FVal) : Nat :=
  match x, y with
  | .nan, _ => f.nan
  | _, .nan => f.nan
  | .inf _, .inf _ => f.nan
  | .inf a, .fin b _ _ => f.inf (a != b)
  | .fin a _ _, .inf b => f.round mode 0 (a != b) 0 1 0
  | .fin a ma ea, .fin b mb eb =>
    if mb = 0 then (if ma = 0 then f.nan else f.inf (a != b))
    else f.round mode 0 (a != b) ma mb (ea - eb)

/-- x < y for numbers that are not NaN; the zeros are equal. -/
def FVal.lt : FVal → FVal → Bool
  | .nan, _ => false
  | _, .nan => false
  | .inf a, .inf b => a && !b
  | .inf a, _ => a
  | _, .inf b => !b
  | .fin na ma ea, .fin nb mb eb =>
    let e := min ea eb
    let x : Int := (if na then -1 else 1) * (scaleUp ma (ea - e) : Nat)
    let y : Int := (if nb then -1 else 1) * (scaleUp mb (eb - e) : Nat)
    x < y

/-- x = y for numbers; a NaN equals nothing, the zeros are equal. -/
def FVal.eq (x y : FVal) : Bool :=
  match x, y with
  | .nan, _ => false
  | _, .nan => false
  | _, _ => !x.lt y && !y.lt x

/-- The sign of a number that is not NaN. -/
def FVal.isNeg : FVal → Bool
  | .nan => false
  | .inf n => n
  | .fin n _ _ => n

/-- Whether a number is finite. -/
def FVal.isFin : FVal → Bool
  | .fin _ _ _ => true
  | _ => false

/-- The minimum or maximum of two encodings (R114): NaN is canonical, -0 lies below +0, else an operand
is returned exactly. -/
def Fmt.minmax (f : Fmt) (wantMax : Bool) (a b : Nat) : Nat :=
  let x := f.decode a
  let y := f.decode b
  if x = .nan || y = .nan then f.nan
  else
    let less := x.lt y || (x.eq y && x.isNeg && !y.isNeg)
    if wantMax then (if less then b else a)
    else if less then a
    else if y.lt x || (x.eq y && y.isNeg && !x.isNeg) then b else a

/-- Addition with one rounding. -/
def Fmt.add (f : Fmt) (a b : Nat) : Nat := f.ofVal .rne 0 (FVal.add .rne (f.decode a) (f.decode b))

/-- Subtraction with one rounding. -/
def Fmt.sub (f : Fmt) (a b : Nat) : Nat := f.ofVal .rne 0 (FVal.add .rne (f.decode a) (f.decode b).neg)

/-- Multiplication with one rounding. -/
def Fmt.mul (f : Fmt) (a b : Nat) : Nat := f.ofVal .rne 0 ((f.decode a).mul (f.decode b))

/-- a · b + c with one rounding. -/
def Fmt.fma (f : Fmt) (a b c : Nat) : Nat :=
  f.ofVal .rne 0 (FVal.add .rne ((f.decode a).mul (f.decode b)) (f.decode c))

/-- c - a · b with one rounding (R168, R415, R416). -/
def Fmt.fnma (f : Fmt) (a b c : Nat) : Nat :=
  f.ofVal .rne 0 (FVal.add .rne ((f.decode a).mul (f.decode b)).neg (f.decode c))

/-- Converts between formats with one rounding (R119, R120). -/
def convert (src dst : Fmt) (mode : Mode) (draw : Nat) (n : Nat) : Nat := dst.ofVal mode draw (src.decode n)

/-- Rounds to an integer within bounds (R120). -/
def FVal.toIntIn (mode : Mode) (draw : Nat) (lo hi : Int) : FVal → Int
  | .nan => 0
  | .inf n => if n then lo else hi
  | .fin neg m e =>
    let r := roundMag mode draw neg (scaleUp m e) (scaleUp 1 (-e))
    let v : Int := if neg then -(r : Int) else r
    max lo (min hi v)

/-- The value of an integer. -/
def FVal.ofInt (x : Int) : FVal := .fin (x < 0) x.natAbs 0

/-- The generator of RSR (R118): seed, element index, core number. -/
def rsrDraw (seed j core : Nat) : Nat :=
  let m : Nat := 2 ^ 32
  let z := (seed ^^^ (j * 0x9E3779B9 % m)) ^^^ (core * 2 ^ 16 % m)
  let z := z ^^^ (z >>> 16)
  let z := z * 0x85EBCA6B % m
  let z := z ^^^ (z >>> 13)
  let z := z * 0xC2B2AE35 % m
  z ^^^ (z >>> 16)

/-! ### Reciprocal square root and logarithm (R183) -/

/-- The integer square root of `n`, bit by bit from bit `k - 1` down, on top of `r`. -/
def isqrtFrom (n : Nat) : Nat → Nat → Nat
  | 0, r => r
  | k + 1, r => isqrtFrom n k (if (r + 2 ^ k) * (r + 2 ^ k) ≤ n then r + 2 ^ k else r)

/-- 1 / sqrt x, correctly rounded to FP32: the root is taken to 160 fraction bits with a sticky bit. -/
def rsqrt32 (x : Nat) : Nat :=
  match f32.decode x with
  | .nan => f32.nan
  | .inf neg => if neg then f32.nan else 0
  | .fin neg 0 _ => f32.inf neg
  | .fin true _ _ => f32.nan
  | .fin false m e =>
    let n := scaleUp 1 (320 - e) / m
    let r := isqrtFrom n 256 0
    let exact := r * r = n && scaleUp 1 (320 - e) % m = 0
    f32.round .rne 0 false (2 * r + if exact then 0 else 1) 1 (-161)

/-- Binary digits of log2 of y / 2^w for 1 ≤ y / 2^w < 2, by repeated squaring, on top of `acc`. -/
def log2Digits (w : Nat) : Nat → Nat → Nat → Nat
  | 0, _, acc => acc
  | k + 1, y, acc =>
    let z := y * y / 2 ^ w
    if 2 ^ (w + 1) ≤ z then log2Digits w k (z / 2) (2 * acc + 1) else log2Digits w k z (2 * acc)

/-- log2 x, correctly rounded to FP32: 128 fraction digits from squarings that keep 400 bits, and a sticky
bit, for the logarithm of a value that is no power of two is irrational. -/
def log2f32 (x : Nat) : Nat :=
  match f32.decode x with
  | .nan => f32.nan
  | .inf neg => if neg then f32.nan else f32.inf false
  | .fin _ 0 _ => f32.inf true
  | .fin true _ _ => f32.nan
  | .fin false m e =>
    let b := m.log2
    let k : Int := e + b
    if m = 2 ^ b then f32.round .rne 0 (k < 0) k.natAbs 1 0
    else
      let l := log2Digits 400 128 (m * 2 ^ (400 - b)) 0
      if 0 ≤ k then f32.round .rne 0 false (2 * (k.toNat * 2 ^ 128 + l) + 1) 1 (-129)
      else f32.round .rne 0 true (2 * (k.natAbs * 2 ^ 128 - l) - 1) 1 (-129)

/-! ### EXP2 (R130) -/

/-- The coefficients c[9] .. c[0]: the integers nearest (ln 2)^n / n! x 2^32. -/
def exp2Coeffs : List Nat := [437, 5676, 65510, 661577, 5726720, 41309550, 238388332, 1031764991, 2977044472, 4294967296]

/-- The Horner steps of R130 for a fraction f of 24 bits. -/
def exp2Poly (f : Nat) : Nat :=
  match exp2Coeffs with
  | [] => 0
  | c :: cs => cs.foldl (fun p k => k + p * f / 2 ^ 24) c

/-- EXP2 of an FP32 encoding (R130). -/
def exp2 (x : Nat) : Nat :=
  match f32.decode x with
  | .nan => 0x7FC00000
  | .inf neg => if neg then 0 else 0x7F800000
  | .fin neg m e =>
    let sh := e + 24
    let n : Int := if neg then -(m : Int) else m
    let big : Int := if 0 ≤ sh then n * 2 ^ sh.toNat else n.fdiv (2 ^ (-sh).toNat)
    if 128 * 2 ^ 24 ≤ big then 0x7F800000
    else if big < -160 * 2 ^ 24 then 0
    else
      let i := big.fdiv (2 ^ 24)
      let f := (big - i * 2 ^ 24).toNat
      let p := exp2Poly f
      if -126 ≤ i then
        let mt := (p + 2 ^ 8) / 2 ^ 9
        let (mt, i) := if mt = 2 ^ 24 then (2 ^ 23, i + 1) else (mt, i)
        if 128 ≤ i then 0x7F800000 else (i + 127).toNat * 2 ^ 23 + (mt - 2 ^ 23)
      else
        let k := (-126 - i).toNat
        if 25 ≤ k then 0 else (p + 2 ^ (8 + k)) / 2 ^ (9 + k)

end Sys2Proof.Machine
end

