-- ==== Sys2Proof/Machine/Sx.lean ====
section
/-! DEFINITION. Shared-exponent blocks (R121-R127): decoding, and packing with and without a supplied
scale. A block is a number whose bit k is block bit k. -/

namespace Sys2Proof.Machine

open Sys2Proof

/-- Block bytes of SXm: 8, 12 and 18 for m = 2, 4 and 7 (R121). -/
def sxBytes (m : Nat) : Nat := 2 * (m + 1) + 2

/-- The value of element `i` of a block (R122). -/
def sxElem (m blk i : Nat) : FVal :=
  let e := blk % 256
  let mu := blk / 2 ^ (8 + i / 2) % 2
  let x := blk / 2 ^ (16 + i * (m + 1)) % 2 ^ (m + 1)
  if e = 255 then .nan
  else if e = 0 || x % 2 ^ m = 0 then .fin false 0 0
  else .fin (x / 2 ^ m = 1) (x % 2 ^ m) ((e : Int) - 127 - mu - (m - 1 : Nat))

/-- A block with all elements zero (R123). -/
def sxZero : Nat := 0

/-- The invalid block (R123). -/
def sxInvalid : Nat := 255

/-- Assembles a block from E, the micro-exponents and the signed magnitudes (R121, R123). -/
def sxBuild (m e : Nat) (mu : List Bool) (xs : List (Bool × Nat)) : Nat :=
  if xs.all fun x => x.2 = 0 then sxZero
  else e + packNat 1 (mu.map fun b => if b then 1 else 0) * 256 +
    packNat (m + 1) (xs.map fun x => if x.2 = 0 then 0 else x.2 + if x.1 then 2 ^ m else 0) * 2 ^ 16

/-- |x| ≤ (2^m - 1) x 2^k for a finite x. -/
def magLe (x : FVal) (m : Nat) (k : Int) : Bool :=
  match x with
  | .fin _ n e =>
    let lo := min e k
    scaleUp n (e - lo) ≤ scaleUp (2 ^ m - 1) (k - lo)
  | _ => false

/-- The larger magnitude of two finite values. -/
def maxMag (x y : FVal) : FVal :=
  match x, y with
  | .fin _ a e, .fin _ b g => if (FVal.fin false a e).lt (.fin false b g) then .fin false b g else .fin false a e
  | _, _ => .nan

/-- The rounded magnitude of x / 2^k (R125). -/
def quantum (mode : Mode) (draw : Nat) (x : FVal) (k : Int) : Nat :=
  match x with
  | .fin neg n e => roundMag mode draw neg (scaleUp n (e - k)) (scaleUp 1 (k - e))
  | _ => 0

/-- The smallest e in 1 .. 254 with a ≤ maxmag x 2^(e - 127), trying `n` exponents from `e` on (R125). -/
def sxExp (m : Nat) (a : FVal) : Nat → Nat → Option Nat
  | 0, _ => none
  | n + 1, e => if magLe a m ((e : Int) - 127 - (m - 1 : Nat)) then some e else sxExp m a n (e + 1)

/-- Packs 16 values without a supplied scale (R125); `draw i` is the generator value of element i. -/
def sxPack (m : Nat) (mode : Mode) (draw : Nat → Nat) (xs : List FVal) : Nat :=
  if xs.any fun x => !x.isFin then sxInvalid
  else
    let a := xs.foldl maxMag (.fin false 0 0)
    match a with
    | .fin _ 0 _ => sxZero
    | _ =>
      let e := (sxExp m a 254 1).getD 254
      let at_ := fun (i : Nat) => xs.getD i (.fin false 0 0)
      let mu := (List.range 8).map fun p =>
        magLe (maxMag (at_ (2 * p)) (at_ (2 * p + 1))) m ((e : Int) - 128 - (m - 1 : Nat))
      let els := (List.range 16).map fun i =>
        let u : Int := if mu.getD (i / 2) false then 1 else 0
        ((at_ i).isNeg, min (quantum mode (draw i) (at_ i) ((e : Int) - 127 - u - (m - 1 : Nat))) (2 ^ m - 1))
      sxBuild m e mu els

/-- The rounded magnitude of (x / σ) / 2^k with one rounding (R126). -/
def quotQuantum (mode : Mode) (draw : Nat) (x sig : FVal) (k : Int) : Nat :=
  match x, sig with
  | .fin neg n e, .fin _ sn se =>
    let t := e - se - k
    roundMag mode draw neg (scaleUp n t) (sn * 2 ^ (-t).toNat)
  | _, _ => 0

/-- |x / σ| ≤ (2^m - 1) x 2^k for finite x and σ > 0. -/
def quotLe (x sig : FVal) (m : Nat) (k : Int) : Bool :=
  match x, sig with
  | .fin _ n e, .fin _ sn se =>
    let t := e - se - k
    scaleUp n t ≤ (2 ^ m - 1) * sn * 2 ^ (-t).toNat
  | _, _ => false

/-- Whether an element is an outlier under a supplied scale (R126). -/
def sxOutlier (m : Nat) (mode : Mode) (draw : Nat) (sig x : FVal) : Bool :=
  match x with
  | .fin _ _ _ => 2 ^ m - 1 < quotQuantum mode draw x sig (-(m - 1 : Nat))
  | _ => true

/-- Packs 16 values with a supplied scale (R126): the block, and the positions of its outliers. -/
def sxPackScaled (m : Nat) (mode : Mode) (draw : Nat → Nat) (sig : FVal) (xs : List FVal) : Nat × List Nat :=
  let at_ := fun (i : Nat) => xs.getD i (.fin false 0 0)
  let out := fun (i : Nat) => sxOutlier m mode (draw i) sig (at_ i)
  let small := fun (i : Nat) => out i || quotLe (at_ i) sig m (-1 - (m - 1 : Nat))
  let mu := (List.range 8).map fun p => small (2 * p) && small (2 * p + 1)
  let els := (List.range 16).map fun i =>
    let u : Int := if mu.getD (i / 2) false then 1 else 0
    ((at_ i).isNeg, if out i then 0 else quotQuantum mode (draw i) (at_ i) sig (-u - (m - 1 : Nat)))
  (sxBuild m 127 mu els, (List.range 16).filter out)

/-- An element times a scale, rounded to FP32 (R124). -/
def sxScaled (mode : Mode) (draw : Nat) (sig x : FVal) : Nat := f32.ofVal mode draw (x.mul sig)

end Sys2Proof.Machine
end

