-- ==== Sys2Proof/Config.lean ====
section
/-! DEFINITION. What one build of the cube fixes, and the free values: constants with no body, about
which nothing can be proved. -/

namespace Sys2Proof.Config

/-- The value a scalar read at a short static distance yields when TSW.CHK is clear (R57): some value
of the operand's width. Applied to the state's fresh counter. DESIGN CHOICE, log entry 5. -/
opaque shortScalar : Nat → BitVec 64

/-- The same for a vector read (R57). DESIGN CHOICE, log entry 5. -/
opaque shortVector : Nat → BitVec 2048

/-- The same for a mask register read (R57). DESIGN CHOICE, log entry 5. -/
opaque shortMask : Nat → BitVec 64

/-- The fused minimum security version (R454). DESIGN CHOICE, log entry 2. -/
opaque minSvn : Nat → BitVec 32

/-- The SM3 digest of some bytes (R452, R458). The spec names the function and does not define it.
DESIGN CHOICE, log entry 12. -/
opaque sm3 : List (BitVec 8) → BitVec 256

/-- Whether an SM2 signature over a digest verifies under the fused vendor key (R452).
DESIGN CHOICE, log entry 12. -/
opaque sm2Verifies : BitVec 256 → BitVec 512 → Bool

/-- The signature over a digest by the attestation key that is derived for a cube (R458). DESIGN CHOICE, log entry 12. -/
opaque sm2Sign : Nat → BitVec 256 → BitVec 512

/-- A byte of x or of the workspace that is not architected during a refinement run or after it (R417, R419).
DESIGN CHOICE, log entry 13. -/
opaque openByte : Nat → BitVec 8

/-- A byte of a checkpoint area once a checkpoint has been written to it: the layout of an image is the Stove firmware's own
(R223, R227). DESIGN CHOICE, log entry 23. -/
opaque areaByte : Nat → BitVec 8

/-- Which of the forms cpy, cpym and cpyf a copy descriptor image of a COPY packet or node stands for (R354): modulo 3, in
this order. The spec handles the three apart and names no field that tells them apart. DESIGN CHOICE, log entry 43. -/
opaque copyForm : BitVec 256 → Nat

/-- The bits of a command notice that its command leaves unused, by command code: those above bit 31, for R455 gives bits 15-0
to the code, 31-16 to the sequence number, and no layout of the arguments. DESIGN CHOICE, log entry 11. -/
opaque unusedBits : BitVec 16 → BitVec 512

end Sys2Proof.Config
end

