-- ==== Sys2Proof/Syntax.lean ====
section
/-! DEFINITION. The instructions and events of the cube: one constructor for each row of the spec's
opcode table. An instruction carries its fields as the word formats of R41-R47 give them, prefixes
included. An event (a machine step that has no word) carries what selects it. -/

namespace Sys2Proof

/-- Format A (R42), with the payload of its prefix if it has one (R47). -/
structure FmtA where
  d : BitVec 6
  a : BitVec 6
  b : BitVec 6
  s : BitVec 3
  p : Option (BitVec 24)
  deriving DecidableEq, Repr

/-- Format L (R43), with the payloads of its prefixes, first prefix first (R47). -/
structure FmtL where
  d : BitVec 6
  imm : BitVec 15
  s : BitVec 3
  p : List (BitVec 24)
  deriving DecidableEq, Repr

/-- Format M (R44). Some opcodes divide `off` further (R294, R300, R314). -/
structure FmtM where
  d : BitVec 6
  base : BitVec 6
  sg : BitVec 2
  off : BitVec 7
  p : List (BitVec 24)
  deriving DecidableEq, Repr

/-- Format B (R45) without its condition, which the conditional forms carry beside it. -/
structure FmtB where
  c : BitVec 6
  off : BitVec 15
  p : List (BitVec 24)
  deriving DecidableEq, Repr

/-- Format T (R46). -/
structure FmtT where
  td : BitVec 3
  ta : BitVec 3
  tb : BitVec 3
  wait : BitVec 8
  set : BitVec 3
  p : Option (BitVec 24)
  deriving DecidableEq, Repr

/-- What an access does with the bytes it names: the access kinds of R216, and the decide-once
instructions, which need both permissions (R402). -/
inductive AccessKind where
  | none | fetch | load | store | atomic | copySrc | copyDst | once
  deriving DecidableEq, Repr

/-- The trap codes of R210. -/
inductive TrapCode where
  | illegalOpcode | illegalPrefix | illegalFunct | illegalOperand | engineClass | privileged
  | repInvalid | jtInvalid | stallShort | landingMismatch | pcMisaligned | misaligned
  | retOverflow | retUnderflow | followInvalid | softTrap
  | addressRange | pageAbsent | pageProtect | peerLost | memUncorrectable | layoutStale
  | migrateGroup | migrateState | mapConflict
  | scaleCount | scaleInvalid | outlierFull
  | tileUnconfigured | tileFormat | tileShape | accRange | gissueInvalid | gissueMismatch
  | waitExhausted | groupInvalid | counterInvalid
  | onceInvalid | flueInvalid | queueInvalid | graphQueueFull | graphBusy
  | diverged | refineInvalid | coreUncorrectable
  deriving DecidableEq, Repr

/-- What a trap reports (R210, R213, R216). `source` is 0 main, 1 matrix, 2 copy, 3 flue-request. -/
structure TrapReport where
  code : TrapCode
  pc : Word
  addr : Word
  epc : Word
  source : Nat
  kind : AccessKind
  seg : BitVec 16
  /-- a stale ASID generation that the Stove resumes under the current one (R255) -/
  staleGen : Bool
  deriving DecidableEq, Repr

/-- One entry of the interleave map (R239, R399). -/
structure MapEntry where
  cube : Nat
  lost : Bool
  base : Nat
  deriving DecidableEq, Repr

/-- A copy of the interleave map (R239, R399). -/
structure InterleaveMap where
  s : Nat
  mgen : BitVec 16
  entries : List MapEntry
  deriving DecidableEq, Repr

/-- A firmware image: its 256-byte header and the code that follows (R452). -/
structure FirmwareImage where
  header : BitVec 2048
  code : List Byte
  deriving DecidableEq, Repr

/-- An ignore-on-receive entry of a partner's capability list (R387, R388): a KIND, a byte offset in the packet, from its
envelope on, and a mask of bits from there on. -/
structure IgnoreEntry where
  kind : Nat
  off : Nat
  mask : Nat
  deriving DecidableEq, Repr

/-- An expander on a memory port (R395): the port, its capacity in bytes, whether it responds. -/
structure Expander where
  port : Nat
  bytes : Nat
  responds : Bool
  deriving DecidableEq, Repr

/-- What the tray's boot flash and the partners give a booting cube (R450): the eight images, the
spare cores and retired flues recorded there, the links that train, the expanders found (R395) and the list that
the host declares at enumeration (R388). -/
structure BootFlash where
  images : List FirmwareImage
  spares : List Nat
  retired : List Nat
  links : List Nat
  expanders : List Expander
  hostIgnore : List IgnoreEntry
  deriving DecidableEq, Repr

/-- A host access through CXL.mem (R286, R392), at cube-local addresses. -/
inductive HostRequest where
  | read (addr len : Nat)
  | write (addr : Nat) (bytes : List Byte)
  deriving DecidableEq, Repr

/-- The registers of the host port's windows (R393, R453). -/
inductive WindowReg where
  | slotWord (slot word : Nat)
  | slotStat (slot : Nat)
  | bootstat
  | reqWord (k word : Nat)
  | rspWord (k word : Nat)
  | door (k : Nat)
  | reservedDoor (k word : Nat)
  | errlogWord (word : Nat)
  | errhead
  deriving DecidableEq, Repr

/-- The instructions (rows with a word) and the events (rows without one) of the opcode table. -/
inductive Instr where
  /-- ADD (R135) -/
  | add (f : FmtA)
  /-- SUB (R135) -/
  | sub (f : FmtA)
  /-- ADDS (R135) -/
  | adds (f : FmtA)
  /-- SUBS (R135) -/
  | subs (f : FmtA)
  /-- MIN (R135) -/
  | min (f : FmtA)
  /-- MAX (R135) -/
  | max (f : FmtA)
  /-- MINU (R135) -/
  | minu (f : FmtA)
  /-- MAXU (R135) -/
  | maxu (f : FmtA)
  /-- AND (R137) -/
  | and (f : FmtA)
  /-- OR (R137) -/
  | or (f : FmtA)
  /-- XOR (R137) -/
  | xor (f : FmtA)
  /-- ANDN (R137) -/
  | andn (f : FmtA)
  /-- SLL (R137) -/
  | sll (f : FmtA)
  /-- SRL (R137) -/
  | srl (f : FmtA)
  /-- SRA (R137) -/
  | sra (f : FmtA)
  /-- ROL (R137) -/
  | rol (f : FmtA)
  /-- CEQ (R138) -/
  | ceq (f : FmtA)
  /-- CNE (R138) -/
  | cne (f : FmtA)
  /-- CLT (R138) -/
  | clt (f : FmtA)
  /-- CLTU (R138) -/
  | cltu (f : FmtA)
  /-- SEL (R139) -/
  | sel (f : FmtA)
  /-- CLZ (R138) -/
  | clz (f : FmtA)
  /-- CTZ (R138) -/
  | ctz (f : FmtA)
  /-- POPC (R138) -/
  | popc (f : FmtA)
  /-- MUL (R136) -/
  | mul (f : FmtA)
  /-- MULH (R136) -/
  | mulh (f : FmtA)
  /-- MULHU (R136) -/
  | mulhu (f : FmtA)
  /-- DIV (R136) -/
  | div (f : FmtA)
  /-- DIVU (R136) -/
  | divu (f : FmtA)
  /-- REM (R136) -/
  | rem (f : FmtA)
  /-- REMU (R136) -/
  | remu (f : FmtA)
  /-- PADD (R140) -/
  | padd (f : FmtA)
  /-- PSUB (R140) -/
  | psub (f : FmtA)
  /-- PADDS (R140) -/
  | padds (f : FmtA)
  /-- PSUBS (R140) -/
  | psubs (f : FmtA)
  /-- PMUL (R140) -/
  | pmul (f : FmtA)
  /-- PMIN (R140) -/
  | pmin (f : FmtA)
  /-- PMAX (R140) -/
  | pmax (f : FmtA)
  /-- PAVG (R140) -/
  | pavg (f : FmtA)
  /-- ADDI (R141) -/
  | addi (f : FmtL)
  /-- ANDI (R141) -/
  | andi (f : FmtL)
  /-- ORI (R141) -/
  | ori (f : FmtL)
  /-- XORI (R141) -/
  | xori (f : FmtL)
  /-- LI (R141) -/
  | li (f : FmtL)
  /-- SLLI (R141) -/
  | slli (f : FmtL)
  /-- SRLI (R141) -/
  | srli (f : FmtL)
  /-- SRAI (R141) -/
  | srai (f : FmtL)
  /-- CLTI (R141) -/
  | clti (f : FmtL)
  /-- CLTUI (R141) -/
  | cltui (f : FmtL)
  /-- CEQI (R141) -/
  | ceqi (f : FmtL)
  /-- LIPC (R142) -/
  | lipc (f : FmtL)
  /-- B (R143) -/
  | b (f : FmtB)
  /-- B_COND (R143) -/
  | bCond (cond : BitVec 3) (f : FmtB)
  /-- CALL (R144) -/
  | call (f : FmtB)
  /-- CALL_COND (R144) -/
  | callCond (cond : BitVec 3) (f : FmtB)
  /-- RET (R145) -/
  | ret (f : FmtA)
  /-- YIELD (R148) -/
  | yield (f : FmtA)
  /-- HALT (R149) -/
  | halt (f : FmtA)
  /-- TRAP (R150) -/
  | trap (f : FmtA)
  /-- FOLLOW (R151) -/
  | follow (f : FmtA)
  /-- DETACH (R152) -/
  | detach (f : FmtA)
  /-- REJOIN (R153) -/
  | rejoin (f : FmtA)
  /-- RFE (R156) -/
  | rfe (f : FmtA)
  /-- SRD (R154) -/
  | srd (f : FmtL)
  /-- SWR (R154) -/
  | swr (f : FmtL)
  /-- LPAD (R64) -/
  | lpad (label : BitVec 16)
  /-- JT (R65) -/
  | jt (i : BitVec 6)
  /-- REP (R59) -/
  | rep (n : BitVec 8) (len : BitVec 4) (stride : BitVec 5)
  /-- REPG (R59) -/
  | repg (c : BitVec 6) (len : BitVec 4) (stride : BitVec 5)
  /-- VADD_I32 (R165) -/
  | vaddI32 (f : FmtA)
  /-- VSUB_I32 (R165) -/
  | vsubI32 (f : FmtA)
  /-- VADDS_I32 (R165) -/
  | vaddsI32 (f : FmtA)
  /-- VSUBS_I32 (R165) -/
  | vsubsI32 (f : FmtA)
  /-- VMIN_I32 (R165) -/
  | vminI32 (f : FmtA)
  /-- VMAX_I32 (R165) -/
  | vmaxI32 (f : FmtA)
  /-- VMUL_I32 (R165) -/
  | vmulI32 (f : FmtA)
  /-- VMULH_I32 (R165) -/
  | vmulhI32 (f : FmtA)
  /-- VAND (R166) -/
  | vand (f : FmtA)
  /-- VOR (R166) -/
  | vor (f : FmtA)
  /-- VXOR (R166) -/
  | vxor (f : FmtA)
  /-- VANDN (R166) -/
  | vandn (f : FmtA)
  /-- VSLL (R166) -/
  | vsll (f : FmtA)
  /-- VSRL (R166) -/
  | vsrl (f : FmtA)
  /-- VSRA (R166) -/
  | vsra (f : FmtA)
  /-- VSEL (R167) -/
  | vsel (f : FmtA)
  /-- VADD_F32 (R168) -/
  | vaddF32 (f : FmtA)
  /-- VSUB_F32 (R168) -/
  | vsubF32 (f : FmtA)
  /-- VMUL_F32 (R168) -/
  | vmulF32 (f : FmtA)
  /-- VFMA_F32 (R169) -/
  | vfmaF32 (f : FmtA)
  /-- VFMS_F32 (R169) -/
  | vfmsF32 (f : FmtA)
  /-- VMIN_F32 (R168) -/
  | vminF32 (f : FmtA)
  /-- VMAX_F32 (R168) -/
  | vmaxF32 (f : FmtA)
  /-- VDIV_F32 (R168) -/
  | vdivF32 (f : FmtA)
  /-- VADD_F64 (R168) -/
  | vaddF64 (f : FmtA)
  /-- VSUB_F64 (R168) -/
  | vsubF64 (f : FmtA)
  /-- VMUL_F64 (R168) -/
  | vmulF64 (f : FmtA)
  /-- VFMA_F64 (R169) -/
  | vfmaF64 (f : FmtA)
  /-- VFMS_F64 (R169) -/
  | vfmsF64 (f : FmtA)
  /-- VMIN_F64 (R168) -/
  | vminF64 (f : FmtA)
  /-- VMAX_F64 (R168) -/
  | vmaxF64 (f : FmtA)
  /-- VDIV_F64 (R168) -/
  | vdivF64 (f : FmtA)
  /-- VCEQ_F32 (R171) -/
  | vceqF32 (f : FmtA)
  /-- VCLT_F32 (R171) -/
  | vcltF32 (f : FmtA)
  /-- VCLE_F32 (R171) -/
  | vcleF32 (f : FmtA)
  /-- VCUN_F32 (R171) -/
  | vcunF32 (f : FmtA)
  /-- VCEQ_I32 (R171) -/
  | vceqI32 (f : FmtA)
  /-- VCLT_I32 (R171) -/
  | vcltI32 (f : FmtA)
  /-- VCLTU_I32 (R171) -/
  | vcltuI32 (f : FmtA)
  /-- VCLE_I32 (R171) -/
  | vcleI32 (f : FmtA)
  /-- MAND (R172) -/
  | mand (f : FmtA)
  /-- MOR (R172) -/
  | mor (f : FmtA)
  /-- MXOR (R172) -/
  | mxor (f : FmtA)
  /-- MANDN (R172) -/
  | mandn (f : FmtA)
  /-- MPOP (R172) -/
  | mpop (f : FmtA)
  /-- MFFS (R172) -/
  | mffs (f : FmtA)
  /-- MSET (R172) -/
  | mset (f : FmtA)
  /-- MGET (R172) -/
  | mget (f : FmtA)
  /-- VPERM (R173) -/
  | vperm (f : FmtA)
  /-- VSHUF (R173) -/
  | vshuf (f : FmtA)
  /-- VRSUM_F32 (R174) -/
  | vrsumF32 (f : FmtA)
  /-- VRMAX_F32 (R174) -/
  | vrmaxF32 (f : FmtA)
  /-- VRMIN_F32 (R174) -/
  | vrminF32 (f : FmtA)
  /-- VRSUM_F64 (R174) -/
  | vrsumF64 (f : FmtA)
  /-- VRSUM_I32 (R174) -/
  | vrsumI32 (f : FmtA)
  /-- VRMAX_I32 (R174) -/
  | vrmaxI32 (f : FmtA)
  /-- VRMIN_I32 (R174) -/
  | vrminI32 (f : FmtA)
  /-- VMOV (R175) -/
  | vmov (f : FmtA)
  /-- VXGET (R175) -/
  | vxget (f : FmtA)
  /-- VXPUT (R176) -/
  | vxput (f : FmtA)
  /-- VINS (R175) -/
  | vins (f : FmtA)
  /-- VEXT (R175) -/
  | vext (f : FmtA)
  /-- VBCAST (R175) -/
  | vbcast (f : FmtA)
  /-- VCVT_F32_I32 (R178) -/
  | vcvtF32I32 (f : FmtA)
  /-- VCVT_I32_F32 (R178) -/
  | vcvtI32F32 (f : FmtA)
  /-- VCVT_F64_F32 (R178) -/
  | vcvtF64F32 (f : FmtA)
  /-- VCVT_F32_F64 (R178) -/
  | vcvtF32F64 (f : FmtA)
  /-- VCVT_BF16_F32 (R178) -/
  | vcvtBf16F32 (f : FmtA)
  /-- VCVT_F32_BF16 (R178) -/
  | vcvtF32Bf16 (f : FmtA)
  /-- VCVT_F16_F32 (R178) -/
  | vcvtF16F32 (f : FmtA)
  /-- VCVT_F32_F16 (R178) -/
  | vcvtF32F16 (f : FmtA)
  /-- VPK_SX2 (R180) -/
  | vpkSx2 (f : FmtA)
  /-- VPK_SX4 (R180) -/
  | vpkSx4 (f : FmtA)
  /-- VPK_SX7 (R180) -/
  | vpkSx7 (f : FmtA)
  /-- VUPK_SX2 (R182) -/
  | vupkSx2 (f : FmtA)
  /-- VUPK_SX4 (R182) -/
  | vupkSx4 (f : FmtA)
  /-- VUPK_SX7 (R182) -/
  | vupkSx7 (f : FmtA)
  /-- VEXP2 (R183) -/
  | vexp2 (f : FmtA)
  /-- VRCP (R183) -/
  | vrcp (f : FmtA)
  /-- VRSQRT (R183) -/
  | vrsqrt (f : FmtA)
  /-- VLOG2 (R183) -/
  | vlog2 (f : FmtA)
  /-- TCFG (R194) -/
  | tcfg (f : FmtT)
  /-- TROWIN (R196) -/
  | trowin (f : FmtT)
  /-- TROWOUT (R196) -/
  | trowout (f : FmtT)
  /-- TCOLIN (R196) -/
  | tcolin (f : FmtT)
  /-- TCOLOUT (R196) -/
  | tcolout (f : FmtT)
  /-- TZERO (R194) -/
  | tzero (f : FmtT)
  /-- TFREE (R194) -/
  | tfree (f : FmtT)
  /-- TLD (R198) -/
  | tld (f : FmtT)
  /-- TST (R198) -/
  | tst (f : FmtT)
  /-- TMMA_BF16 (R201) -/
  | tmmaBf16 (f : FmtT)
  /-- TMMA_SX7 (R201) -/
  | tmmaSx7 (f : FmtT)
  /-- TMMA_SX4 (R201) -/
  | tmmaSx4 (f : FmtT)
  /-- TMMA_SX2 (R201) -/
  | tmmaSx2 (f : FmtT)
  /-- GISSUE_BF16 (R205) -/
  | gissueBf16 (f : FmtT)
  /-- GISSUE_SX7 (R205) -/
  | gissueSx7 (f : FmtT)
  /-- GISSUE_SX4 (R205) -/
  | gissueSx4 (f : FmtT)
  /-- GISSUE_SX2 (R205) -/
  | gissueSx2 (f : FmtT)
  /-- TACCRD (R202) -/
  | taccrd (f : FmtT)
  /-- TACCWR (R202) -/
  | taccwr (f : FmtT)
  /-- TACCZERO (R202) -/
  | tacczero (f : FmtT)
  /-- LD_I8 (R293) -/
  | ldI8 (f : FmtM)
  /-- LD_N8 (R293) -/
  | ldN8 (f : FmtM)
  /-- LD_I16 (R293) -/
  | ldI16 (f : FmtM)
  /-- LD_N16 (R293) -/
  | ldN16 (f : FmtM)
  /-- LD_I32 (R293) -/
  | ldI32 (f : FmtM)
  /-- LD_N32 (R293) -/
  | ldN32 (f : FmtM)
  /-- LD_64 (R293) -/
  | ld64 (f : FmtM)
  /-- ST_8 (R293) -/
  | st8 (f : FmtM)
  /-- ST_16 (R293) -/
  | st16 (f : FmtM)
  /-- ST_32 (R293) -/
  | st32 (f : FmtM)
  /-- ST_64 (R293) -/
  | st64 (f : FmtM)
  /-- VLD (R297) -/
  | vld (f : FmtM)
  /-- VST (R297) -/
  | vst (f : FmtM)
  /-- VLDM (R297) -/
  | vldm (f : FmtM)
  /-- VSTM (R297) -/
  | vstm (f : FmtM)
  /-- VLDS (R298) -/
  | vlds (f : FmtA)
  /-- VSTS (R298) -/
  | vsts (f : FmtA)
  /-- VGATH (R298) -/
  | vgath (f : FmtA)
  /-- VSCAT (R298) -/
  | vscat (f : FmtA)
  /-- PREF (R302) -/
  | pref (f : FmtM)
  /-- MIGRATE (R305) -/
  | migrate (f : FmtM)
  /-- MAPR (R303) -/
  | mapr (f : FmtM)
  /-- UNMAPR (R304) -/
  | unmapr (f : FmtM)
  /-- FENCE (R296) -/
  | fence (f : FmtL)
  /-- LDA_32 (R295) -/
  | lda32 (f : FmtM)
  /-- LDA_64 (R295) -/
  | lda64 (f : FmtM)
  /-- STL_32 (R295) -/
  | stl32 (f : FmtM)
  /-- STL_64 (R295) -/
  | stl64 (f : FmtM)
  /-- AMOADD_64 (R300) -/
  | amoadd64 (f : FmtM)
  /-- AMOAND_64 (R300) -/
  | amoand64 (f : FmtM)
  /-- AMOOR_64 (R300) -/
  | amoor64 (f : FmtM)
  /-- AMOXOR_64 (R300) -/
  | amoxor64 (f : FmtM)
  /-- AMOMIN_64 (R300) -/
  | amomin64 (f : FmtM)
  /-- AMOMAX_64 (R300) -/
  | amomax64 (f : FmtM)
  /-- AMOSWAP_64 (R300) -/
  | amoswap64 (f : FmtM)
  /-- AMOCAS_64 (R300) -/
  | amocas64 (f : FmtM)
  /-- AMOADD_32 (R300) -/
  | amoadd32 (f : FmtM)
  /-- AMOAND_32 (R300) -/
  | amoand32 (f : FmtM)
  /-- AMOOR_32 (R300) -/
  | amoor32 (f : FmtM)
  /-- AMOXOR_32 (R300) -/
  | amoxor32 (f : FmtM)
  /-- AMOMIN_32 (R300) -/
  | amomin32 (f : FmtM)
  /-- AMOMAX_32 (R300) -/
  | amomax32 (f : FmtM)
  /-- AMOSWAP_32 (R300) -/
  | amoswap32 (f : FmtM)
  /-- AMOCAS_32 (R300) -/
  | amocas32 (f : FmtM)
  /-- VAMO_ADD (R301) -/
  | vamoAdd (f : FmtA)
  /-- VAMO_AND (R301) -/
  | vamoAnd (f : FmtA)
  /-- VAMO_OR (R301) -/
  | vamoOr (f : FmtA)
  /-- VAMO_XOR (R301) -/
  | vamoXor (f : FmtA)
  /-- VAMO_MIN (R301) -/
  | vamoMin (f : FmtA)
  /-- VAMO_MAX (R301) -/
  | vamoMax (f : FmtA)
  /-- VAMO_FADD (R301) -/
  | vamoFadd (f : FmtA)
  /-- CPY (R307) -/
  | cpy (f : FmtA)
  /-- CPYM (R307) -/
  | cpym (f : FmtA)
  /-- CPYF (R307) -/
  | cpyf (f : FmtA)
  /-- PROPOSE (R316) -/
  | propose (f : FmtM)
  /-- DREAD (R317) -/
  | dread (f : FmtM)
  /-- DRETIRE (R319) -/
  | dretire (f : FmtM)
  /-- DINIT (R320) -/
  | dinit (f : FmtM)
  /-- FCFG (R334) -/
  | fcfg (f : FmtA)
  /-- FSTART (R335) -/
  | fstart (f : FmtA)
  /-- FSTOP (R337) -/
  | fstop (f : FmtA)
  /-- FSTAT (R338) -/
  | fstat (f : FmtA)
  /-- SPAWN (R367) -/
  | spawn (f : FmtA)
  /-- SEND (R362) -/
  | send (f : FmtA)
  /-- RECV (R363) -/
  | recv (f : FmtA)
  /-- MSGWAIT (R364) -/
  | msgwait (f : FmtA)
  /-- FORK (R368) -/
  | fork (f : FmtA)
  /-- RDV (R369) -/
  | rdv (f : FmtA)
  /-- GLAUNCH (R355) -/
  | glaunch (f : FmtA)
  /-- NRED (R370) -/
  | nred (f : FmtA)
  /-- DEP (R365) -/
  | dep (f : FmtA)
  /-- MBCLR (R366) -/
  | mbclr (f : FmtA)
  /-- ARRIVE (R437) -/
  | arrive (f : FmtA)
  /-- ARRW (R438) -/
  | arrw (f : FmtA)
  /-- WAITB (R439) -/
  | waitb (f : FmtA)
  /-- JOIN (R435) -/
  | join (f : FmtA)
  /-- LEAVE (R435) -/
  | leave (f : FmtA)
  /-- DSWAIT (R441) -/
  | dswait (f : FmtA)
  /-- DSSET (R442) -/
  | dsset (f : FmtA)
  /-- CNTRD (R444) -/
  | cntrd (f : FmtA)
  /-- CNTADD (R444) -/
  | cntadd (f : FmtA)
  /-- RLAUNCH (R421) -/
  | rlaunch (f : FmtA)
  /-- RSTAT (R423) -/
  | rstat (f : FmtA)
  /-- POWER_ON_RESET (R450) -/
  | powerOnReset (cube : Nat) (b : BootFlash)
  /-- LINK_TRAINING (R387) -/
  | linkTraining (cube link lanes partner : Nat) (ignore : List IgnoreEntry)
  /-- FLIT_REPLAY (R376) -/
  | flitReplay (cube link : Nat)
  /-- LINK_DOWN (R376) -/
  | linkDown (cube link : Nat)
  /-- PACKET_HOP (R380) -/
  | packetHop (num dir : Nat)
  /-- TASK_PACKET (R348) -/
  | taskPacket (num : Nat)
  /-- PIFO_ADMISSION (R353) -/
  | pifoAdmission (cube : Nat)
  /-- DISPATCH (R19) -/
  | dispatch (cube h0 k0 : Nat)
  /-- NODE_COMPLETION (R358) -/
  | nodeCompletion (cube : Nat)
  /-- QUANTUM_EXPIRY (R26) -/
  | quantumExpiry (core : Nat)
  /-- CONTEXT_RETURN (R26) -/
  | contextReturn (tid core : Nat)
  /-- MIGRATION_CONTEXT (R34) -/
  | migrationContext (num : Nat)
  /-- MIGRATE_RETRY (R35) -/
  | migrateRetry (core : Nat)
  /-- REPLY_WITH_DATA (R35) -/
  | replyWithData (num : Nat)
  /-- ACKNOWLEDGEMENT (R292) -/
  | acknowledgement (num : Nat)
  /-- NACK (R383) -/
  | nack (num : Nat)
  /-- ADMISSION_REPLY (R355) -/
  | admissionReply (num : Nat)
  /-- RETRY_TIMEOUT (R383) -/
  | retryTimeout (num : Nat)
  /-- READ (R262) -/
  | read (num : Nat) (ecc : Bool)
  /-- WRITE (R233) -/
  | write (num : Nat) (ecc : Bool)
  /-- ATOMIC (R279) -/
  | atomic (num : Nat)
  /-- DECIDE_ONCE_REQUEST (R313) -/
  | decideOnceRequest (num : Nat)
  /-- OWNERSHIP_REQUEST (R281) -/
  | ownershipRequest (num : Nat)
  /-- OWNERSHIP_RELEASE (R283) -/
  | ownershipRelease (num : Nat)
  /-- OWNERSHIP_GRANT (R281) -/
  | ownershipGrant (num : Nat)
  /-- CORRECTED_ERROR (R234) -/
  | correctedError (cube kind : Nat)
  /-- DEPOSIT (R95) -/
  | deposit (num : Nat)
  /-- MESSAGE (R361) -/
  | message (num : Nat)
  /-- MULTICAST_DATA (R384) -/
  | multicastData (num : Nat)
  /-- REDUCTION_CONTRIBUTION (R385) -/
  | reductionContribution (num : Nat)
  /-- BARRIER_CONTRIBUTION (R432) -/
  | barrierContribution (num : Nat)
  /-- BARRIER_RELEASE (R430) -/
  | barrierRelease (cube group : Nat)
  /-- BARRIER_RELEASE_MULTICAST (R432) -/
  | barrierReleaseMulticast (num : Nat)
  /-- CHECKPOINT_COMMIT (R227) -/
  | checkpointCommit (cube gang : Nat)
  /-- CORE_UNCORRECTABLE (R228) -/
  | coreUncorrectable (core : Nat)
  /-- REFRESH (R257) -/
  | refresh (cube flue bank : Nat)
  /-- REFRESH_END (R258) -/
  | refreshEnd (cube flue bank : Nat)
  /-- REFRESH_RATE_CHANGE (R257) -/
  | refreshRateChange (cube : Nat) (hot : Bool)
  /-- THERMAL_CLAMP (R456) -/
  | thermalClamp (cube : Nat)
  /-- CUBE_THERMAL_TRIP (R456) -/
  | cubeThermalTrip (cube : Nat)
  /-- FETCH_GRANT (R30) -/
  | fetchGrant (core : Nat)
  /-- FORWARDED_INSTRUCTION (R28) -/
  | forwardedInstruction (core : Nat)
  /-- WAIT_WAKEUP (R36) -/
  | waitWakeup (core : Nat)
  /-- POLL_RETEST (R447) -/
  | pollRetest (core : Nat)
  /-- TRAP_ENTRY (R213) -/
  | trapEntry (core : Nat) (t : TrapReport)
  /-- CONTEXT_SAVE (R223) -/
  | contextSave (core : Nat)
  /-- TRAP_REFLECTION (R215) -/
  | trapReflection (tid : Nat)
  /-- FAULT_SERVICE (R213) -/
  | faultService (tid : Nat)
  /-- INTERRUPT (R218) -/
  | interrupt (core : Nat)
  /-- GRAPH_BUSY_REFUSAL (R488) -/
  | graphBusyRefusal (core : Nat)
  /-- MATRIX_FORM_START (R189) -/
  | matrixFormStart (core : Nat)
  /-- MATRIX_FORM_COMPLETE (R190) -/
  | matrixFormComplete (core : Nat)
  /-- GISSUE_JOINT_ISSUE (R205) -/
  | gissueJointIssue (core : Nat)
  /-- COPY_COMMAND_START (R307) -/
  | copyCommandStart (core : Nat)
  /-- COPY_COMMAND_COMPLETE (R308) -/
  | copyCommandComplete (core : Nat)
  /-- FLUE_ENTRY_START (R332) -/
  | flueEntryStart (core : Nat)
  /-- STREAM_TOKEN (R336) -/
  | streamToken (cube flue stream : Nat)
  /-- CELL_FIRE (R325) -/
  | cellFire (cube flue cell : Nat)
  /-- KERNEL_FINISH (R326) -/
  | kernelFinish (cube flue : Nat)
  /-- TRANSLATION (R254) -/
  | translation (core : Nat) (seg : BitVec 16) (off : BitVec 64) (k : AccessKind)
  /-- PAGE_TABLE_WALK (R402) -/
  | pageTableWalk (core : Nat) (seg : BitVec 16) (off : BitVec 64)
  /-- REQUEST_REMAP (R390) -/
  | requestRemap (num : Nat)
  /-- MAP_INSTALL (R389) -/
  | mapInstall (cube : Nat) (m : InterleaveMap)
  /-- CXL_MEM_REQUEST (R286) -/
  | cxlMemRequest (cube : Nat) (r : HostRequest)
  /-- BACKINV_RESPONSE (R394) -/
  | backinvResponse (cube atom : Nat)
  /-- BACKINV_TIMEOUT (R394) -/
  | backinvTimeout (cube atom : Nat)
  /-- DOORBELL (R393) -/
  | doorbell (cube : Nat) (v : BitVec 64)
  /-- REGISTER_WRITE (R5) -/
  | registerWrite (cube : Nat) (r : WindowReg) (v : BitVec 64)
  /-- REFINEMENT_EXIT (R417) -/
  | refinementExit (cube run : Nat)
  /-- INSTALL_RANK_PROGRAM (R350) -/
  | installRankProgram (cube : Nat) (words : List (BitVec 32))
  /-- SET_QUANTUM (R26) -/
  | setQuantum (cube quantum : Nat)
  /-- PREEMPT (R37) -/
  | preempt (cube gang : Nat)
  /-- WITHDRAW_PACKET (R353) -/
  | withdrawPacket (cube arrival : Nat)
  /-- WRITE_SEGMENT_DESCRIPTOR (R401) -/
  | writeSegmentDescriptor (cube : Nat) (asid seg : BitVec 16) (desc : BitVec 128)
  /-- WRITE_PAGE_TABLE_ENTRY (R403) -/
  | writePageTableEntry (addr : Nat) (v : BitVec 64)
  /-- BUMP_ASID_GENERATION (R256) -/
  | bumpAsidGeneration (cube : Nat) (asid : BitVec 16) (reflect : Bool)
  /-- REPLACE_INTERLEAVE_MAP (R487) -/
  | replaceInterleaveMap (cube : Nat) (m : InterleaveMap)
  /-- WRITE_TRAP_TABLE_ENTRY (R214) -/
  | writeTrapTableEntry (cube : Nat) (asid : BitVec 16) (entry : BitVec 256)
  /-- RETIRE_FLUE (R243) -/
  | retireFlue (cube flue : Nat)
  /-- MARK_SPARE_CORE (R229) -/
  | markSpareCore (core : Nat)
  /-- REMOVE_CUBE (R389) -/
  | removeCube (cube : Nat) (m : InterleaveMap)
  /-- SET_RETRY_TIME (R383) -/
  | setRetryTime (cube cycles : Nat)
  /-- SET_POWER_LIMIT (R456) -/
  | setPowerLimit (cube watts : Nat)
  /-- ATTESTATION_REPORT (R458) -/
  | attestationReport (cube : Nat) (nonce : BitVec 256)
  /-- STOP_THREAD (R455) -/
  | stopThread (core : Nat)
  /-- STEP_THREAD (R455) -/
  | stepThread (core : Nat)
  /-- RESUME_THREAD (R455) -/
  | resumeThread (core : Nat)
  /-- CLEAR_PERFORMANCE_COUNTERS (R445) -/
  | clearPerformanceCounters (core : Nat)
  /-- THERMAL_CLAMP_END (R456) -/
  | thermalClampEnd (cube : Nat)
  /-- CORE_CLOCK_CYCLE (R51) -/
  | coreClockCycle (cube : Nat)
  /-- RECOVERY_IMAGE_SUPPLY (R452) -/
  | recoveryImageSupply (cube : Nat) (image : FirmwareImage)
  deriving DecidableEq, Repr

end Sys2Proof
end

