-- ==== Sys2Proof/Machine/Encoding.lean ====
section
/-! DEFINITION. The encoding tables of R75-R85 and of the chapters that divide a format further: which
opcode and funct an instruction has, what each of its operand fields may hold, which prefixes it takes
and which of its bits are reserved. The decoder, the encoder and well-formedness all read them. -/

namespace Sys2Proof

/-- An instruction seen as its word format (R41) with its opcode and funct. Events have no word. -/
inductive Shape where
  | a (op fn : Nat) (f : FmtA)
  | l (op : Nat) (f : FmtL)
  | m (op fn : Nat) (f : FmtM)
  | b (op : Nat) (cond : BitVec 3) (f : FmtB)
  | t (op fn : Nat) (f : FmtT)
  | lpad (label : BitVec 16)
  | jt (i : BitVec 6)
  | rep (n : BitVec 8) (len : BitVec 4) (stride : BitVec 5)
  | repg (c : BitVec 6) (len : BitVec 4) (stride : BitVec 5)
  | event
  deriving DecidableEq, Repr

/-- The format, opcode and funct of each instruction: the tables of R78-R82. -/
def Instr.shape : Instr → Shape
  | .add f => .a 0x01 0 f
  | .sub f => .a 0x01 1 f
  | .adds f => .a 0x01 2 f
  | .subs f => .a 0x01 3 f
  | .min f => .a 0x01 4 f
  | .max f => .a 0x01 5 f
  | .minu f => .a 0x01 6 f
  | .maxu f => .a 0x01 7 f
  | .and f => .a 0x02 0 f
  | .or f => .a 0x02 1 f
  | .xor f => .a 0x02 2 f
  | .andn f => .a 0x02 3 f
  | .sll f => .a 0x02 4 f
  | .srl f => .a 0x02 5 f
  | .sra f => .a 0x02 6 f
  | .rol f => .a 0x02 7 f
  | .ceq f => .a 0x03 0 f
  | .cne f => .a 0x03 1 f
  | .clt f => .a 0x03 2 f
  | .cltu f => .a 0x03 3 f
  | .sel f => .a 0x03 4 f
  | .clz f => .a 0x03 5 f
  | .ctz f => .a 0x03 6 f
  | .popc f => .a 0x03 7 f
  | .mul f => .a 0x04 0 f
  | .mulh f => .a 0x04 1 f
  | .mulhu f => .a 0x04 2 f
  | .div f => .a 0x04 3 f
  | .divu f => .a 0x04 4 f
  | .rem f => .a 0x04 5 f
  | .remu f => .a 0x04 6 f
  | .padd f => .a 0x05 0 f
  | .psub f => .a 0x05 1 f
  | .padds f => .a 0x05 2 f
  | .psubs f => .a 0x05 3 f
  | .pmul f => .a 0x05 4 f
  | .pmin f => .a 0x05 5 f
  | .pmax f => .a 0x05 6 f
  | .pavg f => .a 0x05 7 f
  | .addi f => .l 0x10 f
  | .andi f => .l 0x11 f
  | .ori f => .l 0x12 f
  | .xori f => .l 0x13 f
  | .li f => .l 0x14 f
  | .slli f => .l 0x15 f
  | .srli f => .l 0x16 f
  | .srai f => .l 0x17 f
  | .clti f => .l 0x18 f
  | .cltui f => .l 0x19 f
  | .ceqi f => .l 0x1A f
  | .lipc f => .l 0x1B f
  | .b f => .b 0x20 6 f
  | .bCond k f => .b 0x20 k f
  | .call f => .b 0x21 6 f
  | .callCond k f => .b 0x21 k f
  | .ret f => .a 0x22 0 f
  | .yield f => .a 0x22 1 f
  | .halt f => .a 0x22 2 f
  | .trap f => .a 0x22 3 f
  | .follow f => .a 0x22 4 f
  | .detach f => .a 0x22 5 f
  | .rejoin f => .a 0x22 6 f
  | .rfe f => .a 0x22 7 f
  | .srd f => .l 0x23 f
  | .swr f => .l 0x24 f
  | .lpad l => .lpad l
  | .jt i => .jt i
  | .rep n l t => .rep n l t
  | .repg c l t => .repg c l t
  | .vaddI32 f => .a 0x40 0 f
  | .vsubI32 f => .a 0x40 1 f
  | .vaddsI32 f => .a 0x40 2 f
  | .vsubsI32 f => .a 0x40 3 f
  | .vminI32 f => .a 0x40 4 f
  | .vmaxI32 f => .a 0x40 5 f
  | .vmulI32 f => .a 0x40 6 f
  | .vmulhI32 f => .a 0x40 7 f
  | .vand f => .a 0x41 0 f
  | .vor f => .a 0x41 1 f
  | .vxor f => .a 0x41 2 f
  | .vandn f => .a 0x41 3 f
  | .vsll f => .a 0x41 4 f
  | .vsrl f => .a 0x41 5 f
  | .vsra f => .a 0x41 6 f
  | .vsel f => .a 0x41 7 f
  | .vaddF32 f => .a 0x42 0 f
  | .vsubF32 f => .a 0x42 1 f
  | .vmulF32 f => .a 0x42 2 f
  | .vfmaF32 f => .a 0x42 3 f
  | .vfmsF32 f => .a 0x42 4 f
  | .vminF32 f => .a 0x42 5 f
  | .vmaxF32 f => .a 0x42 6 f
  | .vdivF32 f => .a 0x42 7 f
  | .vaddF64 f => .a 0x43 0 f
  | .vsubF64 f => .a 0x43 1 f
  | .vmulF64 f => .a 0x43 2 f
  | .vfmaF64 f => .a 0x43 3 f
  | .vfmsF64 f => .a 0x43 4 f
  | .vminF64 f => .a 0x43 5 f
  | .vmaxF64 f => .a 0x43 6 f
  | .vdivF64 f => .a 0x43 7 f
  | .vceqF32 f => .a 0x44 0 f
  | .vcltF32 f => .a 0x44 1 f
  | .vcleF32 f => .a 0x44 2 f
  | .vcunF32 f => .a 0x44 3 f
  | .vceqI32 f => .a 0x44 4 f
  | .vcltI32 f => .a 0x44 5 f
  | .vcltuI32 f => .a 0x44 6 f
  | .vcleI32 f => .a 0x44 7 f
  | .mand f => .a 0x45 0 f
  | .mor f => .a 0x45 1 f
  | .mxor f => .a 0x45 2 f
  | .mandn f => .a 0x45 3 f
  | .mpop f => .a 0x45 4 f
  | .mffs f => .a 0x45 5 f
  | .mset f => .a 0x45 6 f
  | .mget f => .a 0x45 7 f
  | .vperm f => .a 0x46 0 f
  | .vshuf f => .a 0x46 1 f
  | .vrsumF32 f => .a 0x47 0 f
  | .vrmaxF32 f => .a 0x47 1 f
  | .vrminF32 f => .a 0x47 2 f
  | .vrsumF64 f => .a 0x47 3 f
  | .vrsumI32 f => .a 0x47 4 f
  | .vrmaxI32 f => .a 0x47 5 f
  | .vrminI32 f => .a 0x47 6 f
  | .vmov f => .a 0x48 0 f
  | .vxget f => .a 0x48 1 f
  | .vxput f => .a 0x48 2 f
  | .vins f => .a 0x48 3 f
  | .vext f => .a 0x48 4 f
  | .vbcast f => .a 0x48 5 f
  | .vcvtF32I32 f => .a 0x49 0 f
  | .vcvtI32F32 f => .a 0x49 1 f
  | .vcvtF64F32 f => .a 0x49 2 f
  | .vcvtF32F64 f => .a 0x49 3 f
  | .vcvtBf16F32 f => .a 0x49 4 f
  | .vcvtF32Bf16 f => .a 0x49 5 f
  | .vcvtF16F32 f => .a 0x49 6 f
  | .vcvtF32F16 f => .a 0x49 7 f
  | .vpkSx2 f => .a 0x4A 0 f
  | .vpkSx4 f => .a 0x4A 1 f
  | .vpkSx7 f => .a 0x4A 2 f
  | .vupkSx2 f => .a 0x4A 4 f
  | .vupkSx4 f => .a 0x4A 5 f
  | .vupkSx7 f => .a 0x4A 6 f
  | .vexp2 f => .a 0x4B 0 f
  | .vrcp f => .a 0x4B 1 f
  | .vrsqrt f => .a 0x4B 2 f
  | .vlog2 f => .a 0x4B 3 f
  | .tcfg f => .t 0x60 0 f
  | .trowin f => .t 0x60 1 f
  | .trowout f => .t 0x60 2 f
  | .tcolin f => .t 0x60 3 f
  | .tcolout f => .t 0x60 4 f
  | .tzero f => .t 0x60 5 f
  | .tfree f => .t 0x60 6 f
  | .tld f => .t 0x61 0 f
  | .tst f => .t 0x61 1 f
  | .tmmaBf16 f => .t 0x62 0 f
  | .tmmaSx7 f => .t 0x62 1 f
  | .tmmaSx4 f => .t 0x62 2 f
  | .tmmaSx2 f => .t 0x62 3 f
  | .gissueBf16 f => .t 0x63 0 f
  | .gissueSx7 f => .t 0x63 1 f
  | .gissueSx4 f => .t 0x63 2 f
  | .gissueSx2 f => .t 0x63 3 f
  | .taccrd f => .t 0x64 0 f
  | .taccwr f => .t 0x64 1 f
  | .tacczero f => .t 0x64 2 f
  | .ldI8 f => .m 0x70 0 f
  | .ldN8 f => .m 0x70 1 f
  | .ldI16 f => .m 0x70 2 f
  | .ldN16 f => .m 0x70 3 f
  | .ldI32 f => .m 0x70 4 f
  | .ldN32 f => .m 0x70 5 f
  | .ld64 f => .m 0x70 6 f
  | .st8 f => .m 0x71 0 f
  | .st16 f => .m 0x71 1 f
  | .st32 f => .m 0x71 2 f
  | .st64 f => .m 0x71 3 f
  | .vld f => .m 0x72 0 f
  | .vst f => .m 0x72 1 f
  | .vldm f => .m 0x72 2 f
  | .vstm f => .m 0x72 3 f
  | .vlds f => .a 0x73 0 f
  | .vsts f => .a 0x73 1 f
  | .vgath f => .a 0x73 2 f
  | .vscat f => .a 0x73 3 f
  | .pref f => .m 0x74 0 f
  | .migrate f => .m 0x75 0 f
  | .mapr f => .m 0x76 0 f
  | .unmapr f => .m 0x76 1 f
  | .fence f => .l 0x77 f
  | .lda32 f => .m 0x78 0 f
  | .lda64 f => .m 0x78 1 f
  | .stl32 f => .m 0x78 2 f
  | .stl64 f => .m 0x78 3 f
  | .amoadd64 f => .m 0x80 0 f
  | .amoand64 f => .m 0x80 1 f
  | .amoor64 f => .m 0x80 2 f
  | .amoxor64 f => .m 0x80 3 f
  | .amomin64 f => .m 0x80 4 f
  | .amomax64 f => .m 0x80 5 f
  | .amoswap64 f => .m 0x80 6 f
  | .amocas64 f => .m 0x80 7 f
  | .amoadd32 f => .m 0x81 0 f
  | .amoand32 f => .m 0x81 1 f
  | .amoor32 f => .m 0x81 2 f
  | .amoxor32 f => .m 0x81 3 f
  | .amomin32 f => .m 0x81 4 f
  | .amomax32 f => .m 0x81 5 f
  | .amoswap32 f => .m 0x81 6 f
  | .amocas32 f => .m 0x81 7 f
  | .vamoAdd f => .a 0x82 0 f
  | .vamoAnd f => .a 0x82 1 f
  | .vamoOr f => .a 0x82 2 f
  | .vamoXor f => .a 0x82 3 f
  | .vamoMin f => .a 0x82 4 f
  | .vamoMax f => .a 0x82 5 f
  | .vamoFadd f => .a 0x82 6 f
  | .cpy f => .a 0x88 0 f
  | .cpym f => .a 0x88 1 f
  | .cpyf f => .a 0x88 2 f
  | .propose f => .m 0x90 0 f
  | .dread f => .m 0x90 1 f
  | .dretire f => .m 0x90 2 f
  | .dinit f => .m 0x90 3 f
  | .fcfg f => .a 0x91 0 f
  | .fstart f => .a 0x91 1 f
  | .fstop f => .a 0x91 2 f
  | .fstat f => .a 0x91 3 f
  | .spawn f => .a 0x92 0 f
  | .send f => .a 0x92 1 f
  | .recv f => .a 0x92 2 f
  | .msgwait f => .a 0x92 3 f
  | .fork f => .a 0x92 4 f
  | .rdv f => .a 0x92 5 f
  | .glaunch f => .a 0x92 6 f
  | .nred f => .a 0x92 7 f
  | .dep f => .a 0x93 0 f
  | .mbclr f => .a 0x93 1 f
  | .arrive f => .a 0x94 0 f
  | .arrw f => .a 0x94 1 f
  | .waitb f => .a 0x94 2 f
  | .join f => .a 0x94 3 f
  | .leave f => .a 0x94 4 f
  | .dswait f => .a 0x94 5 f
  | .dsset f => .a 0x94 6 f
  | .cntrd f => .a 0x95 0 f
  | .cntadd f => .a 0x95 1 f
  | .rlaunch f => .a 0x96 0 f
  | .rstat f => .a 0x96 1 f
  | .powerOnReset _ _ => .event
  | .linkTraining _ _ _ _ _ => .event
  | .flitReplay _ _ => .event
  | .linkDown _ _ => .event
  | .packetHop _ _ => .event
  | .taskPacket _ => .event
  | .pifoAdmission _ => .event
  | .dispatch _ _ _ => .event
  | .nodeCompletion _ => .event
  | .quantumExpiry _ => .event
  | .contextReturn _ _ => .event
  | .migrationContext _ => .event
  | .migrateRetry _ => .event
  | .replyWithData _ => .event
  | .acknowledgement _ => .event
  | .nack _ => .event
  | .admissionReply _ => .event
  | .retryTimeout _ => .event
  | .read _ _ => .event
  | .write _ _ => .event
  | .atomic _ => .event
  | .decideOnceRequest _ => .event
  | .ownershipRequest _ => .event
  | .ownershipRelease _ => .event
  | .ownershipGrant _ => .event
  | .correctedError _ _ => .event
  | .deposit _ => .event
  | .message _ => .event
  | .multicastData _ => .event
  | .reductionContribution _ => .event
  | .barrierContribution _ => .event
  | .barrierRelease _ _ => .event
  | .barrierReleaseMulticast _ => .event
  | .checkpointCommit _ _ => .event
  | .coreUncorrectable _ => .event
  | .refresh _ _ _ => .event
  | .refreshEnd _ _ _ => .event
  | .refreshRateChange _ _ => .event
  | .thermalClamp _ => .event
  | .cubeThermalTrip _ => .event
  | .fetchGrant _ => .event
  | .forwardedInstruction _ => .event
  | .waitWakeup _ => .event
  | .pollRetest _ => .event
  | .trapEntry _ _ => .event
  | .contextSave _ => .event
  | .trapReflection _ => .event
  | .faultService _ => .event
  | .interrupt _ => .event
  | .graphBusyRefusal _ => .event
  | .matrixFormStart _ => .event
  | .matrixFormComplete _ => .event
  | .gissueJointIssue _ => .event
  | .copyCommandStart _ => .event
  | .copyCommandComplete _ => .event
  | .flueEntryStart _ => .event
  | .streamToken _ _ _ => .event
  | .cellFire _ _ _ => .event
  | .kernelFinish _ _ => .event
  | .translation _ _ _ _ => .event
  | .pageTableWalk _ _ _ => .event
  | .requestRemap _ => .event
  | .mapInstall _ _ => .event
  | .cxlMemRequest _ _ => .event
  | .backinvResponse _ _ => .event
  | .backinvTimeout _ _ => .event
  | .doorbell _ _ => .event
  | .registerWrite _ _ _ => .event
  | .refinementExit _ _ => .event
  | .installRankProgram _ _ => .event
  | .setQuantum _ _ => .event
  | .preempt _ _ => .event
  | .withdrawPacket _ _ => .event
  | .writeSegmentDescriptor _ _ _ _ => .event
  | .writePageTableEntry _ _ => .event
  | .bumpAsidGeneration _ _ _ => .event
  | .replaceInterleaveMap _ _ => .event
  | .writeTrapTableEntry _ _ _ => .event
  | .retireFlue _ _ => .event
  | .markSpareCore _ => .event
  | .removeCube _ _ => .event
  | .setRetryTime _ _ => .event
  | .setPowerLimit _ _ => .event
  | .attestationReport _ _ => .event
  | .stopThread _ => .event
  | .stepThread _ => .event
  | .resumeThread _ => .event
  | .clearPerformanceCounters _ => .event
  | .thermalClampEnd _ => .event
  | .coreClockCycle _ => .event
  | .recoveryImageSupply _ _ => .event

/-- Opcode 0x01 (R78, R79, R81, R82). -/
def instrA01 (fn : Nat) (f : FmtA) : Option Instr :=
  match fn with
  | 0 => some (.add f)
  | 1 => some (.sub f)
  | 2 => some (.adds f)
  | 3 => some (.subs f)
  | 4 => some (.min f)
  | 5 => some (.max f)
  | 6 => some (.minu f)
  | 7 => some (.maxu f)
  | _ => none

/-- Opcode 0x02 (R78, R79, R81, R82). -/
def instrA02 (fn : Nat) (f : FmtA) : Option Instr :=
  match fn with
  | 0 => some (.and f)
  | 1 => some (.or f)
  | 2 => some (.xor f)
  | 3 => some (.andn f)
  | 4 => some (.sll f)
  | 5 => some (.srl f)
  | 6 => some (.sra f)
  | 7 => some (.rol f)
  | _ => none

/-- Opcode 0x03 (R78, R79, R81, R82). -/
def instrA03 (fn : Nat) (f : FmtA) : Option Instr :=
  match fn with
  | 0 => some (.ceq f)
  | 1 => some (.cne f)
  | 2 => some (.clt f)
  | 3 => some (.cltu f)
  | 4 => some (.sel f)
  | 5 => some (.clz f)
  | 6 => some (.ctz f)
  | 7 => some (.popc f)
  | _ => none

/-- Opcode 0x04 (R78, R79, R81, R82). -/
def instrA04 (fn : Nat) (f : FmtA) : Option Instr :=
  match fn with
  | 0 => some (.mul f)
  | 1 => some (.mulh f)
  | 2 => some (.mulhu f)
  | 3 => some (.div f)
  | 4 => some (.divu f)
  | 5 => some (.rem f)
  | 6 => some (.remu f)
  | _ => none

/-- Opcode 0x05 (R78, R79, R81, R82). -/
def instrA05 (fn : Nat) (f : FmtA) : Option Instr :=
  match fn with
  | 0 => some (.padd f)
  | 1 => some (.psub f)
  | 2 => some (.padds f)
  | 3 => some (.psubs f)
  | 4 => some (.pmul f)
  | 5 => some (.pmin f)
  | 6 => some (.pmax f)
  | 7 => some (.pavg f)
  | _ => none

/-- Opcode 0x22 (R78, R79, R81, R82). -/
def instrA22 (fn : Nat) (f : FmtA) : Option Instr :=
  match fn with
  | 0 => some (.ret f)
  | 1 => some (.yield f)
  | 2 => some (.halt f)
  | 3 => some (.trap f)
  | 4 => some (.follow f)
  | 5 => some (.detach f)
  | 6 => some (.rejoin f)
  | 7 => some (.rfe f)
  | _ => none

/-- Opcode 0x40 (R78, R79, R81, R82). -/
def instrA40 (fn : Nat) (f : FmtA) : Option Instr :=
  match fn with
  | 0 => some (.vaddI32 f)
  | 1 => some (.vsubI32 f)
  | 2 => some (.vaddsI32 f)
  | 3 => some (.vsubsI32 f)
  | 4 => some (.vminI32 f)
  | 5 => some (.vmaxI32 f)
  | 6 => some (.vmulI32 f)
  | 7 => some (.vmulhI32 f)
  | _ => none

/-- Opcode 0x41 (R78, R79, R81, R82). -/
def instrA41 (fn : Nat) (f : FmtA) : Option Instr :=
  match fn with
  | 0 => some (.vand f)
  | 1 => some (.vor f)
  | 2 => some (.vxor f)
  | 3 => some (.vandn f)
  | 4 => some (.vsll f)
  | 5 => some (.vsrl f)
  | 6 => some (.vsra f)
  | 7 => some (.vsel f)
  | _ => none

/-- Opcode 0x42 (R78, R79, R81, R82). -/
def instrA42 (fn : Nat) (f : FmtA) : Option Instr :=
  match fn with
  | 0 => some (.vaddF32 f)
  | 1 => some (.vsubF32 f)
  | 2 => some (.vmulF32 f)
  | 3 => some (.vfmaF32 f)
  | 4 => some (.vfmsF32 f)
  | 5 => some (.vminF32 f)
  | 6 => some (.vmaxF32 f)
  | 7 => some (.vdivF32 f)
  | _ => none

/-- Opcode 0x43 (R78, R79, R81, R82). -/
def instrA43 (fn : Nat) (f : FmtA) : Option Instr :=
  match fn with
  | 0 => some (.vaddF64 f)
  | 1 => some (.vsubF64 f)
  | 2 => some (.vmulF64 f)
  | 3 => some (.vfmaF64 f)
  | 4 => some (.vfmsF64 f)
  | 5 => some (.vminF64 f)
  | 6 => some (.vmaxF64 f)
  | 7 => some (.vdivF64 f)
  | _ => none

/-- Opcode 0x44 (R78, R79, R81, R82). -/
def instrA44 (fn : Nat) (f : FmtA) : Option Instr :=
  match fn with
  | 0 => some (.vceqF32 f)
  | 1 => some (.vcltF32 f)
  | 2 => some (.vcleF32 f)
  | 3 => some (.vcunF32 f)
  | 4 => some (.vceqI32 f)
  | 5 => some (.vcltI32 f)
  | 6 => some (.vcltuI32 f)
  | 7 => some (.vcleI32 f)
  | _ => none

/-- Opcode 0x45 (R78, R79, R81, R82). -/
def instrA45 (fn : Nat) (f : FmtA) : Option Instr :=
  match fn with
  | 0 => some (.mand f)
  | 1 => some (.mor f)
  | 2 => some (.mxor f)
  | 3 => some (.mandn f)
  | 4 => some (.mpop f)
  | 5 => some (.mffs f)
  | 6 => some (.mset f)
  | 7 => some (.mget f)
  | _ => none

/-- Opcode 0x46 (R78, R79, R81, R82). -/
def instrA46 (fn : Nat) (f : FmtA) : Option Instr :=
  match fn with
  | 0 => some (.vperm f)
  | 1 => some (.vshuf f)
  | _ => none

/-- Opcode 0x47 (R78, R79, R81, R82). -/
def instrA47 (fn : Nat) (f : FmtA) : Option Instr :=
  match fn with
  | 0 => some (.vrsumF32 f)
  | 1 => some (.vrmaxF32 f)
  | 2 => some (.vrminF32 f)
  | 3 => some (.vrsumF64 f)
  | 4 => some (.vrsumI32 f)
  | 5 => some (.vrmaxI32 f)
  | 6 => some (.vrminI32 f)
  | _ => none

/-- Opcode 0x48 (R78, R79, R81, R82). -/
def instrA48 (fn : Nat) (f : FmtA) : Option Instr :=
  match fn with
  | 0 => some (.vmov f)
  | 1 => some (.vxget f)
  | 2 => some (.vxput f)
  | 3 => some (.vins f)
  | 4 => some (.vext f)
  | 5 => some (.vbcast f)
  | _ => none

/-- Opcode 0x49 (R78, R79, R81, R82). -/
def instrA49 (fn : Nat) (f : FmtA) : Option Instr :=
  match fn with
  | 0 => some (.vcvtF32I32 f)
  | 1 => some (.vcvtI32F32 f)
  | 2 => some (.vcvtF64F32 f)
  | 3 => some (.vcvtF32F64 f)
  | 4 => some (.vcvtBf16F32 f)
  | 5 => some (.vcvtF32Bf16 f)
  | 6 => some (.vcvtF16F32 f)
  | 7 => some (.vcvtF32F16 f)
  | _ => none

/-- Opcode 0x4A (R78, R79, R81, R82). -/
def instrA4A (fn : Nat) (f : FmtA) : Option Instr :=
  match fn with
  | 0 => some (.vpkSx2 f)
  | 1 => some (.vpkSx4 f)
  | 2 => some (.vpkSx7 f)
  | 4 => some (.vupkSx2 f)
  | 5 => some (.vupkSx4 f)
  | 6 => some (.vupkSx7 f)
  | _ => none

/-- Opcode 0x4B (R78, R79, R81, R82). -/
def instrA4B (fn : Nat) (f : FmtA) : Option Instr :=
  match fn with
  | 0 => some (.vexp2 f)
  | 1 => some (.vrcp f)
  | 2 => some (.vrsqrt f)
  | 3 => some (.vlog2 f)
  | _ => none

/-- Opcode 0x73 (R78, R79, R81, R82). -/
def instrA73 (fn : Nat) (f : FmtA) : Option Instr :=
  match fn with
  | 0 => some (.vlds f)
  | 1 => some (.vsts f)
  | 2 => some (.vgath f)
  | 3 => some (.vscat f)
  | _ => none

/-- Opcode 0x82 (R78, R79, R81, R82). -/
def instrA82 (fn : Nat) (f : FmtA) : Option Instr :=
  match fn with
  | 0 => some (.vamoAdd f)
  | 1 => some (.vamoAnd f)
  | 2 => some (.vamoOr f)
  | 3 => some (.vamoXor f)
  | 4 => some (.vamoMin f)
  | 5 => some (.vamoMax f)
  | 6 => some (.vamoFadd f)
  | _ => none

/-- Opcode 0x88 (R78, R79, R81, R82). -/
def instrA88 (fn : Nat) (f : FmtA) : Option Instr :=
  match fn with
  | 0 => some (.cpy f)
  | 1 => some (.cpym f)
  | 2 => some (.cpyf f)
  | _ => none

/-- Opcode 0x91 (R78, R79, R81, R82). -/
def instrA91 (fn : Nat) (f : FmtA) : Option Instr :=
  match fn with
  | 0 => some (.fcfg f)
  | 1 => some (.fstart f)
  | 2 => some (.fstop f)
  | 3 => some (.fstat f)
  | _ => none

/-- Opcode 0x92 (R78, R79, R81, R82). -/
def instrA92 (fn : Nat) (f : FmtA) : Option Instr :=
  match fn with
  | 0 => some (.spawn f)
  | 1 => some (.send f)
  | 2 => some (.recv f)
  | 3 => some (.msgwait f)
  | 4 => some (.fork f)
  | 5 => some (.rdv f)
  | 6 => some (.glaunch f)
  | 7 => some (.nred f)
  | _ => none

/-- Opcode 0x93 (R78, R79, R81, R82). -/
def instrA93 (fn : Nat) (f : FmtA) : Option Instr :=
  match fn with
  | 0 => some (.dep f)
  | 1 => some (.mbclr f)
  | _ => none

/-- The instruction of an opcode and funct of format A (R78, R79, R81, R82); none where the map assigns none. -/
def instrA (op fn : Nat) (f : FmtA) : Option Instr :=
  match op with
  | 0x01 => instrA01 fn f
  | 0x02 => instrA02 fn f
  | 0x03 => instrA03 fn f
  | 0x04 => instrA04 fn f
  | 0x05 => instrA05 fn f
  | 0x22 => instrA22 fn f
  | 0x40 => instrA40 fn f
  | 0x41 => instrA41 fn f
  | 0x42 => instrA42 fn f
  | 0x43 => instrA43 fn f
  | 0x44 => instrA44 fn f
  | 0x45 => instrA45 fn f
  | 0x46 => instrA46 fn f
  | 0x47 => instrA47 fn f
  | 0x48 => instrA48 fn f
  | 0x49 => instrA49 fn f
  | 0x4A => instrA4A fn f
  | 0x4B => instrA4B fn f
  | 0x73 => instrA73 fn f
  | 0x82 => instrA82 fn f
  | 0x88 => instrA88 fn f
  | 0x91 => instrA91 fn f
  | 0x92 => instrA92 fn f
  | 0x93 => instrA93 fn f
  | _ => none

/-- Opcode 0x94 (R82). -/
noncomputable def instrHigh94 (fn : Nat) (f : FmtA) : Option Instr :=
  match fn with
  | 0 => some (.arrive f)
  | 1 => some (.arrw f)
  | 2 => some (.waitb f)
  | 3 => some (.join f)
  | 4 => some (.leave f)
  | 5 => some (.dswait f)
  | 6 => some (.dsset f)
  | _ => none

/-- Opcode 0x95 (R82). -/
noncomputable def instrHigh95 (fn : Nat) (f : FmtA) : Option Instr :=
  match fn with
  | 0 => some (.cntrd f)
  | 1 => some (.cntadd f)
  | _ => none

/-- Opcode 0x96 (R82). -/
noncomputable def instrHigh96 (fn : Nat) (f : FmtA) : Option Instr :=
  match fn with
  | 0 => some (.rlaunch f)
  | 1 => some (.rstat f)
  | _ => none

/-- The instruction of an opcode and funct of format A (R82); none where the map assigns none. -/
noncomputable def instrHigh (op fn : Nat) (f : FmtA) : Option Instr :=
  match op with
  | 0x94 => instrHigh94 fn f
  | 0x95 => instrHigh95 fn f
  | 0x96 => instrHigh96 fn f
  | _ => none

/-- Opcode 0x70 (R81, R82). -/
def instrM70 (fn : Nat) (f : FmtM) : Option Instr :=
  match fn with
  | 0 => some (.ldI8 f)
  | 1 => some (.ldN8 f)
  | 2 => some (.ldI16 f)
  | 3 => some (.ldN16 f)
  | 4 => some (.ldI32 f)
  | 5 => some (.ldN32 f)
  | 6 => some (.ld64 f)
  | _ => none

/-- Opcode 0x71 (R81, R82). -/
def instrM71 (fn : Nat) (f : FmtM) : Option Instr :=
  match fn with
  | 0 => some (.st8 f)
  | 1 => some (.st16 f)
  | 2 => some (.st32 f)
  | 3 => some (.st64 f)
  | _ => none

/-- Opcode 0x72 (R81, R82). -/
def instrM72 (fn : Nat) (f : FmtM) : Option Instr :=
  match fn with
  | 0 => some (.vld f)
  | 1 => some (.vst f)
  | 2 => some (.vldm f)
  | 3 => some (.vstm f)
  | _ => none

/-- Opcode 0x74 (R81, R82). -/
def instrM74 (fn : Nat) (f : FmtM) : Option Instr :=
  match fn with
  | 0 => some (.pref f)
  | _ => none

/-- Opcode 0x75 (R81, R82). -/
def instrM75 (fn : Nat) (f : FmtM) : Option Instr :=
  match fn with
  | 0 => some (.migrate f)
  | _ => none

/-- Opcode 0x76 (R81, R82). -/
def instrM76 (fn : Nat) (f : FmtM) : Option Instr :=
  match fn with
  | 0 => some (.mapr f)
  | 1 => some (.unmapr f)
  | _ => none

/-- Opcode 0x78 (R81, R82). -/
def instrM78 (fn : Nat) (f : FmtM) : Option Instr :=
  match fn with
  | 0 => some (.lda32 f)
  | 1 => some (.lda64 f)
  | 2 => some (.stl32 f)
  | 3 => some (.stl64 f)
  | _ => none

/-- Opcode 0x80 (R81, R82). -/
def instrM80 (fn : Nat) (f : FmtM) : Option Instr :=
  match fn with
  | 0 => some (.amoadd64 f)
  | 1 => some (.amoand64 f)
  | 2 => some (.amoor64 f)
  | 3 => some (.amoxor64 f)
  | 4 => some (.amomin64 f)
  | 5 => some (.amomax64 f)
  | 6 => some (.amoswap64 f)
  | 7 => some (.amocas64 f)
  | _ => none

/-- Opcode 0x81 (R81, R82). -/
def instrM81 (fn : Nat) (f : FmtM) : Option Instr :=
  match fn with
  | 0 => some (.amoadd32 f)
  | 1 => some (.amoand32 f)
  | 2 => some (.amoor32 f)
  | 3 => some (.amoxor32 f)
  | 4 => some (.amomin32 f)
  | 5 => some (.amomax32 f)
  | 6 => some (.amoswap32 f)
  | 7 => some (.amocas32 f)
  | _ => none

/-- Opcode 0x90 (R81, R82). -/
def instrM90 (fn : Nat) (f : FmtM) : Option Instr :=
  match fn with
  | 0 => some (.propose f)
  | 1 => some (.dread f)
  | 2 => some (.dretire f)
  | 3 => some (.dinit f)
  | _ => none

/-- The instruction of an opcode and funct of format M (R81, R82); none where the map assigns none. -/
def instrM (op fn : Nat) (f : FmtM) : Option Instr :=
  match op with
  | 0x70 => instrM70 fn f
  | 0x71 => instrM71 fn f
  | 0x72 => instrM72 fn f
  | 0x74 => instrM74 fn f
  | 0x75 => instrM75 fn f
  | 0x76 => instrM76 fn f
  | 0x78 => instrM78 fn f
  | 0x80 => instrM80 fn f
  | 0x81 => instrM81 fn f
  | 0x90 => instrM90 fn f
  | _ => none

/-- Opcode 0x60 (R80). -/
def instrT60 (fn : Nat) (f : FmtT) : Option Instr :=
  match fn with
  | 0 => some (.tcfg f)
  | 1 => some (.trowin f)
  | 2 => some (.trowout f)
  | 3 => some (.tcolin f)
  | 4 => some (.tcolout f)
  | 5 => some (.tzero f)
  | 6 => some (.tfree f)
  | _ => none

/-- Opcode 0x61 (R80). -/
def instrT61 (fn : Nat) (f : FmtT) : Option Instr :=
  match fn with
  | 0 => some (.tld f)
  | 1 => some (.tst f)
  | _ => none

/-- Opcode 0x62 (R80). -/
def instrT62 (fn : Nat) (f : FmtT) : Option Instr :=
  match fn with
  | 0 => some (.tmmaBf16 f)
  | 1 => some (.tmmaSx7 f)
  | 2 => some (.tmmaSx4 f)
  | 3 => some (.tmmaSx2 f)
  | _ => none

/-- Opcode 0x63 (R80). -/
def instrT63 (fn : Nat) (f : FmtT) : Option Instr :=
  match fn with
  | 0 => some (.gissueBf16 f)
  | 1 => some (.gissueSx7 f)
  | 2 => some (.gissueSx4 f)
  | 3 => some (.gissueSx2 f)
  | _ => none

/-- Opcode 0x64 (R80). -/
def instrT64 (fn : Nat) (f : FmtT) : Option Instr :=
  match fn with
  | 0 => some (.taccrd f)
  | 1 => some (.taccwr f)
  | 2 => some (.tacczero f)
  | _ => none

/-- The instruction of an opcode and funct of format T (R80); none where the map assigns none. -/
def instrT (op fn : Nat) (f : FmtT) : Option Instr :=
  match op with
  | 0x60 => instrT60 fn f
  | 0x61 => instrT61 fn f
  | 0x62 => instrT62 fn f
  | 0x63 => instrT63 fn f
  | 0x64 => instrT64 fn f
  | _ => none

/-- The instruction of an opcode of format L (R78, R81). -/
def instrL (op : Nat) (f : FmtL) : Option Instr :=
  match op with
  | 0x10 => some (.addi f)
  | 0x11 => some (.andi f)
  | 0x12 => some (.ori f)
  | 0x13 => some (.xori f)
  | 0x14 => some (.li f)
  | 0x15 => some (.slli f)
  | 0x16 => some (.srli f)
  | 0x17 => some (.srai f)
  | 0x18 => some (.clti f)
  | 0x19 => some (.cltui f)
  | 0x1A => some (.ceqi f)
  | 0x1B => some (.lipc f)
  | 0x23 => some (.srd f)
  | 0x24 => some (.swr f)
  | 0x77 => some (.fence f)
  | _ => none

/-- The instruction of an opcode of format B: condition 6 is the unconditional form (R45, R143, R144). -/
def instrB (op : Nat) (cond : BitVec 3) (f : FmtB) : Option Instr :=
  match op with
  | 0x20 => if cond = 7 then none else if cond = 6 then some (.b f) else some (.bCond cond f)
  | 0x21 => if cond = 7 then none else if cond = 6 then some (.call f) else some (.callCond cond f)
  | _ => none

/-- The instruction that a shape stands for, of every opcode below 0x94. Lean's compiler cannot build
constructors whose index is above 244, so the last three opcodes stand in `instrHigh`; the split has no
other meaning. -/
def ofShapeLow : Shape → Option Instr
  | .a op fn f => instrA op fn f
  | .l op f => instrL op f
  | .m op fn f => instrM op fn f
  | .b op k f => instrB op k f
  | .t op fn f => instrT op fn f
  | .lpad l => some (.lpad l)
  | .jt i => some (.jt i)
  | .rep n l t => some (.rep n l t)
  | .repg c l t => some (.repg c l t)
  | .event => none

/-- The instruction that a shape stands for. -/
noncomputable def ofShape (sh : Shape) : Option Instr :=
  match ofShapeLow sh with
  | some i => some i
  | none => match sh with
    | .a op fn f => instrHigh op fn f
    | _ => none

/-! ### Operand fields (R51, R52, R83, R161) -/

/-- What a 6-bit operand field may hold. -/
inductive Role where
  /-- a destination: 0-31, or 48 for the queue only (R52) -/
  | dst
  /-- a destination that is also read: 0-31 only (R169, R175) -/
  | dstReg
  /-- a source: 0-55 (R51) -/
  | src
  /-- unused: must hold 48 (R52) -/
  | unused
  /-- a mask register as a destination (R161) -/
  | maskDst
  /-- a mask register as a source (R161) -/
  | maskSrc
  /-- names g_j with j at most `top` (R306, R331, R345) -/
  | gj (top : Nat)
  /-- the conversion control of VSX: 0-31 or 48 (R179) -/
  | ctl
  deriving DecidableEq, Repr

/-- Whether a field value is legal in a role; an illegal one traps ILLEGAL_OPERAND. -/
def Role.ok (r : Role) (v : BitVec 6) : Bool :=
  match r with
  | .dst => v.toNat < 32 || v == 48
  | .dstReg => v.toNat < 32
  | .src => v.toNat < 56
  | .unused => v == 48
  | .maskDst => v.toNat < 8 || v == 48
  | .maskSrc => v.toNat < 8 || v == 48 || v == 49
  | .gj top => v.toNat ≤ top
  | .ctl => v.toNat < 32 || v == 48

/-- A row of format A: whether it takes the optional prefix, and its fields' roles. -/
structure RowA where
  pfx : Bool
  d : Role
  a : Role
  b : Role
  deriving DecidableEq, Repr

/-- The usual three-operand row with an optional immediate. -/
def rowImm : RowA := ⟨true, .dst, .src, .src⟩

/-- The usual three-operand row without a prefix. -/
def rowThree : RowA := ⟨false, .dst, .src, .src⟩

/-- A row with one source. -/
def rowTwo : RowA := ⟨false, .dst, .src, .unused⟩

/-- A row of two sources and no result. -/
def rowSources : RowA := ⟨false, .unused, .src, .src⟩

/-- A row of one source and no result. -/
def rowSource : RowA := ⟨false, .unused, .src, .unused⟩

/-- A row of no operand. -/
def rowNone : RowA := ⟨false, .unused, .unused, .unused⟩

/-- A row whose data operand d is read (R83). -/
def rowStore : RowA := ⟨false, .src, .src, .src⟩

/-- The fields of each A-format opcode and funct: R78, R79, R81-R83 and the owning chapters. -/
def rowA (op fn : Nat) : Option RowA :=
  match op with
  | 0x01 => if fn < 8 then some rowImm else none
  | 0x02 => if fn < 8 then some rowImm else none
  | 0x03 => if fn < 5 then some rowImm else if fn < 8 then some rowTwo else none
  | 0x04 => if fn < 7 then some rowImm else none
  | 0x05 => if fn < 8 then some rowThree else none
  | 0x22 =>
    match fn with
    | 0 | 1 | 2 | 5 | 6 => some rowNone
    | 3 | 4 | 7 => some rowSource
    | _ => none
  | 0x40 => if fn < 8 then some rowImm else none
  | 0x41 => if fn < 8 then some rowImm else none
  | 0x42 | 0x43 =>
    match fn with
    | 0 | 1 | 2 | 5 | 6 | 7 => some rowThree
    | 3 | 4 => some ⟨false, .dstReg, .src, .src⟩
    | _ => none
  | 0x44 => if fn < 8 then some ⟨false, .maskDst, .src, .src⟩ else none
  | 0x45 =>
    match fn with
    | 0 | 1 | 2 | 3 => some ⟨false, .maskDst, .maskSrc, .maskSrc⟩
    | 4 | 5 | 7 => some ⟨false, .dst, .maskSrc, .unused⟩
    | 6 => some ⟨false, .maskDst, .src, .unused⟩
    | _ => none
  | 0x46 => if fn < 2 then some rowThree else none
  | 0x47 => if fn < 7 then some rowTwo else none
  | 0x48 =>
    match fn with
    | 0 | 1 | 5 => some rowTwo
    | 2 => some rowSources
    | 3 => some ⟨false, .dstReg, .src, .src⟩
    | 4 => some rowThree
    | _ => none
  | 0x49 => if fn < 8 then some rowThree else none
  | 0x4A => if fn < 7 && fn != 3 then some ⟨false, .dst, .src, .ctl⟩ else none
  | 0x4B => if fn < 4 then some rowTwo else none
  | 0x73 =>
    match fn with
    | 0 | 2 => some rowThree
    | 1 | 3 => some rowStore
    | _ => none
  | 0x82 => if fn < 7 then some rowStore else none
  | 0x88 => if fn < 3 then some ⟨false, .unused, .gj 28, .unused⟩ else none
  | 0x91 => if fn < 4 then some ⟨false, .unused, .gj 29, .unused⟩ else none
  | 0x92 =>
    match fn with
    | 0 | 1 | 4 => some rowSources
    | 2 | 6 => some rowThree
    | 3 => some rowTwo
    | 5 => some rowSource
    | 7 => some ⟨false, .unused, .src, .gj 30⟩
    | _ => none
  | 0x93 =>
    match fn with
    | 0 => some rowSources
    | 1 => some rowTwo
    | _ => none
  | 0x94 => if fn < 7 then some rowSource else none
  | 0x95 =>
    match fn with
    | 0 => some rowTwo
    | 1 => some rowThree
    | _ => none
  | 0x96 =>
    match fn with
    | 0 => some rowSources
    | 1 => some rowTwo
    | _ => none
  | _ => none

/-- Whether any assigned funct of an A-format opcode takes a prefix: the rule for its reserved functs
(R84). -/
def pfxOfOp (op : Nat) : Bool := op == 0x01 || op == 0x02 || op == 0x03 || op == 0x04 || op == 0x40 || op == 0x41

/-- The d field of each M-format opcode and funct (R83). -/
def rowM (op fn : Nat) : Option Role :=
  match op with
  | 0x70 => if fn < 7 then some .dst else none
  | 0x71 => if fn < 4 then some .src else none
  | 0x72 =>
    match fn with
    | 0 | 2 => some .dst
    | 1 | 3 => some .src
    | _ => none
  | 0x74 | 0x75 => if fn = 0 then some .unused else none
  | 0x76 =>
    match fn with
    | 0 => some .src
    | 1 => some .unused
    | _ => none
  | 0x78 =>
    match fn with
    | 0 | 1 => some .dst
    | 2 | 3 => some .src
    | _ => none
  | 0x80 | 0x81 => if fn < 8 then some .dst else none
  | 0x90 =>
    match fn with
    | 0 => some .src
    | 1 | 2 | 3 => some .dst
    | _ => none
  | _ => none

/-- The d field of each L-format opcode (R83, R141, R154, R296). -/
def rowL (op : Nat) : Option Role :=
  if 0x10 ≤ op && op ≤ 0x1B then some .dst
  else match op with
  | 0x23 => some .dst
  | 0x24 => some .src
  | 0x77 => some .unused
  | _ => none

/-! ### Format T (R80, R192) -/

/-- Whether a T-format opcode and funct is assigned, and if so whether it requires a prefix. -/
def rowT (op fn : Nat) : Option Bool :=
  match op with
  | 0x60 => if fn < 5 then some true else if fn < 7 then some false else none
  | 0x61 => if fn < 2 then some true else none
  | 0x62 => if fn < 4 then some false else none
  | 0x63 => if fn < 4 then some true else none
  | 0x64 => if fn < 3 then some false else none
  | _ => none

/-- Whether any assigned funct of a T-format opcode takes a prefix: the rule for its reserved functs (R84). -/
def pfxOfTOp (op : Nat) : Bool := op == 0x60 || op == 0x61 || op == 0x63

/-- The reserved T fields and reserved payload bits of R192 are zero, and TCFG's format is assigned. -/
def tReservedOk (op fn : Nat) (f : FmtT) : Bool :=
  let q := f.p.getD 0
  match op, fn with
  | 0x60, 0 => f.ta == 0 && f.tb == 0 && q.extractLsb' 15 9 == 0 && (q.extractLsb' 12 3).toNat < 6
  | 0x60, 1 | 0x60, 2 | 0x60, 3 | 0x60, 4 => f.ta == 0 && f.tb == 0 && q.extractLsb' 12 12 == 0
  | 0x60, 5 | 0x60, 6 => f.ta == 0 && f.tb == 0
  | 0x61, _ => f.ta == 0 && f.tb == 0
  | 0x63, _ => f.td == 0 && f.ta == 0 && f.tb == 0 && q.extractLsb' 3 1 == 0 && q.extractLsb' 9 15 == 0
  | 0x64, 0 => f.tb == 0
  | 0x64, 1 => f.tb == 0
  | 0x64, 2 => f.td == 0 && f.ta == 0 && f.tb == 0
  | _, _ => true

/-- The operand fields inside a T payload (R192). -/
def tOperandsOk (op fn : Nat) (f : FmtT) : Bool :=
  let q := f.p.getD 0
  match op, fn with
  | 0x60, 1 | 0x60, 3 => Role.src.ok (q.extractLsb' 0 6) && Role.src.ok (q.extractLsb' 6 6)
  | 0x60, 2 | 0x60, 4 => Role.dst.ok (q.extractLsb' 0 6) && Role.src.ok (q.extractLsb' 6 6)
  | 0x61, _ => Role.src.ok (q.extractLsb' 0 6)
  | 0x63, _ => (q.extractLsb' 4 5).toNat ≤ 28
  | _, _ => true

/-! ### Immediates (R47) -/

/-- The immediate of an L word with its prefixes, as a number, and its width (R47). -/
def FmtL.immNat (f : FmtL) : Nat :=
  match f.p with
  | [] => f.imm.toNat
  | [q] => q.toNat * 2 ^ 15 + f.imm.toNat
  | q :: r :: _ => (q.toNat * 2 ^ 24 + r.toNat) * 2 ^ 15 + f.imm.toNat

/-- Whether a special register number may be read (R106, R107). -/
def srdOk (n : Nat) : Bool := n < 21

/-- Whether a special register number may be written (R106, R107). -/
def swrOk (n : Nat) : Bool := n < 21 && n != 1 && n != 2 && n != 8 && n != 9

/-- FENCE's immediate has no reserved bit and no reserved scope (R296). -/
def fenceOk (n : Nat) : Bool := n < 64 && n % 8 < 5

/-- No reserved bit or code is set: the checks whose failure traps ILLEGAL_FUNCT beyond an unassigned
funct (R50, R84, R107, R137, R141, R166, R192, R294, R296, R300, R314). -/
def Shape.reservedOk : Shape → Bool
  | .a op fn f =>
    match f.p with
    | none => true
    | some q =>
      if op = 0x02 && 4 ≤ fn then q.toNat < 64
      else if op = 0x41 && 4 ≤ fn && fn ≤ 6 then q.toNat < 32
      else true
  | .l op f =>
    if 0x15 ≤ op && op ≤ 0x17 then f.immNat < 64
    else match op with
    | 0x23 => srdOk f.immNat
    | 0x24 => swrOk f.immNat
    | 0x77 => fenceOk f.immNat
    | _ => true
  | .m op fn f =>
    match op with
    | 0x78 | 0x80 | 0x81 => (f.off.extractLsb' 0 3).toNat < 5
    | 0x90 => (f.off.extractLsb' 0 3).toNat < 4 && (fn == 1 || !f.off.getLsbD 3)
    | _ => true
  | .b _ k _ => k != 7
  | .t op fn f => tReservedOk op fn f
  | _ => true

/-- Every operand field holds a legal value: the checks whose failure traps ILLEGAL_OPERAND. -/
def Shape.operandsOk : Shape → Bool
  | .a op fn f =>
    match rowA op fn with
    | some r => r.d.ok f.d && r.a.ok f.a && (if f.p.isSome then true else r.b.ok f.b)
    | none => false
  | .l op f => match rowL op with
    | some r => r.ok f.d
    | none => false
  | .m op fn f => match rowM op fn with
    | some r => r.ok f.d && Role.src.ok f.base
    | none => false
  | .b _ k f => if k = 6 then f.c == 48 else Role.src.ok f.c
  | .t op fn f => tOperandsOk op fn f
  | .jt i => Role.src.ok i
  | .repg c _ _ => Role.src.ok c
  | _ => true

/-- The opcode and funct of a shape are assigned (R75-R82); an event has none. -/
def Shape.assigned : Shape → Bool
  | .a op fn _ => (rowA op fn).isSome
  | .l op _ => (rowL op).isSome
  | .m op fn _ => (rowM op fn).isSome
  | .b op k _ => (op == 0x20 || op == 0x21) && k != 7
  | .t op fn _ => (rowT op fn).isSome
  | .event => false
  | _ => true

/-- The prefixes of a shape are ones it accepts (R47, R84): at most two on L, M and B; on A only where
the row takes one, with field b holding 48; on T exactly where the row requires one. -/
def Shape.prefixOk : Shape → Bool
  | .a op fn f =>
    match f.p with
    | none => true
    | some _ => match rowA op fn with
      | some r => r.pfx && f.b == 48
      | none => pfxOfOp op
  | .l _ f => f.p.length ≤ 2
  | .m _ _ f => f.p.length ≤ 2
  | .b _ _ f => f.p.length ≤ 2
  | .t op fn f => match rowT op fn with
    | some r => r == f.p.isSome
    | none => f.p.isNone || pfxOfTOp op
  | _ => true

/-- The number of words an instruction takes (R40). -/
def Shape.words : Shape → Nat
  | .a _ _ f => if f.p.isSome then 2 else 1
  | .l _ f => 1 + f.p.length
  | .m _ _ f => 1 + f.p.length
  | .b _ _ f => 1 + f.p.length
  | .t _ _ f => if f.p.isSome then 2 else 1
  | _ => 1

/-- The stall count: only A and L words carry one (R55). -/
def Shape.stall : Shape → Nat
  | .a _ _ f => f.s.toNat
  | .l _ f => f.s.toNat
  | _ => 0

end Sys2Proof
end

