-- ==== Sys2Proof/WellFormed.lean ====
section
/-! DEFINITION. When an instruction term is one that words can encode (R40-R52, R84, R192). -/

namespace Sys2Proof

/-- The conditional forms of B and CALL carry one of the six conditions: code 6 is the unconditional
row and code 7 is reserved (R45, R143, R144). -/
def Instr.condOk : Instr → Bool
  | .bCond k _ => k.toNat < 6
  | .callCond k _ => k.toNat < 6
  | _ => true

/-- An instruction is well formed when its opcode and funct are assigned, its prefixes are ones it
accepts, no reserved bit or code is set and every operand field holds a legal value. An event has no
word and is not well formed in this sense. -/
def Instr.wf (i : Instr) : Bool :=
  i.shape.assigned && i.condOk && i.shape.prefixOk && i.shape.reservedOk && i.shape.operandsOk

end Sys2Proof
end

