-- ==== Sys2Proof/Decode.lean ====
section
/-! DEFINITION. The decoder (R86), total on any words and any bytes, rejecting by name in the order of
R66; and after it the encoder, written from the same tables. -/

namespace Sys2Proof

/-- Why a word is no instruction: the decode faults of R66, and a stream that ends inside an
instruction. -/
inductive DecodeFault where
  | illegalOpcode
  | illegalPrefix
  | illegalFunct
  | illegalOperand
  | truncated
  deriving DecidableEq, Repr

/-- The major opcode (R40). -/
def majorOp (w : Word32) : Nat := (w.extractLsb' 24 8).toNat

/-- The fields of an A word (R42). -/
def fmtAOf (q : Option (BitVec 24)) (w : Word32) : FmtA :=
  ⟨w.extractLsb' 18 6, w.extractLsb' 12 6, w.extractLsb' 6 6, w.extractLsb' 0 3, q⟩

/-- The fields of an L word (R43). -/
def fmtLOf (q : List (BitVec 24)) (w : Word32) : FmtL :=
  ⟨w.extractLsb' 18 6, w.extractLsb' 3 15, w.extractLsb' 0 3, q⟩

/-- The fields of an M word (R44). -/
def fmtMOf (q : List (BitVec 24)) (w : Word32) : FmtM :=
  ⟨w.extractLsb' 18 6, w.extractLsb' 12 6, w.extractLsb' 10 2, w.extractLsb' 3 7, q⟩

/-- The fields of a B word (R45). -/
def fmtBOf (q : List (BitVec 24)) (w : Word32) : FmtB :=
  ⟨w.extractLsb' 18 6, w.extractLsb' 0 15, q⟩

/-- The fields of a T word (R46). -/
def fmtTOf (q : Option (BitVec 24)) (w : Word32) : FmtT :=
  ⟨w.extractLsb' 21 3, w.extractLsb' 18 3, w.extractLsb' 15 3, w.extractLsb' 7 8, w.extractLsb' 4 3, q⟩

/-- The formats of the major opcodes (R75, R78-R82). -/
inductive Format where
  | a | l | m | b | t | lpad | jt | rep | repg
  deriving DecidableEq, Repr

/-- The format of a major opcode; none where R75 assigns none. -/
def formatOf (op : Nat) : Option Format :=
  if (0x01 ≤ op && op ≤ 0x05) || op == 0x22 || (0x40 ≤ op && op ≤ 0x4B) || op == 0x73 || op == 0x82 ||
      op == 0x88 || (0x91 ≤ op && op ≤ 0x96) then some .a
  else if (0x10 ≤ op && op ≤ 0x1B) || op == 0x23 || op == 0x24 || op == 0x77 then some .l
  else if op == 0x70 || op == 0x71 || op == 0x72 || (0x74 ≤ op && op ≤ 0x76) || op == 0x78 || op == 0x80 ||
      op == 0x81 || op == 0x90 then some .m
  else if op == 0x20 || op == 0x21 then some .b
  else if 0x60 ≤ op && op ≤ 0x64 then some .t
  else if op == 0x3C then some .lpad
  else if op == 0x3D then some .jt
  else if op == 0x3E then some .rep
  else if op == 0x3F then some .repg
  else none

/-- The shape of a word behind its prefixes (at most two), in a given format. -/
def shapeOf (fmt : Format) (ps : List (BitVec 24)) (w : Word32) : Shape :=
  let op := majorOp w
  match fmt with
  | .a => .a op (w.extractLsb' 3 3).toNat (fmtAOf ps.head? w)
  | .l => .l op (fmtLOf ps w)
  | .m => .m op (w.extractLsb' 0 3).toNat (fmtMOf ps w)
  | .b => .b op (w.extractLsb' 15 3) (fmtBOf ps w)
  | .t => .t op (w.extractLsb' 0 4).toNat (fmtTOf ps.head? w)
  | .lpad => .lpad (w.extractLsb' 8 16)
  | .jt => .jt (w.extractLsb' 18 6)
  | .rep => .rep (w.extractLsb' 16 8) (w.extractLsb' 12 4) (w.extractLsb' 7 5)
  | .repg => .repg (w.extractLsb' 18 6) (w.extractLsb' 12 4) (w.extractLsb' 7 5)

/-- The most prefixes a format's word takes (R47, R48). -/
def maxPrefixes : Format → Nat
  | .a | .t => 1
  | .l | .m | .b => 2
  | .lpad | .jt | .rep | .repg => 0

/-- The reserved bits of the four words that belong to no format (R58, R63, R64). -/
def wordReservedOk (fmt : Format) (w : Word32) : Bool :=
  match fmt with
  | .lpad => w.extractLsb' 0 8 == 0
  | .jt => w.extractLsb' 0 18 == 0
  | .rep => w.extractLsb' 0 7 == 0
  | .repg => w.extractLsb' 0 7 == 0 && w.extractLsb' 16 2 == 0
  | _ => true

/-- Decodes one word behind the payloads of its prefixes (R86) as far as its shape, the faults in the
order of R66. -/
def decodeShape (ps : List (BitVec 24)) (w : Word32) : Except DecodeFault Shape :=
  match formatOf (majorOp w) with
  | none => .error .illegalOpcode
  | some fmt =>
    let sh := shapeOf fmt ps w
    if maxPrefixes fmt < ps.length || !sh.prefixOk then .error .illegalPrefix
    else if !sh.assigned || !wordReservedOk fmt w || !sh.reservedOk then .error .illegalFunct
    else if !sh.operandsOk then .error .illegalOperand
    else .ok sh

/-- Decodes the instruction at the head of a list of words as far as its shape. A third prefix word is
ILLEGAL_PREFIX, and no word after it is looked at (R86). -/
def decodeShapes : List Word32 → Except DecodeFault Shape
  | [] => .error .truncated
  | w :: ws =>
    if majorOp w ≠ 0xFE then decodeShape [] w
    else match ws with
    | [] => .error .truncated
    | w1 :: ws1 =>
      if majorOp w1 ≠ 0xFE then decodeShape [w.extractLsb' 0 24] w1
      else match ws1 with
      | [] => .error .truncated
      | w2 :: _ =>
        if majorOp w2 ≠ 0xFE then decodeShape [w.extractLsb' 0 24, w1.extractLsb' 0 24] w2
        else .error .illegalPrefix

/-- The instruction at the head of a list of words and the number of words it takes. -/
noncomputable def decodeWords (ws : List Word32) : Except DecodeFault (Instr × Nat) :=
  match decodeShapes ws with
  | .error e => .error e
  | .ok sh =>
    match ofShape sh with
    | some i => .ok (i, sh.words)
    | none => .error .illegalFunct

/-- A word from its four bytes, the lowest address first (R3, R40). -/
def wordOfBytes (b0 b1 b2 b3 : Byte) : Word32 := b3 ++ b2 ++ b1 ++ b0

/-- The four bytes of a word, the lowest address first (R3, R40). -/
def bytesOfWord (w : Word32) : List Byte :=
  [w.extractLsb' 0 8, w.extractLsb' 8 8, w.extractLsb' 16 8, w.extractLsb' 24 8]

/-- Groups bytes into words; a rest of fewer than four bytes is dropped. -/
def wordsOfBytes : List Byte → List Word32
  | b0 :: b1 :: b2 :: b3 :: r => wordOfBytes b0 b1 b2 b3 :: wordsOfBytes r
  | _ => []

/-- The decoder on bytes: the instruction and the bytes after it, or the fault. -/
noncomputable def decode (bs : List Byte) : Except DecodeFault (Instr × List Byte) :=
  (decodeWords (wordsOfBytes bs)).map fun r => (r.1, bs.drop (4 * r.2))

/-- The words of a number whose bit 0 is the least significant bit of the first word. -/
def wordsOfNat (w : Nat) : List Word32 :=
  [BitVec.ofNat 32 w, BitVec.ofNat 32 (w / 2 ^ 32), BitVec.ofNat 32 (w / 2 ^ 64)]

/-- The instruction the decoder reads from an instruction whose bits, numbered as the opcode table
numbers them, are `w`; bits above `nbits` are zero. -/
noncomputable def decodeTableWord (nbits w : Nat) : Option Instr :=
  match decode ((wordsOfNat (w % 2 ^ nbits)).flatMap bytesOfWord) with
  | .ok r => some r.1
  | .error _ => none

/-! ### The encoder -/

/-- A prefix word (R47). -/
def prefixWord (q : BitVec 24) : Word32 := (0xFE : BitVec 8) ++ q

/-- The words of a shape: prefixes first (R42-R47, R58, R63, R64). -/
def shapeWords : Shape → List Word32
  | .a op fn f => f.p.toList.map prefixWord ++
      [BitVec.ofNat 8 op ++ f.d ++ f.a ++ f.b ++ BitVec.ofNat 3 fn ++ f.s]
  | .l op f => f.p.map prefixWord ++ [BitVec.ofNat 8 op ++ f.d ++ f.imm ++ f.s]
  | .m op fn f => f.p.map prefixWord ++
      [BitVec.ofNat 8 op ++ f.d ++ f.base ++ f.sg ++ f.off ++ BitVec.ofNat 3 fn]
  | .b op k f => f.p.map prefixWord ++ [BitVec.ofNat 8 op ++ f.c ++ k ++ f.off]
  | .t op fn f => f.p.toList.map prefixWord ++
      [BitVec.ofNat 8 op ++ f.td ++ f.ta ++ f.tb ++ f.wait ++ f.set ++ BitVec.ofNat 4 fn]
  | .lpad l => [(0x3C : BitVec 8) ++ l ++ (0 : BitVec 8)]
  | .jt i => [(0x3D : BitVec 8) ++ i ++ (0 : BitVec 18)]
  | .rep n l t => [(0x3E : BitVec 8) ++ n ++ l ++ t ++ (0 : BitVec 7)]
  | .repg c l t => [(0x3F : BitVec 8) ++ c ++ (0 : BitVec 2) ++ l ++ t ++ (0 : BitVec 7)]
  | .event => []

/-- The words of an instruction; an event has none. -/
def encode (i : Instr) : List Word32 := shapeWords i.shape

end Sys2Proof
end

