-- ==== Sys2Proof/Machine/State.lean ====
section
/-! DEFINITION. The state of the machine as plain data: every piece of state the spec gives the domain
of cubes, and the model's own bookkeeping (log entry 3). INVENTORY.md lists each piece with its rule. -/

namespace Sys2Proof.Machine

open Sys2Proof

/-- Why a step has no next state. -/
inductive Fault where
  /-- raised by `exec` of an event, and by `step` of a turn, that names a cube or a core outside the domain of 640
  cubes of 256 cores (R238). Safe: the spec has no such event. -/
  | outsideDomain
  deriving DecidableEq, Repr

/-- Why a step is refused. -/
inductive Refusal where
  /-- raised by an arm of `exec` whose instruction has no meaning in this model. Safe. -/
  | notModelled (mnemonic : String)
  deriving DecidableEq, Repr

/-! ### Registers of a thread -/

/-- The registers of a thread (R88) but for tiles and acc. -/
structure Regs where
  /-- g0-g31 -/
  g : Vector Word 32
  /-- the scalar result queue, a1 first -/
  gq : List Word
  /-- v0-v31 (R89) -/
  v : Vector Vec 32
  /-- the vector result queue, va1 first -/
  vq : List Vec
  /-- e0-e191 (R90) -/
  e : Vector Vec 192
  /-- m0-m7 (R91) -/
  m : Vector Word 8
  /-- FMT.W (R103) -/
  fmt : BitVec 2
  /-- mb0-mb3 (R95) -/
  mb : Vector Word 4
  /-- MBSTAT (R96) -/
  mbstat : BitVec 12
  /-- seg0-seg3 (R103) -/
  seg : Vector (BitVec 16) 4
  /-- TSW (R97) -/
  tsw : Word
  /-- PCR (R100) -/
  pc : Word
  /-- REPBASE (R99) -/
  repbase : Word
  /-- RCNT (R61) -/
  rcnt : BitVec 25
  /-- the return-address store, newest first (R101) -/
  ras : List Word
  /-- RSP (R101) -/
  rsp : Word
  /-- RSL (R101) -/
  rsl : Word
  /-- ASID: ID in [15:0], GEN in [23:16] (R103) -/
  asid : BitVec 24
  /-- GRPDIRTY (R105) -/
  grpdirty : BitVec 7
  /-- TDIRTY (R105) -/
  tdirty : BitVec 9
  /-- operand value 54, fixed at launch (R21, R51) -/
  rank : BitVec 8
  deriving DecidableEq, Repr

/-- The registers after reset (R88): zero but for FMT, queues of sixteen zeros, an empty
return-address store. The rank has no reset value in the spec: 0, DESIGN CHOICE, log entry 2. -/
def Regs.reset : Regs where
  g := Vector.replicate 32 0
  gq := List.replicate 16 0
  v := Vector.replicate 32 0
  vq := List.replicate 16 0
  e := Vector.replicate 192 0
  m := Vector.replicate 8 0
  fmt := 2
  mb := Vector.replicate 4 0
  mbstat := 0
  seg := Vector.replicate 4 0
  tsw := 0
  pc := 0
  repbase := 0
  rcnt := 0
  ras := []
  rsp := 0
  rsl := 0
  asid := 0
  grpdirty := 0
  tdirty := 0
  rank := 0

/-- Tiles with their scale stores, TSHAPE and acc (R93, R94, R186). -/
structure TileRegs where
  /-- 16 KiB each, byte 0 in bits [7:0] -/
  data : Vector (BitVec 131072) 8
  /-- scales s0-s3 of a tile, s0 in [31:0] (R186) -/
  scales : Vector (BitVec 128) 8
  /-- SCNT (R186) -/
  scnt : Vector (BitVec 8) 8
  /-- TSHAPE, 16 bits a tile (R93) -/
  shape : Vector (BitVec 16) 8
  /-- the visible 384 x 80 array of FP32, row major, element (0, 0) in [31:0] (R94) -/
  acc : BitVec 983040
  deriving DecidableEq, Repr

/-- Tiles after reset (R88). -/
def TileRegs.reset : TileRegs where
  data := Vector.replicate 8 0
  scales := Vector.replicate 8 0
  scnt := Vector.replicate 8 0
  shape := Vector.replicate 8 0
  acc := 0

/-- The sections of a thread's image area that a delta save may leave as they are (R223, R224): registers, tiles and
acc as the save that last wrote them left them. -/
structure Image where
  regs : Regs
  tiles : TileRegs
  deriving DecidableEq, Repr

/-- What a form that the matrix engine has started, and not completed, leaves in TSHAPE and sets in TDIRTY when it
completes (R209). -/
structure Formed where
  shape : Vector (BitVec 16) 8
  dirty : BitVec 9
  deriving DecidableEq, Repr

/-! ### Sequencers -/

/-- The sequencers of a core (R32); a fault report numbers them as R216 does. -/
inductive Sequencer where
  | main | matrix | copy | flue
  deriving DecidableEq, Repr

/-- A captured repeat body (R59): the stagger stride and the words of each instruction. -/
structure Frame where
  stride : Nat
  body : List (List Word32)
  deriving DecidableEq, Repr

/-- A place a fixed-latency result stands in (R57, R176). -/
inductive Loc where
  | g (k : Nat) | gq (age : Nat) | v (k : Nat) | vq (age : Nat) | m (k : Nat) | e (k : Nat)
  deriving DecidableEq, Repr

/-- How a wait stands (R447): the issue number below which a DSWAIT counts, and the re-test interval of a
polling wait. -/
inductive WaitState where
  | none | slot (since : Nat) | poll (since interval : Nat)
  /-- stalled at a REJOIN of a stall count (R31) -/
  | rejoin (stall : Nat)
  /-- in a MAPR whose switch waits, so that no interrupt is taken (R303) -/
  | mapping
  deriving DecidableEq, Repr

/-- An engine sequencer and the faults its engine records (R32, R191, R309, R332). -/
structure Engine where
  running : Bool
  pc : Word
  /-- the repeat state of the engine program (R61): active, iteration, position, base, count -/
  ra : Bool
  rit : BitVec 24
  rpos : BitVec 4
  repbase : Word
  rcnt : BitVec 25
  frame : Option Frame
  /-- the engine is stopped (R191) -/
  stopped : Bool
  /-- the recorded fault -/
  fault : Option TrapReport
  /-- the wait of a DSWAIT in the engine program (R441) -/
  wait : WaitState
  deriving DecidableEq, Repr

/-- An engine sequencer that has not been started. -/
def Engine.reset : Engine :=
  { running := false, pc := 0, ra := false, rit := 0, rpos := 0, repbase := 0, rcnt := 0, frame := none,
    stopped := false, fault := none, wait := .none }

/-- Where a piece of work reports its end. -/
inductive WorkOrigin where
  /-- a packet with its notification fields: NV, core, cube, tag -/
  | packet (nv : Bool) (core cube : Nat) (tag : BitVec 32)
  /-- a graph node: slot, node index -/
  | node (slot idx : Nat)
  deriving DecidableEq, Repr

/-! ### Engine queues (R189, R307, R332, R360) -/

/-- The three forms of CPY (R306). -/
inductive CopyForm where
  | cpy | cpym | cpyf
  deriving DecidableEq, Repr

/-- One destination atom of a running copy command: the bytes of it that the command writes, whether
its ownership has been granted, and its data once held (R307). -/
structure CopyAtom where
  /-- position p of its first byte -/
  p : Nat
  /-- physical address of its first byte written, as a storage address -/
  dst : Nat
  len : Nat
  granted : Bool
  /-- the bytes that have been read for it: one source read brings those of one home (R282) -/
  data : List (Option Byte)
  /-- its write has been sent, and is still to be performed at its home -/
  sent : Bool
  /-- the interleaved address of its first byte and the map generation of its resolution, if it has one (R239, R390) -/
  ilv : Option (Nat × BitVec 16)
  deriving DecidableEq, Repr

/-- A copy command (R306) and its progress (R307): addresses as segment value and offset. -/
structure CopyCmd where
  form : CopyForm
  /-- source offset, or the fill pattern -/
  src : Word
  srcSeg : BitVec 16
  dst : Word
  dstSeg : BitVec 16
  len : Nat
  pb : Bool
  grp : Nat
  started : Bool
  /-- next byte position to request -/
  pos : Nat
  /-- the fault that stopped it, with its position -/
  fault : Option TrapReport
  /-- member cores of GRP at the start (cpym) -/
  targets : List Nat
  atoms : List CopyAtom
  /-- parts above the position at which it resumes that have been written already: position and length (R309, log
  entry 92) -/
  done : List (Nat × Nat)
  deriving DecidableEq, Repr

/-- What an engine queue entry does. -/
inductive Work where
  /-- a T instruction with the g values it read at issue (R192, R198, R200, R204) -/
  | tile (op fn : Nat) (f : FmtT) (g : List Word)
  | copy (c : CopyCmd)
  /-- FCFG, FSTART, FSTOP, FSTAT with OBJ and REC (R331); `sent` once accepted by its flues (R332) -/
  | flue (fn : Nat) (obj rec : Word) (sent : Bool)
  /-- a DSSET marker of an engine sequencer (R442) -/
  | marker
  deriving DecidableEq, Repr

/-- An entry of an engine queue, with all that it captured when it issued (R92, R104). -/
structure Entry where
  /-- the thread's issue number, rising in issue order (R190) -/
  id : Nat
  work : Work
  pc : Word
  /-- issued by the engine's own sequencer -/
  own : Bool
  slot : Nat
  wait : BitVec 8
  asid : BitVec 24
  seg : List (BitVec 16)
  priv : Bool
  /-- for a command of the dispatcher, its cube and the work it serves (R354) -/
  origin : Option (Nat × WorkOrigin)
  deriving DecidableEq, Repr

/-- An instruction counted against a dependency slot (R190). -/
structure Counted where
  slot : Nat
  id : Nat
  deriving DecidableEq, Repr

/-- A faulted mark of a slot and the engine that made it (R191); `main` marks a DIVERGED of R422. -/
structure Mark where
  slot : Nat
  by_ : Sequencer
  deriving DecidableEq, Repr

/-- The lanes of a vector load that one request brings (R263, R297, R298): the register they go to, if any, the window
that converts them, and their numbers. -/
structure LaneDest where
  reg : Option Nat
  win : Nat
  lanes : List Nat
  deriving DecidableEq, Repr

/-- What a load does with the bytes its reply brings (R293): its size and sign extension, and the register it
writes; or the lanes that it fills. -/
structure LoadDest where
  size : Nat
  signed : Bool
  dst : Option Nat
  vec : Option LaneDest
  deriving DecidableEq, Repr

/-- The atomic operations of R300 and R301. -/
inductive AtomicOp where
  | add | and | or | xor | min | max | swap | cas | fadd
  deriving DecidableEq, Repr

/-- What an AMO carries besides its address (R300): its operation and the operands of it. -/
structure AmoArgs where
  op : AtomicOp
  v : Nat
  c : Nat
  deriving DecidableEq, Repr

/-- The thread's registers as they stood before a load that answers later, while no instruction after it has had an effect
outside them: where the load fails they are put back, so that its trap is precise (R11, R210, R291). `ages` gives the loads
that were outstanding then, with their queue ages. -/
structure Undo where
  regs : Regs
  ages : List (Nat × Nat)
  deriving DecidableEq, Repr

/-- An outstanding load reply: the register it writes, if any, and its queue age (R35); the load's own pc, segment value
and offset, which its fault reports (R210, R216), with what it loads, and whether a reply has brought that fault, so that
the load is to be sent again (R213 step 6, log entry 6); the ASID and the privilege that it captured (R104). -/
structure Pend where
  num : Nat
  dst : Option Nat
  age : Nat
  pc : Word
  seg : BitVec 16
  off : Word
  dest : LoadDest
  /-- the operands of an AMO that answers later -/
  amo : Option AmoArgs
  failed : Bool
  asid : BitVec 24
  priv : Bool
  /-- what its fault puts back; none once a later instruction has had an effect outside the registers -/
  undo : Option Undo
  deriving DecidableEq, Repr

/-- The states of a thread context (R27), and `none` for a core that holds no thread. -/
inductive Status where
  | none | resident | waiting | queued | inTransit | saved | retired
  deriving DecidableEq, Repr

/-- The requests of a Stove core to stop a thread (R218). -/
inductive Interrupt where
  | preempt | quantum | stop
  /-- a stop for error handling by Stove core 3 (R218) -/
  | error
  deriving DecidableEq, Repr

/-- What the home answers to a decide-once request (R315): the cell's storage address and the reply image, or the code it
refuses with. -/
structure OnceAnswer where
  addr : Nat
  image : Nat
  code : Option TrapCode
  deriving DecidableEq, Repr

/-- A thread context (R26, R223). -/
structure Ctx where
  /-- a fresh name of the thread (log entry 3) -/
  tid : Nat
  status : Status
  /-- the gang the thread belongs to (R22) -/
  gang : Option Nat
  regs : Regs
  tiles : TileRegs
  matrix : Engine
  copy : Engine
  flue : Engine
  counted : List Counted
  marks : List Mark
  /-- markers of the main sequencer's DSSETs, by issue number (R442) -/
  markers : List Nat
  /-- DIVERGED faults recorded against a slot (R422) -/
  diverged : List (Nat × TrapReport)
  /-- the unacknowledged-store count (R292) -/
  unacked : Nat
  mq : List Entry
  cq : List Entry
  fq : List Entry
  /-- the remainder and the later commands of a route S copy fault, which re-enter on resumption (R309) -/
  kept : List Entry
  /-- image generation and base generation (R224) -/
  ig : BitVec 32
  base : Option (BitVec 32)
  pend : List Pend
  /-- the captured body of the main sequencer's repeat frame (R59) -/
  frame : Option Frame
  /-- remaining static distances (R57), log entry 3 -/
  board : List (Loc × Nat)
  wait : WaitState
  /-- the group of the ARRW or WAITB it waits in (R448), log entry 3 -/
  waitGroup : Option Nat
  /-- the number of the decide-once request that its instruction has sent, and the answer once it has come
  (R315) -/
  asked : Option (Nat × Option OnceAnswer)
  /-- index of the trap frame it holds (R215) -/
  trapFrame : Option Nat
  /-- a trap taken whose image is not yet saved (R213) -/
  trap : Option TrapReport
  /-- refused stores waiting to be delivered (R488): first byte of each refused write -/
  busy : List Word
  /-- the cube's cycle in which it last became resident: its quantum counts from there (R26) -/
  residentAt : BitVec 64
  /-- requests to stop it that have not been taken (R218) -/
  pending : List Interrupt
  /-- a debug stop follows its next instruction (R455) -/
  stepOne : Bool
  /-- the sections of its image area (R224); none before its first save -/
  image : Option Image
  /-- what the matrix engine's started form leaves when it completes (R209) -/
  formed : Option Formed
  /-- the instruction in which it waits has been forwarded to its followers (R28), log entry 3 -/
  forwarded : Bool
  deriving DecidableEq, Repr

/-- A core's registers when no thread is on it. -/
def Ctx.reset : Ctx where
  tid := 0
  status := .none
  gang := none
  regs := Regs.reset
  tiles := TileRegs.reset
  matrix := Engine.reset
  copy := Engine.reset
  flue := Engine.reset
  counted := []
  marks := []
  markers := []
  diverged := []
  unacked := 0
  mq := []
  cq := []
  fq := []
  kept := []
  ig := 0
  base := none
  pend := []
  frame := none
  board := []
  wait := .none
  waitGroup := none
  asked := none
  trapFrame := none
  trap := none
  busy := []
  residentAt := 0
  pending := []
  stepOne := false
  image := none
  formed := none
  forwarded := false

/-- A context that is on its core and runs (R27). -/
def Ctx.live (c : Ctx) : Bool := c.status == .resident || c.status == .waiting

/-- A context of a thread that has not retired (R27). -/
def Ctx.present (c : Ctx) : Bool := c.status != .none && c.status != .retired

/-- The context that a core keeps when its thread has gone: no thread, the registers and tiles as the thread
left them; a launch writes only some of them (R88). -/
def Ctx.vacant (c : Ctx) : Ctx := { Ctx.reset with regs := c.regs, tiles := c.tiles }

/-! ### Cores -/

/-- A message (R361). -/
structure Msg where
  tag : BitVec 32
  score : Nat
  scube : Nat
  sys : Bool
  payload : List Byte
  deriving DecidableEq, Repr

/-- A deposit (R95, R365). -/
structure Deposit where
  reg : Nat
  val : Word
  deriving DecidableEq, Repr

/-- A forwarding entry of a migration source (R35): the numbers of the requests whose replies are still outstanding. -/
structure Forward where
  tid : Nat
  core : Nat
  left : List Nat
  deriving DecidableEq, Repr

/-- A range-map entry that holds a map (R406), with the node's gang that made it (R24). -/
structure RangeMap where
  index : Nat
  /-- scratchpad offset of the rows in 4 KiB units -/
  spo : Nat
  /-- length in 4 KiB units -/
  units : Nat
  fresh : Bool
  /-- global physical address of the range -/
  base : Nat
  gang : Option Nat
  deriving DecidableEq, Repr

/-- A line of the L1 (R250): 64 bytes of a home elsewhere, with its four tags (R276). -/
structure L1Line where
  addr : Nat
  bytes : List Byte
  tags : List (BitVec 6)
  deriving DecidableEq, Repr

/-- A decided copy of a decide-once cell (R318). -/
structure OnceLine where
  addr : Nat
  bytes : List Byte
  deriving DecidableEq, Repr

/-- A core (R26, R250, R406, R445). -/
structure Core where
  ctx : Ctx
  /-- the run list, head first -/
  runList : List Ctx
  /-- V_h, V_c, V_d, V_s (R276) -/
  vers : List (BitVec 6)
  l1 : List L1Line
  once : List OnceLine
  /-- the message queue, oldest first (R361) -/
  msgs : List Msg
  /-- held deposits, oldest first (R222) -/
  held : List Deposit
  /-- copy commands of the dispatcher (R354, R360) -/
  dq : List Entry
  forwards : List Forward
  maps : List RangeMap
  /-- performance counters (R445) -/
  perf : Vector (BitVec 48) 16
  /-- dirty lines for checkpoint areas A and B (R226): line numbers, rising -/
  dirtyA : List Nat
  dirtyB : List Nat
  /-- marked spare; lost until reset (R229) -/
  spare : Bool
  lost : Bool
  /-- a refused MIGRATE waits for its retry (R35) -/
  migrateHold : Bool
  /-- the last local write of an mb register and the cycle after it (R95): register, cycle -/
  mbWrite : Option (Nat × BitVec 64)
  /-- instructions a leader has executed and this core's attached follower has not (R28), each with the
  leader's next pc -/
  chain : List (Word × List Word32)
  deriving DecidableEq, Repr

/-- A core after reset. -/
def Core.reset : Core where
  ctx := Ctx.reset
  runList := []
  vers := [0, 0, 0, 0]
  l1 := []
  once := []
  msgs := []
  held := []
  dq := []
  forwards := []
  maps := []
  perf := Vector.replicate 16 0
  dirtyA := []
  dirtyB := []
  spare := false
  lost := false
  migrateHold := false
  mbWrite := none
  chain := []

/-! ### Groups and barriers (R425-R433) -/

/-- A member of a group and its arrival record (R428, R429). -/
structure Member where
  tid : Nat
  /-- the core on which it joined -/
  core : Nat
  arrived : Option (BitVec 16)
  deriving DecidableEq, Repr

/-- A contribution to a reduction round (R370, R371). -/
structure Contribution where
  tid : Nat
  core : Nat
  op : Nat
  all : Bool
  rootCore : Nat
  rootCube : Nat
  tag : BitVec 32
  data : Vec
  m : BitVec 32
  s : BitVec 32
  /-- the router of its cube has accepted it (R385) -/
  taken : Bool
  deriving DecidableEq, Repr

/-- A partial of a reduction (R385, R386): the threads whose contributions it folds, m, s and the lanes. -/
structure Partial where
  covers : List Nat
  m : Nat
  s : Nat
  o : Vec
  deriving DecidableEq, Repr

/-- What a cube's router holds of a round (R385): the contributions of its own cube, and the partials of its inputs, each in
order of arrival. -/
structure RouterPartials where
  cube : Nat
  own : List Partial
  ins : List Partial
  deriving DecidableEq, Repr

/-- An open reduction round (R371): its members and its contributions, in the order in which they were made. -/
structure Round where
  members : List Nat
  parts : List Contribution
  /-- a number of its own -/
  id : Nat
  /-- the partials that stand at the routers of its tree -/
  routers : List RouterPartials
  deriving DecidableEq, Repr

/-- A group: bound ASID.ID, barrier state and, for a network group, its home (R426-R432). -/
structure Group where
  num : Nat
  asid : BitVec 16
  /-- the gang whose launch group it is -/
  launch : Option Nat
  phase : BitVec 16
  members : List Member
  mism : Nat
  /-- pending-byte counter, one part a cube (R431); absent parts are zero -/
  pend : List (Nat × BitVec 48)
  home : Nat
  /-- cubes whose contribution for the open phase is sent or held at the home (R432) -/
  sent : List Nat
  got : List Nat
  /-- cubes to which the release of the open phase has still to travel, and their phase -/
  lag : List (Nat × BitVec 16)
  rounds : List Round
  deriving DecidableEq, Repr

/-! ### Work: packets, gangs, graphs (R346-R359) -/

/-- A PIFO entry (R353): the 128 bytes of its packet, bit 0 first, rank and arrival number. -/
structure PifoEntry where
  packet : BitVec 1024
  rank : BitVec 32
  arrival : Nat
  /-- the graph node of a NODE packet of the walker -/
  node : Option (Nat × Nat)
  /-- the choice of an AUTO node, once it has been made: true for flue engines, or the status with which it ends where its
  records are of no use (R244, R342, R404) -/
  auto : Option (BitVec 16 ⊕ Bool)
  deriving DecidableEq, Repr

/-- A captured checkpoint of a gang (R226): contexts by rank, with the instructions that an attached follower has still
to execute (R28), the scratchpad cells of each rank, the launch group and whether it has committed. -/
structure Checkpoint where
  n : Nat
  ctxs : List (Nat × Ctx)
  chains : List (Nat × List (Word × List Word32))
  spads : List (Nat × List Host.Cell)
  group : Group
  committed : Bool
  /-- the range maps that stood at the capture, as core and entry: their NEW bits clear when it commits (R406) -/
  maps : List (Nat × Nat)
  deriving DecidableEq, Repr

/-- A gang (R21-R23). Members are (rank, tid, core). -/
structure Gang where
  id : Nat
  h0 : Nat
  k0 : Nat
  rows : Nat
  cols : Nat
  asid : BitVec 24
  group : Nat
  members : List (Nat × Nat × Nat)
  halted : List Nat
  origin : WorkOrigin
  ckpt : Bool
  cka : Nat
  ckb : Nat
  areaA : Option Checkpoint
  areaB : Option Checkpoint
  /-- pre-empted: it resumes only with every member resident again (R37) -/
  held : Bool
  /-- since it was pre-empted, a member has returned to a core that was not its own (R37) -/
  moved : Bool
  /-- it has ended with this status, and waits for the maps that the dispatcher must undo (R24, R304) -/
  ending : Option (BitVec 16)
  deriving DecidableEq, Repr

/-- A pair of factors (R415): the rows of U and of L, and the order p of the rows. -/
structure Factor where
  u : List (List Nat)
  l : List (List Nat)
  p : List Nat
  deriving DecidableEq, Repr

/-- Where a refinement run stands between two passes of the loop of R417: F, k, cnt, the escalations, SING, LIMIT, x, the best
iterate and its norm, the last norm, NORM0, lim, the residual, and the factor at F once it has been made. -/
structure Progress where
  fmt : Nat
  k : Nat
  cnt : Nat
  esc : Nat
  sing : Bool
  limit : Bool
  x : List Nat
  best : List Nat
  bn : Nat
  nk : Nat
  norm0 : Nat
  lim : Nat
  res : List Nat
  fac : Option Factor
  deriving DecidableEq, Repr

/-- A refinement run of the dispatcher (R417): its block and whom it serves. -/
structure Run where
  id : Nat
  /-- the block's segmented address under `segs`, and its bytes at the launch -/
  block : Word
  data : BitVec 1024
  asid : BitVec 24
  segs : List (BitVec 16)
  /-- the cube that runs it, and the graph slot and node it serves -/
  cube : Nat
  slot : Nat
  node : Nat
  /-- core, thread, dependency slot and notification (NV, tag) of an RLAUNCH (R421) -/
  by_ : Option (Nat × Nat × Nat)
  /-- the address of the RLAUNCH, which a DIVERGED fault reports as the faulting instruction (R422, R216) -/
  pc : Word
  note : Bool × BitVec 32
  /-- the gang's cores and its group, once placed -/
  cores : List Nat
  group : Nat
  /-- where it stands; none before its first residual -/
  prog : Option Progress
  /-- the rows of A and the elements of b that the controller has read for its next pass (R424) -/
  rows : List (List Nat)
  elems : List Nat
  /-- the exit code of a loop that has ended, whose exit is still to be written -/
  due : Option Nat
  deriving DecidableEq, Repr

/-- A launch of a graph, running or pending (R356): its packet, and whether the dispatcher has given it to the
walker (R354). -/
structure Launch where
  packet : BitVec 1024
  given : Bool
  deriving DecidableEq, Repr

/-- A graph slot (R356-R359). -/
structure GraphSlot where
  slot : Nat
  /-- storage address of the header -/
  header : Nat
  /-- launches in the order of their admission, the running one first -/
  launches : List Launch
  /-- the first launch has started -/
  started : Bool
  /-- nodes enqueued, dispatched or running -/
  active : List Nat
  done : Nat
  /-- the first abort: status and node -/
  abort : Option (BitVec 16 × Nat)
  /-- registered ranges as storage address and length (R357) -/
  ranges : List (Nat × Nat)
  /-- the block of an RLAUNCH, whose launch is of one node (R421) -/
  job : Option Run
  deriving DecidableEq, Repr

/-- A completion waiting for the walker or the dispatcher (R358): origin, status, the completed copy or
node. -/
structure Completion where
  origin : WorkOrigin
  status : BitVec 16
  deriving DecidableEq, Repr

/-! ### Flues (R323-R341) -/

/-- The states of a flue (R330). -/
inductive FlueStatus where
  | idle | configured | running | done | stopped | faulted
  deriving DecidableEq, Repr

/-- A cell of a running kernel (R324, R325): S, firings since the last emission, its port queues. -/
structure Cell where
  s : BitVec 512
  fired : Nat
  a : List (BitVec 512)
  b : List (BitVec 512)
  flushed : Bool
  deriving DecidableEq, Repr

/-- A 64-byte unit of a stream (R336): its storage address, and its segment and offset. -/
structure StreamUnit where
  addr : Nat
  seg : BitVec 16
  off : Word
  deriving DecidableEq, Repr

/-- A flue (R330). -/
structure Flue where
  st : FlueStatus
  owner : Nat
  code : BitVec 16
  tokens : Nat
  image : List (BitVec 64)
  cells : List Cell
  /-- remaining units of I0-I3 and O0-O3 (R336) -/
  ins : List (List StreamUnit)
  outs : List (List StreamUnit)
  /-- tokens that O0-O3 have received and not yet written -/
  oq : List (List (BitVec 512))
  /-- the ranges that its kernel streams: storage address and length (R335, R343) -/
  spans : List (Nat × Nat)
  /-- where its kernel's fault lies, when it names an address -/
  faultAt : Option StreamUnit
  /-- the FSTART it serves: thread and entry id; for the dispatcher, none and an id of its own -/
  by_ : Option (Option Nat × Nat)
  origin : Option WorkOrigin
  frozen : Bool
  deriving DecidableEq, Repr

/-- A flue after reset: IDLE with no image (R330, R338). -/
def Flue.reset : Flue :=
  { st := .idle, owner := 0, code := 0, tokens := 0, image := [], cells := [], ins := [], outs := [],
    oq := [], spans := [], faultAt := none, by_ := none, origin := none, frozen := false }

/-! ### Requests in flight (R260-R267, R372, R378-R383) -/

/-- Who made a request (R260, R378). -/
inductive Agent where
  | main (core : Nat)
  | engine (core : Nat) (e : Sequencer)
  | dispatcher (cube : Nat)
  | stove (cube core : Nat)
  /-- the host port of a cube, for its ingress slot -/
  | host (cube slot : Nat)
  deriving DecidableEq, Repr

/-- Ordering classes (R265). -/
inductive Class where
  | ordered | adaptive | reduce | reply
  deriving DecidableEq, Repr

/-- What a request or a reply carries (R379). Addresses are storage addresses. -/
inductive Body where
  | read (addr : Nat) (window : Nat) (dest : LoadDest)
  /-- a copy engine's source read for the atom at position p of entry id (R282) -/
  | copyRead (addr len id p : Nat)
  /-- a write within one atom, `none` where a byte enable is clear (R233); with `add` = n > 0 each n-byte
  element is added (R247); `off` is the first byte's offset, reported if the write is refused (R488) -/
  | write (addr : Nat) (bytes : List (Option Byte)) (add : Nat) (off : Word)
  /-- one lane of a VAMO (R301); `off` as for a write -/
  | atomic (op : AtomicOp) (addr : Nat) (v : BitVec 32) (off : Word)
  /-- an AMO whose reply brings the old value (R300) -/
  | amo (args : AmoArgs) (addr : Nat) (dest : LoadDest)
  /-- a decide-once request: funct, address, generation, proposal (R313) -/
  | once (fn : Nat) (addr g proposal : Nat)
  /-- CNTRD of the barrier state of a network group, at the barrier home (R432, R444) -/
  | barrierRead (group : Nat)
  | ownRequest (atom id p : Nat)
  /-- an engine gives an atom of an entry up (R283) -/
  | ownRelease (atom id : Nat)
  | grant (atom id p : Nat)
  /-- data that a copy writes at its destination (R307, R384): the address of its first byte, for a multicast its offset in
  each member's scratchpad; the bytes, and the entry and position that they belong to -/
  | multicast (dst : Nat) (bytes : List Byte) (id p : Nat)
  /-- the reply to it: the data stands at an address, or the home refused it (R309) -/
  | copied (dst id p : Nat) (refused : Option TrapCode)
  | deposit (core : Nat) (d : Deposit)
  | message (core : Nat) (m : Msg)
  | packet (p : BitVec 1024) (slot : Option Nat) (valid : Bool)
  | context (core : Nat) (c : Ctx)
  /-- a contribution to a reduction on its way to the router of its own cube, which accepts it (R385) -/
  | contribution (group : Nat) (c : Contribution)
  /-- a partial of a round that a router sends on to the next (R385) -/
  | partialSum (group round : Nat) (p : Partial)
  | barrier (group : Nat) (phase : BitVec 16)
  | release (group : Nat) (phase : BitVec 16)
  /-- a reply with data; `err` reports an atom that could not be read -/
  | data (bytes : List Byte) (dest : LoadDest) (req : Nat) (err : Option TrapReport)
  /-- the reply to a decide-once request, or to a read of a barrier's state -/
  | onceData (req : Nat) (a : OnceAnswer)
  /-- the reply to a copy engine's source read of the bytes from position p of entry id on; `err` gives the distance of a
  poisoned atom from them -/
  | copyData (bytes : List Byte) (id p : Nat) (err : Option Word)
  /-- acknowledges `n` of a thread's requests; a refused write reports its first byte (R488) -/
  | ack (n : Nat) (refused : Option Word)
  /-- a refusal with its code; none where there is no room (R383) -/
  | nack (code : Option (BitVec 16))
  /-- an admission reply with the place of a graph's launch (R355) -/
  | admission (place : Nat)
  /-- a packet of a KIND that no row of R379 gives -/
  | unknown (kind : BitVec 8)
  deriving DecidableEq, Repr

/-- A request or reply in flight. What R378's envelope holds besides these fields follows from them: KIND and LEN from the
body, INTL, MGEN and IADDR from `ilv`, MCAST and GROUP from `group`. Of CHECK the model holds whether it is right, where the
spec makes something of it: in a task packet (R348 step 1). -/
structure Flight where
  /-- a number of its own in the domain; a reply has that of the request it answers -/
  num : Nat
  /-- the number under which its request was issued, which a copy of it shares, sent again (R383) or to another member
  (R384): it rises in issue order and orders the requests of a pair (R266) -/
  ord : Nat
  /-- its sequence number (R382); for a multicast that of the first member, with those of each member's pair in `seqs` -/
  seq : BitVec 24
  seqs : List (Nat × BitVec 24)
  /-- the number that stood when it was last sent, which tells the links that its route avoids (R380) -/
  route : Nat
  src : Agent
  tid : Nat
  cls : Class
  /-- the cube it has reached and the cube and core it goes to (R380) -/
  at_ : Nat
  cube : Nat
  home : Nat
  /-- IADDR and MGEN of an interleaved resolution (R239, R378) -/
  ilv : Option (Nat × BitVec 16)
  /-- times sent, 0 for one that its source holds while 256 of its pair and class are outstanding (R382), and whether it
  waits for a retry (R383) -/
  sends : Nat
  waiting : Bool
  /-- the retry time of its next attempt, in cycles (R383) -/
  retry : Nat
  /-- the cores to which a multicast still carries its data; none for a packet to one place (R384) -/
  members : List Nat
  /-- GROUP, with MCAST = 1 (R378): the network group that governs delivery or folding; none with MCAST = 0 -/
  group : Option Nat
  /-- VER, and the reserved bits of the envelope that are set (R378, R379) -/
  ver : BitVec 8
  rsv : BitVec 320
  body : Body
  deriving DecidableEq, Repr

/-- The next sequence number of a source, a destination and a class (R382). -/
structure SeqCount where
  src : Agent
  home : Nat
  cls : Class
  next : BitVec 24
  deriving DecidableEq, Repr

/-- What stands of a performed request (R382, R383): the request, which its source keeps until it has taken the reply, and
the reply as it was sent, which the home keeps. -/
structure Kept where
  request : Flight
  reply : Flight
  taken : Bool
  deriving DecidableEq, Repr

/-- A link that is out of use for routes (R380): its cube and direction, and the issue number before which requests still
take it. -/
structure Detour where
  cube : Nat
  dir : Nat
  since : Nat
  deriving DecidableEq, Repr

/-- A removal of a cube that has begun (R389): the cube, the map that stood, the map to install, and the cubes that have
installed it; `owned` once the copy engines own the destination atoms (step 3). -/
structure Removal where
  cube : Nat
  old : InterleaveMap
  map : InterleaveMap
  owned : Bool
  installed : List Nat
  deriving DecidableEq, Repr

/-! ### Cubes -/

/-- A link of the router (R377). -/
structure Link where
  up : Bool
  lanes : Nat
  ver : Nat
  replay : BitVec 32
  /-- what the partner declared ignore-on-receive (R387, R388) -/
  ignore : List IgnoreEntry
  deriving DecidableEq, Repr

/-- A segment descriptor (R401). -/
structure SegDesc where
  asid : BitVec 16
  seg : BitVec 16
  root : Nat
  limit : Nat
  deriving DecidableEq, Repr

/-- A cached translation of one of the 16 stations (R254): page base and size, generation and permissions. -/
structure TlbEntry where
  station : Nat
  asid : BitVec 16
  gen : BitVec 8
  seg : BitVec 16
  off : Nat
  size : Nat
  pte : BitVec 64
  deriving DecidableEq, Repr

/-- A SAVED context held by the Stove with its trap report (R213, R219). -/
structure SavedCtx where
  ctx : Ctx
  core : Nat
  report : Option TrapReport
  /-- the Stove may return it to a run list; else it waits for a service, a reflection, or the end of a debug
  stop (R215, R455) -/
  handled : Bool
  deriving DecidableEq, Repr

/-- A notice of 64 bytes to a Stove core (R344, R373). Of its words the spec gives none: the model holds its kind and what
it is about, log entry 11. -/
structure Notice where
  core : Nat
  kind : Nat
  arg : Nat
  deriving DecidableEq, Repr

/-- A change of an ASID's generation that is under way (R256): the value that stood, the next one, the stations that have
still to flush what they hold of the ASID, where it wraps, and those that have still to write it. -/
structure GenChange where
  asid : BitVec 16
  old : BitVec 8
  new : BitVec 8
  flush : List Nat
  stations : List Nat
  deriving DecidableEq, Repr

/-- An attestation report (R458): the caller's nonce, the digests and SVNs of the eight images, the flue-set generation and
the number of retired flues, the spare-core mask, the interface versions of the links, and the signature. -/
structure Report where
  nonce : BitVec 256
  images : List (BitVec 256 × BitVec 32)
  fgen : BitVec 16
  retired : Nat
  spares : Nat
  versions : List Nat
  signature : BitVec 512
  deriving DecidableEq, Repr

/-- The Stove (R213, R373, R450-R458). -/
structure Stove where
  saved : List SavedCtx
  /-- frames of a trap table entry in use: ASID.ID, frame, thread (R215) -/
  frames : List (BitVec 16 × Nat × Nat)
  trapTable : List (BitVec 16 × BitVec 256)
  segs : List SegDesc
  /-- generation table (R255); absent ASIDs have 0 -/
  gens : List (BitVec 16 × BitVec 8)
  /-- the change of a generation that stations have still to write (R256) -/
  changing : Option GenChange
  /-- ASIDs whose stale generations are reflected (R255) -/
  reflect : List (BitVec 16)
  stations : List TlbEntry
  quantum : Nat
  rank : List (BitVec 32)
  retry : Nat
  power : Nat
  /-- withdrawn packets (R353) -/
  withdrawn : List PifoEntry
  /-- the notices in the mailboxes, oldest first, and those that their writers hold because a mailbox is full (R373) -/
  notices : List Notice
  heldNotices : List Notice
  /-- the stations that have still to flush what core 2 has changed in the page tables (R403) -/
  flushing : List Nat
  run : BitVec 8
  fail : BitVec 8
  ready : Bool
  recov : Bool
  failed : Bool
  images : List (BitVec 256 × BitVec 32)
  errlog : List (BitVec 256)
  errcount : Nat
  reports : List Report
  /-- words of REQ k and RSP k of the mailbox windows (R453), and the cores whose command is unanswered (R455) -/
  req : List (Nat × Nat × BitVec 64)
  rsp : List (Nat × Nat × BitVec 64)
  unanswered : List Nat
  /-- the eight words of the command that stands in a core's mailbox, as REQ held them at the write of DOOR (R453) -/
  posted : List (Nat × List (BitVec 64))
  /-- step 6 of R450 has been reached, so that the links of this cube may train (R451) -/
  linking : Bool
  deriving DecidableEq, Repr

/-- The reset rank program (R350). -/
def resetRank : List (BitVec 32) := [0x00000124#32, 0xD0000000#32] ++ List.replicate 14 0

/-- The Stove after reset (R26, R214, R350, R383, R454, R456). -/
def Stove.reset : Stove where
  saved := []
  frames := []
  trapTable := []
  segs := []
  gens := []
  changing := none
  reflect := []
  stations := []
  quantum := 2 ^ 20
  rank := resetRank
  retry := 2 ^ 18
  power := 1100
  withdrawn := []
  notices := []
  heldNotices := []
  flushing := []
  run := 0
  fail := 0
  ready := false
  recov := false
  failed := false
  images := []
  errlog := []
  errcount := 0
  reports := []
  req := []
  rsp := []
  unanswered := []
  posted := []
  linking := false

/-- A cube (R1, R232, R344, R397, R425). -/
structure Cube where
  stove : Stove
  /-- the cycle counter (R51) -/
  clock : BitVec 64
  /-- AIT.T (R103) -/
  ait : BitVec 16
  /-- the cycle of the last write of AIT by Stove core 1 (R104) -/
  aitStove : Option (BitVec 64)
  imap : InterleaveMap
  /-- flue map: FGEN, retired flues in order of retirement, entries as flue or RETIRED t (R400) -/
  fgen : BitVec 16
  fmap : List (Nat ⊕ Nat)
  /-- the expanders that bring-up programmed: their ports and capacities, and whether they respond (R245, R395) -/
  expanders : List Expander
  /-- what the host declared ignore-on-receive (R388, R392) -/
  hostIgnore : List IgnoreEntry
  pifo : List PifoEntry
  /-- the arrival number of the head for which the dispatcher has posted its notice (R19) -/
  noticed : Option Nat
  arrivals : Nat
  /-- validated packets waiting for the PIFO, with the request that is answered at admission (R18, R353) -/
  ingress : List (PifoEntry × Option Flight)
  /-- packets of the walker, and packets admitted again, that wait for room in the ingress buffer (R344) -/
  walked : List PifoEntry
  gangs : List Gang
  groups : List Group
  graphs : List GraphSlot
  done : List Completion
  runs : List Run
  flues : Vector Flue 64
  /-- words held by the hearths' instruction caches: hearth, global address, word (R252) -/
  icache : List (Nat × Nat × Word32)
  /-- the core of each hearth that had the last fetch grant (R30) -/
  granted : List (Nat × Nat)
  /-- the fetch grants that have not been used: the core, and the PC of the instruction granted to it (R30) -/
  fetched : List (Nat × Word)
  /-- banks under refresh: flue, bank (R257) -/
  refreshing : List (Nat × Nat)
  /-- flues whose retirement waits for the kernels that run (R341) -/
  retiring : List Nat
  /-- the local regions that are about to become absent (R243) -/
  marked : List Nat
  /-- ranges whose atoms the copy engines of a removal own: storage address and length (R389) -/
  moving : List (Nat × Nat)
  hot : Bool
  links : Vector Link 6
  /-- error counters (R446) -/
  errs : Vector (BitVec 48) 16
  /-- atoms owned by a copy engine: atom, engine's core, entry (R264, R281) -/
  owned : List (Nat × Nat × Nat)
  /-- atoms of which the host holds a copy (R264) -/
  hosted : List Nat
  /-- ingress slots of the host port and their SLOTSTAT (R393) -/
  slots : List (Nat × BitVec 1024)
  slotstat : List (Nat × BitVec 18)
  /-- clamps of the die: 105 C, 115 C (R456) -/
  clamped : Bool
  tripped : Bool
  /-- threads whose retired store failed, so that their gang rolls back (R228) -/
  rollbacks : List Nat
  /-- atoms of records and descriptors that the dispatcher, the walker or a flue-request engine has read ahead of the rest:
  the number of the work that reads, the atom, its bytes (R405) -/
  early : List (Nat × Nat × List Byte)
  removed : Bool
  unreachable : Bool
  /-- images supplied in recovery, which the next reset loads (R452) -/
  supplied : List (Nat × FirmwareImage)
  deriving DecidableEq, Repr

/-- A cube after reset (R88, R399, R400, R446, R456). No expander is programmed before bring-up (R450 step 4). -/
def Cube.reset (c : Nat) : Cube where
  stove := Stove.reset
  clock := 0
  ait := 48
  aitStove := none
  imap := { s := 12, mgen := 0, entries := [{ cube := c, lost := false, base := 0 }] }
  fgen := 0
  fmap := (List.range 64).map Sum.inl
  expanders := []
  hostIgnore := []
  pifo := []
  noticed := none
  arrivals := 0
  ingress := []
  walked := []
  gangs := []
  groups := []
  graphs := []
  done := []
  runs := []
  flues := Vector.replicate 64 Flue.reset
  icache := []
  granted := []
  fetched := []
  refreshing := []
  retiring := []
  marked := []
  moving := []
  hot := false
  links := Vector.replicate 6 { up := false, lanes := 0, ver := 0, replay := 0, ignore := [] }
  errs := Vector.replicate 16 0
  owned := []
  hosted := []
  slots := []
  slotstat := []
  clamped := false
  tripped := false
  rollbacks := []
  early := []
  removed := false
  unreachable := false
  supplied := []

/-! ### The machine -/

/-- What a Stove core or a unit does that no row of the table names (log entry 89). -/
inductive Action where
  /-- Stove core 1 writes AIT (R88, R104) -/
  | writeAit (cube : Nat) (v : BitVec 16)
  /-- Stove core 3 clears an error counter (R446) -/
  | clearError (cube k : Nat)
  /-- Stove core 3 asks a core's thread to stop for error handling (R218) -/
  | stopForError (core : Nat)
  /-- the Stove writes an atom whole (R235, R312) -/
  | writeAtom (atom : Nat) (v : BitVec 256)
  /-- an expander stops answering, or answers again (R245) -/
  | expander (cube port : Nat) (responds : Bool)
  /-- an L1 loses a line (R250), or a decided copy (R318) -/
  | dropLine (core addr : Nat)
  | dropCopy (core addr : Nat)
  /-- a hearth's instruction cache loses its copy of a word's line (R252) -/
  | dropFetched (cube hearth addr : Nat)
  /-- a Stove core takes the oldest notice of its mailbox (R373) -/
  | takeNotice (cube core : Nat)
  /-- the Stove cannot service the fault that the write of a thread's trap frame meets (R215 step 3) -/
  | giveUp (tid : Nat)
  /-- a packet on its way carries another VER, or reserved bits (R379, R388) -/
  | deface (num : Nat) (ver : BitVec 8) (rsv : BitVec 320)
  /-- a packet of an unknown KIND sets out from one core to another (R379) -/
  | stray (src dst : Nat) (kind : BitVec 8)
  /-- the receiving endpoint discards an unsupported packet (R379) -/
  | discard (num : Nat)
  /-- a removal goes on where it can (R389) -/
  | removal
  /-- a station flushes what a change of the page tables affects (R403) -/
  | flush (cube station : Nat)
  /-- a station writes the generation that Stove core 2 changes (R256) -/
  | writeGen (cube station : Nat)
  /-- the controller of a refinement run reads a row, or makes a pass (R417) -/
  | refine (cube run : Nat)
  /-- the Stove creates a task packet (R15) -/
  | createPacket (cube : Nat) (p : BitVec 1024)
  /-- a task packet is damaged on its way, so that its CHECK is wrong (R348 step 1) -/
  | damage (num : Nat)
  /-- the dispatcher or the walker of a cube reads an atom of a record ahead of the rest (R405) -/
  | readAhead (cube slot node addr : Nat)
  /-- so does the flue-request engine of a core -/
  | readRecord (core addr : Nat)
  deriving DecidableEq, Repr

/-- What moves next: an event of the table, an action of a unit, or the issue of one instruction by a sequencer of a core.
`answerLater` lets that instruction's load or atomic answer by a reply (R35); `useL1` lets the load be
served by a valid line of the L1 (R250), and the fetch by words of the instruction cache (R252). -/
inductive Turn where
  | event (i : Instr)
  | act (a : Action)
  | issue (core : Nat) (seq : Sequencer) (answerLater useL1 : Bool)
  deriving DecidableEq, Repr

/-- The state of the domain. -/
structure State where
  /-- the core that moves (global number: 256 x cube + core) and the sequencer that moves on it -/
  me : Nat
  seqr : Sequencer
  /-- the words of the instruction being moved, for its forwarding to followers (R28) -/
  word : List Word32
  answerLater : Bool
  useL1 : Bool
  /-- the core that moves -/
  core : Core
  /-- the other cores, by rising number; one that is absent is as after reset -/
  cores : List (Nat × Core)
  /-- the cubes, by rising number; one that is absent is as after reset -/
  cubes : List (Nat × Cube)
  /-- memory by global physical address; a scratchpad byte stands at its RAW-window address -/
  mem : List Host.Cell
  /-- poisoned atoms, by rising address (R235) -/
  poison : List Nat
  flights : List Flight
  /-- kept replies of performed requests, oldest first (R382) -/
  kept : List Kept
  /-- the next sequence numbers, where they are not 0 (R382) -/
  seqs : List SeqCount
  /-- links that routes avoid (R380) -/
  detours : List Detour
  /-- the removal of a cube that is under way (R389) -/
  removal : Option Removal
  agenda : List Turn
  /-- counts the steps in which the agenda is empty, so that every agent has its turn (R38), log entry 11 -/
  idleCtr : Nat
  /-- feeds free values, thread names and issue numbers (log entry 3) -/
  freeCtr : Nat
  tidCtr : Nat
  numCtr : Nat
  deriving DecidableEq, Repr

/-- What an unlisted address reads as: 0 at every address. The spec leaves the contents of memory after
reset open (R6, R450). DESIGN CHOICE, unsafe, log entry 1. -/
def unlisted (_ : Nat) : Byte := 0

/-- The machine after reset: every register at its reset value, no thread on any core (a program comes
from outside: log entry 10), nothing in memory, nothing in flight. -/
def State.reset : State where
  me := 0
  seqr := .main
  word := []
  answerLater := false
  useL1 := false
  core := Core.reset
  cores := []
  cubes := []
  mem := []
  poison := []
  flights := []
  kept := []
  seqs := []
  detours := []
  removal := none
  agenda := []
  idleCtr := 0
  freeCtr := 0
  tidCtr := 0
  numCtr := 0

end Sys2Proof.Machine
end

