-- ==== Sys2Proof/Machine/Flags.lean ====
section
/-! DEFINITION. The fields of TSW (R97, R98), the dirty bits (R105), the static distances of fixed-latency
results (R55-R57) and the branch conditions (R45): every flag the machine computes. -/

namespace Sys2Proof.Machine

open Sys2Proof

/-! ### TSW (R97) -/

def tswPriv (w : Word) : Bool := w.getLsbD 0
def tswChk (w : Word) : Bool := w.getLsbD 1
def tswAp (w : Word) : Bool := w.getLsbD 2
def tswVtrap (w : Word) : Bool := w.getLsbD 3
def tswDet (w : Word) : Bool := w.getLsbD 4
def tswFol (w : Word) : Bool := w.getLsbD 5
def tswRa (w : Word) : Bool := w.getLsbD 6
def tswAccv (w : Word) : Bool := w.getLsbD 7
def tswLead (w : Word) : Nat := field w 8 3
def tswHop (w : Word) : Nat := field w 11 3
def tswFset (w : Word) : Nat := field w 16 8
def tswRit (w : Word) : Nat := field w 24 24
def tswRpos (w : Word) : Nat := field w 48 4

/-- TSW with one bit set to `b`. -/
def tswSet (w : Word) (bit : Nat) (b : Bool) : Word := setField w bit 1 (if b then 1 else 0)

/-- TSW with RA, RIT and RPOS replaced (R61). -/
def tswRepeat (w : Word) (ra : Bool) (rit rpos : Nat) : Word :=
  setField (setField (tswSet w 6 ra) 24 24 rit) 48 4 rpos

/-- What SWR of TSW stores (R97, R98, R107): PRIV, CHK, AP and VTRAP are written; RA is written with 0
only, which also makes RIT and RPOS zero; all else stands. -/
def tswWrite (old new : Word) : Word :=
  let w := setField old 0 4 (field new 0 4)
  if tswRa old && !tswRa new then tswRepeat w false 0 0 else w

/-! ### Conditions (R45) -/

/-- Whether a branch condition holds of a value. Code 6 is always; code 7 is reserved (R45). -/
def condHolds (cond : BitVec 3) (x : Word) : Bool :=
  match cond.toNat with
  | 0 => x == 0
  | 1 => x != 0
  | 2 => x.toInt < 0
  | 3 => 0 ≤ x.toInt
  | 4 => 0 < x.toInt
  | 5 => x.toInt ≤ 0
  | 6 => true
  | _ => false

/-! ### Static distances (R57) -/

/-- The distance still missing at a place: 0 when its result may be read. -/
def boardAt (l : List (Loc × Nat)) (x : Loc) : Nat :=
  match l.find? fun p => p.1 == x with
  | some p => p.2
  | none => 0

/-- A result of latency `lat` now stands at a place: the latest producer only counts (R57). -/
def boardPut (l : List (Loc × Nat)) (x : Loc) (lat : Nat) : List (Loc × Nat) :=
  let r := l.filter fun p => p.1 != x
  if lat = 0 then r else (x, lat) :: r

/-- A push ages every scalar queue entry by one (R12). -/
def boardPushG (l : List (Loc × Nat)) (lat : Nat) : List (Loc × Nat) :=
  boardPut (l.filterMap fun p => match p.1 with
    | .gq k => if k < 16 then some (.gq (k + 1), p.2) else none
    | _ => some p) (.gq 1) lat

/-- A push ages every vector queue entry by one (R12). -/
def boardPushV (l : List (Loc × Nat)) (lat : Nat) : List (Loc × Nat) :=
  boardPut (l.filterMap fun p => match p.1 with
    | .vq k => if k < 16 then some (.vq (k + 1), p.2) else none
    | _ => some p) (.vq 1) lat

/-- An instruction with stall count `stall` has issued: every distance grows by 1 + stall (R55, R57). -/
def boardTick (l : List (Loc × Nat)) (stall : Nat) : List (Loc × Nat) :=
  l.filterMap fun p => if p.2 ≤ 1 + stall then none else some (p.1, p.2 - (1 + stall))

/-! ### Dirty bits (R105) -/

/-- GRPDIRTY with bit `k` set. -/
def dirtyGrp (r : Regs) (k : Nat) : Regs := { r with grpdirty := r.grpdirty ||| (BitVec.ofNat 7 (2 ^ k)) }

/-- TDIRTY with bit `k` set. -/
def dirtyTile (r : Regs) (k : Nat) : Regs := { r with tdirty := r.tdirty ||| (BitVec.ofNat 9 (2 ^ k)) }

end Sys2Proof.Machine
end

