-- ==== Sys2Proof/Machine/Ops.lean ====
section
/-! DEFINITION. The named operations over the state: cores and cubes, memory cells, contexts, the taking of
a trap, and the issue of one instruction with its advance of the pc. -/

namespace Sys2Proof.Machine

open Sys2Proof

/-! ### Cores and cubes -/

/-- A core of the domain. -/
def State.getCore (s : State) (id : Nat) : Core :=
  if id = s.me then s.core else (assoc s.cores id).getD Core.reset

/-- Replaces a core of the domain. -/
def State.setCore (s : State) (id : Nat) (c : Core) : State :=
  if id = s.me then { s with core := c } else { s with cores := assocSet s.cores id c }

/-- Changes a core of the domain. -/
def State.modCore (s : State) (id : Nat) (f : Core → Core) : State := s.setCore id (f (s.getCore id))

/-- Makes a core the one that moves. -/
def State.focus (s : State) (id : Nat) : State :=
  if id = s.me then s
  else { s with
    me := id
    core := (assoc s.cores id).getD Core.reset
    cores := assocErase (assocSet s.cores s.me s.core) id }

/-- A cube of the domain. -/
def State.cube (s : State) (c : Nat) : Cube := (assoc s.cubes c).getD (Cube.reset c)

/-- Changes a cube of the domain. -/
def State.modCube (s : State) (c : Nat) (f : Cube → Cube) : State :=
  { s with cubes := assocSet s.cubes c (f (s.cube c)) }

/-- Changes the Stove of a cube. -/
def State.modStove (s : State) (c : Nat) (f : Stove → Stove) : State :=
  s.modCube c fun k => { k with stove := f k.stove }

/-- The number of the moving core's cube. -/
def State.myCube (s : State) : Nat := s.me / 256

/-- The moving core's number on its cube (R51). -/
def State.myCore (s : State) : Nat := s.me % 256

/-- Changes the moving core's thread. -/
def State.modCtx (s : State) (f : Ctx → Ctx) : State := { s with core := { s.core with ctx := f s.core.ctx } }

/-- The registers of the moving core's thread. -/
def State.regs (s : State) : Regs := s.core.ctx.regs

/-- Changes the registers of the moving core's thread. -/
def State.modRegs (s : State) (f : Regs → Regs) : State := s.modCtx fun c => { c with regs := f c.regs }

/-- Changes the tiles of the moving core's thread. -/
def State.modTiles (s : State) (f : TileRegs → TileRegs) : State := s.modCtx fun c => { c with tiles := f c.tiles }

/-- TSW.PRIV of the moving thread. -/
def State.priv (s : State) : Bool := tswPriv s.regs.tsw

/-- ASID.ID of the moving thread (R103). -/
def State.asidId (s : State) : BitVec 16 := s.regs.asid.extractLsb' 0 16

/-- Adds `n` to a performance counter of a core (R445). -/
def Core.count (c : Core) (k n : Nat) : Core :=
  { c with perf := c.perf.setIfInBounds k ((c.perf[k]?.getD 0) + BitVec.ofNat 48 n) }

/-- Adds 1 to an error counter of a cube, saturating (R446). -/
def State.errCount (s : State) (c k : Nat) : State :=
  s.modCube c fun q =>
    let v := q.errs[k]?.getD 0
    { q with errs := q.errs.setIfInBounds k (if v = BitVec.allOnes 48 then v else v + 1) }

/-- A fresh number. -/
def State.fresh (s : State) : Nat × State := (s.numCtr, { s with numCtr := s.numCtr + 1 })

/-- Posts a notice to the mailbox of a Stove core (R373): one that finds 32 there, or others of its mailbox held, is held
by its writer. -/
def Stove.post (t : Stove) (n : Notice) : Stove :=
  if (t.notices.filter fun x => x.core == n.core).length < 32 && !(t.heldNotices.any fun x => x.core == n.core) then
    { t with notices := t.notices ++ [n] }
  else { t with heldNotices := t.heldNotices ++ [n] }

/-- A Stove core takes the oldest notice of its mailbox, into which the oldest that is held for it then goes (R373). -/
def Stove.take (t : Stove) (core : Nat) : Stove :=
  let mine := fun (x : Notice) => x.core == core
  let t := { t with notices := t.notices.eraseP mine }
  match t.heldNotices.find? mine with
  | some n => { t with notices := t.notices ++ [n], heldNotices := t.heldNotices.eraseP mine }
  | none => t

/-- Posts a notice about something to the mailbox of a Stove core of a cube (R373). -/
def State.noticeOf (s : State) (c core kind arg : Nat) : State := s.modStove c fun t => t.post ⟨core, kind, arg⟩

/-- Posts a notice to the mailbox of a Stove core of a cube (R373). -/
def State.notice (s : State) (c core kind : Nat) : State := s.noticeOf c core kind 0

/-- The kinds of notices: a placement wait (R19), a rank-program failure (R352), a trap report (R213), a poisoned
atom (R235), an error record (R457), a refused host write (R357), a link that is down (R376). -/
def noticePlacement : Nat := 0
def noticeRank : Nat := 1
def noticeTrap : Nat := 2
def noticePoison : Nat := 3
def noticeError : Nat := 4
def noticeHostWrite : Nat := 5
def noticeLink : Nat := 6

/-- Posts a record to ERRLOG (R457): the last 64 are kept, the count tells how many were written. -/
def State.errRecord (s : State) (c code sev wher : Nat) : State :=
  let t := (s.cube c).clock.toNat
  s.modStove c fun k =>
    let rec_ := BitVec.ofNat 256 (code + sev * 2 ^ 16 + wher % 2 ^ 64 * 2 ^ 64 + t * 2 ^ 128 +
      k.errcount % 2 ^ 48 * 2 ^ 192)
    { k with errlog := (rec_ :: k.errlog).take 64, errcount := k.errcount + 1 }

/-! ### Memory cells -/

/-- The byte at a storage address. -/
def memGet (l : List Host.Cell) (a : Nat) : Byte :=
  match l.find? fun p => p.1 == a with
  | some p => p.2
  | none => unlisted a

/-- Writes a byte, keeping the canonical form: addresses rise and no entry equals what an unlisted
address reads as. -/
def memSet : List Host.Cell → Nat → Byte → List Host.Cell
  | [], a, b => if b = unlisted a then [] else [(a, b)]
  | p :: l, a, b =>
    if p.1 < a then p :: memSet l a b
    else if p.1 = a then (if b = unlisted a then l else (a, b) :: l)
    else if b = unlisted a then p :: l else (a, b) :: p :: l

/-- The canonical form of memory: addresses strictly rising, no entry equal to the unlisted value. -/
def Memory.wf : List Host.Cell → Bool
  | [] => true
  | [p] => p.2 != unlisted p.1
  | p :: q :: l => p.2 != unlisted p.1 && p.1 < q.1 && Memory.wf (q :: l)

/-- Writes consecutive bytes. -/
def memSetList : List Host.Cell → Nat → List Byte → List Host.Cell
  | l, _, [] => l
  | l, a, b :: bs => memSetList (memSet l a b) (a + 1) bs

/-- Reads consecutive bytes. -/
def memGetList (l : List Host.Cell) : Nat → Nat → List Byte
  | _, 0 => []
  | a, n + 1 => memGet l a :: memGetList l (a + 1) n

/-- The base of the scratchpad windows in the cube-local map (R236). -/
def spadBase : Nat := 0x400000000000

/-- The storage address of scratchpad byte `o` of a core (by its global number): its RAW-window global
address (R246). -/
def spadAddr (core o : Nat) : Nat := core / 256 * 2 ^ 47 + spadBase + core % 256 * 2 ^ 22 + o

/-- Whether a storage address lies in a scratchpad, and then the core and offset. -/
def spadOf (a : Nat) : Option (Nat × Nat) :=
  let l := a % 2 ^ 47
  if spadBase ≤ l && l < spadBase + 2 ^ 30 then
    some (a / 2 ^ 47 * 256 + (l - spadBase) / 2 ^ 22, (l - spadBase) % 2 ^ 22)
  else none

/-- Marks the scratchpad lines that a write touches (R226). -/
def markLines (s : State) (a n : Nat) : State :=
  match spadOf a with
  | none => s
  | some (c, o) =>
    let ls := (List.range ((o + n - 1) / 1024 + 1 - o / 1024)).map (· + o / 1024)
    s.modCore c fun k => { k with
      dirtyA := ls.foldl insertNat k.dirtyA
      dirtyB := ls.foldl insertNat k.dirtyB }

/-- Stores bytes at a storage address: the bytes, the dirty lines (R226), and the poison of every atom
that the write covers whole (R235). -/
def State.store (s : State) (a : Nat) (bs : List Byte) : State :=
  if bs.isEmpty then s
  else
    let t := markLines { s with mem := memSetList s.mem a bs } a bs.length
    { t with poison := t.poison.filter fun x => !(a ≤ x && x + 32 ≤ a + bs.length) }

/-- Reads bytes at a storage address. -/
def State.load (s : State) (a n : Nat) : List Byte := memGetList s.mem a n

/-- The first poisoned atom that a range touches (R235). -/
def State.poisoned (s : State) (a n : Nat) : Option Nat :=
  s.poison.find? fun x => x < a + n && a < x + 32

/-! ### Sequencers and repeat state (R61) -/

/-- The repeat state of a sequencer. -/
structure Rep where
  ra : Bool
  rit : Nat
  rpos : Nat
  base : Word
  cnt : BitVec 25
  deriving DecidableEq, Repr

/-- An engine of a thread; the main sequencer has none. -/
def Ctx.engine (c : Ctx) : Sequencer → Engine
  | .main => Engine.reset
  | .matrix => c.matrix
  | .copy => c.copy
  | .flue => c.flue

/-- Changes an engine of a thread. -/
def Ctx.modEngine (c : Ctx) (e : Sequencer) (f : Engine → Engine) : Ctx :=
  match e with
  | .main => c
  | .matrix => { c with matrix := f c.matrix }
  | .copy => { c with copy := f c.copy }
  | .flue => { c with flue := f c.flue }

/-- The pc of the moving sequencer (R100). -/
def State.curPc (s : State) : Word :=
  match s.seqr with
  | .main => s.regs.pc
  | e => (s.core.ctx.engine e).pc

/-- Sets the pc of the moving sequencer. -/
def State.setPc (s : State) (pc : Word) : State :=
  match s.seqr with
  | .main => s.modRegs fun r => { r with pc := pc }
  | e => s.modCtx fun c => c.modEngine e fun g => { g with pc := pc }

/-- The repeat state of the moving sequencer. -/
def State.rep (s : State) : Rep :=
  match s.seqr with
  | .main => ⟨tswRa s.regs.tsw, tswRit s.regs.tsw, tswRpos s.regs.tsw, s.regs.repbase, s.regs.rcnt⟩
  | e =>
    let g := s.core.ctx.engine e
    ⟨g.ra, g.rit.toNat, g.rpos.toNat, g.repbase, g.rcnt⟩

/-- Sets the repeat state of the moving sequencer. -/
def State.setRep (s : State) (p : Rep) : State :=
  match s.seqr with
  | .main => s.modRegs fun r => { r with
      tsw := tswRepeat r.tsw p.ra p.rit p.rpos, repbase := p.base, rcnt := p.cnt }
  | e => s.modCtx fun c => c.modEngine e fun g => { g with
      ra := p.ra, rit := BitVec.ofNat 24 p.rit, rpos := BitVec.ofNat 4 p.rpos, repbase := p.base, rcnt := p.cnt }

/-- The captured body of the moving sequencer. -/
def State.frame (s : State) : Option Frame :=
  match s.seqr with
  | .main => s.core.ctx.frame
  | e => (s.core.ctx.engine e).frame

/-- Sets the captured body of the moving sequencer. -/
def State.setFrame (s : State) (f : Option Frame) : State :=
  match s.seqr with
  | .main => s.modCtx fun c => { c with frame := f }
  | e => s.modCtx fun c => c.modEngine e fun g => { g with frame := f }

/-- The advance past an instruction of `words` words: to the next word, or through the repeat frame
(R59, R61). -/
def State.advance (s : State) (words : Nat) : State :=
  let p := s.rep
  let next := s.curPc + BitVec.ofNat 64 (4 * words)
  if !p.ra then s.setPc next
  else
    let len := match s.frame with
      | some f => f.body.length
      | none => 1
    if p.rpos + 1 < len then (s.setRep { p with rpos := p.rpos + 1 }).setPc next
    else if p.rit + 1 < p.cnt.toNat then
      (s.setRep { p with rit := p.rit + 1, rpos := 0 }).setPc (p.base + 4)
    else ((s.setRep { p with ra := false, rit := 0, rpos := 0 }).setFrame none).setPc next

/-! ### Traps (R210-R213) -/

/-- How an instruction ends short of completing. -/
inductive Stop where
  /-- it traps; the state is the one the trap is taken in -/
  | trap (t : TrapReport) (s : State)
  /-- it waits: the state holds what the wait records, the instruction executes again (R36) -/
  | wait (s : State)

/-- The number of a sequencer in a trap report (R216). -/
def Sequencer.num : Sequencer → Nat
  | .main => 0
  | .matrix => 1
  | .copy => 2
  | .flue => 3

/-- The report of a trap of the moving instruction (R213, R216). -/
def State.report (s : State) (code : TrapCode) (addr : Word) (kind : AccessKind) (seg : BitVec 16) : TrapReport :=
  { code := code, pc := s.curPc, addr := addr, epc := s.curPc, source := s.seqr.num, kind := kind, seg := seg,
    staleGen := false }

/-- A trap of the moving instruction that reports an address. -/
def trapAt {α : Type} (s : State) (code : TrapCode) (addr : Word) : Except Stop α :=
  .error (.trap (s.report code addr .none 0) s)

/-- A trap of the moving instruction that reports the instruction's own address. -/
def trapHere {α : Type} (s : State) (code : TrapCode) : Except Stop α := trapAt s code s.curPc

/-- An instruction that cannot issue or complete yet: nothing changes. -/
def stall {α : Type} (s : State) : Except Stop α := .error (.wait s)

/-- The queue of an engine that holds the thread's entries (R360). -/
def Ctx.queue (c : Ctx) : Sequencer → List Entry
  | .main => []
  | .matrix => c.mq
  | .copy => c.cq
  | .flue => c.fq

/-- Sets a queue of a thread. -/
def Ctx.setQueue (c : Ctx) (e : Sequencer) (q : List Entry) : Ctx :=
  match e with
  | .main => c
  | .matrix => { c with mq := q }
  | .copy => { c with cq := q }
  | .flue => { c with fq := q }

/-- An entry ceases to be counted (R190, R308). -/
def Ctx.uncount (c : Ctx) (id : Nat) : Ctx := { c with counted := c.counted.filter fun x => x.id != id }

/-- Marks a slot faulted by an engine (R191). -/
def Ctx.mark (c : Ctx) (slot : Nat) (e : Sequencer) : Ctx :=
  if c.marks.contains ⟨slot, e⟩ then c else { c with marks := c.marks ++ [⟨slot, e⟩] }

/-- An entry is discarded: it ceases to be counted and its slot is marked (R191). -/
def Ctx.discard (c : Ctx) (e : Sequencer) (x : Entry) : Ctx := (c.uncount x.id).mark x.slot e

/-- An entry that stands in its queue only until it is seen to have completed: a form that the engine has performed, or a
marker (R190). -/
def Entry.performed (x : Entry) : Bool :=
  match x.work with
  | .marker => true
  | _ => false

/-- The entries of a queue from the first that is not yet performed on: those that a fault discards (R191). -/
def unperformed (q : List Entry) : List Entry := q.dropWhile Entry.performed

/-- An engine fault (R191, R309, R332): the fault is recorded, the engine stops, the entries still in its
queue are discarded with their slots marked, and its running sequencer halts with its pc at its own
earliest instruction that faulted or was discarded: the entry that faulted (`head`), an entry of the queue, or the
instruction that it could not execute (`last`). -/
def Ctx.engineFault (c : Ctx) (e : Sequencer) (t : TrapReport) (head last : Option Word) : Ctx :=
  let q := unperformed (c.queue e)
  let first := (head.or ((q.find? fun (x : Entry) => x.own).map Entry.pc)).or last
  let c := (q.foldl (fun c x => c.discard e x) c).setQueue e ((c.queue e).takeWhile Entry.performed)
  c.modEngine e fun g => { g with
    stopped := true, fault := some t, running := false, wait := .none
    pc := if g.running then first.getD g.pc else g.pc }

/-- A follower detaches (R29): TSW.DET is set and the chain no longer feeds it. -/
def Core.detach (c : Core) : Core :=
  if tswFol c.ctx.regs.tsw && !tswDet c.ctx.regs.tsw then
    { c with ctx := { c.ctx with regs := { c.ctx.regs with tsw := tswSet c.ctx.regs.tsw 4 true } }, chain := [] }
  else c

/-- A wait ends: the context is resident again (R27, R447). -/
def Ctx.awake (c : Ctx) : Ctx :=
  { c with
    wait := .none, waitGroup := none, forwarded := false
    status := if c.status = .waiting then .resident else c.status }

/-- An answer that an instruction has not taken is given up with the instruction, which restarts whole (R315, R322). -/
def Ctx.unanswered (c : Ctx) : Ctx := if (c.asked.bind Prod.snd).isSome then { c with asked := none } else c

/-- Taking a trap (R213), the one operation for every code of R210. On the main sequencer a follower
detaches, the instruction changes nothing more, the report is recorded, and the thread issues no more while
it drains (R220); CONTEXT_SAVE, TRAP_REFLECTION and FAULT_SERVICE then follow as steps of their own. On an
engine sequencer the fault is recorded and the engine stops (R32, R191). -/
def takeTrap (t : TrapReport) (s : State) : State :=
  match s.seqr with
  | .main =>
    let c := (s.core.detach).count 14 1
    { s with core := { c with ctx := { c.ctx.awake.unanswered with trap := some t, frame := none, board := [] } } }
  | e => s.modCtx fun c => c.engineFault e t none (some t.pc)

/-! ### Issue -/

/-- Retires an instruction of `words` words with stall count `stall`: the static distances grow (R57), the
cycle counter moves by 1 + stall (log entry 4), the counters of R445 count. -/
def State.retire (s : State) (stall : Nat) : State :=
  let s := match s.seqr with
    | .main => { s with core := ((s.core.count 0 (1 + stall)).count 1 1).count 2 stall }
    | _ => s
  let s := match s.seqr with
    | .main => s.modCtx Ctx.awake
    | e => s.modCtx fun c => c.modEngine e fun g => { g with wait := .none }
  let s := s.modCtx fun c => { c with
    board := match s.seqr with
      | .main => boardTick c.board stall
      | _ => c.board }
  let s := s.modCube s.myCube fun q => { q with clock := q.clock + BitVec.ofNat 64 (1 + stall) }
  { s with freeCtr := s.freeCtr + 1 }

/-- The outcome of a meaning: its next state, the trap taken, or the state of its wait. -/
def finish (r : Except Stop State) : Host.Outcome State Fault Refusal :=
  match r with
  | .ok t => .next t
  | .error (.trap t s) => .next (takeTrap t s)
  | .error (.wait s) => .next s

/-- Executes an instruction that goes on to the next one: its own effect, then the advance of the pc and
the retirement. -/
def issue (words stall : Nat) (body : State → Except Stop State) (s : State) : Host.Outcome State Fault Refusal :=
  finish (match body s with
    | .ok t => .ok ((t.advance words).retire stall)
    | .error e => .error e)

/-- Executes an instruction whose effect names the next pc. -/
def issueTo (stall : Nat) (body : State → Except Stop (State × Word)) (s : State) :
    Host.Outcome State Fault Refusal :=
  finish (match body s with
    | .ok (t, pc) => .ok ((t.setPc pc).retire stall)
    | .error e => .error e)

/-- The words of an A instruction (R47). -/
def wordsA (f : FmtA) : Nat := if f.p.isSome then 2 else 1

/-- The words of an instruction of format L, M or B with its prefixes (R47). -/
def wordsP (p : List (BitVec 24)) : Nat := 1 + p.length

/-- Executes an A instruction. -/
def issueA (f : FmtA) (body : State → Except Stop State) (s : State) : Host.Outcome State Fault Refusal :=
  issue (wordsA f) f.s.toNat body s

/-- Executes an L instruction. -/
def issueL (f : FmtL) (body : State → Except Stop State) (s : State) : Host.Outcome State Fault Refusal :=
  issue (wordsP f.p) f.s.toNat body s

/-- Executes an M instruction. -/
def issueM (f : FmtM) (body : State → Except Stop State) (s : State) : Host.Outcome State Fault Refusal :=
  issue (wordsP f.p) 0 body s

/-- Executes a T instruction. -/
def issueT (f : FmtT) (body : State → Except Stop State) (s : State) : Host.Outcome State Fault Refusal :=
  issue (if f.p.isSome then 2 else 1) 0 body s

/-- Traps PRIVILEGED while TSW.PRIV is clear (R85). -/
def needPriv (s : State) : Except Stop Unit :=
  if s.priv then .ok () else trapHere s .privileged

/-! ### Flights -/

/-- The cube and the core or home number of an agent. -/
def Agent.place : Agent → Nat × Nat
  | .main c => (c / 256, c)
  | .engine c _ => (c / 256, c)
  | .dispatcher q => (q, 163840 + q)
  | .stove q _ => (q, 163840 + q)
  | .host q _ => (q, 163840 + q)

/-- The agent as the network numbers it (R378): the host port of a cube is one agent, whatever slot it sends for. -/
def Agent.numbered : Agent → Agent
  | .host q _ => .host q 0
  | a => a

/-- Whether two agents are one to the network. -/
def Agent.same (a b : Agent) : Bool := a.numbered == b.numbered

/-- The places that a packet is for. -/
def Flight.dests (f : Flight) : List Nat := if f.members.isEmpty then [f.home] else f.members

/-- Whether a count is that of a source, a destination and a class. -/
def SeqCount.of (x : SeqCount) (src : Agent) (home : Nat) (cls : Class) : Bool :=
  x.src.same src && x.home == home && x.cls == cls

/-- The next sequence number of a source, a destination and a class (R382). -/
def State.seqOf (s : State) (src : Agent) (home : Nat) (cls : Class) : BitVec 24 :=
  match s.seqs.find? fun x => x.of src home cls with
  | some x => x.next
  | none => 0

/-- How many requests of a source to a destination in a class have no reply yet (R382). -/
def State.outstanding (s : State) (src : Agent) (home : Nat) (cls : Class) : Nat :=
  let mine := fun (f : Flight) => f.src.same src && f.dests.contains home && f.cls == cls && f.sends != 0
  let open_ := (s.flights.filter mine).map Flight.ord
  let answered := (s.kept.filter fun k => !k.taken && mine k.request).map fun k => k.request.ord
  ((open_ ++ answered).foldl insertNat []).length

/-- Whether a source may send `n` more requests of a destination and class (R382). -/
def State.mayRequest (s : State) (src : Agent) (home : Nat) (cls : Class) (n : Nat) : Bool :=
  s.outstanding src home cls + n ≤ 256

/-- The next sequence number of a source, a destination and a class is taken. -/
def State.takeSeq (s : State) (src : Agent) (home : Nat) (cls : Class) : State :=
  { s with seqs := (s.seqs.filter fun x => !x.of src home cls) ++ [⟨src.numbered, home, cls, s.seqOf src home cls + 1⟩] }

/-- GROUP of a packet for a group (R378): a network group's number in the domain; none for a cube-scope group. -/
def groupField (n : Nat) : Option Nat := if 4096 ≤ n then some (n - 4096) else none

/-- GROUP and MCAST of a packet to one place (R378): the group whose router entries govern how a contribution is folded. -/
def Body.group : Body → Option Nat
  | .contribution n _ | .partialSum n _ _ | .barrier n _ => groupField n
  | _ => none

/-- Puts a request in flight from a cube; its number orders it (R266), and it takes the next sequence number of its
source, destination and class; while 256 of them are outstanding its source holds it (R382). -/
def State.send (s : State) (src : Agent) (tid : Nat) (cls : Class) (from_ cube home : Nat)
    (ilv : Option (Nat × BitVec 16)) (body : Body) : State :=
  let f : Flight :=
    { num := s.numCtr, ord := s.numCtr, seq := s.seqOf src home cls, seqs := [], route := s.numCtr, src := src, tid := tid
      cls := cls, at_ := from_, cube := cube, home := home, ilv := ilv
      sends := if s.mayRequest src home cls 1 then 1 else 0
      waiting := false, retry := (s.cube src.place.1).stove.retry, members := [], group := body.group, ver := 1, rsv := 0
      body := body }
  { s.takeSeq src home cls with flights := s.flights ++ [f], numCtr := s.numCtr + 1 }

/-- Requests that a source holds go out in their order as soon as fewer than 256 of their pair and class are outstanding
(R382). -/
def State.sendHeld (s : State) : State :=
  match s.flights.find? fun f => f.sends == 0 && f.cls != .reply && f.dests.all fun d => s.mayRequest f.src d f.cls 1 with
  | none => s
  | some f => { s with flights := s.flights.map fun x => if x.num = f.num then { x with sends := 1, route := s.numCtr } else x }

/-- The copy of a multicast for one of its members, at the member's cube (R384). -/
def Flight.forMember (f : Flight) (m : Nat) : Flight :=
  { f with
    at_ := m / 256, cube := m / 256, home := m, members := [], seq := (assoc f.seqs m).getD f.seq, seqs := []
    body := match f.body with
      | .multicast o bs id p => .multicast (spadAddr m o) bs id p
      | .message _ x => .message m x
      | b => b }

/-- The packets that a multicast becomes as it stands at a cube: one for each member there, and one that goes on to the
others (R384). -/
def Flight.spread (f : Flight) (c : Nat) : List Flight :=
  let on := f.members.filter fun m => m / 256 != c
  (match on with
    | [] => []
    | m :: _ => [{ f with at_ := c, cube := m / 256, home := m, members := on }]) ++
  (f.members.filter fun m => m / 256 == c).map f.forMember

/-- Puts packets in flight, each under a number of its own. -/
def State.putFlights (s : State) (l : List Flight) : State :=
  { s with
    flights := s.flights ++ l.zipIdx.map fun x => { x.1 with num := s.numCtr + x.2 }
    numCtr := s.numCtr + l.length }

/-- Sends one multicast to the cores that the entries of group `n` in the routers name, or to some of them (R384): it takes a
sequence number of every pair (R382). -/
def State.multicast (s : State) (src : Agent) (tid : Nat) (cls : Class) (from_ n : Nat) (members : List Nat) (body : Body) :
    State :=
  match members with
  | [] => s
  | m :: _ =>
    let f : Flight :=
      { num := s.numCtr, ord := s.numCtr, seq := s.seqOf src m cls, seqs := members.map fun d => (d, s.seqOf src d cls)
        route := s.numCtr, src := src, tid := tid, cls := cls, at_ := from_, cube := m / 256, home := m, ilv := none
        sends := if members.all fun d => s.mayRequest src d cls 1 then 1 else 0
        waiting := false, retry := (s.cube src.place.1).stove.retry, members := members, group := groupField n, ver := 1
        rsv := 0, body := body }
    (members.foldl (fun (t : State) d => t.takeSeq src d cls) s).putFlights (f.spread from_)

/-- A flight by its number. -/
def State.flight (s : State) (num : Nat) : Option Flight := s.flights.find? fun f => f.num == num

/-- Takes a flight away. -/
def State.land (s : State) (num : Nat) : State := { s with flights := s.flights.filter fun f => f.num != num }

/-- Changes a flight. -/
def State.modFlight (s : State) (num : Nat) (f : Flight → Flight) : State :=
  { s with flights := s.flights.map fun x => if x.num = num then f x else x }

/-- Whether an entry of the matrix queue is a TST. -/
def Entry.isTst (x : Entry) : Bool :=
  match x.work with
  | .tile 0x61 1 _ _ => true
  | _ => false

/-- The thread's unacknowledged-store count (R292): a TST counts from its issue on (R425), as 1 while it stands in the matrix
queue, and then for each atom that it has written (log entry 95). -/
def Ctx.stores (c : Ctx) : Nat := c.unacked + (c.mq.filter Entry.isTst).length

/-- Adds to the thread's unacknowledged-store count (R292); past 1023 the instruction stalls. -/
def addUnacked (s : State) (n : Nat) : Except Stop State :=
  if 1023 < s.core.ctx.stores + n then stall s
  else .ok (s.modCtx fun c => { c with unacked := c.unacked + n })

/-- Changes a thread wherever it is: on a core, on a run list, in flight or with the Stove. -/
def State.modThread (s : State) (tid : Nat) (f : Ctx → Ctx) : State :=
  let g := fun (c : Ctx) => if c.tid = tid && c.present then f c else c
  let h := fun (k : Core) => { k with ctx := g k.ctx, runList := k.runList.map g }
  { s with
    core := h s.core
    cores := s.cores.map fun p => (p.1, h p.2)
    flights := s.flights.map fun x => match x.body with
      | .context k c => { x with body := .context k (g c) }
      | _ => x
    cubes := s.cubes.map fun p => (p.1, { p.2 with stove := { p.2.stove with
      saved := p.2.stove.saved.map fun v => { v with ctx := g v.ctx } } }) }

end Sys2Proof.Machine
end

