-- ==== Sys2Proof/Machine/Operands.lean ====
section
/-! DEFINITION. Every operand form: source and destination fields of the scalar, vector and mask classes
(R51-R53, R161), immediates and offsets (R47, R288), and the writes of results with their queue pushes
(R12, R52) and static distances (R57). -/

namespace Sys2Proof.Machine

open Sys2Proof

/-! ### Reading at a short distance (R57) -/

/-- A read of a place whose producer has not reached its latency: with TSW.CHK set the read traps
STALL_SHORT; with it clear the value is some value of the operand's width. Only the main sequencer's reads
are measured. `value` is what the place holds, `open_` the free value (log entry 5). -/
def readPlace {α : Type} (s : State) (x : Loc) (value open_ : α) : Except Stop α :=
  match s.seqr with
  | .main =>
    if boardAt s.core.ctx.board x = 0 then .ok value
    else if tswChk s.regs.tsw then trapHere s .stallShort
    else .ok open_
  | _ => .ok value

/-- A read of a place that an outstanding load reply will write is interlocked (R35, R56). -/
def interlock (s : State) (dst : Option Nat) (age : Option Nat) : Except Stop Unit :=
  if s.core.ctx.pend.any fun p => p.dest.vec.isNone && ((dst.isSome && p.dst == dst) || age == some p.age) then stall s
  else .ok ()

/-- The same for a vector register or queue entry, which several replies fill (R263). -/
def interlockV (s : State) (reg : Option Nat) (age : Option Nat) : Except Stop Unit :=
  if s.core.ctx.pend.any fun p => match p.dest.vec with
    | some v => (reg.isSome && v.reg == reg) || age == some p.age
    | none => false then stall s
  else .ok ()

/-- The fresh index of a free value: the step's counter and the operand's position. -/
def freeIdx (s : State) (pos : Nat) : Nat := 4 * s.freeCtr + pos

/-! ### Sources -/

/-- A scalar source field (R51). `pos` tells the operands of one instruction apart. -/
def readScalar (s : State) (pos : Nat) (f : BitVec 6) : Except Stop Word :=
  let k := f.toNat
  if k < 32 then do
    interlock s (some k) none
    readPlace s (.g k) (s.regs.g[k]?.getD 0) (Config.shortScalar (freeIdx s pos))
  else if k < 48 then do
    interlock s none (some (k - 31))
    readPlace s (.gq (k - 31)) (s.regs.gq.getD (k - 32) 0) (Config.shortScalar (freeIdx s pos))
  else match k with
    | 48 => .ok 0
    | 49 => .ok (BitVec.allOnes 64)
    | 50 => .ok 0
    | 51 => .ok (BitVec.ofNat 64 s.myCore)
    | 52 => .ok (BitVec.ofNat 64 (s.myCore / 8))
    | 53 => .ok (BitVec.ofNat 64 s.myCube)
    | 54 => .ok (s.regs.rank.setWidth 64)
    | 55 => .ok (((s.cube s.myCube).clock.extractLsb' 0 32).setWidth 64)
    | _ => trapHere s .illegalOperand

/-- A vector source field (R51). -/
def readVector (s : State) (pos : Nat) (f : BitVec 6) : Except Stop Vec :=
  let k := f.toNat
  let all := fun (w : Word32) => ofLanes fun _ => w
  if k < 32 then do
    interlockV s (some k) none
    readPlace s (.v k) (s.regs.v[k]?.getD 0) (Config.shortVector (freeIdx s pos))
  else if k < 48 then do
    interlockV s none (some (k - 31))
    readPlace s (.vq (k - 31)) (s.regs.vq.getD (k - 32) 0) (Config.shortVector (freeIdx s pos))
  else match k with
    | 48 => .ok 0
    | 49 => .ok (BitVec.allOnes 2048)
    | 50 => .ok (ofLanes fun j => BitVec.ofNat 32 j)
    | 51 => .ok (all (BitVec.ofNat 32 s.myCore))
    | 52 => .ok (all (BitVec.ofNat 32 (s.myCore / 8)))
    | 53 => .ok (all (BitVec.ofNat 32 s.myCube))
    | 54 => .ok (all (s.regs.rank.setWidth 32))
    | 55 => .ok (all ((s.cube s.myCube).clock.extractLsb' 0 32))
    | _ => trapHere s .illegalOperand

/-- A mask source field: m0-m7, 48 no lane, 49 every lane (R161). -/
def readMask (s : State) (pos : Nat) (f : BitVec 6) : Except Stop Word :=
  let k := f.toNat
  if k < 8 then readPlace s (.m k) (s.regs.m[k]?.getD 0) (Config.shortMask (freeIdx s pos))
  else match k with
    | 48 => .ok 0
    | 49 => .ok (BitVec.allOnes 64)
    | _ => trapHere s .illegalOperand

/-- The scalar age a1 that lane masks, VSEL and AMOCAS read (R167, R290). -/
def readA1 (s : State) (pos : Nat) : Except Stop Word := readScalar s pos 32

/-- An unused field must hold 48 (R52). -/
def needUnused (s : State) (f : BitVec 6) : Except Stop Unit :=
  if f.toNat = 48 then .ok () else trapHere s .illegalOperand

/-- A destination field must hold 0-31 or 48 (R52). -/
def needDst (s : State) (f : BitVec 6) : Except Stop Unit :=
  if f.toNat < 32 || f.toNat = 48 then .ok () else trapHere s .illegalOperand

/-- A destination that is also read must hold 0-31 (R169, R175). -/
def needDstReg (s : State) (f : BitVec 6) : Except Stop Unit :=
  if f.toNat < 32 then .ok () else trapHere s .illegalOperand

/-- A mask destination must hold 0-7 or 48 (R161). -/
def needMaskDst (s : State) (f : BitVec 6) : Except Stop Unit :=
  if f.toNat < 8 || f.toNat = 48 then .ok () else trapHere s .illegalOperand

/-- The value of g_k, as an engine form or a descriptor reads it at issue (R92). -/
def readG (s : State) (pos k : Nat) : Except Stop Word := readScalar s pos (BitVec.ofNat 6 k)

/-- The b operand of an A instruction with an optional immediate prefix: the prefix zero- or sign-extended
as the instruction states (R47, R52). -/
def readB (s : State) (pos : Nat) (f : FmtA) (signed : Bool) : Except Stop Word :=
  match f.p with
  | none => readScalar s pos f.b
  | some q => .ok (if signed then q.signExtend 64 else q.setWidth 64)

/-! ### Immediates (R47) -/

/-- The immediate of an L instruction, sign-extended. -/
def immS (f : FmtL) : Word :=
  match f.p with
  | [] => f.imm.signExtend 64
  | [q] => (q ++ f.imm : BitVec 39).signExtend 64
  | q :: r :: _ => (q ++ r ++ f.imm : BitVec 63).signExtend 64

/-- The immediate of an L instruction, zero-extended. -/
def immZ (f : FmtL) : Word := BitVec.ofNat 64 f.immNat

/-- The word offset of a B instruction, sign-extended (R45, R47). -/
def offB (f : FmtB) : Word :=
  match f.p with
  | [] => f.off.signExtend 64
  | [q] => (q ++ f.off : BitVec 39).signExtend 64
  | q :: r :: _ => (q ++ r ++ f.off : BitVec 63).signExtend 64

/-- The offset field X of an M instruction, sign-extended (R288). -/
def offM (f : FmtM) : Word :=
  match f.p with
  | [] => f.off.signExtend 64
  | [q] => (q ++ f.off : BitVec 31).signExtend 64
  | q :: r :: _ => (q ++ r ++ f.off : BitVec 55).signExtend 64

/-- The offset field X of an ACQ instruction: OFS is off7[6:3] (R294). -/
def offAcq (f : FmtM) : Word :=
  let o := f.off.extractLsb' 3 4
  match f.p with
  | [] => o.signExtend 64
  | [q] => (q ++ o : BitVec 28).signExtend 64
  | q :: r :: _ => (q ++ r ++ o : BitVec 52).signExtend 64

/-- The offset field X of an AMO instruction: OFS is off7[6:5] (R300). -/
def offAmo (f : FmtM) : Word :=
  let o := f.off.extractLsb' 5 2
  match f.p with
  | [] => o.signExtend 64
  | [q] => (q ++ o : BitVec 26).signExtend 64
  | q :: r :: _ => (q ++ r ++ o : BitVec 50).signExtend 64

/-! ### Results (R12, R52, R105) -/

/-- Pushes onto the scalar queue (R12). -/
def pushScalar (lat : Nat) (x : Word) (s : State) : State :=
  s.modCtx fun c => { c with
    regs := dirtyGrp { c.regs with gq := (x :: c.regs.gq).take 16 } 0
    board := boardPushG c.board lat
    pend := c.pend.map fun p => if p.dest.vec.isNone then { p with age := p.age + 1 } else p }

/-- Pushes onto the vector queue (R12). -/
def pushVector (lat : Nat) (x : Vec) (s : State) : State :=
  s.modCtx fun c => { c with
    regs := dirtyGrp { c.regs with vq := (x :: c.regs.vq).take 16 } 1
    board := boardPushV c.board lat
    pend := c.pend.map fun p => if p.dest.vec.isSome then { p with age := p.age + 1 } else p }

/-- Writes g_k alone; a later reply to the register is dropped (R54). -/
def setG (lat : Nat) (k : Nat) (x : Word) (s : State) : State :=
  s.modCtx fun c => { c with
    regs := dirtyGrp { c.regs with g := c.regs.g.setIfInBounds k x } 0
    board := boardPut c.board (.g k) lat
    pend := c.pend.map fun p => if p.dst = some k then { p with dst := none } else p }

/-- A reply that brings lanes of v_k goes to the queue entry alone (R54). -/
def LoadDest.notV (d : LoadDest) (k : Nat) : LoadDest :=
  { d with vec := d.vec.map fun v => if v.reg = some k then { v with reg := none } else v }

/-- Writes v_k alone; later replies to the register are dropped (R54). -/
def setV (lat : Nat) (k : Nat) (x : Vec) (s : State) : State :=
  s.modCtx fun c => { c with
    regs := dirtyGrp { c.regs with v := c.regs.v.setIfInBounds k x } 1
    board := boardPut c.board (.v k) lat
    pend := c.pend.map fun p => { p with dest := p.dest.notV k } }

/-- Writes a scalar result: the register when d names one, and the queue (R52). -/
def writeScalar (lat : Nat) (d : BitVec 6) (x : Word) (s : State) : State :=
  let s := pushScalar lat x s
  if d.toNat < 32 then setG lat d.toNat x s else s

/-- Writes a vector result: the register when d names one, and the queue (R52). -/
def writeVector (lat : Nat) (d : BitVec 6) (x : Vec) (s : State) : State :=
  let s := pushVector lat x s
  if d.toNat < 32 then setV lat d.toNat x s else s

/-- Writes a mask result: the mask register when d names one, and the scalar queue (R161, R162). -/
def writeMask (lat : Nat) (d : BitVec 6) (x : Word) (s : State) : State :=
  let s := pushScalar lat x s
  if d.toNat < 8 then
    s.modCtx fun c => { c with
      regs := dirtyGrp { c.regs with m := c.regs.m.setIfInBounds d.toNat x } 5
      board := boardPut c.board (.m d.toNat) lat }
  else s

end Sys2Proof.Machine
end

