-- ==== Sys2Proof/Machine/Translate.lean ====
section
/-! DEFINITION. Addresses: segments and page tables (R253-R255, R401, R402), the interleave map (R239), the
cube-local map (R236, R237), flue placement and homes (R240-R245), the local segment and the scratchpad
windows (R246, R249), and the check of a whole footprint (R291). -/

namespace Sys2Proof.Machine

open Sys2Proof

/-! ### Physical places -/

/-- The memories and registers an address may reach (R236). -/
inductive Region where
  | dram | tier2
  /-- a scratchpad through a window -/
  | spad (core window : Nat)
  | mmio
  deriving DecidableEq, Repr

/-- A byte's place: its region, its cube, its storage address (for MMIO the cube-local one), and the
interleaved address it came from. -/
structure Place where
  region : Region
  cube : Nat
  addr : Nat
  ilv : Option Nat
  /-- the page is a decide-once page (R402) -/
  once : Bool
  deriving DecidableEq, Repr

/-- The flue that holds stripe index `i` of region `r`, and whether the index is retired; live flues in
ascending order stand for LV (R240, R242, R400). -/
def flueOf (q : Cube) (i r : Nat) : Nat × Option Nat :=
  match q.fmap[i]? with
  | some (.inl f) => (f, none)
  | some (.inr t) =>
    let gone := q.fmap.filterMap fun e => match e with
      | .inl f => some f
      | .inr _ => none
    (((List.range 64).filter fun f => gone.contains f)[r]?.getD 0, some t)
  | none => (0, none)

/-- The number of retired flues (R242). -/
def retired (q : Cube) : Nat := (q.fmap.filter fun e => match e with
  | .inl _ => false
  | .inr _ => true).length

/-- The flue and flue-local address of a local DRAM address (R240, R242). -/
def placeDram (q : Cube) (a : Nat) : Nat × Nat :=
  match flueOf q (a / 2 ^ 12 % 64) (a / 2 ^ 32 % 64) with
  | (f, none) => (f, a / 2 ^ 18 % 2 ^ 20 * 2 ^ 12 + a % 2 ^ 12)
  | (f, some t) => (f, (63 - t) * 2 ^ 26 + a / 2 ^ 18 % 2 ^ 14 * 2 ^ 12 + a % 2 ^ 12)

/-- The home core of a local DRAM address on its cube (R241). -/
def homeDram (q : Cube) (a : Nat) : Nat :=
  let (f, l) := placeDram q a
  8 * (f / 2) + 4 * (f % 2) + l / 2 ^ 12 % 4

/-- The cube and local address of a global physical address, and the interleaved address if it was one, as
the moving core's cube resolves it (R238, R239). A lost entry answers with its cube marked lost. -/
def resolveGlobal (s : State) (g : Nat) : Except TrapCode (Nat × Nat × Option Nat × Bool) :=
  let c := g / 2 ^ 47 % 1024
  let l := g % 2 ^ 47
  if c < 640 then .ok (c, l, none, false)
  else if c = 1023 then
    let m := (s.cube s.myCube).imap
    let q := l / 2 ^ m.s
    let n := m.entries.length
    match m.entries[q % n]? with
    | some e => .ok (e.cube, e.base + q / n * 2 ^ m.s + l % 2 ^ m.s, some l, e.lost)
    | none => .error .addressRange
  else .error .addressRange

/-- The parts of an interleaved address under a map: the entry and the local address (R239). -/
def mapResolve (m : InterleaveMap) (i : Nat) : Option (MapEntry × Nat) :=
  let q := i / 2 ^ m.s
  let n := m.entries.length
  (m.entries[q % n]?).map fun e => (e, e.base + q / n * 2 ^ m.s + i % 2 ^ m.s)

/-- The range map that holds a DRAM address of a cube, and the core whose it is (R284, R406). -/
def rangeMapOf (s : State) (g : Nat) : Option (Nat × RangeMap) :=
  let c := g / 2 ^ 47
  let covers := fun (m : RangeMap) => m.base ≤ g && g < m.base + 4096 * m.units
  let here := fun (id : Nat) (k : Core) => if id / 256 = c then (k.maps.find? covers).map fun m => (id, m) else none
  match here s.me s.core with
  | some r => some r
  | none => s.cores.findSome? fun p => here p.1 p.2

/-- The installed second-tier capacity (R236, R245), in whole units of 4 KiB. -/
def tier2Size (q : Cube) : Nat := (q.expanders.map Expander.bytes).sum / 4096 * 4096

/-- Whether the expander that an offset of the second tier is placed on responds: port [12] of the offset where both
ports are populated, else the one that is (R245). -/
def tier2Answers (q : Cube) (x : Nat) : Bool :=
  match q.expanders with
  | [] => true
  | [e] => e.responds
  | l => (l.filter fun e => e.port == x / 4096 % 2).all Expander.responds

/-- Whether an access to a place is answered (R245). -/
def answers (s : State) (p : Place) : Bool :=
  match p.region with
  | .tier2 => tier2Answers (s.cube p.cube) (p.addr % 2 ^ 47 - 2 ^ 40)
  | _ => true

/-- The region of a cube-local address, with holes, absent regions and uninstalled memory refused
(R236, R237, R242), and its storage address. A DRAM address that a range map holds stands in the mapping
core's scratchpad (R284). -/
def classify (s : State) (c l : Nat) (ilv : Option Nat) (once : Bool) : Except TrapCode Place :=
  let q := s.cube c
  let g := c * 2 ^ 47 + l
  if l < 2 ^ 38 then
    if 64 - retired q ≤ l / 2 ^ 32 then .error .addressRange
    else match rangeMapOf s g with
      | some (core, m) => .ok ⟨.dram, c, spadAddr core (4096 * m.spo + (g - m.base)), ilv, once⟩
      | none => .ok ⟨.dram, c, g, ilv, once⟩
  else if 2 ^ 40 ≤ l && l < 2 ^ 40 + 2 ^ 44 then
    if l - 2 ^ 40 < tier2Size q then .ok ⟨.tier2, c, g, ilv, once⟩ else .error .addressRange
  else if spadBase ≤ l && l < spadBase + 2 ^ 30 then
    let x := l - spadBase
    let core := c * 256 + x / 2 ^ 22
    .ok ⟨.spad core (x / 2 ^ 19 % 8), c, spadAddr core (x % 2 ^ 19), ilv, once⟩
  else if 0x7F0000000000 ≤ l && l < 2 ^ 47 then .ok ⟨.mmio, c, l, ilv, once⟩
  else .error .addressRange

/-- Whether the moving core's cube resolves no interleaved request now: a removal's map is to be installed there (R389
step 4). -/
def mapHeld (s : State) : Bool :=
  match s.removal with
  | some r => r.owned && !r.installed.contains s.myCube
  | none => false

/-- Where an access lands that its cube resolved under map generation `g` (R239, R390): the owning cube resolves an older
resolution again under its own map, and one of a newer generation waits (none). -/
def chase (s : State) : Nat → Place → BitVec 16 → Except TrapCode (Option Place)
  | 0, _, _ => .ok none
  | n + 1, p, g =>
    match p.ilv with
    | none => .ok (some p)
    | some i =>
      let m := (s.cube p.cube).imap
      if mapHeld s then .ok none
      else if m.mgen = g then .ok (some p)
      else if m.mgen.toNat < g.toNat then .ok none
      else match mapResolve m i with
        | none => .error .addressRange
        | some (e, l) =>
          if e.lost then .error .peerLost
          else match classify s e.cube l (some i) p.once with
            | .error c => .error c
            | .ok q => chase s n q m.mgen

/-- The core that performs accesses to a place: its number in the domain (R241, R245, R246, R284). -/
def homeOf (s : State) (p : Place) : Nat :=
  match spadOf p.addr with
  | some (core, _) => core
  | none => match p.region with
    | .dram => p.cube * 256 + homeDram (s.cube p.cube) (p.addr % 2 ^ 38)
    | .tier2 => p.cube * 256 + p.addr % 2 ^ 47 / 2 ^ 12 % 256
    | _ => p.cube * 256

/-- A cube that no request reaches (R238, R389, R391). -/
def peerLost (s : State) (c : Nat) : Bool :=
  c != s.myCube && ((s.cube c).removed || (s.cube c).unreachable)

/-! ### Segments and page tables -/

/-- The segment descriptor of an ASID and segment value (R401). -/
def segDesc (s : State) (asid seg : BitVec 16) : Option SegDesc :=
  (s.cube s.myCube).stove.segs.find? fun d => d.asid == asid && d.seg == seg

/-- The current generation of an ASID as Stove core 2 of a cube has it (R255). -/
def generation (q : Cube) (asid : BitVec 16) : BitVec 8 :=
  match q.stove.gens.find? fun p => p.1 == asid with
  | some p => p.2
  | none => 0

/-- The generation of an ASID in the table of a station, which may still have to write a new one (R256). -/
def generationAt (q : Cube) (station : Nat) (asid : BitVec 16) : BitVec 8 :=
  match q.stove.changing with
  | some g => if g.asid = asid && g.stations.contains station then g.old else generation q asid
  | none => generation q asid

/-- Why a walk ends without a page (R254, R255, R402); `held` where a table stands at an interleaved address that its cube,
or the receiver, resolves only under its next map (R389, R390). -/
inductive WalkFault where
  | code (c : TrapCode)
  | stale
  | held
  deriving DecidableEq, Repr

/-- The fields of a page-table entry (R402). -/
def pteAddr (e : BitVec 64) : Nat := (e.extractLsb' 12 45).toNat * 2 ^ 12

/-- Whether an entry with V = 1 is well formed at a level: 0 for 16 GiB leaves, 1 for 32 MiB, 2 for 64 KiB
(R402). -/
def pteOk (e : BitVec 64) (level : Nat) : Bool :=
  e.extractLsb' 7 5 == 0 && e.extractLsb' 57 7 == 0 &&
  (if e.getLsbD 1 then
    (match level with
      | 0 => e.extractLsb' 12 22 == 0
      | 1 => e.extractLsb' 12 13 == 0
      | _ => e.extractLsb' 12 4 == 0) &&
    (!e.getLsbD 5 || 640 ≤ pteAddr e / 2 ^ 47 || pteAddr e % 2 ^ 47 < 2 ^ 38)
  else level < 2 && e.extractLsb' 2 5 == 0)

/-- Reads a page-table entry at a global address, at its home (R402). Only Stove core 2 writes page tables, whole entries
at once (R403), so no engine owns an atom of one (R281). -/
def readPte (s : State) (g : Nat) : Except WalkFault (BitVec 64) :=
  match resolveGlobal s g with
  | .error c => .error (.code c)
  | .ok (c, l, i, lost) =>
    match classify s c l i false with
    | .error e => .error (.code e)
    | .ok p =>
      if lost || peerLost s c || !answers s p then .error (.code .peerLost)
      else match chase s 4 p (s.cube s.myCube).imap.mgen with
        | .error e => .error (.code e)
        | .ok none => .error .held
        | .ok (some q) =>
          let a := q.addr
          if (s.poisoned a 8).isSome then .error (.code .memUncorrectable)
          else .ok (BitVec.ofNat 64 (natOfBytes (s.load a 8)))

/-- The page size at a level (R402). -/
def pageSize : Nat → Nat
  | 0 => 2 ^ 34
  | 1 => 2 ^ 25
  | _ => 2 ^ 16

/-- The walk of R402 from a level on: the leaf and its page size. -/
def walkFrom (s : State) (off : Nat) : Nat → Nat → Nat → Except WalkFault (BitVec 64 × Nat)
  | 0, _, _ => .error (.code .pageAbsent)
  | n + 1, level, table =>
    let idx := match level with
      | 0 => off / 2 ^ 34 % 2 ^ 14
      | 1 => off / 2 ^ 25 % 2 ^ 9
      | _ => off / 2 ^ 16 % 2 ^ 9
    match readPte s (table + 8 * idx) with
    | .error e => .error e
    | .ok e =>
      if !e.getLsbD 0 || !pteOk e level then .error (.code .pageAbsent)
      else if e.getLsbD 1 then .ok (e, pageSize level)
      else walkFrom s off n (level + 1) (pteAddr e)

/-- The translation station that serves an offset of a segment of an ASID (R254). -/
def stationOf (asid seg : BitVec 16) (off : Nat) : Nat :=
  (off / 2 ^ 16 % 16) ^^^ (seg.toNat % 16) ^^^ (asid.toNat % 16)

/-- Translates an offset of a segment to its leaf entry and page size: the descriptor and limit, the
generation, a station's entry of the current generation if it holds one, else the walk (R253-R255). -/
def walk (s : State) (asid : BitVec 24) (seg : BitVec 16) (off : Nat) : Except WalkFault (BitVec 64 × Nat) :=
  let id := asid.extractLsb' 0 16
  match segDesc s id seg with
  | none => .error (.code .addressRange)
  | some d =>
    if d.limit ≤ off then .error (.code .addressRange)
    else
      let gen := generationAt (s.cube s.myCube) (stationOf id seg off) id
      if asid.extractLsb' 16 8 != gen then .error .stale
      else match (s.cube s.myCube).stove.stations.find? fun t =>
          t.station == stationOf id seg off && t.asid == id && t.gen == gen && t.seg == seg && t.off ≤ off &&
          off < t.off + t.size with
        | some t => .ok (t.pte, t.size)
        | none => walkFrom s off 3 0 d.root

/-! ### One byte -/

/-- Who makes a request: what travels with it (R104, R254). -/
structure Requester where
  asid : BitVec 24
  priv : Bool
  /-- the core whose scratchpad the local segment names; none for the dispatcher (R354) -/
  core : Option Nat
  deriving DecidableEq, Repr

/-- A refused byte: its code, whether a stale generation caused it (R255), and whether it is not refused but waits for a map
(R389). -/
structure Refused where
  code : TrapCode
  off : Word
  stale : Bool
  held : Bool
  deriving DecidableEq, Repr

/-- Whether a page's permissions admit an access kind (R402); a decide-once page refuses every plain write
(R311). -/
def pagePermits (e : BitVec 64) (priv : Bool) (k : AccessKind) : Bool :=
  (!e.getLsbD 6 || priv) &&
  match k with
  | .none => true
  | .fetch => e.getLsbD 4
  | .load | .copySrc => e.getLsbD 2
  | .store | .atomic | .copyDst => e.getLsbD 3 && !e.getLsbD 5
  | .once => e.getLsbD 2 && e.getLsbD 3

/-- Whether local addresses of a cube meet a region that has been marked as about to become absent (R243). -/
def meetsMarked (q : Cube) (l n : Nat) : Bool := q.marked.any fun r => l < (r + 1) * 2 ^ 32 && r * 2 ^ 32 < l + n

/-- The local addresses that an interleaved page has on the cube of the map's entry j, as first address and length; none where
it has no stripe there (R239). -/
def stripesOf (m : InterleaveMap) (i size j : Nat) (e : MapEntry) : Option (Nat × Nat) :=
  let n := m.entries.length
  let first := i / 2 ^ m.s
  let last := (i + size - 1) / 2 ^ m.s
  let a := first + (j + n - first % n) % n
  let b := last - (last % n + n - j) % n
  if last < a then none else some (e.base + a / n * 2 ^ m.s, (b / n - a / n + 1) * 2 ^ m.s)

/-- Whether Stove core 2 has withdrawn a page, because it maps a marked region (R243). -/
def withdrawn (s : State) (page size : Nat) : Bool :=
  if s.cubes.all fun q => q.2.marked.isEmpty then false
  else if page / 2 ^ 47 % 1024 = 1023 then
    let m := (s.cube s.myCube).imap
    m.entries.zipIdx.any fun x => match stripesOf m (page % 2 ^ 47) size x.2 x.1 with
      | some (l, n) => meetsMarked (s.cube x.1.cube) l n
      | none => false
  else meetsMarked (s.cube (page / 2 ^ 47)) (page % 2 ^ 47) size

/-- Where a byte stands by its translation alone: its place, the entry of its page, which is none in the local segment, and
whether its cube is marked lost. -/
structure Located where
  place : Place
  pte : Option (BitVec 64)
  lost : Bool

/-- Translates one byte: ADDRESS_RANGE, then PAGE_ABSENT (R212). -/
def locate (s : State) (r : Requester) (seg : BitVec 16) (off : Word) : Except Refused Located :=
  let bad := fun (c : TrapCode) => (.error ⟨c, off, false, false⟩ : Except Refused Located)
  if seg = 0xFFFF then
    match r.core with
    | none => bad .addressRange
    | some core =>
      if 2 ^ 22 ≤ off.toNat then bad .addressRange
      else
        let w := off.toNat / 2 ^ 19
        .ok ⟨⟨.spad core w, core / 256, spadAddr core (off.toNat % 2 ^ 19), none, false⟩, none, false⟩
  else if seg = 0xFFFE then bad .addressRange
  else match walk s r.asid seg off.toNat with
    | .error .stale => .error ⟨.pageAbsent, off, true, false⟩
    | .error .held => .error ⟨.pageAbsent, off, false, true⟩
    | .error (.code c) => bad c
    | .ok (e, size) =>
      if withdrawn s (pteAddr e) size then bad .pageAbsent
      else match resolveGlobal s (pteAddr e + off.toNat % size) with
        | .error c => bad c
        | .ok (c, l, i, lost) =>
          match classify s c l i (e.getLsbD 5) with
          | .error c => bad c
          | .ok p => .ok ⟨p, some e, lost⟩

/-- The place of one byte, in the order of R212: ADDRESS_RANGE, PAGE_ABSENT, PAGE_PROTECT of the page and
of the region (`allow`), PEER_LOST. -/
def placeOf (s : State) (r : Requester) (seg : BitVec 16) (off : Word) (k : AccessKind) (allow : Region → Bool) :
    Except Refused Place :=
  match locate s r seg off with
  | .error e => .error e
  | .ok x =>
    if !((x.pte.all fun e => pagePermits e r.priv k) && allow x.place.region) then .error ⟨.pageProtect, off, false, false⟩
    else if x.pte.isSome && (x.lost || peerLost s x.place.cube || !answers s x.place) then
      .error ⟨.peerLost, off, false, false⟩
    else .ok x.place

/-! ### Footprints (R291) -/

/-- A run of bytes of a footprint that lies within one place. -/
structure Piece where
  place : Place
  /-- segment offset of its first byte -/
  off : Word
  len : Nat
  deriving DecidableEq, Repr

/-- Cuts `n` bytes from offset `o` on at multiples of 4 KiB; `fuel` bounds the number of runs. -/
def runs : Nat → Word → Nat → List (Word × Nat)
  | 0, _, _ => []
  | fuel + 1, o, n =>
    if n = 0 then []
    else
      let k := min n (4096 - o.toNat % 4096)
      (o, k) :: runs fuel (o + BitVec.ofNat 64 k) (n - k)

/-- Whether a later run of a contiguous access may follow a first one: a scratchpad footprint lies within
one window of one core (R291). -/
def sameWindow (a b : Region) : Bool :=
  match a, b with
  | .spad c w, .spad c' w' => c == c' && w == w'
  | .spad _ _, _ => false
  | _, .spad _ _ => false
  | _, _ => true

/-- The end of a segment's offsets: a byte at or past it is out of range (R249, R253). -/
def segEnd (s : State) (r : Requester) (seg : BitVec 16) : Nat :=
  if seg = 0xFFFF then 2 ^ 22
  else match segDesc s (r.asid.extractLsb' 0 16) seg with
    | some d => d.limit
    | none => 0

/-- Checks and places the runs of a contiguous access, in ascending offset order (R291). A run that the end
of its segment cuts is refused at its first byte past the end. -/
def placeRuns (s : State) (r : Requester) (seg : BitVec 16) (k : AccessKind) (allow : Region → Bool)
    (first : Option Region) : List (Word × Nat) → Except Refused (List Piece)
  | [] => .ok []
  | (o, n) :: l =>
    let strays := match first, locate s r seg o with
      | some f, .ok x => !sameWindow f x.place.region
      | _, _ => false
    if strays then .error ⟨.addressRange, o, false, false⟩
    else match placeOf s r seg o k allow with
    | .error e => .error e
    | .ok p =>
      if segEnd s r seg < o.toNat + n then .error ⟨.addressRange, BitVec.ofNat 64 (segEnd s r seg), false, false⟩
      else match placeRuns s r seg k allow (some (first.getD p.region)) l with
        | .error e => .error e
        | .ok ps => .ok (⟨p, o, n⟩ :: ps)

/-- Checks and places a contiguous access of `n` bytes. -/
def footprint (s : State) (r : Requester) (seg : BitVec 16) (o : Word) (n : Nat) (k : AccessKind)
    (allow : Region → Bool) : Except Refused (List Piece) :=
  placeRuns s r seg k allow none (runs (n / 4096 + 2) o n)

/-- The first poisoned atom a placed footprint meets, in order: the atom's segment offset (R235, R291). -/
def poisonIn (s : State) : List Piece → Option Word
  | [] => none
  | p :: ps =>
    match s.poisoned p.place.addr p.len with
    | some a => some (p.off + BitVec.ofNat 64 a - BitVec.ofNat 64 p.place.addr)
    | none => poisonIn s ps

/-- The bytes of a placed footprint. -/
def readPieces (s : State) : List Piece → List Byte
  | [] => []
  | p :: ps => s.load p.place.addr p.len ++ readPieces s ps

/-- The moving thread as a requester (R104). -/
def State.requester (s : State) : Requester := ⟨s.regs.asid, s.priv, some s.me⟩

/-- The trap of a refused byte; the instruction waits where the byte waits for a map. -/
def refuse {α : Type} (s : State) (seg : BitVec 16) (k : AccessKind) (e : Refused) : Except Stop α :=
  if e.held then stall s else .error (.trap { s.report e.code e.off k seg with staleGen := e.stale } s)

/-- A trap at an access address. -/
def trapAccess {α : Type} (s : State) (code : TrapCode) (addr : Word) (k : AccessKind) (seg : BitVec 16) :
    Except Stop α :=
  .error (.trap (s.report code addr k seg) s)

/-! ### MMIO registers (R237, R377, R399, R400) -/

/-- The 8-byte register at a cube-local MMIO address that is a multiple of 8; 0 where none is placed. -/
def mmioReg (s : State) (c l : Nat) : BitVec 64 :=
  let q := s.cube c
  let o := l - 0x7F0000000000
  if 0x100000 ≤ o && o < 0x100030 then
    match q.links[(o - 0x100000) / 8]? with
    | some k => BitVec.ofNat 64 ((if k.up then 1 else 0) + k.lanes % 32 * 2 + k.ver % 256 * 64 +
        k.replay.toNat * 2 ^ 32)
    | none => 0
  else if o = 0x200000 then
    BitVec.ofNat 64 (q.imap.s + q.imap.entries.length * 2 ^ 16 + q.imap.mgen.toNat * 2 ^ 32)
  else if 0x200008 ≤ o && o < 0x200008 + 8 * 640 then
    match q.imap.entries[(o - 0x200008) / 8]? with
    | some e => BitVec.ofNat 64 (e.cube % 1024 + (if e.lost then 2 ^ 15 else 0) + e.base / 2 ^ 12 * 2 ^ 16)
    | none => 0
  else if o = 0x202000 then BitVec.ofNat 64 (q.fgen.toNat + retired q * 2 ^ 16)
  else if 0x202008 ≤ o && o < 0x202008 + 8 * 64 then
    match q.fmap[(o - 0x202008) / 8]? with
    | some (.inl f) => BitVec.ofNat 64 f
    | some (.inr t) => BitVec.ofNat 64 (2 ^ 6 + t * 2 ^ 7)
    | none => 0
  else 0

/-- A load of MMIO of 4 or 8 bytes (R237). -/
def mmioLoad (s : State) (c l n : Nat) : Nat :=
  let v := (mmioReg s c (l / 8 * 8)).toNat
  v / 2 ^ (8 * (l % 8)) % 2 ^ (8 * n)

end Sys2Proof.Machine
end

