-- ==== Sys2Proof/Machine/Access.lean ====
section
/-! DEFINITION. Accesses at their homes: windows (R247, R248), writes in flight and their performance
(R233, R262, R266, R292), the L1 (R250, R276, R277), acquire and release (R271, R272). -/

namespace Sys2Proof.Machine

open Sys2Proof

/-! ### Windows (R247) -/

/-- The bytes of one element of a scalar or vector access through a window: 4, or 2 in BF16W and FP16W. -/
def winBytes (w : Nat) : Nat := if w = 2 || w = 3 then 2 else 4

/-- What a load delivers for an element's bits (R247). -/
def winLoad (w : Nat) (x : Nat) : Nat :=
  match w with
  | 1 => f32.ofVal .rne 0 (f32.decode x)
  | 2 => convert bf16 f32 .rne 0 x
  | 3 => convert f16 f32 .rne 0 x
  | _ => x

/-- What a store writes for an element (R247). -/
def winStore (w : Nat) (x : Nat) : Nat :=
  match w with
  | 2 => convert f32 bf16 .rne 0 x
  | 3 => convert f32 f16 .rne 0 x
  | _ => x

/-- The window of a region; DRAM and second-tier memory read as RAW, and 8 stands for MMIO. -/
def winOf (r : Region) : Nat :=
  match r with
  | .spad _ w => w
  | .mmio => 8
  | _ => 0

/-- The element width m of an SX window (R247). -/
def sxOfWin (w : Nat) : Option Nat :=
  match w with
  | 4 => some 7
  | 5 => some 4
  | 6 => some 2
  | _ => none

/-! ### Performing a write at its home -/

/-- How a home answers a write. -/
inductive WriteResult where
  | done (s : State)
  /-- the atom is owned by an engine (R281), or a host copy must first be recalled (R286) -/
  | wait
  /-- a launched graph table refuses it (R357) -/
  | busy
  /-- a partial write of a poisoned atom (R235) -/
  | poisoned

/-- Whether two ranges of addresses meet. -/
def meets (a n b k : Nat) : Bool := a < b + k && b < a + n

/-- The physical address whose bytes stand at a storage address: a row that a range map holds is the DRAM
range (R284). -/
def logicalAddr (s : State) (a : Nat) : Nat :=
  match spadOf a with
  | none => a
  | some (core, o) =>
    match (s.getCore core).maps.find? fun m => 4096 * m.spo ≤ o && o < 4096 * (m.spo + m.units) with
    | some m => m.base + (o - 4096 * m.spo)
    | none => a

/-- Whether a range of a cube lies in a launched graph's registered ranges (R357). -/
def registered (s : State) (cube a n : Nat) : Bool :=
  (s.cube cube).graphs.any fun g => g.ranges.any fun r => meets (logicalAddr s a) n r.1 r.2

/-- Whether the bank of a storage address is under refresh (R257). -/
def underRefresh (q : Cube) (a : Nat) : Bool :=
  !q.refreshing.isEmpty && (spadOf a).isNone && a % 2 ^ 47 < 2 ^ 38 &&
    (let (f, l) := placeDram q (a % 2 ^ 38)
     q.refreshing.contains (f, l / 2 ^ 14 % 256))

/-- Whether an access to a range waits: its bank is under refresh (R257), or an agent other than the owner finds an
atom of it owned (R281). -/
def mustWait (q : Cube) (who : Option Nat) (a n : Nat) : Bool :=
  underRefresh q a || (q.moving.any fun r => meets a n r.1 r.2) ||
  q.owned.any fun o => meets a n o.1 32 && (match who with
    | some core => o.2.1 != core
    | none => true)

/-- Whether the host holds a copy of an atom of a range (R264). -/
def hostedIn (s : State) (cube a n : Nat) : Bool := (s.cube cube).hosted.any fun h => meets (logicalAddr s a) n h 32

/-- Stores the enabled bytes of a list. -/
def storeEnabled (s : State) (a : Nat) (bs : List (Option Byte)) : State :=
  if bs.all Option.isSome then s.store a (bs.map fun b => b.getD 0)
  else (bs.zipIdx.foldl (fun t p => match p.1 with
    | some b => t.store (a + p.2) [b]
    | none => t) s)

/-- Adds each n-byte element to memory modulo 2^(8n) (R247). -/
def addElems (s : State) (a n : Nat) : List Byte → Nat → State
  | _, 0 => s
  | bs, k + 1 =>
    let old := natOfBytes (s.load a n)
    addElems (s.store a (bytesOfNat n ((old + natOfBytes (bs.take n)) % 2 ^ (8 * n)))) (a + n) n (bs.drop n) k

/-- A home performs a write of a range within one atom. -/
def homeWrite (s : State) (cube : Nat) (who : Option Nat) (a : Nat) (bs : List (Option Byte)) (add : Nat) :
    WriteResult :=
  let q := s.cube cube
  let n := bs.length
  if registered s cube a n then .busy
  else if mustWait q who a n || hostedIn s cube a n then .wait
  else if (s.poisoned a n).isSome && !(add = 0 && n = 32 && bs.all Option.isSome) then .poisoned
  else if add = 0 then .done (storeEnabled s a bs)
  else .done (addElems s a add (bs.map fun b => b.getD 0) (n / add))

/-- The core a request came from. -/
def Agent.core : Agent → Option Nat
  | .main c => some c
  | .engine c _ => some c
  | _ => none

/-- The reply to a request, as it sets out from the request's home to its source. -/
def Flight.replyWith (f : Flight) (b : Body) : Flight :=
  { f with
    cls := .reply, at_ := f.cube, cube := f.src.place.1, home := f.src.place.2, ilv := none, sends := 1, waiting := false
    members := [], group := none, seqs := [], ver := 1, rsv := 0, body := b }

/-- Whether a kept reply is one of a source, a destination and a class. -/
def Kept.of (k : Kept) (f : Flight) : Bool :=
  k.request.src == f.src && k.request.home == f.home && k.request.cls == f.cls

/-- Keeps the reply of a request: the home holds those of the last 256 requests of every pair and class, the oldest that
its source has taken making room (R382). -/
def keepReply (l : List Kept) (f : Flight) (r : Flight) : List Kept :=
  let l := l.filter fun k => !(k.of f && k.request.ord == f.ord)
  let old := l.filter fun k => k.of f
  let l := if old.length < 256 then l
    else if old.any Kept.taken then l.eraseP fun k => k.of f && k.taken else l.eraseP fun k => k.of f
  l ++ [⟨f, r, false⟩]

/-- The kept reply of a request that its home has performed already (R382). -/
def State.keptOf (s : State) (f : Flight) : Option Kept := s.kept.find? fun k => k.of f && k.request.ord == f.ord

/-- A duplicate is counted, not performed, and answered with the kept reply (R267, R382, R446). -/
def State.again (s : State) (f : Flight) (k : Kept) : State :=
  let t := (s.land f.num).errCount f.cube 9
  { t with flights := t.flights ++ [{ k.reply with route := s.numCtr }] }

/-- Sends a reply to the agent that sent a request, under the request's number; the home keeps it (R372, R382). -/
def State.reply (s : State) (f : Flight) (b : Body) : State :=
  let r := { f.replyWith b with route := s.numCtr }
  { s with flights := s.flights ++ [r], kept := keepReply s.kept f r }

/-- The new value of an atomic (R300, R301); elements are `w` bits. -/
def atomicNew (op : AtomicOp) (w old v c : Nat) : Nat :=
  let s := fun (x : Nat) => signedW w x
  match op with
  | .add => (old + v) % 2 ^ w
  | .and => old &&& v
  | .or => old ||| v
  | .xor => old ^^^ v
  | .min => if s v < s old then v else old
  | .max => if s old < s v then v else old
  | .swap => v
  | .cas => if old = c then v else old
  | .fadd => f32.add old v
where
  /-- A w-bit encoding as a signed number. -/
  signedW (w x : Nat) : Int := if x < 2 ^ (w - 1) then x else (x : Int) - 2 ^ w

/-- Removes a core's L1 lines that meet a range. -/
def l1DropAt (s : State) (core : Option Nat) (a n : Nat) : State :=
  match core with
  | none => s
  | some c => s.modCore c fun k => { k with l1 := k.l1.filter fun l => !meets l.addr 64 a n }

/-- Removes the moving core's L1 lines that meet a range. -/
def l1DropRange (s : State) (a n : Nat) : State :=
  { s with core := { s.core with l1 := s.core.l1.filter fun l => !meets l.addr 64 a n } }

/-- Removes every core's L1 lines that meet a range. -/
def l1DropAll (s : State) (a n : Nat) : State :=
  let f := fun (k : Core) => { k with l1 := k.l1.filter fun l => !meets l.addr 64 a n }
  { s with core := f s.core, cores := s.cores.map fun p => (p.1, f p.2) }

/-- Performs one memory request of a thread that needs no data back, for the first time that it reaches its home: a write or
one lane of a VAMO. A refused store is acknowledged with its first byte (R488); a poisoned atom sends the gang back (R228);
the core's L1 loses what a refused write had merged. -/
def performNew (s : State) (f : Flight) : Option State :=
  match f.body with
  | .write a bs add off =>
    match homeWrite s f.cube none a bs add with
    | .done t => some ((t.land f.num).reply f (.ack 1 none))
    | .wait => none
    | .busy => some (((l1DropAt s f.src.core a bs.length).land f.num).reply f (.ack 1 (some off)))
    | .poisoned =>
      let t := (l1DropAt s f.src.core a bs.length).modCube s.myCube fun q => { q with rollbacks := q.rollbacks ++ [f.tid] }
      some ((t.land f.num).reply f (.ack 1 none))
  | .atomic op a v off =>
    let old := natOfBytes (s.load a 4)
    match homeWrite s f.cube none a
        ((bytesOfNat 4 (atomicNew op 32 old v.toNat 0)).map some) 0 with
    | .done t => some ((t.land f.num).reply f (.ack 1 none))
    | .wait => none
    | .busy => some ((s.land f.num).reply f (.ack 1 (some off)))
    | .poisoned =>
      let t := s.modCube (s.myCube) fun q => { q with rollbacks := q.rollbacks ++ [f.tid] }
      some ((t.land f.num).reply f (.ack 1 none))
  | _ => some s

/-- The same, where a duplicate is answered with the kept reply (R382). -/
def performStore (s : State) (f : Flight) : Option State :=
  match s.keptOf f with
  | some k => some (s.again f k)
  | none => performNew s f

/-- A request in the ORDERED class that a thread sent to a home (R265). -/
def Flight.inPair (f : Flight) (src : Agent) (home : Nat) : Bool := f.src == src && f.home == home && f.cls == .ordered

/-- Whether a request was resolved under the map of the cube that it reaches, or needs none (R390). -/
def underMap (s : State) (f : Flight) : Bool :=
  match f.ilv with
  | none => true
  | some (_, g) => g == (s.cube f.cube).imap.mgen

/-- A store or one lane of a VAMO. -/
def Body.isStore : Body → Bool
  | .write _ _ _ _ => true
  | .atomic _ _ _ _ => true
  | _ => false

/-- The storage address that a request names. -/
def Body.addr : Body → Option Nat
  | .read a _ _ | .copyRead a _ _ _ | .write a _ _ _ | .atomic _ a _ _ | .amo _ a _ | .once _ a _ _ | .ownRequest a _ _
  | .ownRelease a _ => some a
  | .multicast a _ _ _ => some a
  | _ => none

/-- Whether the memory that a request reaches answers: an expander may have stopped (R245). -/
def answersAt (s : State) (b : Body) : Bool :=
  match b.addr with
  | none => true
  | some a => (spadOf a).isSome || a % 2 ^ 47 < 2 ^ 38 || answers s ⟨.tier2, a / 2 ^ 47, a, none, false⟩

/-- The core that performs accesses to a storage address (R241, R245, R246). -/
def homeAddr (s : State) (a : Nat) : Nat :=
  homeOf s ⟨if a % 2 ^ 47 < 2 ^ 38 then .dram else .tier2, a / 2 ^ 47, a, none, false⟩

/-- Performs a list of requests in order; none where one must wait. -/
def performAll (s : State) : List Flight → Option State
  | [] => some s
  | f :: l => match performStore s f with
    | some t => performAll t l
    | none => none

/-- Whether a request is a load of a thread that its main sequencer sent from another core, before it migrated. -/
def Flight.loadBefore (f : Flight) (tid : Nat) (src : Agent) : Bool :=
  f.tid == tid && f.src != src && match f.src, f.body with
    | .main _, .read _ _ _ => true
    | _, _ => false

/-- Performs the moving thread's requests to a home that are in flight, in order, before a request that
the home performs now (R266): the instruction waits where one of them must wait, and for a load that the thread left in
flight at the same home when it migrated (R268). -/
def drainPair (s : State) (home : Nat) : Except Stop State :=
  let src : Agent := .main s.me
  let l := s.flights.filter fun f => f.inPair src home
  if (l.any fun f => !f.body.isStore || !underMap s f || f.ver ≠ 1 || f.rsv ≠ 0 || f.sends = 0 || !answersAt s f.body) ||
      (s.flights.any fun f => f.loadBefore s.core.ctx.tid src && f.home == home) then stall s
  else match performAll s l with
    | some t => .ok t
    | none => stall s

/-- Where a run of bytes lies by the map of the cube that owns it: a request that was resolved under an older one is
resolved again there, one of a newer one waits (R239, R390). -/
def settlePiece (s : State) (k : AccessKind) (seg : BitVec 16) (p : Piece) : Except Stop Piece :=
  match chase s 4 p.place (s.cube s.myCube).imap.mgen with
  | .ok (some q) => .ok { p with place := q }
  | .ok none => stall s
  | .error c => trapAccess s c p.off k seg

/-- Where a run of bytes that an engine reads lies by the map of the cube that owns it; none while it must wait (R390). -/
def landed (s : State) (p : Piece) : Option Piece :=
  match chase s 4 p.place (s.cube s.myCube).imap.mgen with
  | .ok (some q) => some { p with place := q }
  | _ => none

/-- The same for the runs of a footprint: none where one must wait, or the code and the offset of one that lies nowhere. -/
def landPieces (s : State) : List Piece → Except (Option (TrapCode × Word)) (List Piece)
  | [] => .ok []
  | p :: ps => match chase s 4 p.place (s.cube s.myCube).imap.mgen with
    | .error c => .error (some (c, p.off))
    | .ok none => .error none
    | .ok (some q) => match landPieces s ps with
      | .error e => .error e
      | .ok qs => .ok ({ p with place := q } :: qs)

/-- Bytes of a range as a reader has read some of their atoms ahead (R405): the number of the work that reads. -/
def readEarly (s : State) (cube key : Nat) (a : Nat) (bs : List Byte) : List Byte :=
  let mine := (s.cube cube).early.filter fun x => x.1 = key
  if mine.isEmpty then bs
  else bs.zipIdx.map fun b => match mine.find? fun x => x.2.1 = (a + b.2) / 32 * 32 with
    | some x => x.2.2.getD ((a + b.2) % 32) b.1
    | none => b.1

/-- What is read ahead for a piece of work goes with it. -/
def dropEarly (s : State) (cube key : Nat) : State :=
  if (s.cube cube).early.any fun x => x.1 = key then
    s.modCube cube fun q => { q with early := q.early.filter fun x => x.1 != key }
  else s

/-- An atom of a record is read ahead for a piece of work (R405), once, where a read of it would be answered now. -/
def readAhead (s : State) (cube key a : Nat) : State :=
  let atom := a / 32 * 32
  if (s.cube cube).early.any (fun x => x.1 = key && x.2.1 = atom) || (s.poisoned atom 32).isSome ||
      mustWait (s.cube (atom / 2 ^ 47)) none atom 32 then s
  else s.modCube cube fun q => { q with early := q.early ++ [(key, atom, s.load atom 32)] }

/-- Cuts a run of bytes at the multiples of `m` of its address. -/
def cutPiece (m : Nat) : Nat → Piece → List Piece
  | 0, p => [p]
  | fuel + 1, p =>
    let k := m - p.place.addr % m
    if p.len ≤ k then [p]
    else { p with len := k } :: cutPiece m fuel { p with
      place := { p.place with addr := p.place.addr + k, ilv := p.place.ilv.map (· + k) }
      off := p.off + BitVec.ofNat 64 k, len := p.len - k }

/-- Drains the pairs of the homes of a placed footprint. -/
def drainPieces (s : State) : List Piece → Except Stop State
  | [] => .ok s
  | p :: ps => do
    let t ← drainPair s (homeOf s p.place)
    drainPieces t ps

/-! ### Sending stores -/

/-- Cuts bytes at an address into the parts that lie in one atom. -/
def atomParts : Nat → Nat → List (Option Byte) → List (Nat × List (Option Byte))
  | 0, _, _ => []
  | fuel + 1, a, bs =>
    if bs.isEmpty then []
    else
      let k := 32 - a % 32
      let r := atomParts fuel (a + k) (bs.drop k)
      if (bs.take k).any Option.isSome then (a, bs.take k) :: r else r

/-- The writes of a placed footprint: one for each atom it touches, with the segment offset of its first
byte (R292). -/
def writesOf (bs : List (Option Byte)) : List Piece → List (Place × Nat × List (Option Byte) × Word)
  | [] => []
  | p :: ps =>
    ((atomParts (p.len / 32 + 2) p.place.addr (bs.take p.len)).map fun x =>
      (p.place, x.1, x.2, p.off + BitVec.ofNat 64 (x.1 - p.place.addr))) ++ writesOf (bs.drop p.len) ps

/-- Joins writes that follow one another within one atom into one write (R233, R263). -/
def mergeAtoms : List (Place × Nat × List (Option Byte) × Word) → List (Place × Nat × List (Option Byte) × Word)
  | [] => []
  | (p, a, bs, o) :: l =>
    match mergeAtoms l with
    | [] => [(p, a, bs, o)]
    | (q, b, cs, u) :: r =>
      if a / 32 = b / 32 && a + bs.length ≤ b then
        (p, a, bs ++ List.replicate (b - (a + bs.length)) none ++ cs, o) :: r
      else (p, a, bs, o) :: (q, b, cs, u) :: r

/-- A request of a pair and class waits at issue while 256 of them are outstanding (R382): room for one request to each
home of a list. -/
def needRoom (s : State) (homes : List Nat) : Except Stop Unit :=
  if homes.all fun h => s.mayRequest (.main s.me) h .ordered (homes.filter fun x => x == h).length then .ok () else stall s

/-- The same for one request of any class. -/
def needRoomIn (s : State) (home : Nat) (cls : Class) : Except Stop Unit :=
  if s.mayRequest (.main s.me) home cls 1 then .ok () else stall s

/-- Sends one write of the moving thread (R265, R292); a write to MMIO reaches no register that takes one
and is ignored (R237). -/
def sendWrite (s : State) (p : Place) (a : Nat) (bs : List (Option Byte)) (add : Nat) (off : Word) : State :=
  let g := (s.cube s.myCube).imap.mgen
  s.send (.main s.me) s.core.ctx.tid .ordered s.myCube p.cube (homeOf s p) (p.ilv.map fun i => (i, g))
    (.write a bs add off)

/-- The bytes of a line after a store of bytes at `a`. -/
def L1Line.merge (l : L1Line) (a : Nat) (bs : List (Option Byte)) : L1Line :=
  let at_ := fun (k : Nat) (old : Byte) =>
    if a ≤ l.addr + k && l.addr + k < a + bs.length then ((bs.getD (l.addr + k - a) none).getD old) else old
  { l with bytes := l.bytes.zipIdx.map fun b => at_ b.2 b.1 }

/-- A store by the core to a line its L1 holds is merged into the line (R277); one that adds is an atomic and
invalidates its atom (R279). -/
def l1Merge (s : State) (a : Nat) (bs : List (Option Byte)) (add : Nat) : State :=
  let f := fun (l : L1Line) => if meets l.addr 64 a bs.length then l.merge a bs else l
  if add = 0 then { s with core := { s.core with l1 := s.core.l1.map f } }
  else l1DropRange s (a / 32 * 32) 32

/-- Sends the writes of a placed footprint: each adds one to the unacknowledged-store count (R292). -/
def sendWrites (s : State) (pieces : List Piece) (bs : List (Option Byte)) (add : Nat) (one : Bool) :
    Except Stop State :=
  let ws := mergeAtoms (writesOf bs pieces)
  match pieces with
  | [] => .ok s
  | p :: _ =>
    if p.place.region = .mmio then .ok s
    else do
      needRoom s (ws.map fun w => homeOf s w.1)
      let t ← addUnacked s (if one then 1 else ws.length)
      let send := fun (t : State) (w : Place × Nat × List (Option Byte) × Word) =>
        l1Merge (sendWrite t w.1 w.2.1 w.2.2.1 add w.2.2.2) w.2.1 w.2.2.1 add
      .ok (ws.foldl send t)

/-! ### Scopes (R270-R278, R294) -/

/-- Whether an L1 line's test includes the version of a scope code, by the home it has (R276). -/
def lineTests (me home scope : Nat) : Bool :=
  match scope with
  | 1 => home / 8 = me / 8
  | 2 => home / 256 = me / 256
  | _ => true

/-- The home core R241 gives for a storage address, whatever range maps stand (R276). -/
def plainHome (s : State) (a : Nat) : Nat :=
  match spadOf a with
  | some (c, _) => c
  | none => a / 2 ^ 47 * 256 + homeDram (s.cube (a / 2 ^ 47)) (a % 2 ^ 38)

/-- Increments the version of a scope and invalidates every line whose test includes it (R277, R278), by the home
of the range too where a range map holds the line (R276); V_s also drops every decided copy (R318). -/
def bumpVersion (s : State) (scope : Nat) : State :=
  if scope = 0 || 4 < scope then s
  else
    { s with core := { s.core with
      vers := s.core.vers.modify (scope - 1) (· + 1)
      l1 := s.core.l1.filter fun l =>
        !(lineTests s.me (plainHome s l.addr) scope || lineTests s.me (plainHome s (logicalAddr s l.addr)) scope)
      once := if scope = 4 then [] else s.core.once } }

/-- A release: every earlier load is performed and no store is unacknowledged, or the instruction waits
(R272). -/
def release (s : State) : Except Stop Unit :=
  if s.core.ctx.stores = 0 && s.core.ctx.pend.isEmpty then .ok () else stall s

/-- An acquire at a scope code (R271, R294); it waits for the thread's outstanding loads. -/
def acquire (scope : Nat) (s : State) : State := bumpVersion s scope

/-! ### Loads -/

/-- Whether a place may be held by the moving core's L1 (R250). -/
def cacheable (s : State) (p : Place) : Bool :=
  (match p.region with
    | .dram => true
    | .spad _ w => w == 0
    | _ => false) && !p.once && homeOf s p != s.me

/-- The parts of a footprint that are served one by one (R299): those of cacheable places by lines of the L1. -/
def lineParts (s : State) (ps : List Piece) : List Piece :=
  ps.flatMap fun p => if cacheable s p.place then cutPiece 64 (p.len / 64 + 1) p else [p]

/-- The line of the L1 that holds a range, if there is one: lines whose tags fail are gone (R276, R277). -/
def l1Find (s : State) (a n : Nat) : Option L1Line :=
  s.core.l1.find? fun l => l.addr ≤ a && a + n ≤ l.addr + 64

/-- Whether a write, an atomic or an engine write that the core issued to bytes of a range is still to reach its
home. -/
def writing (s : State) (a n : Nat) : Bool :=
  s.flights.any fun f => f.src.core == some s.me && match f.body with
    | .write b bs _ _ => meets b bs.length a n
    | .atomic _ b _ _ => meets b 4 a n
    | .amo _ b d => meets b d.size a n
    | .multicast b bs _ _ =>
      if f.members.isEmpty then meets b bs.length a n else f.members.any fun c => meets (spadAddr c b) bs.length a n
    | _ => false

/-- Whether a load of bytes of a range that the core sent is still to be performed. -/
def reading (s : State) (a n : Nat) : Bool :=
  s.flights.any fun f => f.src == .main s.me && match f.body with
    | .read b _ d => meets b d.size a n
    | _ => false

/-- Whether a line may be filled: no write of the core to it is on its way (R277), no older load of the core is still
to read it (R268), none of its atoms is poisoned (R235), and its homes do not make the fill wait (R257, R281). -/
def mayFill (s : State) (base : Nat) : Bool :=
  !writing s base 64 && !reading s base 64 && (s.poisoned base 64).isNone && !mustWait (s.cube (base / 2 ^ 47)) none base 64

/-- The lines that an L1 of 64 KiB holds (R1). -/
def l1Lines : Nat := 1024

/-- The lines of a core's L1 for which there is room beside its decided copies, those filled last (R1, R318, log entry 40). -/
def Core.fitL1 (k : Core) : Core := { k with l1 := k.l1.take (l1Lines - k.once.length) }

/-- Fills the line that holds an address (R276); the line filled longest ago makes room for it. A decided copy takes the room
of a line (R1, R318, log entry 40). -/
def l1Fill (s : State) (a : Nat) : State :=
  let base := a / 64 * 64
  let rest := s.core.l1.filter fun l => l.addr != base
  { s with core := Core.fitL1 { s.core with
    l1 := if !mayFill s base then rest else { addr := base, bytes := s.load base 64, tags := s.core.vers } :: rest } }

/-- Removes the moving core's L1 copy of an atom (R279, R280). -/
def l1Drop (s : State) (a : Nat) : State :=
  { s with core := { s.core with l1 := s.core.l1.filter fun l => !meets l.addr 64 (a / 32 * 32) 32 } }

/-- Reads the bytes of a placed footprint for a load: its home's requests of the thread are performed
first (R266, R268); an owned atom makes the load wait (R281); poison refuses it (R235). With `useL1` a line
of the L1 may serve a part that no older load of the core is still to read, and a part that misses fills one (R250,
R261, R268); without it every cacheable part counts as a miss (R445). A line whose bytes are read at the home is not
held any more (R268). -/
def loadParts (s : State) (k : AccessKind) (seg : BitVec 16) (cached : Bool) :
    List Piece → Except Stop (List Byte × State)
  | [] => .ok ([], s)
  | p :: ps => do
    let p ← settlePiece s k seg p
    let hit := if cached && s.useL1 && cacheable s p.place && !reading s p.place.addr p.len then
        l1Find s p.place.addr p.len
      else none
    match hit with
    | some l => do
      let s := { s with core := s.core.count 4 1 }
      let (r, t) ← loadParts s k seg cached ps
      .ok (((l.bytes.drop (p.place.addr - l.addr)).take p.len) ++ r, t)
    | none => do
      let s ← drainPair s (homeOf s p.place)
      if mustWait (s.cube p.place.cube) none p.place.addr p.len then stall s
      else match poisonIn s [p] with
        | some off => trapAccess s .memUncorrectable off k seg
        | none =>
          let b := s.load p.place.addr p.len
          let s := l1DropRange s p.place.addr p.len
          let s := if cached && cacheable s p.place then { s with core := s.core.count 5 1 } else s
          let s := if cached && s.useL1 && cacheable s p.place && p.place.addr % 64 + p.len ≤ 64 then
              l1Fill s p.place.addr
            else s
          let (r, t) ← loadParts s k seg cached ps
          .ok (b ++ r, t)

/-- Reads the bytes of a placed footprint for a load, part by part (R299). -/
def loadPieces (s : State) (k : AccessKind) (seg : BitVec 16) (cached : Bool) (ps : List Piece) :
    Except Stop (List Byte × State) :=
  loadParts s k seg cached (if cached then lineParts s ps else ps)

/-- A load counts as sent where the L1 did not serve all of its `parts` (R445). -/
def countSent (s : State) (parts : Nat) (t : State) : State :=
  if ((t.core.perf[4]) - (s.core.perf[4])).toNat = parts then t else { t with core := t.core.count 6 1 }

/-- The cacheable runs of a load that is sent to its homes count as misses (R445). -/
def countMisses (s : State) (ps : List Piece) : State :=
  { s with core := s.core.count 5 (ps.filter fun p => cacheable s p.place).length }

/-- A load that waits is sent once (R445): its next try counts it again, so that the wait leaves the counters as they
stood at `s`. -/
def waitUncounted {α : Type} (s : State) (r : Except Stop α) : Except Stop α :=
  match r with
  | .error (.wait t) => .error (.wait { t with core := { t.core with perf := s.core.perf } })
  | r => r

/-- Whether runs must wait for their cube's next map (R389 step 4). -/
def waitsMap (s : State) (ps : List Piece) : Bool := mapHeld s && ps.any fun p => p.place.ilv.isSome

/-- Refuses the parts of a footprint whose access the spec forbids, as a trap of the moving thread. -/
def place (s : State) (seg : BitVec 16) (o : Word) (n : Nat) (k : AccessKind) (allow : Region → Bool) :
    Except Stop (List Piece) :=
  match footprint s s.requester seg o n k allow with
  | .ok ps => if waitsMap s ps then stall s else .ok ps
  | .error e => refuse s seg k e

/-- The region of a byte, whatever its permissions, if it translates: it decides alignment (R248, R291). -/
def regionAt (s : State) (seg : BitVec 16) (o : Word) : Option Region :=
  match locate s s.requester seg o with
  | .ok x => some x.place.region
  | .error _ => none

/-- Regions that plain byte accesses of engines, images, records and lists may use: stacked DRAM, second
tier and the RAW window (R248). -/
def rawRegion (r : Region) : Bool :=
  match r with
  | .dram | .tier2 => true
  | .spad _ w => w == 0
  | .mmio => false

/-- Regions that atomics may use (R300). -/
def atomicRegion (r : Region) : Bool :=
  match r with
  | .dram => true
  | .spad _ w => w == 0 || w == 7
  | _ => false

/-- Loads `n` plain bytes at an offset of a segment for the moving thread, never from the L1, as one load that is sent (R445):
descriptors, records, return records, spills (R102, R155, R355). -/
def loadRaw (s : State) (seg : BitVec 16) (o : Word) (n : Nat) : Except Stop (List Byte × State) := do
  let ps ← place s seg o n .load rawRegion
  let (bs, t) ← loadPieces s .load seg false ps
  .ok (bs, { t with core := t.core.count 6 1 })

end Sys2Proof.Machine
end

