-- ==== Sys2Proof/Machine/Memory.lean ====
section
/-! DEFINITION. Loads, stores, acquire and release forms, fences, vector and gathered accesses, atomics,
prefetch and range maps (R288-R304). -/

namespace Sys2Proof.Machine

open Sys2Proof

/-! ### Addresses and alignment -/

/-- The segment value that an M instruction selects (R288). -/
def segOf (s : State) (k : Nat) : BitVec 16 := s.regs.seg[k]?.getD 0

/-- The segment value and offset of a segmented address operand (R289). -/
def segAddr (s : State) (x : Word) : BitVec 16 × Word := (segOf s (field x 62 2), x &&& BitVec.ofNat 64 (2 ^ 62 - 1))

/-- The alignment of a contiguous access whose natural alignment is `n` (R248, R293, R297). -/
def alignOf (r : Option Region) (n : Nat) : Nat :=
  match r.map winOf with
  | some 1 => 4
  | some 2 | some 3 | some 4 => 2
  | some 5 => 4
  | some 6 => 8
  | _ => n

/-- Traps MISALIGNED where an offset breaks an alignment. -/
def needAligned (s : State) (seg : BitVec 16) (o : Word) (al : Nat) (k : AccessKind) : Except Stop Unit :=
  if o.toNat % al = 0 then .ok () else trapAccess s .misaligned o k seg

/-! ### Scalar loads and stores (R293, R295) -/

/-- The regions that a scalar access of `n` bytes may use (R237, R248). -/
def scalarAllow (n : Nat) (r : Region) : Bool :=
  match r with
  | .dram | .tier2 => true
  | .spad _ w => w == 0 || w == 7 || ((w == 1 || w == 2 || w == 3) && n == 4)
  | .mmio => n == 4 || n == 8

/-- The bytes that a scalar access of `n` bytes touches in a window (R248, R293). -/
def scalarLen (w n : Nat) : Nat := if w = 1 || w = 2 || w = 3 then winBytes w else n

/-- The value that a scalar load delivers for the bytes of its element (R247, R293). -/
def loadValue (w n : Nat) (signed : Bool) (x : Nat) : Word :=
  let v := if w = 1 || w = 2 || w = 3 then winLoad w x else x
  if signed then (BitVec.ofNat (8 * n) v).signExtend 64 else BitVec.ofNat 64 (v % 2 ^ (8 * n))

/-- What puts the moving thread's registers back as they stand before the instruction that is issued (R11, R291). -/
def undoOf (s : State) : Undo :=
  let c := s.core.ctx
  { regs := c.regs, ages := c.pend.map fun p => (p.num, p.age) }

/-- Sends a load whose reply comes later (R35, R293): its register, which keeps its value, and its queue entry are
interlocked until then. -/
def sendLoad (s : State) (p : Piece) (seg : BitVec 16) (n : Nat) (signed : Bool) (d : BitVec 6) : State :=
  let pc := s.curPc
  let undo := undoOf s
  let s := l1DropRange s p.place.addr p.len
  let num := s.numCtr
  let dst := if d.toNat < 32 then some d.toNat else none
  let g := (s.cube s.myCube).imap.mgen
  let dest : LoadDest := { size := n, signed := signed, dst := dst, vec := none }
  let s := s.send (.main s.me) s.core.ctx.tid .ordered s.myCube p.place.cube (homeOf s p.place)
    (p.place.ilv.map fun i => (i, g)) (.read p.place.addr (winOf p.place.region) dest)
  let s := writeScalar 0 d ((dst.bind fun k => s.regs.g[k]?).getD 0) s
  let x : Pend := { num := num, dst := dst, age := 1, pc := pc, seg := seg, off := p.off, dest := dest, amo := none
                    failed := false, asid := s.regs.asid, priv := s.priv, undo := some undo }
  s.modCtx fun c => { c with pend := c.pend ++ [x] }

/-- A scalar load of `n` bytes at offset o of a segment; `cached` loads may use the L1 (R250, R293). -/
def scalarLoad (n : Nat) (signed cached : Bool) (seg : BitVec 16) (o : Word) (d : BitVec 6) (s : State) :
    Except Stop State := do
  let r := regionAt s seg o
  let w := (r.map winOf).getD 0
  needAligned s seg o (alignOf r n) .load
  let ps ← place s seg o (scalarLen w n) .load (scalarAllow n)
  let sent := { s with core := s.core.count 6 1 }
  match ps with
  | [] => .ok s
  | p :: _ =>
    if p.place.region = .mmio then
      .ok (writeScalar 0 d (loadValue 0 n signed (mmioLoad s p.place.cube p.place.addr n)) sent)
    else if cached && s.answerLater && !s.useL1 then
      (match poisonIn s ps with
      | some off => trapAccess s .memUncorrectable off .load seg
      | none => do
        needRoom s [homeOf s p.place]
        .ok (sendLoad (if w = 0 then countMisses sent [p] else sent) p seg n signed d))
    else do
      let l1 := cached && w = 0
      let (bs, t) ← waitUncounted s (loadPieces s .load seg l1 ps)
      .ok (writeScalar 0 d (loadValue w n signed (natOfBytes bs))
        (countSent s (if l1 then lineParts s ps else ps).length t))

/-- The bytes that a scalar store writes through a window (R247, R293). -/
def storeBytes (w n : Nat) (x : Word) : List Byte :=
  if w = 1 || w = 2 || w = 3 then bytesOfNat (winBytes w) (winStore w (x.toNat % 2 ^ 32))
  else bytesOfNat n x.toNat

/-- A scalar store of the low `n` bytes of x at offset o of a segment (R293). -/
def scalarStore (n : Nat) (seg : BitVec 16) (o : Word) (x : Word) (s : State) : Except Stop State := do
  let r := regionAt s seg o
  let w := (r.map winOf).getD 0
  needAligned s seg o (alignOf r n) .store
  let ps ← place s seg o (scalarLen w n) .store (scalarAllow n)
  let t ← sendWrites s ps ((storeBytes w n x).map some) (if w = 7 then n else 0) true
  .ok { t with core := t.core.count 7 1 }

/-- LD of R293. -/
def ld (n : Nat) (signed : Bool) (f : FmtM) (s : State) : Except Stop State := do
  needDst s f.d
  let b ← readScalar s 0 f.base
  scalarLoad n signed true (segOf s f.sg.toNat) (b + offM f * BitVec.ofNat 64 n) f.d s

/-- ST of R293. -/
def st (n : Nat) (f : FmtM) (s : State) : Except Stop State := do
  let x ← readScalar s 1 f.d
  let b ← readScalar s 0 f.base
  scalarStore n (segOf s f.sg.toNat) (b + offM f * BitVec.ofNat 64 n) x s

/-- LD_I8 -/
def execLdI8 (f : FmtM) := issueM f (ld 1 true f)
/-- LD_N8 -/
def execLdN8 (f : FmtM) := issueM f (ld 1 false f)
/-- LD_I16 -/
def execLdI16 (f : FmtM) := issueM f (ld 2 true f)
/-- LD_N16 -/
def execLdN16 (f : FmtM) := issueM f (ld 2 false f)
/-- LD_I32 -/
def execLdI32 (f : FmtM) := issueM f (ld 4 true f)
/-- LD_N32 -/
def execLdN32 (f : FmtM) := issueM f (ld 4 false f)
/-- LD_64 -/
def execLd64 (f : FmtM) := issueM f (ld 8 false f)
/-- ST_8 -/
def execSt8 (f : FmtM) := issueM f (st 1 f)
/-- ST_16 -/
def execSt16 (f : FmtM) := issueM f (st 2 f)
/-- ST_32 -/
def execSt32 (f : FmtM) := issueM f (st 4 f)
/-- ST_64 -/
def execSt64 (f : FmtM) := issueM f (st 8 f)

/-- The scope of an ACQ or AMO instruction (R294, R300). -/
def scopeM (f : FmtM) : Nat := (f.off.extractLsb' 0 3).toNat

/-- LDA (R295): a load at the home, then an acquire. -/
def lda (n : Nat) (f : FmtM) (s : State) : Except Stop State := do
  needDst s f.d
  let b ← readScalar s 0 f.base
  let t ← scalarLoad n false false (segOf s f.sg.toNat) (b + offAcq f * BitVec.ofNat 64 n) f.d s
  .ok (acquire (scopeM f) t)

/-- STL (R295): a release, then the store. The store's checks come before the wait of the release. -/
def stl (n : Nat) (f : FmtM) (s : State) : Except Stop State := do
  let x ← readScalar s 1 f.d
  let b ← readScalar s 0 f.base
  let t ← scalarStore n (segOf s f.sg.toNat) (b + offAcq f * BitVec.ofNat 64 n) x s
  release s
  .ok t

/-- LDA_32 -/
def execLda32 (f : FmtM) := issueM f (lda 4 f)
/-- LDA_64 -/
def execLda64 (f : FmtM) := issueM f (lda 8 f)
/-- STL_32 -/
def execStl32 (f : FmtM) := issueM f (stl 4 f)
/-- STL_64 -/
def execStl64 (f : FmtM) := issueM f (stl 8 f)

/-- The hearth's instruction cache of the moving core is emptied (R252). -/
def dropFetched (s : State) : State :=
  s.modCube s.myCube fun q => { q with icache := q.icache.filter fun x => x.1 != s.myCore / 8 }

/-- FENCE (R274, R296): release and fetch kinds wait; the fetch kind empties the hearth's instruction cache;
the acquire kind follows them. -/
def fence (f : FmtL) (s : State) : Except Stop State := do
  let v := f.immNat
  let scope := v % 8
  if v / 64 ≠ 0 || 4 < scope then trapHere s .illegalFunct
  else do
    if v / 16 % 2 = 1 || v / 32 % 2 = 1 then release s else .ok ()
    let s := if v / 32 % 2 = 1 then dropFetched s else s
    if v / 8 % 2 = 1 then
      if s.core.ctx.pend.isEmpty then .ok (acquire scope s) else stall s
    else .ok s

/-- FENCE -/
def execFence (f : FmtL) := issueL f (fence f)

/-! ### Vector loads and stores (R297) -/

/-- The regions that a contiguous vector access may use (R297). -/
def vectorAllow (r : Region) : Bool := r != .mmio

/-- The bytes of one unit of a vector access: a lane, or a block of 16 lanes in an SX window (R297). -/
def unitBytes (w : Nat) : Nat :=
  match sxOfWin w with
  | some m => sxBytes m
  | none => winBytes w

/-- The lanes of one unit. -/
def unitLanes (w : Nat) : Nat := if (sxOfWin w).isSome then 16 else 1

/-- The alignment of a unit (R297); MMIO, to which no vector access may go, has none. -/
def unitAlign (w : Nat) : Nat := if w = 8 then 1 else alignOf (some (.spad 0 w)) 4

/-- The units of a vector access that a mask makes active, in ascending order. -/
def activeUnits (w : Nat) (mask : Word) : List Nat :=
  (List.range (64 / unitLanes w)).filter fun u => (List.range (unitLanes w)).any fun i => mask.getLsbD (u * unitLanes w + i)

/-- The runs of bytes of the active units, neighbours joined (R297). -/
def unitRuns (o : Word) (n : Nat) : List Nat → List (Word × Nat)
  | [] => []
  | u :: l =>
    let a := o + BitVec.ofNat 64 (u * n)
    match unitRuns o n l with
    | [] => [(a, n)]
    | (b, k) :: r => if a + BitVec.ofNat 64 n = b then (a, n + k) :: r else (a, n) :: (b, k) :: r

/-- Cuts every run at multiples of 4 KiB. -/
def cutRuns (l : List (Word × Nat)) : List (Word × Nat) := l.flatMap fun r => runs (r.2 / 4096 + 2) r.1 r.2

/-- Checks and places runs for the moving thread. -/
def placeList (s : State) (seg : BitVec 16) (k : AccessKind) (allow : Region → Bool) (l : List (Word × Nat)) :
    Except Stop (List Piece) :=
  match placeRuns s s.requester seg k allow none l with
  | .ok ps => if waitsMap s ps then stall s else .ok ps
  | .error e => refuse s seg k e

/-- The lanes that a unit's bytes deliver (R247). -/
def unitLoad (w : Nat) (bs : List Byte) : List Nat :=
  match sxOfWin w with
  | some m => (List.range 16).map fun i => f32.ofVal .rne 0 (sxElem m (natOfBytes bs) i)
  | none => [winLoad w (natOfBytes bs)]

/-- The bytes that a unit's lanes store (R247, R297). -/
def unitStore (w : Nat) (xs : List Nat) : List Byte :=
  match sxOfWin w with
  | some m => bytesOfNat (sxBytes m) (sxPack m .rne (fun _ => 0) (xs.map f32.decode))
  | none => bytesOfNat (winBytes w) (winStore w (xs.headD 0))

/-- Cuts a list into pieces of `n`. -/
def chunk {α : Type} (n : Nat) : Nat → List α → List (List α)
  | 0, _ => []
  | k + 1, l => l.take n :: chunk n k (l.drop n)

/-- The window of a vector access: that of its first byte, else of its first active lane. -/
def vectorWin (s : State) (seg : BitVec 16) (o : Word) (mask : Word) : Nat :=
  match regionAt s seg o with
  | some r => winOf r
  | none =>
    match (activeUnits 0 mask).head? with
    | some k => ((regionAt s seg (o + BitVec.ofNat 64 (4 * k))).map winOf).getD 0
    | none => 0

/-- The part of a vector load that one request brings: its bytes and its lanes. -/
structure LanePart where
  piece : Piece
  lanes : List Nat

/-- Cuts the runs of a vector load at atoms, `n` bytes a lane (R263). -/
def laneParts (n : Nat) : List Piece → List Nat → List LanePart
  | [], _ => []
  | p :: ps, ls => ⟨p, ls.take (p.len / n)⟩ :: laneParts n ps (ls.drop (p.len / n))

/-- Sends the parts of a vector load whose replies come later (R35, R263): one request for each atom, or for each element
of a gathered access (R298). The register keeps its active lanes, its others become +0, and its queue entry is
interlocked with it until every reply has come. -/
def sendLanes (s : State) (seg : BitVec 16) (w : LanePart → Nat) (d : BitVec 6) (l : List LanePart) : State :=
  let pc := s.curPc
  let reg := if d.toNat < 32 then some d.toNat else none
  let g := (s.cube s.myCube).imap.mgen
  let one := fun (x : State × List Pend) (q : LanePart) =>
    let t := l1DropRange x.1 q.piece.place.addr q.piece.len
    let dest : LoadDest := { size := q.piece.len, signed := false, dst := none, vec := some ⟨reg, w q, q.lanes⟩ }
    let y : Pend := { num := t.numCtr, dst := none, age := 1, pc := pc, seg := seg, off := q.piece.off, dest := dest
                      amo := none, failed := false, asid := s.regs.asid, priv := s.priv, undo := some (undoOf s) }
    (t.send (.main s.me) s.core.ctx.tid .ordered s.myCube q.piece.place.cube (homeOf s q.piece.place)
      (q.piece.place.ilv.map fun i => (i, g)) (.read q.piece.place.addr (w q) dest), x.2 ++ [y])
  let active := l.flatMap LanePart.lanes
  let old := (reg.bind fun k => s.regs.v[k]?).getD 0
  let x := ofLanes fun k => if active.contains k then lane old k else 0
  let (t, ys) := l.foldl one (s, [])
  (writeVector 0 d x t).modCtx fun c => { c with pend := c.pend ++ ys }

/-- Whether a vector load through a window may answer later: its elements lie each in one atom. -/
def elementWise (w : Nat) : Bool := (sxOfWin w).isNone

/-- VLD and VLDM (R297). -/
def vld (masked : Bool) (f : FmtM) (s : State) : Except Stop State := do
  needDst s f.d
  let b ← readScalar s 0 f.base
  let mask ← if masked then readA1 s 2 else .ok (BitVec.allOnes 64)
  let seg := segOf s f.sg.toNat
  let o := b + offM f * 256
  let w := vectorWin s seg o mask
  let us := activeUnits w mask
  let n := unitBytes w
  match us with
  | [] => .ok (writeVector 0 f.d 0 s)
  | u :: _ => do
    needAligned s seg (o + BitVec.ofNat 64 (u * n)) (unitAlign w) .load
    let ps ← placeList s seg .load vectorAllow (cutRuns (unitRuns o n us))
    if s.answerLater && !s.useL1 && elementWise w then
      match poisonIn s ps with
      | some off => trapAccess s .memUncorrectable off .load seg
      | none => do
        let ls := laneParts n (ps.flatMap fun p => cutPiece 32 (p.len / 32 + 1) p) us
        needRoom s (ls.map fun q => homeOf s q.piece.place)
        let t := sendLanes (if w = 0 then countMisses s ps else s) seg (fun _ => w) f.d ls
        .ok { t with core := t.core.count 6 1 }
    else do
    let (bs, t) ← waitUncounted s (loadPieces s .load seg (w = 0) ps)
    let t := countSent s (if w = 0 then lineParts s ps else ps).length t
    let vals := (us.zip (chunk n us.length bs)).map fun p => (p.1, unitLoad w p.2)
    let at_ := fun (k : Nat) => match assoc vals (k / unitLanes w) with
      | some xs => xs.getD (k % unitLanes w) 0
      | none => 0
    .ok (writeVector 0 f.d (ofLanes fun k => BitVec.ofNat 32 (at_ k)) t)

/-- VST and VSTM (R297). -/
def vst (masked : Bool) (f : FmtM) (s : State) : Except Stop State := do
  let x ← readVector s 1 f.d
  let b ← readScalar s 0 f.base
  let mask ← if masked then readA1 s 2 else .ok (BitVec.allOnes 64)
  let seg := segOf s f.sg.toNat
  let o := b + offM f * 256
  let w := vectorWin s seg o mask
  let us := activeUnits w mask
  let n := unitBytes w
  match us with
  | [] => .ok s
  | u :: _ => do
    needAligned s seg (o + BitVec.ofNat 64 (u * n)) (unitAlign w) .store
    let ps ← placeList s seg .store vectorAllow (cutRuns (unitRuns o n us))
    let bs := us.flatMap fun u =>
      unitStore w ((List.range (unitLanes w)).map fun i => (lane x (u * unitLanes w + i)).toNat)
    let t ← sendWrites s ps (bs.map some) (if w = 7 then 4 else 0) false
    .ok { t with core := t.core.count 7 1 }

/-- VLD -/
def execVld (f : FmtM) := issueM f (vld false f)
/-- VST -/
def execVst (f : FmtM) := issueM f (vst false f)
/-- VLDM -/
def execVldm (f : FmtM) := issueM f (vld true f)
/-- VSTM -/
def execVstm (f : FmtM) := issueM f (vst true f)

/-! ### Strided and gathered accesses (R298) -/

/-- An element of a gathered access: its lane, offset and window. -/
structure LaneAccess where
  lane : Nat
  off : Word
  win : Nat

/-- The bytes of an element (R298, R301). -/
def LaneAccess.len (a : LaneAccess) : Nat := winBytes a.win

/-- The regions that strided and gathered accesses may use (R298). -/
def gatherAllow (r : Region) : Bool :=
  match r with
  | .spad _ w => !(sxOfWin w).isSome
  | .mmio => false
  | _ => true

/-- Places the elements one by one; the checks run in ascending offset order (R291, R298). -/
def placeLanes (s : State) (seg : BitVec 16) (k : AccessKind) (allow : Region → Bool) :
    List LaneAccess → Except Stop (List (LaneAccess × List Piece))
  | [] => .ok []
  | a :: l => do
    let ps ← place s seg a.off a.len k allow
    let r ← placeLanes s seg k allow l
    .ok ((a, ps) :: r)

/-- The alignment of an element (R248, R298): that of its window. -/
def LaneAccess.align (a : LaneAccess) : Nat := unitAlign a.win

/-- The elements of the active lanes, checked: alignment of the lowest-numbered lane first, then the others in
ascending offset order (R291, R298, R301). Answers them in ascending lane order. -/
def gather (s : State) (seg : BitVec 16) (off : Nat → Word) (mask : Word) (k : AccessKind)
    (allow : Region → Bool) : Except Stop (List (LaneAccess × List Piece)) :=
  let win := fun (o : Word) => if k = .atomic then 0 else ((regionAt s seg o).map winOf).getD 0
  let act := ((List.range 64).filter fun j => mask.getLsbD j).map fun j => LaneAccess.mk j (off j) (win (off j))
  match act.find? fun a => a.off.toNat % a.align != 0 with
  | some a => trapAccess s .misaligned a.off k seg
  | none => do
    let before := fun (a b : LaneAccess) => a.off.toNat < b.off.toNat || (a.off.toNat == b.off.toNat && a.lane ≤ b.lane)
    let r ← placeLanes s seg k allow (sortBy before act)
    .ok (sortBy (fun (a b : LaneAccess × List Piece) => a.1.lane ≤ b.1.lane) r)

/-- The element offsets of a strided form (R298). -/
def strided (o b : Word) (k : Nat) : Word := o + BitVec.ofNat 64 k * b

/-- The element offsets of a gathered form (R298). -/
def indexed (o : Word) (b : Vec) (k : Nat) : Word := o + (lane b k).signExtend 64

/-- Loads the elements in ascending lane order. -/
def loadLanes (seg : BitVec 16) : State → List (LaneAccess × List Piece) → Except Stop (List (Nat × Nat) × State)
  | s, [] => .ok ([], s)
  | s, (a, ps) :: l => do
    let (bs, t) ← loadPieces s .load seg (a.win = 0) ps
    let (r, u) ← loadLanes seg t l
    .ok ((a.lane, winLoad a.win (natOfBytes bs)) :: r, u)

/-- Stores the elements in ascending lane order (R298). -/
def storeLanes (x : Vec) : State → List (LaneAccess × List Piece) → Except Stop State
  | s, [] => .ok s
  | s, (a, ps) :: l => do
    let bs := bytesOfNat a.len (winStore a.win (lane x a.lane).toNat)
    let t ← sendWrites s ps (bs.map some) (if a.win = 7 then 4 else 0) true
    storeLanes x t l

/-- The common effect of VLDS and VGATH. -/
def gatherLoad (d : BitVec 6) (seg : BitVec 16) (off : Nat → Word) (mask : Word) (s : State) :
    Except Stop State := do
  let l ← gather s seg off mask .load gatherAllow
  if s.answerLater && !s.useL1 && !l.isEmpty then
    match poisonIn s (l.flatMap fun x => x.2) with
    | some o => trapAccess s .memUncorrectable o .load seg
    | none => do
      let ls := l.flatMap fun x => x.2.map fun p => LanePart.mk p [x.1.lane]
      needRoom s (ls.map fun q => homeOf s q.piece.place)
      let win := fun (q : LanePart) => ((l.find? fun x => q.lanes.contains x.1.lane).map fun x => x.1.win).getD 0
      let raw := (l.filter fun x => x.1.win = 0).flatMap fun x => x.2
      let t := sendLanes (countMisses s raw) seg win d ls
      .ok { t with core := t.core.count 6 1 }
  else do
  let (vals, t) ← waitUncounted s (loadLanes seg s l)
  let t := countSent s (l.flatMap fun x => if x.1.win = 0 then lineParts s x.2 else x.2).length t
  .ok (writeVector 0 d (ofLanes fun k => BitVec.ofNat 32 ((assoc vals k).getD 0)) t)

/-- The common effect of VSTS and VSCAT: every lane fits before one is sent. -/
def scatterStore (x : Vec) (seg : BitVec 16) (off : Nat → Word) (mask : Word) (s : State) :
    Except Stop State := do
  let l ← gather s seg off mask .store gatherAllow
  needRoom s (l.flatMap fun x => x.2.map fun p => homeOf s p.place)
  let _ ← addUnacked s l.length
  let t ← storeLanes x s l
  .ok { t with core := t.core.count 7 1 }

/-- VLDS (R298) -/
def vlds (f : FmtA) (s : State) : Except Stop State := do
  needDst s f.d
  let a ← readScalar s 0 f.a
  let b ← readScalar s 1 f.b
  let (seg, o) := segAddr s a
  gatherLoad f.d seg (strided o b) (BitVec.allOnes 64) s

/-- VSTS (R298) -/
def vsts (f : FmtA) (s : State) : Except Stop State := do
  let x ← readVector s 2 f.d
  let a ← readScalar s 0 f.a
  let b ← readScalar s 1 f.b
  let (seg, o) := segAddr s a
  scatterStore x seg (strided o b) (BitVec.allOnes 64) s

/-- VGATH (R298) -/
def vgath (f : FmtA) (s : State) : Except Stop State := do
  needDst s f.d
  let a ← readScalar s 0 f.a
  let b ← readVector s 1 f.b
  let mask ← readA1 s 3
  let (seg, o) := segAddr s a
  gatherLoad f.d seg (indexed o b) mask s

/-- VSCAT (R298) -/
def vscat (f : FmtA) (s : State) : Except Stop State := do
  let x ← readVector s 2 f.d
  let a ← readScalar s 0 f.a
  let b ← readVector s 1 f.b
  let mask ← readA1 s 3
  let (seg, o) := segAddr s a
  scatterStore x seg (indexed o b) mask s

/-- VLDS -/
def execVlds (f : FmtA) := issueA f (vlds f)
/-- VSTS -/
def execVsts (f : FmtA) := issueA f (vsts f)
/-- VGATH -/
def execVgath (f : FmtA) := issueA f (vgath f)
/-- VSCAT -/
def execVscat (f : FmtA) := issueA f (vscat f)

/-! ### Atomics (R300, R301) -/

/-- The access of an atomic of `n` bytes at its home, as one step (R279): its old value and the state after
it. -/
def atomicAt (op : AtomicOp) (n : Nat) (v c : Nat) (seg : BitVec 16) (p : Piece) (s : State) :
    Except Stop (Nat × State) := do
  let p ← settlePiece s .atomic seg p
  let s ← drainPair s (homeOf s p.place)
  let s := l1Drop s p.place.addr
  let old := natOfBytes (s.load p.place.addr n)
  match homeWrite s p.place.cube none p.place.addr
      ((bytesOfNat n (atomicNew op (8 * n) old v c)).map some) 0 with
  | .done t => .ok (old, t)
  | .wait => stall s
  | .busy => trapAccess s .graphBusy p.off .atomic seg
  | .poisoned => trapAccess s .memUncorrectable ((poisonIn s [p]).getD p.off) .atomic seg

/-- Sends an AMO whose reply comes later (R35, R269, R300); it is counted until then (R292). -/
def sendAmo (s : State) (p : Piece) (seg : BitVec 16) (n : Nat) (args : AmoArgs) (d : BitVec 6) : State :=
  let pc := s.curPc
  let s := l1Drop s p.place.addr
  let dst := if d.toNat < 32 then some d.toNat else none
  let g := (s.cube s.myCube).imap.mgen
  let dest : LoadDest := { size := n, signed := false, dst := dst, vec := none }
  let x : Pend := { num := s.numCtr, dst := dst, age := 1, pc := pc, seg := seg, off := p.off, dest := dest
                    amo := some args, failed := false, asid := s.regs.asid, priv := s.priv, undo := some (undoOf s) }
  let s := s.send (.main s.me) s.core.ctx.tid .ordered s.myCube p.place.cube (homeOf s p.place)
    (p.place.ilv.map fun i => (i, g)) (.amo args p.place.addr dest)
  (writeScalar 0 d ((dst.bind fun k => s.regs.g[k]?).getD 0) s).modCtx fun c => { c with pend := c.pend ++ [x] }

/-- AMO (R300). -/
def amo (op : AtomicOp) (n : Nat) (f : FmtM) (s : State) : Except Stop State := do
  needDst s f.d
  let v ← readScalar s 1 f.d
  let b ← readScalar s 0 f.base
  let c ← if op = .cas then readA1 s 2 else .ok 0
  let seg := segOf s f.sg.toNat
  let o := b + offAmo f * BitVec.ofNat 64 n
  needAligned s seg o n .atomic
  let ps ← place s seg o n .atomic atomicRegion
  if f.off.getLsbD 4 then release s else .ok ()
  let counted ← addUnacked s 1
  match ps with
  | [] => .ok s
  | p :: _ =>
    if s.answerLater && !f.off.getLsbD 3 then
      if registered s p.place.cube p.place.addr n then trapAccess s .graphBusy p.off .atomic seg
      else match poisonIn s [p] with
        | some off => trapAccess s .memUncorrectable off .atomic seg
        | none => do
          needRoom s [homeOf s p.place]
          let t := sendAmo counted p seg n ⟨op, v.toNat % 2 ^ (8 * n), c.toNat % 2 ^ (8 * n)⟩ f.d
          .ok { t with core := t.core.count 8 1 }
    else do
    let (old, t) ← atomicAt op n (v.toNat % 2 ^ (8 * n)) (c.toNat % 2 ^ (8 * n)) seg p s
    let t := { t with core := t.core.count 8 1 }
    let t := writeScalar 0 f.d (BitVec.ofNat 64 old) t
    .ok (if f.off.getLsbD 3 then acquire (scopeM f) t else t)

/-- AMOADD_64 -/
def execAmoadd64 (f : FmtM) := issueM f (amo .add 8 f)
/-- AMOAND_64 -/
def execAmoand64 (f : FmtM) := issueM f (amo .and 8 f)
/-- AMOOR_64 -/
def execAmoor64 (f : FmtM) := issueM f (amo .or 8 f)
/-- AMOXOR_64 -/
def execAmoxor64 (f : FmtM) := issueM f (amo .xor 8 f)
/-- AMOMIN_64 -/
def execAmomin64 (f : FmtM) := issueM f (amo .min 8 f)
/-- AMOMAX_64 -/
def execAmomax64 (f : FmtM) := issueM f (amo .max 8 f)
/-- AMOSWAP_64 -/
def execAmoswap64 (f : FmtM) := issueM f (amo .swap 8 f)
/-- AMOCAS_64 -/
def execAmocas64 (f : FmtM) := issueM f (amo .cas 8 f)
/-- AMOADD_32 -/
def execAmoadd32 (f : FmtM) := issueM f (amo .add 4 f)
/-- AMOAND_32 -/
def execAmoand32 (f : FmtM) := issueM f (amo .and 4 f)
/-- AMOOR_32 -/
def execAmoor32 (f : FmtM) := issueM f (amo .or 4 f)
/-- AMOXOR_32 -/
def execAmoxor32 (f : FmtM) := issueM f (amo .xor 4 f)
/-- AMOMIN_32 -/
def execAmomin32 (f : FmtM) := issueM f (amo .min 4 f)
/-- AMOMAX_32 -/
def execAmomax32 (f : FmtM) := issueM f (amo .max 4 f)
/-- AMOSWAP_32 -/
def execAmoswap32 (f : FmtM) := issueM f (amo .swap 4 f)
/-- AMOCAS_32 -/
def execAmocas32 (f : FmtM) := issueM f (amo .cas 4 f)

/-- Sends the lanes of a VAMO in ascending lane order; each drops the core's L1 copy of its atom (R279). -/
def sendAtomics (op : AtomicOp) (x : Vec) : State → List (LaneAccess × List Piece) → State
  | s, [] => s
  | s, (a, ps) :: l =>
    match ps with
    | [] => sendAtomics op x s l
    | p :: _ =>
      let g := (s.cube s.myCube).imap.mgen
      let t := (l1Drop s p.place.addr).send (.main s.me) s.core.ctx.tid .ordered s.myCube p.place.cube
        (homeOf s p.place) (p.place.ilv.map fun i => (i, g)) (.atomic op p.place.addr (lane x a.lane) a.off)
      sendAtomics op x t l

/-- VAMO (R301). A lane that names a launched graph table traps GRAPH_BUSY (R357), one on a poisoned atom MEM_UNCORRECTABLE
(R235), before any lane is sent. -/
def vamo (op : AtomicOp) (f : FmtA) (s : State) : Except Stop State := do
  let x ← readVector s 2 f.d
  let a ← readScalar s 0 f.a
  let b ← readVector s 1 f.b
  let mask ← readA1 s 3
  let (seg, o) := segAddr s a
  let l ← gather s seg (indexed o b) mask .atomic atomicRegion
  match l.find? fun x => x.2.any fun p => registered s p.place.cube p.place.addr 4 with
  | some x => trapAccess s .graphBusy x.1.off .atomic seg
  | none => match poisonIn s ((sortBy (fun (a b : LaneAccess × List Piece) => a.1.off.toNat ≤ b.1.off.toNat) l).flatMap Prod.snd) with
    | some o => trapAccess s .memUncorrectable o .atomic seg
    | none => do
      needRoom s (l.flatMap fun x => x.2.map fun p => homeOf s p.place)
      let t ← addUnacked s l.length
      let t := { t with core := t.core.count 8 l.length }
      .ok (sendAtomics op x t l)

/-- VAMO_ADD -/
def execVamoAdd (f : FmtA) := issueA f (vamo .add f)
/-- VAMO_AND -/
def execVamoAnd (f : FmtA) := issueA f (vamo .and f)
/-- VAMO_OR -/
def execVamoOr (f : FmtA) := issueA f (vamo .or f)
/-- VAMO_XOR -/
def execVamoXor (f : FmtA) := issueA f (vamo .xor f)
/-- VAMO_MIN -/
def execVamoMin (f : FmtA) := issueA f (vamo .min f)
/-- VAMO_MAX -/
def execVamoMax (f : FmtA) := issueA f (vamo .max f)
/-- VAMO_FADD -/
def execVamoFadd (f : FmtA) := issueA f (vamo .fadd f)

/-! ### Prefetch (R302) -/

/-- PREF (R302): the line is filled where the L1 may hold it; nothing architected changes. -/
def pref (f : FmtM) (s : State) : Except Stop State := do
  needUnused s f.d
  let b ← readScalar s 0 f.base
  let o := b + offM f * 32
  match placeOf s s.requester (segOf s f.sg.toNat) o .load fun _ => true with
  | .error _ => .ok s
  | .ok p => .ok (if cacheable s p then l1Fill s p.addr else s)

/-- PREF -/
def execPref (f : FmtM) := issueM f (pref f)

/-! ### Range maps (R284, R303, R304) -/

/-- A request with another address. -/
def Body.withAddr (b : Body) (x : Nat) : Body :=
  match b with
  | .read _ w d => .read x w d
  | .copyRead _ l i p => .copyRead x l i p
  | .write _ bs add off => .write x bs add off
  | .atomic op _ v off => .atomic op x v off
  | .amo g _ d => .amo g x d
  | .once fn _ g p => .once fn x g p
  | .ownRequest _ i p => .ownRequest x i p
  | .ownRelease _ i => .ownRelease x i
  | .multicast _ bs i p => .multicast x bs i p
  | b => b

/-- Changes the destinations that the copy engines of a core hold. -/
def Core.mapDests (k : Core) (f : Nat → Nat) : Core :=
  let g := fun (x : Entry) => match x.work with
    | .copy c => { x with work := .copy { c with atoms := c.atoms.map fun a => { a with dst := f a.dst } } }
    | _ => x
  { k with ctx := { k.ctx with cq := k.ctx.cq.map g }, dq := k.dq.map g }

/-- Moves every address of a range: requests in flight are redirected in the ORDERED class (R265), the destinations that
copy engines have asked for and poison follow the bytes (R284). -/
def redirect (s : State) (from_ dest n : Nat) : State :=
  let mv := fun (a : Nat) => if from_ ≤ a && a < from_ + n then dest + (a - from_) else a
  let move := fun (f : Flight) => match f.body.addr with
    | some a =>
      if mv a = a || !f.members.isEmpty then f
      else { f with body := f.body.withAddr (mv a), cls := if f.cls = .reply then .reply else .ordered }
    | none => match f.body with
      | .grant a i p => { f with body := .grant (mv a) i p }
      | .copied a i p r => { f with body := .copied (mv a) i p r }
      | _ => f
  { s with
    flights := s.flights.map move
    kept := s.kept.map fun k => { k with request := move k.request }
    core := s.core.mapDests mv
    cores := s.cores.map fun p => (p.1, p.2.mapDests mv)
    poison := (s.poison.filter fun a => !(dest ≤ a && a < dest + n)).map mv }

/-- The homes of requests after a switch: those in flight, and those whose replies are kept (R382). -/
def rehome (s : State) : State :=
  let f := fun (f : Flight) => match f.body.addr with
    | some a =>
      if f.members.isEmpty && (a % 2 ^ 47 < 2 ^ 38 || (spadOf a).isSome) then
        { f with home := homeOf s ⟨.dram, f.cube, a, none, false⟩ }
      else f
    | none => f
  { s with
    flights := s.flights.map fun x => if x.cls == .reply then x else f x
    kept := s.kept.map fun k => { k with request := f k.request } }

/-- Copies bytes from one storage address to another. -/
def moveBytes (s : State) (from_ dest n : Nat) : State :=
  let bs := s.load from_ n
  markLines { s with mem := memSetList s.mem dest bs } dest n

/-- Whether a copy engine owns, or has asked for, no atom of a range (R304). -/
def notOwned (s : State) (cube a n : Nat) : Bool := !((s.cube cube).owned.any fun o => meets a n o.1 32)

/-- Whether a kernel that runs streams a range of a cube, until it finishes or stops (R343). -/
def streamed (s : State) (cube a n : Nat) : Bool :=
  (s.cube cube).flues.toList.any fun f => f.st == .running && f.spans.any fun u => meets a n u.1 u.2

/-- Whether the runs of a range stand one after another in the DRAM of a cube, outside every other memory. -/
def contiguousDram (s : State) (cube base : Nat) : Nat → List Piece → Bool
  | _, [] => true
  | k, p :: ps => p.place.region = .dram && p.place.cube = cube && logicalAddr s p.place.addr = base + k &&
      contiguousDram s cube base (k + p.len) ps

/-- The switch of MAPR (R284): the DRAM homes' bytes go to the scratchpad rows, the map is entered. -/
def mapSwitch (s : State) (m : RangeMap) : State :=
  let dest := spadAddr s.me (4096 * m.spo)
  let n := 4096 * m.units
  let s := l1DropAll (l1DropAll s m.base n) dest n
  let s := moveBytes s m.base dest n
  let s := { s with core := { s.core with maps := s.core.maps ++ [m] } }
  rehome (redirect s m.base dest n)

/-- The reverse switch of UNMAPR (R284): the values are written back, the DRAM homes resume. -/
def unmapSwitch (s : State) (core : Nat) (m : RangeMap) : State :=
  let from_ := spadAddr core (4096 * m.spo)
  let n := 4096 * m.units
  let s := l1DropAll (l1DropAll s m.base n) from_ n
  let s := { s with mem := memSetList s.mem m.base (s.load from_ n) }
  let s := s.modCore core fun k => { k with maps := k.maps.filter fun x => x.index != m.index }
  rehome (redirect s from_ m.base n)

/-- The lowest range-map entry of the core that holds no map (R406). -/
def freeMap (c : Core) : Option Nat := (List.range 8).find? fun i => !c.maps.any fun m => m.index == i

/-- MAPR (R303). The range must stand contiguously in one page of the own cube's DRAM. The switch waits for atoms that a
copy engine owns (R304) and for kernels that stream the range (R343); no interrupt is taken then (R303). Every trap but
those of the translation reports A (log entries 25 and 26). -/
def mapr (f : FmtM) (s : State) : Except Stop State := do
  let d ← readScalar s 1 f.d
  let b ← readScalar s 0 f.base
  let a := b + offM f * 32
  let seg := segOf s f.sg.toNat
  let spo := field d 12 7
  let units := field d 24 7 + 1
  if a.toNat % 4096 ≠ 0 then trapAccess s .misaligned a .none seg
  else if 2 ^ 19 < 4096 * (spo + units) then trapAccess s .addressRange a .none seg
  else do
    let ps ← place s seg a (4096 * units) .once fun r => r = .dram
    match ps with
    | [] => .ok s
    | p :: _ =>
      let base := logicalAddr s p.place.addr
      let inPage := match walk s s.regs.asid seg a.toNat with
        | .ok (e, size) => !e.getLsbD 5 && a.toNat % size + 4096 * units ≤ size
        | .error _ => false
      if !inPage || !contiguousDram s s.myCube base 0 ps then trapAccess s .pageProtect a .once seg
      else
        let n := 4096 * units
        let clash := (List.range 256).any fun k =>
          (s.getCore (s.myCube * 256 + k)).maps.any fun m => meets base n m.base (4096 * m.units)
        let rows := s.core.maps.any fun m => meets spo units m.spo m.units
        match freeMap s.core with
        | none => trapAccess s .mapConflict a .none seg
        | some i =>
          if clash || rows then trapAccess s .mapConflict a .none seg
          else if !notOwned s s.myCube base n || streamed s s.myCube base n then
            .error (.wait (s.modCtx fun c => { c with wait := .mapping }))
          else .ok (mapSwitch s { index := i, spo := spo, units := units, fresh := true, base := base,
                                  gang := s.core.ctx.gang })

/-- MAPR -/
def execMapr (f : FmtM) := issueM f (mapr f)

/-- UNMAPR (R304). -/
def unmapr (f : FmtM) (s : State) : Except Stop State := do
  needUnused s f.d
  let b ← readScalar s 0 f.base
  let a := b + offM f * 32
  let seg := segOf s f.sg.toNat
  let ps ← place s seg a 1 .none fun _ => true
  match ps with
  | [] => .ok s
  | p :: _ =>
    let base := logicalAddr s p.place.addr
    match if p.place.region = .dram then s.core.maps.find? (fun m => m.base == base) else none with
    | none => .ok s
    | some m =>
      if notOwned s s.myCube (spadAddr s.me (4096 * m.spo)) (4096 * m.units) then .ok (unmapSwitch s s.me m)
      else stall s

/-- UNMAPR -/
def execUnmapr (f : FmtM) := issueM f (unmapr f)

end Sys2Proof.Machine
end

