-- ==== Sys2Proof/Machine/Groups.lean ====
section
/-! DEFINITION. Groups, their barriers and pending-byte counters (R426-R433), the removal of members
(R23, R435), and the capture of gang checkpoints (R225-R227, R448). -/

namespace Sys2Proof.Machine

open Sys2Proof

/-! ### Where groups stand -/

/-- The cube in whose record a group stands: its own for a cube-scope group; the domain's network groups
stand in the record of cube 0, which stands for the router tables of every cube (R384, R426). -/
def groupStore (cube n : Nat) : Nat := if 4096 ≤ n then 0 else cube

/-- The bound group of a number (R427). -/
def State.group (s : State) (cube n : Nat) : Option Group :=
  (s.cube (groupStore cube n)).groups.find? fun g => g.num == n

/-- Writes a bound group. -/
def State.setGroup (s : State) (cube : Nat) (g : Group) : State :=
  s.modCube (groupStore cube g.num) fun q => { q with groups :=
    (q.groups.filter fun x => x.num < g.num) ++ g :: q.groups.filter fun x => g.num < x.num }

/-- Frees a group (R427). -/
def State.freeGroup (s : State) (cube n : Nat) : State :=
  s.modCube (groupStore cube n) fun q => { q with groups := q.groups.filter fun x => x.num != n }

/-- The scope code of a group: cube or domain (R426, R433). -/
def groupScope (n : Nat) : Nat := if 4096 ≤ n then 3 else 2

/-- The thread's gang, while it lasts. -/
def State.myGang (s : State) : Option Gang :=
  match s.core.ctx.gang with
  | some id => (s.cube s.myCube).gangs.find? fun g => g.id == id
  | none => none

/-- The group that a group operand names: none for a reserved bit, a number 65-4095, or the alias 64 of a
thread with no launch group (R426, R435). -/
def groupNum (s : State) (x : Word) : Option Nat :=
  let n := x.toNat
  if n < 64 then some n
  else if n = 64 then s.myGang.map Gang.group
  else if 4096 ≤ n && n < 8192 then some n
  else none

/-- A thread's membership in a group. -/
def Group.member (g : Group) (tid : Nat) : Option Member := g.members.find? fun m => m.tid == tid

/-- Every group a thread belongs to: its cube's and the network groups. -/
def groupsOf (s : State) (cube tid : Nat) : List Group :=
  ((s.cube cube).groups.filter fun g => g.num < 4096 && (g.member tid).isSome) ++
  ((s.cube 0).groups.filter fun g => 4096 ≤ g.num && (g.member tid).isSome)

/-- A cube's part of the pending-byte counter (R431). -/
def Group.pending (g : Group) (cube : Nat) : BitVec 48 := (assoc g.pend cube).getD 0

/-- Adds to a cube's part of the pending-byte counter (R431); a part of zero is not listed. -/
def Group.addPending (g : Group) (cube : Nat) (x : BitVec 48) : Group :=
  let v := g.pending cube + x
  { g with pend := if v = 0 then assocErase g.pend cube else assocSet g.pend cube v }

/-- The open phase as the members on a cube see it: a release travels to a cube of a network group (R432). -/
def Group.phaseAt (g : Group) (cube : Nat) : BitVec 16 := (assoc g.lag cube).getD g.phase

/-- The cubes that have a member. -/
def Group.cubes (g : Group) : List Nat := (g.members.map fun m => m.core / 256).foldl insertNat []

/-- Whether every member on a cube has arrived in the open phase (R432). -/
def Group.arrivedAt (g : Group) (cube : Nat) : Bool :=
  g.members.all fun m => m.core / 256 != cube || m.arrived == some (g.phaseAt cube)

/-! ### Threads -/

/-- The core that a thread's context is on, with the context; SAVED and travelling contexts count with the
core they were last on. -/
def State.thread (s : State) (tid : Nat) : Option (Nat × Ctx) :=
  let here := fun (id : Nat) (k : Core) =>
    if k.ctx.tid = tid && k.ctx.present then some (id, k.ctx)
    else (k.runList.find? fun c => c.tid == tid).map fun c => (id, c)
  match here s.me s.core with
  | some r => some r
  | none =>
    match s.cores.findSome? fun p => here p.1 p.2 with
    | some r => some r
    | none => s.cubes.findSome? fun p =>
        (p.2.stove.saved.find? fun v => v.ctx.tid == tid).map fun v => (v.core, v.ctx)

/-- The gang with an id, and its cube. -/
def findGang (s : State) (id : Nat) : Option (Nat × Gang) :=
  s.cubes.findSome? fun p => (p.2.gangs.find? fun g => g.id == id).map fun g => (p.1, g)

/-- Whether a thread, or a member of its gang, is named by a rollback that is still due (R229 step 1). -/
def rollbackDue (s : State) (c : Ctx) : Bool :=
  let named := s.cubes.flatMap fun p => p.2.rollbacks
  !named.isEmpty && (named.contains c.tid || (match c.gang.bind (findGang s) with
    | some (_, g) => g.members.any fun m => named.contains m.2.1
    | none => false))

/-- Whether the gang of a thread is held until every member is resident again (R37). -/
def gangHeld (s : State) (c : Ctx) : Bool :=
  match c.gang.bind (findGang s) with
  | none => false
  | some (_, g) => g.held && g.members.any fun m => !g.halted.contains m.1 && (match s.thread m.2.1 with
      | some (_, x) => !x.live || x.pending.contains .preempt
      | none => false)

/-- Whether a core's thread may run at all: it is on its core and takes no trap, unless an instruction of it has its
answer and completes before the image is taken (R220, R315), its core is in service, its cube is neither clamped nor
tripped (R456), and no rollback of it is due (R229). -/
def mayRun (s : State) (core : Nat) : Bool :=
  let k := s.getCore core
  let q := s.cube (core / 256)
  k.ctx.live && (k.ctx.trap.isNone || (k.ctx.asked.bind Prod.snd).isSome) && !k.lost && !q.clamped && !q.tripped && !rollbackDue s k.ctx

/-- Whether the engines of a core's thread may start work: it runs, it is asked for no stop, for which it would drain
(R207, R218, R220), and its gang is not held (R37). -/
def enginesMay (s : State) (core : Nat) : Bool :=
  let c := (s.getCore core).ctx
  mayRun s core && c.trap.isNone && c.pending.isEmpty && !gangHeld s c

/-! ### Checkpoints (R225-R227) -/

/-- The area of checkpoint n: A when n is odd, B when it is even (R225). -/
def areaIsA (n : Nat) : Bool := n % 2 = 1

/-- The cells of a core's scratchpad, by offset. -/
def spadCells (s : State) (core : Nat) : List Host.Cell :=
  let base := spadAddr core 0
  (s.mem.filter fun p => base ≤ p.1 && p.1 < base + 2 ^ 19).map fun p => (p.1 - base, p.2)

/-- Replaces the cells of some lines by those of another scratchpad image. -/
def mergeLines (old new : List Host.Cell) (lines : List Nat) : List Host.Cell :=
  let inL := fun (p : Host.Cell) => lines.contains (p.1 / 1024)
  sortBy (fun a b => a.1 ≤ b.1) ((old.filter fun p => !inL p) ++ new.filter inL)

/-- The newest committed checkpoint of a gang (R227). -/
def Gang.last (g : Gang) : Option Checkpoint :=
  match g.areaA, g.areaB with
  | some a, some b =>
    if a.committed && b.committed then (if a.n < b.n then some b else some a)
    else if a.committed then some a else if b.committed then some b else none
  | some a, none => if a.committed then some a else none
  | none, some b => if b.committed then some b else none
  | none, none => none

/-- The number of the newest captured checkpoint. -/
def Gang.newest (g : Gang) : Nat := max ((g.areaA.map Checkpoint.n).getD 0) ((g.areaB.map Checkpoint.n).getD 0)

/-- Whether every captured checkpoint has committed. -/
def Gang.allCommitted (g : Gang) : Bool :=
  (g.areaA.all Checkpoint.committed) && g.areaB.all Checkpoint.committed

/-- A context as a checkpoint holds it: an ARRW or WAITB of the released group counts as completed (R448). -/
def captured (group : Nat) (c : Ctx) : Ctx :=
  if c.wait != .none && c.waitGroup == some group then
    { c.awake with
      regs := { c.regs with pc := c.regs.pc + 4, tsw := tswSet c.regs.tsw 2 false } }
  else c

/-- The bytes of a checkpoint area as a checkpoint leaves them (R227, R232): 1 MiB for each core of the rectangle (R348 step
4). What the restore reads is the structured checkpoint; how it is laid out is the firmware's own (R223, log entry 23). -/
def writeArea (s : State) (g : Gang) (a : Bool) : State :=
  let n := g.rows * g.cols * 2 ^ 20
  let base := if a then g.cka else g.ckb
  { s with
    mem := memSetList s.mem base ((List.range n).map fun k => Config.areaByte (s.freeCtr + k))
    poison := s.poison.filter fun x => !(base ≤ x && x < base + n)
    freeCtr := s.freeCtr + n }

/-- Checkpoints of a gang commit (R227): every part of them is written. The maps that they hold are older than the last
checkpoint now (R406). -/
def commitCkpts (s : State) (cube : Nat) (g : Gang) : State :=
  let new := (g.areaA.toList.map fun c => (true, c)) ++ g.areaB.toList.map fun c => (false, c)
  let due := new.filter fun c => !c.2.committed
  let old := due.flatMap fun c => c.2.maps
  let s := due.foldl (fun t c => writeArea t g c.1) s
  let f := fun (c : Checkpoint) => { c with committed := true }
  let s := s.modCube cube fun q => { q with gangs := q.gangs.map fun x =>
    if x.id = g.id then { x with areaA := x.areaA.map f, areaB := x.areaB.map f } else x }
  (old.map Prod.fst).foldl (fun t core => t.modCore core fun k => { k with
    maps := k.maps.map fun m => if old.contains (core, m.index) then { m with fresh := false } else m }) s

/-- Captures checkpoint n of a gang with its launch group as released (R226, R227): contexts whole, the lines
dirty for the area, whose dirty bits clear. -/
def captureCkpt (s : State) (cube : Nat) (g : Gang) (n : Nat) (grp : Group) : State :=
  let a := areaIsA n
  let old := if a then g.areaA else g.areaB
  let one := fun (m : Nat × Nat × Nat) =>
    let k := s.getCore m.2.2
    let lines := if a then k.dirtyA else k.dirtyB
    let prev := match old with
      | some c => (assoc c.spads m.1).getD []
      | none => []
    (m.1, mergeLines prev (spadCells s m.2.2) lines)
  let ctxs := g.members.filterMap fun m => (s.thread m.2.1).map fun c => (m.1, captured grp.num c.2)
  let chains := g.members.map fun m => (m.1, (s.getCore m.2.2).chain)
  let ck : Checkpoint :=
    { n := n, ctxs := ctxs, chains := chains, spads := g.members.map one, group := grp, committed := false
      maps := g.members.flatMap fun m => (s.getCore m.2.2).maps.map fun x => (m.2.2, x.index) }
  let g' := if a then { g with areaA := some ck } else { g with areaB := some ck }
  let s := s.modCube cube fun q => { q with gangs := q.gangs.map fun x => if x.id = g.id then g' else x }
  g.members.foldl (fun t m => t.modCore m.2.2 fun k => { k with
    dirtyA := if a then [] else k.dirtyA
    dirtyB := if a then k.dirtyB else [] }) s

/-! ### Releases -/

/-- The gang whose launch group a group is. -/
def launchGang (s : State) (cube : Nat) (g : Group) : Option Gang :=
  match g.launch with
  | some id => (s.cube cube).gangs.find? fun x => x.id == id
  | none => none

/-- Whether a release must wait for a checkpoint: the previous one has not committed (R227), or a member
awaits a load reply that the capture would miss. -/
def ckptHolds (s : State) (gang : Gang) : Bool :=
  gang.ckpt && (!gang.allCommitted || gang.members.any fun m => match s.thread m.2.1 with
    | some (_, c) => !c.pend.isEmpty
    | none => false)

/-- Releases the open phase of a cube-scope barrier when its conditions hold (R430). -/
def tryRelease (s : State) (cube n : Nat) : State :=
  match s.group cube n with
  | none => s
  | some g =>
    let ready := !g.members.isEmpty && (g.members.all fun m => m.arrived == some g.phase) && g.pending cube == 0
    if !ready then s
    else
      let g' := { g with phase := g.phase + 1 }
      match launchGang s cube g with
      | none => s.setGroup cube g'
      | some gang =>
        if ckptHolds s gang then s
        else
          let t := s.setGroup cube g'
          if gang.ckpt then captureCkpt t cube gang (gang.newest + 1) g' else t

/-- Sends the contributions that a network group's cubes owe for the open phase (R432). -/
def sendContributions (s : State) (n : Nat) : State :=
  match s.group 0 n with
  | none => s
  | some g =>
    let due := g.cubes.filter fun c => !g.sent.contains c && (assoc g.lag c).isNone && g.arrivedAt c &&
      g.pending c == 0
    let s := s.setGroup 0 { g with sent := due.foldl insertNat g.sent }
    due.foldl (fun t c => t.send (.dispatcher c) 0 .reduce c g.home (256 * g.home) none (.barrier n g.phase)) s

/-- The home of a network group releases its open phase when it holds a contribution from every cube that has
a member, and multicasts the release (R432). -/
def tryNetRelease (s : State) (n : Nat) : State :=
  match s.group 0 n with
  | none => s
  | some g =>
    let cs := g.cubes
    if cs.isEmpty || !(cs.all fun c => g.got.contains c) then s
    else
      let s := s.setGroup 0 { g with
        phase := g.phase + 1, sent := [], got := []
        lag := cs.map fun c => (c, g.phase) }
      s.multicast (.dispatcher g.home) 0 .ordered g.home n (cs.map fun c => 256 * c) (.release n (g.phase + 1))

/-- What follows a change of a barrier: a release or contributions that are now due. -/
def settle (s : State) (cube n : Nat) : State :=
  if 4096 ≤ n then tryNetRelease (sendContributions s n) n else tryRelease s cube n

/-- One step of a pending-byte counter, in arrival order at the barrier (R431). -/
def stepPending (s : State) (cube n : Nat) (x : BitVec 48) : State :=
  match s.group cube n with
  | none => s
  | some g => settle (s.setGroup cube (g.addPending cube x)) cube n

/-- A member arrives in the open phase (R437). -/
def arriveAt (s : State) (cube n tid : Nat) : State :=
  match s.group cube n with
  | none => s
  | some g =>
    let f := fun (m : Member) => if m.tid = tid then { m with arrived := some (g.phaseAt cube) } else m
    settle (s.setGroup cube { g with members := g.members.map f }) cube n

/-- Removes a member with its arrival; a group other than a launch group that loses its last member is
dissolved (R427, R435). -/
def removeMember (s : State) (cube n tid : Nat) : State :=
  match s.group cube n with
  | none => s
  | some g =>
    let g' := { g with members := g.members.filter fun m => m.tid != tid }
    if g'.members.isEmpty && g'.launch.isNone then s.freeGroup cube n
    else settle (s.setGroup cube g') cube n

end Sys2Proof.Machine
end

