-- ==== Sys2Proof/Machine/Engines.lean ====
section
/-! DEFINITION. What the three engines share: their queues (R189, R360), dependency slots (R190, R440), the
delivery of recorded faults (R191, R212). -/

namespace Sys2Proof.Machine

open Sys2Proof

/-- The depth of an engine queue (R360). -/
def queueDepth : Sequencer → Nat
  | .main => 0
  | .matrix | .copy => 16
  | .flue => 8

/-- A flue entry that its flues have accepted: it has left the queue, but an FSTART stays counted (R332,
R335). -/
def Entry.accepted (x : Entry) : Bool :=
  match x.work with
  | .flue _ _ _ sent => sent
  | _ => false

/-- The entries in the queue of one of the core's engines: the thread's, and the dispatcher's in the copy
queue (R360). -/
def queueLen (c : Core) (e : Sequencer) : Nat :=
  ((c.ctx.queue e).filter fun x => !x.accepted).length + match e with
    | .copy => c.dq.length
    | _ => 0

/-- The count of a dependency slot (R440). -/
def Ctx.slotCount (c : Ctx) (k : Nat) : Nat := (c.counted.filter fun x => x.slot == k).length

/-- Whether a slot is marked faulted. -/
def Ctx.marked (c : Ctx) (k : Nat) : Bool := c.marks.any fun m => m.slot == k

/-- Whether no instruction issued before `id` is counted against a slot of a mask (R190). -/
def Ctx.slotsClear (c : Ctx) (mask : Nat) (id : Nat) : Bool :=
  c.counted.all fun x => !(mask.testBit x.slot && x.id < id)

/-- Route S codes (R210). -/
def routeS (c : TrapCode) : Bool :=
  match c with
  | .addressRange | .pageAbsent | .pageProtect | .peerLost | .memUncorrectable => true
  | _ => false

/-- A command that enters the queue of a stopped copy engine: kept for the resumption where the recorded fault is of route S
(R309), else dropped. -/
def Ctx.keep (c : Ctx) (e : Sequencer) (x : Entry) : Ctx :=
  match e, c.copy.fault with
  | .copy, some t => if routeS t.code then { c with kept := c.kept ++ [x] } else c
  | _, _ => c

/-- An instruction enters an engine's queue and is counted (R189, R190). It stalls while the queue is full or
the slot's count cannot grow (R440); an engine that is stopped discards it (R191), but a copy engine stopped by a fault
of route S keeps it behind what it has discarded (R309). -/
def enqueue (e : Sequencer) (w : Work) (slot : Nat) (wait : BitVec 8) (s : State) : Except Stop State :=
  let c := s.core.ctx
  if queueDepth e ≤ queueLen s.core e || 255 ≤ c.slotCount slot then stall s
  else
    let x : Entry := { id := s.numCtr, work := w, pc := s.curPc, own := s.seqr != .main, slot := slot, wait := wait,
                       asid := c.regs.asid, seg := c.regs.seg.toList, priv := s.priv, origin := none }
    let s := { s with numCtr := s.numCtr + 1 }
    if (c.engine e).stopped then .ok (s.modCtx fun c => (c.mark slot e).keep e x)
    else .ok (s.modCtx fun c => { c.setQueue e (c.queue e ++ [x]) with counted := c.counted ++ [⟨slot, x.id⟩] })

/-- The recorded faults that an instruction may receive, in the order of R212: the matrix, the copy and the
flue-request engine's, then a DIVERGED (R422). `slots` are the slots it waits on, `named` the engines it
names. -/
def dueFault (c : Ctx) (slots : Nat) (named : List Sequencer) : Option (Sequencer × TrapReport) :=
  let by_ := fun (e : Sequencer) => named.contains e || c.marks.any fun m => m.by_ == e && slots.testBit m.slot
  let eng := fun (e : Sequencer) => if by_ e then ((c.engine e).fault).map fun t => (e, t) else none
  match eng .matrix with
  | some r => some r
  | none => match eng .copy with
    | some r => some r
    | none => match eng .flue with
      | some r => some r
      | none => (c.diverged.find? fun d => slots.testBit d.1 || named.contains .main).map fun d => (.main, d.2)

/-- The delivery of a fault clears its engine's stopped state, its record and the marks it made (R191); that of a DIVERGED
clears that record alone: others stay, with the marks of their slots (R212, R422). -/
def clearFault (c : Ctx) (e : Sequencer) (t : TrapReport) : Ctx :=
  match e with
  | .main =>
    let rest := c.diverged.eraseP fun d => d.2 == t
    { c with
      diverged := rest
      marks := c.marks.filter fun m => m.by_ != .main || rest.any fun d => d.1 == m.slot }
  | e => { c.modEngine e fun g => { g with stopped := false, fault := none } with
      marks := c.marks.filter fun m => m.by_ != e }

/-- An instruction of the main sequencer that waits on slots, or names engines, traps with a recorded fault
and performs nothing (R191, R212). -/
def deliver (slots : Nat) (named : List Sequencer) (s : State) : Except Stop Unit :=
  match s.seqr with
  | .main =>
    match dueFault s.core.ctx slots named with
    | none => .ok ()
    | some (e, t) =>
      .error (.trap { t with pc := s.curPc, source := e.num } (s.modCtx fun c => clearFault c e t))
  | _ => .ok ()

/-- An entry leaves an engine's queue. -/
def Ctx.dropEntry (c : Ctx) (e : Sequencer) (id : Nat) : Ctx :=
  c.setQueue e ((c.queue e).filter fun x => x.id != id)

/-- An entry completes: it leaves its queue and ceases to be counted (R190). -/
def Ctx.completeEntry (c : Ctx) (e : Sequencer) (id : Nat) : Ctx := (c.dropEntry e id).uncount id

/-- Changes an entry of an engine's queue. -/
def Ctx.modEntry (c : Ctx) (e : Sequencer) (id : Nat) (f : Entry → Entry) : Ctx :=
  c.setQueue e ((c.queue e).map fun x => if x.id = id then f x else x)

/-- The engine's head entry faults (R191): it is discarded, the fault is recorded, the engine stops. -/
def entryFault (c : Ctx) (e : Sequencer) (x : Entry) (t : TrapReport) : Ctx :=
  ((c.dropEntry e x.id).discard e x).engineFault e { t with pc := x.pc, epc := x.pc, source := e.num }
    (if x.own then some x.pc else none) none

/-- An entry as a requester (R104): what travels with its accesses. -/
def Entry.requester (x : Entry) (core : Nat) : Requester := ⟨x.asid, x.priv, some core⟩

/-- A fault report of an entry. -/
def Entry.report (x : Entry) (code : TrapCode) (addr : Word) (kind : AccessKind) (seg : BitVec 16) : TrapReport :=
  { code := code, pc := x.pc, addr := addr, epc := x.pc, source := 0, kind := kind, seg := seg, staleGen := false }

/-- A fault report of an entry for a refused byte. -/
def Entry.refusal (x : Entry) (e : Refused) (kind : AccessKind) (seg : BitVec 16) : TrapReport :=
  { x.report e.code e.off kind seg with staleGen := e.stale }

/-- Whether a request of an engine of a core, for a thread, is in flight (R280). -/
def engineBusy (s : State) (core : Nat) (e : Sequencer) (tid : Nat) : Bool :=
  s.flights.any fun f => f.tid == tid && f.src == .engine core e && f.cls != .reply

/-! ### Messages and notifications (R349, R361) -/

/-- Sends a message to a core of a cube (R361). -/
def sendMsg (s : State) (src : Agent) (tid from_ cube core : Nat) (m : Msg) : State :=
  s.send src tid .ordered from_ cube (cube * 256 + core) none (.message (cube * 256 + core) m)

/-- A notification (R349): status, failing node and number of completed nodes, to a core and cube with a tag. -/
def notify (s : State) (from_ core cube : Nat) (tag : BitVec 32) (status : BitVec 16) (node count : Nat) : State :=
  if 640 ≤ cube then s
  else sendMsg s (.dispatcher from_) 0 from_ cube core
    { tag := tag, score := 0, scube := from_, sys := true
      payload := bytesOfNat 8 (status.toNat + node % 2 ^ 16 * 2 ^ 16 + count % 2 ^ 16 * 2 ^ 32) }

/-- Status codes (R210). -/
def statusOk : BitVec 16 := 0
def statusGangLost : BitVec 16 := 0x60
def statusFaulted : BitVec 16 := 0x61
def statusStale : BitVec 16 := 0x25
def statusDiverged : BitVec 16 := 0x50

/-- Work of the dispatcher ends (R349, R358): a packet's with its notification, a node's with a completion for
the walker. -/
def reportDone (s : State) (cube : Nat) (o : Option WorkOrigin) (status : BitVec 16) : State :=
  match o with
  | none => s
  | some (.packet nv core c tag) =>
    if nv then notify s cube core c tag status 0xFFFF (if status = statusOk then 1 else 0) else s
  | some (.node slot idx) => s.modCube cube fun q => { q with done := q.done ++ [⟨.node slot idx, status⟩] }

/-- Work that the dispatcher of some cube has given out ends: that cube reports it (R15, R354). -/
def reportFrom (s : State) (o : Option (Nat × WorkOrigin)) (status : BitVec 16) : State :=
  match o with
  | none => s
  | some (cube, w) => reportDone s cube (some w) status

end Sys2Proof.Machine
end

