-- ==== Sys2Proof/Machine/Copy.lean ====
section
/-! DEFINITION. The copy instructions and the copy engine (R281-R283, R306-R309): starts, ownership, source
reads, atom writes, faults and completion. -/

namespace Sys2Proof.Machine

open Sys2Proof

/-! ### Issue (R306) -/

/-- The command that the four words of a copy descriptor give, its segments as `at_` names them (R306). -/
def copyIn (form : CopyForm) (at_ : Word → BitVec 16 × Word) (g0 g1 g2 g3 : Word) : CopyCmd :=
  let (ss, so) := at_ g0
  let (ds, d) := at_ g1
  { form := form
    src := if form = .cpyf then g0 else so
    srcSeg := ss
    dst := if form = .cpym then g1 &&& 0x3FFFFF else d
    dstSeg := if form = .cpym then 0xFFFF else ds
    len := field g2 0 40
    pb := g3.getLsbD 11
    grp := field g3 12 13
    started := false
    pos := 0
    fault := none
    targets := []
    atoms := []
    done := [] }

/-- The command that a copy descriptor g_j .. g_(j+3) gives (R306). -/
def copyOf (form : CopyForm) (s : State) (g0 g1 g2 g3 : Word) : CopyCmd := copyIn form (segAddr s) g0 g1 g2 g3

/-- The alias 64 is resolved when the instruction issues (R426). -/
def copyGroup (s : State) (n : Nat) : Nat :=
  if n = 64 then (s.myGang.map Gang.group).getD 64 else n

/-- CPY, CPYM and CPYF (R306, R307): the command enters the copy queue. -/
def cpyForm (form : CopyForm) (f : FmtA) (s : State) : Except Stop State := do
  needUnused s f.d
  needUnused s f.b
  let j := f.a.toNat
  if 28 < j then trapHere s .illegalOperand
  else do
    let g0 ← readG s 0 j
    let g1 ← readG s 1 (j + 1)
    let g2 ← readG s 2 (j + 2)
    let g3 ← readG s 3 (j + 3)
    deliver (field g3 3 8) [] s
    let c := copyOf form s g0 g1 g2 g3
    enqueue .copy (.copy { c with grp := copyGroup s c.grp }) (field g3 0 3) (BitVec.ofNat 8 (field g3 3 8)) s

/-- CPY -/
def execCpy (f : FmtA) := issueA f (cpyForm .cpy f)
/-- CPYM -/
def execCpym (f : FmtA) := issueA f (cpyForm .cpym f)
/-- CPYF -/
def execCpyf (f : FmtA) := issueA f (cpyForm .cpyf f)

/-! ### The queue of a core: the thread's commands and the dispatcher's (R360) -/

/-- Whether an entry is the dispatcher's. -/
def isNode (c : Core) (id : Nat) : Bool := c.dq.any fun x => x.id == id

/-- The copy queue in order of entry; a thread's commands are there while it is resident (R33). -/
def copyQueue (c : Core) : List Entry :=
  let mine := if c.ctx.status == .resident || c.ctx.status == .waiting then c.ctx.cq else []
  sortBy (fun a b => a.id ≤ b.id) (mine ++ c.dq)

/-- Changes a copy entry of a core, the thread's or the dispatcher's. -/
def modCopy (c : Core) (id : Nat) (f : Entry → Entry) : Core :=
  let g := fun (x : Entry) => if x.id = id then f x else x
  { c with ctx := { c.ctx with cq := c.ctx.cq.map g }, dq := c.dq.map g }

/-- The command of an entry. -/
def Entry.copyCmd (x : Entry) : Option CopyCmd :=
  match x.work with
  | .copy c => some c
  | _ => none

/-- Changes the command of an entry of a core. -/
def modCmd (c : Core) (id : Nat) (f : CopyCmd → CopyCmd) : Core :=
  modCopy c id fun x => match x.work with
    | .copy k => { x with work := .copy (f k) }
    | _ => x

/-- A command has sent all its requests. -/
def CopyCmd.sent (c : CopyCmd) : Bool := c.started && (c.len ≤ c.pos || c.fault.isSome)

/-- Whether all of an atom's data has been read. -/
def CopyAtom.full (a : CopyAtom) : Bool := a.data.all Option.isSome

/-- The entry that the engine works on: the first that has not sent all its requests (R307). A marker is
passed over. -/
def copyHead (c : Core) : Option Entry :=
  (copyQueue c).find? fun x => match x.copyCmd with
    | some k => !k.sent
    | none => false

/-- The thread of a copy entry; none for the dispatcher's. -/
def copyTid (c : Core) (x : Entry) : Option Nat := if isNode c x.id then none else some c.ctx.tid

/-! ### Starting (R307) -/

/-- The cores of a group's members. -/
def Group.cores (g : Group) : List Nat := g.members.map fun m => m.core

/-- The start checks of a command: its targets, or its fault. -/
def startCopy (s : State) (core : Nat) (x : Entry) (c : CopyCmd) : Except TrapReport (List Nat) :=
  let cube := core / 256
  let bad := fun (k : TrapCode) (a : Word) => (Except.error (x.report k a .copyDst 0) : Except TrapReport (List Nat))
  let needs := c.pb || c.form = .cpym
  let grp := s.group cube c.grp
  let ok := match grp with
    | some g => match copyTid (s.getCore core) x with
      | some tid => (g.member tid).isSome
      | none => g.asid == x.asid.extractLsb' 0 16 && c.grp != 64
    | none => false
  if needs && !ok then .error (x.report .illegalOperand x.pc .none 0)
  else if c.form = .cpym && c.dst.toNat / 2 ^ 19 ≠ 0 then bad .pageProtect c.dst
  else if c.form = .cpym && 2 ^ 19 < c.dst.toNat + c.len then bad .addressRange (BitVec.ofNat 64 (2 ^ 19))
  else .ok (if c.form = .cpym then (grp.map Group.cores).getD [] else [])

/-- A copy entry as a requester: the thread's core, or no local segment for the dispatcher (R354). -/
def copyRequester (s : State) (core : Nat) (x : Entry) : Requester :=
  ⟨x.asid, x.priv, if isNode (s.getCore core) x.id then none else some core⟩

/-- An entry of a core's copy queue, whoever holds it. -/
def copyEntry (c : Core) (id : Nat) : Option (Entry × CopyCmd) :=
  match (c.ctx.cq ++ c.dq).find? fun x => x.id == id with
  | some x => x.copyCmd.map fun k => (x, k)
  | none => none

/-! ### Faults (R283, R309) -/

/-- A copy engine releases an atom that it owns, at its home (R265, R283). -/
def releaseAtom (s : State) (core tid id : Nat) (a : CopyAtom) : State :=
  s.send (.engine core .copy) tid .ordered (core / 256) (a.dst / 2 ^ 47) (homeAddr s a.dst) a.ilv
    (.ownRelease (a.dst / 32 * 32) id)

/-- A copy entry that is discarded as a whole releases what it owns and has not sent the data of (R283); the data that it has
sent still stands, and ends the ownership of its atoms. -/
def releaseEntry (s : State) (core tid : Nat) (x : Entry) : State :=
  match x.work with
  | .copy c => (c.atoms.filter fun a => a.granted && !a.sent).foldl (fun t a => releaseAtom t core tid x.id a) s
  | _ => s

/-- Gives up an atom of an entry: a granted one is released at its home (R283). -/
def dropAtom (s : State) (core : Nat) (x : Entry) (a : CopyAtom) : State :=
  let s := s.modCore core fun k => modCmd k x.id fun c => { c with
    atoms := c.atoms.filter fun b => !(b.p == a.p && b.dst == a.dst) }
  if a.granted && !a.sent then
    releaseAtom s core ((copyTid (s.getCore core) x).getD 0) x.id a
  else s

/-- The ranges of positions from `p` to `stop` that lie outside some parts, which rise. -/
def gaps (stop : Nat) : Nat → List (Nat × Nat) → List (Nat × Nat)
  | p, [] => if p < stop then [(p, stop - p)] else []
  | p, (q, n) :: l => (if p < q then [(p, q - p)] else []) ++ gaps stop (max p (q + n)) l

/-- The bytes of the part that holds a position, from that position on. -/
def CopyCmd.restOfPart (c : CopyCmd) (p : Nat) : Nat :=
  match c.atoms.find? fun a => a.p ≤ p && p < a.p + a.len with
  | some a => a.p + a.len - p
  | none => 0

/-- Ranges without the `n` positions from p on. -/
def cutRange (p n : Nat) (l : List (Nat × Nat)) : List (Nat × Nat) :=
  l.flatMap fun d => gaps (d.1 + d.2) d.1 (if d.1 < p + n && p < d.1 + d.2 then [(max p d.1, min (p + n) (d.1 + d.2) - max p d.1)] else [])

/-- A command stops at position p, all its requests for lower positions sent (R309): what it has issued above the part that
holds p is still written, and is not copied again (log entry 92). A fault above the position at which it has stopped takes
its own part back from what is done. -/
def CopyCmd.stopAt (c : CopyCmd) (p : Nat) (t : TrapReport) : CopyCmd :=
  let n := c.restOfPart p
  if c.fault.isSome && c.pos ≤ p then { c with done := cutRange p n c.done }
  else
    { c with
      started := true
      pos := p
      fault := some t
      done := if p < c.pos then gaps c.pos p [(p, n)] ++ c.done.filter fun d => c.pos ≤ d.1 else c.done }

/-- The part that holds a position, as a fault there leaves it: the bytes before it are still written. -/
def CopyAtom.cutAt (a : CopyAtom) (p : Nat) : CopyAtom :=
  if a.p < p && p < a.p + a.len then { a with len := p - a.p, data := a.data.take (p - a.p) } else a

/-- A copy fault as the engine records it. -/
def copyReport (x : Entry) (t : TrapReport) : TrapReport := { t with pc := x.pc, epc := x.pc, source := Sequencer.num .copy }

/-- A thread's copy command meets a fault (R309): the engine records it and stops, later commands not yet started
are discarded with their slots marked; on route S they are kept for the resumption. Commands that have sent all their
requests settle their atoms; a later one that has not sent them all stops where it stands (log entry 92). -/
def copyFaultCtx (c : Ctx) (x : Entry) (t : TrapReport) : Ctx :=
  let started := fun (y : Entry) => (y.copyCmd.map CopyCmd.started) == some true
  let dead := c.cq.filter fun y => x.id < y.id && !started y
  let cut := fun (y : Entry) => match y.work with
    | .copy k => if x.id < y.id && !k.sent then { y with work := .copy (k.stopAt k.pos t) } else y
    | _ => y
  let keep := (c.cq.filter fun y => !(dead.any fun z => z.id == y.id)).map cut
  let stopped := sortBy (fun (a b : Entry) => a.id ≤ b.id) (x :: (c.cq.filter fun y => x.id < y.id &&
    !((y.copyCmd.map CopyCmd.sent) == some true)))
  let c := dead.foldl (fun c y => c.discard .copy y) c
  let c := (c.setQueue .copy []).engineFault .copy (copyReport x t) ((stopped.find? fun y => y.own).map fun y => y.pc) none
  { c with
    cq := keep
    kept := if routeS t.code then c.kept ++ dead else c.kept }

/-- A command meets a fault at position p (R309). Of several faults of one command the one at the lowest position is
reported. -/
def copyFault (s : State) (core : Nat) (x : Entry) (p : Nat) (t : TrapReport) : State :=
  match copyEntry (s.getCore core) x.id with
  | none => s
  | some (x, c) =>
    let lost := c.atoms.filter fun a => a.p == p && !a.sent
    let s := lost.foldl (fun t a => dropAtom t core x a) s
    let s := s.modCore core fun k => modCmd k x.id fun k =>
      let d := c.stopAt p t
      { k with started := d.started, pos := d.pos, fault := d.fault, done := d.done, atoms := k.atoms.map fun a => a.cutAt p }
    if (c.fault.isSome && c.pos ≤ p) || isNode (s.getCore core) x.id then s
    else match c.fault with
      | none => s.modCore core fun k => { k with ctx := copyFaultCtx k.ctx x t }
      | some u => s.modCore core fun k =>
        if k.ctx.copy.fault == some (copyReport x u) then
          { k with ctx := k.ctx.modEngine .copy fun g => { g with fault := some (copyReport x t) } }
        else k

/-! ### Requests (R281, R282, R307) -/

/-- The storage addresses of the destination atoms of `n` bytes at position p: one, or one for each target of
a cpym. -/
def copyDests (c : CopyCmd) (p : Nat) (place : Option Place) : List Nat :=
  if c.form = .cpym then c.targets.map fun t => spadAddr t ((c.dst.toNat + p) % 2 ^ 19)
  else (place.map Place.addr).toList

/-- The bytes of a cpyf pattern at position p (R307). -/
def patternBytes (c : CopyCmd) (p n : Nat) : List Byte :=
  (List.range n).map fun i => BitVec.ofNat 8 (c.src.toNat / 2 ^ (8 * ((c.dst.toNat + p + i) % 8)))

/-- The end of the page that holds an offset of a segment, and of the segment (R253, R402); in the local segment a window
stands for a page. -/
def runEnd (s : State) (r : Requester) (seg : BitVec 16) (o : Nat) : Nat :=
  if seg = 0xFFFF then (o / 2 ^ 19 + 1) * 2 ^ 19
  else match walk s r.asid seg o with
    | .ok (_, size) => min ((o / size + 1) * size) (segEnd s r seg)
    | .error _ => segEnd s r seg

/-- The length of the next part of a command: it stays within one destination atom and one run, which one source page
and one destination page bound (R307), and before the next part that is done. -/
def copyPart (s : State) (r : Requester) (c : CopyCmd) : Nat :=
  let o := (c.dst.toNat + c.pos) % 2 ^ 64
  let q := (c.src.toNat + c.pos) % 2 ^ 64
  let k := min (c.len - c.pos) (32 - o % 32)
  let cut := fun (k e o : Nat) => if o < e then min k (e - o) else k
  let k := if c.form = .cpym then k else cut k (runEnd s r c.dstSeg o) o
  let k := if c.form = .cpyf then k else cut k (runEnd s r c.srcSeg q) q
  (c.done.filter fun d => c.pos < d.1).foldl (fun k d => min k (d.1 - c.pos)) k

/-- The places of the source bytes of a part, cut where the home may change; they end before a byte that is refused. -/
def sourceRuns (s : State) (r : Requester) (seg : BitVec 16) : List (Word × Nat) → Except Refused (List Piece)
  | [] => .ok []
  | (o, n) :: l =>
    match placeOf s r seg o .copySrc rawRegion with
    | .error e => .error e
    | .ok q => .ok (⟨q, o, n⟩ :: match sourceRuns s r seg l with
      | .ok ps => ps
      | .error _ => [])

/-- Sends the requests of a command's next part: the ownership request of each destination atom, then the
source reads; or the command's fault (R307, R309). A part that is done already is passed over; while the engine may send no
more requests it waits (R382), and while its cube resolves none (R389). -/
def copySend (s : State) (core : Nat) (x : Entry) (c : CopyCmd) : State :=
  match c.done.find? fun d => d.1 ≤ c.pos && c.pos < d.1 + d.2 with
  | some d => s.modCore core fun k => modCmd k x.id fun c => { c with pos := min c.len (d.1 + d.2) }
  | none =>
  let r := copyRequester s core x
  let p := c.pos
  let n := copyPart s r c
  let dst := c.dst + BitVec.ofNat 64 p
  let src := c.src + BitVec.ofNat 64 p
  let toPlace : Except (Option TrapReport) (Option Place) :=
    if c.form = .cpym then .ok none
    else match placeOf s r c.dstSeg dst .copyDst rawRegion with
      | .ok q => .ok (some q)
      | .error e => .error (if e.held then none else some (x.refusal e .copyDst c.dstSeg))
  let fromPlace : Except (Option TrapReport) (List Piece) :=
    if c.form = .cpyf then .ok []
    else match sourceRuns s r c.srcSeg (runs 2 src n) with
      | .ok ps => .ok ps
      | .error e => .error (if e.held then none else some (x.refusal e .copySrc c.srcSeg))
  match toPlace, fromPlace with
  | .error none, _ | .ok _, .error none => s
  | .error (some t), _ => copyFault s core x p t
  | .ok _, .error (some t) => copyFault s core x p t
  | .ok d, .ok ps =>
    let n := if c.form = .cpyf then n else (ps.map Piece.len).sum
    let dests := copyDests c p d
    let home := fun (a : Nat) => match d with
      | some q => (q.cube, homeOf s q)
      | none => (a / 2 ^ 47, (spadOf a).elim 0 Prod.fst)
    let me : Agent := .engine core .copy
    let room := (dests.all fun a => s.mayRequest me (home a).2 .ordered 1) &&
      ps.all fun q => s.mayRequest me (homeOf s q.place) .adaptive 2
    let held := mapHeld (s.focus core) && ((d.toList ++ ps.map Piece.place).any fun q => q.ilv.isSome)
    if !room || held then s
    else
      let tid := (copyTid (s.getCore core) x).getD 0
      let g := (s.cube (core / 256)).imap.mgen
      let data := if c.form = .cpyf then (patternBytes c p n).map some else List.replicate n none
      let at_ := d.bind fun q => q.ilv.map fun i => (i, g)
      let atoms := dests.map fun a => CopyAtom.mk p a n false data false at_
      let s := s.modCore core fun k => modCmd k x.id fun c => { c with pos := p + n, atoms := c.atoms ++ atoms }
      let s := dests.foldl (fun t a => t.send me tid .ordered (core / 256) (home a).1 (home a).2 at_
        (.ownRequest (a / 32 * 32) x.id p)) s
      ps.foldl (fun t q => t.send me tid .adaptive (core / 256) q.place.cube (homeOf t q.place)
        (q.place.ilv.map fun i => (i, g)) (.copyRead q.place.addr q.len x.id (p + (q.off - src).toNat))) s

/-! ### Writes (R281, R307, R308) -/

/-- Sends the data of the atoms of a part that are owned and whose data is held (R307, R384): one multicast for those of a
cpym. The issuing core's L1 copies of the atoms go (R280). -/
def copySendData (s : State) (core : Nat) (x : Entry) (c : CopyCmd) (p : Nat) : State :=
  let ready := c.atoms.filter fun a => a.p = p && a.granted && !a.sent && a.full
  match ready with
  | [] => s
  | a :: _ =>
    let tid := (copyTid (s.getCore core) x).getD 0
    let bs := a.data.map fun b => b.getD 0
    let me : Agent := .engine core .copy
    let s := s.modCore core fun k => modCmd k x.id fun c => { c with
      atoms := c.atoms.map fun b => if b.p = p && b.granted && b.full then { b with sent := true } else b }
    let s := ready.foldl (fun t a => l1DropAt t (some core) (a.dst / 32 * 32) 32) s
    if c.form = .cpym then
      s.multicast me tid .adaptive (core / 256) c.grp (ready.filterMap fun a => (spadOf a.dst).map Prod.fst)
        (.multicast ((c.dst.toNat + p) % 2 ^ 19) bs x.id p)
    else s.send me tid .adaptive (core / 256) (a.dst / 2 ^ 47) (homeAddr s a.dst) a.ilv (.multicast a.dst bs x.id p)

/-- Sends the data of every part of an entry that is ready. -/
def copyWrites (s : State) (core id : Nat) : State :=
  match copyEntry (s.getCore core) id with
  | none => s
  | some (x, c) => ((c.atoms.map CopyAtom.p).foldl insertNat []).foldl (fun t p => copySendData t core x c p) s

/-- A grant reaches the engine (R281): the atom stands where the home that granted it says, under the map by which the request
reached it. One for a part that the command has given up is released. -/
def copyGrant (s : State) (core id p atom : Nat) (ilv : Option (Nat × BitVec 16)) : State :=
  let mine := fun (c : CopyCmd) (a : CopyAtom) => a.p = p && !a.granted && (c.form ≠ .cpym || a.dst / 32 * 32 = atom)
  match copyEntry (s.getCore core) id with
  | some (_, c) =>
    if c.atoms.any (mine c) then
      let f := fun (a : CopyAtom) => if mine c a then { a with granted := true, dst := atom + a.dst % 32, ilv := ilv } else a
      copyWrites (s.modCore core fun k => modCmd k id fun c => { c with atoms := c.atoms.map f }) core id
    else release_ s
  | none => release_ s
where
  /-- The atom is released at its home. -/
  release_ (s : State) : State :=
    s.send (.engine core .copy) 0 .ordered (core / 256) (atom / 2 ^ 47) (homeAddr s atom) ilv (.ownRelease atom id)

/-- The part of an entry that holds a position. -/
def partAt (c : CopyCmd) (q : Nat) : Option CopyAtom := c.atoms.find? fun a => a.p ≤ q && q < a.p + a.len

/-- Source bytes from position q on reach the engine (R282), up to a poisoned atom, `err` from position q, which makes the
command fault at the first byte of it that it reads (R235, R309). -/
def copyArrive (s : State) (core id q : Nat) (bs : List Byte) (err : Option Word) : State :=
  match copyEntry (s.getCore core) id with
  | none => s
  | some (x, c) =>
    match partAt c q with
    | none => s
    | some a =>
      let f := fun (b : CopyAtom) => if b.p = a.p then { b with
          data := (b.data.take (q - a.p) ++ bs.map some ++ b.data.drop (q - a.p + bs.length)).take b.len } else b
      let s := s.modCore core fun k => modCmd k id fun c => { c with atoms := c.atoms.map f }
      let s := match err with
        | none => s
        | some d => copyFault s core x (q + bs.length) (x.report .memUncorrectable (c.src + BitVec.ofNat 64 q + d) .copySrc c.srcSeg)
      copyWrites s core id

/-- The part of a group's pending-byte counter that a write of a copy steps (R307, R431, R432): for a network group that of the
cube on which the destination lies, for a cube-scope group that of the core's cube. -/
def pendingPart (core grp dst : Nat) : Nat := if 4096 ≤ grp then dst / 2 ^ 47 else core / 256

/-- The answer to a write of the engine: the atom is written, and the pending-byte counter falls (R308); or the home
refused it, which is the command's fault (R235, R309, R357). -/
def copyWritten (s : State) (core id p dst : Nat) (refused : Option TrapCode) : State :=
  match copyEntry (s.getCore core) id with
  | none => s
  | some (x, c) =>
    match c.atoms.find? fun a => a.p = p && a.sent && a.dst = dst with
    | none => s
    | some a =>
      match refused with
      | some k => dropAtom (copyFault s core x p (x.report k (c.dst + BitVec.ofNat 64 p) .copyDst c.dstSeg)) core x a
      | none =>
        let t := (dropAtom s core x a).modCore core fun k => k.count 10 a.len
        if c.pb then stepPending t (pendingPart core c.grp dst) c.grp (-(BitVec.ofNat 48 a.len)) else t

/-! ### The engine's steps -/

/-- The copy engine of a core moves (R307): it writes what is ready; it starts its next command once the wait
mask is satisfied, or sends the next part of the command it runs. -/
def copyStart (core : Nat) (s : State) : State :=
  let k := s.getCore core
  let s := (copyQueue k).foldl (fun t x => copyWrites t core x.id) s
  match copyHead (s.getCore core) with
  | none => s
  | some x => match x.copyCmd with
    | none => s
    | some c =>
      if c.started then copySend s core x c
      else if !isNode k x.id && !k.ctx.slotsClear x.wait.toNat x.id then s
      else match startCopy s core x c with
        | .error t => copyFault s core x 0 t
        | .ok ts => s.modCore core fun k => modCmd k x.id fun c => { c with started := true, targets := ts }

/-- The remainder of a faulted command (R309). -/
def remainder (c : CopyCmd) : CopyCmd :=
  let n := BitVec.ofNat 64 c.pos
  { c with
    src := if c.form = .cpyf then c.src else c.src + n
    dst := c.dst + n
    len := c.len - c.pos
    started := false
    pos := 0
    fault := none
    targets := []
    atoms := []
    done := (c.done.filter fun d => c.pos ≤ d.1).map fun d => (d.1 - c.pos, d.2) }

/-- Whether an entry has settled: a command that has sent all and has no atom open, or a marker with nothing
before it (R308, R442). -/
def copySettled (c : Core) (x : Entry) : Bool :=
  match x.work with
  | .copy k => k.sent && k.atoms.isEmpty
  | .marker => (c.ctx.cq.head?.map Entry.id) == some x.id
  | _ => false

/-- The copy engine completes one settled entry (R308, R309). -/
def copyComplete (core : Nat) (s : State) : State :=
  let k := s.getCore core
  match (copyQueue k).find? (copySettled k) with
  | none => s
  | some x =>
    let bad := (x.copyCmd.bind CopyCmd.fault)
    if isNode k x.id then
      let s := s.modCore core fun k => { k with dq := k.dq.filter fun y => y.id != x.id }
      reportFrom s x.origin (if bad.isSome then statusFaulted else statusOk)
    else match bad, x.copyCmd with
      | some t, some c =>
        let f := fun (d : Ctx) =>
          let d := (d.dropEntry .copy x.id).discard .copy x
          if routeS t.code then { d with kept := sortBy (fun (a b : Entry) => a.id ≤ b.id) ({ x with work := .copy (remainder c) } :: d.kept) } else d
        s.modCore core fun k => { k with ctx := f k.ctx }
      | _, _ => s.modCore core fun k => { k with ctx := k.ctx.completeEntry .copy x.id }

/-- Whether the thread's copy engine has atoms open that a drain must still write (R220). -/
def copyDraining (c : Ctx) : Bool := c.cq.any fun x => match x.copyCmd with
  | some k => !k.atoms.isEmpty
  | none => false

/-- The kept commands re-enter the copy queue when the Stove resumes the thread (R309). -/
def Ctx.reenter (c : Ctx) : Ctx :=
  { c with
    cq := c.kept ++ c.cq
    counted := c.counted ++ c.kept.map fun x => ⟨x.slot, x.id⟩
    kept := [] }

end Sys2Proof.Machine
end

