-- ==== Sys2Proof/Machine/Tile.lean ====
section
/-! DEFINITION. Tile registers and the matrix engine (R186-R207): configuration, row and column moves, tile
loads and stores, multiplication into acc, gang issue. -/

namespace Sys2Proof.Machine

open Sys2Proof

/-! ### Shapes (R93, R186) -/

/-- TSHAPE fields of a tile. -/
def shapeV (x : BitVec 16) : Bool := x.getLsbD 15
def shapeFmt (x : BitVec 16) : Nat := (x.extractLsb' 12 3).toNat
def shapeRows (x : BitVec 16) : Nat := (x.extractLsb' 6 6).toNat + 1
def shapeCols (x : BitVec 16) : Nat := (x.extractLsb' 0 6).toNat + 1

/-- The element width of an SX format code. -/
def fmtSx (fmt : Nat) : Option Nat :=
  match fmt with
  | 3 => some 7
  | 4 => some 4
  | 5 => some 2
  | _ => none

/-- The bits of an element of FP32, BF16 or FP16. -/
def fmtBits (fmt : Nat) : Nat := if fmt = 0 then 32 else 16

/-- The blocks of 16 that cover a depth. -/
def blocksOf (c : Nat) : Nat := (c + 15) / 16

/-- The bytes of a row of `c` elements (R186, R197). -/
def rowBytes (fmt c : Nat) : Nat :=
  match fmtSx fmt with
  | some m => blocksOf c * sxBytes m
  | none => c * fmtBits fmt / 8

/-- The bytes before row 0 of a tile image (R197). -/
def imageHeader (fmt : Nat) : Nat := if (fmtSx fmt).isSome then 32 else 0

/-- Replaces `n` bits from bit `lo` on. -/
def putBits (x lo n v : Nat) : Nat := x - x / 2 ^ lo % 2 ^ n * 2 ^ lo + v % 2 ^ n * 2 ^ lo

/-- `n` bits from bit `lo` on. -/
def getBits (x lo n : Nat) : Nat := x / 2 ^ lo % 2 ^ n

/-- The shape of tile k. -/
def TileRegs.shapeOf (t : TileRegs) (k : Nat) : BitVec 16 := t.shape[k]?.getD 0

/-- The contents of tile k as a number. -/
def TileRegs.bits (t : TileRegs) (k : Nat) : Nat := (t.data[k]?.getD 0).toNat

/-- Replaces the contents of tile k. -/
def TileRegs.setBits (t : TileRegs) (k x : Nat) : TileRegs :=
  { t with data := t.data.setIfInBounds k (BitVec.ofNat 131072 x) }

/-- Row i of tile k as a number (R186). -/
def TileRegs.row (t : TileRegs) (k i : Nat) : Nat :=
  let sh := t.shapeOf k
  let n := 8 * rowBytes (shapeFmt sh) (shapeCols sh)
  getBits (t.bits k) (i * n) n

/-- The scales s0-s3 of tile k. -/
def TileRegs.scaleList (t : TileRegs) (k : Nat) : List Nat :=
  (List.range 4).map fun i => elemNat 32 (t.scales[k]?.getD 0).toNat i

/-- The values of a row of `c` elements in its format; columns at c and above do not count (R186). -/
def rowVals (fmt c row : Nat) : List FVal :=
  match fmtSx fmt with
  | some m => (List.range c).map fun j =>
      sxElem m (getBits row (8 * sxBytes m * (j / 16)) (8 * sxBytes m)) (j % 16)
  | none => (List.range c).map fun j =>
      let x := elemNat (fmtBits fmt) row j
      match fmt with
      | 0 => f32.decode x
      | 1 => bf16.decode x
      | _ => f16.decode x

/-! ### acc (R94, R200) -/

/-- Row i of acc, 80 elements of 32 bits. -/
def accRow (acc : BitVec 983040) (i : Nat) : Nat := (acc.extractLsb' (2560 * i) 2560).toNat

/-- Replaces row i of acc. -/
def setAccRow (acc : BitVec 983040) (i row : Nat) : BitVec 983040 :=
  BitVec.ofNat 983040 (putBits acc.toNat (2560 * i) 2560 row)

/-- The row and column of an acc origin (R200). -/
def originRow (x : Word) : Nat := field x 0 9
def originCol (x : Word) : Nat := field x 16 7

/-- acc as an instruction reads it: +0 everywhere while ACCV is clear (R94). -/
def accOf (c : Ctx) : BitVec 983040 := if tswAccv c.regs.tsw then c.tiles.acc else 0

/-- acc written: ACCV and TDIRTY.ACC are set. -/
def Ctx.setAcc (c : Ctx) (acc : BitVec 983040) : Ctx :=
  { c with
    tiles := { c.tiles with acc := acc }
    regs := dirtyTile { c.regs with tsw := tswSet c.regs.tsw 7 true } 8 }

/-! ### Products (R128, R129) -/

/-- The exact sum of a block of products. -/
def blockSum (xs ys : List FVal) : FVal :=
  (xs.zip ys).foldl (fun a p => a.add .rne (p.1.mul p.2)) (.fin false 0 0)

/-- One element of acc, updated block by block in ascending depth: one rounding a block. -/
def updateElem : List (FVal × List FVal × List FVal) → Nat → Nat
  | [], c => c
  | (sc, xs, ys) :: l, c => updateElem l (f32.ofVal .rne 0 ((f32.decode c).add .rne (sc.mul (blockSum xs ys))))

/-- Cuts a list into blocks of 16. -/
def blocks16 (n : Nat) (l : List FVal) : List (List FVal) := chunk 16 n l

/-- acc with its window of A's rows by B's rows updated (R201). -/
def mulInto (acc : BitVec 983040) (row0 col0 : Nat) (depth : Nat) (a b : List (List FVal))
    (sa sb : List FVal) : BitVec 983040 :=
  let nb := blocksOf depth
  let sc := (List.range nb).map fun k => (sa.getD k (.fin false 1 0)).mul (sb.getD k (.fin false 1 0))
  let bs := b.map (blocks16 nb)
  (a.zipIdx).foldl (fun acc r =>
    let xs := blocks16 nb r.1
    let row := accRow acc (row0 + r.2)
    let row' := (bs.zipIdx).foldl (fun row y =>
      let c := elemNat 32 row (col0 + y.2)
      putBits row (32 * (col0 + y.2)) 32 (updateElem (sc.zip (xs.zip y.1)) c)) row
    setAccRow acc (row0 + r.2) row') acc

/-- Whether an FP32 scale is finite and greater than zero. -/
def scaleOk (x : Nat) : Bool :=
  match f32.decode x with
  | .fin neg m _ => !neg && m != 0
  | _ => false

/-- The scale checks of R128: the code of the trap they take. -/
def scaleCheck (fmt depth ca cb : Nat) (sa sb : List Nat) : Option TrapCode :=
  let nb := blocksOf depth
  if (fmtSx fmt).isNone then none
  else if ca ≠ nb || cb ≠ nb then some .scaleCount
  else if (sa.take nb ++ sb.take nb).all scaleOk then none else some .scaleInvalid

/-- The scales that a product uses: none for BF16. -/
def scaleVals (fmt : Nat) (s : List Nat) : List FVal := if (fmtSx fmt).isSome then s.map f32.decode else []

/-! ### Engine forms -/

/-- A context with no TDIRTY bit set. -/
def Ctx.undirtied (c : Ctx) : Ctx := { c with regs := { c.regs with tdirty := 0 } }

/-- A form that a context `c` starts leaves the context `d`, from `c.undirtied` on; until it completes, what TSHAPE and
TDIRTY will show is kept apart and they read as in `c` (R209). -/
def Ctx.started (c d : Ctx) : Ctx :=
  { d with
    regs := { d.regs with tdirty := c.regs.tdirty }
    tiles := { d.tiles with shape := c.tiles.shape }
    formed := some ⟨d.tiles.shape, d.regs.tdirty⟩ }

/-- A form completes: TSHAPE shows what it left, and the TDIRTY bits that it sets are set (R105, R209). -/
def Ctx.completeForm (c : Ctx) : Ctx :=
  match c.formed with
  | none => c
  | some x => { c with
      regs := { c.regs with tdirty := c.regs.tdirty ||| x.dirty }
      tiles := { c.tiles with shape := x.shape }
      formed := none }

/-- How the matrix engine's head entry ends a start. -/
inductive EngineResult where
  | done (s : State)
  | fault (t : TrapReport)
  | wait

/-- The format that a TMMA or GISSUE names (R80). -/
def mulFmt (fn : Nat) : Nat :=
  match fn with
  | 0 => 1
  | 1 => 3
  | 2 => 4
  | _ => 5

/-- Tile k zeroed under a new shape (R194). -/
def TileRegs.config (t : TileRegs) (k : Nat) (shape : BitVec 16) (scnt : Nat) (scale : Nat) : TileRegs :=
  { (t.setBits k 0) with
    shape := t.shape.setIfInBounds k shape
    scnt := t.scnt.setIfInBounds k (BitVec.ofNat 8 scnt)
    scales := t.scales.setIfInBounds k (BitVec.ofNat 128 (packNat 32 (List.replicate 4 scale))) }

/-- Changes a tile of the moving thread and sets its dirty bit. -/
def setTile (s : State) (k : Nat) (f : TileRegs → TileRegs) : State :=
  s.modCtx fun c => { c with tiles := f c.tiles, regs := dirtyTile c.regs k }

/-- TCFG, TZERO and TFREE (R194). -/
def tileConfig (fn : Nat) (x : Entry) (f : FmtT) (s : State) : EngineResult :=
  let k := f.td.toNat
  let sh := s.core.ctx.tiles.shapeOf k
  match fn with
  | 0 =>
    let pay := (f.p.getD 0).extractLsb' 0 15
    let new : BitVec 16 := (1#1 ++ pay : BitVec 16)
    let sx := (fmtSx (shapeFmt new)).isSome
    .done (setTile s k fun t => t.config k new (if sx then blocksOf (shapeCols new) else 0)
      (if sx then 0x3F800000 else 0))
  | 5 =>
    if !shapeV sh then .fault (x.report .tileUnconfigured x.pc .none 0)
    else .done (setTile s k fun t => t.setBits k 0)
  | _ => .done (setTile s k fun t => t.config k 0 0 0)

/-- The offsets and lengths of a tile image's rows (R197). -/
def imageRows (a : Word) (fmt rows cols stride : Nat) : List (Word × Nat) :=
  (List.range rows).map fun i => (a + BitVec.ofNat 64 (imageHeader fmt + i * stride), rowBytes fmt cols)

/-- Checks and places the parts of a tile image, in ascending order. -/
def placeParts (s : State) (r : Requester) (seg : BitVec 16) (k : AccessKind) :
    List (Word × Nat) → Except Refused (List (List Piece))
  | [] => .ok []
  | (o, n) :: l =>
    match footprint s r seg o n k rawRegion with
    | .error e => .error e
    | .ok ps => match placeParts s r seg k l with
      | .error e => .error e
      | .ok r => .ok (ps :: r)

/-- Whether an engine's read must wait for an owned atom (R281). -/
def ownedPieces (s : State) (ps : List Piece) : Bool :=
  ps.any fun p => mustWait (s.cube p.place.cube) none p.place.addr p.len

/-- The bytes of a number's low bits. -/
def rowList (n x : Nat) : List Byte := bytesOfNat n x

/-- TLD (R198). Every atom of the image is read in one step: R263 lets other accesses be performed between the parts, which is
one order among those that it allows (DESIGN CHOICE, log entry 6); so it is for the images of a joint issue (`giPerform`). -/
def tileLoad (x : Entry) (f : FmtT) (parts : List (List Piece)) (seg : BitVec 16) (s : State) : EngineResult :=
  let k := f.td.toNat
  let sh := s.core.ctx.tiles.shapeOf k
  let fmt := shapeFmt sh
  let hdr := imageHeader fmt
  let n := rowBytes fmt (shapeCols sh)
  match parts.mapM fun ps => ps.mapM (landed s) with
  | none => .wait
  | some parts =>
  if ownedPieces s parts.flatten then .wait
  else match poisonIn s parts.flatten with
    | some off => .fault (x.report .memUncorrectable off .load seg)
    | none =>
      let bytes := parts.map (readPieces s)
      let rows := if hdr = 0 then bytes else bytes.tail
      let data := packNat (8 * n) (rows.map natOfBytes)
      let head := if hdr = 0 then [] else bytes.headD []
      .done (setTile s k fun t =>
        let t := t.setBits k data
        if hdr = 0 then t
        else { t with
          scnt := t.scnt.setIfInBounds k (head.getD 0 0)
          scales := t.scales.setIfInBounds k (BitVec.ofNat 128 (natOfBytes ((head.drop 8).take 16))) })

/-- The parts of a tile image that TST writes: the header and every row; where rows overlap, the later row
stands (R197, R198). -/
def imageBytes (t : TileRegs) (k stride : Nat) : List (List Byte) :=
  let sh := t.shapeOf k
  let fmt := shapeFmt sh
  let n := rowBytes fmt (shapeCols sh)
  let rows := (List.range (shapeRows sh)).map fun i =>
    (rowList n (t.row k i)).take (if i + 1 = shapeRows sh then n else stride)
  if imageHeader fmt = 0 then rows
  else
    let sc := (t.scales[k]?.getD 0).toNat
    ([t.scnt[k]?.getD 0] ++ List.replicate 7 0 ++ rowList 16 sc ++ List.replicate 8 0) :: rows

/-- The part of a placed run that its first `n` bytes take. -/
def clipPieces : Nat → List Piece → List Piece
  | _, [] => []
  | n, p :: ps => if n = 0 then [] else { p with len := min n p.len } :: clipPieces (n - p.len) ps

/-- TST (R198, R199): its stores leave as the matrix engine's and count as unacknowledged; the engine holds those that find 256
of their pair outstanding (R382). -/
def tileStore (x : Entry) (f : FmtT) (parts : List (List Piece)) (stride : Nat) (seg : BitVec 16) (s : State) :
    EngineResult :=
  let bytes := imageBytes s.core.ctx.tiles f.td.toNat stride
  let ws := (parts.zip bytes).flatMap fun p => mergeAtoms (writesOf (p.2.map some) (clipPieces p.2.length p.1))
  match ws.find? fun w => registered s w.1.cube w.2.1 w.2.2.1.length with
  | some w => .fault (x.report .graphBusy w.2.2.2 .store seg)
  | none =>
    if 1023 < s.core.ctx.unacked + ws.length then .wait
    else
      let g := (s.cube s.myCube).imap.mgen
      let send := fun (t : State) (w : Place × Nat × List (Option Byte) × Word) =>
        (l1Drop t w.2.1).send (.engine t.me .matrix) t.core.ctx.tid .adaptive t.myCube w.1.cube (homeOf t w.1)
          (w.1.ilv.map fun i => (i, g)) (.write w.2.1 w.2.2.1 0 w.2.2.2)
      .done (ws.foldl send (s.modCtx fun c => { c with unacked := c.unacked + ws.length }))

/-- TLD and TST: their checks in the order of R198. -/
def tileMem (fn : Nat) (x : Entry) (f : FmtT) (g : List Word) (s : State) : EngineResult :=
  let k := f.td.toNat
  let sh := s.core.ctx.tiles.shapeOf k
  let fmt := shapeFmt sh
  let pay := f.p.getD 0
  let a := g.headD 0
  let seg := x.seg.getD (pay.extractLsb' 6 2).toNat 0
  let stride := (pay.extractLsb' 8 16).toNat
  let kind : AccessKind := if fn = 0 then .load else .store
  let al := if (fmtSx fmt).isSome then 32 else if fmt = 0 then 4 else 2
  let sal := if (fmtSx fmt).isSome then 2 else al
  if !shapeV sh then .fault (x.report .tileUnconfigured x.pc .none 0)
  else if a.toNat % al ≠ 0 || stride % sal ≠ 0 then .fault (x.report .misaligned a kind seg)
  else
    let l := imageRows a fmt (shapeRows sh) (shapeCols sh) stride
    let l := if (fmtSx fmt).isSome then (a, 32) :: l else l
    match placeParts s (x.requester s.me) seg kind l with
    | .error e => if e.held then .wait else .fault (x.refusal e kind seg)
    | .ok parts => if fn = 0 then tileLoad x f parts seg s else tileStore x f parts stride seg s

/-- TMMA (R201). -/
def tileMul (fn : Nat) (x : Entry) (f : FmtT) (g : List Word) (s : State) : EngineResult :=
  let t := s.core.ctx.tiles
  let ka := f.ta.toNat
  let kb := f.tb.toNat
  let sa := t.shapeOf ka
  let sb := t.shapeOf kb
  let fmt := mulFmt fn
  let depth := shapeCols sa
  let row0 := originRow (g.headD 0)
  let col0 := originCol (g.headD 0)
  let bad := fun (c : TrapCode) => EngineResult.fault (x.report c x.pc .none 0)
  if !shapeV sa || !shapeV sb then bad .tileUnconfigured
  else if shapeFmt sa ≠ fmt || shapeFmt sb ≠ fmt then bad .tileFormat
  else if shapeCols sb ≠ depth then bad .tileShape
  else if 384 < row0 + shapeRows sa || 80 < col0 + shapeRows sb then bad .accRange
  else match scaleCheck fmt depth (t.scnt[ka]?.getD 0).toNat (t.scnt[kb]?.getD 0).toNat
      (t.scaleList ka) (t.scaleList kb) with
    | some c => bad c
    | none =>
      let rows := fun (k n : Nat) => (List.range n).map fun i => rowVals fmt depth (t.row k i)
      .done (s.modCtx fun c => c.setAcc (mulInto (accOf c) row0 col0 depth (rows ka (shapeRows sa))
        (rows kb (shapeRows sb)) (scaleVals fmt (t.scaleList ka)) (scaleVals fmt (t.scaleList kb))))

/-- TACCRD, TACCWR and TACCZERO (R202). -/
def tileAcc (fn : Nat) (x : Entry) (f : FmtT) (g : List Word) (s : State) : EngineResult :=
  let bad := fun (c : TrapCode) => EngineResult.fault (x.report c x.pc .none 0)
  if fn = 2 then
    .done (s.modCtx fun c => { c with regs := dirtyTile { c.regs with tsw := tswSet c.regs.tsw 7 false } 8 })
  else
    let k := if fn = 0 then f.td.toNat else f.ta.toNat
    let t := s.core.ctx.tiles
    let sh := t.shapeOf k
    let r := shapeRows sh
    let n := shapeCols sh
    let row0 := originRow (g.headD 0)
    let col0 := originCol (g.headD 0)
    if !shapeV sh then bad .tileUnconfigured
    else if shapeFmt sh ≠ 0 then bad .tileFormat
    else if 384 < row0 + r || 80 < col0 + n then bad .accRange
    else if fn = 0 then
      let acc := accOf s.core.ctx
      let data := packNat (32 * n) ((List.range r).map fun i => getBits (accRow acc (row0 + i)) (32 * col0) (32 * n))
      .done (setTile s k fun t => t.setBits k data)
    else
      .done (s.modCtx fun c => c.setAcc ((List.range r).foldl (fun acc i =>
        setAccRow acc (row0 + i) (putBits (accRow acc (row0 + i)) (32 * col0) (32 * n) (t.row k i))) (accOf c)))

/-! ### Gang issue (R203-R206) -/

/-- A participant of a joint issue as it stands at the head of its queue. -/
structure Participant where
  core : Nat
  entry : Entry
  fn : Nat
  f : FmtT
  g : List Word

/-- The source column of a GISSUE (R192). -/
def giCol (f : FmtT) : Nat := ((f.p.getD 0).extractLsb' 0 3).toNat
/-- The rows M of A (R204). -/
def giM (g : List Word) : Nat := field (g.getD 2 0) 0 9 + 1
/-- The depth K. -/
def giK (g : List Word) : Nat := field (g.getD 2 0) 16 6 + 1
/-- The columns N of the participant's slice. -/
def giN (g : List Word) : Nat := field (g.getD 2 0) 32 7 + 1
/-- The offset of the A image. -/
def giA (g : List Word) : Nat := field (g.getD 0 0) 0 19
/-- The offset of the B image. -/
def giB (g : List Word) : Nat := field (g.getD 1 0) 0 19

/-- The bytes of a tile image of packed rows (R197, R204). -/
def imageLen (fmt rows cols : Nat) : Nat := imageHeader fmt + rows * rowBytes fmt cols

/-- A participant's own checks (R205). -/
def giCheck (p : Participant) : Option TrapReport :=
  let fmt := mulFmt p.fn
  let o := p.g.getD 3 0
  let rep := fun (c : TrapCode) (a : Word) => p.entry.report c a .none 0
  if 384 < originRow o + giM p.g || 80 < originCol o + giN p.g then some (rep .accRange p.entry.pc)
  else if giA p.g % 32 ≠ 0 then some (rep .misaligned (BitVec.ofNat 64 (giA p.g)))
  else if giB p.g % 32 ≠ 0 then some (rep .misaligned (BitVec.ofNat 64 (giB p.g)))
  else if 2 ^ 19 < giB p.g + imageLen fmt (giN p.g) (giK p.g) || 2 ^ 19 < giA p.g + imageLen fmt (giM p.g) (giK p.g) then
    some (rep .addressRange (BitVec.ofNat 64 (2 ^ 19)))
  else none

/-- The rank's row of a gang. -/
def Gang.rowOf (g : Gang) (rank : Nat) : Nat := rank / g.cols

/-- Whether a GISSUE names a source column of its gang (R203). -/
def giColOk (g : Gang) (f : FmtT) : Bool := g.k0 ≤ giCol f && giCol f < g.k0 + g.cols

/-- The GISSUE at the head of a core's matrix queue, where its engine may start it: its wait mask is satisfied (R205), its
thread is asked for no stop and is not held (R37, R207). One that names no column of the gang takes part in no joint
issue: it faults by itself (R203). R205 pairs the n-th GISSUEs; whether one that a stopped engine discarded counts
toward n it does not say: the model keeps no count, and pairs the GISSUEs that stand at the heads (DESIGN CHOICE, log
entry 93). -/
def giHead (s : State) (gang : Gang) (core tid : Nat) : Option Participant :=
  let c := (s.getCore core).ctx
  if c.tid ≠ tid || !enginesMay s core then none
  else match c.mq with
    | [] => none
    | x :: _ => match x.work with
      | .tile 0x63 fn f g => if giColOk gang f && c.slotsClear x.wait.toNat x.id then some ⟨core, x, fn, f, g⟩ else none
      | _ => none

/-- Every participant faults with one report (R205). -/
def giFault (s : State) (ps : List Participant) (t : TrapReport) : State :=
  ps.foldl (fun s p => s.modCore p.core fun k => { k with ctx := entryFault k.ctx .matrix p.entry t }) s

/-- Performs a joint issue whose checks have passed so far: images, scales, products (R205). -/
def giPerform (s : State) (ps : List Participant) (source : Nat) : State :=
  match ps with
  | [] => s
  | p0 :: _ =>
    let fmt := mulFmt p0.fn
    let m := giM p0.g
    let depth := giK p0.g
    let h := imageHeader fmt
    let image := fun (core off rows : Nat) => s.load (spadAddr core off) (imageLen fmt rows depth)
    let poison := fun (core off rows : Nat) => s.poisoned (spadAddr core off) (imageLen fmt rows depth)
    let vals := fun (bs : List Byte) (rows : Nat) =>
      (chunk (rowBytes fmt depth) rows (bs.drop h)).map fun r => rowVals fmt depth (natOfBytes r)
    let scales := fun (bs : List Byte) => (List.range 4).map fun i => elemNat 32 (natOfBytes ((bs.drop 8).take 16)) i
    let count := fun (bs : List Byte) => (bs.headD 0).toNat
    let imgA := image source (giA p0.g) m
    let bad := ps.findSome? fun p =>
      let rep := fun (c : TrapCode) (a : Word) => p.entry.report c a (if c = .memUncorrectable then .load else .none) 0
      match poison source (giA p.g) m, poison p.core (giB p.g) (giN p.g) with
      | some a, _ => some (rep .memUncorrectable (BitVec.ofNat 64 (a % 2 ^ 19)))
      | none, some a => some (rep .memUncorrectable (BitVec.ofNat 64 (a % 2 ^ 19)))
      | none, none =>
        let b := image p.core (giB p.g) (giN p.g)
        (scaleCheck fmt depth (count imgA) (count b) (scales imgA) (scales b)).map fun c => rep c p.entry.pc
    match bad with
    | some t => giFault s ps t
    | none =>
      let va := vals imgA m
      let sa := scaleVals fmt (scales imgA)
      ps.foldl (fun u p =>
        let b := image p.core (giB p.g) (giN p.g)
        let o := p.g.getD 3 0
        let f := fun (c : Ctx) => (c.started (c.undirtied.setAcc (mulInto (accOf c) (originRow o) (originCol o) depth va
          (vals b (giN p.g)) sa (scaleVals fmt (scales b))))).modEntry .matrix p.entry.id
            fun x => { x with work := .marker }
        u.modCore p.core fun k => { k with ctx := f k.ctx }) s

/-- The core on which a member stands: for one that has halted, the core it was placed on. -/
def memberCore (s : State) (g : Gang) (m : Nat × Nat × Nat) : Nat :=
  if g.halted.contains m.1 then m.2.2 else ((s.thread m.2.1).map Prod.fst).getD m.2.2

/-- The rank of the grid place that a core has in a gang (R21, R229); none outside the gang's rectangle. -/
def gridPlace (g : Gang) (core : Nat) : Option Nat := (g.members.find? fun m => m.2.2 == core).map Prod.fst

/-- The members whose cores lie in the row of a grid place, each with the rank of its core's place (R203). -/
def rowMembers (s : State) (g : Gang) (rank : Nat) : List (Nat × Nat × Nat) :=
  g.members.filterMap fun m =>
    let core := memberCore s g m
    let taken := g.halted.contains m.1 &&
      g.members.any fun o => !g.halted.contains o.1 && memberCore s g o == core
    match gridPlace g core with
    | some r => if g.rowOf r == g.rowOf rank && !taken then some (r, m.2.1, core) else none
    | none => none

/-- Whether an image of a joint issue holds an atom that a copy engine owns, or a bank under refresh (R257, R281). -/
def giHeld (s : State) (p : Participant) (source : Nat) : Bool :=
  let fmt := mulFmt p.fn
  let held := fun (core off rows : Nat) => mustWait (s.cube (core / 256)) none (spadAddr core off) (imageLen fmt rows (giK p.g))
  held source (giA p.g) (giM p.g) || held p.core (giB p.g) (giN p.g)

/-- The joint issue of the moving core's GISSUE: it waits until every participant's is at its head (R205). Where several
participants fail checks of their own, R205 does not say whose fault all of them record: the model takes the first
in member order (DESIGN CHOICE, log entry 93). Where no participant stands on core 8h + k_s, whose member has migrated,
R203 names no source: the model takes the core that moves (DESIGN CHOICE, log entry 93). -/
def giJoint (x : Entry) (f : FmtT) (s : State) : EngineResult :=
  let invalid := EngineResult.fault (x.report .gissueInvalid x.pc .none 0)
  match s.myGang with
  | none => invalid
  | some gang =>
    match gridPlace gang s.me with
    | none => invalid
    | some rank =>
      let kS := giCol f
      if !giColOk gang f then invalid
      else
        let row := rowMembers s gang rank
        let ps := row.filterMap fun m => giHead s gang m.2.2 m.2.1
        if ps.length ≠ row.length then .wait
        else
          match ps.findSome? giCheck with
          | some t => .done (giFault s ps t)
          | none =>
            let same := ps.all fun p => giCol p.f = kS && ps.all fun q =>
              q.fn = p.fn && giA q.g = giA p.g && giM q.g = giM p.g && giK q.g = giK p.g
            if !same then .done (giFault s ps (x.report .gissueMismatch x.pc .none 0))
            else
              let source := ((row.find? fun m => m.1 % gang.cols == kS - gang.k0).map fun m => m.2.2).getD s.me
              if ps.any fun p => giHeld s p source then .wait else .done (giPerform s ps source)

/-! ### The engine (R189-R191) -/

/-- The start of a form. -/
def startForm (x : Entry) (s : State) : EngineResult :=
  match x.work with
  | .tile op fn f g =>
    match op with
    | 0x60 => tileConfig fn x f s
    | 0x61 => tileMem fn x f g s
    | 0x62 => tileMul fn x f g s
    | 0x64 => tileAcc fn x f g s
    | _ => giJoint x f s
  | _ => .done s

/-- Whether an entry is a transfer form, which the main sequencer performs (R189). -/
def isTransfer (x : Entry) : Bool :=
  match x.work with
  | .tile 0x60 fn _ _ => 1 ≤ fn && fn ≤ 4
  | _ => false

/-- The matrix engine of the moving core starts the form at its queue's head (R189, R190): it performs the
form, whose entry then stays as a marker until it completes, or faults. Nothing happens where the form must
wait. -/
def matrixStart (s : State) : State :=
  match s.core.ctx.mq with
  | [] => s
  | x :: _ =>
    if isTransfer x || !s.core.ctx.slotsClear x.wait.toNat x.id then s
    else match x.work with
      | .tile op _ _ _ =>
        match startForm x (if op = 0x63 then s else s.modCtx Ctx.undirtied) with
        | .wait => s
        | .fault t => s.modCtx fun c => entryFault c .matrix x t
        | .done t =>
          let t := { t with core := t.core.count 9 1 }
          if op = 0x63 then t
          else t.modCtx fun c => (s.core.ctx.started c).modEntry .matrix x.id fun y => { y with work := .marker }
      | _ => s

/-- The matrix engine completes its head: a form that it has performed and whose writes are performed at
their homes, or a marker (R190, R280, R442). -/
def matrixComplete (s : State) : State :=
  match s.core.ctx.mq with
  | [] => s
  | x :: _ => match x.work with
    | .marker => if engineBusy s s.me .matrix s.core.ctx.tid then s else s.modCtx fun c => c.completeForm.completeEntry .matrix x.id
    | _ => s

/-! ### Instructions -/

/-- The g values that a T instruction reads at issue (R192, R198, R200, R204). -/
def tileOperands (op fn : Nat) (f : FmtT) (s : State) : Except Stop (List Word) :=
  let pay := f.p.getD 0
  match op with
  | 0x61 => do
    let b ← readScalar s 0 (pay.extractLsb' 0 6)
    .ok [b]
  | 0x62 => do
    let o ← readG s 0 f.td.toNat
    .ok [o]
  | 0x63 => do
    let j := (pay.extractLsb' 4 5).toNat
    let a ← readG s 0 j
    let b ← readG s 1 (j + 1)
    let c ← readG s 2 (j + 2)
    let d ← readG s 3 (j + 3)
    .ok [a, b, c, d]
  | 0x64 =>
    if fn = 2 then .ok []
    else do
      let o ← readG s 0 (if fn = 0 then f.ta.toNat else f.td.toNat)
      .ok [o]
  | _ => .ok []

/-- The issue of an engine form (R189): it enters the matrix queue. A STALL_SHORT of the operands that it reads comes before an
engine fault (R66, R212). -/
def tileForm (op fn : Nat) (f : FmtT) (s : State) : Except Stop State := do
  let g ← tileOperands op fn f s
  deliver f.wait.toNat [] s
  enqueue .matrix (.tile op fn f g) f.set.toNat f.wait s

/-- The row or column move of a transfer form (R196). -/
def moveTile (fn : Nat) (f : FmtT) (ix : Word) (v : Vec) (s : State) : Except Stop State :=
  let k := f.td.toNat
  let t := s.core.ctx.tiles
  let sh := t.shapeOf k
  let fmt := shapeFmt sh
  let r := shapeRows sh
  let c := shapeCols sh
  let w := fmtBits fmt
  let i := ix.toNat
  if !shapeV sh then trapHere s .tileUnconfigured
  else if (fmtSx fmt).isSome then trapHere s .tileFormat
  else if (if fn = 1 || fn = 2 then r else c) ≤ i then trapHere s .tileShape
  else
    let x := t.bits k
    let d := (f.p.getD 0).extractLsb' 0 6
    match fn with
    | 1 => .ok (setTile s k fun t => t.setBits k (putBits x (i * c * w) (c * w) v.toNat))
    | 3 => .ok (setTile s k fun t => t.setBits k ((List.range r).foldl (fun x j =>
        putBits x ((j * c + i) * w) w (elemNat w v.toNat j)) x))
    | 2 => .ok (writeVector 0 d (BitVec.ofNat 2048 (getBits x (i * c * w) (c * w))) s)
    | _ => .ok (writeVector 0 d (BitVec.ofNat 2048 (packNat w ((List.range r).map fun j =>
        getBits x ((j * c + i) * w) w))) s)

/-- A transfer form (R189, R196): it is performed at the head of the matrix queue, and waits for it. -/
def transfer (fn : Nat) (f : FmtT) (s : State) : Except Stop State := do
  let pay := f.p.getD 0
  let v ← if fn = 1 || fn = 3 then readVector s 0 (pay.extractLsb' 0 6) else .ok 0
  let ix ← readScalar s 1 (pay.extractLsb' 6 6)
  match s.core.ctx.mq.find? fun x => !x.own && x.pc == s.curPc && isTransfer x with
  | some x =>
    if (s.core.ctx.mq.head?.map Entry.id) == some x.id && s.core.ctx.slotsClear f.wait.toNat x.id then do
      let s := s.modCtx fun c => c.completeEntry .matrix x.id
      deliver f.wait.toNat [.matrix] s
      moveTile fn f ix v s
    else stall s
  | none => do
    deliver f.wait.toNat (if s.core.ctx.mq.isEmpty then [.matrix] else []) s
    if s.core.ctx.mq.isEmpty && s.core.ctx.slotsClear f.wait.toNat s.numCtr then moveTile fn f ix v s
    else do
      let t ← enqueue .matrix (.tile 0x60 fn f []) f.set.toNat f.wait s
      stall t

/-- TCFG -/
def execTcfg (f : FmtT) := issueT f (tileForm 0x60 0 f)
/-- TROWIN -/
def execTrowin (f : FmtT) := issueT f (transfer 1 f)
/-- TROWOUT -/
def execTrowout (f : FmtT) := issueT f (transfer 2 f)
/-- TCOLIN -/
def execTcolin (f : FmtT) := issueT f (transfer 3 f)
/-- TCOLOUT -/
def execTcolout (f : FmtT) := issueT f (transfer 4 f)
/-- TZERO -/
def execTzero (f : FmtT) := issueT f (tileForm 0x60 5 f)
/-- TFREE -/
def execTfree (f : FmtT) := issueT f (tileForm 0x60 6 f)
/-- TLD -/
def execTld (f : FmtT) := issueT f (tileForm 0x61 0 f)
/-- TST -/
def execTst (f : FmtT) := issueT f (tileForm 0x61 1 f)
/-- TMMA_BF16 -/
def execTmmaBf16 (f : FmtT) := issueT f (tileForm 0x62 0 f)
/-- TMMA_SX7 -/
def execTmmaSx7 (f : FmtT) := issueT f (tileForm 0x62 1 f)
/-- TMMA_SX4 -/
def execTmmaSx4 (f : FmtT) := issueT f (tileForm 0x62 2 f)
/-- TMMA_SX2 -/
def execTmmaSx2 (f : FmtT) := issueT f (tileForm 0x62 3 f)
/-- GISSUE_BF16 -/
def execGissueBf16 (f : FmtT) := issueT f (tileForm 0x63 0 f)
/-- GISSUE_SX7 -/
def execGissueSx7 (f : FmtT) := issueT f (tileForm 0x63 1 f)
/-- GISSUE_SX4 -/
def execGissueSx4 (f : FmtT) := issueT f (tileForm 0x63 2 f)
/-- GISSUE_SX2 -/
def execGissueSx2 (f : FmtT) := issueT f (tileForm 0x63 3 f)
/-- TACCRD -/
def execTaccrd (f : FmtT) := issueT f (tileForm 0x64 0 f)
/-- TACCWR -/
def execTaccwr (f : FmtT) := issueT f (tileForm 0x64 1 f)
/-- TACCZERO -/
def execTacczero (f : FmtT) := issueT f (tileForm 0x64 2 f)

end Sys2Proof.Machine
end

