-- ==== Sys2Proof/Machine/Context.lean ====
section
/-! DEFINITION. Thread contexts: images (R223, R224), residency and run lists (R26, R219), held deposits
(R95, R222), leaders and followers (R28-R31), the end and the abort of gangs (R23, R24). -/

namespace Sys2Proof.Machine

open Sys2Proof

/-! ### Deposits (R95, R96) -/

/-- A deposit performed on registers; `same` tells that a local write of the register fell in the same cycle. An SWR of
MBSTAT, or an MBCLR, that clears FULL bit k in the cycle of a deposit to mb k is performed before the deposit, which then
finds FULL clear and leaves OVR clear. DESIGN CHOICE, log entry 32: R95 and R96 do not say which of them OVR follows. -/
def Regs.deposit (r : Regs) (d : Deposit) (same : Bool) : Regs :=
  let k := d.reg
  let full := same || r.mbstat.getLsbD k
  let bits : BitVec 12 := BitVec.ofNat 12 (2 ^ k + (if r.mbstat.getLsbD k then 2 ^ (4 + k) else 0) +
    (if same && full then 2 ^ (8 + k) else 0))
  dirtyGrp { r with
    mb := r.mb.setIfInBounds k d.val
    mbstat := r.mbstat ||| bits } 6

/-- A deposit performed on a context: on its registers, and on those that a load's fault would put back. -/
def Ctx.deposit (c : Ctx) (d : Deposit) (same : Bool) : Ctx :=
  { c with
    regs := c.regs.deposit d same
    pend := c.pend.map fun p => { p with undo := p.undo.map fun u => { u with regs := u.regs.deposit d same } } }

/-! ### Images (R223, R224) -/

/-- Whether a context has drained (R220): its loads are written, or have failed, its stores acknowledged, its matrix
engine's started form complete, its copy engine's atoms written. -/
def Ctx.drained (c : Ctx) : Bool :=
  c.pend.all Pend.failed && c.unacked == 0 && c.asked.isNone && !copyDraining c &&
  match c.mq with
  | [] => true
  | x :: _ => match x.work with
    | .marker => false
    | _ => true

/-- Tiles as an image holds them (R208, R223): a tile with V = 0 and acc with ACCV = 0 are zero. -/
def TileRegs.imaged (t : TileRegs) (accv : Bool) : TileRegs :=
  let keep := fun (k : Nat) => shapeV (t.shape[k]?.getD 0)
  { t with
    data := Vector.ofFn fun k : Fin 8 => if keep k then t.data[k] else 0
    scales := Vector.ofFn fun k : Fin 8 => if keep k then t.scales[k] else 0
    scnt := Vector.ofFn fun k : Fin 8 => if keep k then t.scnt[k] else 0
    acc := if accv then t.acc else 0 }

/-- The registers that a save leaves in the image area: a group whose section is written as the core holds it, another
as the section stands (R223). -/
def Regs.saved (r old : Regs) (writes : Nat → Bool) : Regs :=
  let e := fun (k : Fin 192) => if writes (2 + k.val / 64) then r.e[k] else old.e[k]
  { r with
    g := if writes 0 then r.g else old.g
    gq := if writes 0 then r.gq else old.gq
    v := if writes 1 then r.v else old.v
    vq := if writes 1 then r.vq else old.vq
    e := Vector.ofFn e
    m := if writes 5 then r.m else old.m
    mb := if writes 6 then r.mb else old.mb
    mbstat := if writes 6 then r.mbstat else old.mbstat }

/-- The tiles and acc that a save leaves in the image area (R208, R223): a section is written where TSHAPE.V, or ACCV,
and `writes` say so. -/
def TileRegs.saved (t old : TileRegs) (accv : Bool) (writes : Nat → Bool) : TileRegs :=
  let put := fun (k : Nat) => shapeV (t.shape[k]?.getD 0) && writes k
  { t with
    data := Vector.ofFn fun k : Fin 8 => if put k then t.data[k] else old.data[k]
    scales := Vector.ofFn fun k : Fin 8 => if put k then t.scales[k] else old.scales[k]
    scnt := Vector.ofFn fun k : Fin 8 => if put k then t.scnt[k] else old.scnt[k]
    acc := if accv && writes 8 then t.acc else old.acc }

/-- A save (R224): a delta, which writes the sections that their dirty bits mark, where the base generation is the image's;
else full. The image generation and the base generation move on and the dirty bits clear. What the thread resumes with is
its image. A transfer form that waits is not performed (R207); the captured body is recaptured (R61). -/
def Ctx.save (c : Ctx) : Ctx :=
  let ig := if c.ig = BitVec.allOnes 32 then 1 else c.ig + 1
  let gone := c.mq.filter fun x => isTransfer x
  let c := gone.foldl (fun c x => c.completeEntry .matrix x.id) c
  let full := !(c.base == some c.ig && c.ig != 0)
  let old := c.image.getD { regs := Regs.reset, tiles := TileRegs.reset }
  let accv := tswAccv c.regs.tsw
  let regs := c.regs.saved old.regs fun k => full || c.regs.grpdirty.getLsbD k
  let tiles := c.tiles.saved old.tiles accv fun k => full || c.regs.tdirty.getLsbD k
  { c with
    tiles := tiles.imaged accv
    ig := ig
    base := some ig
    regs := { regs with grpdirty := 0, tdirty := 0 }
    image := some { regs := regs, tiles := tiles }
    frame := none
    matrix := { c.matrix with frame := none, wait := .none }
    copy := { c.copy with frame := none, wait := .none }
    flue := { c.flue with frame := none, wait := .none }
    board := []
    wait := .none
    waitGroup := none }

/-! ### Leaders and followers (R28-R31) -/

/-- Whether a context is an attached follower. -/
def Ctx.attached (c : Ctx) : Bool := tswFol c.regs.tsw && !tswDet c.regs.tsw

/-- The leader's core of a follower on a core (R28). -/
def leaderOf (core : Nat) (c : Ctx) : Nat := core / 8 * 8 + tswLead c.regs.tsw

/-- Whether a context's follower set holds a core. -/
def Ctx.leads (c : Ctx) (core : Nat) : Bool := (tswFset c.regs.tsw).testBit (core % 8)

/-- Changes the TSW of a core's thread. -/
def modTsw (s : State) (core : Nat) (f : Word → Word) : State :=
  s.modCore core fun k => { k with ctx := { k.ctx with regs := { k.ctx.regs with tsw := f k.ctx.regs.tsw } } }

/-- The attached followers of a leader's core. -/
def attachedOf (s : State) (core : Nat) : List Nat :=
  ((List.range 8).map fun i => core / 8 * 8 + i).filter fun f =>
    f != core && (s.getCore core).ctx.leads f && (s.getCore f).ctx.attached && leaderOf f (s.getCore f).ctx == core

/-- The attached followers of a leader detach (R29). -/
def detachFollowers (s : State) (core : Nat) : State :=
  (attachedOf s core).foldl (fun t f => t.modCore f Core.detach) s

/-- A context without what makes it a follower. -/
def Ctx.unled (c : Ctx) : Ctx :=
  { c with regs := { c.regs with tsw := setField (setField (setField c.regs.tsw 4 2 0) 8 3 0) 11 3 0 } }

/-- The set of the leader of a core's context loses the core, wherever the leader's own context stands. -/
def leaveLed (s : State) (core : Nat) (c : Ctx) : State :=
  if !tswFol c.regs.tsw then s
  else
    let l := leaderOf core c
    let f := fun (x : Ctx) => { x with regs := { x.regs with tsw := setField x.regs.tsw (16 + core % 8) 1 0 } }
    let s := s.modCore l fun k => { k with ctx := f k.ctx, runList := k.runList.map f }
    s.modStove (l / 256) fun t => { t with saved := t.saved.map fun v => if v.core = l then { v with ctx := f v.ctx } else v }

/-- A follower leaves its leader's set (R31). -/
def leaveSet (s : State) (core : Nat) : State :=
  let c := (s.getCore core).ctx
  if !tswFol c.regs.tsw then s
  else (leaveLed s core c).modCore core fun k => { k with ctx := k.ctx.unled, chain := [] }

/-- The contexts of a core: on it, on its run list, and those that the Stove holds for it. -/
def contextsOf (s : State) (core : Nat) : List Ctx :=
  let k := s.getCore core
  ((k.ctx :: k.runList).filter Ctx.present) ++
    (((s.cube (core / 256)).stove.saved.filter fun v => v.core == core).map SavedCtx.ctx)

/-- A context stops running on its core for a while: its followers detach, and it leaves its leader's set
(R29, R31, R148). -/
def standDown (s : State) (core : Nat) : State := leaveSet (detachFollowers s core) core

/-! ### Residency (R26) -/

/-- The deposits that were held while no context was resident are performed, in order, on the one that now is
(R222). -/
def Core.takeHeld (k : Core) : Core :=
  { k with ctx := k.held.foldl (fun c d => c.deposit d false) k.ctx, held := [] }

/-- Whether a core is in the gang of a refinement run, so that no user instruction runs on it (R419). -/
def runCore (s : State) (core : Nat) : Bool := (s.cube (core / 256)).runs.any fun r => r.cores.contains core

/-- The head of the run list becomes resident where no context is, with a new quantum (R26), unless the core is in the gang of
a refinement run (R419); held deposits are performed on it before its first instruction (R222). -/
def nextResident (s : State) (core : Nat) : State :=
  let k := s.getCore core
  if k.ctx.present || k.lost || runCore s core then s
  else match k.runList with
    | [] => s
    | c :: l =>
      let c := { c with status := .resident, residentAt := (s.cube (core / 256)).clock }
      s.setCore core { k with ctx := c, runList := l, chain := [], mbWrite := none }.takeHeld

/-- A request to stop a thread, but for the end of its quantum. -/
def Interrupt.holds (p : Interrupt) : Bool := p != .quantum

/-- A thread on a core's run list that has been asked to stop is saved and handed to the Stove once its loads have been
answered (R218-R221): a pre-empted one may be returned, one stopped for debug waits for its resumption (R455). -/
def settleStops (s : State) (core : Nat) : State :=
  let k := s.getCore core
  let due := fun (c : Ctx) => c.pending.any Interrupt.holds && c.pend.all Pend.failed
  let out := (k.runList.filter due).map fun c =>
    ({ ctx := { c.save with status := .saved, pending := [] }, core := core, report := none
       handled := !c.pending.contains .stop } : SavedCtx)
  if out.isEmpty then s
  else (s.modCore core fun k => { k with runList := k.runList.filter fun c => !due c }).modStove (core / 256) fun t =>
    { t with saved := t.saved ++ out }

/-- The resident context is saved to the tail of the run list and the head becomes resident (R26, R219). -/
def rotate (s : State) (core : Nat) : State :=
  let s := standDown s core
  let s := s.modCore core fun k => { k with
    ctx := k.ctx.vacant
    runList := k.runList ++ [{ k.ctx.save with status := .queued }] }
  nextResident s core

/-! ### The ends of reduction rounds (R371) -/

/-- A round that ends mismatched (R371): a message with LEN 0 to the core of each contribution; MISM and error
counter 6 count it. -/
def endMismatched (s : State) (n : Nat) (r : Round) : State :=
  match s.group 0 n with
  | none => s
  | some g =>
    let s := s.setGroup 0 { g with
      mism := min 7 (g.mism + 1)
      rounds := g.rounds.filter fun x => x.id != r.id }
    let s := s.errCount g.home 6
    r.parts.foldl (fun t c => sendMsg t (.dispatcher c.rootCube) 0 c.rootCube (c.core / 256) (c.core % 256)
      { tag := BitVec.allOnes 32, score := c.rootCore, scube := c.rootCube, sys := true, payload := [] }) s

/-! ### Threads that end -/

/-- Every context of a thread goes: from its core, from run lists, from the Stove, from flights. -/
def dropThread (s : State) (tid : Nat) : State :=
  let f := fun (k : Core) => { k with
    ctx := if k.ctx.tid = tid && k.ctx.present then k.ctx.vacant else k.ctx
    runList := k.runList.filter fun c => c.tid != tid }
  { s with
    core := f s.core
    cores := s.cores.map fun p => (p.1, f p.2)
    cubes := s.cubes.map fun p => (p.1, { p.2 with stove := { p.2.stove with
      saved := p.2.stove.saved.filter fun v => v.ctx.tid != tid
      frames := p.2.stove.frames.filter fun x => x.2.2 != tid } })
    flights := s.flights.filter fun x => match x.body with
      | .context _ c => c.tid != tid
      | _ => true }

/-- The copy commands of a context that goes release what they own (R265, R283). -/
def releaseOwned (s : State) (core : Nat) (c : Ctx) : State := c.cq.foldl (fun t x => releaseEntry t core c.tid x) s

/-- The range maps that a gang's threads made and did not unmap, on any cube (R24): a member may have migrated. -/
def gangMaps (s : State) (gang : Nat) : List (Nat × RangeMap) :=
  let own := fun (k : Core) => k.maps.filter fun m => m.gang == some gang
  ((s.me, s.core) :: s.cores).flatMap fun p => (own p.2).map fun m => (p.1, m)

/-- Whether a range map may be undone now: no copy engine owns an atom of it (R304). -/
def mayUnmap (s : State) (core : Nat) (m : RangeMap) : Bool :=
  notOwned s (core / 256) (spadAddr core (4096 * m.spo)) (4096 * m.units)

/-- A gang that has ended completes, once the dispatcher has undone each of its maps as UNMAPR does (R23, R24, R304): its
launch group is dissolved and its work reports its status. None while a map must wait. -/
def finishGang (s : State) (cube : Nat) (g : Gang) (status : BitVec 16) : Option State :=
  let ms := gangMaps s g.id
  if !(ms.all fun m => mayUnmap s m.1 m.2) then none
  else
    let s := ms.foldl (fun u m => unmapSwitch u m.1 m.2) s
    let s := s.freeGroup cube g.group
    let s := s.modCube cube fun q => { q with gangs := q.gangs.filter fun x => x.id != g.id }
    some (reportDone s cube (some g.origin) status)

/-- Changes a gang of a cube. -/
def modGang (s : State) (cube id : Nat) (f : Gang → Gang) : State :=
  s.modCube cube fun q => { q with gangs := q.gangs.map fun g => if g.id = id then f g else g }

/-- A gang ends (R23, R24): it completes, or waits for its maps. -/
def gangEnd (s : State) (cube : Nat) (g : Gang) (status : BitVec 16) : State :=
  (finishGang s cube g status).getD (modGang s cube g.id fun x => { x with ending := some status })

/-- A gang that waited for its maps completes (R24). -/
def endedGang (s : State) (cube : Nat) : Option State :=
  (s.cube cube).gangs.findSome? fun g => g.ending.bind fun status => finishGang s cube g status

/-- A member has halted; when every member has, the gang ends with status OK (R23). -/
def gangHalt (s : State) (id tid : Nat) : State :=
  match findGang s id with
  | none => s
  | some (cube, g) =>
    match g.members.find? fun m => m.2.1 == tid with
    | none => s
    | some (rank, _, _) =>
      let g' := { g with halted := insertNat g.halted rank }
      let s := modGang s cube id fun _ => g'
      if g'.halted.length = g.members.length then gangEnd s cube g' statusOk else s

/-- A thread is removed from a group by an abort (R23): an open round that awaits it ends mismatched first. -/
def expel (s : State) (cube n tid : Nat) : State :=
  match s.group cube n with
  | none => s
  | some g =>
    let due := g.rounds.filter fun r => r.members.contains tid && !(r.parts.any fun c => c.tid == tid)
    removeMember (due.foldl (fun t r => endMismatched t n r) s) cube n tid

/-- Aborts a gang with a status (R23, R215, R228): every member leaves its groups other than the launch group
in ascending number, its context is discarded, and the gang ends. -/
def abortGang (s : State) (id : Nat) (status : BitVec 16) : State :=
  match findGang s id with
  | none => s
  | some (cube, g) =>
    let one := fun (t : State) (m : Nat × Nat × Nat) =>
      match t.thread m.2.1 with
      | none => t
      | some (core, c) =>
        let ns := ((groupsOf t (core / 256) m.2.1).map Group.num).filter fun n => n != g.group || core / 256 != cube
        let t := (sortBy (fun a b => a ≤ b) ns).foldl (fun u n => expel u (core / 256) n m.2.1) t
        let t := if (t.getCore core).ctx.tid = m.2.1 then standDown t core else leaveLed t core c
        nextResident (dropThread (releaseOwned t core c) m.2.1) core
    gangEnd (g.members.foldl one s) cube g status

/-- A thread that belongs to no gang is discarded alone. -/
def abortThread (s : State) (core tid : Nat) : State := nextResident (dropThread s tid) core

/-- Retires the moving core's thread, which is RETIRED (R24, R27, R149): its groups are left already; its gang learns of
it. -/
def retireThread (s : State) : State :=
  let tid := s.core.ctx.tid
  let gang := s.core.ctx.gang
  let me := s.me
  let s := leaveSet s me
  let s := (dropThread s tid).modCtx fun c => { c with tid := tid, status := .retired }
  let s := match gang with
    | some id => gangHalt s id tid
    | none => s
  nextResident s me

end Sys2Proof.Machine
end

