-- ==== Sys2Proof/Machine/Sync.lean ====
section
/-! DEFINITION. Waits and wait slots (R36, R447), groups, barriers, dependency slots and counters: SYNC and
CNT (R426-R447). -/

namespace Sys2Proof.Machine

open Sys2Proof

/-! ### Waits -/

/-- The wait record of the moving sequencer. -/
def State.waitOf (s : State) : WaitState :=
  match s.seqr with
  | .main => s.core.ctx.wait
  | e => (s.core.ctx.engine e).wait

/-- Sets the wait record of the moving sequencer; a main sequencer's thread is WAITING (R27). -/
def State.setWait (s : State) (w : WaitState) : State :=
  match s.seqr with
  | .main => s.modCtx fun c => { c with
      wait := w, status := if c.status = .resident then .waiting else c.status }
  | e => s.modCtx fun c => c.modEngine e fun g => { g with wait := w }

/-- A wait that holds no wait slot (R36): the thread is WAITING and the instruction executes again. -/
def waitHere {α : Type} (s : State) : Except Stop α :=
  .error (.wait (match s.seqr with
    | .main => s.modCtx fun c => { c with status := if c.status = .resident then .waiting else c.status }
    | _ => s))

/-- A release inside a restartable wait (R272). -/
def releaseWait (s : State) : Except Stop Unit :=
  if s.core.ctx.stores = 0 && s.core.ctx.pend.isEmpty then .ok () else waitHere s

/-- The waits of a core's thread that `p` selects. -/
def Core.waits (c : Core) (p : WaitState → Bool) : Nat :=
  if !c.ctx.present then 0
  else ([c.ctx.wait, c.ctx.matrix.wait, c.ctx.copy.wait, c.ctx.flue.wait].filter p).length

/-- The waits on a cube that `p` selects. -/
def waitsOn (s : State) (cube : Nat) (p : WaitState → Bool) : Nat :=
  ((s.cores.filter fun x => x.1 / 256 = cube).map fun x => x.2.waits p).sum +
    if s.myCube = cube then s.core.waits p else 0

/-- A wait that holds a slot. -/
def WaitState.holds : WaitState → Bool
  | .slot _ => true
  | _ => false

/-- A wait at a REJOIN (R31). -/
def WaitState.rejoins : WaitState → Bool
  | .rejoin _ => true
  | _ => false

/-- A wait that polls. -/
def WaitState.polls : WaitState → Bool
  | .poll _ _ => true
  | _ => false

/-- The issue number below which a wait counts: that of its start (R441). -/
def State.since (s : State) : Nat :=
  match s.waitOf with
  | .slot k => k
  | .poll k _ => k
  | _ => s.numCtr

/-- A wait whose condition is false takes a wait slot, keeps it, or polls; WAIT_EXHAUSTED on the main
sequencer where VTRAP asks for it (R447). The state holds what the wait has recorded. -/
def waitSlot {α : Type} (s : State) : Except Stop α :=
  let k := s.since
  let free := waitsOn s s.myCube WaitState.holds < 512
  match s.waitOf with
  | .slot _ => .error (.wait (s.setWait (.slot k)))
  | .poll _ n =>
    .error (.wait (s.setWait (if free then .slot k else .poll k (min 65536 (2 * n)))))
  | _ =>
    if free then .error (.wait (s.setWait (.slot k)))
    else
      let t := s.errCount s.myCube 12
      if s.seqr = .main && tswVtrap s.regs.tsw then trapHere t .waitExhausted
      else .error (.wait (t.setWait (.poll k 64)))

/-! ### Groups (R426, R435, R436) -/

/-- An instruction that changes a barrier does so past its own boundary: a checkpoint captured by the release
then finds it completed (R227, R448). -/
def State.past (s : State) (words stall : Nat) : State := (s.advance words).retire stall

/-- The group a LEAVE, ARRIVE, ARRW or WAITB names, with the checks of R435. -/
def checkGroup (s : State) (x : Word) : Except Stop (Nat × Group × Member) :=
  match groupNum s x with
  | none => trapHere s .groupInvalid
  | some n => match s.group s.myCube n with
    | none => trapHere s .groupInvalid
    | some g =>
      if g.asid ≠ s.asidId then trapHere s .groupInvalid
      else match g.member s.core.ctx.tid with
        | none => trapHere s .groupInvalid
        | some m => .ok (n, g, m)

/-- The group operand of a SYNC instruction. -/
def groupOperand (f : FmtA) (s : State) : Except Stop Word := do
  needUnused s f.d
  needUnused s f.b
  readScalar s 0 f.a

/-- A new group bound by a JOIN (R427). -/
def newGroup (s : State) (n : Nat) : Group :=
  { num := n, asid := s.asidId, launch := none, phase := 0, members := [], mism := 0, pend := [],
    home := s.myCube, sent := [], got := [], lag := [], rounds := [] }

/-- JOIN (R435). -/
def joinBody (f : FmtA) (s : State) : Except Stop State := do
  let x ← groupOperand f s
  match groupNum s x with
  | none => trapHere s .groupInvalid
  | some n =>
    let tid := s.core.ctx.tid
    let g := (s.group s.myCube n).getD (newGroup s n)
    if g.asid ≠ s.asidId then trapHere s .groupInvalid
    else if (g.member tid).isSome then .ok s
    else if 8 ≤ (groupsOf s s.myCube tid).length then trapHere s .groupInvalid
    else if g.members.any fun m => m.core == s.me then trapHere s .groupInvalid
    else if !g.rounds.isEmpty then waitHere s
    else .ok (s.setGroup s.myCube { g with members := g.members ++ [{ tid := tid, core := s.me, arrived := none }] })

/-- JOIN -/
def execJoin (f : FmtA) := issueA f (joinBody f)

/-- LEAVE (R435). -/
def leaveBody (f : FmtA) (s : State) : Except Stop State := do
  let x ← groupOperand f s
  let (n, g, _) ← checkGroup s x
  releaseWait s
  if !g.rounds.isEmpty then waitHere s
  else .ok (removeMember (s.past 1 f.s.toNat) s.myCube n s.core.ctx.tid)

/-- LEAVE -/
def execLeave (f : FmtA) (s : State) := finish (leaveBody f s)

/-- Leaves every group of the thread in ascending number (R149); while a round of one is open, HALT waits there, out of the
groups before it. -/
def leaveAll (s : State) : List Group → Except Stop State
  | [] => .ok s
  | g :: l =>
    match s.group s.myCube g.num with
    | none => leaveAll s l
    | some h =>
      if !h.rounds.isEmpty then waitHere s
      else leaveAll (removeMember s s.myCube g.num s.core.ctx.tid) l

/-! ### Arriving and waiting (R436-R439) -/

/-- ARRIVE (R437). -/
def arriveBody (f : FmtA) (s : State) : Except Stop State := do
  let x ← groupOperand f s
  let (n, g, m) ← checkGroup s x
  if m.arrived = some (g.phaseAt s.myCube) then trapHere s .groupInvalid
  else do
    release s
    .ok (arriveAt (s.past 1 f.s.toNat) s.myCube n s.core.ctx.tid)

/-- ARRIVE -/
def execArrive (f : FmtA) (s : State) := finish (arriveBody f s)

/-- Whether the phase of a thread's arrival record has released (R438, R439). -/
def releasedFor (s : State) (n : Nat) : Bool :=
  match s.group s.myCube n with
  | none => true
  | some g => match (g.member s.core.ctx.tid).bind Member.arrived with
    | none => true
    | some q => q != g.phaseAt s.myCube

/-- TSW.AP of the moving thread. -/
def setAp (b : Bool) (s : State) : State := s.modRegs fun r => { r with tsw := tswSet r.tsw 2 b }

/-- The wait of ARRW and WAITB for the released phase, then the acquire at the group's scope. -/
def waitPhase (n : Nat) (s : State) : Except Stop State :=
  if releasedFor s n then .ok (acquire (groupScope n) s)
  else waitSlot (s.modCtx fun c => { c with waitGroup := some n })

/-- ARRW (R438): with AP = 0, or with no arrival record, it arrives; then it waits. -/
def arrwBody (f : FmtA) (s : State) : Except Stop State := do
  let x ← groupOperand f s
  let record : Option Nat := match checkGroup s x with
    | .ok (n, _, m) => m.arrived.map fun _ => n
    | .error _ => none
  match if tswAp s.regs.tsw then record else none with
  | some n => do
    let t ← waitPhase n s
    .ok (setAp false t)
  | none => do
    let (n, g, m) ← checkGroup s x
    if m.arrived = some (g.phaseAt s.myCube) then trapHere s .groupInvalid
    else do
      releaseWait s
      let w := s.waitOf
      let t := (setAp true s).modCtx fun c => { c with wait := .slot s.numCtr, waitGroup := some n }
      let t := arriveAt t t.myCube n t.core.ctx.tid
      let t ← waitPhase n (t.modCtx fun c => { c with wait := w })
      .ok (setAp false t)

/-- ARRW -/
def execArrw (f : FmtA) := issueA f (arrwBody f)

/-- WAITB (R439). -/
def waitbBody (f : FmtA) (s : State) : Except Stop State := do
  let x ← groupOperand f s
  let (n, _, _) ← checkGroup s x
  waitPhase n s

/-- WAITB -/
def execWaitb (f : FmtA) := issueA f (waitbBody f)

/-! ### Dependency slots (R440-R442) -/

/-- DSWAIT (R441). -/
def dswaitBody (f : FmtA) (s : State) : Except Stop State := do
  let x ← groupOperand f s
  if field x 8 56 ≠ 0 then trapHere s .counterInvalid
  else
    let mask := field x 0 8
    if mask = 0 then .ok s
    else if !s.core.ctx.slotsClear mask s.since then waitSlot s
    else match s.seqr with
      | .main => do
        deliver mask [] s
        .ok s
      | e =>
        if s.core.ctx.marks.any fun m => mask.testBit m.slot then
          .error (.wait (s.modCtx fun c => c.modEngine e fun g => { g with running := false, wait := .none }))
        else .ok s

/-- DSWAIT -/
def execDswait (f : FmtA) := issueA f (dswaitBody f)

/-- Whether every request of a thread before an issue number has been answered, and every TST issued before it has written
(R425): its release is performed (R272, R442). -/
def earlierDone (s : State) (c : Ctx) (id : Nat) : Bool :=
  let own := fun (f : Flight) => f.tid == c.tid && f.num < id && match f.src with
    | .main _ => true
    | .engine _ .matrix => true
    | _ => false
  let earlier := fun (x : Entry) => x.id < id && (x.isTst || x.performed)
  !c.mq.any earlier && !s.flights.any own && s.cubes.all fun p => p.2.ingress.all fun x => !(x.2.any own)

/-- The markers of the main sequencer whose release has been performed cease to be counted (R442). -/
def settleMarkers (s : State) (tid : Nat) : State :=
  s.modThread tid fun c =>
    let done := c.markers.filter fun id => earlierDone s c id
    { c with
      markers := c.markers.filter fun id => !done.contains id
      counted := c.counted.filter fun x => !done.contains x.id }

/-- DSSET (R442). -/
def dssetBody (f : FmtA) (s : State) : Except Stop State := do
  let x ← groupOperand f s
  if field x 3 61 ≠ 0 then trapHere s .counterInvalid
  else
    let k := field x 0 3
    match s.seqr with
    | .main =>
      if 255 ≤ s.core.ctx.slotCount k then stall s
      else if s.core.ctx.stores = 0 && s.core.ctx.pend.isEmpty then .ok s
      else
        let id := s.numCtr
        .ok ({ s with numCtr := s.numCtr + 1 }.modCtx fun c => { c with
          markers := c.markers ++ [id]
          counted := c.counted ++ [Counted.mk k id] })
    | e => enqueue e .marker k 0 s

/-- DSSET -/
def execDsset (f : FmtA) := issueA f (dssetBody f)

/-! ### Counters (R443, R444) -/

/-- The group of a counter selector: bound to the thread's ASID (R443). -/
def counterGroup (s : State) (idx : Nat) : Except Stop Group :=
  match (groupNum s (BitVec.ofNat 64 idx)).bind fun n => s.group s.myCube n with
  | none => trapHere s .counterInvalid
  | some g => if g.asid = s.asidId then .ok g else trapHere s .counterInvalid

/-- PHASE, MEMB, bit 58 and MISM of the barrier word (R429), which the home of a network group gives (R432). -/
def barrierHome (g : Group) : Nat := g.phase.toNat + g.members.length % 2 ^ 20 * 2 ^ 16 + 2 ^ 58 + g.mism % 8 * 2 ^ 59

/-- ARR, SELF and SARR of the barrier word (R429), for a network group those of the reader's own cube (R432). -/
def barrierLocal (s : State) (g : Group) : Nat :=
  let cube := s.myCube
  let open_ := g.phaseAt cube
  let arr := (g.members.filter fun m => m.arrived == some open_ && (g.num < 4096 || m.core / 256 = cube)).length
  let me := g.member s.core.ctx.tid
  let bit := fun (b : Bool) (k : Nat) => if b then 2 ^ k else 0
  arr % 2 ^ 20 * 2 ^ 36 + bit me.isSome 56 + bit (me.any fun m => m.arrived == some open_) 57

/-- The barrier word (R429). -/
def barrierWord (s : State) (g : Group) : Word := BitVec.ofNat 64 (barrierHome g + barrierLocal s g)

/-- A read of a network group's barrier state is an ORDERED request to the barrier home (R444): it is performed there, after the
thread's earlier requests of that pair, or travels, and the instruction waits for its reply. A home that is lost traps
PEER_LOST (R238) at the instruction's address: DESIGN CHOICE, log entry 96. -/
def netBarrier (s : State) (g : Group) : Except Stop (Word × State) :=
  if peerLost s g.home then trapHere s .peerLost
  else if s.answerLater && s.seqr == .main then do
    needRoom s [256 * g.home]
    let t := s.send (.main s.me) s.core.ctx.tid .ordered s.myCube g.home (256 * g.home) none (.barrierRead g.num)
    .error (.wait (t.modCtx fun c => { c with asked := some (s.numCtr, none) }))
  else do
    let t ← drainPair s (256 * g.home)
    .ok (barrierWord t g, t)

/-- The reply to such a request: what the home gave, with the reader's own part (R432). -/
def netAnswer (s : State) (g : Option Group) (r : OnceAnswer) : Except Stop (Word × State) :=
  let t := s.modCtx fun c => { c with asked := none }
  match r.code with
  | some k => trapHere t k
  | none => .ok (BitVec.ofNat 64 (r.image + (g.map (barrierLocal s)).getD 0), t)

/-- The barrier state of a group (R443, R444). -/
def barrierValue (s : State) (idx : Nat) : Except Stop (Word × State) :=
  match if s.seqr == .main then s.core.ctx.asked else none with
  | some (_, none) => stall s
  | some (_, some r) => netAnswer s ((groupNum s (BitVec.ofNat 64 idx)).bind fun n => s.group s.myCube n) r
  | none => do
    let g ← counterGroup s idx
    if 4096 ≤ g.num then netBarrier s g else .ok (barrierWord s g, s)

/-- The value of a counter by class and index (R443), and the state after its read. -/
def counterValue (s : State) (cls idx : Nat) : Except Stop (Word × State) :=
  let bad : Except Stop (Word × State) := trapHere s .counterInvalid
  let inside := fun (n : Nat) (v : Nat) => if idx < n then .ok (BitVec.ofNat 64 v, s) else bad
  match cls with
  | 0 => inside 8 (s.core.ctx.slotCount idx % 256 + if s.core.ctx.marked idx then 256 else 0)
  | 1 => inside 1 s.core.ctx.stores
  | 2 => inside 4 (s.core.vers.getD idx 0).toNat
  | 3 => barrierValue s idx
  | 4 => do
    let g ← counterGroup s idx
    .ok ((g.pending s.myCube).signExtend 64, s)
  | 5 => inside 2 (waitsOn s s.myCube (if idx = 0 then WaitState.holds else WaitState.polls))
  | 6 => inside 16 (s.core.perf[idx]?.getD 0).toNat
  | 7 => inside 16 ((s.cube s.myCube).errs[idx]?.getD 0).toNat
  | 8 => inside 1 (s.cube s.myCube).clock.toNat
  | _ => bad

/-- The class and index of a selector (R443). -/
def selector (s : State) (x : Word) : Except Stop (Nat × Nat) :=
  if field x 13 3 ≠ 0 || field x 20 44 ≠ 0 then trapHere s .counterInvalid
  else .ok (field x 16 4, field x 0 13)

/-- CNTRD (R444). -/
def cntrdBody (f : FmtA) (s : State) : Except Stop State := do
  needDst s f.d
  needUnused s f.b
  let x ← readScalar s 0 f.a
  let (cls, idx) ← selector s x
  let (v, t) ← counterValue s cls idx
  .ok (writeScalar 0 f.d v t)

/-- CNTRD -/
def execCntrd (f : FmtA) := issueA f (cntrdBody f)

/-- CNTADD (R444): the old value is its result; the step follows at the barrier (R431). -/
def cntaddBody (f : FmtA) (s : State) : Except Stop State := do
  needDst s f.d
  let x ← readScalar s 0 f.a
  let b ← readScalar s 1 f.b
  let (cls, idx) ← selector s x
  if cls ≠ 4 then trapHere s .counterInvalid
  else do
    let g ← counterGroup s idx
    if (g.member s.core.ctx.tid).isNone then trapHere s .counterInvalid
    else
      let t := writeScalar 0 f.d ((g.pending s.myCube).signExtend 64) s
      .ok (stepPending (t.past 1 f.s.toNat) s.myCube g.num (b.setWidth 48))

/-- CNTADD -/
def execCntadd (f : FmtA) (s : State) := finish (cntaddBody f s)

end Sys2Proof.Machine
end

