-- ==== Sys2Proof/Machine/Queue.lean ====
section
/-! DEFINITION. Task packets (R346, R347), and the instructions on queues: SPAWN, SEND, RECV, MSGWAIT, FORK,
RDV, GLAUNCH, NRED, DEP, MBCLR (R355, R361-R371). -/

namespace Sys2Proof.Machine

open Sys2Proof

/-! ### Packets (R346) -/

/-- Bits [lo + n - 1 : lo] of a packet, numbered from byte 0. -/
def pf (p : BitVec 1024) (lo n : Nat) : Nat := (p.extractLsb' lo n).toNat

/-- A packet with bits [lo + n - 1 : lo] replaced. -/
def setPf (p : BitVec 1024) (lo n v : Nat) : BitVec 1024 :=
  (p &&& ~~~(BitVec.ofNat 1024 ((2 ^ n - 1) * 2 ^ lo))) ||| BitVec.ofNat 1024 ((v % 2 ^ n) * 2 ^ lo)

def pVer (p : BitVec 1024) : Nat := pf p 0 8
def pOp (p : BitVec 1024) : Nat := pf p 8 8
def pChk (p : BitVec 1024) : Bool := p.getLsbD 16
def pVtrap (p : BitVec 1024) : Bool := p.getLsbD 17
def pCkpt (p : BitVec 1024) : Bool := p.getLsbD 18
def pFmt (p : BitVec 1024) : BitVec 2 := p.extractLsb' 19 2
def pAsid (p : BitVec 1024) : BitVec 24 := p.extractLsb' 32 24
def pTarget (p : BitVec 1024) : Nat := pf p 64 57
def pObj (p : BitVec 1024) : Word := p.extractLsb' 128 64
def pSeg (p : BitVec 1024) (k : Nat) : BitVec 16 := p.extractLsb' (192 + 16 * k) 16
def pRows (p : BitVec 1024) : Nat := pf p 256 5
def pCols (p : BitVec 1024) : Nat := pf p 261 3
def pPrio (p : BitVec 1024) : Nat := pf p 288 32
def pCka (p : BitVec 1024) : Nat := pf p 320 47
def pCkb (p : BitVec 1024) : Nat := pf p 384 47
def pRsl (p : BitVec 1024) : Word := p.extractLsb' 448 64
def pNcore (p : BitVec 1024) : Nat := pf p 512 8
def pNcube (p : BitVec 1024) : Nat := pf p 520 10
def pNv (p : BitVec 1024) : Bool := p.getLsbD 530
def pNtag (p : BitVec 1024) : BitVec 32 := p.extractLsb' 544 32
def pImglen (p : BitVec 1024) : Nat := pf p 576 32
def pG (p : BitVec 1024) (k : Nat) : Word := p.extractLsb' (640 + 64 * k) 64

/-- Whether a reserved bit of a packet is set (R346, R347). -/
def pReserved (p : BitVec 1024) : Bool :=
  pf p 21 11 != 0 || pf p 56 8 != 0 || pf p 121 7 != 0 || pf p 264 24 != 0 || pf p 367 17 != 0 ||
  pf p 431 17 != 0 || pf p 531 13 != 0 || pf p 608 32 != 0

/-- The global physical address of a place (R238, R239). -/
def globalOf (s : State) (p : Place) : Nat :=
  match p.region with
  | .mmio => p.cube * 2 ^ 47 + p.addr
  | .spad _ w => p.addr + w * 2 ^ 19
  | _ => logicalAddr s p.addr

/-- The home number under which a cube's Stove and dispatcher receive requests: past every core. -/
def stoveHome (cube : Nat) : Nat := 163840 + cube

/-- Sends a task packet of the moving thread (R367). -/
def sendPacket (s : State) (cube : Nat) (ilv : Option Nat) (p : BitVec 1024) : State :=
  let m := (s.cube s.myCube).imap.mgen
  s.send (.main s.me) s.core.ctx.tid .ordered s.myCube cube (stoveHome cube) (ilv.map fun i => (i, m))
    (.packet p none true)

/-! ### SPAWN and GLAUNCH (R355, R367) -/

/-- SPAWN (R367). -/
def spawnBody (f : FmtA) (s : State) : Except Stop State := do
  needUnused s f.d
  let a ← readScalar s 0 f.a
  let b ← readScalar s 1 f.b
  let (seg, o) := segAddr s a
  needAligned s seg o 64 .load
  let (bs, t) ← loadRaw s seg o 128
  let p := BitVec.ofNat 1024 (natOfBytes bs)
  if pVer p ≠ 1 || !(pOp p = 1 || pOp p = 2 || pOp p = 3) || pReserved p then trapAt s .queueInvalid o
  else do
    let (tseg, dst) := segAddr s b
    let ps ← place t tseg dst 1 .load fun _ => true
    match ps with
    | [] => .ok t
    | q :: _ => do
      release t
      needRoomIn t (stoveHome q.place.cube) .ordered
      let t ← addUnacked t 1
      .ok (sendPacket t q.place.cube q.place.ilv
        (setPf (setPf p 32 24 s.regs.asid.toNat) 64 57 (globalOf t q.place)))

/-- SPAWN -/
def execSpawn (f : FmtA) := issueA f fun s => waitUncounted s (spawnBody f s)

/-- The GRAPH packet of a GLAUNCH (R355). -/
def graphPacket (s : State) (a b : Word) (target : Nat) (segs : Nat) (prio : Nat) : BitVec 1024 :=
  BitVec.ofNat 1024 (1 + 2 * 2 ^ 8 + s.regs.asid.toNat * 2 ^ 32 + target * 2 ^ 64 + a.toNat * 2 ^ 128 +
    segs * 2 ^ 192 + prio * 2 ^ 288 + (s.myCore + s.myCube * 2 ^ 8 + 2 ^ 18 + field b 0 32 * 2 ^ 32) * 2 ^ 512)

/-- GLAUNCH (R355): it sends the GRAPH packet, waits for the admission reply, and answers the place. -/
def glaunchBody (f : FmtA) (s : State) : Except Stop State := do
  needDst s f.d
  let a ← readScalar s 0 f.a
  let b ← readScalar s 1 f.b
  let (seg, o) := segAddr s a
  match s.core.ctx.asked with
  | some (_, none) => stall s
  | some (_, some r) =>
    let t := s.modCtx fun c => { c with asked := none }
    match r.code with
    | some .graphQueueFull => trapAt t .graphQueueFull o
    | some .peerLost => trapAt t .peerLost o
    | some _ => trapHere t .queueInvalid
    | none => .ok (writeScalar 0 f.d (BitVec.ofNat 64 r.image) t)
  | none => do
    needAligned s seg o 64 .load
    let _ ← place s seg o 1 .load rawRegion
    release s
    let (bs, t) ← loadRaw s seg (o + 24) 20
    let target := natOfBytes (bs.take 8) % 2 ^ 57
    let p := graphPacket s a b target (natOfBytes ((bs.drop 8).take 8)) (natOfBytes (bs.drop 16))
    match resolveGlobal t target with
    | .error c => trapAt s c o
    | .ok (cube, _, ilv, lost) =>
      if lost || peerLost t cube then trapAt s .peerLost o
      else if mapHeld t && ilv.isSome then stall s
      else
        let num := t.numCtr
        .error (.wait ((sendPacket t cube ilv p).modCtx fun c => { c with asked := some (num, none) }))

/-- GLAUNCH -/
def execGlaunch (f : FmtA) := issueA f (glaunchBody f)

/-! ### Messages (R361-R364) -/

/-- SEND (R362). -/
def sendBody (f : FmtA) (s : State) : Except Stop State := do
  needUnused s f.d
  let a ← readScalar s 0 f.a
  let b ← readScalar s 1 f.b
  let core := field a 0 8
  let cube := field a 8 10
  let off := field b 0 19
  let len := field b 32 10
  if field a 18 14 ≠ 0 || field b 19 13 ≠ 0 || field b 42 22 ≠ 0 || 639 < cube || 512 < len || len % 8 ≠ 0 ||
      off % 8 ≠ 0 || 2 ^ 19 < off + len then trapHere s .queueInvalid
  else do
    release s
    let (bs, t) ← loadRaw s 0xFFFF (BitVec.ofNat 64 off) len
    needRoomIn t (cube * 256 + core) .ordered
    let t ← addUnacked t 1
    .ok (sendMsg t (.main s.me) s.core.ctx.tid s.myCube cube core
      { tag := a.extractLsb' 32 32, score := s.myCore, scube := s.myCube, sys := false, payload := bs })

/-- SEND -/
def execSend (f : FmtA) := issueA f fun s => waitUncounted s (sendBody f s)

/-- Whether a message matches a selector (R361). -/
def selects (x : Word) (m : Msg) : Bool := x.getLsbD 32 || m.tag == x.extractLsb' 0 32

/-- The header of a message (R361). -/
def msgHeader (m : Msg) : Word :=
  BitVec.ofNat 64 (m.score % 2 ^ 8 + m.scube % 2 ^ 10 * 2 ^ 8 + m.payload.length % 2 ^ 10 * 2 ^ 18 + 2 ^ 28 +
    (if m.sys then 2 ^ 29 else 0) + m.tag.toNat * 2 ^ 32)

/-- A selector with a reserved bit set is refused (R361). -/
def needSelector (s : State) (x : Word) : Except Stop Unit :=
  if field x 33 31 = 0 then .ok () else trapHere s .queueInvalid

/-- Writes the parts of a local store at once; a refused one is delivered later (R228, R488). -/
def localParts (s : State) (core off : Nat) : List (Nat × List (Option Byte)) → Option State
  | [] => some s
  | p :: ps =>
    match homeWrite s (core / 256) none p.1 p.2 0 with
    | .done t => localParts t core off ps
    | .wait => none
    | .busy =>
      let w := BitVec.ofNat 64 (p.1 - spadAddr core 0)
      localParts (s.modCtx fun c => { c with busy := c.busy ++ [w] }) core off ps
    | .poisoned =>
      localParts (s.modCube (core / 256) fun q => { q with rollbacks := q.rollbacks ++ [s.core.ctx.tid] }) core off ps

/-- Local stores of bytes at a RAW scratchpad offset that are performed at once (R363). -/
def localStore (s : State) (off : Nat) (bs : List Byte) : Except Stop State := do
  let t ← drainPair s s.me
  match localParts t t.me off (atomParts (bs.length / 32 + 2) (spadAddr t.me off) (bs.map some)) with
  | some u => .ok u
  | none => stall s

/-- RECV (R363). -/
def recvBody (f : FmtA) (s : State) : Except Stop State := do
  needDst s f.d
  let x ← readScalar s 0 f.a
  let b ← readScalar s 1 f.b
  needSelector s x
  if field b 19 45 ≠ 0 || field b 0 3 ≠ 0 then trapHere s .queueInvalid
  else match s.core.msgs.findIdx? (selects x) with
    | none => .ok (writeScalar 0 f.d 0 s)
    | some i => match s.core.msgs[i]? with
      | none => .ok (writeScalar 0 f.d 0 s)
      | some m =>
        if 2 ^ 19 < b.toNat + m.payload.length then trapHere s .queueInvalid
        else do
          let t ← localStore s b.toNat m.payload
          let t := { t with core := { t.core with msgs := t.core.msgs.eraseIdx i } }
          .ok (writeScalar 0 f.d (msgHeader m) (acquire 3 t))

/-- RECV -/
def execRecv (f : FmtA) := issueA f (recvBody f)

/-- MSGWAIT (R364). -/
def msgwaitBody (f : FmtA) (s : State) : Except Stop State := do
  needDst s f.d
  needUnused s f.b
  let x ← readScalar s 0 f.a
  needSelector s x
  match s.core.msgs.find? (selects x) with
  | none => waitSlot s
  | some m => .ok (writeScalar 0 f.d (msgHeader m) (acquire 3 s))

/-- MSGWAIT -/
def execMsgwait (f : FmtA) := issueA f (msgwaitBody f)

/-! ### Deposits (R365, R366) -/

/-- DEP (R365). -/
def depBody (f : FmtA) (s : State) : Except Stop State := do
  needUnused s f.d
  let a ← readScalar s 0 f.a
  let v ← readScalar s 1 f.b
  let cube := field a 8 10
  if field a 20 44 ≠ 0 || 639 < cube then trapHere s .queueInvalid
  else do
    release s
    needRoomIn s (cube * 256 + field a 0 8) .ordered
    let t ← addUnacked s 1
    let core := cube * 256 + field a 0 8
    .ok (t.send (.main t.me) t.core.ctx.tid .ordered t.myCube cube core none
      (.deposit core { reg := field a 18 2, val := v }))

/-- DEP -/
def execDep (f : FmtA) := issueA f (depBody f)

/-- MBCLR (R366). -/
def mbclrBody (f : FmtA) (s : State) : Except Stop State := do
  needDst s f.d
  needUnused s f.b
  let x ← readScalar s 0 f.a
  let old := s.regs.mbstat
  let t := s.modRegs fun r => dirtyGrp { r with mbstat := r.mbstat &&& ~~~(x.extractLsb' 0 4).setWidth 12 } 6
  .ok (writeScalar 0 f.d (old.setWidth 64) t)

/-- MBCLR -/
def execMbclr (f : FmtA) := issueA f (mbclrBody f)

/-! ### Engine sequencers (R368, R369) -/

/-- The engine with a number (R368). -/
def engineNum : Nat → Sequencer
  | 0 => .matrix
  | 1 => .copy
  | _ => .flue

/-- FORK (R368). -/
def forkBody (f : FmtA) (s : State) : Except Stop State := do
  needUnused s f.d
  let a ← readScalar s 0 f.a
  let b ← readScalar s 1 f.b
  let e := engineNum a.toNat
  let g := s.core.ctx.engine e
  if 2 < a.toNat || g.stopped then trapHere s .queueInvalid
  else if field b 0 2 ≠ 0 then trapAt s .pcMisaligned b
  else if g.running then waitHere s
  else do
    releaseWait s
    .ok (s.modCtx fun c => c.modEngine e fun g => { g with
      running := true, pc := b, ra := false, rit := 0, rpos := 0, repbase := 0, rcnt := 0, frame := none, wait := .none })

/-- FORK -/
def execFork (f : FmtA) := issueA f (forkBody f)

/-- Whether an engine has halted and every entry of the thread has ceased to be counted (R369). -/
def engineQuiet (c : Ctx) (e : Sequencer) : Bool := !(c.engine e).running && (c.queue e).isEmpty

/-- The engines of a mask (R369). -/
def enginesOf (mask : Nat) : List Sequencer :=
  ([Sequencer.matrix, .copy, .flue].zipIdx.filter fun p => mask.testBit p.2).map Prod.fst

/-- RDV (R369). -/
def rdvBody (f : FmtA) (s : State) : Except Stop State := do
  needUnused s f.d
  needUnused s f.b
  let x ← readScalar s 0 f.a
  if field x 3 61 ≠ 0 then trapHere s .queueInvalid
  else
    let es := enginesOf (field x 0 3)
    if !(es.all (engineQuiet s.core.ctx)) then waitHere s
    else do
      deliver 0 es s
      .ok s

/-- RDV -/
def execRdv (f : FmtA) := issueA f (rdvBody f)

/-! ### In-network reduction (R370, R371) -/

/-- Adds a contribution to the thread's round, opening one, under a number of its own, where none awaits it (R371). -/
def joinRound (g : Group) (c : Contribution) (id : Nat) : Group :=
  let awaits := fun (r : Round) => r.members.contains c.tid && !(r.parts.any fun x => x.tid == c.tid)
  match g.rounds.findIdx? awaits with
  | some i => { g with rounds := g.rounds.modify i fun r => { r with parts := r.parts ++ [c] } }
  | none => { g with rounds := g.rounds ++ [{ members := g.members.map Member.tid, parts := [c], id := id, routers := [] }] }

/-- NRED (R370): the contribution goes to the router of the thread's cube, the first on its way to the root (R385). -/
def nredBody (f : FmtA) (s : State) : Except Stop State := do
  needUnused s f.d
  let j := f.b.toNat
  if 30 < j then trapHere s .illegalOperand
  else do
    let x ← readG s 1 j
    let y ← readG s 2 (j + 1)
    let n := 4096 + field x 0 12
    let op := field x 12 3
    let cube := field x 24 10
    let tid := s.core.ctx.tid
    match (s.group s.myCube n).filter fun g => (g.member tid).isSome with
    | none => trapHere s .queueInvalid
    | some g =>
      if 4 < op || field x 34 30 ≠ 0 || 639 < cube then trapHere s .queueInvalid
      else if op = 4 && 30 < f.a.toNat then trapHere s .illegalOperand
      else do
        let data ← readVector s 0 f.a
        let m ← if op = 4 then readVector s 3 (f.a + 1) else .ok 0
        release s
        needRoomIn s (256 * cube + field x 16 8) .reduce
        let t ← addUnacked s 1
        let c : Contribution :=
          { tid := tid, core := s.me, op := op, all := x.getLsbD 15, rootCore := field x 16 8, rootCube := cube,
            tag := y.extractLsb' 0 32, data := data, m := lane m 0, s := lane m 1, taken := false }
        let (id, t) := t.fresh
        let t := t.setGroup t.myCube (joinRound g c id)
        .ok (t.send (.main t.me) tid .reduce t.myCube t.myCube (256 * cube + field x 16 8) none (.contribution n c))

/-- NRED -/
def execNred (f : FmtA) := issueA f (nredBody f)

end Sys2Proof.Machine
end

