-- ==== Sys2Proof/Machine/Fetch.lean ====
section
/-! DEFINITION. Instruction fetch (R49, R86, R252), the repeat frame's capture, recapture and stagger (R59-R61,
R87, R157), and what an engine program may hold (R32). -/

namespace Sys2Proof.Machine

open Sys2Proof

/-! ### Words (R49, R252) -/

/-- A trap on a fetch: the instruction's address as pc, the word's as fault address (R49). -/
def fetchTrap {α : Type} (s : State) (pc : Word) (code : TrapCode) (a : Word) (stale : Bool) : Except Stop α :=
  .error (.trap { s.report code a .fetch (segOf s 0) with pc := pc, epc := pc, staleGen := stale } s)

/-- The word that the moving core's hearth holds for a global address, where the turn lets the fetch use it. -/
def heldWord (s : State) (g : Nat) : Option Word32 :=
  if s.useL1 then
    ((s.cube s.myCube).icache.find? fun x => x.1 == s.myCore / 8 && x.2.1 == g).map fun x => x.2.2
  else none

/-- The words that the instruction cache of a hearth holds: 64 KiB (R1). -/
def hearthWords : Nat := 16384

/-- The words of a hearth keep to its cache's size (R1): those held longest go first (log entry 9). -/
def fitHearth (h : Nat) (l : List (Nat × Nat × Word32)) : List (Nat × Nat × Word32) :=
  let n := (l.filter fun x => x.1 == h).length
  (l.filter fun x => x.1 != h) ++ (l.filter fun x => x.1 == h).drop (n - hearthWords)

/-- The hearth keeps a word that it has fetched (R252). -/
def holdWord (s : State) (g : Nat) (w : Word32) : State :=
  if s.useL1 then
    s.modCube s.myCube fun q => { q with icache := fitHearth (s.myCore / 8) (q.icache ++ [(s.myCore / 8, g, w)]) }
  else s

/-- Where the bytes of a word lie by the map of the cube that owns them (R239, R390). -/
def settleFetch (s : State) (pc : Word) : List Piece → Except Stop (List Piece)
  | [] => .ok []
  | p :: ps => match chase s 4 p.place (s.cube s.myCube).imap.mgen with
    | .ok (some q) => do
      let qs ← settleFetch s pc ps
      .ok ({ p with place := q } :: qs)
    | .ok none => stall s
    | .error c => fetchTrap s pc c p.off false

/-- Fetches the word at `a` of segment seg0 for the instruction at `pc`; the fetch waits where its home's requests
wait (R257, R281), and is resolved again where the owning cube's map is newer (R239, R390). -/
def fetchWord (s : State) (pc a : Word) : Except Stop (Word32 × State) :=
  match footprint s s.requester (segOf s 0) a 4 .fetch rawRegion with
  | .error e => if e.held then stall s else fetchTrap s pc e.code e.off e.stale
  | .ok ps => match ps with
    | [] => fetchTrap s pc .addressRange a false
    | p :: _ =>
      let g := globalOf s p.place
      match heldWord s g with
      | some w => .ok (w, s)
      | none => do
        let ps ← settleFetch s pc ps
        if ps.any fun q => mustWait (s.cube q.place.cube) none q.place.addr q.len then stall s
        else match poisonIn s ps with
        | some o => fetchTrap s pc .memUncorrectable o false
        | none =>
          let w := BitVec.ofNat 32 (natOfBytes (readPieces s ps))
          .ok (w, holdWord s g w)

/-- The words of the instruction at `a`: prefixes and the word behind them, at most three (R86). -/
def readInstr (s : State) (pc a : Word) : Except Stop (List Word32 × State) := do
  let (w0, s) ← fetchWord s pc a
  if majorOp w0 ≠ 0xFE then .ok ([w0], s)
  else do
    let (w1, s) ← fetchWord s pc (a + 4)
    if majorOp w1 ≠ 0xFE then .ok ([w0, w1], s)
    else do
      let (w2, s) ← fetchWord s pc (a + 8)
      .ok ([w0, w1, w2], s)

/-! ### Repeat frames (R59-R61, R87) -/

/-- The instructions that are never repeatable (R60). -/
def Shape.single : Shape → Bool
  | .a op fn _ => op == 0x22 || (op == 0x92 && (fn == 3 || fn == 4 || fn == 5)) || (op == 0x94 && 1 ≤ fn && fn ≤ 5)
  | .l op _ => op == 0x24
  | .m op _ _ => op == 0x75 || op == 0x76
  | .b _ _ _ => true
  | .t _ _ _ => false
  | _ => true

/-- Whether captured words may stand in a body; words that do not decode may (R87). -/
def repeatable (ws : List Word32) : Bool :=
  match decodeShapes ws with
  | .ok sh => !Shape.single sh
  | .error _ => true

/-- Captures `n` instructions from `a` on for the frame at `p` (R59). -/
def captureBody (p : Word) : Nat → State → Word → Except Stop (List (List Word32) × State)
  | 0, s, _ => .ok ([], s)
  | n + 1, s, a => do
    let (ws, s) ← readInstr s p a
    let (r, s) ← captureBody p n s (a + BitVec.ofNat 64 (4 * ws.length))
    .ok (ws :: r, s)

/-- A trap REP_INVALID that reports the frame's address (R59, R157). -/
def repTrap {α : Type} (s : State) (p : Word) : Except Stop α :=
  .error (.trap { s.report .repInvalid p .none 0 with pc := p, epc := p } s)

/-- Captures and checks a body (R59, R87). -/
def captureFrame (s : State) (p : Word) (len stride : Nat) : Except Stop (Frame × State) := do
  let (body, t) ← captureBody p len s (p + 4)
  if body.all repeatable then .ok (⟨stride, body⟩, t) else repTrap s p

/-- The number of words of a list of instructions. -/
def wordCount (l : List (List Word32)) : Nat := (l.map List.length).sum

/-- The recapture of a pending frame (R61, R157): the body from REPBASE + 4; it goes on at RIT and RPOS, with n
from RCNT. A body that software has changed and that now holds an instruction that is not repeatable traps REP_INVALID, as
at its first capture (R59): DESIGN CHOICE, log entry 91, since R157 lists no such case and R61 says no more than that the
recaptured words are executed. -/
def recapture (s : State) : Except Stop State := do
  let r := s.rep
  let (w, t) ← fetchWord s r.base r.base
  let len := (w.extractLsb' 12 4).toNat + 1
  if !(majorOp w = 0x3E || majorOp w = 0x3F) || len ≤ r.rpos || r.cnt.toNat ≤ r.rit then repTrap s r.base
  else do
    let (f, t) ← captureFrame t r.base len (w.extractLsb' 7 5).toNat
    .ok ((t.setFrame (some f)).setPc (r.base + BitVec.ofNat 64 (4 + 4 * wordCount (f.body.take r.rpos))))

/-- A 6-bit operand field of a word moved by `k`, where it names a register 0-31 (R59). -/
def staggerField (w : Word32) (lo k : Nat) : Word32 :=
  let v := (w.extractLsb' lo 6).toNat
  if v < 32 then
    (w &&& ~~~(BitVec.ofNat 32 (63 * 2 ^ lo))) ||| BitVec.ofNat 32 ((v + k) % 32 * 2 ^ lo)
  else w

/-- The staggered instruction word (R59). -/
def staggerWord (w : Word32) (k : Nat) : Word32 :=
  match formatOf (majorOp w) with
  | some .a => staggerField (staggerField (staggerField w 18 k) 12 k) 6 k
  | some .l => staggerField w 18 k
  | some .m => staggerField (staggerField w 18 k) 12 k
  | _ => w

/-- The operand fields in the prefix of a T instruction (R192). -/
def staggerPayload (w q : Word32) (k : Nat) : Word32 :=
  let fn := (w.extractLsb' 0 4).toNat
  if majorOp w = 0x60 && 1 ≤ fn && fn ≤ 4 then staggerField (staggerField q 0 k) 6 k
  else if majorOp w = 0x61 then staggerField q 0 k
  else q

/-- The words of a body instruction in an iteration that moves its fields by `k` (R59). -/
def stagger (ws : List Word32) (k : Nat) : List Word32 :=
  match ws with
  | [w] => [staggerWord w k]
  | [q, w] => [staggerPayload w q k, staggerWord w k]
  | [q, r, w] => [q, r, staggerWord w k]
  | l => l

/-- The words that the moving sequencer executes next (R61, R86): of its frame, of the chain that feeds an
attached follower, or fetched at its pc. -/
def nextWords (s : State) : Except Stop (List Word32 × State) := do
  let r := s.rep
  if r.ra then do
    let s ← if s.frame.isNone then recapture s else .ok s
    match s.frame with
    | none => repTrap s r.base
    | some f => match f.body[r.rpos]? with
      | none => repTrap s r.base
      | some ws => .ok (stagger ws (r.rit * f.stride), s)
  else
    match s.seqr, s.core.chain with
    | .main, (_, ws) :: _ => .ok (ws, s)
    | _, _ => readInstr s s.curPc s.curPc

/-! ### Decode faults and engine programs -/

/-- The trap of a decode fault (R66). -/
def DecodeFault.code : DecodeFault → TrapCode
  | .illegalOpcode => .illegalOpcode
  | .illegalPrefix | .truncated => .illegalPrefix
  | .illegalFunct => .illegalFunct
  | .illegalOperand => .illegalOperand

/-- Whether an instruction belongs to an engine's class or to the control subset of engine programs (R32); the transfer forms
issue only on the main sequencer (R188). -/
def classAllows (e : Sequencer) (sh : Shape) : Bool :=
  match e with
  | .main => true
  | _ => match sh with
    | .rep _ _ _ | .repg _ _ _ => true
    | .b op k _ => op == 0x20 && k == 6
    | .a op fn _ =>
      (op == 0x94 && (fn == 5 || fn == 6)) || (op == 0x22 && fn == 2) || (op == 0x88 && e == .copy) ||
      (op == 0x91 && e == .flue)
    | .t op fn _ => e == .matrix && !(op == 0x60 && 1 ≤ fn && fn ≤ 4)
    | _ => false

end Sys2Proof.Machine
end

