-- ==== Sys2Proof/Machine/Control.lean ====
section
/-! DEFINITION. Control: branches, calls, CTL, special registers, return from trap, jump tables, repeat frames
(R59, R64, R65, R143-R158), following (R28-R31) and migration (R34, R35, R305). -/

namespace Sys2Proof.Machine

open Sys2Proof

/-! ### Branches and calls (R143-R145, R102) -/

/-- The target of a B-format instruction (R45). -/
def targetB (f : FmtB) (s : State) : Word := s.curPc + offB f * 4

/-- The address after an instruction of `words` words. -/
def State.after (s : State) (words : Nat) : Word := s.curPc + BitVec.ofNat 64 (4 * words)

/-- B (R143). -/
def bBody (f : FmtB) (s : State) : Except Stop (State × Word) := do
  needUnused s f.c
  .ok (s, targetB f s)

/-- B -/
def execB (f : FmtB) := issueTo 0 (bBody f)

/-- The condition of a conditional form (R45). -/
def condOf (k : BitVec 3) (f : FmtB) (s : State) : Except Stop Bool := do
  if k = 7 then trapHere s .illegalFunct
  else do
    let x ← readScalar s 0 f.c
    .ok (condHolds k x)

/-- B with a condition (R143). -/
def bCondBody (k : BitVec 3) (f : FmtB) (s : State) : Except Stop (State × Word) := do
  let t ← condOf k f s
  .ok (s, if t then targetB f s else s.after (wordsP f.p))

/-- B_COND -/
def execBCond (k : BitVec 3) (f : FmtB) := issueTo 0 (bCondBody k f)

/-- The base and the limit of the spill area (R101). -/
def spillBounds (r : Regs) : Nat × Nat :=
  let base := r.rsl.toNat / 4096 * 4096
  (base, base + 8 * (r.rsl.toNat % 4096 + 1))

/-- The spill slot that RSP names (R101). -/
def spillSlot (r : Regs) : Nat := r.rsp.toNat / 8 * 8

/-- Makes room in a full return-address store: the oldest entry goes to the spill area (R102). -/
def spillOldest (s : State) : Except Stop State :=
  if s.regs.ras.length < 16 then .ok s
  else
    let p := spillSlot s.regs
    let (base, limit) := spillBounds s.regs
    if p < base || limit < p + 8 then trapAt s .retOverflow (BitVec.ofNat 64 p)
    else do
      let ps ← place s (segOf s 0) (BitVec.ofNat 64 p) 8 .store rawRegion
      let old := s.regs.ras.getLastD 0
      let t ← sendWrites s ps ((bytesOfNat 8 old.toNat).map some) 0 false
      .ok ({ t with core := t.core.count 7 1 }.modRegs fun r => { r with ras := r.ras.dropLast, rsp := BitVec.ofNat 64 (p + 8) })

/-- CALL to its target, with the address after it as the newest entry (R102, R144). -/
def callTo (f : FmtB) (s : State) : Except Stop (State × Word) := do
  let t ← spillOldest s
  .ok (t.modRegs fun r => { r with ras := s.after (wordsP f.p) :: r.ras }, targetB f s)

/-- CALL (R144). -/
def callBody (f : FmtB) (s : State) : Except Stop (State × Word) := do
  needUnused s f.c
  callTo f s

/-- CALL -/
def execCall (f : FmtB) := issueTo 0 (callBody f)

/-- CALL with a condition (R144). -/
def callCondBody (k : BitVec 3) (f : FmtB) (s : State) : Except Stop (State × Word) := do
  let t ← condOf k f s
  if t then callTo f s else .ok (s, s.after (wordsP f.p))

/-- CALL_COND -/
def execCallCond (k : BitVec 3) (f : FmtB) := issueTo 0 (callCondBody k f)

/-- The fields of a CTL instruction without operand hold 48 (R147). -/
def needNone (f : FmtA) (s : State) : Except Stop Unit := do
  needUnused s f.d
  needUnused s f.a
  needUnused s f.b

/-- The value of a CTL instruction's operand a (R147). -/
def ctlOperand (f : FmtA) (s : State) : Except Stop Word := do
  needUnused s f.d
  needUnused s f.b
  readScalar s 0 f.a

/-- RET's target from a store that holds an entry, or from the spill area (R102). -/
def popReturn (s : State) : Except Stop (Word × State) :=
  match s.regs.ras with
  | x :: l => .ok (x, s.modRegs fun r => { r with ras := l })
  | [] =>
    let p := spillSlot s.regs
    let (base, limit) := spillBounds s.regs
    if p ≤ base || limit < p then trapAt s .retUnderflow (BitVec.ofNat 64 p)
    else do
      let (bs, t) ← loadRaw s (segOf s 0) (BitVec.ofNat 64 (p - 8)) 8
      .ok (BitVec.ofNat 64 (natOfBytes bs), t.modRegs fun r => { r with rsp := BitVec.ofNat 64 (p - 8) })

/-- RET (R145). -/
def retBody (f : FmtA) (s : State) : Except Stop (State × Word) := do
  needNone f s
  let (x, t) ← popReturn s
  if field x 0 2 ≠ 0 then trapAt s .pcMisaligned x else .ok (t, x)

/-- RET -/
def execRet (f : FmtA) := issueTo f.s.toNat (retBody f)

/-! ### YIELD, HALT, TRAP (R148-R150) -/

/-- YIELD (R148): with an empty run list it only advances; else the thread drains (R220) and the head of the
run list becomes resident. -/
def yieldBody (f : FmtA) (s : State) : Except Stop State := do
  needNone f s
  if s.core.runList.isEmpty then .ok (s.past 1 f.s.toNat)
  else if !s.core.ctx.drained || !s.core.ctx.busy.isEmpty then stall s
  else .ok (rotate (s.past 1 f.s.toNat) s.me)

/-- YIELD -/
def execYield (f : FmtA) (s : State) := finish (yieldBody f s)

/-- Whether the engines have halted and nothing is counted but markers of the main sequencer (R149). -/
def haltQuiet (c : Ctx) : Bool :=
  engineQuiet c .matrix && engineQuiet c .copy && engineQuiet c .flue &&
  c.counted.all fun x => c.markers.contains x.id

/-- HALT of the main sequencer (R149). It leaves the groups while the thread still stands at the HALT: a wait there, or a
checkpoint that such a release captures, goes on with the HALT. -/
def haltMain (f : FmtA) (s : State) : Except Stop State := do
  if !haltQuiet s.core.ctx then waitHere s
  else do
    deliver 0xFF [.matrix, .copy, .flue, .main] s
    let c := s.core.ctx
    if c.stores ≠ 0 || !c.pend.isEmpty || !c.busy.isEmpty then waitHere s
    else do
      let gs := sortBy (fun a b => a.num ≤ b.num) (groupsOf s s.myCube c.tid)
      let t ← leaveAll s gs
      .ok (retireThread (t.past 1 f.s.toNat))

/-- HALT (R149); in an engine program it halts the engine (R32). -/
def haltBody (f : FmtA) (s : State) : Except Stop State := do
  needNone f s
  match s.seqr with
  | .main => haltMain f s
  | e => .ok ((s.past 1 f.s.toNat).modCtx fun c => c.modEngine e fun g => { g with running := false })

/-- HALT -/
def execHalt (f : FmtA) (s : State) := finish (haltBody f s)

/-- TRAP (R150). -/
def trapBody (f : FmtA) (s : State) : Except Stop State := do
  let x ← ctlOperand f s
  trapAt s .softTrap x

/-- TRAP -/
def execTrap (f : FmtA) (s : State) := finish (trapBody f s)

/-! ### Following (R28-R31, R151-R153) -/

/-- The members of a leader's follower set. -/
def followersOf (s : State) (core : Nat) : List Nat :=
  ((List.range 8).map fun i => core / 8 * 8 + i).filter fun f => f != core && (s.getCore core).ctx.leads f

/-- The lowest hop that no member of a set holds (R28). -/
def freeHop (s : State) (core : Nat) : Option Nat :=
  let mine := fun (f : Nat) (c : Ctx) => tswFol c.regs.tsw && leaderOf f c == core
  let held := (followersOf s core).filterMap fun f => ((contextsOf s f).find? (mine f)).map fun c => tswHop c.regs.tsw
  [1, 2, 3, 4, 5, 6, 7].find? fun h => !held.contains h

/-- Whether FOLLOW of leader core `x` is refused (R151). -/
def followBad (s : State) (x : Word) : Bool :=
  let l := s.myCube * 256 + x.toNat
  let lc := (s.getCore l).ctx
  let w := s.regs.tsw
  255 < x.toNat || x.toNat / 8 ≠ s.myCore / 8 || x.toNat = s.myCore || !lc.live || lc.regs.asid ≠ s.regs.asid ||
  tswFol lc.regs.tsw || tswFset w ≠ 0 || s.core.ctx.attached || (followersOf s l).length ≥ 7

/-- FOLLOW (R151). -/
def followBody (f : FmtA) (s : State) : Except Stop State := do
  let x ← ctlOperand f s
  if followBad s x then trapAt s .followInvalid x
  else
    let l := s.myCube * 256 + x.toNat
    if tswFol s.regs.tsw && leaderOf s.me s.core.ctx = l then .ok s
    else
      let t := leaveSet s s.me
      match freeHop t l with
      | none => trapAt s .followInvalid x
      | some h =>
        let t := modTsw t l fun w => setField w (16 + t.me % 8) 1 1
        .ok (t.modRegs fun r => { r with tsw := setField (setField (setField r.tsw 4 2 3) 8 3 x.toNat) 11 3 h })

/-- FOLLOW -/
def execFollow (f : FmtA) := issueA f (followBody f)

/-- DETACH (R152). -/
def detachBody (f : FmtA) (s : State) : Except Stop State := do
  needNone f s
  .ok { s with core := s.core.detach }

/-- DETACH -/
def execDetach (f : FmtA) := issueA f (detachBody f)

/-- A follower that stands at a REJOIN completes it, as an instruction of its own that retires (R57); at the leader's
address it is attached (R31). -/
def rejoinFollower (pc : Word) (s : State) (core : Nat) : State :=
  let t := { s.focus core with seqr := .main }
  let same := t.regs.pc == pc
  let stall := match t.core.ctx.wait with
    | .rejoin n => n
    | _ => 0
  let t := (t.past 1 stall).modRegs fun r => { r with tsw := if same then tswSet r.tsw 4 false else r.tsw }
  { { t with core := { t.core with chain := [] } }.focus s.me with seqr := s.seqr }

/-- REJOIN (R31, R153). The set of a leader that has migrated to another hearth keeps its bits, which then name cores of
that hearth: DESIGN CHOICE, log entry 90. -/
def rejoinBody (f : FmtA) (s : State) : Except Stop State := do
  needNone f s
  let c := s.core.ctx
  if tswFol c.regs.tsw then
    if c.attached then .ok s
    else
      if (contextsOf s (leaderOf s.me c)).any fun l => l.leads s.me then .error (.wait (s.setWait (.rejoin f.s.toNat)))
      else .ok s
  else
    let mine := fun (f : Nat) => tswFol (s.getCore f).ctx.regs.tsw && leaderOf f (s.getCore f).ctx == s.me
    let away := (followersOf s s.me).filter fun f => !((s.getCore f).ctx.attached && mine f)
    if away.all fun f => (s.getCore f).ctx.wait.rejoins && mine f then
      .ok (away.foldl (rejoinFollower s.curPc) s)
    else .error (.wait (s.setWait (.rejoin f.s.toNat)))

/-- REJOIN -/
def execRejoin (f : FmtA) := issueA f (rejoinBody f)

/-! ### Special registers (R154, R106, R107) -/

/-- What SRD of a special register reads; the instruction takes `words` words. -/
def readSpecial (s : State) (n words : Nat) : Word :=
  let r := s.regs
  let shapes := fun (k : Nat) => BitVec.ofNat 64
    (packNat 16 ((List.range 4).map fun i => (s.core.ctx.tiles.shape[k + i]?.getD 0).toNat))
  if 13 ≤ n && n ≤ 16 then r.mb[n - 13]?.getD 0
  else if 17 ≤ n && n ≤ 20 then (r.seg[n - 17]?.getD 0).setWidth 64
  else match n with
    | 0 => r.tsw
    | 1 => s.after words
    | 2 => r.repbase
    | 3 => r.rsp
    | 4 => r.rsl
    | 5 => r.asid.setWidth 64
    | 6 => (s.cube s.myCube).ait.setWidth 64
    | 7 => r.fmt.setWidth 64
    | 8 => shapes 0
    | 9 => shapes 4
    | 10 => r.tdirty.setWidth 64
    | 11 => r.grpdirty.setWidth 64
    | 12 => r.mbstat.setWidth 64
    | _ => 0

/-- SRD (R154). -/
def srdBody (f : FmtL) (s : State) : Except Stop State := do
  needDst s f.d
  if !srdOk f.immNat then trapHere s .illegalFunct
  else .ok (writeScalar 0 f.d (readSpecial s f.immNat (wordsP f.p)) s)

/-- SRD -/
def execSrd (f : FmtL) := issueL f (srdBody f)

/-- Whether SWR of a special register asks for TSW.PRIV (R106). -/
def swrPriv (n : Nat) : Bool := n == 0 || (3 ≤ n && n ≤ 6) || n == 10 || n == 11

/-- What SWR of a special register writes, field by field (R106, R154). A write of an mb register is noted with
the cycle in which a deposit falls together with it (R95). A write of AIT in the cycle of one by Stove core 1 does not
stand (R104). -/
def writeSpecial (s : State) (n stall : Nat) (x : Word) : State :=
  if 13 ≤ n && n ≤ 16 then
    let t := s.modRegs fun r => dirtyGrp { r with mb := r.mb.setIfInBounds (n - 13) x } 6
    { t with core := { t.core with mbWrite := some (n - 13, (s.cube s.myCube).clock + BitVec.ofNat 64 (1 + stall)) } }
  else if 17 ≤ n && n ≤ 20 then s.modRegs fun r => { r with seg := r.seg.setIfInBounds (n - 17) (x.setWidth 16) }
  else match n with
    | 0 =>
      let t := s.modRegs fun r => { r with tsw := tswWrite r.tsw x }
      if tswRa t.regs.tsw then t else t.modCtx fun c => { c with frame := none }
    | 3 => s.modRegs fun r => { r with rsp := setField x 0 3 0 }
    | 4 => s.modRegs fun r => { r with rsl := x }
    | 5 => s.modRegs fun r => { r with asid := x.setWidth 24 }
    | 6 => s.modCube s.myCube fun q => if q.aitStove = some q.clock then q else { q with ait := x.setWidth 16 }
    | 7 => s.modRegs fun r => { r with fmt := x.setWidth 2 }
    | 10 => s.modRegs fun r => { r with tdirty := r.tdirty &&& ~~~(x.setWidth 9) }
    | 11 => s.modRegs fun r => { r with grpdirty := r.grpdirty &&& ~~~(x.setWidth 7) }
    | 12 => s.modRegs fun r => dirtyGrp { r with mbstat := r.mbstat &&& ~~~(x.setWidth 12) } 6
    | _ => s

/-- SWR (R154). -/
def swrBody (f : FmtL) (s : State) : Except Stop State := do
  if !swrOk f.immNat then trapHere s .illegalFunct
  else do
    if swrPriv f.immNat then needPriv s else .ok ()
    let x ← readScalar s 0 f.d
    .ok (writeSpecial s f.immNat f.s.toNat x)

/-- SWR -/
def execSwr (f : FmtL) := issueL f (swrBody f)

/-! ### RFE (R155-R157) -/

/-- TSW as RFE restores it from a record (R156). -/
def rfeTsw (old w : Word) : Word :=
  tswRepeat (setField old 0 4 (field w 0 4)) (tswRa w) (if tswRa w then tswRit w else 0)
    (if tswRa w then tswRpos w else 0)

/-- RFE (R156): the return from a trap. -/
def rfeBody (f : FmtA) (s : State) : Except Stop (State × Word) := do
  needPriv s
  let o ← ctlOperand f s
  if o.toNat % 32 ≠ 0 then trapAccess s .misaligned o .load (segOf s 0)
  else do
    let (bs, t) ← loadRaw s (segOf s 0) o 32
    let rec_ := natOfBytes bs
    let word := fun (k : Nat) => BitVec.ofNat 64 (rec_ / 2 ^ (64 * k))
    let pc := word 0
    let w := word 1
    if field pc 0 2 ≠ 0 then trapAccess s .pcMisaligned o .none 0
    else
      let t := t.modRegs fun r => { r with
        tsw := rfeTsw r.tsw w
        repbase := if tswRa w then word 2 else r.repbase
        rcnt := if tswRa w then BitVec.ofNat 25 (rec_ / 2 ^ 213) else r.rcnt }
      .ok (t.modCtx fun c => { c with frame := none, board := [] }, pc)

/-- RFE -/
def execRfe (f : FmtA) := issueTo f.s.toNat (rfeBody f)

/-! ### LPAD, JT (R64, R65) -/

/-- LPAD reached in the stream does nothing (R64). -/
def execLpad (_ : BitVec 16) := issue 1 0 fun s => .ok s

/-- A trap JT_INVALID or LANDING_MISMATCH of a JT. -/
def jtTrap {α : Type} (s : State) (c : TrapCode) (a : Word) : Except Stop α := trapAt s c a

/-- JT (R65): its table and its landing pad are fetched. What its header shows ranks before the read of its index, and so does
what the entry and its pad show where the header alone fixes the entry (R66); of several entries a read that is refused
names none. -/
def jtBody (i : BitVec 6) (s : State) : Except Stop (State × Word) := do
  let j := s.curPc
  let h := j + 4
  let (hdr, t) ← fetchWord s j h
  if hdr.extractLsb' 24 8 ≠ 0 then jtTrap s .jtInvalid h
  else do
    let n := (hdr.extractLsb' 0 8).toNat + 1
    let index : Except Stop Nat := (readScalar s 0 i).map fun x => if n ≤ x.toNat then 0 else x.toNat
    let k ← if n = 1 then .ok 0 else index
    let e := h + 4 + BitVec.ofNat 64 (4 * k)
    let (ent, t) ← fetchWord t j e
    if ent.extractLsb' 24 8 ≠ 0 then jtTrap s .jtInvalid e
    else do
      let dest := h + (ent.extractLsb' 0 24).signExtend 64 * 4
      let (w, t) ← fetchWord t j dest
      let _ ← index
      if w.extractLsb' 24 8 ≠ 0x3C || w.extractLsb' 8 16 ≠ hdr.extractLsb' 8 16 then jtTrap s .landingMismatch dest
      else .ok (t, dest)

/-- JT -/
def execJt (i : BitVec 6) := issueTo 0 (jtBody i)

/-! ### REP, REPG (R58, R59) -/

/-- A frame of `count` iterations (R59): its body is captured and checked before the count is read, in the order of
R66. -/
def repFrame (len stride : Nat) (count : Except Stop Nat) (s : State) : Except Stop (State × Word) := do
  let p := s.curPc
  if s.rep.ra then trapHere s .repInvalid
  else do
    let (f, t) ← captureFrame s p len stride
    let n ← count
    if 2 ^ 24 < n then trapHere s .repInvalid
    else if n = 0 then .ok (t, p + BitVec.ofNat 64 (4 + 4 * wordCount f.body))
    else .ok ((t.setRep ⟨true, 0, 0, p, BitVec.ofNat 25 n⟩).setFrame (some f), p + 4)

/-- Starts a frame of `n` iterations (R59). -/
def repBody (n len stride : Nat) (s : State) : Except Stop (State × Word) := repFrame len stride (.ok n) s

/-- REP -/
def execRep (n : BitVec 8) (len : BitVec 4) (stride : BitVec 5) :=
  issueTo 0 (repBody (n.toNat + 1) (len.toNat + 1) stride.toNat)

/-- REPG: n is its count operand (R58). -/
def repgBody (c : BitVec 6) (len : BitVec 4) (stride : BitVec 5) (s : State) : Except Stop (State × Word) :=
  repFrame (len.toNat + 1) stride.toNat ((readScalar s 0 c).map fun x => x.toNat) s

/-- REPG -/
def execRepg (c : BitVec 6) (len : BitVec 4) (stride : BitVec 5) := issueTo 0 (repgBody c len stride)

/-! ### MIGRATE (R34, R35, R305) -/

/-- Whether a thread holds what cannot migrate: a valid tile, data in acc, a running engine, or entries that
its engines have not finished (R34). -/
def migrateHeld (c : Ctx) : Bool :=
  c.tiles.shape.toList.any shapeV || tswAccv c.regs.tsw || c.matrix.running || c.copy.running || c.flue.running ||
  !c.mq.isEmpty || !c.cq.isEmpty || !c.fq.isEmpty || !c.counted.all (fun x => c.markers.contains x.id)

/-- The context departs for core `h` (R34): it travels, and the source keeps it in transit until it is
accepted (R35). Its followers detach, and it leaves its leader's set, as it departs; a MIGRATE that is then refused does
not undo this. DESIGN CHOICE, log entry 90: R29, R31 and R35 do not say. -/
def depart (s : State) (h words : Nat) : State :=
  let s := standDown s s.me
  let out := { (s.advance words).core.ctx.awake with status := .inTransit, board := [] }
  let t := s.modCtx fun c => { c.awake with status := .inTransit, board := [] }
  t.send (.main t.me) out.tid .ordered t.myCube (h / 256) h none (.context h out)

/-- MIGRATE (R305). -/
def migrateBody (f : FmtM) (s : State) : Except Stop State := do
  needUnused s f.d
  let b ← readScalar s 0 f.base
  let c := s.core.ctx
  if !(groupsOf s s.myCube c.tid).isEmpty then trapHere s .migrateGroup
  else if migrateHeld c then trapHere s .migrateState
  else do
    let ps ← place s (segOf s f.sg.toNat) (b + offM f * 32) 1 .load fun r => r != .mmio
    match ps with
    | [] => .ok s
    | p :: _ =>
      let h := homeOf s p.place
      if h = s.me then do
        release s
        .ok ((acquire 4 s).past (wordsP f.p) 0)
      else if c.stores ≠ 0 || 8 ≤ s.core.forwards.length || !c.busy.isEmpty || s.core.migrateHold then waitHere s
      else .ok (depart s h (wordsP f.p))

/-- MIGRATE -/
def execMigrate (f : FmtM) (s : State) := finish (migrateBody f s)

end Sys2Proof.Machine
end

