-- ==== Sys2Proof/Machine/Once.lean ====
section
/-! DEFINITION. Decide-once cells (R311-R320): the cell image, what a home does with a request, decided
copies, and the four instructions. -/

namespace Sys2Proof.Machine

open Sys2Proof

/-! ### The cell (R312, R313) -/

/-- STATE of a cell image: 0 FREE, 1 DECIDED, 2 RETIRING. -/
def cellState (c : Nat) : Nat := c % 4
/-- GEN of a cell image. -/
def cellGen (c : Nat) : Nat := c / 2 ^ 2 % 2 ^ 14
/-- LEN of a cell image. -/
def cellLen (c : Nat) : Nat := c / 2 ^ 16 % 2 ^ 5
/-- VALUE of a cell image. -/
def cellValue (c : Nat) : Nat := c / 2 ^ 64 % 2 ^ 192

/-- A cell image from its fields; value bytes at 8 + LEN and above are zero (R312). -/
def mkCell (st g len v : Nat) : Nat := st + g * 2 ^ 2 + len * 2 ^ 16 + v % 2 ^ (8 * len) * 2 ^ 64

/-- The cell after a request (R313): funct 0 PROPOSE, 1 DREAD, 2 DRETIRE, 3 DINIT. -/
def onceNext (fn g proposal cell : Nat) : Nat :=
  match fn with
  | 0 => if cellState cell = 0 && cellGen cell = g then mkCell 1 g (cellLen proposal) (cellValue proposal) else cell
  | 2 =>
    if cellState cell < 2 && cellGen cell = g then
      (if g < 16383 then mkCell 0 (g + 1) 0 0 else mkCell 2 g (cellLen cell) (cellValue cell))
    else cell
  | 3 => mkCell 0 g 0 0
  | _ => cell

/-- A home performs a decide-once request as one step (R313, R315): none while the atom's bank is under refresh (R257)
or a host copy of it must first be recalled (R286). -/
def performOnce (s : State) (cube fn a g proposal : Nat) : Option (State × OnceAnswer) :=
  if mustWait (s.cube cube) none a 32 then none
  else if (s.poisoned a 32).isSome then some (s, ⟨a, 0, some .memUncorrectable⟩)
  else
    let cell := natOfBytes (s.load a 32)
    if fn ≠ 3 && (cellState cell = 3 || 24 < cellLen cell) then some (s, ⟨a, cell, some .onceInvalid⟩)
    else
      let new := onceNext fn g proposal cell
      if new = cell then some (s, ⟨a, cell, none⟩)
      else if hostedIn s cube a 32 then none
      else some (s.store a (bytesOfNat 32 new), ⟨a, if fn = 3 then cell else new, none⟩)

/-! ### Decided copies (R318) -/

/-- The decided copy of a cell under a generation. -/
def onceFind (s : State) (a g : Nat) : Option Nat :=
  (s.core.once.find? fun l => l.addr == a && cellGen (natOfBytes l.bytes) == g).map fun l => natOfBytes l.bytes

/-- Installs a DECIDED image as the core's one copy of its cell (R316-R318); what was filled or installed longest ago makes
room for it in the L1 (R1, log entry 40). -/
def onceInstall (s : State) (a image : Nat) : State :=
  if cellState image = 1 then
    let rest := s.core.once.filter fun l => l.addr != a
    { s with core := Core.fitL1 { s.core with
      once := { addr := a, bytes := bytesOfNat 32 image } :: rest.take (l1Lines - 1) } }
  else s

/-- The L1 drops its copy of a cell (R318). -/
def onceDrop (s : State) (a : Nat) : State :=
  { s with core := { s.core with once := s.core.once.filter fun l => l.addr != a } }

/-! ### The instructions (R314, R315) -/

/-- The offset field X of a decide-once instruction: OFS is off7[6:4] (R314). -/
def offOnce (f : FmtM) : Word :=
  let o := f.off.extractLsb' 4 3
  match f.p with
  | [] => o.signExtend 64
  | [q] => (q ++ o : BitVec 27).signExtend 64
  | q :: r :: _ => (q ++ r ++ o : BitVec 51).signExtend 64

/-- What follows the home's answer: the traps of R315, the install, the acquire and the result. -/
def onceFinish (fn : Nat) (install : Bool) (seg : BitVec 16) (o : Word) (f : FmtM) (r : OnceAnswer)
    (s : State) : Except Stop State :=
  match r.code with
  | some c => trapAccess s c o .once seg
  | none =>
    let s := if install then onceInstall s r.addr r.image else s
    let s := acquire (f.off.extractLsb' 0 3).toNat s
    .ok (if fn = 0 then s else writeVector 0 f.d (BitVec.ofNat 2048 r.image) s)

/-- A decide-once instruction (R315). With `answerLater` its request travels, and the instruction completes
when the answer has come: its checks have been made before it was sent. Without `useL1` the L1 drops its copy of the cell
before a DREAD looks for it, as it may at any time (R318). -/
def onceForm (fn : Nat) (f : FmtM) (s : State) : Except Stop State := do
  if fn = 3 then needPriv s else .ok ()
  if fn = 0 then .ok () else needDst s f.d
  let prop ← if fn = 0 then (do
      let v ← readVector s 1 f.d
      .ok (v.toNat % 2 ^ 256)) else .ok 0
  let g ← if fn = 0 then .ok (cellGen prop) else (do
      let x ← readA1 s 2
      .ok (field x 0 14))
  let b ← readScalar s 0 f.base
  let seg := segOf s f.sg.toNat
  let o := b + offOnce f * 32
  let scope := (f.off.extractLsb' 0 3).toNat
  let h := f.off.getLsbD 3
  let install := fn = 0 || (fn = 1 && !h)
  match s.core.ctx.asked with
  | some (_, none) => stall s
  | some (_, some r) => onceFinish fn install seg o f r (s.modCtx fun c => { c with asked := none })
  | none =>
  if 3 < scope || (h && fn ≠ 1) then trapHere s .illegalFunct
  else if o.toNat % 32 ≠ 0 then trapAccess s .misaligned o .once seg
  else do
    let ps ← place s seg o 32 .once fun r => r = .dram
    match ps with
    | [] => .ok s
    | p :: _ =>
      let a := p.place.addr
      if !p.place.once then trapAccess s .onceInvalid o .once seg
      else if fn = 0 && 24 < cellLen prop then trapAccess s .onceInvalid o .once seg
      else do
        if 0 < scope then release s else .ok ()
        let s := if fn = 1 && !h && !s.useL1 then onceDrop s a else s
        match if fn = 1 && !h then onceFind s a g else none with
        | some image => onceFinish fn false seg o f ⟨a, image, none⟩ s
        | none =>
          if s.answerLater then do
            needRoom s [homeOf s p.place]
            let m := (s.cube s.myCube).imap.mgen
            let num := s.numCtr
            let t := s.send (.main s.me) s.core.ctx.tid .ordered s.myCube p.place.cube (homeOf s p.place)
              (p.place.ilv.map fun i => (i, m)) (.once fn a g prop)
            .error (.wait (t.modCtx fun c => { c with asked := some (num, none) }))
          else do
            let p ← settlePiece s .once seg p
            if p.place.region ≠ .dram then trapAccess s .pageProtect o .once seg
            else do
              let s ← drainPair s (homeOf s p.place)
              match performOnce s p.place.cube fn p.place.addr g prop with
              | none => stall s
              | some (t, r) => onceFinish fn install seg o f r t

/-- PROPOSE (R316) -/
def execPropose (f : FmtM) := issueM f (onceForm 0 f)
/-- DREAD (R317) -/
def execDread (f : FmtM) := issueM f (onceForm 1 f)
/-- DRETIRE (R319) -/
def execDretire (f : FmtM) := issueM f (onceForm 2 f)
/-- DINIT (R320) -/
def execDinit (f : FmtM) := issueM f (onceForm 3 f)

end Sys2Proof.Machine
end

