-- ==== Sys2Proof/Machine/RefineMath.lean ====
section
/-! DEFINITION. The reference procedure of a refinement run (R414-R417): narrow factors, their solves, residuals
in FP64, and the loop with its exits. Matrices are lists of rows of encodings. -/

namespace Sys2Proof.Machine

open Sys2Proof

/-! ### Formats (R412, R414, R415) -/

/-- The next format of the escalation order SX4, SX7, BF16, FP32, by its code (R414). -/
def escalate (f : Nat) : Option Nat :=
  match f with
  | 4 => some 3
  | 3 => some 1
  | 1 => some 0
  | _ => none

/-- Groups of 16 values, the last filled with zeros. -/
def refBlocks : Nat → List FVal → List (List FVal)
  | 0, _ => []
  | n + 1, xs =>
    if xs.isEmpty then []
    else (xs.take 16 ++ List.replicate (16 - (xs.take 16).length) (.fin false 0 0)) :: refBlocks n (xs.drop 16)

/-- narrow(F, ·) of a row, as FP32 encodings (R415). -/
def narrowRow (f : Nat) (xs : List FVal) : List Nat :=
  let single := xs.map (f32.ofVal .rne 0)
  let viaSx := fun (m : Nat) =>
    ((refBlocks (xs.length + 1) (single.map f32.decode)).flatMap fun b =>
      let blk := sxPack m .rne (fun _ => 0) b
      (List.range 16).map fun i => f32.ofVal .rne 0 (sxElem m blk i)).take xs.length
  match f with
  | 0 => single
  | 1 => xs.map fun x => f32.ofVal .rne 0 (bf16.decode (bf16.ofVal .rne 0 x))
  | 3 => viaSx 7
  | _ => viaSx 4

/-- Whether an FP32 encoding is finite. -/
def finite32 (x : Nat) : Bool := x % 2 ^ 31 < 0x7F800000

/-- Element (i, j) of a matrix. -/
def elemOf (m : List (List Nat)) (i j : Nat) : Nat := (m.getD i []).getD j 0

/-! ### Factors (R415) -/

/-- Swaps two elements of a list. -/
def swapAt {α : Type} (xs : List α) (i j : Nat) : List α :=
  match xs[i]?, xs[j]? with
  | some a, some b => (xs.set i b).set j a
  | _, _ => xs

/-- The row of the largest |U(t,c)| among rows c and above, the lowest on ties; encodings of magnitudes order
as R415 asks, with the NaN above infinity. -/
def pivotRow (u : List (List Nat)) (c n : Nat) : Nat :=
  (List.range (n - c)).foldl (fun t k => if elemOf u t c % 2 ^ 31 < elemOf u (c + k) c % 2 ^ 31 then c + k else t) c

/-- One column of the elimination; none where the factor is singular (R415). -/
def eliminate (n c : Nat) (x : Factor) : Option Factor :=
  let t := pivotRow x.u c n
  let d := elemOf x.u t c
  if d % 2 ^ 31 = 0 || !finite32 d then none
  else
    let u := swapAt x.u c t
    let l := swapAt x.l c t
    let top := u.getD c []
    let row := fun (i : Nat) (r : List Nat) =>
      if i ≤ c then (r, l.getD i [])
      else
        let q := f32.div .rne (f32.decode (r.getD c 0)) (f32.decode d)
        (r.zipIdx.map fun e => if e.2 ≤ c then e.1 else f32.fnma q (top.getD e.2 0) e.1, l.getD i [] ++ [q])
    let rows := u.zipIdx.map fun r => row r.2 r.1
    some { u := rows.map Prod.fst, l := rows.map Prod.snd, p := swapAt x.p c t }

/-- The elimination of columns from `c` on. -/
def eliminateFrom (n : Nat) : Nat → Nat → Factor → Option Factor
  | 0, _, x => some x
  | k + 1, c, x => match eliminate n c x with
    | none => none
    | some y => eliminateFrom n k (c + 1) y

/-- factor(F) of the FP64 matrix A, of order n: none where it is singular (R415). L and U are narrowed as rows
of their own, zero outside their triangles (log entry 34). -/
def factorOf (f n : Nat) (a : List (List Nat)) : Option Factor :=
  let u := a.map fun r => narrowRow f (r.map f64.decode)
  match eliminateFrom n n 0 { u := u, l := List.replicate n [], p := List.range n } with
  | none => none
  | some x =>
    let narrow := fun (r : List Nat) => narrowRow f (r.map f32.decode)
    let lo := x.l.zipIdx.map fun r => narrow ((r.1.take r.2) ++ List.replicate (n - r.2) 0)
    let up := x.u.zipIdx.map fun r => narrow (List.replicate r.2 0 ++ r.1.drop r.2)
    let fine := (lo ++ up).all fun r => r.all finite32
    let diag := (List.range n).all fun i => elemOf up i i % 2 ^ 31 ≠ 0
    if fine && diag then some { u := up, l := lo, p := x.p } else none

/-! ### Solves, residuals, norms (R416) -/

/-- The forward solve: y from index 0 up. -/
def forward (x : Factor) (res : List Nat) : Nat → List Nat
  | 0 => []
  | i + 1 =>
    let y := forward x res i
    let s := convert f64 f32 .rne 0 (res.getD (x.p.getD i 0) 0)
    y ++ [(y.zipIdx.foldl (fun s e => f32.fnma (elemOf x.l i e.2) e.1 s) s)]

/-- The backward solve of the last `k` rows of n: z from index n - k up. -/
def backward (x : Factor) (n : Nat) (y : List Nat) : Nat → List Nat
  | 0 => []
  | k + 1 =>
    let z := backward x n y k
    let i := n - (k + 1)
    let s := z.zipIdx.foldl (fun s e => f32.fnma (elemOf x.u i (i + 1 + e.2)) e.1 s) (y.getD i 0)
    f32.div .rne (f32.decode s) (f32.decode (elemOf x.u i i)) :: z

/-- solve(res): the correction d in FP64. -/
def solveOf (x : Factor) (n : Nat) (res : List Nat) : List Nat :=
  (backward x n (forward x res n) n).map fun z => convert f32 f64 .rne 0 z

/-- resid(x). -/
def residOf (a : List (List Nat)) (b x : List Nat) : List Nat :=
  b.zipIdx.map fun e => (a.getD e.2 []).zip x |>.foldl (fun r p => f64.fnma p.1 p.2 r) e.1

/-- norm(v): the largest magnitude, or the NaN. -/
def normOf (v : List Nat) : Nat :=
  if v.any fun x => f64.decode x = .nan then f64.nan else v.foldl (fun m x => max m (x % 2 ^ 63)) 0

/-! ### The loop (R417) -/

/-- What a run is asked. -/
structure Problem where
  n : Nat
  fmt0 : Nat
  smax : Nat
  itmax : Nat
  a : List (List Nat)
  b : List Nat
  tau : Nat
  rho : Nat
  delta : Nat

/-- Exit codes (R418). -/
def exitConverged : Nat := 0x66
def exitStagnated : Nat := 0x67
def exitDiverged : Nat := 0x50
def exitGangLost : Nat := 0x60
def exitFaulted : Nat := 0x61

/-- Order of FP64 encodings. -/
def lt64 (x y : Nat) : Bool := (f64.decode x).lt (f64.decode y)

/-- Whether an FP64 encoding is finite. -/
def finite64 (x : Nat) : Bool := (f64.decode x).isFin

/-- The start of a run: its progress, and the exit where it ends at once. -/
def startRun (p : Problem) : Progress × Option Nat :=
  let x := List.replicate p.n 0
  let res := residOf p.a p.b x
  let nk := normOf res
  let lim := f64.mul p.delta nk
  let g : Progress :=
    { fmt := p.fmt0, k := 0, cnt := 0, esc := 0, sing := false, limit := false, x := x, best := x, bn := nk, nk := nk,
      norm0 := nk, lim := lim, res := res, fac := none }
  (g, if !finite64 nk then some exitDiverged else if !lt64 p.tau nk then some exitConverged else none)

/-- To escalate (R414): the next format, the count of escalations, no factor yet, and the stagnation count anew; an exit
STAGNATED where the format has no successor (R417). -/
def Progress.escalated (g : Progress) : Progress × Option Nat :=
  match escalate g.fmt with
  | none => (g, some exitStagnated)
  | some f => ({ g with fmt := f, esc := g.esc + 1, cnt := 0, fac := none }, none)

/-- The factor at the format of a run is made (R415, R417): a singular one makes it escalate. -/
def refactor (p : Problem) (g : Progress) : Progress × Option Nat :=
  match factorOf g.fmt p.n p.a with
  | some f => ({ g with fac := some f }, none)
  | none => Progress.escalated { g with sing := true }

/-- One correction of a run with its factor (R416, R417). -/
def correct (p : Problem) (f : Factor) (g : Progress) : Progress × Option Nat :=
  if g.k = p.itmax then ({ g with limit := true }, some exitStagnated)
  else
    let d := solveOf f p.n g.res
    let x := (g.x.zip d).map fun e => f64.add e.1 e.2
    let res := residOf p.a p.b x
    let nk := normOf res
    let np := g.nk
    let g := { g with x := x, k := g.k + 1, res := res, nk := nk }
    if !finite64 nk then (g, some exitDiverged)
    else
      let g := if lt64 nk g.bn then { g with best := x, bn := nk } else g
      if !lt64 p.tau nk then (g, some exitConverged)
      else if lt64 g.lim nk then (g, some exitDiverged)
      else
        let q := f64.div .rne (f64.decode nk) (f64.decode np)
        let cnt := if lt64 p.rho q then g.cnt + 1 else 0
        if p.smax ≤ cnt then Progress.escalated { g with cnt := cnt } else ({ g with cnt := cnt }, none)

/-- One pass of the loop of R417, which makes a factor or a correction: the progress after it, and the exit where it ends the
run. -/
def pass (p : Problem) (g : Progress) : Progress × Option Nat :=
  match g.fac with
  | none => refactor p g
  | some f => correct p f g

/-- Runs the loop to its exit. -/
def runLoop (p : Problem) : Nat → Progress → Progress × Nat
  | 0, g => (g, exitStagnated)
  | k + 1, g => match pass p g with
    | (g, some e) => (g, e)
    | (g, none) => runLoop p k g

/-- A run whose reads all deliver the same values, from its start to its exit: it makes at most ITMAX corrections, and makes
a factor for each of the formats at most once. -/
def runOf (p : Problem) : Progress × Nat :=
  match startRun p with
  | (g, some e) => (g, e)
  | (g, none) => runLoop p (p.itmax + 5) g

end Sys2Proof.Machine
end

