-- ==== Sys2Proof/Machine/Flue.lean ====
section
/-! DEFINITION. Flue engines (R323-R341): the image, the four instructions and their entries, the tile's
cells and streams, the end of a kernel. -/

namespace Sys2Proof.Machine

open Sys2Proof

/-! ### Issue (R331, R332) -/

/-- A flue instruction (R331): the descriptor is read and the entry enters the flue queue. -/
def flueForm (fn : Nat) (f : FmtA) (s : State) : Except Stop State := do
  needUnused s f.d
  needUnused s f.b
  let j := f.a.toNat
  if 29 < j then trapHere s .illegalOperand
  else do
    let obj ← readG s 0 j
    let rec_ ← readG s 1 (j + 1)
    let w ← readG s 2 (j + 2)
    deliver (field w 3 8) [] s
    enqueue .flue (.flue fn obj rec_ false) (field w 0 3) (BitVec.ofNat 8 (field w 3 8)) s

/-- FCFG -/
def execFcfg (f : FmtA) := issueA f (flueForm 0 f)
/-- FSTART -/
def execFstart (f : FmtA) := issueA f (flueForm 1 f)
/-- FSTOP -/
def execFstop (f : FmtA) := issueA f (flueForm 2 f)
/-- FSTAT -/
def execFstat (f : FmtA) := issueA f (flueForm 3 f)

/-! ### Tensor layout records (R404) -/

/-- A tensor layout record: its 512 bits. -/
abbrev Record := Nat

def recFmt (r : Record) : Nat := getBits r 8 3
def recAuto (r : Record) : Bool := getBits r 11 1 = 1
def recRemap (r : Record) : Bool := getBits r 12 1 = 1
def recFgen (r : Record) : Nat := getBits r 16 16
def recRows (r : Record) : Nat := getBits r 128 32
def recCols (r : Record) : Nat := getBits r 160 32
def recSidx (r : Record) : Nat := getBits r 256 64

/-- Whether a record is well formed (R398, R404). -/
def recOk (r : Record) : Bool :=
  getBits r 0 8 = 1 && recFmt r < 6 && getBits r 13 3 = 0 && getBits r 32 32 = 0 && 1 ≤ recRows r &&
  1 ≤ recCols r && getBits r 232 24 = 0 && getBits r 320 192 = 0

/-- Whether a record is stale on a cube and not remappable (R244, R404). -/
def recStale (q : Cube) (r : Record) : Bool := recFgen r ≠ q.fgen.toNat && !recRemap r

/-- The live flues of a cube, ascending (R242). -/
def liveFlues (q : Cube) : List Nat :=
  let l := q.fmap.filterMap fun e => match e with
    | .inl f => some f
    | .inr _ => none
  (List.range 64).filter fun f => l.contains f

/-- The flue set of a record (R333). -/
def flueSet (q : Cube) (r : Record) : List Nat :=
  let ixs := (List.range 64).filter fun i => (recSidx r).testBit i
  let one := fun (i : Nat) => match q.fmap[i]? with
    | some (.inl f) => [f]
    | some (.inr _) => liveFlues q
    | none => []
  (ixs.flatMap one).foldl insertNat []

/-! ### Images (R327-R329) -/

def cOp (w : BitVec 64) : Nat := field w 0 3
def cEn (w : BitVec 64) : Bool := w.getLsbD 3
def cSrcA (w : BitVec 64) : Nat := field w 4 3
def cSrcB (w : BitVec 64) : Nat := field w 7 3
def cSelA (w : BitVec 64) : Nat := field w 10 2
def cSelB (w : BitVec 64) : Nat := field w 12 2
def cOut (w : BitVec 64) : Bool := w.getLsbD 14
def cOsel (w : BitVec 64) : Nat := field w 15 2
def cN (w : BitVec 64) : Nat := field w 18 12 + 1
def cK (w : BitVec 64) : Nat := field w 32 32

/-- Whether an operation uses port B (R324). -/
def usesB (op : Nat) : Bool := 1 ≤ op && op ≤ 5

/-- Whether an operation accumulates (R324). -/
def accumulates (op : Nat) : Bool := op = 3 || op = 7

/-- The neighbour of a cell that a source code names (R323, R327). -/
def neighbour (k src : Nat) : Option Nat :=
  match src with
  | 1 => if k % 4 ≠ 0 then some (k - 1) else none
  | 2 => if 4 ≤ k then some (k - 4) else none
  | 3 => if k % 4 ≠ 3 then some (k + 1) else none
  | 4 => if k < 12 then some (k + 4) else none
  | _ => none

/-- Word `k` of an image. -/
def imgWord (img : List (BitVec 64)) (k : Nat) : BitVec 64 := img.getD k 0

/-- The enabled cells of an image. -/
def imgCells (img : List (BitVec 64)) : List Nat := (List.range 16).filter fun k => cEn (imgWord img k)

def imgIn (img : List (BitVec 64)) (k : Nat) : Bool := (imgWord img 16).getLsbD k
def imgOut (img : List (BitVec 64)) (k : Nat) : Bool := (imgWord img 16).getLsbD (4 + k)

/-- Whether a port's source is allowed (R329). -/
def sourceOk (img : List (BitVec 64)) (k src sel : Nat) : Bool :=
  match src with
  | 0 => false
  | 5 => imgIn img sel
  | 6 => true
  | 7 => false
  | n => match neighbour k n with
    | some j => cEn (imgWord img j)
    | none => false

/-- Whether an enabled cell's word is valid (R329). -/
def cellOk (img : List (BitVec 64)) (k : Nat) : Bool :=
  let w := imgWord img k
  let b := usesB (cOp w)
  sourceOk img k (cSrcA w) (cSelA w) && (if b then sourceOk img k (cSrcB w) (cSelB w) else cSrcB w = 0) &&
  !(cSrcA w = 6 && (!b || cSrcB w = 6)) && (accumulates (cOp w) || cN w = 1) &&
  (!cOut w || imgOut img (cOsel w)) && field w 17 1 = 0 && field w 30 2 = 0

/-- Whether an image is valid (R329). -/
def imageOk (img : List (BitVec 64)) : Bool :=
  let r := imgWord img 16
  let named := fun (i k : Nat) =>
    let w := imgWord img k
    (cSrcA w = 5 && cSelA w = i) || (usesB (cOp w) && cSrcB w = 5 && cSelB w = i)
  let feeds := fun (o k : Nat) => cOut (imgWord img k) && cOsel (imgWord img k) = o
  field r 8 8 = 0 && field r 16 8 = 1 && field r 24 40 = 0 &&
  ((List.range 16).all fun k => if cEn (imgWord img k) then cellOk img k else imgWord img k = 0) &&
  ((List.range 4).all fun i => !imgIn img i || (imgCells img).any (named i)) &&
  ((List.range 4).all fun o => !imgOut img o || ((imgCells img).filter (feeds o)).length = 1)

/-! ### Reading records and objects (R333) -/

/-- What an entry or node reads: its bytes, a wait, or a fault. -/
inductive FlueRead where
  | bytes (l : List Byte)
  | wait
  | fault (t : TrapReport)

/-- The bytes of a placed footprint, of which the work with a number may have read atoms ahead (R405). -/
def readPiecesOf (s : State) (cube key : Nat) : List Piece → List Byte
  | [] => []
  | p :: ps => readEarly s cube key p.place.addr (s.load p.place.addr p.len) ++ readPiecesOf s cube key ps

/-- Reads bytes for a flue instruction or node at their homes, each atom at the start of its work or before it (R333, R405);
`key` is the number of the work. -/
def flueRead (s : State) (cube key : Nat) (r : Requester) (pc : Word) (seg : BitVec 16) (o : Word) (n : Nat) : FlueRead :=
  let rep := fun (c : TrapCode) (a : Word) (st : Bool) => FlueRead.fault
    { code := c, pc := pc, addr := a, epc := pc, source := 3, kind := .load, seg := seg, staleGen := st }
  match footprint s r seg o n .load rawRegion with
  | .error e => if e.held then .wait else rep e.code e.off e.stale
  | .ok ps => if waitsMap s ps then .wait else match landPieces s ps with
    | .error none => .wait
    | .error (some (c, a)) => rep c a false
    | .ok ps =>
      if ownedPieces s ps then .wait
      else match poisonIn s ps with
        | some a => rep .memUncorrectable a false
        | none => .bytes (readPiecesOf s cube key ps)

/-- The segment value and offset of a segmented address under given segment values (R289). -/
def segIn (segs : List (BitVec 16)) (x : Word) : BitVec 16 × Word :=
  (segs.getD (field x 62 2) 0, x &&& BitVec.ofNat 64 (2 ^ 62 - 1))

/-- The common steps of R333: alignment, record and object; answers the record and the object's bytes.
`n` bytes of the object are read, none for FSTOP and FSTAT. LAYOUT_STALE reports the instruction's address (R332, log entry
42). -/
def flueCommon (s : State) (cube key : Nat) (r : Requester) (pc : Word) (segs : List (BitVec 16)) (fn : Nat)
    (obj rec_ : Word) : Except (Option TrapReport) (Record × List Byte) :=
  let (os, oo) := segIn segs obj
  let (rs, ro) := segIn segs rec_
  let bad := fun (c : TrapCode) (a : Word) (k : AccessKind) (seg : BitVec 16) =>
    (Except.error (some { code := c, pc := pc, addr := a, epc := pc, source := 3, kind := k, seg := seg,
                          staleGen := false }) : Except (Option TrapReport) (Record × List Byte))
  let n := match fn with
    | 0 => 136
    | 1 => 128
    | _ => 0
  if fn ≠ 2 && oo.toNat % 64 ≠ 0 then bad .misaligned oo (if fn = 3 then .store else .load) os
  else if ro.toNat % 32 ≠ 0 then bad .misaligned ro .load rs
  else match flueRead s cube key r pc rs ro 64 with
    | .wait => .error none
    | .fault t => .error (some t)
    | .bytes rb =>
      match if n = 0 then .bytes [] else flueRead s cube key r pc os oo n with
      | .wait => .error none
      | .fault t => .error (some t)
      | .bytes ob =>
        let rc := natOfBytes rb
        if !recOk rc then bad .flueInvalid pc .none 0
        else if recStale (s.cube cube) rc then bad .layoutStale pc .none 0
        else .ok (rc, ob)

/-! ### Flues -/

/-- A flue of a cube. -/
def State.flue (s : State) (cube f : Nat) : Flue := ((s.cube cube).flues[f]?).getD Flue.reset

/-- Changes a flue of a cube. -/
def State.modFlue (s : State) (cube f : Nat) (g : Flue → Flue) : State :=
  s.modCube cube fun q => { q with flues := q.flues.setIfInBounds f (g ((q.flues[f]?).getD Flue.reset)) }

/-- Whether a flue of a set runs. -/
def anyRunning (s : State) (cube : Nat) (set : List Nat) : Bool := set.any fun f => (s.flue cube f).st == .running

/-- The words of an image. -/
def imageWords (bs : List Byte) : List (BitVec 64) := (chunk 8 17 bs).map fun b => BitVec.ofNat 64 (natOfBytes b)

/-- Loads an image into every flue of a set (R334). CODE stays: it is that of the last fault, and no rule clears it but the IDLE
state of a reset or a retirement (R330, R338; DEDUCED, log entry 48). -/
def loadImage (s : State) (cube owner : Nat) (img : List (BitVec 64)) (set : List Nat) : State :=
  set.foldl (fun t f => t.modFlue cube f fun u => { u with st := .configured, owner := owner, image := img }) s

/-! ### Streams (R335, R336) -/

/-- A checked stream: its direction and number, its segment and offset, and the runs of its range: distance from the start,
global base and length. -/
structure StreamRange where
  num : Nat
  seg : BitVec 16
  off : Word
  runs : List (Nat × Nat × Nat)

/-- The runs of a range from interleaved address i on under a map: one for each stripe that it meets (R239). -/
def stripeRuns (m : InterleaveMap) (i len : Nat) : Nat → Nat → List (Nat × Nat × Nat)
  | 0, _ => []
  | fuel + 1, k =>
    if len ≤ k then []
    else
      let n := min (len - k) (2 ^ m.s - (i + k) % 2 ^ m.s)
      match mapResolve m (i + k) with
      | none => []
      | some (e, l) => (k, e.cube * 2 ^ 47 + l, n) :: stripeRuns m i len fuel (k + n)

/-- Whether a page, at the global address of its leaf entry, lies on a cube: an interleaved one where every stripe of it
does. -/
def pageOn (m : InterleaveMap) (cube page size : Nat) : Bool :=
  if page / 2 ^ 47 % 1024 = 1023 then
    m.entries.zipIdx.all fun x => (stripesOf m (page % 2 ^ 47) size x.2 x.1).isNone || x.1.cube = cube
  else page / 2 ^ 47 % 1024 = cube

/-- Translates and checks the bytes of a range from the `i`-th on, page by page and stripe by stripe (R291, R335): the first
byte refused. `at_` checks one byte; within such a run only the end of present memory can refuse a later byte. -/
def rangeFault (s : State) (cube : Nat) (r : Requester) (seg : BitVec 16) (o : Word) (len : Nat)
    (at_ : Nat → Except Refused Place) : Nat → Nat → Option Refused
  | 0, _ => none
  | fuel + 1, i =>
    if len ≤ i then none
    else match at_ i with
      | .error e => some e
      | .ok p =>
        let q := o.toNat + i
        let size := match walk s r.asid seg q with
          | .ok (_, size) => size
          | .error _ => 4096
        let stripe := match p.ilv with
          | some a => 2 ^ (s.cube cube).imap.s - a % 2 ^ (s.cube cube).imap.s
          | none => size
        let j := min len (i + min stripe (min (size - q % size) (segEnd s r seg - q)))
        match at_ (j - 1) with
        | .error e =>
          let base := logicalAddr s p.addr
          some (if e.code = .addressRange then
            { e with off := o + BitVec.ofNat 64 (i + ((64 - retired (s.cube cube)) * 2 ^ 32 - base % 2 ^ 38)) } else e)
        | .ok _ => rangeFault s cube r seg o len at_ fuel j

/-- Checks one entry of a stream table (R335): k = 0-3 for inputs, 4-7 for outputs. Every byte is translated and checked
first; then the range must lie in one page of the issuing cube's stacked DRAM, an interleaved one with every stripe there;
then it must meet no range map, which is reported at the lowest byte that does. None while a translation waits for a map. -/
def checkStream (s : State) (cube : Nat) (r : Requester) (pc : Word) (segs : List (BitVec 16)) (k : Nat)
    (bs : List Byte) : Except (Option TrapReport) StreamRange :=
  let (seg, o) := segIn segs (BitVec.ofNat 64 (natOfBytes (bs.take 8)))
  let lw := natOfBytes (bs.drop 8)
  let len := lw % 2 ^ 40
  let kind : AccessKind := if k < 4 then .load else .store
  let bad := fun (c : TrapCode) (a : Word) (st : Bool) =>
    (Except.error (some { code := c, pc := pc, addr := a, epc := pc, source := 3,
                          kind := if c = .flueInvalid then .none else kind, seg := if c = .flueInvalid then 0 else seg,
                          staleGen := st }) : Except (Option TrapReport) StreamRange)
  let refused := fun (e : Refused) => if e.held then .error none else bad e.code e.off e.stale
  let at_ := fun (i : Nat) => placeOf s r seg (o + BitVec.ofNat 64 i) kind fun x => x = .dram
  if o.toNat % 4096 ≠ 0 || len % 4096 ≠ 0 || len = 0 || lw ≠ len then bad .flueInvalid pc false
  else match at_ 0 with
    | .error e => refused e
    | .ok p =>
      let (page, size) := if seg = 0xFFFF then (0, 0) else match walk s r.asid seg o.toNat with
        | .ok (e, size) => (pteAddr e, size)
        | .error _ => (0, 0)
      let room := size - o.toNat % size
      let m := (s.cube cube).imap
      match rangeFault s cube r seg o len at_ (2 * (len / 4096) + 1) 0 with
      | some e => refused e
      | none =>
        if !pageOn m cube page size then bad .pageProtect o false
        else if room < len then bad .pageProtect (o + BitVec.ofNat 64 room) false
        else
          let runs := match p.ilv with
            | some i => stripeRuns m i len (len / 4096 + 1) 0
            | none => [(0, logicalAddr s p.addr, len)]
          let maps := (List.range 256).flatMap fun c => (s.getCore (cube * 256 + c)).maps
          let hit := fun (x : Nat × Nat × Nat) =>
            (maps.filter fun m => meets x.2.1 x.2.2 m.base (4096 * m.units)).map fun m => x.1 + (m.base - x.2.1)
          match runs.flatMap hit with
          | [] => .ok ⟨k, seg, o, runs⟩
          | d :: ds => bad .pageProtect (o + BitVec.ofNat 64 (ds.foldl min d)) false

/-- Checks the enabled streams of a table in order (R335). -/
def checkStreams (s : State) (cube : Nat) (r : Requester) (pc : Word) (segs : List (BitVec 16))
    (on : Nat → Bool) (table : List Byte) : List Nat → Except (Option TrapReport) (List StreamRange)
  | [] => .ok []
  | k :: ks =>
    if !on k then checkStreams s cube r pc segs on table ks
    else match checkStream s cube r pc segs k ((table.drop (16 * k)).take 16) with
      | .error t => .error t
      | .ok x => match checkStreams s cube r pc segs on table ks with
        | .error t => .error t
        | .ok xs => .ok (x :: xs)

/-- The list of a stream on a flue (R336): the units of its stripes there, in ascending order. -/
def streamList (q : Cube) (sidx f : Nat) (x : StreamRange) : List StreamUnit :=
  let here := fun (a : Nat) => sidx.testBit (a / 2 ^ 12 % 64) && (placeDram q (a % 2 ^ 38)).1 = f
  let stripe := fun (a o : Nat) => (List.range 64).map fun u =>
    ({ addr := a + 64 * u, seg := x.seg, off := x.off + BitVec.ofNat 64 (o + 64 * u) } : StreamUnit)
  let list := x.runs.flatMap fun r => ((List.range (r.2.2 / 4096)).filter fun i => here (r.2.1 + 4096 * i)).flatMap fun i =>
    stripe (r.2.1 + 4096 * i) (r.1 + 4096 * i)
  if x.runs.length ≤ 1 then list else sortBy (fun a b => a.addr ≤ b.addr) list

/-- The cells of a kernel that starts: S is +0 and every queue is empty (R335). -/
def freshCells : List Cell := List.replicate 16 { s := 0, fired := 0, a := [], b := [], flushed := false }

/-- Starts a kernel on a flue, DONE at once where every input list is empty (R336). -/
def startFlue (by_ : Option Nat × Nat) (origin : Option WorkOrigin) (lists : List (List StreamUnit))
    (spans : List (Nat × Nat)) (u : Flue) : Flue :=
  { u with
    st := if (lists.take 4).all List.isEmpty then .done else .running
    tokens := 0
    cells := freshCells
    ins := lists.take 4
    outs := lists.drop 4
    oq := [[], [], [], []]
    spans := spans
    faultAt := none
    by_ := some by_
    origin := origin }

/-- FSTART on a cube (R335, R336): every check, then every flue of the narrowed set. Where the flues of the set hold different
images, a stream is enabled if the image of one of them that is not IDLE enables it, and each flue of the set has its list of
that stream: R335 speaks of one image. DESIGN CHOICE, log entry 97. -/
def startKernel (s : State) (cube : Nat) (r : Requester) (pc : Word) (segs : List (BitVec 16)) (owner : Nat)
    (rc : Record) (table : List Byte) (by_ : Option Nat × Nat) (origin : Option WorkOrigin) :
    Except (Option TrapReport) State :=
  let q := s.cube cube
  let set := flueSet q rc
  let bad := Except.error (some { code := .flueInvalid, pc := pc, addr := pc, epc := pc, source := 3, kind := .none, seg := 0,
                                  staleGen := false })
  let on := fun (k : Nat) => set.any fun f =>
    let u := s.flue cube f
    u.st != .idle && (if k < 4 then imgIn u.image k else imgOut u.image (k - 4))
  match checkStreams s cube r pc segs on table (List.range 8) with
  | .error t => .error t
  | .ok xs =>
    let lists := fun (f : Nat) => (List.range 8).map fun k => match xs.find? fun x => x.num == k with
      | some x => streamList q (recSidx rc) f x
      | none => []
    let narrow := set.filter fun f => (lists f).any fun l => !l.isEmpty
    let idle := set.all fun f => (s.flue cube f).st == .idle
    let ok := narrow.all fun f =>
      let u := s.flue cube f
      u.st != .idle && u.st != .running && u.owner == owner
    if !ok || (idle && !set.isEmpty) then bad
    else .ok (narrow.foldl (fun t f => t.modFlue cube f (startFlue by_ origin (lists f) (xs.flatMap fun x => x.runs.map Prod.snd))) s)

/-! ### The end of an FSTART (R335) -/

/-- The code of a flue's fault as a trap code (R338). -/
def flueCode (c : BitVec 16) : TrapCode :=
  if c = 0x24 then .memUncorrectable else if c = 0x23 then .peerLost else .flueInvalid

/-- A flue entry of a thread faults (R332): it is discarded, later entries not yet sent are discarded, the
engine stops. Entries already sent stay counted. -/
def flueFaultCtx (c : Ctx) (x : Entry) (t : TrapReport) : Ctx :=
  let rest := c.fq.filter fun y => y.id != x.id
  let keep := rest.filter Entry.accepted
  let dead := rest.filter fun y => !y.accepted
  let c := dead.foldl (fun c y => c.discard .flue y) (c.discard .flue x)
  let c := (c.setQueue .flue []).engineFault .flue { t with pc := x.pc, epc := x.pc, source := Sequencer.num .flue }
    (((x :: dead).find? fun y => y.own).map Entry.pc) none
  { c with fq := keep }

/-- The flues of a cube that serve an FSTART. -/
def servedBy (s : State) (cube : Nat) (b : Option Nat × Nat) : List Nat :=
  (List.range 64).filter fun f => (s.flue cube f).by_ == some b

/-- The fault of an FSTART, if a flue of it faulted. Where several of them faulted, with different codes or addresses, it is
that of the lowest-numbered one: R335 does not say which is recorded. DESIGN CHOICE, log entry 97. -/
def servedFault (s : State) (cube : Nat) (fs : List Nat) : Option TrapReport :=
  (fs.find? fun f => (s.flue cube f).st == .faulted).map fun f =>
    let u := s.flue cube f
    let code := flueCode u.code
    match u.faultAt with
    | some x => { code := code, pc := 0, addr := x.off, epc := 0, source := 3, kind := .load, seg := x.seg, staleGen := false }
    | none => { code := code, pc := 0, addr := 0, epc := 0, source := 3, kind := .none, seg := 0, staleGen := false }

/-- An FSTART whose flues have all ended ceases to be counted, with the fault of one that faulted (R335). A flue node whose
kernel an FSTOP has stopped completes OK: R342 names the end of the kernel, a stale record and faults alone. DESIGN CHOICE,
log entry 97. -/
def settleStart (s : State) (cube : Nat) (b : Option Nat × Nat) : State :=
  let fs := servedBy s cube b
  if anyRunning s cube fs then s
  else
    let bad := servedFault s cube fs
    let origin := (fs.findSome? fun f => (s.flue cube f).origin)
    let t := fs.foldl (fun t f => t.modFlue cube f fun u => { u with by_ := none, origin := none }) s
    match b.1 with
    | none => reportDone t cube origin (if bad.isSome then statusFaulted else statusOk)
    | some tid => t.modThread tid fun c =>
      match c.fq.find? fun x => x.id == b.2 with
      | none => c
      | some x => match bad with
        | none => c.completeEntry .flue x.id
        | some r => flueFaultCtx c x { r with addr := if r.kind = .none then x.pc else r.addr }

/-- Ends the kernel on a flue. -/
def endFlue (s : State) (cube f : Nat) (st : FlueStatus) (code : BitVec 16) (where_ : Option StreamUnit) : State :=
  let b := (s.flue cube f).by_
  let s := s.modFlue cube f fun u => { u with
    st := st, code := if st = .faulted then code else u.code, faultAt := where_, frozen := false }
  match b with
  | some x => settleStart s cube x
  | none => s

/-- Stops every running flue of a list (R337). -/
def stopFlues (s : State) (cube : Nat) (l : List Nat) : State :=
  l.foldl (fun t f => if (t.flue cube f).st = .running then endFlue t cube f .stopped 0 none else t) s

/-- A kernel faults on a memory access (R339): its flue faults, every other flue of it stops. -/
def kernelFault (s : State) (cube f : Nat) (code : BitVec 16) (u : StreamUnit) : State :=
  match (s.flue cube f).by_ with
  | none => endFlue s cube f .faulted code (some u)
  | some b =>
    let others := (servedBy s cube b).filter fun g => g != f
    endFlue (stopFlues s cube others) cube f .faulted code (some u)

/-! ### The flue-request engine (R332-R338) -/

/-- The status word of a flue (R338). -/
def statusWord (u : Flue) : Nat :=
  (match u.st with
    | .idle => 0
    | .configured => 1
    | .running => 2
    | .done => 3
    | .stopped => 4
    | .faulted => 5) + (if u.frozen then 2 ^ 3 else 0) + u.owner % 2 ^ 9 * 2 ^ 4 + u.code.toNat * 2 ^ 13 +
  u.tokens % 2 ^ 35 * 2 ^ 29

/-- The storage address of byte `i` of a placed footprint. -/
def pieceByte : List Piece → Nat → Nat
  | [], i => i
  | p :: ps, i => if i < p.len then p.place.addr + i else pieceByte ps (i - p.len)

/-- The writes of FSTAT (R338); a refused one gives its code and the flue's number. -/
def statWrites (s : State) (cube core : Nat) (ps : List Piece) : List Nat → Except (Option (TrapCode × Nat)) State
  | [] => .ok s
  | f :: l =>
    let a := pieceByte ps (8 * f)
    match homeWrite s (a / 2 ^ 47) none a ((bytesOfNat 8 (statusWord (s.flue cube f))).map some) 0 with
    | .done t =>
      let t := t.modCore core fun k => { k with l1 := k.l1.filter fun x => !meets x.addr 64 a 8 }
      statWrites t cube core ps l
    | .wait => .error none
    | .busy => .error (some (.graphBusy, f))
    | .poisoned => .error (some (.memUncorrectable, f))

/-- FSTAT (R338). -/
def flueStat (s : State) (core : Nat) (x : Entry) (rc : Record) (obj : Word) : EngineResult :=
  let cube := core / 256
  let (seg, o) := segIn x.seg obj
  let allow := fun (r : Region) => r = .dram || r = .spad core 0 || (match r with
    | .spad _ w => w == 0
    | _ => false)
  match footprint s (x.requester core) seg o 512 .store allow with
  | .error e => if e.held then .wait else .fault (x.refusal e .store seg)
  | .ok ps => if waitsMap s ps then .wait else match landPieces s ps with
    | .error none => .wait
    | .error (some (c, a)) => .fault (x.report c a .store seg)
    | .ok ps => match statWrites s cube core ps (flueSet (s.cube cube) rc) with
      | .ok t => .done t
      | .error none => .wait
      | .error (some (c, f)) => .fault (x.report c (o + BitVec.ofNat 64 (8 * f)) .store seg)

/-- The number under which a flue entry reads atoms ahead (R405). -/
def Entry.key (x : Entry) : Nat := 2 * x.id + 1

/-- One flue entry (R333-R338): the state with its effect; an FSTART then stays counted. No FSTART is admitted while a
retirement waits for the kernels that run (R341, R343). -/
def flueEntry (s : State) (core : Nat) (x : Entry) (tid : Nat) (fn : Nat) (obj rec_ : Word) : EngineResult :=
  let cube := core / 256
  match flueCommon s cube x.key (x.requester core) x.pc x.seg fn obj rec_ with
  | .error none => .wait
  | .error (some t) => .fault t
  | .ok (rc, bs) =>
    let set := flueSet (s.cube cube) rc
    match fn with
    | 0 =>
      let img := imageWords bs
      if !imageOk img then .fault (x.report .flueInvalid x.pc .none 0)
      else if anyRunning s cube set then .wait
      else .done (loadImage s cube (core % 256) img set)
    | 1 =>
      if !(s.cube cube).retiring.isEmpty then .wait
      else match startKernel s cube (x.requester core) x.pc x.seg (core % 256) rc bs (some tid, x.id) none with
      | .error none => .wait
      | .error (some t) => .fault t
      | .ok t => .done t
    | 2 => .done (stopFlues s cube set)
    | _ => flueStat s core x rc obj

/-- The flue-request engine of a core moves (R332): it starts its next entry once the wait mask is
satisfied. An FSTART completes when its flues have ended; a marker when nothing is counted before it. -/
def flueStart (core : Nat) (s : State) : State :=
  let c := (s.getCore core).ctx
  let setCtx := fun (t : State) (f : Ctx → Ctx) => t.modCore core fun k => { k with ctx := f k.ctx }
  if !(c.status == .resident || c.status == .waiting) then s
  else match c.fq with
    | [] => s
    | h :: _ =>
      if h.work = .marker then setCtx s fun c => c.completeEntry .flue h.id
      else match c.fq.find? fun x => !x.accepted && x.work != .marker with
        | none => s
        | some x => match x.work with
          | .flue fn obj rec_ _ =>
            if !c.slotsClear x.wait.toNat x.id then s
            else match flueEntry s core x c.tid fn obj rec_ with
              | .wait => s
              | .fault t => setCtx (dropEarly s (core / 256) x.key) fun c => flueFaultCtx c x t
              | .done t =>
                let t := dropEarly t (core / 256) x.key
                if fn = 1 then
                  let t := setCtx t fun c => c.modEntry .flue x.id fun y => { y with work := .flue fn obj rec_ true }
                  settleStart t (core / 256) (some c.tid, x.id)
                else setCtx t fun c => c.completeEntry .flue x.id
          | _ => s

/-! ### The tile (R324-R326) -/

/-- An operation on every lane of two tokens. -/
def tokOp (op : Nat → Nat → Nat) (x y : BitVec 512) : BitVec 512 :=
  BitVec.ofNat 512 (packNat 32 ((List.range 16).map fun k => op (elemNat 32 x.toNat k) (elemNat 32 y.toNat k)))

/-- A token with a value in every lane. -/
def tokConst (k : Nat) : BitVec 512 := BitVec.ofNat 512 (packNat 32 (List.replicate 16 k))

/-- The tokens that wait at a port: `none` for a constant source. -/
def portHead (src k : Nat) (q : List (BitVec 512)) : Option (BitVec 512) := if src = 6 then some (tokConst k) else q.head?

/-- Whether a cell's output may be taken by every consumer (R325). -/
def outRoom (u : Flue) (k : Nat) : Bool :=
  let from_ := fun (j src : Nat) => neighbour j src == some k
  ((imgCells u.image).all fun j =>
    let w := imgWord u.image j
    let c := u.cells.getD j { s := 0, fired := 0, a := [], b := [], flushed := false }
    (!from_ j (cSrcA w) || c.a.length < 4) && (!(usesB (cOp w) && from_ j (cSrcB w)) || c.b.length < 4)) &&
  (!cOut (imgWord u.image k) || (u.oq.getD (cOsel (imgWord u.image k)) []).length < 4)

/-- A token is delivered to the ports that `from_` selects: j, source and stream select of the port. -/
def deliverTo (u : Flue) (from_ : Nat → Nat → Nat → Bool) (x : BitVec 512) : Flue :=
  { u with cells := u.cells.zipIdx.map fun p =>
      let w := imgWord u.image p.2
      if !cEn w then p.1
      else { p.1 with
        a := if from_ p.2 (cSrcA w) (cSelA w) then p.1.a ++ [x] else p.1.a
        b := if usesB (cOp w) && from_ p.2 (cSrcB w) (cSelB w) then p.1.b ++ [x] else p.1.b } }

/-- A cell emits a token: every consumer receives a copy; `none` where its output stream has written every position of
its list (R326). -/
def emit (u : Flue) (k : Nat) (x : BitVec 512) : Option Flue :=
  let w := imgWord u.image k
  let u := deliverTo u (fun j src _ => neighbour j src == some k) x
  if !cOut w then some u
  else
    let o := cOsel w
    if (u.outs.getD o []).isEmpty then none
    else some { u with oq := u.oq.modify o fun q => q ++ [x] }

/-- Cell `k` of a flue. -/
def Flue.cell (u : Flue) (k : Nat) : Cell := u.cells.getD k { s := 0, fired := 0, a := [], b := [], flushed := false }

/-- Changes cell `k`. -/
def Flue.modCell (u : Flue) (k : Nat) (f : Cell → Cell) : Flue := { u with cells := u.cells.modify k f }

/-- Whether a port's source is done, given the cells that are (R326). -/
def sourceDone (u : Flue) (done : List Nat) (k src sel : Nat) : Bool :=
  match src with
  | 5 => (u.ins.getD sel []).isEmpty
  | 6 => true
  | n => match neighbour k n with
    | some j => done.contains j
    | none => true

/-- Whether a port is exhausted: constant, or empty with a done source. -/
def portDone (u : Flue) (done : List Nat) (k src sel : Nat) (q : List (BitVec 512)) : Bool :=
  src = 6 || (q.isEmpty && sourceDone u done k src sel)

/-- Whether every used port of a cell is exhausted. -/
def portsDone (u : Flue) (done : List Nat) (k : Nat) : Bool :=
  let w := imgWord u.image k
  let c := u.cell k
  portDone u done k (cSrcA w) (cSelA w) c.a && (!usesB (cOp w) || portDone u done k (cSrcB w) (cSelB w) c.b)

/-- Whether a cell still owes its flush (R326). -/
def owesFlush (u : Flue) (k : Nat) : Bool :=
  accumulates (cOp (imgWord u.image k)) && (u.cell k).fired ≠ 0 && !(u.cell k).flushed

/-- The done cells, found in `n` rounds from none (R326). -/
def doneCells (u : Flue) : Nat → List Nat
  | 0 => []
  | n + 1 =>
    let d := doneCells u n
    (imgCells u.image).filter fun k => portsDone u d k && !owesFlush u k

/-- The done cells of a flue. -/
def Flue.done (u : Flue) : List Nat := doneCells u 17

/-- Whether a cell can fire (R325). -/
def canFire (u : Flue) (k : Nat) : Bool :=
  let w := imgWord u.image k
  let c := u.cell k
  cEn w && (cSrcA w = 6 || !c.a.isEmpty) && (!usesB (cOp w) || cSrcB w = 6 || !c.b.isEmpty) && outRoom u k

/-- Whether a cell can flush (R326). -/
def canFlush (u : Flue) (k : Nat) : Bool :=
  cEn (imgWord u.image k) && owesFlush u k && portsDone u u.done k && outRoom u k

/-- A firing of a cell (R324, R325): `none` where its output stream overflows. PASS emits the token's bits as they are,
also those of a NaN lane: R324 has every operation follow R113, under which a NaN result is the canonical one, and its
row says "emit A". DESIGN CHOICE, log entry 94. -/
def fireCell (u : Flue) (k : Nat) : Option Flue :=
  let w := imgWord u.image k
  let c := u.cell k
  let a := (portHead (cSrcA w) (cK w) c.a).getD 0
  let b := (portHead (cSrcB w) (cK w) c.b).getD 0
  let take := fun (c : Cell) => { c with
    a := if cSrcA w = 6 then c.a else c.a.tail
    b := if usesB (cOp w) && cSrcB w ≠ 6 then c.b.tail else c.b }
  let u1 := u.modCell k take
  match cOp w with
  | 0 => emit u1 k a
  | 1 => emit u1 k (tokOp f32.add a b)
  | 2 => emit u1 k (tokOp f32.mul a b)
  | 4 => emit u1 k (tokOp (f32.minmax true) a b)
  | 5 => emit u1 k (tokOp (f32.minmax false) a b)
  | 6 => emit u1 k (tokOp f32.mul (tokConst (cK w)) a)
  | op =>
    let sum := if op = 3 then
        BitVec.ofNat 512 (packNat 32 ((List.range 16).map fun i =>
          f32.fma (elemNat 32 a.toNat i) (elemNat 32 b.toNat i) (elemNat 32 c.s.toNat i)))
      else tokOp f32.add c.s a
    if c.fired + 1 = cN w then emit (u1.modCell k fun c => { c with s := 0, fired := 0 }) k sum
    else some (u1.modCell k fun c => { c with s := sum, fired := c.fired + 1 })

/-- Cell k of a flue fires, or emits its flush (CELL_FIRE). -/
def cellFire (s : State) (cube f k : Nat) : State :=
  let u := s.flue cube f
  if u.st ≠ .running || u.frozen then s
  else
    let r := if canFire u k then some (fireCell u k)
      else if canFlush u k then
        some (emit (u.modCell k fun c => { c with s := 0, fired := 0, flushed := true }) k (u.cell k).s)
      else none
    match r with
    | none => s
    | some none => endFlue s cube f .faulted 0x49 none
    | some (some v) => s.modFlue cube f fun _ => v

/-- The flue-request engine of a core reads an atom of its next entry's record or object ahead (R405). -/
def readRecord (s : State) (core addr : Nat) : State :=
  match (s.getCore core).ctx.fq.find? fun x => !x.accepted && x.work != .marker with
  | some x => if (s.getCore core).ctx.live then readAhead s (core / 256) x.key addr else s
  | none => s

/-- Whether every port that an input stream feeds has room: a stream that several ports name delivers a token only when each of
them has. R325 states room for the output of a cell alone. DESIGN CHOICE, log entry 97. -/
def inRoom (u : Flue) (i : Nat) : Bool :=
  (imgCells u.image).all fun j =>
    let w := imgWord u.image j
    let c := u.cell j
    (!(cSrcA w = 5 && cSelA w = i) || c.a.length < 4) &&
    (!(usesB (cOp w) && cSrcB w = 5 && cSelB w = i) || c.b.length < 4)

/-- Whether a stream can move a token. -/
def canStream (u : Flue) (k : Nat) : Bool :=
  if k < 4 then !(u.ins.getD k []).isEmpty && inRoom u k else !(u.oq.getD (k - 4) []).isEmpty

/-- Whether an atom of a unit is owned by a copy engine or held by the host. -/
def unitBlocked (s : State) (cube a : Nat) (write : Bool) : Bool :=
  mustWait (s.cube cube) none a 64 || (write && hostedIn s cube a 64)

/-- A stream of a flue moves one token (STREAM_TOKEN): 0-3 read a unit, 4-7 write one; a token that comes after the last
position has been written faults the kernel (R326, R336, R339). A write to a launched graph's table is refused (R357): its unit
keeps its value, no token counts as written, and the kernel goes on (DESIGN CHOICE, log entry 44). -/
def streamToken (s : State) (cube f k : Nat) : State :=
  let u := s.flue cube f
  if u.st ≠ .running || u.frozen || !canStream u k then s
  else if k < 4 then
    match u.ins.getD k [] with
    | [] => s
    | x :: l =>
      match s.poisoned x.addr 64 with
      | some a => kernelFault s cube f 0x24 { x with off := x.off + BitVec.ofNat 64 (a - x.addr) }
      | none =>
        if unitBlocked s cube x.addr false then s
        else
          let v := BitVec.ofNat 512 (natOfBytes (s.load x.addr 64))
          s.modFlue cube f fun u =>
            deliverTo { u with ins := u.ins.set k l } (fun _ src sel => src == 5 && sel == k) v
  else
    let o := k - 4
    match u.oq.getD o [], u.outs.getD o [] with
    | v :: q, x :: l =>
      if registered s cube x.addr 64 then
        s.modFlue cube f fun u => { u with oq := u.oq.set o q, outs := u.outs.set o l }
      else if unitBlocked s cube x.addr true then s
      else
        let t := s.store x.addr (bytesOfNat 64 v.toNat)
        let t := if u.owner < 256 then t.modCore (cube * 256 + u.owner) fun c =>
            { c with l1 := c.l1.filter fun y => !meets y.addr 64 x.addr 64 } else t
        t.modFlue cube f fun u => { u with oq := u.oq.set o q, outs := u.outs.set o l, tokens := u.tokens + 1 }
    | _ :: _, [] => endFlue s cube f .faulted 0x49 none
    | [], _ => s

/-- A cell that holds a token on one used port while the other is exhausted and not constant (R326). -/
def starved (u : Flue) (k : Nat) : Bool :=
  let w := imgWord u.image k
  let c := u.cell k
  let d := u.done
  let empty := fun (src sel : Nat) (q : List (BitVec 512)) => src != 6 && q.isEmpty && sourceDone u d k src sel
  cEn w && usesB (cOp w) &&
  ((!c.a.isEmpty && empty (cSrcB w) (cSelB w) c.b) || (!c.b.isEmpty && empty (cSrcA w) (cSelA w) c.a))

/-- The end of a kernel on a flue, or its fault (KERNEL_FINISH, R326): finished when every enabled cell is
done and every token written; starved or wedged otherwise. -/
def kernelFinish (s : State) (cube f : Nat) : State :=
  let u := s.flue cube f
  if u.st ≠ .running then s
  else
    let cells := imgCells u.image
    let allDone := cells.all fun k => u.done.contains k
    let moving := (cells.any fun k => canFire u k || canFlush u k) || (List.range 8).any (canStream u)
    if allDone && u.oq.all List.isEmpty then endFlue s cube f .done 0 none
    else if cells.any (starved u) then endFlue s cube f .faulted 0x49 none
    else if !u.frozen && !moving && !allDone then endFlue s cube f .faulted 0x49 none
    else s

/-- Freezes or releases the tile of a flue (R258, R340). -/
def freezeFlue (s : State) (cube f : Nat) (b : Bool) : State :=
  s.modFlue cube f fun u => if u.st = .running then { u with frozen := b } else { u with frozen := false }

end Sys2Proof.Machine
end

