-- ==== Sys2Proof/Machine/Tasks.lean ====
section
/-! DEFINITION. Task packets at their cube: validation, ranks and admission (R346-R353), the dispatcher
(R19-R22, R354), the graph walker (R355-R359, R409, R410), AUTO nodes (R342). -/

namespace Sys2Proof.Machine

open Sys2Proof

/-! ### Ranks (R350-R352) -/

/-- Whether a word of a rank program has a reserved bit set (R350, R351). -/
def rankReserved (w : BitVec 32) : Bool :=
  w.extractLsb' 16 8 ≠ 0 || (w.extractLsb' 28 4 = 0 && w.extractLsb' 9 7 ≠ 0)

/-- The effect of one operation on the working registers k0-k3: the registers, or the rank of a RET; none where
the program fails (R351, R352). -/
def rankOp (w : BitVec 32) (k : List Nat) (p : BitVec 1024) (clock qlen : Nat) : Option (List Nat ⊕ Nat) :=
  let d := (w.extractLsb' 26 2).toNat
  let x := k.getD d 0
  let y := k.getD (w.extractLsb' 24 2).toNat 0
  let imm := (w.extractLsb' 0 16).toNat
  let put := fun (v : Nat) => some (Sum.inl (k.set d v))
  let m := 2 ^ 32
  if rankReserved w then none
  else match (w.extractLsb' 28 4).toNat with
    | 0 =>
      let off := imm % 128
      let size := 2 ^ (imm / 128 % 4)
      if 4 < size || 128 < off + size then none else put (pf p (8 * off) (8 * size))
    | 1 => put imm
    | 2 => put (x % 2 ^ 16 + imm * 2 ^ 16)
    | 3 => put (min (x + y) (m - 1))
    | 4 => put (x - y)
    | 5 => put (x * 2 ^ (imm % 32) % m)
    | 6 => put (x / 2 ^ (imm % 32))
    | 7 => put (x &&& y)
    | 8 => put (x ||| y)
    | 9 => put (min x y)
    | 10 => put (max x y)
    | 11 => put (clock / 2 ^ (imm % 64) % m)
    | 12 => put qlen
    | 13 => some (.inr x)
    | _ => none

/-- Runs a rank program: none where it fails (R352). -/
def runRank (p : BitVec 1024) (clock qlen : Nat) : List (BitVec 32) → List Nat → Option Nat
  | [], _ => none
  | w :: ws, k => match rankOp w k p clock qlen with
    | none => none
    | some (.inr r) => some r
    | some (.inl k) => runRank p clock qlen ws k

/-- Ranks a packet; a failure, also a reserved bit in a word that is not executed, gives the last place, is counted and
posted to Stove core 1 (R352). -/
def rankPacket (s : State) (cube : Nat) (p : BitVec 1024) : BitVec 32 × State :=
  let q := s.cube cube
  match if q.stove.rank.any rankReserved then none else runRank p q.clock.toNat q.pifo.length q.stove.rank [0, 0, 0, 0] with
  | some r => (BitVec.ofNat 32 r, s)
  | none => (BitVec.allOnes 32, (s.errCount cube 5).notice cube 1 noticeRank)

/-! ### What the dispatcher and the walker read and write -/

/-- The segment values of a packet. -/
def pSegs (p : BitVec 1024) : List (BitVec 16) := [pSeg p 0, pSeg p 1, pSeg p 2, pSeg p 3]

/-- The dispatcher as a requester under an ASID: user pages, no local segment (R354). -/
def dispatcherOf (asid : BitVec 24) : Requester := ⟨asid, false, none⟩

/-- Where bytes lie: their pieces by the map of the cubes that own them (R239, R390); or whether they wait for a map, and
else lie nowhere. -/
abbrev Reach := Except Bool (List Piece)

/-- The pieces of `n` bytes at a segmented address, from `skip` bytes on. -/
def dPieces (s : State) (r : Requester) (segs : List (BitVec 16)) (x : Word) (skip n : Nat) (k : AccessKind) : Reach :=
  let (seg, o) := segIn segs x
  match footprint s r seg (o + BitVec.ofNat 64 skip) n k rawRegion with
  | .error e => .error e.held
  | .ok ps => match landPieces s ps with
    | .error e => .error e.isNone
    | .ok ps => .ok ps

/-- Reads `n` bytes; none where a byte cannot be read. -/
def dBytes (s : State) (r : Requester) (segs : List (BitVec 16)) (x : Word) (skip n : Nat) : Option (List Byte) :=
  match dPieces s r segs x skip n .load with
  | .error _ => none
  | .ok ps => if (poisonIn s ps).isSome then none else some (readPieces s ps)

/-- Writes bytes over pieces at their homes. -/
def writePieces (s : State) (bs : List Byte) : List Piece → State
  | [] => s
  | p :: ps => writePieces (s.store p.place.addr (bs.take p.len)) (bs.drop p.len) ps

/-- Whether a read of pieces waits, for a map (R389, R390) or at a home (R257, R281). -/
def readHeld (s : State) (ps : Reach) : Bool :=
  match ps with
  | .error b => b
  | .ok ps => ownedPieces s ps

/-- Whether a write of pieces waits: so, or until the host's copy is recalled (R286, R394). -/
def writeHeld (s : State) (ps : Reach) : Bool :=
  readHeld s ps || match ps with
    | .error _ => false
    | .ok ps => ps.any fun p => hostedIn s p.place.cube p.place.addr p.len

/-- Whether every piece lies in stacked DRAM of a cube. -/
def inDramOf (cube : Nat) (ps : List Piece) : Bool := ps.all fun p => p.place.region == .dram && p.place.cube == cube

/-- The registered ranges of pieces, as physical addresses (R357). -/
def rangesOf (s : State) (ps : List Piece) : List (Nat × Nat) := ps.map fun p => (logicalAddr s p.place.addr, p.len)

/-! ### Graph tables (R409, R410) -/

/-- A graph header that is well formed. -/
structure GraphHeader where
  n : Nat
  slen : Nat
  nodes : Word
  counts : Word

/-- Reads the fields of a header; none where it is malformed (R398, R409). -/
def headerOf (h : Nat) : Option GraphHeader :=
  let n := getBits h 16 16
  let slen := getBits h 40 24
  let nodes := getBits h 64 64
  let counts := getBits h 128 64
  if getBits h 0 8 ≠ 1 || getBits h 8 8 ≠ 0 || getBits h 32 8 ≠ 0 || n = 0 || 32 * n < slen || nodes % 64 ≠ 0 ||
      counts % 32 ≠ 0 || getBits h 249 7 ≠ 0 || getBits h 352 160 ≠ 0 then none
  else some ⟨n, slen, BitVec.ofNat 64 nodes, BitVec.ofNat 64 counts⟩

/-- The header of a GRAPH packet with the ranges to register and the header's physical address; none where the
launch is refused with BAD_PACKET (R356). -/
def graphOf (s : State) (cube : Nat) (p : BitVec 1024) : Option (GraphHeader × Nat × List (Nat × Nat)) :=
  let r := dispatcherOf (pAsid p)
  let segs := pSegs p
  if (pObj p).toNat % 64 ≠ 0 then none
  else match dPieces s r segs (pObj p) 0 64 .load, dBytes s r segs (pObj p) 0 64 with
    | .ok hp, some hb =>
      match headerOf (natOfBytes hb) with
      | none => none
      | some g =>
        match dPieces s r segs g.nodes 0 (64 * g.n + 2 * g.slen) .load, dPieces s r segs g.counts 0 (2 * g.n) .store with
        | .ok np, .ok cp =>
          if inDramOf cube hp && inDramOf cube np && inDramOf cube cp then
            some (g, (hp.map fun x => logicalAddr s x.place.addr).headD 0, rangesOf s (hp ++ np ++ cp))
          else none
        | _, _ => none
    | _, _ => none

def nodeType (e : Nat) : Nat := getBits e 0 4
def nodePred (e : Nat) : Nat := getBits e 16 16
def nodeSuccs (e : Nat) : Nat := getBits e 32 6
def nodeSoff (e : Nat) : Nat := getBits e 64 32
def nodePrio (e : Nat) : Nat := getBits e 96 32
def nodeObj (e : Nat) : Word := BitVec.ofNat 64 (getBits e 128 64)

/-- Whether a node entry is well formed (R398, R410). -/
def nodeOk (g : GraphHeader) (e : Nat) : Bool :=
  nodeType e < 5 && getBits e 4 12 = 0 && nodeSuccs e ≤ 32 && getBits e 38 26 = 0 && nodeSoff e + nodeSuccs e ≤ g.slen &&
  getBits e 192 320 = 0 && (nodeObj e).toNat % (if nodeType e = 0 then 64 else 32) = 0

/-- A node entry of a launch; none where it cannot be read. -/
def nodeEntry (s : State) (p : BitVec 1024) (g : GraphHeader) (k : Nat) : Option Nat :=
  (dBytes s (dispatcherOf (pAsid p)) (pSegs p) g.nodes (64 * k) 64).map natOfBytes

/-- The j-th successor word of a node table (R409). -/
def succWord (s : State) (p : BitVec 1024) (g : GraphHeader) (j : Nat) : Option Nat :=
  (dBytes s (dispatcherOf (pAsid p)) (pSegs p) g.nodes (64 * g.n + 2 * j) 2).map natOfBytes

/-- The count of a node (R358). -/
def countOf (s : State) (p : BitVec 1024) (g : GraphHeader) (k : Nat) : Option Nat :=
  (dBytes s (dispatcherOf (pAsid p)) (pSegs p) g.counts (2 * k) 2).map natOfBytes

/-- Writes the count of a node (R358); none where its home refuses the write, which is a partial one of a poisoned atom
(R235), or it no longer translates. -/
def setCount (s : State) (p : BitVec 1024) (g : GraphHeader) (k v : Nat) : Option State :=
  match dPieces s (dispatcherOf (pAsid p)) (pSegs p) g.counts (2 * k) 2 .store with
  | .ok ps => if (poisonIn s ps).isSome then none else some (writePieces s (bytesOfNat 2 v) ps)
  | .error _ => none

/-- Whether the tables of a launch make the walker wait at their homes (R257, R281, R286). -/
def launchHeld (s : State) (cube : Nat) (p : BitVec 1024) : Bool :=
  let r := dispatcherOf (pAsid p)
  let segs := pSegs p
  readHeld s (dPieces s r segs (pObj p) 0 64 .load) || (match graphOf s cube p with
    | some (g, _, _) => readHeld s (dPieces s r segs g.nodes 0 (64 * g.n + 2 * g.slen) .load) ||
        writeHeld s (dPieces s r segs g.counts 0 (2 * g.n) .store)
    | none => false)

/-! ### Graph slots -/

/-- A graph slot of a cube. -/
def State.graph (s : State) (cube slot : Nat) : Option GraphSlot := (s.cube cube).graphs.find? fun g => g.slot == slot

/-- Writes a graph slot. -/
def State.setGraph (s : State) (cube : Nat) (g : GraphSlot) : State :=
  s.modCube cube fun q => { q with graphs :=
    (q.graphs.filter fun x => x.slot < g.slot) ++ g :: q.graphs.filter fun x => g.slot < x.slot }

/-- Frees a graph slot: its registration ends with it (R357). -/
def State.freeGraph (s : State) (cube slot : Nat) : State :=
  s.modCube cube fun q => { q with graphs := q.graphs.filter fun x => x.slot != slot }

/-- The lowest free slot number (R356). -/
def freeSlot (q : Cube) : Option Nat := (List.range 64).find? fun k => !q.graphs.any fun g => g.slot == k

/-- The place a GRAPH packet would take: a new slot, or a place behind the launches of its graph; none where it
is refused with GRAPH_QUEUE_FULL (R356). -/
def graphPlace (q : Cube) (header : Nat) : Option (Nat × Nat) :=
  match q.graphs.find? fun g => g.header == header && g.job.isNone with
  | some g => if g.launches.length < 5 then some (g.slot, g.launches.length) else none
  | none => (freeSlot q).map fun k => (k, 0)

/-- A launch takes its place, and its ranges are registered with their homes (R356, R357). -/
def reserve (s : State) (cube slot header : Nat) (ranges : List (Nat × Nat)) (p : BitVec 1024) : State :=
  let l : Launch := { packet := p, given := false }
  match s.graph cube slot with
  | some g => s.setGraph cube { g with launches := g.launches ++ [l], ranges := g.ranges ++ ranges }
  | none => s.setGraph cube { slot := slot, header := header, launches := [l], started := false, active := [],
                              done := 0, abort := none, ranges := ranges, job := none }

/-! ### Validation (R347, R348) -/

def codeUnsupported : BitVec 16 := 0x62
def codeAsidStale : BitVec 16 := 0x63
def codeBadPacket : BitVec 16 := 0x64
def codeCheckFailed : BitVec 16 := 0x65
def codeGraphFull : BitVec 16 := 0x4B
def codeRefineInvalid : BitVec 16 := 0x51

/-- The checkpoint areas of a GANG packet (R348 step 4). -/
def ckptOk (q : Cube) (p : BitVec 1024) : Bool :=
  let size := (pRows p + 1) * (pCols p + 1) * 2 ^ 20
  let top := (64 - retired q) * 2 ^ 32
  pCka p % 2 ^ 16 = 0 && pCkb p % 2 ^ 16 = 0 && pCka p + size ≤ top && pCkb p + size ≤ top &&
  !meets (pCka p) size (pCkb p) size

/-- The checks of a GANG packet's own fields (R348 step 4). -/
def gangOk (q : Cube) (p : BitVec 1024) : Bool :=
  pImglen p ≠ 0 && pImglen p % 4 = 0 && (!pCkpt p || ckptOk q p)

/-- The first failure of steps 2-5 of R348, or the place of a launch (0 for other packets). The bits `ign` are not
looked at as reserved bits (R388). -/
def validate (s : State) (cube : Nat) (ign p : BitVec 1024) : Except (BitVec 16) (State × Nat) :=
  let q := s.cube cube
  if pVer p ≠ 1 || !(pOp p = 1 || pOp p = 2 || pOp p = 3) || pReserved (p &&& ~~~ign) then .error codeUnsupported
  else if (pAsid p).extractLsb' 16 8 ≠ generation q ((pAsid p).extractLsb' 0 16) then .error codeAsidStale
  else if pOp p = 1 then (if gangOk q p then .ok (s, 0) else .error codeBadPacket)
  else if (pObj p).toNat % 32 ≠ 0 then .error codeBadPacket
  else if pOp p = 3 then .ok (s, 0)
  else match graphOf s cube p with
    | none => .error codeBadPacket
    | some (_, header, ranges) =>
      match graphPlace q header with
      | none => .error codeGraphFull
      | some (slot, place) => .ok (reserve s cube slot header ranges p, place)

/-- Notifies of a refusal at admission (R349). -/
def notifyRefusal (s : State) (cube : Nat) (p : BitVec 1024) (code : BitVec 16) : State :=
  if pNv p then notify s cube (pNcore p) (pNcube p) (pNtag p) code 0xFFFF 0 else s

/-! ### Admission (R353) -/

/-- A packet that has been validated is ranked and waits for the PIFO (R18). -/
def rankIn (s : State) (cube : Nat) (e : PifoEntry) (f : Option Flight) : State :=
  let (r, s) := rankPacket s cube e.packet
  s.modCube cube fun q => { q with ingress := q.ingress ++ [({ e with rank := r, arrival := 0 }, f)] }

/-- A packet of the walker, or one that is admitted again, takes its turn for the ingress buffer of 64 (R344, R358). -/
def enqueueIn (s : State) (cube : Nat) (e : PifoEntry) : State :=
  let q := s.cube cube
  if q.ingress.length < 64 && q.walked.isEmpty then rankIn s cube e none
  else s.modCube cube fun q => { q with walked := q.walked ++ [e] }

/-- The oldest packet that waits for room enters the ingress buffer (R344). -/
def refill (s : State) (cube : Nat) : State :=
  match (s.cube cube).walked with
  | [] => s
  | e :: l =>
    if 64 ≤ (s.cube cube).ingress.length then s
    else rankIn (s.modCube cube fun q => { q with walked := l }) cube e none

/-- The walker enqueues a node: a NODE packet with the node's PRIO (R358). -/
def enqueueNode (s : State) (cube slot : Nat) (p : BitVec 1024) (prio k : Nat) : State :=
  let np := BitVec.ofNat 1024 (1 + 4 * 2 ^ 8 + (pAsid p).toNat * 2 ^ 32 + pTarget p * 2 ^ 64 +
    (slot + k % 2 ^ 16 * 2 ^ 16) * 2 ^ 128 + pf p 192 64 * 2 ^ 192 + prio * 2 ^ 288)
  let s := match s.graph cube slot with
    | some g => s.setGraph cube { g with active := g.active ++ [k] }
    | none => s
  enqueueIn s cube { packet := np, rank := 0, arrival := 0, node := some (slot, k), auto := none }

/-! ### The launches of a graph (R358, R359) -/

/-- The launch that a slot runs. -/
def GraphSlot.packet (g : GraphSlot) : BitVec 1024 := (g.launches.map Launch.packet).headD 0

/-- Withdraws the NODE packets of a slot that are not yet dispatched (R359). -/
def withdrawNodes (s : State) (cube slot : Nat) : State :=
  let mine := fun (e : PifoEntry) => e.node.any fun x => x.1 == slot
  let q := s.cube cube
  let gone := ((q.pifo ++ q.ingress.map Prod.fst ++ q.walked ++ q.stove.withdrawn).filter mine).filterMap fun e =>
    e.node.map Prod.snd
  let s := s.modCube cube fun q => { q with
    pifo := q.pifo.filter fun e => !mine e
    ingress := q.ingress.filter fun x => !mine x.1
    walked := q.walked.filter fun e => !mine e
    stove := { q.stove with withdrawn := q.stove.withdrawn.filter fun e => !mine e } }
  match s.graph cube slot with
  | some g => s.setGraph cube { g with active := g.active.filter fun k => !gone.contains k }
  | none => s

/-- A launch aborts with a status at a node (R359). -/
def abortLaunch (s : State) (cube slot : Nat) (status : BitVec 16) (k : Nat) : State :=
  match s.graph cube slot with
  | none => s
  | some g =>
    let s := s.setGraph cube { g with abort := some (g.abort.getD (status, k)) }
    withdrawNodes s cube slot

/-- The notification at the end of a launch (R349, R358). -/
def notifyLaunch (s : State) (cube : Nat) (g : GraphSlot) : State :=
  let p := g.packet
  if !pNv p then s
  else
    let (status, node) := g.abort.getD (statusOk, 0xFFFF)
    notify s cube (pNcore p) (pNcube p) (pNtag p) status node g.done

/-- Sets the counts of the nodes from `k` on (R358); answers the nodes whose count is zero, with their PRIO, or
the first malformed node. -/
def initCounts (p : BitVec 1024) (g : GraphHeader) : Nat → Nat → State → List (Nat × Nat) → State × (Nat ⊕ List (Nat × Nat))
  | 0, _, s, l => (s, .inr l.reverse)
  | fuel + 1, k, s, l =>
    match nodeEntry s p g k with
    | none => (s, .inl k)
    | some e =>
      if !nodeOk g e then (s, .inl k)
      else match setCount s p g k (nodePred e) with
        | none => (s, .inl k)
        | some s => initCounts p g fuel (k + 1) s (if nodePred e = 0 then (k, nodePrio e) :: l else l)

/-- The first launch of a slot starts, if the dispatcher has given it to the walker (R356, R358), once no home makes the
walker wait for its tables (R281, R286). -/
def startLaunch (s : State) (cube slot : Nat) : State :=
  match s.graph cube slot with
  | none => s
  | some g =>
    if g.started || !((g.launches.map Launch.given).headD false) || (g.job.isNone && launchHeld s cube g.packet) then s
    else
      let s := s.setGraph cube { g with started := true, active := [], done := 0, abort := none }
      let p := g.packet
      match g.job with
      | some _ => enqueueNode s cube slot p 0 0
      | none => match graphOf s cube p with
        | none => abortLaunch s cube slot statusFaulted 0
        | some (h, _, _) =>
          match initCounts p h h.n 0 s [] with
          | (t, .inl k) => abortLaunch t cube slot statusFaulted k
          | (t, .inr l) => l.foldl (fun t x => enqueueNode t cube slot p x.2 x.1) t

/-- A launch with no node enqueued, dispatched or running ends; the next one of its slot starts, or the slot is
freed (R356, R358). `fuel` bounds the launches that end in one step. -/
def endLaunches (cube slot : Nat) : Nat → State → State
  | 0, s => s
  | fuel + 1, s =>
    match s.graph cube slot with
    | none => s
    | some g =>
      if !g.started || !g.active.isEmpty then s
      else
        let s := notifyLaunch s cube g
        match g.launches.tail with
        | [] => s.freeGraph cube slot
        | l => endLaunches cube slot fuel (startLaunch (s.setGraph cube { g with launches := l, started := false }) cube slot)

/-- The walker decrements the counts of a completed node's successors (R358). -/
def successors (cube slot : Nat) (p : BitVec 1024) (g : GraphHeader) (node : Nat) : Nat → Nat → State → State
  | 0, _, s => s
  | fuel + 1, j, s =>
    let bad := abortLaunch s cube slot statusFaulted node
    match succWord s p g j with
    | none => bad
    | some m => match countOf s p g m with
      | none => bad
      | some c =>
        if g.n ≤ m || c = 0 then bad
        else match setCount s p g m (c - 1) with
        | none => bad
        | some s =>
          let s := if c = 1 then enqueueNode s cube slot p (((nodeEntry s p g m).map nodePrio).getD 0) m else s
          successors cube slot p g node fuel (j + 1) s

/-- A launch that waited for its tables starts. -/
def startWaiting (s : State) (cube : Nat) : State :=
  match (s.cube cube).graphs.find? fun g => !g.started && (g.launches.map Launch.given).headD false with
  | some g => endLaunches cube g.slot 6 (startLaunch s cube g.slot)
  | none => s

/-- Whether a completion waits for the tables of its launch at their homes (R281, R286). -/
def completionHeld (s : State) (cube : Nat) (o : WorkOrigin) : Bool :=
  match o with
  | .packet _ _ _ _ => false
  | .node slot _ => match s.graph cube slot with
    | none => false
    | some g => g.job.isNone && g.abort.isNone && launchHeld s cube g.packet

/-- The walker handles one completion (R358, R359), or starts a launch that has waited. -/
def walkerStep (s : State) (cube : Nat) : State :=
  match (s.cube cube).done with
  | [] => startWaiting s cube
  | c :: l =>
    if completionHeld s cube c.origin then s
    else
    let s := s.modCube cube fun q => { q with done := l }
    match c.origin with
    | .packet _ _ _ _ => s
    | .node slot k => match s.graph cube slot with
      | none => s
      | some g =>
        let ok := g.abort.isNone && c.status == statusOk
        let s := s.setGraph cube { g with active := g.active.filter fun x => x != k, done := if ok then g.done + 1 else g.done }
        let s :=
          if g.abort.isSome then s
          else if c.status ≠ statusOk then abortLaunch s cube slot c.status k
          else if g.job.isSome then s
          else match graphOf s cube g.packet with
            | none => abortLaunch s cube slot statusFaulted k
            | some (h, _, _) => match nodeEntry s g.packet h k with
              | none => abortLaunch s cube slot statusFaulted k
              | some e => successors cube slot g.packet h k (nodeSuccs e) (nodeSoff e) s
        endLaunches cube slot 6 s

/-! ### AUTO nodes (R342) -/

/-- Weighted block bytes c(fmt) of R342. -/
def autoBytes (fmt : Nat) : Nat :=
  match fmt with
  | 0 => 64
  | 1 | 2 => 32
  | 3 => 18
  | 4 => 12
  | _ => 8

/-- Whether an AUTO node runs on the flue engines, from its three records and AIT (R342). -/
def autoChoice (ait a b c : Nat) : Bool :=
  let m := recRows a
  let k := recCols a
  let n := recCols b
  let up := fun (x : Nat) => (x + 15) / 16
  let bytes := up (m * k) * autoBytes (recFmt a) + up (k * n) * autoBytes (recFmt b) + up (m * n) * autoBytes (recFmt c)
  2 * m * n * k < ait * bytes

/-- Word `k` of an object block. -/
def blockWord (b : List Byte) (k : Nat) : Word := BitVec.ofNat 64 (natOfBytes ((b.drop (8 * k)).take 8))

/-- The number under which the dispatcher reads atoms ahead for a node (R405). -/
def nodeKey (slot k : Nat) : Nat := 2 * (2 ^ 16 * slot + k)

/-- A record that the dispatcher reads for the work with a number: aligned, readable and well formed. Each of its two atoms is
read then or before (R405). -/
def dRecord (s : State) (key : Nat) (r : Requester) (segs : List (BitVec 16)) (x : Word) : Option Nat :=
  if x.toNat % 32 ≠ 0 then none
  else match dPieces s r segs x 0 64 .load with
    | .error _ => none
    | .ok ps =>
      let rc := natOfBytes (readPiecesOf s s.myCube key ps)
      if (poisonIn s ps).isNone && recOk rc then some rc else none

/-- The evaluation of an AUTO node as it enters the PIFO (R342): its choice, or the status with which it completes when it is
dispatched, LAYOUT_STALE where one of its three records is stale and not remappable (R244), FAULTED where they are of no
use for another reason (R404). -/
def evalAuto (s : State) (key : Nat) (p : BitVec 1024) (obj : Word) : BitVec 16 ⊕ Bool :=
  let r := dispatcherOf (pAsid p)
  let segs := pSegs p
  match dBytes s r segs obj 0 64 with
  | none => .inl statusFaulted
  | some b =>
    let rec_ := fun (k : Nat) => dRecord s key r segs (blockWord b k)
    match rec_ 0, rec_ 1, rec_ 2 with
    | some ra, some rb, some rc =>
      if [ra, rb, rc].any (recStale (s.cube s.myCube)) then .inl statusStale
      else if recAuto ra && recAuto rb && recAuto rc && blockWord b 6 = 0 && blockWord b 7 = 0 &&
          (blockWord b 3).toNat % 64 = 0 && (blockWord b 4).toNat % 64 = 0 && (blockWord b 5).toNat % 32 = 0 &&
          recCols ra = recRows rb && recRows ra = recRows rc && recCols rb = recCols rc then
        .inr (autoChoice (s.cube s.myCube).ait.toNat ra rb rc)
      else .inl statusFaulted
    | _, _, _ => .inl statusFaulted

/-- The node entry that a PIFO entry of the walker names, with its launch. -/
def nodeOfEntry (s : State) (cube : Nat) (e : PifoEntry) : Option (GraphSlot × Nat × Nat) :=
  match e.node with
  | none => none
  | some (slot, k) => match s.graph cube slot with
    | none => none
    | some g => match graphOf s cube g.packet with
      | none => none
      | some (h, _, _) => (nodeEntry s g.packet h k).map fun x => (g, k, x)

/-- What an admission evaluates, once for a launch of the node: the choice of an AUTO node (R342). -/
def admitAuto (s : State) (cube : Nat) (e : PifoEntry) : Option (BitVec 16 ⊕ Bool) :=
  match e.auto, nodeOfEntry s cube e with
  | some c, _ => some c
  | none, some (g, k, x) => if nodeType x = 3 then some (evalAuto s (nodeKey g.slot k) g.packet (nodeObj x)) else none
  | none, none => none

/-- The dispatcher reads an atom of a queued node's records ahead (R405). -/
def readNode (s : State) (cube slot k addr : Nat) : State :=
  let q := s.cube cube
  if (q.ingress.map Prod.fst ++ q.walked ++ q.pifo).any fun e => e.node == some (slot, k) then
    readAhead s cube (nodeKey slot k) addr
  else s

/-- Whether the image of a gang, which its launch multicasts (R22), waits for a map or at a home. -/
def imageHeld (s : State) (p : BitVec 1024) (asid : BitVec 24) : Bool :=
  match footprint s (dispatcherOf asid) ((pSegs p).getD 0 0) (pObj p) (min (pImglen p) 65536) .fetch rawRegion with
  | .error e => e.held
  | .ok ps => match landPieces s ps with
    | .error e => e.isNone
    | .ok ps => ownedPieces s ps

/-- Whether a node's object, or one of the three records of an AUTO node, makes the dispatcher wait at its home (R281). -/
def objectHeld (s : State) (p : BitVec 1024) (x : Nat) : Bool :=
  let r := dispatcherOf (pAsid p)
  let segs := pSegs p
  let held := fun (a : Word) (n : Nat) => readHeld s (dPieces s r segs a 0 n .load)
  let obj := nodeObj x
  let template := fun (a : Word) => held a 128 || match dBytes s r segs a 0 128 with
    | some b => imageHeld s (BitVec.ofNat 1024 (natOfBytes b)) (pAsid p)
    | none => false
  match nodeType x with
  | 0 => template obj
  | 4 => held obj 128
  | 1 => held obj 32
  | 2 => held obj 24
  | _ => held obj 64 || match dBytes s r segs obj 0 64 with
    | some b => held (blockWord b 0) 64 || held (blockWord b 1) 64 || held (blockWord b 2) 64 || template (blockWord b 3)
    | none => false

/-- Whether what the dispatcher reads for an entry makes it wait at a home (R281). -/
def entryHeld (s : State) (cube : Nat) (e : PifoEntry) : Bool :=
  match e.node with
  | none =>
    (pOp e.packet = 1 && imageHeld s e.packet (pAsid e.packet)) ||
    (pOp e.packet = 3 && readHeld s (dPieces s (dispatcherOf (pAsid e.packet)) (pSegs e.packet) (pObj e.packet) 0 32 .load))
  | some (slot, _) => match s.graph cube slot with
    | none => false
    | some g => g.job.isNone && (launchHeld s cube g.packet || match nodeOfEntry s cube e with
      | some (g, _, x) => objectHeld s g.packet x
      | none => false)

/-! ### Placement (R19-R22) -/

/-- The head of the PIFO: the smallest rank, then the smallest arrival number (R353). -/
def headOf (q : Cube) : Option PifoEntry :=
  q.pifo.foldl (fun m e => match m with
    | none => some e
    | some h => if e.rank < h.rank || (e.rank = h.rank && e.arrival < h.arrival) then some e else some h) none

/-- Whether the dispatcher may place work on a core (R21, R229, R419). -/
def coreFree (s : State) (cube core : Nat) : Bool :=
  let k := s.getCore core
  !k.ctx.present && k.runList.isEmpty && !k.spare && !k.lost &&
  !((s.cube cube).runs.any fun r => r.cores.contains core)

/-- The cores of the rectangle of `rows` x `cols` at (h0, k0), in rank order (R21). -/
def rectCores (cube h0 k0 rows cols : Nat) : List Nat :=
  (List.range rows).flatMap fun h => (List.range cols).map fun k => cube * 256 + 8 * (h0 + h) + k0 + k

/-- Whether a rectangle lies on the grid and is free. -/
def rectFree (s : State) (cube h0 k0 rows cols : Nat) : Bool :=
  h0 + rows ≤ 32 && k0 + cols ≤ 8 && (rectCores cube h0 k0 rows cols).all (coreFree s cube)

/-- Whether some rectangle of a shape is free. -/
def anyRect (s : State) (cube rows cols : Nat) : Bool :=
  (List.range 32).any fun h => (List.range 8).any fun k => rectFree s cube h k rows cols

/-- The lowest free cube-scope group (R20). -/
def freeGroupNum (q : Cube) : Option Nat :=
  (List.range 64).find? fun k => !(q.groups.any fun g => g.num == k) && !(q.runs.any fun r => r.group == k && !r.cores.isEmpty)

/-- The registers that a launch gives a member (R22, R88, R346, R354); the registers that it does not write keep
what the core holds. It writes g0-g31 and both queues, so that the dirty bits of their groups are set (R105). -/
def launchRegs (old : Regs) (p : BitVec 1024) (asid : BitVec 24) (rank : Nat) : Regs :=
  { old with
    g := Vector.ofFn fun k : Fin 32 => if k.val < 6 then pG p k.val else 0
    gq := List.replicate 16 0
    vq := List.replicate 16 0
    fmt := pFmt p
    seg := Vector.ofFn fun k : Fin 4 => pSeg p k.val
    tsw := tswSet (tswSet 0 1 (pChk p)) 3 (pVtrap p)
    pc := pObj p
    ras := []
    rsl := pRsl p
    rsp := (pRsl p) &&& ~~~0xFFF
    asid := asid
    grpdirty := old.grpdirty ||| 3
    rank := BitVec.ofNat 8 rank }

/-- Launches one member on its core: it is released with the others, deposits held for the core are performed,
and the launch acquires (R22, R222, R275). -/
def launchMember (scope : Nat) (p : BitVec 1024) (asid : BitVec 24) (gang : Nat) (s : State) (m : Nat × Nat × Nat) : State :=
  let s := s.focus m.2.2
  let old := s.core.ctx
  let c := { old.vacant with
    tid := m.2.1, status := .queued, gang := some gang, regs := launchRegs old.regs p asid m.1 }
  let s := bumpVersion s scope
  nextResident { s with core := { s.core with runList := [c] } } m.2.2

/-- The words of the runs of an image, each with its global address. -/
def imageWordsOf (s : State) (ps : List Piece) : List (Nat × Word32) :=
  ps.flatMap fun p => (chunk 4 (p.len / 4) (s.load p.place.addr p.len)).zipIdx.map fun x =>
    (globalOf s p.place + 4 * x.2, BitVec.ofNat 32 (natOfBytes x.1))

/-- The image of a gang is multicast into the instruction caches of the hearths of its rectangle, and replaces their older
copies of its lines (R22, R252); of an image past the cache's 64 KiB, the first 64 KiB stand there alone. -/
def multicastImage (s : State) (cube h0 rows : Nat) (p : BitVec 1024) (asid : BitVec 24) : State :=
  match footprint s (dispatcherOf asid) ((pSegs p).getD 0 0) (pObj p) (min (pImglen p) 65536) .fetch rawRegion with
  | .error _ => s
  | .ok ps =>
    let ws := match landPieces s ps with
      | .ok qs => if (poisonIn s qs).isSome then [] else imageWordsOf s qs
      | .error _ => []
    let covers := fun (g : Nat) => 65536 < pImglen p || ps.any fun q => meets (globalOf s q.place) q.len g 4
    let hearths := (List.range rows).map (· + h0)
    s.modCube cube fun q => { q with
      icache := (q.icache.filter fun x => !(hearths.contains x.1 && covers x.2.1)) ++
        hearths.flatMap fun h => ws.map fun w => (h, w.1, w.2) }

/-- Fresh thread numbers. -/
def freshTids (s : State) (n : Nat) : List Nat × State :=
  ((List.range n).map (· + s.tidCtr + 1), { s with tidCtr := s.tidCtr + n })

/-- Launches a gang on a free rectangle (R22, R354): none where it or a group is missing. -/
def launchGangAt (s : State) (cube h0 k0 : Nat) (p : BitVec 1024) (asid : BitVec 24) (origin : WorkOrigin) (scope : Nat) :
    Option State :=
  let rows := pRows p + 1
  let cols := pCols p + 1
  match freeGroupNum (s.cube cube) with
  | none => none
  | some n =>
    if !rectFree s cube h0 k0 rows cols then none
    else
      let cores := rectCores cube h0 k0 rows cols
      let (tids, s) := freshTids s cores.length
      let (id, s) := s.fresh
      let members := ((List.range cores.length).zip (tids.zip cores))
      let grp : Group :=
        { num := n, asid := asid.extractLsb' 0 16, launch := some id, phase := 0
          members := members.map fun m => { tid := m.2.1, core := m.2.2, arrived := none }
          mism := 0, pend := [], home := cube, sent := [], got := [], lag := [], rounds := [] }
      let gang : Gang :=
        { id := id, h0 := h0, k0 := k0, rows := rows, cols := cols, asid := asid, group := n, members := members
          halted := [], origin := origin, ckpt := pCkpt p, cka := pCka p, ckb := pCkb p, areaA := none, areaB := none
          held := false, moved := false, ending := none }
      let s := s.modCube cube fun q => { q with gangs := q.gangs ++ [gang] }
      let s := multicastImage (s.setGroup cube grp) cube h0 rows p asid
      let s := members.foldl (launchMember scope p asid id) s
      if !pCkpt p then some s
      else
        let all := List.range 512
        let s := cores.foldl (fun t c => t.modCore c fun k => { k with dirtyA := all, dirtyB := all }) s
        let s := captureCkpt s cube gang 0 grp
        some (match (s.cube cube).gangs.find? fun g => g.id == id with
          | some g => commitCkpts s cube g
          | none => s)

/-- Where the notification of a packet goes. -/
def packetOrigin (p : BitVec 1024) : WorkOrigin := .packet (pNv p) (pNcore p) (pNcube p) (pNtag p)

/-- The form that a descriptor image stands for (log entry 43). -/
def imageForm (b : List Byte) : CopyForm :=
  match Config.copyForm (BitVec.ofNat 256 (natOfBytes b)) % 3 with
  | 0 => .cpy
  | 1 => .cpym
  | _ => .cpyf

/-- A copy of the dispatcher (R20, R354): the descriptor at OBJ enters the copy queue of the home core of its first
destination atom, of its first source atom for cpym; none while that queue is full. That core may lie on another cube, whose
copy engine then reports to this one: DESIGN CHOICE, log entry 43, which names the form that a descriptor has too. -/
def dispatchCopy (s : State) (cube : Nat) (asid : BitVec 24) (segs : List (BitVec 16)) (obj : Word)
    (origin : WorkOrigin) : Option State :=
  let r := dispatcherOf asid
  let failed := some (reportDone s cube (some origin) statusFaulted)
  match dBytes s r segs obj 0 32 with
  | none => failed
  | some b =>
    let c := copyIn (imageForm b) (segIn segs) (blockWord b 0) (blockWord b 1) (blockWord b 2) (blockWord b 3)
    let at_ := if c.form = .cpym then placeOf s r c.srcSeg c.src .copySrc rawRegion else placeOf s r c.dstSeg c.dst .copyDst rawRegion
    if (c.form ≠ .cpyf && 0xFFFE ≤ c.srcSeg.toNat) || (c.form ≠ .cpym && 0xFFFE ≤ c.dstSeg.toNat) then failed
    else match at_ with
      | .error e => if e.held then none else failed
      | .ok q =>
        let core := homeOf s q
        if queueDepth .copy ≤ queueLen (s.getCore core) .copy then none
        else
          let (id, s) := s.fresh
          let x : Entry :=
            { id := id, work := .copy c, pc := 0, own := false, slot := 0, wait := 0, asid := asid, seg := segs
              priv := false, origin := some (cube, origin) }
          some (s.modCore core fun k => { k with dq := k.dq ++ [x] })

/-- The status of a flue node's fault (R342). -/
def flueStatus (t : TrapReport) : BitVec 16 := if t.code = .layoutStale then statusStale else statusFaulted

/-- A flue node (R342): an FCFG and an FSTART with OWNER 256, whose fault leaves what the FCFG has loaded; none while a
flue of its set runs, or a flue is being retired (R341). -/
def dispatchFlue (s : State) (cube : Nat) (asid : BitVec 24) (segs : List (BitVec 16)) (image table rec_ : Word)
    (slot k : Nat) : Option State :=
  let r := dispatcherOf asid
  let origin := WorkOrigin.node slot k
  let fail := fun (t : TrapReport) => some (reportDone s cube (some origin) (flueStatus t))
  match flueCommon s cube (nodeKey slot k) r 0 segs 0 image rec_ with
  | .error none => none
  | .error (some t) => fail t
  | .ok (rc, ib) =>
    let set := flueSet (s.cube cube) rc
    if anyRunning s cube set || !(s.cube cube).retiring.isEmpty then none
    else if !imageOk (imageWords ib) then some (reportDone s cube (some origin) statusFaulted)
    else
      let t := loadImage s cube 256 (imageWords ib) set
      match flueCommon t cube (nodeKey slot k) r 0 segs 1 table rec_ with
      | .error none => none
      | .error (some e) => some (reportDone t cube (some origin) (flueStatus e))
      | .ok (_, tb) =>
        let (id, t) := t.fresh
        match startKernel t cube r 0 segs 256 rc tb (none, id) (some origin) with
        | .error none => none
        | .error (some e) => some (reportDone t cube (some origin) (flueStatus e))
        | .ok u =>
          if (servedBy u cube (none, id)).isEmpty then some (reportDone u cube (some origin) statusOk)
          else some (settleStart u cube (none, id))

/-- A gang node (R410): its template's launch fields, under the launch's ASID. -/
def dispatchTemplate (s : State) (cube h0 k0 : Nat) (p : BitVec 1024) (obj : Word) (slot k : Nat) : Option State :=
  let failed := some (reportDone s cube (some (.node slot k)) statusFaulted)
  match dBytes s (dispatcherOf (pAsid p)) (pSegs p) obj 0 128 with
  | none => failed
  | some b =>
    let t := BitVec.ofNat 1024 (natOfBytes b)
    if obj.toNat % 64 ≠ 0 || pVer t ≠ 1 || pOp t ≠ 1 || pReserved t || !gangOk (s.cube cube) t then failed
    else launchGangAt s cube h0 k0 t (pAsid p) (.node slot k) 4

/-- The shape that an entry asks for, for the search of a free rectangle. -/
def templateShape (s : State) (p : BitVec 1024) (obj : Word) : Option (Nat × Nat) :=
  (dBytes s (dispatcherOf (pAsid p)) (pSegs p) obj 0 128).map fun b =>
    let t := BitVec.ofNat 1024 (natOfBytes b)
    (pRows t + 1, pCols t + 1)

end Sys2Proof.Machine
end

