-- ==== Sys2Proof/Machine/Refine.lean ====
section
/-! DEFINITION. Refinement command blocks (R412-R424): their fields, RLAUNCH and RSTAT, the placement of a run and
its exits. -/

namespace Sys2Proof.Machine

open Sys2Proof

/-! ### The block (R412, R413) -/

/-- A block's 1024 bits. -/
abbrev RefBlock := Nat

def rFmt0 (b : RefBlock) : Nat := getBits b 8 3
def rTrapd (b : RefBlock) : Bool := getBits b 11 1 = 1
def rN (b : RefBlock) : Nat := getBits b 16 16
def rRows (b : RefBlock) : Nat := getBits b 32 5 + 1
def rCols (b : RefBlock) : Nat := getBits b 37 3 + 1
def rSmax (b : RefBlock) : Nat := getBits b 40 8
def rItmax (b : RefBlock) : Nat := getBits b 48 16
def rAadr (b : RefBlock) : Word := BitVec.ofNat 64 (getBits b 64 64)
def rAstr (b : RefBlock) : Nat := getBits b 128 40
def rBadr (b : RefBlock) : Word := BitVec.ofNat 64 (getBits b 192 64)
def rXadr (b : RefBlock) : Word := BitVec.ofNat 64 (getBits b 256 64)
def rWadr (b : RefBlock) : Word := BitVec.ofNat 64 (getBits b 320 64)
def rTau (b : RefBlock) : Nat := getBits b 384 64
def rRho (b : RefBlock) : Nat := getBits b 448 64
def rDelta (b : RefBlock) : Nat := getBits b 512 64

/-- The bytes of the workspace (R412). -/
def workBytes (n : Nat) : Nat := 8 * n * n + 64 * n

/-- Whether a factor format code is not reserved (R412). -/
def fmt0Ok (f : Nat) : Bool := f = 0 || f = 1 || f = 3 || f = 4

/-- The conditions of R413 but for those on the regions. -/
def refFieldsOk (b : RefBlock) : Bool :=
  getBits b 0 8 = 1 && fmt0Ok (rFmt0 b) && getBits b 12 4 = 0 && getBits b 168 24 = 0 && getBits b 832 192 = 0 &&
  1 ≤ rN b && rN b ≤ 4096 && 1 ≤ rSmax b && 1 ≤ rItmax b &&
  (rAadr b).toNat % 8 = 0 && (rBadr b).toNat % 8 = 0 && (rXadr b).toNat % 8 = 0 && (rWadr b).toNat % 64 = 0 &&
  rAstr b % 8 = 0 && 8 * rN b ≤ rAstr b &&
  finite64 (rTau b) && !lt64 (rTau b) 0 && finite64 (rRho b) && !lt64 (rRho b) 0 &&
  finite64 (rDelta b) && !lt64 (rDelta b) 0x3FF0000000000000

/-- The rows of A, as address and length. -/
def rowsOf (b : RefBlock) : List (Word × Nat) :=
  (List.range (rN b)).map fun i => (rAadr b + BitVec.ofNat 64 (i * rAstr b), 8 * rN b)

/-- b, x and the workspace. -/
def bOf (b : RefBlock) : List (Word × Nat) := [(rBadr b, 8 * rN b)]
def xOf (b : RefBlock) : List (Word × Nat) := [(rXadr b, 8 * rN b)]
def wOf (b : RefBlock) : List (Word × Nat) := [(rWadr b, workBytes (rN b))]

/-- Places a region in ascending address: its pieces, or the first refused byte with its segment value. -/
def placeRegion (s : State) (r : Requester) (segs : List (BitVec 16)) (k : AccessKind) :
    List (Word × Nat) → Except (Refused × BitVec 16) (List Piece)
  | [] => .ok []
  | (x, n) :: l =>
    let (seg, o) := segIn segs x
    match footprint s r seg o n k fun _ => true with
    | .error e => .error (e, seg)
    | .ok ps => match placeRegion s r segs k l with
      | .error e => .error e
      | .ok qs => .ok (ps ++ qs)

/-- Whether a region admits an access kind on every page. -/
def regionPermits (s : State) (r : Requester) (segs : List (BitVec 16)) (k : AccessKind) (l : List (Word × Nat)) : Bool :=
  match placeRegion s r segs k l with
  | .ok _ => true
  | .error _ => false

/-- Whether two regions share a byte. -/
def sharesByte (s : State) (a b : List Piece) : Bool :=
  (rangesOf s a).any fun x => (rangesOf s b).any fun y => meets x.1 x.2 y.1 y.2

/-- The conditions of R413 on the regions of a block that translate: pieces of the block, A, b, x and the
workspace. -/
def refRegionsOk (s : State) (cube : Nat) (r : Requester) (segs : List (BitVec 16)) (b : RefBlock)
    (blk pa pb px pw : List Piece) : Bool :=
  (blk ++ pa ++ pb ++ px ++ pw).all (fun p => p.place.region == .dram && p.place.cube == cube) &&
  regionPermits s r segs .load (rowsOf b) && regionPermits s r segs .load (bOf b) &&
  regionPermits s r segs .load (xOf b) && regionPermits s r segs .store (xOf b) &&
  regionPermits s r segs .load (wOf b) && regionPermits s r segs .store (wOf b) &&
  !(sharesByte s px (pa ++ pb ++ blk)) && !(sharesByte s pw (pa ++ pb ++ blk)) && !(sharesByte s px pw)

/-! ### The controller's accesses (R419) -/

/-- The controller as a requester under an ASID: what it may touch was checked at the launch. -/
def controllerOf (asid : BitVec 24) : Requester := ⟨asid, true, none⟩

/-- The physical ranges of a run's block. -/
def Run.ranges (s : State) (r : Run) : List (Nat × Nat) :=
  match dPieces s (controllerOf r.asid) r.segs r.block 0 128 .none with
  | .ok ps => rangesOf s ps
  | .error _ => []

/-- Whether a launch refuses the controller's write of pieces: it has registered their range (R357), and not as the block of
this run, whose bytes 72-103 the controller writes (R412). DESIGN CHOICE, log entry 44: R357 refuses every write, and does not
name the controller's. -/
def Run.refused (s : State) (r : Run) (ps : List Piece) : Bool :=
  let own := r.ranges s
  (s.cube r.cube).graphs.any fun g =>
    (if g.slot = r.slot then g.ranges.filter fun x => !own.contains x else g.ranges).any fun x =>
      ps.any fun p => p.place.cube == r.cube && meets (logicalAddr s p.place.addr) p.len x.1 x.2

/-- Whether a partial write of a poisoned atom refuses a write of pieces (R235). -/
def partPoisoned (s : State) (ps : List Piece) : Bool :=
  ps.any fun p => s.poison.any fun a =>
    meets p.place.addr p.len a 32 && !(p.place.addr ≤ a && a + 32 ≤ p.place.addr + p.len)

/-- Where the controller writes `n` bytes: their pieces; or whether a home makes it wait (R281, R286, R394), and else it
cannot write them: they lie nowhere, or their home refuses them (R235, R357). -/
def controlPieces (s : State) (r : Run) (x : Word) (skip n : Nat) : Reach :=
  match dPieces s (controllerOf r.asid) r.segs x skip n .store with
  | .error b => .error b
  | .ok ps =>
    if r.refused s ps then .error false
    else if writeHeld s (.ok ps) then .error true
    else if partPoisoned s ps then .error false
    else .ok ps

/-- A write of the controller at its homes (R419), which invalidates the issuing core's L1 copy (R280): the state after it,
or as `controlPieces`. -/
def controlWrite (s : State) (r : Run) (x : Word) (skip : Nat) (bs : List Byte) : Except Bool State := do
  let ps ← controlPieces s r x skip bs.length
  let t := writePieces s bs ps
  match r.by_ with
  | none => .ok t
  | some (core, _, _) => .ok (t.modCore core fun k => { k with
      l1 := k.l1.filter fun l => !(ps.any fun p => meets l.addr 64 p.place.addr p.len) })

/-- A read of the controller at its homes (R419): its bytes; or whether it waits, and else meets a fault. -/
def controlRead (s : State) (r : Run) (x : Word) (n : Nat) : Except Bool (List Byte) := do
  let ps ← dPieces s (controllerOf r.asid) r.segs x 0 n .load
  if ownedPieces s ps then .error true
  else if (poisonIn s ps).isSome then .error false
  else .ok (readPieces s ps)

/-- Free bytes for what is not architected (R417, R419; log entry 13). -/
def openBytes (s : State) (n : Nat) : List Byte × State :=
  ((List.range n).map fun k => Config.openByte (s.freeCtr + k), { s with freeCtr := s.freeCtr + n })

/-- x and the workspace take contents that are not architected. -/
def blurOutputs (s : State) (r : Run) (withX : Bool) : Except Bool State := do
  let b := r.data.toNat
  let s ← if withX then
      let (bs, t) := openBytes s (8 * rN b)
      controlWrite t r (rXadr b) 0 bs
    else .ok s
  let (bs, t) := openBytes s (workBytes (rN b))
  controlWrite t r (rWadr b) 0 bs

/-- A status word (R412). -/
def refStatus (st fmt exit_ iter esc : Nat) (sing limit : Bool) : Nat :=
  st + fmt % 8 * 2 ^ 3 + (if sing then 2 ^ 6 else 0) + (if limit then 2 ^ 7 else 0) + exit_ % 2 ^ 16 * 2 ^ 16 +
  iter % 2 ^ 16 * 2 ^ 32 + esc % 8 * 2 ^ 48

/-- The status word of a run that stands at a progress. -/
def Progress.status (g : Progress) (st exit_ : Nat) : Nat := refStatus st g.fmt exit_ g.k g.esc g.sing g.limit

/-- Writes the status word of a block. -/
def writeStatus (s : State) (r : Run) (w : Nat) : Except Bool State := controlWrite s r r.block 72 (bytesOfNat 8 w)

/-! ### RLAUNCH (R420, R421) -/

/-- Checks one region of RLAUNCH: it translates, and where it is read it holds no poisoned atom. -/
def launchRegion (s : State) (k : AccessKind) (l : List (Word × Nat)) : Except Stop (List Piece) :=
  match placeRegion s { s.requester with priv := true } s.regs.seg.toList .none l with
  | .error (e, seg) => refuse s seg k e
  | .ok ps => match if k = .load then poisonIn s ps else none with
    | some o => trapAccess s .memUncorrectable o k ((segIn s.regs.seg.toList (l.headD (0, 0)).1).1)
    | none => .ok ps

/-- Whether a launch has registered bytes of a range: a block among them is not launched again (R421, R424). -/
def blockRegistered (q : Cube) (l : List (Nat × Nat)) : Bool :=
  q.graphs.any fun g => g.ranges.any fun x => l.any fun y => meets x.1 x.2 y.1 y.2

/-- The packet of a launch of one REFINE node: whose work it is and whom it notifies. -/
def refinePacket (s : State) (b : Word) : BitVec 1024 :=
  BitVec.ofNat 1024 (1 + 2 * 2 ^ 8 + s.regs.asid.toNat * 2 ^ 32 + packNat 16 (s.regs.seg.toList.map BitVec.toNat) * 2 ^ 192 +
    (s.myCore + s.myCube * 2 ^ 8 + field b 35 1 * 2 ^ 18 + field b 0 32 * 2 ^ 32) * 2 ^ 512)

/-- The launch of a block that has passed every check: registration, the slot, STATE 1, the count (R421). -/
def admitRun (s : State) (slot : Nat) (a b : Word) (blk : RefBlock) (ranges : List (Nat × Nat)) : State :=
  let cube := s.myCube
  let id := s.numCtr
  let k := field b 32 3
  let run : Run :=
    { id := id, block := a, data := BitVec.ofNat 1024 blk, asid := s.regs.asid, segs := s.regs.seg.toList
      slot := slot, node := 0, by_ := some (s.me, s.core.ctx.tid, k), pc := s.regs.pc
      cube := cube, note := (b.getLsbD 35, b.extractLsb' 0 32), cores := [], group := 0, prog := none, rows := [], elems := []
      due := none }
  let s := { s with numCtr := s.numCtr + 1 }
  let s := s.modCtx fun c => { c with counted := c.counted ++ [Counted.mk k id] }
  let s := (writeStatus s run (refStatus 1 (getBits blk 579 3) 0 (getBits blk 608 16) (getBits blk 624 3)
    (getBits blk 582 1 = 1) (getBits blk 583 1 = 1))).toOption.getD s
  let s := s.setGraph cube
    { slot := slot, header := (ranges.headD (0, 0)).1, launches := [{ packet := refinePacket s b, given := true }]
      started := false, active := [], done := 0, abort := none, ranges := ranges, job := some run }
  startLaunch s cube slot

/-- RLAUNCH (R421). -/
def rlaunchBody (f : FmtA) (s : State) : Except Stop State := do
  needUnused s f.d
  let a ← readScalar s 0 f.a
  let b ← readScalar s 1 f.b
  deliver 0 [.main] s
  let (seg, o) := segAddr s a
  needAligned s seg o 32 .load
  let blkP ← place s seg o 128 .load rawRegion
  let (bs, t) ← loadPieces s .load seg false blkP
  let blk := natOfBytes bs
  let bad : Except Stop State := trapAt s .refineInvalid o
  if field b 36 28 ≠ 0 || !refFieldsOk blk then bad
  else do
    let pa ← launchRegion t .load (rowsOf blk)
    let pb ← launchRegion t .load (bOf blk)
    let px ← launchRegion t .store (xOf blk)
    let pw ← launchRegion t .store (wOf blk)
    if !refRegionsOk t t.myCube t.requester t.regs.seg.toList blk blkP pa pb px pw then bad
    else do
      release t
      let q := t.cube t.myCube
      let ranges := rangesOf t blkP
      if 255 ≤ t.core.ctx.slotCount (field b 32 3) || writeHeld t (.ok blkP) then stall s
      else if blockRegistered q ranges then bad
      else match freeSlot q with
        | none => trapAt s .graphQueueFull o
        | some slot => .ok (admitRun t slot a b blk ranges)

/-- RLAUNCH -/
def execRlaunch (f : FmtA) := issueA f (rlaunchBody f)

/-! ### RSTAT (R423) -/

/-- RSTAT (R423). -/
def rstatBody (f : FmtA) (s : State) : Except Stop State := do
  needDst s f.d
  needUnused s f.b
  let a ← readScalar s 0 f.a
  let (seg, o) := segAddr s a
  needAligned s seg o 32 .load
  let (b0, s) ← loadRaw s seg o 8
  let (b1, s) ← loadRaw s seg (o + 72) 8
  if natOfBytes b0 % 256 ≠ 1 then trapAt s .refineInvalid o
  else .ok (writeScalar 0 f.d (BitVec.ofNat 64 (natOfBytes b1)) (acquire 3 s))

/-- RSTAT -/
def execRstat (f : FmtA) := issueA f (rstatBody f)

/-! ### Placement of a run (R419) -/

/-- The block of a REFINE node: none where it is malformed or cannot be read (R413). -/
def nodeRun (s : State) (cube : Nat) (p : BitVec 1024) (obj : Word) (slot k : Nat) : Option Run :=
  let r := dispatcherOf (pAsid p)
  let segs := pSegs p
  match dPieces s r segs obj 0 128 .load, (dBytes s r segs obj 0 128).map natOfBytes with
  | .ok blkP, some b =>
    if obj.toNat % 32 ≠ 0 || !refFieldsOk b then none
    else match placeRegion s r segs .load (rowsOf b), placeRegion s r segs .load (bOf b),
        placeRegion s r segs .store (xOf b), placeRegion s r segs .store (wOf b) with
      | .ok pa, .ok pb, .ok px, .ok pw =>
        if !refRegionsOk s cube r segs b blkP pa pb px pw then none
        else some
          { id := s.numCtr, block := obj, data := BitVec.ofNat 1024 b, asid := pAsid p, segs := segs, cube := cube
            slot := slot, node := k, by_ := none, pc := 0, note := (false, 0), cores := [], group := 0, prog := none
            rows := [], elems := [], due := none }
      | _, _, _, _ => none
  | _, _ => none

/-- The shape of a run's gang. -/
def Run.shape (r : Run) : Nat × Nat := (rRows r.data.toNat, rCols r.data.toNat)

/-- Changes a run. -/
def modRun (s : State) (r : Run) (f : Run → Run) : State :=
  s.modCube r.cube fun q => { q with runs := q.runs.map fun x => if x.id = r.id then f x else x }

/-- The loop of a run has ended with an exit, which is still to be written (R417). -/
def stopRun (s : State) (r : Run) (e : Nat) : State := modRun s r fun x => { x with due := some e }

/-- The group of a run's gang, bound to its ASID (R419, R427): no thread is its member. -/
def Run.bound (r : Run) : Group :=
  { num := r.group, asid := r.asid.extractLsb' 0 16, launch := some r.id, phase := 0, members := [], mism := 0, pend := []
    home := r.cube, sent := [], got := [], lag := [], rounds := [] }

/-- Places a run on a free rectangle with a group, writes STATE 2, and registers the block of a node (R419, R421,
R424); none where a rectangle or a group is missing, or a home makes its writes wait. A write that cannot be made ends it
FAULTED. -/
def placeRun (s : State) (cube h0 k0 : Nat) (r : Run) : Option State :=
  let (rows, cols) := r.shape
  match freeGroupNum (s.cube cube) with
  | none => none
  | some g =>
    if !rectFree s cube h0 k0 rows cols then none
    else
      let r := { r with cores := rectCores cube h0 k0 rows cols, group := g }
      let s := { s with numCtr := s.numCtr + 1 }
      let s := s.modCube cube fun q => { q with runs := q.runs ++ [r] }
      let s := s.setGroup cube r.bound
      let s := if r.by_.isSome then s else match s.graph cube r.slot with
        | some x => s.setGraph cube { x with ranges := x.ranges ++ r.ranges s }
        | none => s
      match writeStatus s r (refStatus 2 (rFmt0 r.data.toNat) 0 0 0 false false) with
      | .error true => none
      | .error false => some (stopRun s r exitFaulted)
      | .ok t => match blurOutputs t r true with
        | .error true => none
        | .error false => some (stopRun t r exitFaulted)
        | .ok u => some u

/-! ### The loop of a run (R417, R419, R424) -/

/-- The values of consecutive FP64 elements. -/
def doubles (n : Nat) (bs : List Byte) : List Nat := (chunk 8 n bs).map natOfBytes

/-- What a run has read for its next pass. -/
def Run.problem (r : Run) : Problem :=
  let b := r.data.toNat
  { n := rN b, fmt0 := rFmt0 b, smax := rSmax b, itmax := rItmax b, a := r.rows, b := r.elems, tau := rTau b, rho := rRho b
    delta := rDelta b }

/-- Whether a run has made the corrections that its block allows, so that its next pass reads nothing (R417). -/
def Run.spent (r : Run) : Bool := r.prog.any fun g => g.fac.isSome && g.k == rItmax r.data.toNat

/-- The elements from element j on, of n at an address, that stand in one atom: one read brings them (R262, R424). -/
def atomElems (x : Word) (n j : Nat) : Nat := min (n - j) (4 - (x.toNat / 8 + j) % 4)

/-- The row of A that a run reads next and the elements of it that it has. -/
def Run.reading (r : Run) : Nat × List Nat :=
  match r.rows.getLast? with
  | some row => if row.length < rN r.data.toNat then (r.rows.length - 1, row) else (r.rows.length, [])
  | none => (0, [])

/-- What the controller reads next for a pass, as address and number of elements: A by rows, then b, which the making of a
factor does not need (R415, R416); none once it has read it all. -/
def Run.nextRead (r : Run) : Option (Word × Nat) :=
  let b := r.data.toNat
  let n := rN b
  let (i, row) := r.reading
  let x := rAadr b + BitVec.ofNat 64 (i * rAstr b)
  let j := r.elems.length
  if r.spent then none
  else if i < n then some (x + BitVec.ofNat 64 (8 * row.length), atomElems x n row.length)
  else if (r.prog.all fun g => g.fac.isSome) && j < n then some (rBadr b + BitVec.ofNat 64 (8 * j), atomElems (rBadr b) n j)
  else none

/-- A run with the elements that a read has brought. -/
def Run.take (r : Run) (xs : List Nat) : Run :=
  let (i, row) := r.reading
  if i < rN r.data.toNat then { r with rows := r.rows.take i ++ [row ++ xs] } else { r with elems := r.elems ++ xs }

/-- The pass of a run that has read what it needs: where it stands then, and the exit where its loop ends. -/
def Run.passed (r : Run) : Progress × Option Nat :=
  match r.prog with
  | none => startRun r.problem
  | some g => pass r.problem g

/-- What a pass writes: NORM0 after the first residual, then the status word with F, ITER, ESC and SING; x and the workspace
are not architected (R417). -/
def showPass (s : State) (r : Run) (g : Progress) : Except Bool State := do
  let s ← blurOutputs s r true
  if r.prog.isNone then controlWrite s r r.block 80 (bytesOfNat 8 g.norm0)
  else writeStatus s r (Progress.status { g with limit := false } 2 0)

/-- The controller goes on with a run: it reads what stands in one atom, or makes a pass of its loop with what it has read
(R417, R424). It waits where a home makes it wait; a read or a write that it cannot make ends the run FAULTED (R419). -/
def refineStep (s : State) (r : Run) : State :=
  if r.due.isSome then s
  else match r.nextRead with
    | some (x, n) => match controlRead s r x (8 * n) with
      | .error true => s
      | .error false => stopRun s r exitFaulted
      | .ok bs => modRun s r fun y => y.take (doubles n bs)
    | none =>
      let (g, e) := r.passed
      match showPass s r g with
      | .error true => s
      | .error false => stopRun s r exitFaulted
      | .ok t => modRun t r fun y => { y with prog := some g, rows := [], elems := [], due := e }

/-! ### Exits (R417-R419, R422) -/

/-- Node statuses of the exits (R418). -/
def exitStatus (e : Nat) : BitVec 16 :=
  if e = exitDiverged then statusDiverged else if e = exitGangLost then statusGangLost
  else if e = exitFaulted then statusFaulted else statusOk

/-- The writes of an exit (R417, R419): x, NORMB and NORML, then the status word. A FAULTED exit writes the status word alone,
and so does one before the first residual, when there is no iterate (log entry 13). -/
def writeExit (s : State) (r : Run) (e : Nat) : Except Bool State :=
  match r.prog with
  | none => writeStatus s r (refStatus 3 (rFmt0 r.data.toNat) e 0 0 false false)
  | some g => do
    if e = exitFaulted then writeStatus s r (g.status 3 e)
    else do
      let s ← blurOutputs s r false
      let s ← controlWrite s r (rXadr r.data.toNat) 0 (g.best.flatMap (bytesOfNat 8))
      let s ← controlWrite s r r.block 88 (bytesOfNat 8 g.bn ++ bytesOfNat 8 g.nk)
      writeStatus s r (g.status 3 e)

/-- The registration of a run's block ends (R421, R424). -/
def unregister (s : State) (r : Run) : State :=
  match s.graph r.cube r.slot with
  | some x => s.setGraph r.cube { x with ranges := if r.by_.isSome then [] else (r.ranges s).foldl List.erase x.ranges }
  | none => s

/-- A run ends: its cores, its group and its block are free, the count of an RLAUNCH falls, with TRAPD a DIVERGED is recorded
(R422), and the walker learns its status. -/
def endRun (s : State) (r : Run) (e : Nat) : State :=
  let s := s.modCube r.cube fun q => { q with runs := q.runs.filter fun x => x.id != r.id }
  let s := (unregister s r).freeGroup r.cube r.group
  let s := match r.by_ with
    | none => s
    | some (_, tid, slot) =>
      let o := (segIn r.segs r.block).2
      let t : TrapReport := { code := .diverged, pc := 0, addr := o, epc := r.pc, source := 0, kind := .none, seg := 0
                              staleGen := false }
      s.modThread tid fun c =>
        let c := c.uncount r.id
        if e = exitDiverged && rTrapd r.data.toNat then { c.mark slot .main with diverged := c.diverged ++ [(slot, t)] }
        else c
  let s := reportDone s r.cube (some (.node r.slot r.node)) (exitStatus e)
  r.cores.foldl nextResident s

/-- A run exits (REFINEMENT_EXIT) once its loop has ended: it goes on while a home makes one of its writes wait, and one that
cannot be made turns the exit into FAULTED (R419). -/
def exitRun (s : State) (r : Run) : State :=
  match r.due with
  | none => s
  | some e => match writeExit s r e with
    | .ok t => endRun t r e
    | .error true => s
    | .error false => if e = exitFaulted then endRun s r e else stopRun s r exitFaulted

/-- A core of a run's gang is lost (R419): a spare takes its place, and the iteration restarts from its start; without one the
run exits GANG_LOST with the best iterate that it has seen. -/
def loseMember (s : State) (r : Run) (core : Nat) (spare : Option Nat) : State :=
  match spare with
  | some c => modRun s r fun x => { x with
      cores := x.cores.map fun y => if y = core then c else y
      rows := [], elems := [] }
  | none => if r.due.isSome then s else stopRun s r exitGangLost

end Sys2Proof.Machine
end

