-- ==== Sys2Proof/Machine/EventsNet.lean ====
section
/-! DEFINITION. Events of the network: links and routes (R375-R381), requests performed at their homes (R262-R268,
R279-R283, R313), replies, refusals and retries (R372, R382, R383), deposits, messages, reductions, network barriers
(R384-R386, R432), maps and lost cubes (R389-R391). An event that is not due leaves the state as it is. -/

namespace Sys2Proof.Machine

open Sys2Proof

/-! ### The form of an event -/

/-- An event of a cube; a tripped cube is held (R456). -/
def cubeEvent (cube : Nat) (f : State → State) (s : State) : Host.Outcome State Fault Refusal :=
  if 640 ≤ cube then .fault .outsideDomain
  else if (s.cube cube).tripped then .next s
  else .next (f (s.focus (cube * 256)))

/-- An event of a core of the domain; the cores of a tripped cube are held (R456). -/
def coreEvent (core : Nat) (f : State → State) (s : State) : Host.Outcome State Fault Refusal :=
  if 163840 ≤ core then .fault .outsideDomain
  else if (s.cube (core / 256)).tripped then .next s
  else .next (f (s.focus core))

/-- The first word of the command that stands unanswered in the mailbox of Stove core k: its code in bits 15-0, its sequence
number in bits 31-16 (R455). -/
def Stove.command (t : Stove) (k : Nat) : Option (BitVec 64) :=
  if t.unanswered.contains k then some (((assoc t.posted k).bind List.head?).getD 0) else none

/-- The code of a command notice (R455). -/
def commandCode (w : BitVec 64) : Nat := (w.extractLsb' 0 16).toNat

/-- Answers the command of a Stove core that stands in its mailbox (R455): RSP repeats its sequence number and carries the
status, 0 for OK and 0x62 for UNSUPPORTED. -/
def answerPosted (s : State) (cube k : Nat) (w : BitVec 64) (status : Nat) : State :=
  s.modStove cube fun t => { t with
    unanswered := t.unanswered.filter fun j => j != k
    posted := assocErase t.posted k
    rsp := (t.rsp.filter fun r => r.1 != k) ++ [(k, 0, BitVec.ofNat 64 (status + (w.extractLsb' 16 16).toNat * 2 ^ 16))] }

/-- Answers it where it is the command of a code; what a Stove core does of its own accord answers none. -/
def answerCommand (s : State) (cube k code : Nat) (status : Nat) : State :=
  match (s.cube cube).stove.command k with
  | some w => if commandCode w = code then answerPosted s cube k w status else s
  | none => s

/-- Whether a Stove core performs commands: it is released (R450), and in recovery only core 6 does (R452). -/
def Stove.performs (t : Stove) (k : Nat) : Bool := t.run.getLsbD k && (!t.recov || k = 6)

/-- A command of Stove core k with a code on a state of its cube (R455): a released core performs it and answers the notice of
that code in its mailbox, if there is one; a command that it does not support changes nothing. The operands of the event stand
for the notice's argument bytes, of which R455 gives no layout: DESIGN CHOICE, log entry 11. -/
def commandOn (cube k code : Nat) (f : State → Option State) (s : State) : State :=
  if !(s.cube cube).stove.performs k then s
  else match f s with
    | some t => answerCommand t cube k code 0
    | none => answerCommand s cube k code 0x62

/-- The event that a Stove core of a cube performs a command. -/
def stoveCommand (cube k code : Nat) (f : State → Option State) := cubeEvent cube (commandOn cube k code f)

/-- The event that a Stove core performs a command on a core of its cube. -/
def stoveCoreCommand (core k code : Nat) (f : State → State) :=
  coreEvent core (commandOn (core / 256) k code fun s => some (f s))

/-! ### Requests and replies that stand in flight -/

/-- A request in flight. -/
def State.request (s : State) (num : Nat) : Option Flight := s.flights.find? fun f => f.num == num && f.cls != .reply

/-- A request and its copies leave the network, and a reply to it counts no more; a request that was held for it goes out
(R382). -/
def State.landRequest (s : State) (f : Flight) : State :=
  State.sendHeld { s with
    flights := s.flights.filter fun x => !(x.ord == f.ord && x.src == f.src && x.home == f.home && x.cls != .reply)
    kept := s.kept.map fun k => if k.of f && k.request.ord == f.ord then { k with taken := true } else k }

/-- A reply leaves the network. -/
def State.dropReply (s : State) (num : Nat) : State :=
  { s with flights := s.flights.filter fun f => !(f.num == num && f.cls == .reply) }

/-- A reply is consumed: its source keeps the request no more (R383), and sends one that it has held (R382). -/
def State.consume (s : State) (num : Nat) : State :=
  State.sendHeld { s.dropReply num with kept := s.kept.map fun k => if k.reply.num == num then { k with taken := true } else k }

/-- Whether the source of a request still awaits a reply (R382, R383). -/
def State.awaits (s : State) (num : Nat) : Bool := s.kept.any fun k => k.reply.num == num && !k.taken

/-- Makes the core of a flight's source the one that moves. -/
def focusSource (s : State) (f : Flight) : State :=
  match f.src.core with
  | some c => s.focus c
  | none => s.focus (f.src.place.1 * 256)

/-- Takes a performed request away and answers it. -/
def State.performed (s : State) (f : Flight) (b : Body) : State := (s.land f.num).reply f b

/-- A request is refused and stands at its home until its source has the NACK, which no home keeps: sent again, the request
is looked at anew (R383, R396). -/
def refuse_ (s : State) (f : Flight) (code : Option (BitVec 16)) : State :=
  let t := s.modFlight f.num fun x => if x.cls == .reply then x else { x with waiting := true }
  { t with flights := t.flights ++ [f.replyWith (.nack code)] }

/-- A request is refused for lack of room: its sender tries again (R383). -/
def refuseRoom (s : State) (f : Flight) : State := refuse_ s f none

/-- Severities of the error log; the spec gives their meaning and not each event's (log entry 14). -/
def sevDegraded : Nat := 1
def sevLost : Nat := 2
def sevFailed : Nat := 3

/-- Posts a record of an event to the error log with its notice to Stove core 3 (R457). -/
def logError (s : State) (cube code sev where_ : Nat) : State := (s.errRecord cube code sev where_).notice cube 3 noticeError

/-! ### What a reply does at its source -/

/-- What a reply says of a load that failed at its home: the code, and where the fault lies from the load's first byte
on; the core makes the report of it (`Ctx.loadFailed`). -/
def failedRead (code : TrapCode) (away : Word) : TrapReport :=
  { code := code, pc := 0, addr := away, epc := 0, source := 0, kind := .load, seg := 0, staleGen := false }

/-- The values of the lanes that a reply brings, each of equal length (R247, R298). -/
def laneValues (l : LaneDest) (bs : List Byte) : List (Nat × BitVec 32) :=
  let n := winBytes l.win
  (l.lanes.zip (chunk n l.lanes.length bs)).map fun p => (p.1, BitVec.ofNat 32 (winLoad l.win (natOfBytes p.2)))

/-- A vector with some lanes replaced. -/
def putLanes (v : Vec) (l : List (Nat × BitVec 32)) : Vec := ofLanes fun k => (assoc l k).getD (lane v k)

/-- What a load's reply brings, written to its register and to its queue position, which has an age (R35, R54). -/
def Regs.loaded (r : Regs) (p : Pend) (age : Nat) (bs : List Byte) : Regs :=
  match p.dest.vec with
  | some l =>
    let xs := laneValues l bs
    let r := match l.reg with
      | some k => { r with v := r.v.setIfInBounds k (putLanes ((r.v[k]?).getD 0) xs) }
      | none => r
    dirtyGrp (if age ≤ 16 then { r with vq := r.vq.modify (age - 1) fun v => putLanes v xs } else r) 1
  | none =>
    let x := BitVec.ofNat 64 (natOfBytes bs)
    let r := match p.dst with
      | some k => { r with g := r.g.setIfInBounds k x }
      | none => r
    dirtyGrp (if age ≤ 16 then { r with gq := r.gq.set (age - 1) x } else r) 0

/-- The registers that a later load's fault would put back, once the reply to a request has come. -/
def Undo.loaded (u : Undo) (p : Pend) (bs : List Byte) : Undo :=
  match assoc u.ages p.num with
  | some age => { regs := u.regs.loaded p age bs, ages := assocErase u.ages p.num }
  | none => u

/-- A load reply reaches its thread (R35); an AMO's is its acknowledgement too (R292). -/
def Ctx.loadDone (c : Ctx) (req : Nat) (bs : List Byte) : Ctx :=
  match c.pend.find? fun p => p.num == req with
  | none => c
  | some p => { c with
      regs := c.regs.loaded p p.age bs
      unacked := if p.amo.isSome then c.unacked - 1 else c.unacked
      pend := (c.pend.filter fun q => q.num != req).map fun q => { q with undo := q.undo.map fun u => u.loaded p bs } }

/-- The bits of TSW that others than the thread's own instructions change: whom it leads and follows (R28-R31), and ACCV, which
a form sets when it completes (R209). -/
def tswLed : Word := BitVec.ofNat 64 (3 * 2 ^ 4 + 2 ^ 7 + 0x3F * 2 ^ 8 + 0xFF * 2 ^ 16)

/-- The registers are put back as they stood before a load (R11, R291); what engines have written stays dirty (R105). -/
def Undo.back (u : Undo) (r : Regs) : Regs :=
  { u.regs with
    tsw := (u.regs.tsw &&& ~~~tswLed) ||| (r.tsw &&& tswLed)
    grpdirty := u.regs.grpdirty ||| r.grpdirty
    tdirty := u.regs.tdirty ||| r.tdirty }

/-- A load or an AMO fails at its home (R210, R213): the thread traps at it, with everything as it stood before it. Where a
later instruction has had an effect outside the registers, what the thread has executed since stands, and the load is sent
again when the fault has been serviced (log entry 6). -/
def Ctx.loadFailed (c : Ctx) (req : Nat) (code : TrapCode) (away : Word) : Ctx :=
  match c.pend.find? fun p => p.num == req with
  | none => c
  | some p =>
    let t : TrapReport := { failedRead code (p.off + away) with
      pc := p.pc, epc := p.pc, seg := p.seg, kind := if p.amo.isSome then .atomic else .load }
    let c := { c.awake with unacked := if p.amo.isSome then c.unacked - 1 else c.unacked }
    match p.undo with
    | some u => { c with
        regs := u.back c.regs
        pend := c.pend.filterMap fun q => (assoc u.ages q.num).map fun a => { q with age := a }
        frame := none
        board := []
        trap := some t }
    | none => { c with
        pend := c.pend.map fun q => if q.num = req then { q with failed := true } else q
        trap := some (c.trap.getD t) }

/-- A load of a thread fails: where it is the thread's first trap, its core takes it (R213 step 1). -/
def loadFault (s : State) (core tid req : Nat) (t : TrapReport) : State :=
  let trapped := fun (s : State) => (s.getCore core).ctx.tid = tid && (s.getCore core).ctx.trap.isSome
  let u := s.modThread tid fun c => c.loadFailed req t.code t.addr
  if trapped u && !trapped s then u.modCore core fun k => k.detach.count 14 1 else u

/-- Whether a core's thread awaits a reply: on the core, on its run list, or held for it by the Stove (R35). -/
def awaitsAt (s : State) (core tid req : Nat) : Bool :=
  match s.thread tid with
  | some (at_, c) => (at_ == core || (s.getCore core).lost) && c.status != .inTransit && c.pend.any fun p => p.num == req
  | none => false

/-- The forwarding entry of a core that counts a reply (R35). -/
def forwardOf (k : Core) (tid req : Nat) : Option Forward := k.forwards.find? fun f => f.tid == tid && f.left.contains req

/-- A data reply reaches core `at_`: it is sent on along the forwarding entry that counts it, or written there (R35). -/
def dataArrives (s : State) (at_ tid : Nat) (bs : List Byte) (d : LoadDest) (req : Nat) (err : Option TrapReport) : State :=
  match forwardOf (s.getCore at_) tid req with
  | some f =>
    let s := s.modCore at_ fun k => { k with forwards :=
      (k.forwards.map fun x => if x == f then { x with left := x.left.filter fun n => n != req } else x).filter fun x => !x.left.isEmpty }
    s.send (.main at_) tid .ordered (at_ / 256) (f.core / 256) f.core none (.data bs d req err)
  | none =>
    if !awaitsAt s at_ tid req then s
    else settleStops (match err with
      | none => s.modThread tid fun c => c.loadDone req bs
      | some t => loadFault s at_ tid req t) at_

/-- Whether a data reply may be taken: while its context travels, it waits for the forwarding entry. -/
def dataReady (s : State) (at_ tid req : Nat) : Bool :=
  let k := s.getCore at_
  (forwardOf k tid req).isSome || awaitsAt s at_ tid req || !(k.ctx.tid == tid && k.ctx.status == .inTransit)

/-- The answer of a decide-once request, or a launch, reaches its instruction. -/
def answered (s : State) (tid num : Nat) (a : OnceAnswer) : State :=
  s.modThread tid fun c => match c.asked with
    | some (n, none) => if n = num then { c with asked := some (n, some a) } else c
    | _ => c

/-- A thread's unacknowledged-store count falls (R292); a refused store waits for its delivery (R488). -/
def acknowledged (s : State) (tid n : Nat) (refused : Option Word) : State :=
  settleMarkers (s.modThread tid fun c => { c with unacked := c.unacked - n, busy := c.busy ++ refused.toList }) tid

/-- Whether a thread's instruction waits for the reply to a request. -/
def asksFor (s : State) (tid num : Nat) : Bool :=
  match s.thread tid with
  | some (_, c) => c.asked == some (num, none)
  | none => false

/-- The status of a host slot when its reply returns (R393). -/
def slotDone (s : State) (cube slot : Nat) (code : BitVec 16) : State :=
  s.modCube cube fun q => { q with slotstat := assocSet q.slotstat slot (BitVec.ofNat 18 (code.toNat + 2 ^ 17)) }

/-- A task packet's answer reaches its sender: the place of a launch, or the code of a refusal. -/
def packetAnswered (s : State) (f : Flight) (r : Nat ⊕ BitVec 16) : State :=
  match f.src with
  | .host cube k => slotDone s cube k (match r with
    | .inl _ => 0
    | .inr c => c)
  | _ =>
    if asksFor s f.tid f.ord then
      answered s f.tid f.ord (match r with
        | .inl place => ⟨0, place, none⟩
        | .inr c => ⟨0, 0, some (if c = codeGraphFull then .graphQueueFull else .queueInvalid)⟩)
    else if f.src.core.isSome then acknowledged s f.tid 1 none else s

/-! ### Requests that fail (R383, R391) -/

/-- A thread's store that has retired fails: its gang rolls back (R228). -/
def storeFailed (s : State) (f : Flight) : State :=
  let t := s.modCube s.myCube fun q => { q with rollbacks := q.rollbacks ++ [f.tid] }
  acknowledged t f.tid 1 none

/-- A request of a copy engine fails: the command faults at its position (R309), which for a source read is that of its first
byte. -/
def copyRefused (s : State) (core id p : Nat) (k : AccessKind) (code : TrapCode) : State :=
  match copyEntry (s.getCore core) id with
  | none => s
  | some (x, c) =>
    let (o, g) := if k = .copySrc then (c.src, c.srcSeg) else (c.dst, c.dstSeg)
    copyFault s core x p (x.report code (o + BitVec.ofNat 64 p) k g)

/-- A partial of a round is lost with the router that it was sent to or that held it: the round ends mismatched (R391, log entry
71). -/
def roundLost (s : State) (n id : Nat) : State :=
  match (s.group 0 n).bind fun g => g.rounds.find? fun r => r.id == id with
  | some r => endMismatched s n r
  | none => s

/-- A request fails with a code: what its instruction or its engine then meets (R228, R309, R383). -/
def failRequest (s : State) (f : Flight) (code : TrapCode) : State :=
  let s := s.landRequest f
  let copyBad := fun (id p : Nat) (k : AccessKind) => match f.src.core with
    | none => s
    | some core => copyRefused s core id p k code
  match f.body with
  | .read _ _ d | .amo _ _ d => settleMarkers (dataArrives s f.src.place.2 f.tid [] d f.ord (some (failedRead code 0))) f.tid
  | .data _ _ req _ => settleMarkers (loadFault s f.home f.tid req (failedRead code 0)) f.tid
  | .once _ _ _ _ | .barrierRead _ => answered s f.tid f.ord ⟨0, 0, some code⟩
  | .copyRead _ _ id p => copyBad id p .copySrc
  | .ownRequest _ id p => copyBad id p .copyDst
  | .multicast d _ id p => match f.src.core with
    | none => s
    | some core =>
      if f.members.isEmpty then copyWritten s core id p d (some code)
      else f.members.foldl (fun t m => copyWritten t core id p (spadAddr m d) (some code)) s
  | .packet _ _ _ => match f.src with
    | .host cube k => slotDone s cube k 0x23
    | _ => if asksFor s f.tid f.ord then answered s f.tid f.ord ⟨0, 0, some code⟩
        else if f.src.core.isSome then storeFailed s f else s
  | .context _ _ => match f.src with
    | .main core => s.modCore core fun k =>
        let pc := k.ctx.regs.pc
        { k with ctx := { k.ctx with
          status := .resident
          trap := some { failedRead code pc with pc := pc, epc := pc } } }.takeHeld
    | _ => s
  | .write _ _ _ _ | .atomic _ _ _ _ | .deposit _ _ | .contribution _ _ => storeFailed s f
  | .partialSum n id _ => roundLost s n id
  | .message _ _ | .unknown _ => if f.src.core.isSome then storeFailed s f else s
  | _ => s

/-! ### Links (R376, R377, R387) -/

/-- Coordinates of a cube on the torus. -/
def coords (c : Nat) : Nat × Nat × Nat := (c % 10, c / 10 % 8, c / 80)

/-- The cube at coordinates. -/
def cubeAt (x y z : Nat) : Nat := x + 10 * (y + 8 * z)

/-- The neighbour in direction 0 +X, 1 -X, 2 +Y, 3 -Y, 4 +Z, 5 -Z (R375). -/
def neighbourCube (c dir : Nat) : Nat :=
  let (x, y, z) := coords c
  match dir with
  | 0 => cubeAt ((x + 1) % 10) y z
  | 1 => cubeAt ((x + 9) % 10) y z
  | 2 => cubeAt x ((y + 1) % 8) z
  | 3 => cubeAt x ((y + 7) % 8) z
  | 4 => cubeAt x y ((z + 1) % 8)
  | _ => cubeAt x y ((z + 7) % 8)

/-- The direction back. -/
def opposite (dir : Nat) : Nat := if dir % 2 = 0 then dir + 1 else dir - 1

/-- Changes both ends of a link. -/
def modLink (s : State) (c dir : Nat) (f : Link → Link) : State :=
  let g := fun (q : Cube) (d : Nat) => { q with links := match q.links[d]? with
    | some l => q.links.setIfInBounds d (f l)
    | none => q.links }
  (s.modCube c fun q => g q dir).modCube (neighbourCube c dir) fun q => g q (opposite dir)

/-- The two ends of a link, as detours name them. -/
def linkEnds (c dir : Nat) : List (Nat × Nat) := [(c, dir), (neighbourCube c dir, opposite dir)]

/-! ### Packets that the receiver does not support (R379, R387, R388) -/

/-- KIND of a packet (R379). A read of a barrier's state travels as a read, a cube's contribution to a barrier as a reduction
contribution, its release as a multicast: DESIGN CHOICE, log entry 96. -/
def Body.kind : Body → Nat
  | .read _ _ _ | .copyRead _ _ _ _ | .barrierRead _ => 0x01
  | .write _ _ _ _ => 0x02
  | .atomic _ _ _ _ | .amo _ _ _ => 0x03
  | .once _ _ _ _ => 0x04
  | .ownRequest _ _ _ => 0x05
  | .ownRelease _ _ => 0x06
  | .packet _ _ _ => 0x07
  | .message _ _ => 0x08
  | .deposit _ _ => 0x09
  | .context _ _ => 0x0A
  | .contribution _ _ | .partialSum _ _ _ | .barrier _ _ => 0x0B
  | .multicast _ _ _ _ | .release _ _ => 0x0C
  | .data _ _ _ _ | .onceData _ _ | .copyData _ _ _ _ => 0x10
  | .ack _ _ | .grant _ _ _ | .copied _ _ _ _ => 0x11
  | .nack _ => 0x12
  | .admission _ => 0x13
  | .unknown k => k.toNat

/-- Whether a table of R379 gives a KIND. -/
def knownKind (k : Nat) : Bool := (1 ≤ k && k ≤ 0x0C) || (0x10 ≤ k && k ≤ 0x13)

/-- The bits of a packet of a KIND that a list of entries names (R387); byte 0 is the envelope's first (log entry 86). -/
def ignoredIn (l : List IgnoreEntry) (kind : Nat) : Nat :=
  l.foldl (fun m e => if e.kind = kind then m ||| (e.mask * 2 ^ (8 * e.off)) else m) 0

/-- The bits of a task packet's body that a list names. -/
def ignoredBits (l : List IgnoreEntry) : BitVec 1024 := BitVec.ofNat 1024 (ignoredIn l 7 / 2 ^ 320)

/-- The reserved bits of the envelope (R378). -/
def envelopeReserved : BitVec 320 :=
  BitVec.ofNat 320 (0xFFF * 2 ^ 20 + 0xFFFF * 2 ^ 48 + 3 * 2 ^ 126 + 0x1FFFF * 2 ^ 175 + 0x1FFFF * 2 ^ 239 + 0xF * 2 ^ 284)

/-- The cube that sent a packet: for a reply that of the home that performed the request. -/
def senderCube (s : State) (f : Flight) : Nat :=
  if f.cls = .reply then ((s.kept.find? fun k => k.reply.num == f.num).map fun k => k.request.cube).getD f.src.place.1
  else f.src.place.1

/-- What the partner that sent a packet has declared ignore-on-receive (R388): the host, or the neighbour whose packet it
is. -/
def partnerIgnore (s : State) (f : Flight) : List IgnoreEntry :=
  match f.src with
  | .host cube _ => if cube = f.cube then (s.cube cube).hostIgnore else []
  | _ => ((List.range 6).filter fun d => neighbourCube f.cube d == senderCube s f).flatMap fun d =>
      (((s.cube f.cube).links[d]?).map Link.ignore).getD []

/-- Whether the receiver supports a packet (R379): its KIND is known, its VER is the negotiated one, which is 1 on every
link (R387), and it sets no reserved bit but those that the partner's list names. -/
def supported (s : State) (f : Flight) : Bool :=
  knownKind f.body.kind && f.ver = 1 &&
  (f.rsv = 0 || (f.rsv &&& envelopeReserved &&& ~~~(BitVec.ofNat 320 (ignoredIn (partnerIgnore s f) f.body.kind))) = 0)

/-! ### The form of a network event -/

/-- Whether a packet to one place has reached it. -/
def Flight.arrived (f : Flight) : Bool := f.members.isEmpty && f.at_ == f.cube

/-- Whether an earlier ORDERED request of a flight's pair is still to be performed (R266). -/
def behindPair (s : State) (f : Flight) : Bool :=
  f.cls == .ordered && s.flights.any fun x =>
    x.ord < f.ord && x.cls == .ordered && x.src.same f.src && x.dests.contains f.home && (s.keptOf x).isNone

/-- A store or an atomic of a thread. -/
def Body.changes : Body → Bool
  | .write _ _ _ _ | .atomic _ _ _ _ | .amo _ _ _ => true
  | _ => false

/-- Whether a store or an atomic stands behind a load of its thread that was in flight to the same home when the thread
migrated: the load does not return what it writes (R268). -/
def behindLoad (s : State) (f : Flight) : Bool :=
  f.body.changes && s.flights.any fun x =>
    x.loadBefore f.tid f.src && x.ord < f.ord && x.home == f.home && (s.keptOf x).isNone

/-- Whether its home may look at a request now: it has been sent and has arrived, it was not refused, the receiver supports
it and is in service, it was resolved under the receiver's map, and nothing earlier that it stands behind is missing (R266,
R267, R268, R379, R382, R390). -/
def readyFlight (s : State) (f : Flight) : Bool :=
  f.arrived && f.sends != 0 && !f.waiting && supported s f && !(s.cube f.cube).removed && !(s.cube f.cube).unreachable &&
  !(s.cube f.cube).tripped && underMap s f && !behindPair s f && !behindLoad s f

/-- An event that performs a request of some kinds, once it is ready: a duplicate is answered with the kept reply (R382),
and where the memory does not answer the request fails (R245). -/
def requestEvent (num : Nat) (kind : Body → Bool) (f : Flight → State → State) (s : State) :
    Host.Outcome State Fault Refusal :=
  match s.request num with
  | some x =>
    if !(kind x.body && readyFlight s x) then .next s
    else match s.keptOf x with
      | some k => .next (s.again x k)
      | none =>
        let b := focusSource s x
        .next (if answersAt s x.body then f x b else failRequest b x .peerLost)
  | none => .next s

/-- A reply that has reached its source, whose cube is not tripped (R456). -/
def State.replyOf (s : State) (num : Nat) : Option Flight :=
  s.flights.find? fun f => f.num == num && f.cls == .reply && f.arrived && supported s f && !(s.cube f.cube).tripped

/-- An event that consumes a reply of some kinds; one that the source awaits no more is dropped (R382). -/
def replyEvent (num : Nat) (kind : Body → Bool) (f : Flight → State → State) (s : State) :
    Host.Outcome State Fault Refusal :=
  match s.replyOf num with
  | some x =>
    if !kind x.body then .next s
    else if s.awaits num then .next (f x ((focusSource s x).consume num)) else .next (s.dropReply num)
  | none => .next s

/-- The receiving endpoint discards a packet that it does not support and counts it (R379); it answers a request with a NACK
of UNSUPPORTED, and gives no answer to a reply. -/
def discardPacket (s : State) (num : Nat) : State :=
  match s.flights.find? fun f => f.num == num && f.arrived && f.sends != 0 && !f.waiting && !supported s f &&
      !(s.cube f.cube).tripped with
  | none => s
  | some f =>
    let t := s.errCount f.cube 4
    if f.cls = .reply then t.dropReply num else refuse_ t f (some codeUnsupported)

/-! ### Training, replays and links that are down (R376, R377, R387) -/

/-- Routes use a link. -/
def openLink (s : State) (cube link : Nat) : State :=
  { s with detours := s.detours.filter fun d => !(linkEnds cube link).contains (d.cube, d.dir) }

/-- Requests sent from now on avoid a link (R380). -/
def closeLink (s : State) (cube link : Nat) : State :=
  let rest := (openLink s cube link).detours
  { s with
    detours := rest ++ (linkEnds cube link).map fun e => ⟨e.1, e.2, s.numCtr + 1⟩
    numCtr := s.numCtr + 1 }

/-- Stove core 4 of a cube reports a link that is down to Stove core 3, which logs it (R376, R457). -/
def reportLink (s : State) (cube link : Nat) : State :=
  logError (s.noticeOf cube 3 noticeLink link) cube 0x72 sevDegraded link

/-- A link goes down (R376, R380): requests sent from now on avoid it, and both ends report it. -/
def linkDown (s : State) (cube link : Nat) : State :=
  let t := closeLink (modLink s cube link fun l => { l with up := false, lanes := 0 }) cube link
  (linkEnds cube link).foldl (fun t e => reportLink t e.1 e.2) t

/-- The lanes on which a link runs when `n` of them train (R376). -/
def trainedLanes (n : Nat) : Nat := if 16 ≤ n then 16 else if 8 ≤ n then 8 else 0

/-- Whether Stove core 4 trains a link at both of its ends: both cubes have reached step 6 of R450 (R451). -/
def trains (s : State) (cube link : Nat) : Bool := (linkEnds cube link).all fun e => (s.cube e.1).stove.linking

/-- LINK_TRAINING (R376, R387, R388), once both ends train it: both ends take the lower of the versions, and this end keeps the partner's list of at
most 16 ignore-on-receive entries; a link that cannot train on 8 lanes is down. -/
def execLinkTraining (cube link lanes partner : Nat) (ignore : List IgnoreEntry) := cubeEvent cube fun s =>
  let n := trainedLanes lanes
  if 6 ≤ link || partner = 0 || !trains s cube link then s
  else if n = 0 then linkDown s cube link
  else
    let t := modLink s cube link fun l => { l with up := true, lanes := n, ver := min 1 partner, ignore := [] }
    openLink (t.modCube cube fun q => { q with links := match q.links[link]? with
      | some l => q.links.setIfInBounds link { l with ignore := ignore.take 16 }
      | none => q.links }) cube link

/-- FLIT_REPLAY (R376, R377): counted, nothing else changes. -/
def execFlitReplay (cube link : Nat) := cubeEvent cube fun s =>
  if 6 ≤ link then s
  else
    let t := s.modCube cube fun q => { q with links := match q.links[link]? with
      | some l => q.links.setIfInBounds link { l with replay := if l.replay = BitVec.allOnes 32 then l.replay else l.replay + 1 }
      | none => q.links }
    t.errCount cube 7

/-- LINK_DOWN (R376, R380). -/
def execLinkDown (cube link : Nat) := cubeEvent cube fun s =>
  match (s.cube cube).links[link]? with
  | none => s
  | some l => if l.up then linkDown s cube link else s

/-! ### Routes (R380, R381) -/

/-- Size of a ring, and the coordinates of two cubes on it. -/
def ringOf (dim a b : Nat) : Nat × Nat × Nat :=
  let (xa, ya, za) := coords a
  let (xb, yb, zb) := coords b
  match dim with
  | 0 => (10, xa, xb)
  | 1 => (8, ya, yb)
  | _ => (8, za, zb)

/-- The direction along one dimension: the shorter way round, + where they are equal (R380). -/
def ringDir (dim a b : Nat) : Option Nat :=
  let (n, p, q) := ringOf dim a b
  let fwd := (q + n - p) % n
  if fwd = 0 then none else some (if 2 * fwd ≤ n then 2 * dim else 2 * dim + 1)

/-- The next direction of the dimension-order route. -/
def dimensionDir (a b : Nat) : Option Nat := [0, 1, 2].findSome? fun dim => ringDir dim a b

/-- Whether the requests issued from number `ord` on avoid a link (R380). -/
def avoids (s : State) (ord c dir : Nat) : Bool := s.detours.any fun d => d.cube == c && d.dir == dir && d.since ≤ ord

/-- Whether the dimension-order route between two cubes, of at most `n` hops, has no link to avoid. -/
def routeClear (s : State) (ord b : Nat) : Nat → Nat → Bool
  | 0, _ => true
  | n + 1, a => match dimensionDir a b with
    | none => true
    | some d => !avoids s ord a d && routeClear s ord b n (neighbourCube a d)

/-- The cubes from which a cube is reached in at most `n` hops over links that are not avoided. -/
def reachedIn (s : State) (ord b : Nat) : Nat → List Nat
  | 0 => [b]
  | n + 1 =>
    let l := reachedIn s ord b n
    (List.range 640).filter fun c => l.contains c ||
      (List.range 6).any fun d => !avoids s ord c d && l.contains (neighbourCube c d)

/-- The detour of a pair whose route has a link to avoid: the lowest-numbered direction of a shortest way over the other
links (R380, log entry 15). -/
def detourDir (s : State) (ord a b : Nat) : Option Nat :=
  match (List.range 640).find? fun n => (reachedIn s ord b n).contains a with
  | none | some 0 => none
  | some (n + 1) => (List.range 6).find? fun d => !avoids s ord a d && (reachedIn s ord b n).contains (neighbourCube a d)

/-- The next direction of the fixed route that an ORDERED packet takes: the dimension-order route, or the detour where a
link of it is down (R380). -/
def orderedDir (s : State) (ord a b : Nat) : Option Nat :=
  if routeClear s ord b 24 a then dimensionDir a b else detourDir s ord a b

/-- Whether a direction shortens the remaining distance (R381). -/
def shortens (a b dir : Nat) : Bool :=
  let (n, p, q) := ringOf (dir / 2) a b
  let fwd := (q + n - p) % n
  if dir % 2 = 0 then 0 < fwd && 2 * fwd ≤ n else 0 < fwd && n ≤ 2 * fwd

/-- Whether a packet may take a link: it is up, or the packet was on its way before it went down, and link replay delivers
it (R380, R396). -/
def linkCarries (s : State) (f : Flight) (dir : Nat) : Bool :=
  !avoids s f.route f.at_ dir &&
  (((s.cube f.at_).links[dir]?).any Link.up || s.detours.any fun d => d.cube == f.at_ && d.dir == dir)

/-- Whether a packet may hop in a direction: ADAPTIVE packets and replies take any that shortens the way, or the fixed
route; the others the fixed route (R380, R381). A multicast takes the direction of some member (R384). The router of a tripped
cube is held (R456). -/
def mayHop (s : State) (f : Flight) (dir : Nat) : Bool :=
  let next := fun (c : Nat) => orderedDir s f.route f.at_ c = some dir
  !f.waiting && f.sends != 0 && !(s.cube f.at_).tripped && linkCarries s f dir &&
  (if f.members.isEmpty then
    f.at_ != f.cube && (next f.cube || ((f.cls = .adaptive || f.cls = .reply) && shortens f.at_ f.cube dir))
  else f.members.any fun m => next (m / 256))

/-- A packet's hop. A multicast is copied where the routes to its members part; at a cube of members each takes its copy
(R384). -/
def hop (s : State) (i dir : Nat) (f : Flight) : State :=
  let n := neighbourCube f.at_ dir
  if f.members.isEmpty then { s with flights := s.flights.modify i fun x => { x with at_ := n } }
  else
    let go := f.members.filter fun m => orderedDir s f.route f.at_ (m / 256) = some dir
    let stay := f.members.filter fun m => !go.contains m
    ({ s with flights := s.flights.eraseIdx i }).putFlights
      (({ f with members := stay }).spread f.at_ ++ ({ f with members := go }).spread n)

/-- PACKET_HOP (R380, R381, R384): a packet moves one hop over a link. -/
def execPacketHop (num dir : Nat) (s : State) : Host.Outcome State Fault Refusal :=
  match s.flights.findIdx? fun f => f.num == num && mayHop s f dir with
  | none => .next s
  | some i => match s.flights[i]? with
    | none => .next s
    | some f => .next (hop s i dir f)

/-! ### Poison (R235) -/

/-- An uncorrectable error at an address poisons its atom; it is counted and logged. -/
def poisonAtom (s : State) (a : Nat) : State :=
  let atom := a / 32 * 32
  let cube := a / 2 ^ 47
  if s.poison.contains atom then s
  else logError (({ s with poison := insertNat s.poison atom }.errCount cube 3).notice cube 3 noticePoison) cube 0x24 sevLost
    (logicalAddr s atom)

/-! ### Reads and their replies (R262, R282, R293, R35) -/

/-- The number of bytes that a load's request reads. -/
def readLen (w : Nat) (d : LoadDest) : Nat := if d.vec.isSome then d.size else scalarLen w d.size

/-- What a load's reply brings: the value of a scalar load, the bytes of a vector load's lanes. -/
def readReply (w : Nat) (d : LoadDest) (bs : List Byte) : List Byte :=
  if d.vec.isSome then bs else bytesOfNat 8 (loadValue w d.size d.signed (natOfBytes bs)).toNat

/-- READ (R262): a load, a copy source read, or a read of a network group's barrier state (R444) at its home. A copy has the
bytes before a poisoned atom (R309). -/
def execRead (num : Nat) (ecc : Bool) := requestEvent num
  (fun b => match b with
    | .read _ _ _ | .copyRead _ _ _ _ | .barrierRead _ => true
    | _ => false)
  fun f s => match f.body with
    | .read a w d =>
      let n := readLen w d
      if mustWait (s.cube f.cube) none a n then s
      else
        let s := if ecc then poisonAtom s a else s
        match s.poisoned a n with
        | some p =>
          s.performed f (.data [] d f.ord (some (failedRead .memUncorrectable (BitVec.ofNat 64 p - BitVec.ofNat 64 a))))
        | none => s.performed f (.data (readReply w d (s.load a n)) d f.ord none)
    | .copyRead a n id p =>
      if underRefresh (s.cube f.cube) a then s
      else
        let s := if ecc then poisonAtom s a else s
        match s.poisoned a n with
        | some q => s.performed f (.copyData (s.load a (q - a)) id p (some (BitVec.ofNat 64 q - BitVec.ofNat 64 a)))
        | none => s.performed f (.copyData (s.load a n) id p none)
    | .barrierRead n => s.performed f (.onceData f.ord ⟨0, ((s.group 0 n).map barrierHome).getD 0, none⟩)
    | _ => s

/-- A forwarded reply that has reached the core it was sent on to (R35). -/
def forwardedTo (s : State) (num : Nat) : Option Flight :=
  s.flights.find? fun f => f.num == num && f.cls != .reply && readyFlight s f && match f.body with
    | .data _ _ _ _ => true
    | _ => false

/-- REPLY_WITH_DATA (R35, R282, R315). -/
def execReplyWithData (num : Nat) (s : State) : Host.Outcome State Fault Refusal :=
  match forwardedTo s num with
  | some f => match f.body, s.keptOf f with
    | _, some k => .next (s.again f k)
    | .data bs d req err, none =>
      if !dataReady s f.home f.tid req then .next s
      else .next (settleMarkers (dataArrives ((s.performed f (.ack 0 none)).focus f.home) f.home f.tid bs d req err) f.tid)
    | _, none => .next s
  | none => match s.replyOf num with
    | none => .next s
    | some f =>
      if !s.awaits num then .next (s.dropReply num)
      else match f.body with
        | .data bs d req err =>
          let at_ := f.src.place.2
          if !dataReady s at_ f.tid req then .next s
          else .next (settleMarkers (dataArrives ((s.consume num).focus at_) at_ f.tid bs d req err) f.tid)
        | .copyData bs id p bad => match f.src.core with
          | some core => .next (copyArrive ((s.focus core).consume num) core id p bs bad)
          | none => .next s
        | .onceData req a => .next (settleMarkers (answered ((focusSource s f).consume num) f.tid req a) f.tid)
        | _ => .next s

/-! ### Writes, atomics, decide-once requests, ownership -/

/-- Performs a store or one lane of a VAMO at its home, or leaves it waiting (R281, R286). -/
def storeAtHome (f : Flight) (s : State) : State := (performStore s f).getD s

/-- WRITE (R233): a write at its home; `ecc` tells that the atom it merges into cannot be corrected. -/
def execWrite (num : Nat) (ecc : Bool) := requestEvent num
  (fun b => match b with
    | .write _ _ _ _ => true
    | _ => false)
  fun f s => match f.body with
    | .write a bs _ _ =>
      let whole := bs.length = 32 && bs.all Option.isSome
      storeAtHome f (if ecc && !whole then poisonAtom s a else s)
    | _ => s

/-- An AMO at its home (R279, R300): its reply brings the old value, or the refusal. -/
def amoAtHome (f : Flight) (s : State) (g : AmoArgs) (a : Nat) (d : LoadDest) : State :=
  let n := d.size
  let old := natOfBytes (s.load a n)
  let bad := fun (c : TrapCode) (away : Word) => s.performed f (.data [] d f.ord (some (failedRead c away)))
  match homeWrite s f.cube none a ((bytesOfNat n (atomicNew g.op (8 * n) old g.v g.c)).map some) 0 with
  | .done t => t.performed f (.data (bytesOfNat 8 old) d f.ord none)
  | .wait => s
  | .busy => bad .graphBusy 0
  | .poisoned => bad .memUncorrectable (BitVec.ofNat 64 ((s.poisoned a n).getD a) - BitVec.ofNat 64 a)

/-- ATOMIC (R279). -/
def execAtomic (num : Nat) := requestEvent num
  (fun b => match b with
    | .atomic _ _ _ _ | .amo _ _ _ => true
    | _ => false)
  fun f s => match f.body with
    | .amo g a d => amoAtHome f s g a d
    | _ => storeAtHome f s

/-- DECIDE_ONCE_REQUEST (R313). -/
def execDecideOnceRequest (num : Nat) := requestEvent num
  (fun b => match b with
    | .once _ _ _ _ => true
    | _ => false)
  fun f s => match f.body with
    | .once fn a g p => match performOnce s f.cube fn a g p with
      | some (t, r) => t.performed f (.onceData f.ord r)
      | none => s
    | _ => s

/-- OWNERSHIP_REQUEST (R281): granted unless another engine owns the atom; an engine that asks for an atom again, for another
part of the copy, holds it once more. -/
def execOwnershipRequest (num : Nat) := requestEvent num
  (fun b => match b with
    | .ownRequest _ _ _ => true
    | _ => false)
  fun f s => match f.body, f.src.core with
    | .ownRequest atom id p, some core =>
      if mustWait (s.cube f.cube) (some core) atom 32 then s
      else
        let t := s.modCube f.cube fun q => { q with owned := q.owned ++ [(atom, core, id)] }
        t.performed f (.grant atom id p)
    | _, _ => s

/-- An engine holds an atom once less (R281, R283). -/
def disownOnce (s : State) (cube atom core id : Nat) : State :=
  s.modCube cube fun q => { q with owned := q.owned.erase (atom, core, id) }

/-- OWNERSHIP_RELEASE (R283). -/
def execOwnershipRelease (num : Nat) := requestEvent num
  (fun b => match b with
    | .ownRelease _ _ => true
    | _ => false)
  fun f s => match f.body, f.src.core with
    | .ownRelease atom id, some core => (disownOnce s f.cube atom core id).performed f (.ack 0 none)
    | _, _ => s

/-- OWNERSHIP_GRANT (R281, R307), under the map by which the request has reached its home (R390). -/
def execOwnershipGrant (num : Nat) := replyEvent num
  (fun b => match b with
    | .grant _ _ _ => true
    | _ => false)
  fun f s => match f.body, f.src.core with
    | .grant atom id p, some core =>
      copyGrant s core id p atom ((s.kept.find? fun k => k.reply.num == f.num).bind fun k => k.request.ilv)
    | _, _ => s

/-- CORRECTED_ERROR (R234): counted for stacked DRAM, second tier or scratchpads. -/
def execCorrectedError (cube kind : Nat) := cubeEvent cube fun s => if kind < 3 then s.errCount cube kind else s

/-! ### Deposits and messages (R95, R222, R361) -/

/-- Whether a deposit that reaches a core now meets a local write of its register (R95). -/
def meetsWrite (s : State) (core : Nat) (d : Deposit) : Bool :=
  (s.getCore core).mbWrite == some (d.reg, (s.cube (core / 256)).clock)

/-- DEPOSIT (R95, R222). -/
def execDeposit (num : Nat) := requestEvent num
  (fun b => match b with
    | .deposit _ _ => true
    | _ => false)
  fun f s => match f.body with
    | .deposit core d =>
      let k := s.getCore core
      if k.ctx.live && !k.lost then
        (s.modCore core fun k => { k with ctx := k.ctx.deposit d (meetsWrite s core d) }).performed f (.ack 1 none)
      else if k.held.length < 4 then (s.modCore core fun k => { k with held := k.held ++ [d] }).performed f (.ack 1 none)
      else refuseRoom s f
    | _ => s

/-- Whether a core's message queue has room (R361). -/
def msgRoom (k : Core) (m : Msg) : Bool :=
  k.msgs.length < 32 && (k.msgs.map fun x => x.payload.length).sum + m.payload.length ≤ 16384

/-- MESSAGE (R361). -/
def execMessage (num : Nat) := requestEvent num
  (fun b => match b with
    | .message _ _ => true
    | _ => false)
  fun f s => match f.body with
    | .message core m =>
      if msgRoom (s.getCore core) m then
        (s.modCore core fun k => { k with msgs := k.msgs ++ [m] }).performed f (.ack 1 none)
      else refuseRoom s f
    | _ => s

/-- MULTICAST_DATA (R281, R307, R384): the data that a copy engine writes stands at a destination, and the engine's hold of
the atom ends; or the home refuses it (R235, R357). -/
def execMulticastData (num : Nat) := requestEvent num
  (fun b => match b with
    | .multicast _ _ _ _ => true
    | _ => false)
  fun f s => match f.body, f.src.core with
    | .multicast d bs id p, some core =>
      let end_ := fun (t : State) (r : Option TrapCode) =>
        (disownOnce t f.cube (d / 32 * 32) core id).performed f (.copied d id p r)
      match homeWrite s f.cube (some core) d (bs.map some) 0 with
      | .done t => end_ t none
      | .wait => s
      | .busy => end_ s (some .graphBusy)
      | .poisoned => end_ s (some .memUncorrectable)
    | _, _ => s

/-! ### Replies that carry no data -/

/-- ACKNOWLEDGEMENT (R292, R308, R488). -/
def execAcknowledgement (num : Nat) := replyEvent num
  (fun b => match b with
    | .ack _ _ | .copied _ _ _ _ => true
    | _ => false)
  fun f s => match f.body, f.src.core with
    | .ack n r, some _ => acknowledged s f.tid n r
    | .copied d id p r, some core => copyWritten s core id p d r
    | _, _ => s

/-- A request goes out from its source once more, at once (R383), which counts as a retry (R446): the NACK was an answer, so
that the sends without one start anew. -/
def sendAgain (s : State) (num : Nat) : State :=
  (s.errCount s.myCube 8).modFlight num fun x =>
    if x.cls == .reply then x
    else { x with
      waiting := false, at_ := x.src.place.1, sends := 1, route := s.numCtr
      body := match x.body with
        | .packet p k _ => .packet p k true
        | b => b }

/-- NACK (R383): one for lack of room, or of a packet damaged on its way, starts a retry at once; any other ends the
request: loads, stores and atomics meet PEER_LOST, a task packet's sender the code. -/
def execNack (num : Nat) (s : State) : Host.Outcome State Fault Refusal :=
  match s.replyOf num with
  | none => .next s
  | some f => match f.body with
    | .nack code =>
      let t := (focusSource s f).dropReply num
      match s.request num with
      | none => .next t
      | some x =>
        if !x.waiting then .next t
        else match code with
          | none => .next (sendAgain t num)
          | some c =>
            if c = codeCheckFailed then .next (sendAgain t num)
            else match x.body with
              | .packet _ _ _ => .next (packetAnswered (t.landRequest x) x (.inr c))
              | _ => .next (failRequest t x .peerLost)
    | _ => .next s

/-- ADMISSION_REPLY (R355, R367, R393). -/
def execAdmissionReply (num : Nat) := replyEvent num
  (fun b => match b with
    | .admission _ => true
    | _ => false)
  fun f s => match f.body with
    | .admission place => packetAnswered s f (.inl place)
    | _ => s

/-! ### Reductions (R371, R385, R386) -/

/-- Rescale-combine of two partials (R386). -/
def rescale (p q : Partial) : Partial :=
  let nan := fun (x : Nat) => f32.decode x = .nan
  let all := p.covers ++ q.covers
  if nan p.m || nan q.m then ⟨all, 0x7FC00000, 0x7FC00000, ofLanes fun _ => 0x7FC00000#32⟩
  else if p.m = 0xFF800000 then { q with covers := all }
  else if q.m = 0xFF800000 then { p with covers := all }
  else
    let m := f32.minmax true p.m q.m
    let a := exp2 (f32.sub p.m m)
    let b := exp2 (f32.sub q.m m)
    let mix := fun (x y : Nat) => f32.fma y b (f32.mul x a)
    ⟨all, m, mix p.s q.s, ofLanes fun k => BitVec.ofNat 32 (mix (lane p.o k).toNat (lane q.o k).toNat)⟩

/-- Folds two partials by the operation of R370. -/
def foldPartials (op : Nat) (p q : Partial) : Partial :=
  let lanes := fun (f : Nat → Nat → Nat) => ofLanes fun k => BitVec.ofNat 32 (f (lane p.o k).toNat (lane q.o k).toNat)
  let p' := { p with covers := p.covers ++ q.covers }
  match op with
  | 0 => { p' with o := lanes f32.add }
  | 1 => { p' with o := lanes (f32.minmax true) }
  | 2 => { p' with o := lanes (f32.minmax false) }
  | 3 => { p' with o := ofPairs fun k => pair p.o k + pair q.o k }
  | _ => rescale p q

/-- Folds partials from left to right, in the order in which they arrived (R132, R385). -/
def foldAll (op : Nat) : List Partial → Option Partial
  | [] => none
  | p :: l => some (l.foldl (foldPartials op) p)

/-- The partial of a contribution. -/
def Contribution.part (c : Contribution) : Partial := ⟨[c.tid], c.m.toNat, c.s.toNat, c.data⟩

/-- The payload of a result (R371). -/
def resultBytes (op : Nat) (p : Partial) : List Byte :=
  bytesOfNat 256 p.o.toNat ++ (if op = 4 then bytesOfNat 4 p.m ++ bytesOfNat 4 p.s else [])

/-- Whether the contributions of a round agree (R371). -/
def agree (l : List Contribution) : Bool :=
  l.all fun x => l.all fun y => x.op == y.op && x.all == y.all && x.rootCore == y.rootCore && x.rootCube == y.rootCube &&
    x.tag == y.tag

/-- The value of a round whose last partial stands at the root. A sum of one partial that is a NaN is the canonical NaN all the
same (R132). DESIGN CHOICE, log entry 71: in a round of one member a maximum, a minimum and a rescale-combine fold nothing, so
that a NaN of its lone partial keeps its payload, where R113 could ask for the canonical NaN. -/
def roundValue (op : Nat) (p : Partial) : Partial :=
  let canon := fun (x : BitVec 32) => if f32.decode x.toNat = .nan then 0x7FC00000#32 else x
  if op = 0 then { p with o := ofLanes fun k => canon (lane p.o k) } else p

/-- A round ends with its value: it goes to the root, or as one multicast to the members (R371, R384, R385); one whose
contributions differ ends mismatched. -/
def endRound (s : State) (n : Nat) (r : Round) (p : Partial) : State :=
  match r.parts with
  | [] => s
  | c :: _ =>
    if !agree r.parts then endMismatched s n r
    else
      let m : Msg := { tag := c.tag, score := c.rootCore, scube := c.rootCube, sys := true
                       payload := resultBytes c.op (roundValue c.op p) }
      let s := match s.group 0 n with
        | some g => s.setGroup 0 { g with rounds := g.rounds.filter fun x => x.id != r.id }
        | none => s
      let root := c.rootCube * 256 + c.rootCore
      if c.all then
        s.multicast (.dispatcher c.rootCube) 0 .ordered c.rootCube n (r.parts.map fun x => x.core) (.message root m)
      else sendMsg s (.dispatcher c.rootCube) 0 c.rootCube c.rootCube c.rootCore m

/-- The router to which a cube's router sends its partial of a round: the next on the dimension-order route to the root whose
cube is in service (R380, R385); none at the root. `n` bounds the hops. -/
def treeNext (s : State) (root : Nat) : Nat → Nat → Option Nat
  | 0, _ => none
  | n + 1, c => match dimensionDir c root with
    | none => none
    | some d =>
      let x := neighbourCube c d
      if x ≠ root && ((s.cube x).removed || (s.cube x).unreachable) then treeNext s root n x else some x

/-- The hops of the longest dimension-order route (R375, R380). -/
def treeDepth : Nat := 13

/-- The routers that a cube's contributions pass, from its own to the root's. -/
def treePath (s : State) (root : Nat) : Nat → Nat → List Nat
  | 0, c => [c]
  | n + 1, c => c :: match treeNext s root treeDepth c with
    | none => []
    | some x => treePath s root n x

/-- The cube from whose router a member's contribution sets out: that of the core from which it was made, or on which the member
has joined. -/
def memberCube (g : Group) (r : Round) (tid : Nat) : Option Nat :=
  match r.parts.find? fun c => c.tid == tid with
  | some c => some (c.core / 256)
  | none => (g.member tid).map fun m => m.core / 256

/-- The root of a round: that of its first contribution. -/
def Round.root (r : Round) : Nat := (r.parts.head?.map Contribution.rootCube).getD 0

/-- How many members of a round have their contribution folded at a cube's router first (R385). -/
def ownMembers (g : Group) (r : Round) (cube : Nat) : Nat := (r.members.filter fun t => memberCube g r t == some cube).length

/-- The partials for which a cube's router waits: one from each router that the membership says leads to members, and one of
its own cube's members where there are any (R385). -/
def routerInputs (s : State) (g : Group) (r : Round) (cube : Nat) : Nat :=
  let from_ := (r.members.filterMap (memberCube g r)).foldl insertNat []
  let nodes := (from_.flatMap (treePath s r.root treeDepth)).foldl insertNat []
  (nodes.filter fun u => treeNext s r.root treeDepth u == some cube).length + if from_.contains cube then 1 else 0

/-- What the router of a cube holds of a round. -/
def Round.at_ (r : Round) (cube : Nat) : RouterPartials := (r.routers.find? fun x => x.cube == cube).getD ⟨cube, [], []⟩

/-- Sets it; nothing is kept of a router that holds nothing. -/
def Round.put (r : Round) (x : RouterPartials) : Round :=
  { r with routers := (r.routers.filter fun y => y.cube != x.cube) ++ if x.own.isEmpty && x.ins.isEmpty then [] else [x] }

/-- Changes a round of a network group. -/
def setRound (s : State) (n : Nat) (r : Round) : State :=
  match s.group 0 n with
  | some g => s.setGroup 0 { g with rounds := g.rounds.map fun x => if x.id = r.id then r else x }
  | none => s

/-- The router of a cube holds a partial of each of its inputs: it folds them in order of arrival and sends one partial on, or
delivers the result at the root (R385). It waits while one is missing. -/
def routerFolds (s : State) (n : Nat) (g : Group) (r : Round) (cube : Nat) : State :=
  let x := r.at_ cube
  if x.ins.length < routerInputs s g r cube then setRound s n r
  else match foldAll ((r.parts.head?.map Contribution.op).getD 0) x.ins with
    | none => setRound s n r
    | some p =>
      let r := r.put ⟨cube, [], []⟩
      let t := setRound s n r
      match treeNext s r.root treeDepth cube with
      | none => endRound t n r p
      | some next => t.send (.dispatcher cube) 0 .reduce cube next (256 * next) none (.partialSum n r.id p)

/-- A partial of a round reaches a router from another one (R385). -/
def acceptPartial (s : State) (cube n id : Nat) (p : Partial) : State :=
  match s.group 0 n with
  | none => s
  | some g => match g.rounds.find? fun r => r.id == id with
    | none => s
    | some r =>
      let x := r.at_ cube
      routerFolds s n g (r.put { x with ins := x.ins ++ [p] }) cube

/-- A contribution is accepted by the router of its cube; the last one of the cube's members lets it fold them, first of all,
into the cube's own partial (R385). -/
def acceptOwn (s : State) (cube n : Nat) (c : Contribution) : State :=
  let mine := fun (x : Contribution) => x.tid == c.tid && !x.taken
  match s.group 0 n with
  | none => s
  | some g => match g.rounds.find? fun r => r.parts.any mine with
    | none => s
    | some r =>
      let r := { r with parts := r.parts.map fun x => if mine x then { x with taken := true } else x }
      let x := r.at_ cube
      let own := x.own ++ [c.part]
      if own.length < ownMembers g r cube then setRound s n (r.put { x with own := own })
      else
        let ins := x.ins ++ (foldAll ((r.parts.head?.map Contribution.op).getD 0) own).toList
        routerFolds s n g (r.put { x with own := [], ins := ins }) cube

/-- REDUCTION_CONTRIBUTION (R371, R385): the router of the member's cube accepts a contribution, which acknowledges it, or a
router accepts the partial of another; one that has a partial of each of its inputs folds them and forwards or delivers. -/
def execReductionContribution (num : Nat) := requestEvent num
  (fun b => match b with
    | .contribution _ _ | .partialSum _ _ _ => true
    | _ => false)
  fun f s => match f.body with
    | .contribution n c => acceptOwn (s.performed f (.ack 1 none)) f.cube n c
    | .partialSum n id p => acceptPartial (s.performed f (.ack 0 none)) f.cube n id p
    | _ => s

/-! ### Network barriers (R430, R432) -/

/-- BARRIER_CONTRIBUTION (R432). -/
def execBarrierContribution (num : Nat) := requestEvent num
  (fun b => match b with
    | .barrier _ _ => true
    | _ => false)
  fun f s => match f.body with
    | .barrier n p =>
      let t := s.performed f (.ack 0 none)
      match t.group 0 n with
      | some g => if g.phase = p then tryNetRelease (t.setGroup 0 { g with got := insertNat g.got f.src.place.1 }) n else t
      | none => t
    | _ => s

/-- BARRIER_RELEASE (R430): a barrier whose conditions hold releases. -/
def execBarrierRelease (cube group : Nat) := cubeEvent cube fun s => settle s cube group

/-- BARRIER_RELEASE_MULTICAST (R432): a cube applies a release. -/
def execBarrierReleaseMulticast (num : Nat) := requestEvent num
  (fun b => match b with
    | .release _ _ => true
    | _ => false)
  fun f s => match f.body with
    | .release n _ =>
      let t := s.performed f (.ack 0 none)
      match t.group 0 n with
      | some g => settle (t.setGroup 0 { g with lag := assocErase g.lag f.cube }) f.cube n
      | none => t
    | _ => s

/-! ### Lost cubes and retries (R382, R383, R391) -/

/-- The members of network groups on a cube leave them (R389, R391): rounds that await them end mismatched. -/
def expelCube (s : State) (cube : Nat) : State :=
  let mine := (s.cube 0).groups.flatMap fun g => if 4096 ≤ g.num then
      (g.members.filter fun m => m.core / 256 = cube).map fun m => (g.num, m.tid) else []
  mine.foldl (fun t x => expel t cube x.1 x.2) s

/-- A cube is lost (R391): it is unreachable, its map entries carry the marker, its members leave the network
groups, the rounds of which its router holds partials end mismatched (log entry 71), the loss is logged by the cube that met
it. -/
def loseCube (s : State) (by_ cube : Nat) : State :=
  if (s.cube cube).unreachable then s
  else
    let held := (s.cube 0).groups.flatMap fun g =>
      (g.rounds.filter fun r => r.routers.any fun x => x.cube == cube).map fun r => (g.num, r.id)
    let s := held.foldl (fun t x => roundLost t x.1 x.2) s
    let s := s.modCube cube fun q => { q with unreachable := true }
    let mark := fun (q : Cube) => { q with imap := { q.imap with
      entries := q.imap.entries.map fun e => if e.cube = cube then { e with lost := true } else e } }
    let s := { s with cubes := s.cubes.map fun p => (p.1, mark p.2) }
    logError (expelCube s cube) by_ 0x73 sevLost cube

/-- A request that has gone unanswered seven times fails, and its cube is unreachable (R383); that a removed cube does not
answer is no news (R389). -/
def giveUpOn (s : State) (f : Flight) : State :=
  let t := failRequest (focusSource s f) f .peerLost
  if (s.cube f.cube).removed then t else loseCube t f.src.place.1 f.cube

/-- A request as it sets out once more (R383), at an issue number that tells the links it avoids (R380): from its source, the
retry time doubled for the attempt after it. -/
def Flight.resent (f : Flight) (now : Nat) : Flight :=
  { f with sends := f.sends + 1, retry := 2 * f.retry, waiting := false, at_ := f.src.place.1, route := now }

/-- A task packet's request that waits in an ingress buffer for its admission, with its cube (R18). -/
def State.unadmitted (s : State) (p : Flight → Bool) : Option (Nat × Flight) :=
  s.cubes.findSome? fun q => (q.2.ingress.findSome? fun x => x.2.filter p).map fun f => (q.1, f)

/-- Changes the request of a packet that waits in a cube's ingress buffer. -/
def State.modIngress (s : State) (cube ord : Nat) (g : Flight → Option Flight) : State :=
  s.modCube cube fun q => { q with ingress := q.ingress.map fun x => match x.2 with
    | some f => if f.ord = ord then (x.1, g f) else x
    | none => x }

/-- RETRY_TIMEOUT (R18, R382, R383, R391), not while the cube of its source is tripped (R456): the request is sent again
beside what is still on its way, with the same sequence number; after seven sends its cube is unreachable. Where the home has performed it already, the copy is a duplicate. -/
def execRetryTimeout (num : Nat) (s : State) : Host.Outcome State Fault Refusal :=
  let held := fun (f : Flight) => (s.cube f.src.place.1).tripped || f.sends = 0
  match s.request num with
  | some f =>
    let from_ := f.src.place.1
    let answeredBefore := match s.keptOf f with
      | some k => k.taken
      | none => false
    if answeredBefore || held f then .next s
    else if 7 ≤ f.sends || (s.cube f.cube).removed then .next (giveUpOn s f)
    else
      let t := (focusSource s f).errCount from_ 8
      if f.waiting then .next (t.modFlight num fun x => if x.cls == .reply then x else x.resent s.numCtr)
      else
        let t := t.modFlight num fun x => if x.cls == .reply then x else { x with sends := x.sends + 1, retry := 2 * x.retry }
        .next (t.putFlights [f.resent s.numCtr])
  | none => match s.kept.find? fun k => k.reply.num == num && !k.taken with
    | some k =>
      let f := k.request
      if held f then .next s
      else if 7 ≤ f.sends then .next (giveUpOn s f)
      else
        let up := fun (x : Kept) => if x = k then { x with request := { f with sends := f.sends + 1, retry := 2 * f.retry } } else x
        .next (({ (s.errCount f.src.place.1 8) with kept := s.kept.map up }).putFlights [f.resent s.numCtr])
    | none => match s.unadmitted fun f => f.num == num with
      | some (cube, f) =>
        if held f then .next s
        else if 7 ≤ f.sends then .next (giveUpOn (s.modIngress cube f.ord fun _ => none) f)
        else
          let again := fun (x : Flight) => some { x with sends := x.sends + 1, retry := 2 * x.retry }
          .next (((s.errCount f.src.place.1 8).modIngress cube f.ord again).putFlights [f.resent s.numCtr])
      | none => .next s

/-- A packet of an unknown KIND sets out (R379). -/
def strayPacket (s : State) (src dst : Nat) (kind : BitVec 8) : State :=
  if 163840 ≤ src || 163840 ≤ dst then s
  else s.send (.dispatcher (src / 256)) 0 .adaptive (src / 256) (dst / 256) dst none (.unknown kind)

/-- A task packet is damaged on its way: its CHECK is wrong (R348 step 1, R378). -/
def damagePacket (s : State) (num : Nat) : State :=
  { s with flights := s.flights.map fun x => match x.body with
      | .packet p k _ => if x.num = num && x.cls != .reply then { x with body := .packet p k false } else x
      | _ => x }

/-- A packet on its way carries another VER or reserved bits of the envelope (R379, R388). -/
def defacePacket (s : State) (num : Nat) (ver : BitVec 8) (rsv : BitVec 320) : State :=
  { s with flights := s.flights.map fun x => if x.num = num then { x with ver := ver, rsv := rsv &&& envelopeReserved } else x }

/-! ### Maps (R239, R390, R487) -/

/-- Whether a map may be installed (R239, R399, R487). -/
def mapOk (m : InterleaveMap) : Bool :=
  12 ≤ m.s && m.s ≤ 30 && 1 ≤ m.entries.length && m.entries.length ≤ 640 && m.mgen != 0 &&
  m.entries.all fun e => e.cube < 640 && e.base < 2 ^ 47 && e.base % 2 ^ m.s = 0

/-- Whether a request may act on a place (R245, R300, R311): decide-once cells and atomics stand in no second tier. -/
def Body.mayTouch (b : Body) (p : Place) : Bool :=
  match b with
  | .once _ _ _ _ => p.region = .dram
  | .amo _ _ _ | .atomic _ _ _ _ => atomicRegion p.region
  | _ => true

/-- REQUEST_REMAP (R390): a request resolved under an older generation than the receiver's is resolved again and
forwarded in its class; one resolved under a newer generation waits, and one of the ORDERED class while an earlier one of its
pair is not forwarded (R266). -/
def execRequestRemap (num : Nat) (s : State) : Host.Outcome State Fault Refusal :=
  match s.request num with
  | none => .next s
  | some f => match f.ilv with
    | none => .next s
    | some (i, g) =>
      let m := (s.cube f.cube).imap
      if f.at_ ≠ f.cube || f.waiting || f.sends = 0 || (s.cube f.cube).tripped || m.mgen.toNat ≤ g.toNat then .next s
      else if let some k := s.keptOf f then .next (s.again f k)
      else if behindPair s f then .next s
      else
        let s := focusSource s f
        let i := match f.body.addr with
          | some a => i / 4096 * 4096 + a % 4096
          | none => i
        match mapResolve m i with
        | none => .next (failRequest s f .addressRange)
        | some (e, l) =>
          if e.lost then .next (failRequest s f .peerLost)
          else match f.body.addr with
            | none => .next (s.modFlight num fun x => { x with
                cube := e.cube, home := stoveHome e.cube, ilv := some (i, m.mgen) })
            | some _ => match classify s e.cube l (some i) false with
              | .error c => .next (failRequest s f c)
              | .ok p =>
                if !f.body.mayTouch p then .next (failRequest s f .pageProtect)
                else .next (s.modFlight num fun x => { x with
                  cube := e.cube, home := homeOf s p, ilv := some (i, m.mgen), body := x.body.withAddr p.addr })

/-- Whether a copy engine of a core has an atom open that it resolved under another map generation (R389). -/
def Core.copiesOld (k : Core) (g : BitVec 16) : Bool :=
  (k.ctx.cq ++ k.dq).any fun x => (x.copyCmd.map CopyCmd.atoms).any fun l => l.any fun a => a.ilv.any fun h => h.2 != g

/-- Whether a cube has an interleaved request unacknowledged that it resolved under another generation, or a copy engine of it
has one's atom to write or to release (R389). -/
def holdsOld (s : State) (cube : Nat) (g : BitVec 16) : Bool :=
  let old := fun (f : Flight) => f.src.place.1 == cube && f.ilv.any fun h => h.2 != g
  (s.flights.any fun f => f.cls != .reply && old f) || (s.kept.any fun k => !k.taken && old k.request) ||
  (((s.me, s.core) :: s.cores).any fun p => p.1 / 256 == cube && p.2.copiesOld g)

/-- Installs a map on a cube. -/
def setMap (s : State) (cube : Nat) (m : InterleaveMap) : State := s.modCube cube fun q => { q with imap := m }

/-- Whether a cube may install the map of a removal now (R389 step 4): the destination atoms are owned. -/
def installsNow (s : State) (m : InterleaveMap) : Bool :=
  match s.removal with
  | none => true
  | some r => r.owned && r.map == m

/-- A cube acknowledges its install (R389 step 4). -/
def acknowledgeInstall (s : State) (cube : Nat) : State :=
  { s with removal := s.removal.map fun r => { r with installed := insertNat r.installed cube } }

/-- MAP_INSTALL (R389): once the cube holds no request of an older generation, its copy becomes the map. -/
def execMapInstall (cube : Nat) (m : InterleaveMap) := cubeEvent cube fun s =>
  if mapOk m && installsNow s m && !holdsOld s cube m.mgen then acknowledgeInstall (setMap s cube m) cube else s

/-- REPLACE_INTERLEAVE_MAP (R487, R455). -/
def execReplaceInterleaveMap (cube : Nat) (m : InterleaveMap) := stoveCommand cube 2 0x0203 fun s =>
  if mapOk m then some (setMap s cube m) else none

/-! ### The removal of a cube (R389) -/

/-- The end of the memory of a cube in which an address lies: stacked DRAM, or the second tier (R237, R245). -/
def memoryEnd (q : Cube) (a : Nat) : Nat := if a < 2 ^ 38 then (64 - retired q) * 2 ^ 32 else 2 ^ 40 + tier2Size q

/-- The end of an entry's part of a cube: the next base on it, or the end of its memory. -/
def entryEnd (s : State) (m : InterleaveMap) (e : MapEntry) : Nat :=
  (m.entries.filter fun x => x.cube == e.cube && e.base < x.base).foldl (fun k x => min k x.base) (memoryEnd (s.cube e.cube) e.base)

/-- The entries that move, each with its substitute. -/
def movedEntries (old m : InterleaveMap) (cube : Nat) : List (MapEntry × MapEntry) :=
  (old.entries.zip m.entries).filter fun p => p.1.cube = cube

/-- The length of the part that an entry has on its cube. -/
def partLen (s : State) (old : InterleaveMap) (e : MapEntry) : Nat := entryEnd s old e - e.base

/-- Whether a map moves a removed cube's entries to others and leaves the rest, each substitute part lying in the same kind of
memory of a cube that is in service and holding the base of no other entry: the free space of R389 step 2 (log entry 89). -/
def removalMap (s : State) (old m : InterleaveMap) (cube : Nat) : Bool :=
  mapOk m && m.s == old.s && m.entries.length == old.entries.length && m.mgen == old.mgen + 1 &&
  ((old.entries.zip m.entries).all fun (p : MapEntry × MapEntry) =>
    if p.1.cube = cube then p.2.cube ≠ cube && !p.2.lost else p.1 == p.2) &&
  (movedEntries old m cube).all fun p =>
    let q := s.cube p.2.cube
    !q.removed && !q.unreachable && decide (p.1.base < 2 ^ 38) == decide (p.2.base < 2 ^ 38) &&
    p.2.base + partLen s old p.1 ≤ memoryEnd q p.2.base &&
    ((m.entries.filter fun x => x.cube = p.2.cube && p.2.base ≤ x.base && x.base < p.2.base + partLen s old p.1).length = 1)

/-- The parts that move: their storage address on the removed cube, on the substitute, and their length. -/
def movedParts (s : State) (r : Removal) : List (Nat × Nat × Nat) :=
  (movedEntries r.old r.map r.cube).map fun p =>
    (r.cube * 2 ^ 47 + p.1.base, p.2.cube * 2 ^ 47 + p.2.base, partLen s r.old p.1)

/-- Whether a cube has no admitted work left (R389 step 1): nor do copy engines of its cores have any of a dispatcher's. -/
def cubeIdle (s : State) (cube : Nat) : Bool :=
  let q := s.cube cube
  q.pifo.isEmpty && q.ingress.isEmpty && q.walked.isEmpty && q.gangs.isEmpty && q.graphs.isEmpty && q.runs.isEmpty &&
  q.done.isEmpty && ((s.me, s.core) :: s.cores).all fun p => p.1 / 256 != cube || p.2.dq.isEmpty

/-- REMOVE_CUBE (R389 steps 1 and 2): the removal begins, and the command is answered when it has ended. One whose map does
not fit, or that meets another removal, is refused. -/
def execRemoveCube (cube : Nat) (m : InterleaveMap) := cubeEvent cube fun s =>
  let old := (s.cube cube).imap
  if !(s.cube cube).stove.performs 4 then s
  else if s.removal.isSome || !removalMap s old m cube then answerCommand s cube 4 0x0401 0x62
  else { s with removal := some { cube := cube, old := old, map := m, owned := false, installed := [] } }

/-- The copy engines of the substitutes own the destination atoms (R389 step 3). -/
def ownMoved (s : State) (r : Removal) : State :=
  let t := (movedParts s r).foldl (fun t x => t.modCube (x.2.1 / 2 ^ 47) fun q => { q with moving := q.moving ++ [(x.2.1, x.2.2)] }) s
  { t with removal := some { r with owned := true } }

/-- Whether the copy of a part waits until the host's copies of destination atoms are recalled (R286, R394). -/
def moveHosted (s : State) (x : Nat × Nat × Nat) : Bool :=
  (s.cube (x.2.1 / 2 ^ 47)).hosted.any fun h => meets h 32 x.2.1 x.2.2

/-- One part is copied (R389 step 5): bytes and poison stand at the substitute, whose atoms are owned no more; no L1 holds an
older copy of them. -/
def copyMoved (s : State) (x : Nat × Nat × Nat) : State :=
  let (a, b, n) := x
  let here := fun (c : Nat) => a ≤ c && c < a + n
  let there := fun (c : Nat) => b ≤ c && c < b + n
  let bytes : List Host.Cell := s.mem.filter fun p => here p.1
  let rest : List Host.Cell := s.mem.filter fun p => !there p.1
  let t := { l1DropAll s b n with
    mem := bytes.foldl (fun l (p : Host.Cell) => memSet l (b + (p.1 - a)) p.2) rest
    poison := ((s.poison.filter here).map fun c => b + (c - a)).foldl insertNat (s.poison.filter fun c => !there c) }
  t.modCube (b / 2 ^ 47) fun q => { q with moving := q.moving.filter fun m => m != (b, n) }

/-- The cube leaves its network groups and its routes close (R389 step 6); the command is answered. -/
def endRemoval (s : State) (r : Removal) : State :=
  let t := expelCube (s.modCube r.cube fun q => { q with removed := true }) r.cube
  let closed := (List.range 6).flatMap fun d => (linkEnds r.cube d).map fun e => (⟨e.1, e.2, t.numCtr + 1⟩ : Detour)
  answerCommand { t with detours := t.detours ++ closed, numCtr := t.numCtr + 1, removal := none } r.cube 4 0x0401 0

/-- Whether the router of a cube holds a partial of a reduction round, or one is on its way to it (R385). -/
def foldsAt (s : State) (cube : Nat) : Bool :=
  ((s.cube 0).groups.any fun g => g.rounds.any fun r => r.routers.any fun x => x.cube == cube) ||
  s.flights.any fun f => f.cube == cube && f.cls != .reply && match f.body with
    | .partialSum _ _ _ => true
    | _ => false

/-- A removal goes on: it takes ownership once the cube's work has ended; once every cube has installed the map it copies a
part that is still to be copied, and ends when none is. -/
def removalStep (s : State) : State :=
  match s.removal with
  | none => s
  | some r =>
    if !r.owned then if cubeIdle s r.cube then ownMoved s r else s
    else if r.installed.length < 640 then s
    else match (movedParts s r).find? fun x => (s.cube (x.2.1 / 2 ^ 47)).moving.contains (x.2.1, x.2.2) with
      | some x => if moveHosted s x then s else copyMoved s x
      | none => if foldsAt s r.cube then s else endRemoval s r

/-- SET_RETRY_TIME (R383). -/
def execSetRetryTime (cube cycles : Nat) := stoveCommand cube 4 0x0401 fun s =>
  if 2 ^ 14 ≤ cycles && cycles ≤ 2 ^ 24 then some (s.modStove cube fun t => { t with retry := cycles }) else none

end Sys2Proof.Machine
end

