-- ==== Sys2Proof/Machine/EventsCore.lean ====
section
/-! DEFINITION. Events of the cores: what lets an instruction issue, switches, saves, traps and interrupts
(R26, R27, R213-R224, R488), migration's arrival (R34, R35), the engines' steps, checkpoints, lost cores and rollback
(R225-R229, R407, R448), the Stove's commands on threads (R37, R455). -/

namespace Sys2Proof.Machine

open Sys2Proof

/-! ### What lets an instruction issue (R28, R30, R36, R447) -/

/-- The main sequencer of a core is given the next turn. -/
def grantTurn (s : State) (core : Nat) : State := { s with agenda := .issue core .main false false :: s.agenda }

/-- Whether the next instruction of a sequencer is still to be fetched: it does not wait in one, and does not take it from a
captured body (R59) or, as an attached follower, from its leader's chain, which counts as the leader's request (R30). -/
def Ctx.fetches (c : Ctx) : Sequencer → Bool
  | .main =>
    c.status != .waiting && c.wait == .none && c.asked.isNone && !c.attached && !(tswRa c.regs.tsw && c.frame.isSome)
  | e =>
    let g := c.engine e
    g.running && g.wait == .none && !(g.ra && g.frame.isSome)

/-- The pc of a sequencer (R100). -/
def Ctx.pcOf (c : Ctx) : Sequencer → Word
  | .main => c.regs.pc
  | e => (c.engine e).pc

/-- The requests of a core for its hearth's fetch port (R30): the sequencers that may issue, each with its PC, and hold no
grant that they have not used. -/
def fetchRequests (s : State) (core : Nat) : List (Sequencer × Word) :=
  let c := (s.getCore core).ctx
  let may := fun (e : Sequencer) => if e = .main then mayRun s core && !gangHeld s c else enginesMay s core
  (([Sequencer.main, .matrix, .copy, .flue].filter fun e => c.fetches e && may e).map fun e => (e, c.pcOf e)).filter fun x =>
    !(s.cube (core / 256)).fetched.contains (core, x.2)

/-- The core of a hearth whose request the port grants next, with that request: the first after the one that had the last
grant, in round-robin order (R30), so that no core's request waits for more than 8 grants. -/
def nextGrant (s : State) (hearth : Nat) : Option (Nat × Word) :=
  let last := (assoc (s.cube (hearth / 32)).granted (hearth % 32)).getD (8 * hearth + 7)
  ((List.range 8).map fun i => 8 * hearth + (last + 1 + i) % 8).findSome? fun c =>
    (fetchRequests s c).head?.map fun x => (c, x.2)

/-- The requests that a grant serves: those of the hearth for an equal PC merge with it (R30). -/
def mergedGrant (s : State) (core : Nat) (pc : Word) : List (Nat × Sequencer) :=
  ((List.range 8).map fun i => core / 8 * 8 + (core + i) % 8).flatMap fun c =>
    ((fetchRequests s c).filter fun x => x.2 == pc).map fun x => (c, x.1)

/-- A hearth's port grants a request (R30): each of the cores that it serves is counted (R445) and holds the grant until its
sequencer has executed that instruction. -/
def grantFetch (s : State) (core : Nat) (pc : Word) : State :=
  let cores := ((mergedGrant s core pc).map Prod.fst).foldl insertNat []
  let t := cores.foldl (fun t c => t.modCore c fun k => k.count 13 1) s
  t.modCube (core / 256) fun q => { q with
    granted := assocSet q.granted (core / 8 % 32) core
    fetched := q.fetched ++ cores.map fun c => (c, pc) }

/-- FETCH_GRANT (R30): the next requester of the hearth is granted, with those that ask for the same instruction, and each of
their sequencers has its turn. -/
def execFetchGrant (core : Nat) := coreEvent core fun s =>
  match nextGrant s (core / 8) with
  | none => s
  | some (c, pc) =>
    if c ≠ core then s
    else
      let t := grantFetch s core pc
      { t with agenda := ((mergedGrant s core pc).map fun x => .issue x.1 x.2 false false) ++ t.agenda }

/-- Whether a sequencer has what it executes next: an instruction that it need not fetch, or the grant for it (R30). -/
def State.hasFetch (s : State) (core : Nat) (e : Sequencer) : Bool :=
  let c := (s.getCore core).ctx
  !c.fetches e || (s.cube (core / 256)).fetched.contains (core, c.pcOf e)

/-- A sequencer without a grant waits while its hearth's port makes the next one (R30). -/
def awaitFetch (s : State) (core : Nat) : State :=
  match nextGrant s (core / 8) with
  | some (c, pc) => grantFetch s c pc
  | none => s

/-- FORWARDED_INSTRUCTION (R28): an attached follower executes what its leader has executed. -/
def execForwardedInstruction (core : Nat) := coreEvent core fun s =>
  if s.core.ctx.live && s.core.ctx.attached && !s.core.chain.isEmpty then grantTurn s core else s

/-- WAIT_WAKEUP (R36): the wait tests its condition again. -/
def execWaitWakeup (core : Nat) := coreEvent core fun s => if s.core.ctx.status = .waiting then grantTurn s core else s

/-- POLL_RETEST (R447). -/
def execPollRetest (core : Nat) := coreEvent core fun s =>
  if s.core.ctx.status = .waiting && s.core.ctx.wait.polls then grantTurn s core else s

/-! ### Saves (R213, R218-R220, R223) -/

/-- Whether a core's thread may be saved now: it has drained (R220) and no instruction of it is under way. -/
def Ctx.saveable (c : Ctx) : Bool := c.live && c.drained

/-- The thread of a core becomes SAVED, held by the Stove (R213, R219); the next of the run list becomes resident. Its
followers detach; one that is itself a follower leaves its leader's set where it is pre-empted and stays in it, detached,
where it has trapped (R29, R31, R213). -/
def saveContext (s : State) (core : Nat) (report : Option TrapReport) (handled : Bool) : State :=
  let s := if report.isSome then detachFollowers s core else standDown s core
  let k := s.getCore core
  let c := { k.ctx.save with status := .saved, trap := none, pending := k.ctx.pending.filter Interrupt.holds }
  let v : SavedCtx := { ctx := c, core := core, report := report, handled := handled }
  let s := s.setCore core { k with ctx := k.ctx.vacant, chain := [], mbWrite := none }
  nextResident (s.modStove (core / 256) fun t => { t with saved := t.saved ++ [v] }) core

/-- Whether the report of a trapped thread is still held for a full mailbox, so that the thread stays SAVED (R373). -/
def reportHeld (s : State) (cube tid : Nat) : Bool := (s.cube cube).stove.heldNotices.contains ⟨3, noticeTrap, tid⟩

/-- CONTEXT_SAVE (R213 steps 3-5, R223): a thread that has taken a trap and has drained is saved, and its report
goes to Stove core 3. -/
def execContextSave (core : Nat) := coreEvent core fun s =>
  match s.core.ctx.trap with
  | some t =>
    if s.core.ctx.saveable then (saveContext s core (some t) false).noticeOf (core / 256) 3 noticeTrap s.core.ctx.tid else s
  | none => s

/-- Whether a switch or an interrupt may take the thread of a core: no trap is taken, no refused store is pending
before it (R488), and it has drained. -/
def Core.interruptible (k : Core) : Bool := k.ctx.saveable && k.ctx.trap.isNone && k.ctx.busy.isEmpty

/-- The cycles for which the thread of a core has been resident (R26). -/
def residentFor (s : State) (core : Nat) : Nat := ((s.cube (core / 256)).clock - (s.getCore core).ctx.residentAt).toNat

/-- Whether the thread of a core has been resident for a quantum while others wait (R26). -/
def quantumSpent (s : State) (core : Nat) : Bool :=
  !(s.getCore core).runList.isEmpty && (s.cube (core / 256)).stove.quantum ≤ residentFor s core

/-- QUANTUM_EXPIRY (R26): the resident context goes to the tail of the run list; one that has not drained is asked
to stop. -/
def execQuantumExpiry (core : Nat) := coreEvent core fun s =>
  let k := s.core
  if !k.ctx.live || !quantumSpent s core then s
  else if k.interruptible then rotate s core
  else if k.ctx.pending.contains .quantum then s
  else s.modCtx fun c => { c with pending := c.pending ++ [.quantum] }

/-- INTERRUPT (R218, R219): a request of a Stove core is taken at a boundary, after the drain. A pre-empted thread, and one
stopped for error handling, may be returned; one stopped for debug waits for its resumption. -/
def execInterrupt (core : Nat) := coreEvent core fun s =>
  match s.core.ctx.pending with
  | [] => s
  | p :: l =>
    if !s.core.interruptible then s
    else
      let s := s.modCtx fun c => { c with pending := l }
      match p with
      | .quantum => if s.core.runList.isEmpty then s else rotate s core
      | .preempt | .error => saveContext s core none true
      | .stop => saveContext s core none false

/-- The trap of a refused store (R488). SEGV is zero: DESIGN CHOICE, log entry 98, since R216 leaves the segment value of the
refused access or zero, and R488 lists none. -/
def busyReport (c : Ctx) (off : Word) : TrapReport :=
  { code := .graphBusy, pc := c.regs.pc, addr := off, epc := c.regs.pc, source := 0, kind := .store, seg := 0, staleGen := false }

/-- Delivers the oldest refused store of the moving core's thread (R488). -/
def deliverBusy (s : State) : State :=
  match s.core.ctx.busy with
  | [] => s
  | off :: l =>
    let t := takeTrap (busyReport s.core.ctx off) { s with seqr := .main }
    t.modCtx fun c => { c with busy := l }

/-- GRAPH_BUSY_REFUSAL (R488): taken at the thread's next boundary. -/
def execGraphBusyRefusal (core : Nat) := coreEvent core fun s =>
  if s.core.ctx.live && s.core.ctx.trap.isNone && s.core.ctx.asked.isNone then deliverBusy s else s

/-- TRAP_ENTRY (R213 steps 1 and 2): the main sequencer of a core takes a trap at its present instruction. -/
def execTrapEntry (core : Nat) (t : TrapReport) := coreEvent core fun s =>
  if s.core.ctx.live && s.core.ctx.trap.isNone then
    takeTrap { t with pc := s.regs.pc, source := 0 } { s with seqr := .main }
  else s

/-! ### The Stove's handling of a trap (R213-R216, R255) -/

/-- A context that the Stove holds. -/
def State.savedCtx (s : State) (tid : Nat) : Option (Nat × SavedCtx) :=
  s.cubes.findSome? fun p => (p.2.stove.saved.find? fun v => v.ctx.tid == tid).map fun v => (p.1, v)

/-- Changes a context that the Stove holds. -/
def modSaved (s : State) (cube tid : Nat) (f : SavedCtx → SavedCtx) : State :=
  s.modStove cube fun t => { t with saved := t.saved.map fun v => if v.ctx.tid = tid then f v else v }

/-- The place of a gang rank in a rectangle of `cols` columns whose first core is `first`. -/
def rankPlace (first cols rank : Nat) : Nat := first + 8 * (rank / cols) + rank % cols

/-- The first core of the rectangle in which a core has a gang rank, if it lies on the grid. -/
def rectFirst (g : Gang) (rank core : Nat) : Option Nat :=
  let h := core % 256 / 8
  let k := core % 8
  if rank / g.cols ≤ h && rank % g.cols ≤ k && h - rank / g.cols + g.rows ≤ 32 && k - rank % g.cols + g.cols ≤ 8 then
    some (core - 8 * (rank / g.cols) - rank % g.cols)
  else none

/-- Whether a member of a gang may return to a core other than its own (R37): with it there, every member that the
Stove does not hold stands in one rectangle of the gang's shape. -/
def sameRectangle (s : State) (tid core : Nat) (g : Gang) : Bool :=
  match g.members.find? fun m => m.2.1 == tid with
  | none => false
  | some (rank, _, _) => match rectFirst g rank core with
    | none => false
    | some first => g.members.all fun m => m.2.1 == tid || g.halted.contains m.1 ||
        ((s.cube (core / 256)).stove.saved.any fun v => v.ctx.tid == m.2.1) || rankPlace first g.cols m.1 == m.2.2

/-- Whether another thread that counts with a core is a member of a group of a thread's (R428). -/
def sharesGroup (s : State) (tid core : Nat) : Bool :=
  (groupsOf s (core / 256) tid).any fun g => g.members.any fun m => m.tid != tid && m.core == core

/-- Whether the Stove may return a context to a core (R26, R37): any of its cube where the thread is of no gang, but one where
a fellow member of a group of its stands (R428); for a member of a gang, its own core while no other has moved, or one with
which the gang comes to stand in another rectangle of its shape. -/
def mayReturn (s : State) (v : SavedCtx) (core : Nat) : Bool :=
  let k := s.getCore core
  v.handled && core / 256 == v.core / 256 && !k.lost && !k.spare && k.runList.length < 4 &&
  (core == v.core || !sharesGroup s v.ctx.tid core) &&
  match v.ctx.gang.bind (findGang s) with
  | none => true
  | some (_, g) => (core == v.core && !g.moved) || sameRectangle s v.ctx.tid core g

/-- The core of a thread in the records of its groups and its gang. -/
def moveMember (s : State) (tid core : Nat) : State :=
  let f := fun (m : Member) => if m.tid = tid then { m with core := core } else m
  let place := fun (m : Nat × Nat × Nat) => if m.2.1 = tid then (m.1, tid, core) else m
  let mine := fun (m : Nat × Nat × Nat) => m.2.1 == tid
  let here := fun (g : Gang) =>
    let g := { g with members := g.members.map place }
    match (g.members.find? mine).bind fun (m : Nat × Nat × Nat) => rectFirst g m.1 core with
    | some first => { g with h0 := first % 256 / 8, k0 := first % 8, moved := true }
    | none => g
  { s with cubes := s.cubes.map fun p => (p.1, { p.2 with
      groups := p.2.groups.map fun g => { g with members := g.members.map f }
      gangs := p.2.gangs.map fun g => if g.members.any mine then here g else g }) }

/-- A core acquires at every scope: its L1 and its decided copies hold nothing older than the thread that comes to it has
seen (R268, R273, R285). -/
def acquireOn (s : State) (core : Nat) : State := ([1, 2, 3, 4].foldl bumpVersion (s.focus core)).focus s.me

/-- Returns a SAVED context to the tail of a run list; another core than its own acquires first. -/
def returnContext (s : State) (cube tid core : Nat) : State :=
  match (s.cube cube).stove.saved.find? fun v => v.ctx.tid == tid with
  | none => s
  | some v =>
    if !mayReturn s v core then s
    else
      let s := s.modStove cube fun t => { t with saved := t.saved.filter fun v => v.ctx.tid != tid }
      let s := if core = v.core then s else acquireOn (moveMember (leaveLed s v.core v.ctx) tid core) core
      let c := if core = v.core then v.ctx else v.ctx.unled
      nextResident (s.modCore core fun k => { k with runList := k.runList ++ [{ c with status := .queued }] }) core

/-- CONTEXT_RETURN (R26). -/
def execContextReturn (tid core : Nat) := coreEvent core fun s => returnContext s (core / 256) tid core

/-- FAULT_SERVICE (R213 step 6, R255, R309): a fault of route S has been serviced; the thread resumes from its image,
under the current generation where a stale one was the cause, and what its copy engine kept re-enters its queue. -/
def execFaultService (tid : Nat) (s : State) : Host.Outcome State Fault Refusal :=
  match s.savedCtx tid with
  | none => .next s
  | some (cube, v) => match v.report with
    | none => .next s
    | some t =>
      let s := s.focus (cube * 256)
      let id := v.ctx.regs.asid.extractLsb' 0 16
      if v.handled || reportHeld s cube tid || (s.cube cube).tripped || !routeS t.code || (t.staleGen && (s.cube cube).stove.reflect.contains id) then .next s
      else
        let g := generation (s.cube cube) id
        let now := fun (a : BitVec 24) => (generation (s.cube cube) (a.extractLsb' 0 16) ++ a.extractLsb' 0 16 : BitVec 24)
        let fix := fun (c : Ctx) => if !t.staleGen then c else { c with
          regs := { c.regs with asid := (g ++ id : BitVec 24) }
          pend := c.pend.map fun p => if p.failed then { p with asid := now p.asid } else p }
        let s := modSaved s cube tid fun v => { v with ctx := fix v.ctx.reenter, handled := true, report := none }
        .next (returnContext s cube tid v.core)

/-- The fields of a trap table entry (R214). -/
def ttHpc (e : BitVec 256) : Word := e.extractLsb' 0 64
def ttBase (e : BitVec 256) : Word := e.extractLsb' 64 64
def ttCount (e : BitVec 256) : Nat := (e.extractLsb' 128 16).toNat
def ttGen (e : BitVec 256) : BitVec 8 := e.extractLsb' 144 8
def ttValid (e : BitVec 256) : Bool := e.getLsbD 152

/-- The access kind of a frame (R216). A decide-once instruction's is 4, an atomic's: DESIGN CHOICE, log entry 39, since R216
lists none for it; so is that of MAPR (log entry 26). -/
def accessNum : AccessKind → Nat
  | .none => 0
  | .fetch => 1
  | .load => 2
  | .store => 3
  | .atomic | .once => 4
  | .copySrc => 5
  | .copyDst => 6

/-- The number of a trap code (R210). -/
def codeNum : TrapCode → Nat
  | .illegalOpcode => 0x01 | .illegalPrefix => 0x02 | .illegalFunct => 0x03 | .illegalOperand => 0x04
  | .engineClass => 0x05 | .privileged => 0x06 | .repInvalid => 0x07 | .jtInvalid => 0x08 | .stallShort => 0x09
  | .landingMismatch => 0x0A | .pcMisaligned => 0x0B | .misaligned => 0x0C | .retOverflow => 0x0D
  | .retUnderflow => 0x0E | .followInvalid => 0x0F | .softTrap => 0x10 | .addressRange => 0x20 | .pageAbsent => 0x21
  | .pageProtect => 0x22 | .peerLost => 0x23 | .memUncorrectable => 0x24 | .layoutStale => 0x25 | .migrateGroup => 0x26
  | .migrateState => 0x27 | .mapConflict => 0x28 | .scaleCount => 0x30 | .scaleInvalid => 0x31 | .outlierFull => 0x32
  | .tileUnconfigured => 0x38 | .tileFormat => 0x39 | .tileShape => 0x3A | .accRange => 0x3B | .gissueInvalid => 0x3C
  | .gissueMismatch => 0x3D | .waitExhausted => 0x40 | .groupInvalid => 0x41 | .counterInvalid => 0x42
  | .onceInvalid => 0x48 | .flueInvalid => 0x49 | .queueInvalid => 0x4A | .graphQueueFull => 0x4B | .graphBusy => 0x4C
  | .diverged => 0x50 | .refineInvalid => 0x51 | .coreUncorrectable => 0x58

/-- The frame of a trap (R216). -/
def trapFrameBytes (r : Regs) (t : TrapReport) : List Byte :=
  let code := codeNum t.code + t.source % 4 * 2 ^ 16 + accessNum t.kind * 2 ^ 18 + (if tswRa r.tsw then r.rcnt.toNat * 2 ^ 21 else 0)
  bytesOfNat 8 t.pc.toNat ++ bytesOfNat 8 r.tsw.toNat ++ bytesOfNat 8 r.repbase.toNat ++ bytesOfNat 8 code ++
  bytesOfNat 8 t.addr.toNat ++ bytesOfNat 8 t.epc.toNat ++ bytesOfNat 8 (r.gq.getD 15 0).toNat ++ bytesOfNat 8 t.seg.toNat

/-- The frame's offset pushed onto the scalar queue of an image, which is a write of that group (R105, R215 step 4). -/
def Regs.pushFrame (r : Regs) (frame : Word) : Regs := dirtyGrp { r with gq := (frame :: r.gq).take 16 } 0

/-- The registers as the Stove rewrites them (R215 step 4). -/
def reflected (r : Regs) (hpc frame : Word) : Regs :=
  { r.pushFrame frame with
    pc := hpc
    tsw := tswRepeat (tswSet (tswSet (tswSet r.tsw 0 true) 1 false) 2 false) false 0 0 }

/-- The image that the Stove rewrites (R215 step 4): the registers, and the section of the image area that holds the queue. -/
def Ctx.reflected (c : Ctx) (hpc frame : Word) : Ctx :=
  { c with
    regs := Sys2Proof.Machine.reflected c.regs hpc frame
    image := c.image.map fun i => { i with regs := { i.regs with gq := (frame :: i.regs.gq).take 16 } } }

/-- The frame that a thread holds in the area of its ASID, or the lowest free one (R215 step 2). -/
def frameFor (t : Stove) (id : BitVec 16) (tid count : Nat) : Option Nat :=
  match t.frames.find? fun f => f.1 == id && f.2.2 == tid with
  | some f => some f.2.1
  | none => (List.range count).find? fun k => !t.frames.any fun f => f.1 == id && f.2.1 == k

/-- A thread holds a frame of an area (R215 step 2). -/
def holdFrame (s : State) (cube : Nat) (id : BitVec 16) (k tid : Nat) : State :=
  s.modStove cube fun t => if t.frames.contains (id, k, tid) then t else { t with frames := t.frames ++ [(id, k, tid)] }

/-- How a write of the Stove ends. -/
inductive StoveWrite where
  | done (s : State)
  /-- a home makes it wait -/
  | wait
  /-- a home refuses it -/
  | refused

/-- The Stove writes bytes over the parts of atoms at their homes, which it orders as the earlier stores of the thread on a
core: the L1 of that core holds no older bytes (R216, R268). -/
def stoveWrite (core : Nat) : List (Place × Nat × List (Option Byte) × Word) → State → StoveWrite
  | [], s => .done s
  | (p, a, bs, _) :: l, s =>
    match homeWrite s p.cube none a bs 0 with
    | .done t => stoveWrite core l (l1DropAt t (some core) a bs.length)
    | .wait => .wait
    | _ => .refused

/-- The gang of a thread is aborted, or a thread of no gang alone (R215 step 1). -/
def abortWork (s : State) (c : Ctx) (core : Nat) (status : BitVec 16) : State :=
  match c.gang with
  | some id => if (findGang s id).isSome then abortGang s id status else abortThread s core c.tid
  | none => abortThread s core c.tid

/-- Whether a saved thread's fault is a stale generation that the Stove resumes (R255). -/
def resumesStale (s : State) (cube : Nat) (v : SavedCtx) : Bool :=
  (v.report.map TrapReport.staleGen).getD false && !(s.cube cube).stove.reflect.contains (v.ctx.regs.asid.extractLsb' 0 16)

/-- A load that trapped is no longer outstanding when its trap is reflected: its handler's return executes it again
(R217). -/
def Ctx.dropFailed (c : Ctx) (t : TrapReport) : Ctx :=
  { c with pend := c.pend.filter fun p => !(p.failed && p.pc == t.epc) }

/-- The reflection of the trap of a SAVED thread (R215); `giveUp` tells that the Stove cannot service what the write of its
frame meets. -/
def reflectTrap (giveUp : Bool) (tid : Nat) (s : State) (cube : Nat) (v : SavedCtx) (t : TrapReport) : State :=
  let s := s.focus (cube * 256)
  let r := v.ctx.regs
  let id := r.asid.extractLsb' 0 16
  let st := (s.cube cube).stove
  let e := ((st.trapTable.find? fun x => x.1 == id).map Prod.snd).getD 0
  let seg0 := r.seg[0]
  let abort := abortWork s v.ctx v.core statusFaulted
  if tswPriv r.tsw || !ttValid e || ttGen e ≠ r.asid.extractLsb' 16 8 then abort
  else match frameFor st id tid (ttCount e) with
    | none => s
    | some k =>
      let s := holdFrame s cube id k tid
      let abort := abortWork s v.ctx v.core statusFaulted
      let frame := ttBase e + BitVec.ofNat 64 (64 * k)
      if 0xFFFE ≤ seg0.toNat then abort
      else match footprint s ⟨r.asid, false, none⟩ seg0 frame 64 .store rawRegion with
        | .error x => if x.held || (routeS x.code && !giveUp) then s else abort
        | .ok ps => match landPieces s ps with
          | .error none => s
          | .error (some (c, _)) => if routeS c && !giveUp then s else abort
          | .ok ps => match stoveWrite v.core (mergeAtoms (writesOf ((trapFrameBytes r t).map some) ps)) s with
            | .wait => s
            | .refused => abort
            | .done u =>
              let u := modSaved u cube tid fun v => { v with
                ctx := { ((v.ctx.dropFailed t).reenter).reflected (ttHpc e) frame with trapFrame := some k }
                handled := true
                report := none }
              returnContext u cube tid v.core

/-- TRAP_REFLECTION (R215, R255, R309): the frame is written and the image goes to the handler, with what its copy engine kept, or
the gang is aborted; without a free frame, or while a fault of the frame's write awaits its service, the thread stays SAVED. -/
def execTrapReflection (tid : Nat) (s : State) : Host.Outcome State Fault Refusal :=
  match s.savedCtx tid with
  | none => .next s
  | some (cube, v) => match v.report with
    | none => .next s
    | some t =>
      .next (if v.handled || reportHeld s cube tid || resumesStale s cube v || (s.cube cube).tripped then s
        else reflectTrap false tid s cube v t)

/-- The Stove cannot service what the write of a thread's frame meets: the gang is aborted (R215 step 3). -/
def giveUpTrap (tid : Nat) (s : State) : State :=
  match s.savedCtx tid with
  | none => s
  | some (cube, v) => match v.report with
    | none => s
    | some t =>
      if v.handled || reportHeld s cube tid || resumesStale s cube v || (s.cube cube).tripped then s
      else reflectTrap true tid s cube v t

/-! ### Arrival of a migration (R34, R35, R285) -/

/-- The context as it arrives: what does not travel reads as zero, no base generation (R34, R224). Arrival writes every
register and every tile, so that every dirty bit is set (R88, R105). A frame that it holds on another cube stays there
(R215). The loads that it awaits trap as late ones: what stood before them stood on another core (log entry 6). -/
def Ctx.arrived (c : Ctx) (away : Bool) : Ctx :=
  { c with
    status := .queued
    pend := c.pend.map fun p => { p with undo := none }
    regs := { c.regs with
      e := Vector.replicate 192 0, mb := Vector.replicate 4 0, mbstat := 0
      grpdirty := BitVec.allOnes 7, tdirty := BitVec.allOnes 9 }
    tiles := TileRegs.reset
    base := none
    frame := none
    board := []
    wait := .none
    trapFrame := if away then none else c.trapFrame }

/-- The source core's side of an accepted migration: the context leaves, its outstanding replies are forwarded. -/
def departed (k : Core) (tid dest : Nat) : Core :=
  let left := (k.ctx.pend.filter fun p => !p.failed).map Pend.num
  let k := (k.count 1 1).count 15 1
  { k with
    ctx := k.ctx.vacant
    forwards := if left.isEmpty then k.forwards else k.forwards ++ [{ tid := tid, core := dest, left := left }]
    chain := []
    mbWrite := none }

/-- MIGRATION_CONTEXT (R34, R35): the context joins the destination's run list, or is refused and stays at its source.
A stop that was asked for meanwhile is applied as it arrives (R221). -/
def execMigrationContext (num : Nat) := requestEvent num
  (fun b => match b with
    | .context _ _ => true
    | _ => false)
  fun f s => match f.body, f.src with
    | .context dest c, .main src =>
      let k := s.getCore dest
      let s := s.landRequest f
      if k.lost || 4 ≤ k.runList.length then
        s.modCore src fun k => { k with ctx := { k.ctx with status := .resident }, migrateHold := true }.takeHeld
      else
        let asked := (s.getCore src).ctx.pending.filter Interrupt.holds
        let s := nextResident (s.modCore src fun k => departed k c.tid dest) src
        let x := { c.arrived (dest / 256 != src / 256) with pending := asked }
        let s := (acquireOn s dest).modCore dest fun k => { k with runList := k.runList ++ [x] }
        nextResident (settleStops s dest) dest
    | _, _ => s

/-- MIGRATE_RETRY (R35): the refused MIGRATE may be tried again. -/
def execMigrateRetry (core : Nat) := coreEvent core fun s =>
  if s.core.migrateHold then grantTurn { s with core := { s.core with migrateHold := false } } core else s

/-! ### Engines -/

/-- Whether the head of the matrix queue is a GISSUE. -/
def headIsJoint (c : Ctx) : Bool :=
  match c.mq.head? with
  | some x => match x.work with
    | .tile op _ _ _ => op == 0x63
    | _ => false
  | none => false

/-- MATRIX_FORM_START (R189). -/
def execMatrixFormStart (core : Nat) := coreEvent core fun s =>
  if enginesMay s core && !headIsJoint s.core.ctx then matrixStart { s with seqr := .main } else s

/-- GISSUE_JOINT_ISSUE (R205). -/
def execGissueJointIssue (core : Nat) := coreEvent core fun s =>
  if enginesMay s core && headIsJoint s.core.ctx then matrixStart { s with seqr := .main } else s

/-- MATRIX_FORM_COMPLETE (R190). -/
def execMatrixFormComplete (core : Nat) := coreEvent core fun s => matrixComplete s

/-- COPY_COMMAND_START (R307): the engine starts its next command, or sends its next part; while the thread drains it
only writes what it has asked for. -/
def execCopyCommandStart (core : Nat) := coreEvent core fun s =>
  let mine := match copyHead s.core with
    | some x => !isNode s.core x.id
    | none => false
  if mine && !enginesMay s core then (copyQueue s.core).foldl (fun t x => copyWrites t core x.id) s else copyStart core s

/-- COPY_COMMAND_COMPLETE (R308). -/
def execCopyCommandComplete (core : Nat) := coreEvent core fun s => copyComplete core s

/-- FLUE_ENTRY_START (R332). -/
def execFlueEntryStart (core : Nat) := coreEvent core fun s => if enginesMay s core then flueStart core s else s

/-- STREAM_TOKEN (R336). -/
def execStreamToken (cube flue stream : Nat) := cubeEvent cube fun s =>
  if flue < 64 && stream < 8 then streamToken s cube flue stream else s

/-- CELL_FIRE (R325). -/
def execCellFire (cube flue cell : Nat) := cubeEvent cube fun s =>
  if flue < 64 && cell < 16 then cellFire s cube flue cell else s

/-- KERNEL_FINISH (R326). -/
def execKernelFinish (cube flue : Nat) := cubeEvent cube fun s => if flue < 64 then kernelFinish s cube flue else s

/-! ### Translation stations (R254, R402) -/

/-- The entries that one station holds (R254). -/
def stationEntries : Nat := 8192

/-- The entries of the stations with a new one: the oldest of its station makes room for it (R254, which leaves the
replacement open, log entry 9). -/
def putEntry (l : List TlbEntry) (e : TlbEntry) : List TlbEntry :=
  if l.contains e then l
  else
    let full := stationEntries ≤ (l.filter fun x => x.station == e.station).length
    (if full then l.eraseP fun x => x.station == e.station else l) ++ [e]

/-- The station that serves a request caches its translation (R254). -/
def cacheEntry (s : State) (seg : BitVec 16) (off : Nat) (pte : BitVec 64) (size : Nat) : State :=
  let id := s.asidId
  let gen := generation (s.cube s.myCube) id
  let e : TlbEntry := { station := stationOf id seg off, asid := id, gen := gen, seg := seg, off := off / size * size, size := size, pte := pte }
  s.modStove s.myCube fun t => { t with stations := putEntry t.stations e }

/-- TRANSLATION (R254): a request of a core's thread is translated; the station then holds the entry. A request that
faults changes nothing here: its instruction traps. -/
def execTranslation (core : Nat) (seg : BitVec 16) (off : Word) (k : AccessKind) := coreEvent core fun s =>
  match placeOf s s.requester seg off k (fun _ => true), walk s s.regs.asid seg off.toNat with
  | .ok _, .ok (e, size) => if 0xFFFE ≤ seg.toNat then s else cacheEntry s seg off.toNat e size
  | _, _ => s

/-- PAGE_TABLE_WALK (R402): on a miss the station walks the tables and holds what it finds. -/
def execPageTableWalk (core : Nat) (seg : BitVec 16) (off : Word) := coreEvent core fun s =>
  match segDesc s s.asidId seg with
  | none => s
  | some d =>
    if 0xFFFE ≤ seg.toNat || d.limit ≤ off.toNat || s.regs.asid.extractLsb' 16 8 ≠ generation (s.cube s.myCube) s.asidId then s
    else match walkFrom s off.toNat 3 0 d.root with
      | .ok (e, size) => cacheEntry s seg off.toNat e size
      | .error _ => s

/-! ### Checkpoints, lost cores and rollback (R227-R229, R407, R448) -/

/-- CHECKPOINT_COMMIT (R227): the captured checkpoint has been written whole. -/
def execCheckpointCommit (cube gang : Nat) := cubeEvent cube fun s =>
  match (s.cube cube).gangs.find? fun g => g.id == gang with
  | none => s
  | some g =>
    if g.allCommitted then s else settle (commitCkpts s cube g) cube g.group

/-- Whether every copy engine of a gang's members has written or released each atom it issued (R448). -/
def copiesSettled (s : State) (g : Gang) : Bool :=
  g.members.all fun m => match s.thread m.2.1 with
    | some (_, c) => !copyDraining c
    | none => true

/-- Places for the members of a gang after a rollback: its core, or for a lost core a spare of its hearth; none where
one is missing (R229 steps 2 and 3). -/
def spareCores (s : State) : List (Nat × Nat × Nat) → List Nat → Option (List (Nat × Nat × Nat))
  | [], _ => some []
  | (r, t, core) :: l, used =>
    let pick := if !(s.getCore core).lost then some core
      else ((List.range 8).map (· + core / 8 * 8)).find? fun c =>
        (s.getCore c).spare && !(s.getCore c).lost && !used.contains c
    match pick with
    | none => none
    | some c => (spareCores s l (c :: used)).map fun x => (r, t, c) :: x

/-- The bytes of a scratchpad line in a checkpoint. -/
def lineBytes (cells : List Host.Cell) (line : Nat) : List Byte :=
  (List.range 1024).map fun i => memGet cells (1024 * line + i)

/-- Restores scratchpad lines of a core from a checkpoint; the writes set the dirty bits (R226, R229). -/
def restoreLines (s : State) (core : Nat) (cells : List Host.Cell) (lines : List Nat) : State :=
  lines.foldl (fun t l => t.store (spadAddr core (1024 * l)) (lineBytes cells l)) s

/-- Whether the range maps that a rollback of a gang undoes may be undone now: no copy engine owns an atom of them (R304,
R407). -/
def mapsSettled (s : State) (g : Gang) : Bool :=
  g.members.all fun m => ((s.getCore m.2.2).maps.filter RangeMap.fresh).all fun x => mayUnmap s m.2.2 x

/-- A map of a lost core moves to the same rows of its spare: the slices redirect to the spare what was on its way (R284,
R407). -/
def moveMap (from_ dest : Nat) (s : State) (m : RangeMap) : State :=
  let a := spadAddr from_ (4096 * m.spo)
  let n := 4096 * m.units
  rehome (redirect (l1DropAll (l1DropAll s m.base n) a n) a (spadAddr dest (4096 * m.spo)) n)

/-- The range maps of a member at a rollback (R407): new ones are unmapped; those of a lost core move to its spare. -/
def rollbackMaps (s : State) (from_ dest : Nat) : State :=
  let s := ((s.getCore from_).maps.filter RangeMap.fresh).foldl (fun t m => unmapSwitch t from_ m) s
  if from_ = dest then s
  else
    let ms := (s.getCore from_).maps
    ms.foldl (moveMap from_ dest)
      ((s.modCore from_ fun k => { k with maps := [] }).modCore dest fun k => { k with maps := k.maps ++ ms })

/-- A copy entry as a rollback restores it: what it had not written is requested again. -/
def rollbackCopy (x : Entry) : Entry :=
  match x.work with
  | .copy c =>
    let p := c.atoms.foldl (fun k a => min k a.p) c.pos
    { x with work := .copy (remainder { c with pos := p }) }
  | _ => x

/-- A member's context as a rollback restores it: a thread of a new name, nothing outstanding; what no longer stands
anywhere is no longer counted. -/
def rollbackCtx (c : Ctx) (tid : Nat) (runs : List Nat) : Ctx :=
  let live := (c.mq ++ c.cq ++ c.fq ++ c.kept).map Entry.id
  { c.awake with
    tid := tid
    status := .queued
    counted := c.counted.filter fun x => live.contains x.id || runs.contains x.id
    markers := []
    unacked := 0
    cq := c.cq.map rollbackCopy
    pend := []
    frame := none
    board := []
    asked := none
    trap := none
    busy := []
    base := none
    residentAt := 0
    pending := [] }

/-- A thread takes over a name everywhere but in its contexts: groups, rounds, contributions on their way, flues, runs. -/
def renameThread (s : State) (old new core : Nat) : State :=
  let tid := fun (t : Nat) => if t = old then new else t
  let member := fun (m : Member) => if m.tid = old then { m with tid := new, core := core } else m
  let partial_ := fun (p : Partial) => { p with covers := p.covers.map tid }
  let part := fun (c : Contribution) => { c with tid := tid c.tid }
  let round := fun (r : Round) => { r with
    members := r.members.map tid
    parts := r.parts.map part
    routers := r.routers.map fun x => { x with own := x.own.map partial_, ins := x.ins.map partial_ } }
  let flight := fun (f : Flight) => { f with body := match f.body with
    | .contribution n c => .contribution n (part c)
    | .partialSum n id p => .partialSum n id (partial_ p)
    | b => b }
  let run := fun (r : Run) => { r with by_ := r.by_.map fun b => (b.1, tid b.2.1, b.2.2) }
  let flue := fun (u : Flue) => { u with by_ := u.by_.map fun b => (b.1.map tid, b.2) }
  { s with
    flights := s.flights.map flight
    cubes := s.cubes.map fun p => (p.1, { p.2 with
      groups := p.2.groups.map fun g => { g with members := g.members.map member, rounds := g.rounds.map round }
      flues := p.2.flues.map flue
      graphs := p.2.graphs.map fun g => { g with job := g.job.map run }
      runs := p.2.runs.map run }) }

/-- The runs of a cube that an RLAUNCH is counted for. -/
def countedRuns (q : Cube) : List Nat := (q.runs.map Run.id) ++ q.graphs.filterMap fun g => g.job.map Run.id

/-- The launch group as restored: the checkpoint's, with the members' new names and cores (R448). -/
def restoreGroup (grp : Group) (ck : Checkpoint) (names : List (Nat × Nat × Nat)) : Group :=
  let f := fun (m : Member) =>
    match ck.ctxs.find? fun c => c.2.tid == m.tid with
    | none => m
    | some (rank, _) => match names.find? fun x => x.1 == rank with
      | some (_, t, core) => { m with tid := t, core := core }
      | none => m
  { grp with members := grp.members.map f, pend := [] }

/-- The scratchpad of a member at a rollback (R229 step 4): a survivor's lines that are dirty for the area, or a spare's whole,
every line of which is then dirty for the other area only. -/
def restoreSpad (s : State) (a spare : Bool) (core : Nat) (cells : List Host.Cell) : State :=
  let all := List.range 512
  if spare then
    (restoreLines s core cells all).modCore core fun k => { k with
      spare := false
      dirtyA := if a then [] else all
      dirtyB := if a then all else [] }
  else restoreLines s core cells (if a then (s.getCore core).dirtyA else (s.getCore core).dirtyB)

/-- TSW of a member where a spare has taken a core's place: what names that core's number in the hearth names the spare's.
DESIGN CHOICE, log entry 90: R229 does not say. -/
def relead (core : Nat) (w : Word) (m : Nat × Nat) : Word :=
  let bit := fun (x : Word) (k : Nat) (b : Bool) => tswSet x (16 + k) b
  if m.1 = m.2 || m.1 / 8 ≠ core / 8 then w
  else
    let w := if tswFol w && tswLead w = m.1 % 8 then setField w 8 3 (m.2 % 8) else w
    if w.getLsbD (16 + m.1 % 8) then bit (bit w (m.1 % 8) false) (m.2 % 8) true else w

/-- Restores one member (R229 steps 4-6): scratchpad, context with what it had still to execute of its leader's stream, its
trap frame (R215), its place at the head of its core's run list. -/
def restoreMember (ck : Checkpoint) (a : Bool) (moves : List (Nat × Nat)) (s : State)
    (m : (Nat × Nat × Nat) × (Nat × Nat × Nat)) : State :=
  let ((rank, old, oldCore), (_, new, core)) := m
  let s := rollbackMaps s oldCore core
  let s := restoreSpad s a (oldCore != core) core ((assoc ck.spads rank).getD [])
  let s := s.modCore core fun k => { k with l1 := [] }
  let s := renameThread s old new core
  match assoc ck.ctxs rank with
  | none => s
  | some c =>
    let c := rollbackCtx c new (countedRuns (s.cube (core / 256)))
    let c := { c with regs := { c.regs with tsw := moves.foldl (relead core) c.regs.tsw } }
    let s := match c.trapFrame with
      | some k => holdFrame s (core / 256) (c.regs.asid.extractLsb' 0 16) k new
      | none => s
    let s := nextResident (s.modCore core fun k => { k with runList := c :: k.runList }) core
    let s := s.modCore core fun k => if k.ctx.tid = new then { k with chain := (assoc ck.chains rank).getD [] } else k
    (c.fq.filter Entry.accepted).foldl (fun t x => settleStart t (core / 256) (some new, x.id)) s

/-- A restored follower whose leader's set does not hold it, since the leader is of no member, stands detached. -/
def detachStray (s : State) (m : Nat × Nat × Nat) : State :=
  let core := m.2.2
  let c := (s.getCore core).ctx
  if c.tid = m.2.1 && c.attached && !((contextsOf s (leaderOf core c)).any fun l => l.leads core) then
    s.modCore core Core.detach
  else s

/-- The gang loses its present contexts (R229 step 1). -/
def stopMembers (s : State) (g : Gang) : State :=
  g.members.foldl (fun t m => match t.thread m.2.1 with
    | none => t
    | some (core, c) =>
      let t := if (t.getCore core).ctx.tid = m.2.1 then standDown t core else leaveLed t core c
      dropThread (releaseOwned t core c) m.2.1) s

/-- The rollback of a gang to its last checkpoint; without one, or without a spare, it is aborted with GANG_LOST
(R228, R229). -/
def rollbackGang (s : State) (cube : Nat) (g : Gang) : State :=
  match g.last, spareCores s g.members [] with
  | some ck, some places =>
    let a := areaIsA ck.n
    let s := stopMembers s g
    let (tids, s) := freshTids s g.members.length
    let names := (places.zip tids).map fun x => (x.1.1, x.2, x.1.2.2)
    let moves := (g.members.zip names).map fun x => (x.1.2.2, x.2.2.2)
    let s := names.foldl detachStray ((g.members.zip names).foldl (restoreMember ck a moves) s)
    let s := s.setGroup cube (restoreGroup ck.group ck names)
    let other := if a then g.areaB else g.areaA
    let keep := other.filter Checkpoint.committed
    let all := List.range 512
    let s := if keep.isSome then s else names.foldl (fun t m => t.modCore m.2.2 fun k =>
      if a then { k with dirtyB := all } else { k with dirtyA := all }) s
    modGang s cube g.id fun x => { x with
      members := names
      halted := x.halted.filter fun r => (assoc ck.ctxs r).isNone
      areaA := if a then some ck else keep
      areaB := if a then keep else some ck
      held := false
      moved := false }
  | _, _ => abortGang s g.id statusGangLost

/-- Rolls back the work of a thread whose failure is recorded: its gang, once its copies have settled, or the thread
alone is lost. None while it must wait (R448). -/
def rollbackThread (s : State) (cube tid : Nat) : Option State :=
  let s := s.modCube cube fun q => { q with rollbacks := q.rollbacks.filter fun t => t != tid }
  let gang := s.cubes.findSome? fun p => (p.2.gangs.find? fun g => g.members.any fun m => m.2.1 == tid).map fun g => (p.1, g)
  match gang with
  | some (c, g) =>
    if g.ckpt && !(copiesSettled s g && mapsSettled s g) then none
    else if g.ckpt then some (rollbackGang s c g) else some (abortGang s g.id statusGangLost)
  | none => match s.thread tid with
    | some (core, _) => some (abortThread s core tid)
    | none => some s

/-- The first rollback that can be made; none of a cube that is tripped (R456). -/
def rollbackStep (s : State) : Option State :=
  s.cubes.findSome? fun p =>
    if p.2.tripped then none else p.2.rollbacks.findSome? fun t => rollbackThread (s.focus (p.1 * 256)) p.1 t

/-- What a core's loss does to the copies that it ran for the dispatcher: they release what they own (R265, R283) and complete
FAULTED (R354). -/
def loseCopies (s : State) (core : Nat) : State :=
  let l := (s.getCore core).dq
  let s := (l.foldl (fun t x => releaseEntry t core 0 x) s).modCore core fun k => { k with dq := [] }
  l.foldl (fun t x => reportFrom t x.origin statusFaulted) s

/-- A refinement run of which a core is lost: a spare takes its place, or the run ends (R419). -/
def loseRunCore (s : State) (core : Nat) : State :=
  let cube := core / 256
  match (s.cube cube).runs.find? fun r => r.cores.contains core with
  | none => s
  | some r =>
    let spare := ((List.range 8).map (· + core / 8 * 8)).find? fun c => (s.getCore c).spare && !(s.getCore c).lost
    let s := match spare with
      | some c => s.modCore c fun k => { k with spare := false }
      | none => s
    loseMember s r core spare

/-- The contexts of a lost core's run list are kept by the Stove (R26). -/
def rescueQueued (s : State) (core : Nat) : State :=
  let l := (s.getCore core).runList
  let s := s.modCore core fun k => { k with runList := [] }
  let l := l.map fun (c : Ctx) =>
    ({ ctx := { c with status := .saved }, core := core, report := none, handled := true } : SavedCtx)
  s.modStove (core / 256) fun t => { t with saved := t.saved ++ l }

/-- The threads that a core's loss rolls back (R228): the one on it, and every member of a gang whose core it is. -/
def lostThreads (s : State) (core : Nat) : List Nat :=
  let c := (s.getCore core).ctx
  let mine := s.cubes.flatMap fun p => p.2.gangs.flatMap fun g =>
    (g.members.filter fun m => m.2.2 == core && !g.halted.contains m.1).map fun m => m.2.1
  (if c.present && !mine.contains c.tid then [c.tid] else []) ++ mine

/-- CORE_UNCORRECTABLE (R212, R228, R229): the core leaves service, the work on it rolls back or is lost. -/
def execCoreUncorrectable (core : Nat) := coreEvent core fun s =>
  let cube := core / 256
  if s.core.lost then s
  else
    let s := logError (s.errCount cube 13) cube 0x58 sevLost core
    let c := s.core.ctx
    let atoms := fun (x : Entry) => match x.work with
      | .copy k => { x with work := .copy { k with atoms := [] } }
      | _ => x
    let s := { s with core := { s.core with lost := true, l1 := [], once := [] } }
    let s := (releaseOwned s core c).modCtx fun c => { c with cq := c.cq.map atoms }
    let s := loseRunCore (loseCopies (rescueQueued s core) core) core
    let due := lostThreads s core
    let s := if due.isEmpty then s else s.modCube cube fun q => { q with rollbacks := q.rollbacks ++ due }
    (rollbackStep s).getD s

/-- MARK_SPARE_CORE (R229): a core without work becomes a spare; a rollback that could not be made before is made. -/
def execMarkSpareCore (core : Nat) := stoveCoreCommand core 3 0x0302 fun s =>
  if !coreFree s (core / 256) core then s
  else
    let t := { s with core := { s.core with spare := true } }
    (rollbackStep t).getD t

/-! ### The Stove's commands on threads (R37, R455) -/

/-- Asks the thread of a core to stop. -/
def askStop (k : Core) (i : Interrupt) : Core :=
  if k.ctx.pending.contains i then k else { k with ctx := { k.ctx with pending := k.ctx.pending ++ [i] } }

/-- Pre-empts a gang (R37, R218): every member of a gang is stopped at a boundary of its own; the gang resumes only with every
member resident again. -/
def preempt (s : State) (cube gang : Nat) : State :=
  match (s.cube cube).gangs.find? fun g => g.id == gang with
  | none => s
  | some g =>
    let one := fun (t : State) (m : Nat × Nat × Nat) => match t.thread m.2.1 with
      | none => t
      | some (core, c) =>
        if c.live || c.status = .inTransit then t.modCore core fun k => askStop k .preempt
        else if c.status = .queued then
          settleStops (t.modThread c.tid fun c => { c with pending := c.pending ++ [.preempt] }) core
        else t
    modGang (g.members.foldl one s) cube gang fun g => { g with held := true, moved := false }

/-- PREEMPT (R37, R455). -/
def execPreempt (cube gang : Nat) := stoveCommand cube 1 0x0102 fun s => some (preempt s cube gang)

/-- STOP_THREAD (R455, R218). -/
def execStopThread (core : Nat) := stoveCoreCommand core 7 0x0701 fun s =>
  if s.core.ctx.live || s.core.ctx.status = .inTransit then { s with core := askStop s.core .stop } else s

/-- Stove core 3 asks the thread of a core to stop for error handling (R218). -/
def stopForError (s : State) (core : Nat) : State :=
  let c := (s.getCore core).ctx
  if c.live || c.status = .inTransit then s.modCore core fun k => askStop k .error else s

/-- Ends the debug stop of a core's threads. -/
def endStop (s : State) (core : Nat) (f : Ctx → Ctx) : State :=
  let go := fun (c : Ctx) => f { c with pending := c.pending.filter fun p => p != .stop }
  let s := s.modCore core fun k => if k.ctx.pending.contains .stop then { k with ctx := go k.ctx } else k
  let g := fun (v : SavedCtx) => if v.core = core && v.report.isNone && !v.handled then { v with ctx := f v.ctx, handled := true } else v
  s.modStove (core / 256) fun t => { t with saved := t.saved.map g }

/-- STEP_THREAD (R455): the stopped thread executes one instruction and stops again. -/
def execStepThread (core : Nat) := stoveCoreCommand core 7 0x0701 fun s => endStop s core fun c => { c with stepOne := true }

/-- RESUME_THREAD (R455). -/
def execResumeThread (core : Nat) := stoveCoreCommand core 7 0x0701 fun s => endStop s core id

/-- CLEAR_PERFORMANCE_COUNTERS (R445). -/
def execClearPerformanceCounters (core : Nat) := stoveCoreCommand core 7 0x0701 fun s =>
  { s with core := { s.core with perf := Vector.replicate 16 0 } }

end Sys2Proof.Machine
end

