-- ==== Sys2Proof/Machine/EventsCube.lean ====
section
/-! DEFINITION. Events of a cube as a whole: the task system's steps (R348-R359, R417), refresh (R257, R258), the Stove's
tables (R214, R243, R256, R401, R403), the host port (R286, R393, R394, R453), reset, power and recovery (R450-R458). -/

namespace Sys2Proof.Machine

open Sys2Proof

/-! ### Task packets (R16-R18, R348, R353) -/

/-- The body that Stove core 0 validates: for a packet of the host, the slot as it stands (R393). -/
def packetNow (s : State) (f : Flight) (p : BitVec 1024) : BitVec 1024 :=
  match f.src with
  | .host cube k => (assoc (s.cube cube).slots k).getD 0
  | _ => p

/-- Whether a cube takes task packets: it is READY (R451), and no removal of it has begun (R389 step 1). -/
def takesPackets (s : State) (cube : Nat) : Bool :=
  (s.cube cube).stove.ready && !(s.removal.any fun r => r.cube == cube)

/-- Validates a packet that has arrived (R348): refused, or ranked and in the ingress buffer with the request that its
admission will answer. A copy of one that waits there is a duplicate (R18, R382). A GRAPH packet waits while a home makes
the Stove wait for its tables (R281). -/
def receivePacket (s : State) (f : Flight) (p : BitVec 1024) (valid : Bool) : State :=
  let cube := f.cube
  if (s.unadmitted fun x => x.ord == f.ord).isSome then (s.land f.num).errCount cube 9
  else if !takesPackets s cube || 64 ≤ (s.cube cube).ingress.length then refuseRoom s f
  else if !valid then refuse_ (s.errCount cube 4) f (some codeCheckFailed)
  else
    let p := packetNow s f p
    if pOp p = 2 && launchHeld s cube p then s
    else match validate s cube (ignoredBits (partnerIgnore s f)) p with
      | .error c => refuse_ (notifyRefusal (s.errCount cube 4) cube p c) f (some c)
      | .ok (t, place) =>
        rankIn (t.land f.num) cube { packet := p, rank := 0, arrival := 0, node := none, auto := none }
          (some { f with body := .admission place })

/-- TASK_PACKET (R348). -/
def execTaskPacket (num : Nat) := requestEvent num
  (fun b => match b with
    | .packet _ _ _ => true
    | _ => false)
  fun f s => match f.body with
    | .packet p _ valid => receivePacket s f p valid
    | _ => s

/-- What was read ahead for a node's entry is used (R405). -/
def doneReading (s : State) (cube : Nat) (e : PifoEntry) : State :=
  match e.node with
  | some (slot, k) => dropEarly s cube (nodeKey slot k)
  | none => s

/-- PIFO_ADMISSION (R353): the oldest packet of the ingress buffer enters the PIFO with the next arrival number; the
admission reply goes to its sender. The records of an AUTO node are read now, once their homes let them be (R342). -/
def execPifoAdmission (cube : Nat) := cubeEvent cube fun s =>
  let q := s.cube cube
  match q.ingress with
  | [] => refill s cube
  | (e, f) :: l =>
    if 4096 ≤ q.pifo.length || (e.node.isSome && e.auto.isNone && entryHeld s cube e) then s
    else
      let e := { e with arrival := q.arrivals, auto := admitAuto s cube e }
      let t := (doneReading s cube e).modCube cube fun q => { q with
        ingress := l, pifo := q.pifo ++ [e], arrivals := q.arrivals + 1 }
      let t := refill t cube
      match f with
      | some f => t.reply f f.body
      | none => t

/-! ### Dispatch (R19-R22, R354, R410) -/

/-- A GRAPH packet is given to the walker (R354, R356). -/
def giveLaunch (s : State) (cube : Nat) (p : BitVec 1024) : State :=
  match (s.cube cube).graphs.find? fun g => g.launches.any fun l => l.packet == p && !l.given with
  | none => s
  | some g =>
    let i := g.launches.findIdx fun l => l.packet == p && !l.given
    let s := s.setGraph cube { g with launches := g.launches.modify i fun l => { l with given := true } }
    endLaunches cube g.slot 6 (startLaunch s cube g.slot)

/-- What the dispatcher makes of the head: placed, or not yet with whether any place would do. -/
inductive Placed where
  | done (s : State)
  /-- this rectangle is not free, another is -/
  | elsewhere
  | waits

/-- The outcome of a placement on one rectangle of a shape. -/
def onRect (s : State) (cube rows cols : Nat) (r : Option State) : Placed :=
  match r with
  | some t => .done t
  | none => if anyRect s cube rows cols && (freeGroupNum (s.cube cube)).isSome then .elsewhere else .waits

/-- The outcome of a placement that asks for no rectangle. -/
def onUnit (r : Option State) : Placed :=
  match r with
  | some t => .done t
  | none => .waits

/-- Places a gang node (R410). -/
def placeTemplate (s : State) (cube h0 k0 : Nat) (p : BitVec 1024) (obj : Word) (slot k : Nat) : Placed :=
  match dispatchTemplate s cube h0 k0 p obj slot k with
  | some t => .done t
  | none => match templateShape s p obj with
    | some (rows, cols) => onRect s cube rows cols none
    | none => .waits

/-- Places a refinement run (R419). -/
def placeRefine (s : State) (cube h0 k0 : Nat) (r : Run) : Placed :=
  onRect s cube r.shape.1 r.shape.2 (placeRun s cube h0 k0 r)

/-- Places a node by its type (R354, R410). An AUTO node whose evaluation gave a status ends with it (R244, R342, R404). -/
def placeNode (s : State) (cube h0 k0 : Nat) (e : PifoEntry) (slot k : Nat) : Placed :=
  let fault := Placed.done (reportDone s cube (some (.node slot k)) statusFaulted)
  match (s.graph cube slot).bind GraphSlot.job with
  | some r => placeRefine s cube h0 k0 r
  | none => match nodeOfEntry s cube e with
    | none => fault
    | some (g, _, x) =>
      let p := g.packet
      let segs := pSegs p
      let asid := pAsid p
      let obj := nodeObj x
      match graphOf s cube p with
      | none => fault
      | some (h, _, _) =>
        if !nodeOk h x then fault
        else match nodeType x with
          | 0 => placeTemplate s cube h0 k0 p obj slot k
          | 1 => onUnit (dispatchCopy s cube asid segs obj (.node slot k))
          | 2 => match dBytes s (dispatcherOf asid) segs obj 0 24 with
            | none => fault
            | some b => onUnit (dispatchFlue s cube asid segs (blockWord b 0) (blockWord b 1) (blockWord b 2) slot k)
          | 3 => match dBytes s (dispatcherOf asid) segs obj 0 64, e.auto with
            | _, some (.inl status) => .done (reportDone s cube (some (.node slot k)) status)
            | some b, some (.inr true) =>
              onUnit (dispatchFlue s cube asid segs (blockWord b 4) (blockWord b 5) (blockWord b 2) slot k)
            | some b, some (.inr false) => placeTemplate s cube h0 k0 p (blockWord b 3) slot k
            | _, none | none, _ => fault
          | _ => match nodeRun s cube p obj slot k with
            | none => fault
            | some r => placeRefine s cube h0 k0 r

/-- Places the head by its opcode (R354). -/
def placeHead (s : State) (cube h0 k0 : Nat) (e : PifoEntry) : Placed :=
  let p := e.packet
  match e.node with
  | some (slot, k) => placeNode s cube h0 k0 e slot k
  | none =>
    if pOp p = 1 then
      onRect s cube (pRows p + 1) (pCols p + 1) (launchGangAt s cube h0 k0 p (pAsid p) (packetOrigin p) 3)
    else if pOp p = 3 then onUnit (dispatchCopy s cube (pAsid p) (pSegs p) (pObj p) (packetOrigin p))
    else .done (giveLaunch s cube p)

/-- The dispatcher cannot place the head: it posts one notice for it to Stove core 1 (R19, log entry 11). -/
def noticeHead (s : State) (cube : Nat) (e : PifoEntry) : State :=
  if (s.cube cube).noticed = some e.arrival then s
  else (s.noticeOf cube 1 noticePlacement e.arrival).modCube cube fun q => { q with noticed := some e.arrival }

/-- Whether the dispatcher stands still: its placement notice waits for room in the mailbox (R373). -/
def dispatcherHeld (q : Cube) : Bool := q.stove.heldNotices.any fun n => n.core == 1 && n.kind == noticePlacement

/-- DISPATCH (R19): the head of the PIFO is placed, on the rectangle at (h0, k0) where it needs one; where nothing can
place it, a notice goes to Stove core 1. -/
def execDispatch (cube h0 k0 : Nat) := cubeEvent cube fun s =>
  match headOf (s.cube cube) with
  | none => s
  | some e =>
    if dispatcherHeld (s.cube cube) || entryHeld s cube e then s
    else
    let t := s.modCube cube fun q => { q with pifo := q.pifo.filter fun x => x.arrival != e.arrival }
    match placeHead t cube h0 k0 e with
    | .done u => doneReading u cube e
    | .elsewhere => s
    | .waits => noticeHead s cube e

/-- NODE_COMPLETION (R358): a gang that has waited for its maps completes (R24); else the walker handles the next
completion. -/
def execNodeCompletion (cube : Nat) := cubeEvent cube fun s => (endedGang s cube).getD (walkerStep s cube)

/-- REFINEMENT_EXIT (R417). -/
def execRefinementExit (cube run : Nat) := cubeEvent cube fun s =>
  match (s.cube cube).runs.find? fun r => r.id == run with
  | some r => exitRun s r
  | none => s

/-! ### Commands to Stove cores 1 and 5 (R26, R350, R353, R456) -/

/-- INSTALL_RANK_PROGRAM (R350). -/
def execInstallRankProgram (cube : Nat) (words : List (BitVec 32)) := stoveCommand cube 1 0x0101 fun s =>
  if words.length = 16 then some (s.modStove cube fun t => { t with rank := words }) else none

/-- SET_QUANTUM (R26). -/
def execSetQuantum (cube quantum : Nat) := stoveCommand cube 1 0x0101 fun s =>
  if 2 ^ 12 ≤ quantum && quantum ≤ 2 ^ 24 then some (s.modStove cube fun t => { t with quantum := quantum }) else none

/-- WITHDRAW_PACKET (R353): an entry of the PIFO is withdrawn and kept; naming a kept one admits it again. -/
def execWithdrawPacket (cube arrival : Nat) := stoveCommand cube 1 0x0102 fun s =>
  let mine := fun (e : PifoEntry) => e.arrival == arrival
  match (s.cube cube).pifo.find? mine with
  | some e =>
    let s := s.modCube cube fun q => { q with pifo := q.pifo.filter fun x => !mine x }
    some (s.modStove cube fun t => { t with withdrawn := t.withdrawn ++ [e] })
  | none => match (s.cube cube).stove.withdrawn.find? mine with
    | some e =>
      let s := s.modStove cube fun t => { t with withdrawn := t.withdrawn.filter fun x => !mine x }
      some (enqueueIn s cube e)
    | none => none

/-- SET_POWER_LIMIT (R456). -/
def execSetPowerLimit (cube watts : Nat) := stoveCommand cube 5 0x0501 fun s =>
  if 400 ≤ watts && watts ≤ 1100 then some (s.modStove cube fun t => { t with power := watts }) else none

/-! ### Tables that Stove cores 2 and 3 write (R214, R256, R401, R403) -/

/-- The hearths of a cube hold no instruction word (R252). -/
def dropWords (s : State) (cube : Nat) : State := s.modCube cube fun q => { q with icache := [] }

/-- WRITE_SEGMENT_DESCRIPTOR (R401): the pair's descriptor is replaced, or removed by V = 0; the stations drop what they
hold of it. -/
def execWriteSegmentDescriptor (cube : Nat) (asid seg : BitVec 16) (desc : BitVec 128) := stoveCommand cube 2 0x0201 fun s =>
  let limit := (desc.extractLsb' 64 49).toNat
  let d : SegDesc := { asid := asid, seg := seg, root := (desc.extractLsb' 17 40).toNat * 2 ^ 17, limit := limit }
  if desc.extractLsb' 1 16 ≠ 0 || desc.extractLsb' 57 7 ≠ 0 || desc.extractLsb' 113 15 ≠ 0 || 2 ^ 48 < limit then none
  else
    let rest := fun (l : List SegDesc) => l.filter fun x => !(x.asid == asid && x.seg == seg)
    let t := s.modStove cube fun t => { t with
      segs := rest t.segs ++ (if desc.getLsbD 0 then [d] else [])
      stations := t.stations.filter fun x => !(x.asid == asid && x.seg == seg) }
    some (dropWords t cube)

/-- Station k of every cube drops what it holds. -/
def dropStation (s : State) (k : Nat) : State :=
  { s with cubes := s.cubes.map fun p => (p.1, { p.2 with stove := { p.2.stove with
      stations := p.2.stove.stations.filter fun e => e.station != k } }) }

/-- A station flushes what a change of the page tables affects, and acknowledges it; with the sixteenth acknowledgement the
change is complete (R403), the hearths hold no word (R252), and the command is answered (R455). -/
def flushStation (s : State) (cube k : Nat) : State :=
  if !(s.cube cube).stove.flushing.contains k then s
  else
    let t := (dropStation s k).modStove cube fun t => { t with flushing := t.flushing.erase k }
    if !(t.cube cube).stove.flushing.isEmpty then t
    else answerCommand { t with cubes := t.cubes.map fun p => (p.1, { p.2 with icache := [] }) } cube 2 0x0201 0

/-- WRITE_PAGE_TABLE_ENTRY (R403): Stove core 2 of the entry's cube writes it at its home, once the home lets it (R281,
R286), and has the 16 stations flush. A change whose stations are still to flush comes first. -/
def execWritePageTableEntry (addr : Nat) (v : BitVec 64) :=
  let cube := addr / 2 ^ 47
  cubeEvent cube fun s =>
    let no := answerCommand s cube 2 0x0201 0x62
    if !(s.cube cube).stove.performs 2 || !(s.cube cube).stove.flushing.isEmpty then s
    else if addr % 8 ≠ 0 then no
    else match classify s cube (addr % 2 ^ 47) none false with
      | .error _ => no
      | .ok p =>
        if p.region ≠ .dram then no
        else match homeWrite s cube none p.addr ((bytesOfNat 8 v.toNat).map some) 0 with
          | .done t => t.modStove cube fun t => { t with flushing := List.range 16 }
          | .wait => s
          | _ => no

/-- BUMP_ASID_GENERATION (R256): Stove core 2 begins the change to the next generation, which each of the 16 stations has to
write, on a wrap to 0 after all of them have flushed the ASID's entries; the command says whether stale generations are
reflected (R255). One change is under way at a time, and the command is answered when it is complete. -/
def execBumpAsidGeneration (cube : Nat) (asid : BitVec 16) (reflect : Bool) := cubeEvent cube fun s =>
  let q := s.cube cube
  if !q.stove.performs 2 || q.stove.changing.isSome then s
  else
    let old := generation q asid
    let g := old + 1
    s.modStove cube fun t => { t with
      gens := (t.gens.filter fun p => p.1 != asid) ++ (if g = 0 then [] else [(asid, g)])
      changing := some { asid := asid, old := old, new := g, flush := if g = 0 then List.range 16 else []
                         stations := List.range 16 }
      reflect := (t.reflect.filter fun a => a != asid) ++ (if reflect then [asid] else []) }

/-- A station has its part in the change of a generation (R256): it flushes the ASID's entries where the generation wraps, or,
once no station has still to flush, writes the new value and acknowledges it; the sixteenth acknowledgement completes the
change, after which the hearths hold no word. -/
def writeGeneration (s : State) (cube k : Nat) : State :=
  match (s.cube cube).stove.changing with
  | none => s
  | some g =>
    if g.flush.contains k then s.modStove cube fun t => { t with
      stations := t.stations.filter fun e => !(e.station == k && e.asid == g.asid)
      changing := some { g with flush := g.flush.erase k } }
    else if !g.flush.isEmpty || !g.stations.contains k then s
    else
      let rest := g.stations.erase k
      if !rest.isEmpty then s.modStove cube fun t => { t with changing := some { g with stations := rest } }
      else answerCommand (dropWords (s.modStove cube fun t => { t with changing := none }) cube) cube 2 0x0202 0

/-- WRITE_TRAP_TABLE_ENTRY (R214). -/
def execWriteTrapTableEntry (cube : Nat) (asid : BitVec 16) (entry : BitVec 256) := stoveCommand cube 3 0x0301 fun s =>
  if entry.extractLsb' 153 103 ≠ 0 || (ttHpc entry).toNat % 4 ≠ 0 || (ttBase entry).toNat % 64 ≠ 0 then none
  else some (s.modStove cube fun t => { t with
    trapTable := (t.trapTable.filter fun x => x.1 != asid) ++ (if entry = 0 then [] else [(asid, entry)]) })

/-! ### Retired flues (R242, R243, R341) -/

/-- Retires a flue: the map and the flue-set generation switch at once and every flue is IDLE; past eight the cube is
reported failed. Data stands at the same physical addresses; requests on their way go to the new homes. -/
def retire (s : State) (cube flue : Nat) : State :=
  let k := retired (s.cube cube)
  if 8 ≤ k then logError (s.modStove cube fun t => { t with failed := true }) cube 0x71 sevFailed flue
  else
    let f := fun (e : Nat ⊕ Nat) => if e = .inl flue then Sum.inr k else e
    let t := s.modCube cube fun q => { q with
      fmap := q.fmap.map f, fgen := q.fgen + 1, flues := Vector.replicate 64 Flue.reset }
    logError ((rehome t).errCount cube 14) cube 0x70 sevDegraded flue

/-- Whether a flue of a cube is RUNNING. -/
def kernelRuns (q : Cube) : Bool := q.flues.toList.any fun u => u.st == .running

/-- Whether a flue may be retired now: it is live, and no flue of the cube is RUNNING (R341). -/
def mayRetire (q : Cube) (flue : Nat) : Bool := q.fmap.contains (.inl flue) && !kernelRuns q

/-- A retirement begins (R243, R341): the pages of the region that is about to become absent are withdrawn, and no FSTART is
admitted until the switch. They stay withdrawn (DEDUCED, log entry 80). -/
def beginRetire (s : State) (cube flue : Nat) : State :=
  s.modCube cube fun q => { q with retiring := [flue], marked := q.marked ++ [63 - retired q] }

/-- A retirement ends with the switch. -/
def endRetire (s : State) (cube flue : Nat) : State :=
  retire (s.modCube cube fun q => { q with retiring := [] }) cube flue

/-- RETIRE_FLUE (R243, R341): the retirement begins, and waits for the kernels that run; the command is answered after the
switch. -/
def execRetireFlue (cube flue : Nat) := cubeEvent cube fun s =>
  let q := s.cube cube
  if !q.stove.performs 3 then s
  else if !q.fmap.contains (.inl flue) then answerCommand s cube 3 0x0302 0x62
  else if 8 ≤ retired q then answerCommand (retire s cube flue) cube 3 0x0302 0x62
  else if !q.retiring.isEmpty && !q.retiring.contains flue then s
  else if !kernelRuns q && !q.retiring.isEmpty then answerCommand (endRetire s cube flue) cube 3 0x0302 0
  else if q.retiring.isEmpty then beginRetire s cube flue
  else s

/-! ### Refresh (R257, R258, R340) -/

/-- The bank of a storage address of a flue's units. -/
def bankOf (q : Cube) (a : Nat) : Nat := (placeDram q (a % 2 ^ 38)).2 / 2 ^ 14 % 256

/-- The units of the streams of a tile that stand in a row which it has open, or to which it has a write pending: the next
one of each stream, and one for each token that waits to be written (R340). -/
def usedUnits (u : Flue) : List StreamUnit :=
  u.ins.flatMap (List.take 1) ++ u.outs.zipIdx.flatMap fun x => x.1.take (max 1 (u.oq.getD x.2 []).length)

/-- Whether a tile uses a bank (R340). -/
def usesBank (q : Cube) (u : Flue) (bank : Nat) : Bool :=
  u.st == .running && (usedUnits u).any fun x => bankOf q x.addr == bank

/-- REFRESH (R257): a bank is under refresh; a tile that uses it freezes. -/
def execRefresh (cube flue bank : Nat) := cubeEvent cube fun s =>
  if 64 ≤ flue || 256 ≤ bank || (s.cube cube).refreshing.contains (flue, bank) then s
  else
    let t := s.modCube cube fun q => { q with refreshing := q.refreshing ++ [(flue, bank)] }
    if usesBank (s.cube cube) (s.flue cube flue) bank then freezeFlue t cube flue true else t

/-- REFRESH_END (R258): the tile resumes where it stopped once no bank that it uses is under refresh. -/
def execRefreshEnd (cube flue bank : Nat) := cubeEvent cube fun s =>
  if !(s.cube cube).refreshing.contains (flue, bank) then s
  else
    let t := s.modCube cube fun q => { q with refreshing := q.refreshing.filter fun x => x != (flue, bank) }
    let q := t.cube cube
    if q.refreshing.any fun x => x.1 == flue && usesBank q (t.flue cube flue) x.2 then t else freezeFlue t cube flue false

/-- REFRESH_RATE_CHANGE (R257). -/
def execRefreshRateChange (cube : Nat) (hot : Bool) := cubeEvent cube fun s => s.modCube cube fun q => { q with hot := hot }

/-! ### The host's memory accesses (R286, R311, R357, R394) -/

/-- The indices of the entries of a table of `n` entries at a global address that memory lists a byte of. -/
def listedEntries (s : State) (base n : Nat) : List Nat :=
  match resolveGlobal s base with
  | .error _ => []
  | .ok (c, l, i, _) => match classify s c l i false with
    | .error _ => []
    | .ok p => (s.mem.filterMap fun x =>
        if p.addr ≤ x.1 && x.1 < p.addr + 8 * n then some ((x.1 - p.addr) / 8) else none).foldl insertNat []

/-- The leaves that a table reaches, with their page sizes; a level-0 table is taken in parts of 512 entries. -/
def tableLeaves (s : State) : Nat → Nat → Nat → List (BitVec 64 × Nat)
  | 0, _, _ => []
  | n + 1, level, table =>
    (listedEntries s table 512).flatMap fun k => match readPte s (table + 8 * k) with
      | .error _ => []
      | .ok e =>
        if !e.getLsbD 0 || !pteOk e level then []
        else if e.getLsbD 1 then [(e, pageSize level)]
        else tableLeaves s n (level + 1) (pteAddr e)

/-- Whether a leaf maps a physical address of a cube, directly or through the interleave map (R239). -/
def leafMaps (m : InterleaveMap) (e : BitVec 64) (size cube l : Nat) : Bool :=
  let a := pteAddr e
  if a / 2 ^ 47 = 1023 then
    m.entries.zipIdx.any fun x =>
      let i := (((l - x.1.base) / 2 ^ m.s) * m.entries.length + x.2) * 2 ^ m.s + l % 2 ^ m.s
      x.1.cube == cube && x.1.base ≤ l && a % 2 ^ 47 ≤ i && i < a % 2 ^ 47 + size
  else a ≤ cube * 2 ^ 47 + l && cube * 2 ^ 47 + l < a + size

/-- Whether an address of a cube lies in a decide-once page of some segment (R311). -/
def inOncePage (s : State) (cube l : Nat) : Bool :=
  s.cubes.any fun p => p.2.stove.segs.any fun d =>
    let t := s.focus (p.1 * 256)
    ((List.range 32).flatMap fun k => tableLeaves t 3 0 (d.root + 4096 * k)).any fun x =>
      x.1.getLsbD 5 && leafMaps p.2.imap x.1 x.2 cube l

/-- The atoms of a host access: cube-local address and bytes in each. -/
def hostAtoms : Nat → Nat → List Byte → List (Nat × List Byte)
  | 0, _, _ => []
  | fuel + 1, a, bs =>
    if bs.isEmpty then []
    else
      let k := 32 - a % 32
      (a, bs.take k) :: hostAtoms fuel (a + k) (bs.drop k)

/-- A host write that a home refuses is reported to Stove core 3 (R311, R357). -/
def hostRefused (s : State) (cube l : Nat) : State :=
  logError (s.notice cube 3 noticeHostWrite) cube 0x75 sevDegraded (cube * 2 ^ 47 + l)

/-- The place of an atom of the host's two ranges: the cube's stacked DRAM and its second tier (R392). -/
def hostPlace (s : State) (cube a : Nat) : Option Place :=
  match classify s cube a none false with
  | .ok p => if p.region == .dram || (p.region == .tier2 && answers s p) then some p else none
  | .error _ => none

/-- A host write of a part of a poisoned atom is refused (R235): the host, which wrote, learns of it by a record
MEM_UNCORRECTABLE. DESIGN CHOICE, log entry 99: the host's own answer lies outside the machine. -/
def hostPoisoned (s : State) (cube l : Nat) : State :=
  logError (s.notice cube 3 noticePoison) cube 0x24 sevLost (cube * 2 ^ 47 + l / 32 * 32)

/-- A host write of the bytes of one atom: none where it must wait; the host's own copy is no obstacle. -/
def hostWrite (s : State) (cube : Nat) (x : Nat × List Byte) : Option State :=
  match hostPlace s cube x.1 with
  | none => some s
  | some p =>
    if inOncePage s cube x.1 then some (hostRefused s cube x.1)
    else
      let own := (s.cube cube).hosted
      let t := s.modCube cube fun q => { q with hosted := q.hosted.filter fun h => !meets (logicalAddr s p.addr) x.2.length h 32 }
      match homeWrite t cube none p.addr (x.2.map some) 0 with
      | .done u => some (u.modCube cube fun q => { q with hosted := own })
      | .busy => some (hostRefused s cube x.1)
      | .wait => none
      | .poisoned => some (hostPoisoned s cube x.1)

/-- The host writes of an access in turn: none where one must wait. -/
def hostWrites (cube : Nat) : List (Nat × List Byte) → State → Option State
  | [], s => some s
  | x :: l, s => match hostWrite s cube x with
    | some t => hostWrites cube l t
    | none => none

/-- A host read sets HB for the atoms that it takes (R264), once no home makes it wait (R257, R281). -/
def hostRead (s : State) (cube a n : Nat) : State :=
  let atoms := (List.range ((a % 32 + n + 31) / 32)).filterMap fun k =>
    let x := a / 32 * 32 + 32 * k
    (hostPlace s cube x).map fun p => (x, p)
  if atoms.any fun x => mustWait (s.cube cube) none x.2.addr 32 then s
  else s.modCube cube fun q => { q with hosted := (atoms.map fun x => cube * 2 ^ 47 + x.1).foldl insertNat q.hosted }

/-- CXL_MEM_REQUEST (R286): a host access is performed at its homes once the host has enumerated the cube. -/
def execCxlMemRequest (cube : Nat) (r : HostRequest) := cubeEvent cube fun s =>
  if !(s.cube cube).stove.ready then s
  else match r with
    | .read a n => if a + n ≤ 2 ^ 47 then hostRead s cube a n else s
    | .write a bs => if a + bs.length ≤ 2 ^ 47 then (hostWrites cube (hostAtoms (bs.length + 1) a bs) s).getD s else s

/-- The host's copy of an atom goes (R286). -/
def dropHosted (s : State) (cube atom : Nat) : State :=
  s.modCube cube fun q => { q with hosted := q.hosted.filter fun h => h != atom }

/-- BACKINV_RESPONSE (R394): the home clears HB; the write that waits may be performed. -/
def execBackinvResponse (cube atom : Nat) := cubeEvent cube fun s => dropHosted s cube atom

/-- BACKINV_TIMEOUT (R394): the home clears HB without a response, and Stove core 3 learns of it. -/
def execBackinvTimeout (cube atom : Nat) := cubeEvent cube fun s =>
  if (s.cube cube).hosted.contains atom then logError ((dropHosted s cube atom).errCount cube 10) cube 0x74 sevDegraded atom
  else s

/-! ### The windows of the host port (R393, R453-R455) -/

/-- The status of a host slot. -/
def slotStat (q : Cube) (k : Nat) : BitVec 18 := (assoc q.slotstat k).getD 0

/-- Sets the status of a host slot. -/
def setSlotStat (s : State) (cube k : Nat) (v : BitVec 18) : State :=
  s.modCube cube fun q => { q with slotstat := assocSet q.slotstat k v }

/-- Submits a host slot (R393, R16): it is BUSY, and DONE and CODE stay; its packet is routed by TARGET; one that names no
cube, or a lost one, is done at once with that code. -/
def submitSlot (s : State) (cube k : Nat) : State :=
  let p := (assoc (s.cube cube).slots k).getD 0
  match resolveGlobal s (pTarget p) with
  | .error _ => slotDone s cube k 0x20
  | .ok (c, _, i, lost) =>
    if lost then slotDone s cube k 0x23
    else
      let m := (s.cube cube).imap.mgen
      (setSlotStat s cube k (slotStat (s.cube cube) k ||| 1#18 <<< 16)).send (.host cube k) 0 .ordered cube c (stoveHome c) (i.map fun x => (x, m))
        (.packet p (some k) true)

/-- DOORBELL (R393, R451): before READY, for a BUSY slot or with a reserved bit set it is ignored and counted. A TARGET that
the interleave map resolves waits for the map of a removal (R389). -/
def execDoorbell (cube : Nat) (v : BitVec 64) := cubeEvent cube fun s =>
  let k := v.toNat % 256
  let far := pTarget ((assoc (s.cube cube).slots k).getD 0) / 2 ^ 47 = 1023
  if far && mapHeld s then s
  else if !(s.cube cube).stove.ready || 256 ≤ v.toNat || (slotStat (s.cube cube) k).getLsbD 16 then s.errCount cube 11
  else submitSlot s cube k

/-- The notice of a command. -/
def noticeCommand : Nat := 7

/-- The command codes of a Stove core (R455). -/
def commandCodes : Nat → List Nat
  | 1 => [0x0101, 0x0102]
  | 2 => [0x0201, 0x0202, 0x0203]
  | 3 => [0x0301, 0x0302]
  | 4 => [0x0401]
  | 5 => [0x0501]
  | 6 => [0x0601]
  | 7 => [0x0701]
  | _ => []

/-- A word of REQ k, or of RSP k, in a list of those that have been written (R453). -/
def windowWord (l : List (Nat × Nat × BitVec 64)) (k w : Nat) : BitVec 64 :=
  ((l.find? fun r => r.1 == k && r.2.1 == w).map fun r => r.2.2).getD 0

/-- Whether Stove core k answers a notice UNSUPPORTED at once (R455): its code is none of the core's, or bits are set that
the command leaves unused. -/
def unsupportedNotice (k : Nat) (ws : List (BitVec 64)) : Bool :=
  let n := BitVec.ofNat 512 (packNat 64 (ws.map BitVec.toNat))
  let code := n.extractLsb' 0 16
  !(commandCodes k).contains code.toNat || (n &&& Config.unusedBits code) >>> 32 != 0

/-- A write to DOOR k (R453, R455): REQ k, as it stands, is posted to mailbox k; while a command of that core is unanswered it
is ignored and counted; one that is unknown or has unused bits set is answered UNSUPPORTED. In recovery without core 6 the
boot ROM answers mailbox 6 (R452): it knows no command. -/
def ringDoor (s : State) (cube k : Nat) : State :=
  let t := (s.cube cube).stove
  if t.unanswered.contains k then s.errCount cube 11
  else
    let ws := (List.range 8).map (windowWord t.req k)
    let u := (s.notice cube k noticeCommand).modStove cube fun t => { t with
      unanswered := t.unanswered ++ [k], posted := assocSet t.posted k ws }
    let rom := t.recov && k = 6 && !t.run.getLsbD 6
    if rom || (t.performs k && unsupportedNotice k ws) then answerPosted u cube k (ws.headD 0) 0x62 else u

/-- REGISTER_WRITE (R5): a host write to a register of the windows by its access codes; in recovery only mailbox 6
answers (R452), and the ingress window takes none before READY (R451). -/
def execRegisterWrite (cube : Nat) (r : WindowReg) (v : BitVec 64) := cubeEvent cube fun s =>
  let t := (s.cube cube).stove
  let open_ := fun (k : Nat) => k < 8 && (!t.recov || k = 6)
  match r with
  | .slotWord k w =>
    if !t.ready || 256 ≤ k || 16 ≤ w then s
    else
      let p := (assoc (s.cube cube).slots k).getD 0
      s.modCube cube fun q => { q with slots := assocSet q.slots k (setPf p (64 * w) 64 v.toNat) }
  | .slotStat k =>
    if !t.ready || 256 ≤ k || !v.getLsbD 17 then s
    else setSlotStat s cube k ((slotStat (s.cube cube) k) &&& 0x1FFFF#18)
  | .reqWord k w =>
    if !open_ k || 8 ≤ w then s
    else s.modStove cube fun t => { t with req := (t.req.filter fun x => !(x.1 == k && x.2.1 == w)) ++ [(k, w, v)] }
  | .door k => if open_ k then ringDoor s cube k else s
  | .bootstat | .rspWord _ _ | .reservedDoor _ _ | .errlogWord _ | .errhead => s

/-- The value of BOOTSTAT (R454). -/
def bootstat (t : Stove) (cube : Nat) : BitVec 64 :=
  let bit := fun (b : Bool) (n : Nat) => if b then 2 ^ n else 0
  BitVec.ofNat 64 (t.run.toNat + t.fail.toNat * 2 ^ 8 + bit t.ready 16 + bit t.recov 17 + bit t.failed 18 +
    (Config.minSvn cube).toNat * 2 ^ 32)

/-- A word of ERRLOG (R453, R457): record number n stands in place n mod 64, and a place without a record reads zero. -/
def errlogWord (t : Stove) (w : Nat) : BitVec 64 :=
  match t.errlog[(t.errcount + 63 - w / 4 % 64) % 64]? with
  | some r => r.extractLsb' (64 * (w % 4)) 64
  | none => 0

/-- What the host reads at a register of its windows (R5, R393, R453, R454, R457): zero at one that is write-only or reserved, and
in recovery nothing but BOOTSTAT and mailbox 6 (R452). The read changes nothing. -/
def windowRead (s : State) (cube : Nat) (r : WindowReg) : BitVec 64 :=
  let q := s.cube cube
  let t := q.stove
  match r with
  | .bootstat => bootstat t cube
  | .rspWord k w => if t.recov && k ≠ 6 then 0 else windowWord t.rsp k w
  | .slotStat k => if t.recov then 0 else (slotStat q k).setWidth 64
  | .errlogWord w => if t.recov then 0 else errlogWord t w
  | .errhead => if t.recov then 0 else BitVec.ofNat 64 (t.errcount % 64 + t.errcount % 2 ^ 40 * 2 ^ 8)
  | .slotWord _ _ | .reqWord _ _ | .door _ | .reservedDoor _ _ => 0

/-- The registers of the DVSEC of CXL.io (R392): VERSION, and the ignore-on-receive count. -/
def dvsecVersion : Nat := 1
def dvsecIgnoreCount : Nat := 0

/-! ### Clock, power and attestation (R51, R445, R456, R458) -/

/-- One core clock cycle on a core that holds a thread (R26, R445). -/
def Core.cycle (k : Core) : Core :=
  if !k.ctx.live then k
  else
    let c := k.count 0 1
    if k.ctx.status = .waiting then c.count 11 1 else c

/-- CORE_CLOCK_CYCLE (R51, R445). -/
def execCoreClockCycle (cube : Nat) := cubeEvent cube fun s =>
  let s := s.modCube cube fun q => { q with clock := q.clock + 1 }
  { s with
    core := s.core.cycle
    cores := s.cores.map fun p => if p.1 / 256 = cube then (p.1, p.2.cycle) else p }

/-- THERMAL_CLAMP (R456): every core of the cube stops issuing. -/
def execThermalClamp (cube : Nat) := cubeEvent cube fun s => s.modCube cube fun q => { q with clamped := true }

/-- THERMAL_CLAMP_END (R456). -/
def execThermalClampEnd (cube : Nat) := cubeEvent cube fun s => s.modCube cube fun q => { q with clamped := false }

/-- CUBE_THERMAL_TRIP (R456): the record is posted, every block is held until a reset. -/
def execCubeThermalTrip (cube : Nat) := cubeEvent cube fun s =>
  (logError s cube 0x76 sevFailed cube).modCube cube fun q => { q with tripped := true }

/-- The spare cores of a cube, one bit each. -/
def spareMask (s : State) (cube : Nat) : Nat := maskOf 256 fun k => (s.getCore (cube * 256 + k)).spare

/-- The fields of an attestation report (R458) as its digest takes them, in the order that the rule names them. -/
def Report.bytes (r : Report) : List Byte :=
  bytesOfNat 32 r.nonce.toNat ++ (r.images.flatMap fun i => bytesOfNat 32 i.1.toNat ++ bytesOfNat 4 i.2.toNat) ++
  bytesOfNat 2 r.fgen.toNat ++ bytesOfNat 1 r.retired ++ bytesOfNat 32 r.spares ++ r.versions.flatMap fun v => bytesOfNat 1 v

/-- The report of a cube for a nonce (R458), with its signature under the cube's key. -/
def reportOf (s : State) (cube : Nat) (nonce : BitVec 256) : Report :=
  let q := s.cube cube
  let r : Report :=
    { nonce := nonce, images := q.stove.images, fgen := q.fgen, retired := retired q, spares := spareMask s cube
      versions := q.links.toList.map Link.ver, signature := 0 }
  { r with signature := Config.sm2Sign cube (Config.sm3 r.bytes) }

/-- ATTESTATION_REPORT (R458): the report is written to the host's buffer, which is no part of the machine; the model keeps
it (log entry 81). -/
def execAttestationReport (cube : Nat) (nonce : BitVec 256) := stoveCommand cube 6 0x0601 fun s =>
  some (s.modStove cube fun t => { t with reports := t.reports ++ [reportOf s cube nonce] })

/-! ### Reset and boot (R450-R452) -/

/-- The fields of a firmware header (R452). -/
def imgMagic (i : FirmwareImage) : BitVec 32 := i.header.extractLsb' 0 32
def imgCore (i : FirmwareImage) : Nat := (i.header.extractLsb' 32 3).toNat
def imgLen (i : FirmwareImage) : Nat := (i.header.extractLsb' 64 32).toNat
def imgSvn (i : FirmwareImage) : BitVec 32 := i.header.extractLsb' 96 32
def imgDigest (i : FirmwareImage) : BitVec 256 := i.header.extractLsb' 128 256
def imgSig (i : FirmwareImage) : BitVec 512 := i.header.extractLsb' 384 512

/-- Whether the image of Stove core k is accepted (R452). -/
def imageAccepted (cube k : Nat) (i : FirmwareImage) : Bool :=
  imgMagic i == 0x53544F56#32 && imgCore i == k && i.header.extractLsb' 35 29 == 0 && i.header.extractLsb' 896 1152 == 0 &&
  imgLen i ≤ i.code.length &&
  imgDigest i == Config.sm3 (bytesOfNat 16 (i.header.extractLsb' 0 128).toNat ++ i.code.take (imgLen i)) &&
  Config.sm2Verifies (imgDigest i) (imgSig i) && (Config.minSvn cube).toNat ≤ (imgSvn i).toNat

/-- The image that core k boots: one supplied in recovery, or the flash's. -/
def bootImage (q : Cube) (b : BootFlash) (k : Nat) : Option FirmwareImage :=
  match assoc q.supplied k with
  | some i => some i
  | none => b.images[k]?

/-- The cores whose images are accepted. -/
def verified (q : Cube) (b : BootFlash) (cube : Nat) : List Nat :=
  (List.range 8).filter fun k => match bootImage q b k with
    | some i => imageAccepted cube k i
    | none => false

/-- The cores of a cube as after reset. -/
def resetCores (s : State) (cube : Nat) : State :=
  { s with
    core := if s.me / 256 = cube then Core.reset else s.core
    cores := s.cores.filter fun p => p.1 / 256 != cube }

/-- Memory and the network as a reset of a cube leaves them: nothing stands in its stacked DRAM or scratchpads
(log entry 1), what its agents sent is gone with their sequence numbers, a request of another cube that stood in it starts
again, and a reply that stood in it is lost. -/
def resetPlace (s : State) (cube : Nat) : State :=
  let here := fun (a : Nat) => a / 2 ^ 47 = cube && (a % 2 ^ 47 < 2 ^ 38 || 2 ^ 46 ≤ a % 2 ^ 47)
  let back := fun (f : Flight) => if f.at_ = cube && f.cls != .reply then { f with at_ := f.src.place.1, waiting := false } else f
  let gone := fun (f : Flight) => f.src.place.1 = cube || (f.at_ = cube && f.cls == .reply)
  { s with
    mem := s.mem.filter fun p => !here p.1
    poison := s.poison.filter fun a => !here a
    flights := (s.flights.filter fun f => !gone f).map back
    kept := s.kept.filter fun k => k.request.src.place.1 != cube && !(k.taken && k.request.cube == cube)
    seqs := s.seqs.filter fun x => x.src.place.1 != cube }

/-- Step 1 of R450: every register of the cube has its reset value; what stays is the images
supplied in recovery and the domain's network groups, which the cube's members have left. -/
def holdCube (s : State) (cube : Nat) : State :=
  let s := resetPlace (resetCores (expelCube s cube) cube) cube
  let q := s.cube cube
  s.modCube cube fun _ => { Cube.reset cube with
    supplied := q.supplied, groups := q.groups.filter fun g => 4096 ≤ g.num }

/-- Steps 2 and 3 of R450 and recovery (R452): core 6 releases the others, so that none is released where its own image is
refused. -/
def releaseStove (s : State) (cube : Nat) (b : BootFlash) (ok : List Nat) : State :=
  let bit := fun (l : List Nat) => BitVec.ofNat 8 (l.foldl (fun x k => x + 2 ^ k) 0)
  let bad := (List.range 8).filter fun k => !ok.contains k
  let q := s.cube cube
  let imgs := (List.range 8).map fun k => match bootImage q b k with
    | some i => (imgDigest i, imgSvn i)
    | none => (0, 0)
  s.modStove cube fun t => { t with
    run := if ok.contains 6 then bit ok else 0, fail := bit bad, recov := bad.contains 6 || bad.contains 0, images := imgs }

/-- Step 4 of R450: the expanders found on the two memory ports, at most one each (R395). -/
def bootMemory (s : State) (cube : Nat) (b : BootFlash) : State :=
  let on := fun (k : Nat) => (b.expanders.filter fun e => e.port == k).take 1
  s.modCube cube fun q => { q with expanders := on 0 ++ on 1 }

/-- Step 5 of R450: spare cores and recorded flue retirements. -/
def bootSpares (s : State) (cube : Nat) (b : BootFlash) : State :=
  let spare := fun (t : State) (k : Nat) => if k < 256 then t.modCore (cube * 256 + k) fun c => { c with spare := true } else t
  let gone := fun (t : State) (f : Nat) => if mayRetire (t.cube cube) f then retire t cube f else t
  b.retired.foldl gone (b.spares.foldl spare s)

/-- The links of a cube that is reset go down, which the neighbour's Stove core 4 reports of one that was up; routes lead round
them (R376, R380). -/
def closeLinks (s : State) (cube : Nat) : State :=
  let one := fun (t : State) (d : Nat) =>
    let n := neighbourCube cube d
    let was := ((t.cube n).links[opposite d]?).any Link.up
    let t := closeLink (modLink t cube d fun l => { l with up := false, lanes := 0 }) cube d
    if was then reportLink t n (opposite d) else t
  (List.range 6).foldl one s

/-- Step 6 of R450: the links train, each once its other end does too (R451); one that cannot is down, and each end that trains
reports it (R376). -/
def bootLinks (s : State) (cube : Nat) (b : BootFlash) : State :=
  let one := fun (t : State) (d : Nat) =>
    if b.links.contains d then
      if trains t cube d then
        openLink (modLink t cube d fun l => { l with up := true, lanes := 16, ver := 1, ignore := [] }) cube d
      else t
    else ((linkEnds cube d).filter fun e => (t.cube e.1).stove.linking).foldl (fun t e => reportLink t e.1 e.2) t
  (List.range 6).foldl one (s.modStove cube fun t => { t with linking := true })

/-- Step 7 of R450: core 0 ends the host's enumeration, with what the host declared (R388, R392); READY is set unless an image
was refused (R452). -/
def bootHost (s : State) (cube : Nat) (b : BootFlash) (ok : List Nat) : State :=
  (s.modStove cube fun t => { t with ready := ok.length = 8 }).modCube cube fun q => { q with
    hostIgnore := b.hostIgnore.take 16 }

/-- POWER_ON_RESET (R450): the steps in order, each only if the ones before it complete and its core is released. -/
def execPowerOnReset (cube : Nat) (b : BootFlash) (s : State) : Host.Outcome State Fault Refusal :=
  if 640 ≤ cube then .fault .outsideDomain
  else
    let s := holdCube (s.focus (cube * 256)) cube
    let ok := verified (s.cube cube) b cube
    let s := releaseStove (closeLinks s cube) cube b ok
    let runs := fun (k : Nat) => ok.contains 6 && ok.contains k
    if !runs 2 then .next s
    else
      let s := bootMemory s cube b
      if !runs 3 then .next s
      else
        let s := bootSpares s cube b
        if !runs 4 then .next s
        else
          let s := bootLinks s cube b
          .next (if runs 0 then bootHost s cube b ok else s)

/-- RECOVERY_IMAGE_SUPPLY (R452): in recovery the host supplies an image; firmware is loaded at the next reset. -/
def execRecoveryImageSupply (cube : Nat) (image : FirmwareImage) := cubeEvent cube fun s =>
  if !(s.cube cube).stove.recov then s
  else s.modCube cube fun q => { q with supplied := assocSet q.supplied (imgCore image) image }

/-! ### What no row of the table names (log entry 89) -/

/-- Stove core 1 writes AIT (R88, R104): in this cycle its value stands. -/
def writeAit (cube : Nat) (v : BitVec 16) := cubeEvent cube fun s =>
  if !(s.cube cube).stove.performs 1 then s
  else s.modCube cube fun q => { q with ait := v, aitStove := some q.clock }

/-- Stove core 3 clears an error counter (R446). -/
def clearError (cube k : Nat) := cubeEvent cube fun s =>
  if !(s.cube cube).stove.performs 3 then s else s.modCube cube fun q => { q with errs := q.errs.setIfInBounds k 0 }

/-- The Stove writes an atom whole (R235, R312): it clears the poison, and the home orders it as any write (R281, R286). -/
def writeAtom (atom : Nat) (v : BitVec 256) :=
  let cube := atom / 2 ^ 47
  cubeEvent cube fun s =>
    if (s.cube cube).stove.run = 0 || atom % 32 ≠ 0 then s
    else match hostPlace s cube (atom % 2 ^ 47) with
      | none => s
      | some p => match homeWrite s cube none p.addr ((bytesOfNat 32 v.toNat).map some) 0 with
        | .done t => t
        | _ => s

/-- An expander stops answering, or answers again (R245). -/
def setExpander (cube port : Nat) (on : Bool) := cubeEvent cube fun s => s.modCube cube fun q => { q with
  expanders := q.expanders.map fun e => if e.port = port then { e with responds := on } else e }

/-- A hearth's instruction cache loses a line (R252). -/
def dropHearthLine (cube hearth addr : Nat) := cubeEvent cube fun s => s.modCube cube fun q => { q with
  icache := q.icache.filter fun x => !(x.1 == hearth && x.2.1 / 64 == addr / 64) }

/-- A Stove core takes the oldest notice of its mailbox (R373). -/
def takeNotice (cube core : Nat) := cubeEvent cube fun s => s.modStove cube fun t => t.take core

/-- The Stove creates a task packet (R15), which is routed by its TARGET (R16). It waits for the map of a removal where the
interleave map resolves that (R389). -/
def createPacket (cube : Nat) (p : BitVec 1024) := cubeEvent cube fun s =>
  if (s.cube cube).stove.run = 0 || (pTarget p / 2 ^ 47 = 1023 && mapHeld s) then s
  else match resolveGlobal s (pTarget p) with
    | .error _ => s
    | .ok (c, _, i, lost) =>
      let m := (s.cube cube).imap.mgen
      if lost then s
      else s.send (.stove cube 0) 0 .ordered cube c (stoveHome c) (i.map fun x => (x, m)) (.packet p none true)

/-- What a Stove core or a unit does that no row of the table names. -/
def performAction (a : Action) (s : State) : Host.Outcome State Fault Refusal :=
  match a with
  | .writeAit cube v => writeAit cube v s
  | .clearError cube k => clearError cube k s
  | .stopForError core => coreEvent core (fun s =>
      if (s.cube (core / 256)).stove.performs 3 then stopForError s core else s) s
  | .writeAtom atom v => writeAtom atom v s
  | .expander cube port on => setExpander cube port on s
  | .dropLine core addr => coreEvent core (fun s =>
      { s with core := { s.core with l1 := s.core.l1.filter fun l => l.addr != addr / 64 * 64 } }) s
  | .dropCopy core addr => coreEvent core (fun s =>
      { s with core := { s.core with once := s.core.once.filter fun l => l.addr != addr } }) s
  | .dropFetched cube hearth addr => dropHearthLine cube hearth addr s
  | .takeNotice cube core => takeNotice cube core s
  | .giveUp tid => .next (giveUpTrap tid s)
  | .deface num ver rsv => .next (defacePacket s num ver rsv)
  | .stray src dst kind => .next (strayPacket s src dst kind)
  | .discard num => .next (discardPacket s num)
  | .removal => .next (removalStep s)
  | .flush cube k => cubeEvent cube (fun s => flushStation s cube k) s
  | .writeGen cube k => cubeEvent cube (fun s => writeGeneration s cube k) s
  | .refine cube run => cubeEvent cube (fun s => match (s.cube cube).runs.find? fun r => r.id == run with
      | some r => refineStep s r
      | none => s) s
  | .createPacket cube p => createPacket cube p s
  | .damage num => .next (damagePacket s num)
  | .readAhead cube slot node addr => cubeEvent cube (fun s => readNode s cube slot node addr) s
  | .readRecord core addr => coreEvent core (fun s => readRecord s core addr) s

end Sys2Proof.Machine
end

