-- ==== Sys2Proof/Machine/Scalar.lean ====
section
/-! DEFINITION. The scalar families INT, LOG, CMP, MULD, PACK and the immediate forms (R134-R142). -/

namespace Sys2Proof.Machine

open Sys2Proof

/-! ### Shared forms -/

/-- Operand b of a three-operand scalar instruction: the operand field, or the prefix as an immediate,
sign-extended or zero-extended (R47, R134). -/
def scalarB (ext : Bool) (f : FmtA) (s : State) : Except Stop Word := readB s 1 f ext

/-- A scalar instruction of two sources (R134, R135): latency, extension of the immediate, result. -/
def scalarTwo (lat : Nat) (ext : Bool) (op : Word → Word → Word) (f : FmtA) (s : State) : Except Stop State := do
  needDst s f.d
  let x ← readScalar s 0 f.a
  let y ← scalarB ext f s
  .ok (writeScalar lat f.d (op x y) s)

/-- A scalar instruction of one source (R138). -/
def scalarOne (lat : Nat) (op : Word → Word) (f : FmtA) (s : State) : Except Stop State := do
  needDst s f.d
  needUnused s f.b
  let x ← readScalar s 0 f.a
  .ok (writeScalar lat f.d (op x) s)

/-- The value d of an immediate form: the register, or 0 when d holds 48 (R141). -/
def readD (f : FmtL) (s : State) : Except Stop Word := do
  needDst s f.d
  if f.d.toNat < 32 then readScalar s 0 f.d else .ok 0

/-- An immediate form that reads d (R141): extension of the immediate, result. -/
def immForm (v : Word) (op : Word → Word → Word) (f : FmtL) (s : State) : Except Stop State := do
  let x ← readD f s
  .ok (writeScalar 1 f.d (op x v) s)

/-- 1 or 0 (R138). -/
def bit01 (b : Bool) : Word := if b then 1 else 0

/-- The number of leading zero bits of the low `n` bits (R138). -/
def clzFrom (x : Word) : Nat → Nat
  | 0 => 0
  | k + 1 => if x.getLsbD k then 0 else 1 + clzFrom x k

/-- The number of trailing zero bits, from bit 64 - n on (R138). -/
def ctzFrom (x : Word) : Nat → Nat
  | 0 => 0
  | k + 1 => if x.getLsbD (63 - k) then 0 else 1 + ctzFrom x k

/-- The number of one bits (R138, R172). -/
def popcount (x : Word) : Nat := ((List.range 64).map fun k => if x.getLsbD k then 1 else 0).sum

/-- A shift amount: the low six bits (R137). -/
def shiftAmt (y : Word) : Nat := y.toNat % 64

/-- Signed division rounding toward zero, with R110's values: all ones for a zero divisor, the dividend
for the minimum divided by -1. -/
def divS (x y : Word) : Word := if y = 0 then BitVec.allOnes 64 else BitVec.ofInt 64 (x.toInt.tdiv y.toInt)

/-- Signed remainder with the sign of the dividend; the dividend for a zero divisor (R110). -/
def remS (x y : Word) : Word := if y = 0 then x else BitVec.ofInt 64 (x.toInt.tmod y.toInt)

/-- Unsigned division; all ones for a zero divisor (R110). -/
def divU (x y : Word) : Word := if y = 0 then BitVec.allOnes 64 else BitVec.ofNat 64 (x.toNat / y.toNat)

/-- Unsigned remainder; the dividend for a zero divisor (R110). -/
def remU (x y : Word) : Word := if y = 0 then x else BitVec.ofNat 64 (x.toNat % y.toNat)

/-! ### INT (0x01, R135) -/

/-- ADD: x + y. -/
def execAdd (f : FmtA) := issueA f (scalarTwo 1 true (fun x y => x + y) f)
/-- SUB: x - y. -/
def execSub (f : FmtA) := issueA f (scalarTwo 1 true (fun x y => x - y) f)
/-- ADDS: the signed sum, clamped. -/
def execAdds (f : FmtA) := issueA f (scalarTwo 1 true (fun x y => BitVec.ofInt 64 (satS 64 (x.toInt + y.toInt))) f)
/-- SUBS: the signed difference, clamped. -/
def execSubs (f : FmtA) := issueA f (scalarTwo 1 true (fun x y => BitVec.ofInt 64 (satS 64 (x.toInt - y.toInt))) f)
/-- MIN: the smaller as i64. -/
def execMin (f : FmtA) := issueA f (scalarTwo 1 true (fun x y => if y.toInt < x.toInt then y else x) f)
/-- MAX: the larger as i64. -/
def execMax (f : FmtA) := issueA f (scalarTwo 1 true (fun x y => if x.toInt < y.toInt then y else x) f)
/-- MINU: the smaller as n64. -/
def execMinu (f : FmtA) := issueA f (scalarTwo 1 false (fun x y => if y.toNat < x.toNat then y else x) f)
/-- MAXU: the larger as n64. -/
def execMaxu (f : FmtA) := issueA f (scalarTwo 1 false (fun x y => if x.toNat < y.toNat then y else x) f)

/-! ### LOG (0x02, R137) -/

/-- AND. -/
def execAnd (f : FmtA) := issueA f (scalarTwo 1 false (fun x y => x &&& y) f)
/-- OR. -/
def execOr (f : FmtA) := issueA f (scalarTwo 1 false (fun x y => x ||| y) f)
/-- XOR. -/
def execXor (f : FmtA) := issueA f (scalarTwo 1 false (fun x y => x ^^^ y) f)
/-- ANDN: x and not y. -/
def execAndn (f : FmtA) := issueA f (scalarTwo 1 false (fun x y => x &&& ~~~y) f)
/-- SLL. -/
def execSll (f : FmtA) := issueA f (scalarTwo 1 false (fun x y => x <<< shiftAmt y) f)
/-- SRL. -/
def execSrl (f : FmtA) := issueA f (scalarTwo 1 false (fun x y => x >>> shiftAmt y) f)
/-- SRA. -/
def execSra (f : FmtA) := issueA f (scalarTwo 1 false (fun x y => x.sshiftRight (shiftAmt y)) f)
/-- ROL. -/
def execRol (f : FmtA) := issueA f (scalarTwo 1 false (fun x y => x.rotateLeft (shiftAmt y)) f)

/-! ### CMP (0x03, R138, R139) -/

/-- CEQ. -/
def execCeq (f : FmtA) := issueA f (scalarTwo 1 true (fun x y => bit01 (x == y)) f)
/-- CNE. -/
def execCne (f : FmtA) := issueA f (scalarTwo 1 true (fun x y => bit01 (x != y)) f)
/-- CLT: signed. -/
def execClt (f : FmtA) := issueA f (scalarTwo 1 true (fun x y => bit01 (x.toInt < y.toInt)) f)
/-- CLTU: unsigned. -/
def execCltu (f : FmtA) := issueA f (scalarTwo 1 false (fun x y => bit01 (x.toNat < y.toNat)) f)

/-- SEL: x where scalar age a1 is not 0, else y (R139). -/
def selBody (f : FmtA) (s : State) : Except Stop State := do
  let q ← readA1 s 2
  scalarTwo 1 true (fun x y => if q = 0 then y else x) f s

/-- SEL. -/
def execSel (f : FmtA) := issueA f (selBody f)
/-- CLZ. -/
def execClz (f : FmtA) := issueA f (scalarOne 1 (fun x => BitVec.ofNat 64 (clzFrom x 64)) f)
/-- CTZ. -/
def execCtz (f : FmtA) := issueA f (scalarOne 1 (fun x => BitVec.ofNat 64 (ctzFrom x 64)) f)
/-- POPC. -/
def execPopc (f : FmtA) := issueA f (scalarOne 1 (fun x => BitVec.ofNat 64 (popcount x)) f)

/-! ### MULD (0x04, R136, R110) -/

/-- MUL: the low half of the product. -/
def execMul (f : FmtA) := issueA f (scalarTwo 3 true (fun x y => x * y) f)
/-- MULH: the high half of the signed product. -/
def execMulh (f : FmtA) :=
  issueA f (scalarTwo 3 true (fun x y => ((BitVec.ofInt 128 (x.toInt * y.toInt)).extractLsb' 64 64)) f)
/-- MULHU: the high half of the unsigned product. -/
def execMulhu (f : FmtA) := issueA f (scalarTwo 3 false (fun x y => BitVec.ofNat 64 (x.toNat * y.toNat / 2 ^ 64)) f)
/-- DIV. -/
def execDiv (f : FmtA) := issueA f (scalarTwo 0 true divS f)
/-- DIVU. -/
def execDivu (f : FmtA) := issueA f (scalarTwo 0 false divU f)
/-- REM. -/
def execRem (f : FmtA) := issueA f (scalarTwo 0 true remS f)
/-- REMU. -/
def execRemu (f : FmtA) := issueA f (scalarTwo 0 false remU f)

/-! ### PACK (0x05, R140) -/

/-- The element width in bits that FMT.W gives (R103, R140). -/
def packWidth (fmt : BitVec 2) : Nat := 8 * 2 ^ fmt.toNat

/-- A W-bit element read as a signed number. -/
def signedElem (w n : Nat) : Int := if n < 2 ^ (w - 1) then n else (n : Int) - 2 ^ w

/-- Applies an operation on signed elements to every pair of elements; the result is taken modulo 2^W
(R140). -/
def packOp (w : Nat) (op : Int → Int → Int) (x y : Word) : Word :=
  BitVec.ofNat 64 (packNat w ((List.range (64 / w)).map fun e =>
    (op (signedElem w (elemNat w x.toNat e)) (signedElem w (elemNat w y.toNat e)) % (2 : Int) ^ w).toNat))

/-- A packed instruction: the element width stands when it issues (R104, R140). -/
def packed (lat : Nat) (op : Nat → Int → Int → Int) (f : FmtA) (s : State) : Except Stop State :=
  let w := packWidth s.regs.fmt
  scalarTwo lat true (packOp w (op w)) f s

/-- PADD. -/
def execPadd (f : FmtA) := issueA f (packed 1 (fun _ x y => x + y) f)
/-- PSUB. -/
def execPsub (f : FmtA) := issueA f (packed 1 (fun _ x y => x - y) f)
/-- PADDS: clamped. -/
def execPadds (f : FmtA) := issueA f (packed 1 (fun w x y => satS w (x + y)) f)
/-- PSUBS: clamped. -/
def execPsubs (f : FmtA) := issueA f (packed 1 (fun w x y => satS w (x - y)) f)
/-- PMUL. -/
def execPmul (f : FmtA) := issueA f (packed 3 (fun _ x y => x * y) f)
/-- PMIN: signed. -/
def execPmin (f : FmtA) := issueA f (packed 1 (fun _ x y => if y < x then y else x) f)
/-- PMAX: signed. -/
def execPmax (f : FmtA) := issueA f (packed 1 (fun _ x y => if x < y then y else x) f)
/-- PAVG: floor((x + y + 1) / 2). -/
def execPavg (f : FmtA) := issueA f (packed 1 (fun _ x y => (x + y + 1) / 2) f)

/-! ### Immediate forms (0x10-0x1B, R141) -/

/-- ADDI. -/
def execAddi (f : FmtL) := issueL f (immForm (immS f) (fun d v => d + v) f)
/-- ANDI. -/
def execAndi (f : FmtL) := issueL f (immForm (immS f) (fun d v => d &&& v) f)
/-- ORI. -/
def execOri (f : FmtL) := issueL f (immForm (immZ f) (fun d v => d ||| v) f)
/-- XORI. -/
def execXori (f : FmtL) := issueL f (immForm (immZ f) (fun d v => d ^^^ v) f)

/-- LI: d is not read (R141). -/
def liBody (f : FmtL) (s : State) : Except Stop State := do
  needDst s f.d
  .ok (writeScalar 1 f.d (immS f) s)

/-- LI. -/
def execLi (f : FmtL) := issueL f (liBody f)
/-- SLLI. -/
def execSlli (f : FmtL) := issueL f (immForm (immZ f) (fun d v => d <<< shiftAmt v) f)
/-- SRLI. -/
def execSrli (f : FmtL) := issueL f (immForm (immZ f) (fun d v => d >>> shiftAmt v) f)
/-- SRAI. -/
def execSrai (f : FmtL) := issueL f (immForm (immZ f) (fun d v => d.sshiftRight (shiftAmt v)) f)
/-- CLTI. -/
def execClti (f : FmtL) := issueL f (immForm (immS f) (fun d v => bit01 (d.toInt < v.toInt)) f)
/-- CLTUI. -/
def execCltui (f : FmtL) := issueL f (immForm (immS f) (fun d v => bit01 (d.toNat < v.toNat)) f)
/-- CEQI. -/
def execCeqi (f : FmtL) := issueL f (immForm (immS f) (fun d v => bit01 (d == v)) f)

/-- LIPC: the instruction's address plus the immediate; d is not read (R141). -/
def lipcBody (f : FmtL) (s : State) : Except Stop State := do
  needDst s f.d
  .ok (writeScalar 1 f.d (s.curPc + immS f) s)

/-- LIPC. -/
def execLipc (f : FmtL) := issueL f (lipcBody f)

end Sys2Proof.Machine
end

