-- ==== Sys2Proof/Machine/Vector.lean ====
section
/-! DEFINITION. The vector families VINT, VLOG, VF32, VF64, VCMP, MASK, VXL, VRED, VMOV, VCVT, VUPK and VAPX
(R160-R179, R182-R184). VPK, which may append to memory, stands in VectorPack. -/

namespace Sys2Proof.Machine

open Sys2Proof

/-! ### Shared forms -/

/-- Operand b of VINT and VLOG: the register, or the prefix in every lane (R163). -/
def vectorB (signed : Bool) (f : FmtA) (s : State) : Except Stop Vec :=
  match f.p with
  | none => readVector s 1 f.b
  | some q => .ok (ofLanes fun _ => if signed then q.signExtend 32 else q.setWidth 32)

/-- Lane by lane over two vectors. -/
def mapLanes (op : Word32 → Word32 → Word32) (x y : Vec) : Vec := ofLanes fun k => op (lane x k) (lane y k)

/-- Pair by pair over two vectors. -/
def mapPairs (op : Nat → Nat → Nat) (x y : Vec) : Vec :=
  ofPairs fun j => BitVec.ofNat 64 (op (pair x j).toNat (pair y j).toNat)

/-- A lane operation on encodings. -/
def laneNat (op : Nat → Nat → Nat) (x y : Word32) : Word32 := BitVec.ofNat 32 (op x.toNat y.toNat)

/-- A lane operation on signed integers. -/
def laneInt (op : Int → Int → Int) (x y : Word32) : Word32 := BitVec.ofInt 32 (op x.toInt y.toInt)

/-- A vector instruction of two vector sources (R160). -/
def vectorTwo (lat : Nat) (signed : Bool) (op : Vec → Vec → Vec) (f : FmtA) (s : State) : Except Stop State := do
  needDst s f.d
  let x ← readVector s 0 f.a
  let y ← vectorB signed f s
  .ok (writeVector lat f.d (op x y) s)

/-- A vector instruction of one vector source. -/
def vectorOne (lat : Nat) (op : Vec → Vec) (f : FmtA) (s : State) : Except Stop State := do
  needDst s f.d
  needUnused s f.b
  let x ← readVector s 0 f.a
  .ok (writeVector lat f.d (op x) s)

/-- VFMA and VFMS: d is read as the addend and written (R169). -/
def vectorAcc (lat : Nat) (op : Vec → Vec → Vec → Vec) (f : FmtA) (s : State) : Except Stop State := do
  needDstReg s f.d
  let x ← readVector s 0 f.a
  let y ← readVector s 1 f.b
  let z ← readVector s 2 f.d
  .ok (writeVector lat f.d (op x y z) s)

/-- A compare: bit k of the mask is the test of lane k (R171). -/
def vectorCmp (lat : Nat) (test : Word32 → Word32 → Bool) (f : FmtA) (s : State) : Except Stop State := do
  needMaskDst s f.d
  let x ← readVector s 0 f.a
  let y ← readVector s 1 f.b
  .ok (writeMask lat f.d (BitVec.ofNat 64 (maskOf 64 fun k => test (lane x k) (lane y k))) s)

/-- A mask instruction of two masks (R172). -/
def maskTwo (op : Word → Word → Word) (f : FmtA) (s : State) : Except Stop State := do
  needMaskDst s f.d
  let p ← readMask s 0 f.a
  let q ← readMask s 1 f.b
  .ok (writeMask 2 f.d (op p q) s)

/-! ### VINT (0x40, R165) -/

/-- VADD.I32. -/
def execVaddI32 (f : FmtA) := issueA f (vectorTwo 2 true (mapLanes fun x y => x + y) f)
/-- VSUB.I32. -/
def execVsubI32 (f : FmtA) := issueA f (vectorTwo 2 true (mapLanes fun x y => x - y) f)
/-- VADDS.I32: clamped. -/
def execVaddsI32 (f : FmtA) := issueA f (vectorTwo 2 true (mapLanes (laneInt fun x y => satS 32 (x + y))) f)
/-- VSUBS.I32: clamped. -/
def execVsubsI32 (f : FmtA) := issueA f (vectorTwo 2 true (mapLanes (laneInt fun x y => satS 32 (x - y))) f)
/-- VMIN.I32. -/
def execVminI32 (f : FmtA) := issueA f (vectorTwo 2 true (mapLanes fun x y => if y.toInt < x.toInt then y else x) f)
/-- VMAX.I32. -/
def execVmaxI32 (f : FmtA) := issueA f (vectorTwo 2 true (mapLanes fun x y => if x.toInt < y.toInt then y else x) f)
/-- VMUL.I32. -/
def execVmulI32 (f : FmtA) := issueA f (vectorTwo 2 true (mapLanes fun x y => x * y) f)
/-- VMULH.I32: the high half of the signed product. -/
def execVmulhI32 (f : FmtA) :=
  issueA f (vectorTwo 2 true (mapLanes fun x y => (BitVec.ofInt 64 (x.toInt * y.toInt)).extractLsb' 32 32) f)

/-! ### VLOG (0x41, R166, R167) -/

/-- VAND. -/
def execVand (f : FmtA) := issueA f (vectorTwo 2 false (fun x y => x &&& y) f)
/-- VOR. -/
def execVor (f : FmtA) := issueA f (vectorTwo 2 false (fun x y => x ||| y) f)
/-- VXOR. -/
def execVxor (f : FmtA) := issueA f (vectorTwo 2 false (fun x y => x ^^^ y) f)
/-- VANDN. -/
def execVandn (f : FmtA) := issueA f (vectorTwo 2 false (fun x y => x &&& ~~~y) f)
/-- VSLL. -/
def execVsll (f : FmtA) := issueA f (vectorTwo 2 false (mapLanes fun x y => x <<< (y.toNat % 32)) f)
/-- VSRL. -/
def execVsrl (f : FmtA) := issueA f (vectorTwo 2 false (mapLanes fun x y => x >>> (y.toNat % 32)) f)
/-- VSRA. -/
def execVsra (f : FmtA) := issueA f (vectorTwo 2 false (mapLanes fun x y => x.sshiftRight (y.toNat % 32)) f)

/-- Lane k from the first vector where bit k of the selector is 1, else from the second (R166). -/
def selectLanes (q : Word) (x y : Vec) : Vec := ofLanes fun k => if q.getLsbD k then lane x k else lane y k

/-- VSEL: the selector is scalar age a1 (R167). -/
def vselBody (f : FmtA) (s : State) : Except Stop State := do
  let q ← readA1 s 2
  vectorTwo 2 true (selectLanes q) f s

/-- VSEL. -/
def execVsel (f : FmtA) := issueA f (vselBody f)

/-! ### VF32 and VF64 (0x42, 0x43, R168-R170) -/

/-- VADD.F32. -/
def execVaddF32 (f : FmtA) := issueA f (vectorTwo 4 true (mapLanes (laneNat f32.add)) f)
/-- VSUB.F32. -/
def execVsubF32 (f : FmtA) := issueA f (vectorTwo 4 true (mapLanes (laneNat f32.sub)) f)
/-- VMUL.F32. -/
def execVmulF32 (f : FmtA) := issueA f (vectorTwo 4 true (mapLanes (laneNat f32.mul)) f)
/-- Lane by lane over three vectors. -/
def mapLanes3 (op : Nat → Nat → Nat → Nat) (x y z : Vec) : Vec :=
  ofLanes fun k => BitVec.ofNat 32 (op (lane x k).toNat (lane y k).toNat (lane z k).toNat)
/-- Pair by pair over three vectors. -/
def mapPairs3 (op : Nat → Nat → Nat → Nat) (x y z : Vec) : Vec :=
  ofPairs fun k => BitVec.ofNat 64 (op (pair x k).toNat (pair y k).toNat (pair z k).toNat)
/-- VFMA.F32: x · y + z, one rounding. -/
def execVfmaF32 (f : FmtA) := issueA f (vectorAcc 4 (mapLanes3 f32.fma) f)
/-- VFMS.F32: z - x · y, one rounding. -/
def execVfmsF32 (f : FmtA) := issueA f (vectorAcc 4 (mapLanes3 f32.fnma) f)
/-- VMIN.F32 (R114). -/
def execVminF32 (f : FmtA) := issueA f (vectorTwo 4 true (mapLanes (laneNat (f32.minmax false))) f)
/-- VMAX.F32 (R114). -/
def execVmaxF32 (f : FmtA) := issueA f (vectorTwo 4 true (mapLanes (laneNat (f32.minmax true))) f)
/-- The quotient of two encodings. -/
def divEnc (g : Fmt) (x y : Nat) : Nat := g.div .rne (g.decode x) (g.decode y)
/-- VDIV.F32. -/
def execVdivF32 (f : FmtA) := issueA f (vectorTwo 0 true (mapLanes (laneNat (divEnc f32))) f)
/-- VADD.F64. -/
def execVaddF64 (f : FmtA) := issueA f (vectorTwo 6 true (mapPairs f64.add) f)
/-- VSUB.F64. -/
def execVsubF64 (f : FmtA) := issueA f (vectorTwo 6 true (mapPairs f64.sub) f)
/-- VMUL.F64. -/
def execVmulF64 (f : FmtA) := issueA f (vectorTwo 6 true (mapPairs f64.mul) f)
/-- VFMA.F64. -/
def execVfmaF64 (f : FmtA) := issueA f (vectorAcc 6 (mapPairs3 f64.fma) f)
/-- VFMS.F64. -/
def execVfmsF64 (f : FmtA) := issueA f (vectorAcc 6 (mapPairs3 f64.fnma) f)
/-- VMIN.F64. -/
def execVminF64 (f : FmtA) := issueA f (vectorTwo 6 true (mapPairs (f64.minmax false)) f)
/-- VMAX.F64. -/
def execVmaxF64 (f : FmtA) := issueA f (vectorTwo 6 true (mapPairs (f64.minmax true)) f)
/-- VDIV.F64. -/
def execVdivF64 (f : FmtA) := issueA f (vectorTwo 0 true (mapPairs (divEnc f64)) f)

/-! ### VCMP (0x44, R171) -/

/-- A test on two FP32 lanes. -/
def testF (t : FVal → FVal → Bool) (x y : Word32) : Bool := t (f32.decode x.toNat) (f32.decode y.toNat)

/-- VCEQ.F32. -/
def execVceqF32 (f : FmtA) := issueA f (vectorCmp 4 (testF FVal.eq) f)
/-- VCLT.F32. -/
def execVcltF32 (f : FmtA) := issueA f (vectorCmp 4 (testF FVal.lt) f)
/-- VCLE.F32. -/
def execVcleF32 (f : FmtA) := issueA f (vectorCmp 4 (testF fun x y => x.lt y || x.eq y) f)
/-- VCUN.F32. -/
def execVcunF32 (f : FmtA) := issueA f (vectorCmp 4 (testF fun x y => x = .nan || y = .nan) f)
/-- VCEQ.I32. -/
def execVceqI32 (f : FmtA) := issueA f (vectorCmp 2 (fun x y => x == y) f)
/-- VCLT.I32. -/
def execVcltI32 (f : FmtA) := issueA f (vectorCmp 2 (fun x y => x.toInt < y.toInt) f)
/-- VCLTU.I32. -/
def execVcltuI32 (f : FmtA) := issueA f (vectorCmp 2 (fun x y => x.toNat < y.toNat) f)
/-- VCLE.I32. -/
def execVcleI32 (f : FmtA) := issueA f (vectorCmp 2 (fun x y => x.toInt ≤ y.toInt) f)

/-! ### MASK (0x45, R172) -/

/-- MAND. -/
def execMand (f : FmtA) := issueA f (maskTwo (fun p q => p &&& q) f)
/-- MOR. -/
def execMor (f : FmtA) := issueA f (maskTwo (fun p q => p ||| q) f)
/-- MXOR. -/
def execMxor (f : FmtA) := issueA f (maskTwo (fun p q => p ^^^ q) f)
/-- MANDN. -/
def execMandn (f : FmtA) := issueA f (maskTwo (fun p q => p &&& ~~~q) f)

/-- The number of one bits of a mask. -/
def onesOf (p : Word) : Nat := ((List.range 64).map fun k => if p.getLsbD k then 1 else 0).sum

/-- The index of the lowest one bit of a mask, or 64 (R172). -/
def firstOne (p : Word) : Nat := ((List.range 64).find? fun k => p.getLsbD k).getD 64

/-- A scalar result of one mask (R172). -/
def maskToScalar (op : Word → Word) (f : FmtA) (s : State) : Except Stop State := do
  needDst s f.d
  needUnused s f.b
  let p ← readMask s 0 f.a
  .ok (writeScalar 2 f.d (op p) s)

/-- MPOP. -/
def execMpop (f : FmtA) := issueA f (maskToScalar (fun p => BitVec.ofNat 64 (onesOf p)) f)

/-- MFFS: the index in every lane. -/
def mffsBody (f : FmtA) (s : State) : Except Stop State := do
  needDst s f.d
  needUnused s f.b
  let p ← readMask s 0 f.a
  .ok (writeVector 2 f.d (ofLanes fun _ => BitVec.ofNat 32 (firstOne p)) s)

/-- MFFS. -/
def execMffs (f : FmtA) := issueA f (mffsBody f)

/-- MSET: the mask is the scalar a. -/
def msetBody (f : FmtA) (s : State) : Except Stop State := do
  needMaskDst s f.d
  needUnused s f.b
  let x ← readScalar s 0 f.a
  .ok (writeMask 2 f.d x s)

/-- MSET. -/
def execMset (f : FmtA) := issueA f (msetBody f)
/-- MGET. -/
def execMget (f : FmtA) := issueA f (maskToScalar (fun p => p) f)

/-! ### VXL (0x46, R173) -/

/-- VPERM: lane k is lane b_k[5:0] of a. -/
def execVperm (f : FmtA) := issueA f (vectorTwo 3 true (fun x y => ofLanes fun k => lane x ((lane y k).toNat % 64)) f)

/-- The source lane of each result lane of VSHUF, or none for zero (R173). -/
def shufSource (kind w k : Nat) : Option Nat :=
  match kind with
  | 0 => some ((k + w) % 64)
  | 1 => some (k ^^^ w)
  | 2 => if k + w ≤ 63 then some (k + w) else none
  | _ => if w ≤ k then some (k - w) else none

/-- VSHUF. -/
def vshufBody (f : FmtA) (s : State) : Except Stop State := do
  needDst s f.d
  let x ← readVector s 0 f.a
  let b ← readScalar s 1 f.b
  let r := ofLanes fun k => match shufSource (field b 6 2) (field b 0 6) k with
    | some j => lane x j
    | none => 0
  .ok (writeVector 3 f.d r s)

/-- VSHUF. -/
def execVshuf (f : FmtA) := issueA f (vshufBody f)

/-! ### VRED (0x47, R131, R174) -/

/-- One step of R131: element k combines with element k + w. -/
def reduceStep {α : Type} (op : α → α → α) (w : Nat) (l : List α) : List α :=
  (l.take w).zipWith op (l.drop w)

/-- The steps of R131 with the distances given; the value of the first element at the end. -/
def reduceList {α : Type} (op : α → α → α) : List Nat → List α → Option α
  | [], l => l.head?
  | w :: ws, l => reduceList op ws (reduceStep op w l)

/-- An in-vector reduction over 64 lanes (R131): the value in lane 0, +0 elsewhere (R174). -/
def reduceLanes (op : Nat → Nat → Nat) (x : Vec) : Vec :=
  BitVec.ofNat 2048 ((reduceList op [32, 16, 8, 4, 2, 1] ((List.range 64).map fun k => (lane x k).toNat)).getD 0 % 2 ^ 32)

/-- An in-vector reduction over 32 lane pairs. -/
def reducePairs (op : Nat → Nat → Nat) (x : Vec) : Vec :=
  BitVec.ofNat 2048 ((reduceList op [16, 8, 4, 2, 1] ((List.range 32).map fun k => (pair x k).toNat)).getD 0 % 2 ^ 64)

/-- Signed order on lane encodings. -/
def ltS32 (x y : Nat) : Bool := (BitVec.ofNat 32 x).toInt < (BitVec.ofNat 32 y).toInt

/-- VRSUM.F32. -/
def execVrsumF32 (f : FmtA) := issueA f (vectorOne 8 (reduceLanes f32.add) f)
/-- VRMAX.F32. -/
def execVrmaxF32 (f : FmtA) := issueA f (vectorOne 8 (reduceLanes (f32.minmax true)) f)
/-- VRMIN.F32. -/
def execVrminF32 (f : FmtA) := issueA f (vectorOne 8 (reduceLanes (f32.minmax false)) f)
/-- VRSUM.F64. -/
def execVrsumF64 (f : FmtA) := issueA f (vectorOne 8 (reducePairs f64.add) f)
/-- VRSUM.I32. -/
def execVrsumI32 (f : FmtA) := issueA f (vectorOne 8 (reduceLanes fun x y => (x + y) % 2 ^ 32) f)
/-- VRMAX.I32. -/
def execVrmaxI32 (f : FmtA) := issueA f (vectorOne 8 (reduceLanes fun x y => if ltS32 x y then y else x) f)
/-- VRMIN.I32. -/
def execVrminI32 (f : FmtA) := issueA f (vectorOne 8 (reduceLanes fun x y => if ltS32 y x then y else x) f)

/-! ### VMOV (0x48, R175, R176) -/

/-- VMOV. -/
def execVmov (f : FmtA) := issueA f (vectorOne 2 (fun x => x) f)

/-- The index of an e register: above 191 it traps ILLEGAL_OPERAND and reports the index (R90, R175). -/
def eIndex (i : Word) (s : State) : Except Stop Nat :=
  if 191 < i.toNat then trapAt s .illegalOperand i else .ok i.toNat

/-- VXGET: the result is e_i. -/
def vxgetBody (f : FmtA) (s : State) : Except Stop State := do
  needDst s f.d
  needUnused s f.b
  let i ← readScalar s 0 f.a
  let k ← eIndex i s
  let x ← readPlace s (.e k) (s.regs.e[k]?.getD 0) (Config.shortVector (freeIdx s 1))
  .ok (writeVector 2 f.d x s)

/-- VXGET. -/
def execVxget (f : FmtA) := issueA f (vxgetBody f)

/-- VXPUT: e_i becomes b; nothing is pushed. -/
def vxputBody (f : FmtA) (s : State) : Except Stop State := do
  needUnused s f.d
  let i ← readScalar s 0 f.a
  let x ← readVector s 1 f.b
  let k ← eIndex i s
  .ok (s.modCtx fun c => { c with
    regs := dirtyGrp { c.regs with e := c.regs.e.setIfInBounds k x } (2 + k / 64)
    board := boardPut c.board (.e k) 2 })

/-- VXPUT. -/
def execVxput (f : FmtA) := issueA f (vxputBody f)

/-- VINS: register d with lane b[5:0] replaced by a[31:0]. -/
def vinsBody (f : FmtA) (s : State) : Except Stop State := do
  needDstReg s f.d
  let x ← readScalar s 0 f.a
  let b ← readScalar s 1 f.b
  let z ← readVector s 2 f.d
  .ok (writeVector 2 f.d (ofLanes fun k => if k = b.toNat % 64 then x.setWidth 32 else lane z k) s)

/-- VINS. -/
def execVins (f : FmtA) := issueA f (vinsBody f)

/-- VEXT: lane b[5:0] of a as a scalar. -/
def vextBody (f : FmtA) (s : State) : Except Stop State := do
  needDst s f.d
  let x ← readVector s 0 f.a
  let b ← readScalar s 1 f.b
  .ok (writeScalar 2 f.d ((lane x (b.toNat % 64)).setWidth 64) s)

/-- VEXT. -/
def execVext (f : FmtA) := issueA f (vextBody f)

/-- VBCAST: a[31:0] in every lane. -/
def vbcastBody (f : FmtA) (s : State) : Except Stop State := do
  needDst s f.d
  needUnused s f.b
  let x ← readScalar s 0 f.a
  .ok (writeVector 2 f.d (ofLanes fun _ => x.setWidth 32) s)

/-- VBCAST. -/
def execVbcast (f : FmtA) := issueA f (vbcastBody f)

/-! ### VCVT (0x49, R177, R178) -/

/-- The seed of RSR: the cycle counter at issue (R118). -/
def rsrSeed (s : State) : Nat := ((s.cube s.myCube).clock.extractLsb' 0 32).toNat

/-- The generator value of the moving core for element j (R118). -/
def drawOf (s : State) (j : Nat) : Nat := rsrDraw (rsrSeed s) j s.myCore

/-- A conversion: the mode operand is checked, then the result is `op mode half draw source` (R177). -/
def vcvt (op : Mode → Nat → (Nat → Nat) → Vec → Vec) (f : FmtA) (s : State) : Except Stop State := do
  needDst s f.d
  let x ← readVector s 0 f.a
  let b ← readScalar s 1 f.b
  match modeOf (field b 0 3) with
  | none => trapHere s .illegalFunct
  | some m => .ok (writeVector 4 f.d (op m (field b 3 1) (drawOf s) x) s)

/-- Element e of 16 bits of half h of a vector (R178). -/
def halfElem (x : Vec) (h e : Nat) : Nat := (x.extractLsb' (1024 * h + 16 * e) 16).toNat

/-- A vector whose half h holds 64 elements of 16 bits, the other half 0 (R178). -/
def ofHalf (h : Nat) (f : Nat → Nat) : Vec :=
  BitVec.ofNat 2048 (packNat 16 ((List.range 64).map f) * 2 ^ (1024 * h))

/-- VCVT.F32.I32: 64 i32 lanes to FP32. -/
def execVcvtF32I32 (f : FmtA) := issueA f (vcvt (fun m _ d x => ofLanes fun k =>
  BitVec.ofNat 32 (f32.ofVal m (d k) (FVal.ofInt (lane x k).toInt))) f)
/-- VCVT.I32.F32: 64 FP32 lanes to i32, clamped (R120). -/
def execVcvtI32F32 (f : FmtA) := issueA f (vcvt (fun m _ d x => ofLanes fun k =>
  BitVec.ofInt 32 ((f32.decode (lane x k).toNat).toIntIn m (d k) (-2 ^ 31) (2 ^ 31 - 1))) f)
/-- VCVT.F64.F32: pair j from lane 32H + j, exact. -/
def execVcvtF64F32 (f : FmtA) := issueA f (vcvt (fun m h d x => ofPairs fun j =>
  BitVec.ofNat 64 (convert f32 f64 m (d j) (lane x (32 * h + j)).toNat)) f)
/-- VCVT.F32.F64: lane 32H + j from pair j; the other half is +0. -/
def execVcvtF32F64 (f : FmtA) := issueA f (vcvt (fun m h d x => ofLanes fun k =>
  if k / 32 = h then BitVec.ofNat 32 (convert f64 f32 m (d k) (pair x (k % 32)).toNat) else 0) f)
/-- VCVT.BF16.F32. -/
def execVcvtBf16F32 (f : FmtA) := issueA f (vcvt (fun m h d x => ofHalf h fun e =>
  convert f32 bf16 m (d e) (lane x e).toNat) f)
/-- VCVT.F32.BF16: exact. -/
def execVcvtF32Bf16 (f : FmtA) := issueA f (vcvt (fun m h d x => ofLanes fun k =>
  BitVec.ofNat 32 (convert bf16 f32 m (d k) (halfElem x h k))) f)
/-- VCVT.F16.F32. -/
def execVcvtF16F32 (f : FmtA) := issueA f (vcvt (fun m h d x => ofHalf h fun e =>
  convert f32 f16 m (d e) (lane x e).toNat) f)
/-- VCVT.F32.F16: exact. -/
def execVcvtF32F16 (f : FmtA) := issueA f (vcvt (fun m h d x => ofLanes fun k =>
  BitVec.ofNat 32 (convert f16 f32 m (d k) (halfElem x h k))) f)

/-! ### VSX: the conversion control and unpacking (0x4A, R179, R182) -/

/-- The conversion control of VSX (R179), and the outlier list's offset that follows it. -/
structure SxControl where
  sigma : Option FVal
  mode : Mode
  obase : Nat
  list : Word

/-- Reads and checks the conversion control, with SCALE_INVALID where a scale is supplied (R179, R180). With SC = 1 a pack
reads g_(k+1), the list's offset, whether or not it then collects an outlier, so that R57 counts it as a read (STALL_SHORT)
in both cases; R179 does not say so. DESIGN CHOICE, log entry 94. -/
def readControl (f : FmtA) (wantList : Bool) (s : State) : Except Stop SxControl :=
  if f.b.toNat = 48 then .ok ⟨none, .rne, 0, 0⟩
  else if 32 ≤ f.b.toNat then trapHere s .illegalOperand
  else do
    let c ← readScalar s 1 f.b
    match modeOf (field c 32 3) with
    | none => trapHere s .illegalFunct
    | some m =>
      if field c 36 4 != 0 then trapHere s .illegalFunct
      else if !c.getLsbD 35 then .ok ⟨none, m, field c 40 24, 0⟩
      else
        let sig := f32.decode (field c 0 32)
        match sig with
        | .fin false (_ + 1) _ => do
          let l ← if wantList then readG s 2 ((f.b.toNat + 1) % 32) else .ok 0
          .ok ⟨some sig, m, field c 40 24, l⟩
        | _ => trapHere s .scaleInvalid

/-- Block n of SXm in a register (R178, R182). -/
def blockOf (m : Nat) (x : Vec) (n : Nat) : Nat := (x.toNat / 2 ^ (8 * (n * sxBytes m))) % 2 ^ (8 * sxBytes m)

/-- VUPK: 64 lanes from four blocks, scaled where the control supplies a scale (R182). -/
def vupk (m : Nat) (f : FmtA) (s : State) : Except Stop State := do
  needDst s f.d
  let x ← readVector s 0 f.a
  let c ← readControl f false s
  let r := ofLanes fun k =>
    let v := sxElem m (blockOf m x (k / 16)) (k % 16)
    BitVec.ofNat 32 (match c.sigma with
      | none => f32.ofVal .rne 0 v
      | some sig => sxScaled c.mode (drawOf s k) sig v)
  .ok (writeVector 8 f.d r s)

/-- VUPK.SX2. -/
def execVupkSx2 (f : FmtA) := issueA f (vupk 2 f)
/-- VUPK.SX4. -/
def execVupkSx4 (f : FmtA) := issueA f (vupk 4 f)
/-- VUPK.SX7. -/
def execVupkSx7 (f : FmtA) := issueA f (vupk 7 f)

/-! ### VAPX (0x4B, R183) -/

/-- One function of an FP32 encoding in every lane. -/
def mapLane1 (op : Nat → Nat) (x : Vec) : Vec := ofLanes fun k => BitVec.ofNat 32 (op (lane x k).toNat)

/-- VEXP2 (R130). -/
def execVexp2 (f : FmtA) := issueA f (vectorOne 6 (mapLane1 exp2) f)
/-- VRCP: 1 / x, correctly rounded. -/
def execVrcp (f : FmtA) := issueA f (vectorOne 6 (mapLane1 fun x => f32.div .rne (.fin false 1 0) (f32.decode x)) f)
/-- VRSQRT. -/
def execVrsqrt (f : FmtA) := issueA f (vectorOne 6 (mapLane1 rsqrt32) f)
/-- VLOG2. -/
def execVlog2 (f : FmtA) := issueA f (vectorOne 6 (mapLane1 log2f32) f)

end Sys2Proof.Machine
end

