-- ==== Sys2Proof/Machine/VectorPack.lean ====
section
/-! DEFINITION. Packing of vectors into shared-exponent blocks with the append of outliers to their list
(R127, R179-R181, R408). -/

namespace Sys2Proof.Machine

open Sys2Proof

/-- The regions an outlier list may lie in (R248, R408). -/
def listRegion (r : Region) : Bool :=
  match r with
  | .dram => true
  | .spad _ w => w == 0
  | _ => false

/-- The bytes of outlier entries: index, then value with NaN canonical (R408). -/
def entryBytes (l : List (Nat × Nat)) : List Byte :=
  l.flatMap fun e => bytesOfNat 4 e.1 ++ bytesOfNat 4 (if f32.decode e.2 = .nan then 0x7FC00000 else e.2)

/-- Where a list of `n` bytes from offset `o` on lies, if it stays in one 4 KiB block of stacked DRAM, or in the RAW window of
one core, on whatever pages (R408). -/
def listPieces (s : State) (p : Place) (seg : BitVec 16) (o : Word) (n : Nat) : Option (List Piece) :=
  match p.region with
  | .dram => if o.toNat % 4096 + n ≤ 4096 then some [⟨p, o, n⟩] else none
  | _ => match footprint s s.requester seg o n .atomic listRegion with
    | .ok ps => some ps
    | .error _ => none

/-- A write without the bytes before the first one that it enables. -/
def trimWrite (w : Place × Nat × List (Option Byte) × Word) : Place × Nat × List (Option Byte) × Word :=
  let k := (w.2.2.1.takeWhile Option.isNone).length
  (w.1, w.2.1 + k, w.2.2.1.drop k, w.2.2.2 + BitVec.ofNat 64 k)

/-- The writes of an append at its home, one for each atom, all of them or none (R127). One into a launched graph's table
traps GRAPH_BUSY, and one that merges into a poisoned atom MEM_UNCORRECTABLE, both at the VPK and at the offset of the
first byte of that write: R357 names how other writes are refused and not an append, and R408 names poison in the header
alone. DESIGN CHOICE, log entry 94. -/
def appendWrite (s : State) (seg : BitVec 16) :
    State → List (Place × Nat × List (Option Byte) × Word) → Except Stop State
  | t, [] => .ok t
  | t, (p, a, bs, o) :: l =>
    match homeWrite t p.cube none a bs 0 with
    | .done t => appendWrite s seg t l
    | .wait => stall s
    | .busy => trapAccess s .graphBusy o .atomic seg
    | .poisoned => trapAccess s .memUncorrectable o .atomic seg

/-- The append of entries to the outlier list at offset `o` of seg0, with the checks of R408 in their order;
entries and count are written in one step (R127). -/
def appendOutliers (o : Word) (ents : List (Nat × Nat)) (s : State) : Except Stop State :=
  let seg := s.regs.seg[0]?.getD 0
  if o.toNat % 32 ≠ 0 then trapAccess s .misaligned o .atomic seg
  else do
    let ps ← place s seg o 32 .atomic listRegion
    match ps with
    | [] => .ok s
    | piece :: _ => do
      let piece ← settlePiece s .atomic seg piece
      let p := piece.place
      let s ← drainPair s (homeOf s p)
      if mustWait (s.cube p.cube) none p.addr 32 then stall s
      else if (s.poisoned p.addr 32).isSome then trapAccess s .memUncorrectable o .atomic seg
      else
        let count := natOfBytes (s.load p.addr 4)
        let cap := natOfBytes (s.load (p.addr + 4) 4)
        if 508 < cap || cap < count then trapAccess s .outlierFull o .atomic seg
        else match listPieces s p seg o (32 + 8 * cap) with
          | none => trapAccess s .addressRange o .atomic seg
          | some ps =>
            if cap < count + ents.length then trapAccess s .outlierFull o .atomic seg
            else do
              let bs := (bytesOfNat 4 (count + ents.length)).map some ++ List.replicate (28 + 8 * count) none ++
                (entryBytes ents).map some
              let t ← appendWrite s seg s ((writesOf bs ps).map trimWrite)
              .ok (ps.foldl (fun u q => l1DropRange u q.place.addr q.len) t)

/-- The 16 FP32 lanes of block `n`. -/
def packLanes (x : Vec) (n : Nat) : List FVal := (List.range 16).map fun i => f32.decode (lane x (16 * n + i)).toNat

/-- The register that holds four blocks (R178, R180). -/
def ofBlocks (m : Nat) (l : List Nat) : Vec := BitVec.ofNat 2048 (packNat (8 * sxBytes m) l)

/-- VPK: four blocks from 64 lanes; outliers are appended in ascending lane order (R180). -/
def vpk (m : Nat) (f : FmtA) (s : State) : Except Stop State := do
  needDst s f.d
  let x ← readVector s 0 f.a
  let c ← readControl f true s
  let draw := fun (n i : Nat) => drawOf s (16 * n + i)
  match c.sigma with
  | none =>
    .ok (writeVector 8 f.d (ofBlocks m ((List.range 4).map fun n => sxPack m c.mode (draw n) (packLanes x n))) s)
  | some sig =>
    let rs := (List.range 4).map fun n => sxPackScaled m c.mode (draw n) sig (packLanes x n)
    let r := ofBlocks m (rs.map Prod.fst)
    let outs := rs.zipIdx.flatMap fun p => p.1.2.map fun i => 16 * p.2 + i
    if outs.isEmpty then .ok (writeVector 8 f.d r s)
    else do
      let t ← appendOutliers c.list (outs.map fun k => (c.obase + k, (lane x k).toNat)) s
      .ok (writeVector 0 f.d r t)

/-- VPK_SX2 -/
def execVpkSx2 (f : FmtA) := issueA f (vpk 2 f)
/-- VPK_SX4 -/
def execVpkSx4 (f : FmtA) := issueA f (vpk 4 f)
/-- VPK_SX7 -/
def execVpkSx7 (f : FmtA) := issueA f (vpk 7 f)

end Sys2Proof.Machine
end

