-- ==== Sys2Proof/Machine/Dispatch.lean ====
section
/-! DEFINITION. One arm for each row of the opcode table: the meaning of every instruction and event. -/

namespace Sys2Proof.Machine

open Sys2Proof

/-- Executes an instruction, or performs an event. -/
def exec (i : Instr) (s : State) : Host.Outcome State Fault Refusal :=
  match i with
  | .add f => Sys2Proof.Machine.execAdd f s
  | .sub f => Sys2Proof.Machine.execSub f s
  | .adds f => Sys2Proof.Machine.execAdds f s
  | .subs f => Sys2Proof.Machine.execSubs f s
  | .min f => Sys2Proof.Machine.execMin f s
  | .max f => Sys2Proof.Machine.execMax f s
  | .minu f => Sys2Proof.Machine.execMinu f s
  | .maxu f => Sys2Proof.Machine.execMaxu f s
  | .and f => Sys2Proof.Machine.execAnd f s
  | .or f => Sys2Proof.Machine.execOr f s
  | .xor f => Sys2Proof.Machine.execXor f s
  | .andn f => Sys2Proof.Machine.execAndn f s
  | .sll f => Sys2Proof.Machine.execSll f s
  | .srl f => Sys2Proof.Machine.execSrl f s
  | .sra f => Sys2Proof.Machine.execSra f s
  | .rol f => Sys2Proof.Machine.execRol f s
  | .ceq f => Sys2Proof.Machine.execCeq f s
  | .cne f => Sys2Proof.Machine.execCne f s
  | .clt f => Sys2Proof.Machine.execClt f s
  | .cltu f => Sys2Proof.Machine.execCltu f s
  | .sel f => Sys2Proof.Machine.execSel f s
  | .clz f => Sys2Proof.Machine.execClz f s
  | .ctz f => Sys2Proof.Machine.execCtz f s
  | .popc f => Sys2Proof.Machine.execPopc f s
  | .mul f => Sys2Proof.Machine.execMul f s
  | .mulh f => Sys2Proof.Machine.execMulh f s
  | .mulhu f => Sys2Proof.Machine.execMulhu f s
  | .div f => Sys2Proof.Machine.execDiv f s
  | .divu f => Sys2Proof.Machine.execDivu f s
  | .rem f => Sys2Proof.Machine.execRem f s
  | .remu f => Sys2Proof.Machine.execRemu f s
  | .padd f => Sys2Proof.Machine.execPadd f s
  | .psub f => Sys2Proof.Machine.execPsub f s
  | .padds f => Sys2Proof.Machine.execPadds f s
  | .psubs f => Sys2Proof.Machine.execPsubs f s
  | .pmul f => Sys2Proof.Machine.execPmul f s
  | .pmin f => Sys2Proof.Machine.execPmin f s
  | .pmax f => Sys2Proof.Machine.execPmax f s
  | .pavg f => Sys2Proof.Machine.execPavg f s
  | .addi f => Sys2Proof.Machine.execAddi f s
  | .andi f => Sys2Proof.Machine.execAndi f s
  | .ori f => Sys2Proof.Machine.execOri f s
  | .xori f => Sys2Proof.Machine.execXori f s
  | .li f => Sys2Proof.Machine.execLi f s
  | .slli f => Sys2Proof.Machine.execSlli f s
  | .srli f => Sys2Proof.Machine.execSrli f s
  | .srai f => Sys2Proof.Machine.execSrai f s
  | .clti f => Sys2Proof.Machine.execClti f s
  | .cltui f => Sys2Proof.Machine.execCltui f s
  | .ceqi f => Sys2Proof.Machine.execCeqi f s
  | .lipc f => Sys2Proof.Machine.execLipc f s
  | .b f => Sys2Proof.Machine.execB f s
  | .bCond cond f => Sys2Proof.Machine.execBCond cond f s
  | .call f => Sys2Proof.Machine.execCall f s
  | .callCond cond f => Sys2Proof.Machine.execCallCond cond f s
  | .ret f => Sys2Proof.Machine.execRet f s
  | .yield f => Sys2Proof.Machine.execYield f s
  | .halt f => Sys2Proof.Machine.execHalt f s
  | .trap f => Sys2Proof.Machine.execTrap f s
  | .follow f => Sys2Proof.Machine.execFollow f s
  | .detach f => Sys2Proof.Machine.execDetach f s
  | .rejoin f => Sys2Proof.Machine.execRejoin f s
  | .rfe f => Sys2Proof.Machine.execRfe f s
  | .srd f => Sys2Proof.Machine.execSrd f s
  | .swr f => Sys2Proof.Machine.execSwr f s
  | .lpad label => Sys2Proof.Machine.execLpad label s
  | .jt x => Sys2Proof.Machine.execJt x s
  | .rep n len stride => Sys2Proof.Machine.execRep n len stride s
  | .repg c len stride => Sys2Proof.Machine.execRepg c len stride s
  | .vaddI32 f => Sys2Proof.Machine.execVaddI32 f s
  | .vsubI32 f => Sys2Proof.Machine.execVsubI32 f s
  | .vaddsI32 f => Sys2Proof.Machine.execVaddsI32 f s
  | .vsubsI32 f => Sys2Proof.Machine.execVsubsI32 f s
  | .vminI32 f => Sys2Proof.Machine.execVminI32 f s
  | .vmaxI32 f => Sys2Proof.Machine.execVmaxI32 f s
  | .vmulI32 f => Sys2Proof.Machine.execVmulI32 f s
  | .vmulhI32 f => Sys2Proof.Machine.execVmulhI32 f s
  | .vand f => Sys2Proof.Machine.execVand f s
  | .vor f => Sys2Proof.Machine.execVor f s
  | .vxor f => Sys2Proof.Machine.execVxor f s
  | .vandn f => Sys2Proof.Machine.execVandn f s
  | .vsll f => Sys2Proof.Machine.execVsll f s
  | .vsrl f => Sys2Proof.Machine.execVsrl f s
  | .vsra f => Sys2Proof.Machine.execVsra f s
  | .vsel f => Sys2Proof.Machine.execVsel f s
  | .vaddF32 f => Sys2Proof.Machine.execVaddF32 f s
  | .vsubF32 f => Sys2Proof.Machine.execVsubF32 f s
  | .vmulF32 f => Sys2Proof.Machine.execVmulF32 f s
  | .vfmaF32 f => Sys2Proof.Machine.execVfmaF32 f s
  | .vfmsF32 f => Sys2Proof.Machine.execVfmsF32 f s
  | .vminF32 f => Sys2Proof.Machine.execVminF32 f s
  | .vmaxF32 f => Sys2Proof.Machine.execVmaxF32 f s
  | .vdivF32 f => Sys2Proof.Machine.execVdivF32 f s
  | .vaddF64 f => Sys2Proof.Machine.execVaddF64 f s
  | .vsubF64 f => Sys2Proof.Machine.execVsubF64 f s
  | .vmulF64 f => Sys2Proof.Machine.execVmulF64 f s
  | .vfmaF64 f => Sys2Proof.Machine.execVfmaF64 f s
  | .vfmsF64 f => Sys2Proof.Machine.execVfmsF64 f s
  | .vminF64 f => Sys2Proof.Machine.execVminF64 f s
  | .vmaxF64 f => Sys2Proof.Machine.execVmaxF64 f s
  | .vdivF64 f => Sys2Proof.Machine.execVdivF64 f s
  | .vceqF32 f => Sys2Proof.Machine.execVceqF32 f s
  | .vcltF32 f => Sys2Proof.Machine.execVcltF32 f s
  | .vcleF32 f => Sys2Proof.Machine.execVcleF32 f s
  | .vcunF32 f => Sys2Proof.Machine.execVcunF32 f s
  | .vceqI32 f => Sys2Proof.Machine.execVceqI32 f s
  | .vcltI32 f => Sys2Proof.Machine.execVcltI32 f s
  | .vcltuI32 f => Sys2Proof.Machine.execVcltuI32 f s
  | .vcleI32 f => Sys2Proof.Machine.execVcleI32 f s
  | .mand f => Sys2Proof.Machine.execMand f s
  | .mor f => Sys2Proof.Machine.execMor f s
  | .mxor f => Sys2Proof.Machine.execMxor f s
  | .mandn f => Sys2Proof.Machine.execMandn f s
  | .mpop f => Sys2Proof.Machine.execMpop f s
  | .mffs f => Sys2Proof.Machine.execMffs f s
  | .mset f => Sys2Proof.Machine.execMset f s
  | .mget f => Sys2Proof.Machine.execMget f s
  | .vperm f => Sys2Proof.Machine.execVperm f s
  | .vshuf f => Sys2Proof.Machine.execVshuf f s
  | .vrsumF32 f => Sys2Proof.Machine.execVrsumF32 f s
  | .vrmaxF32 f => Sys2Proof.Machine.execVrmaxF32 f s
  | .vrminF32 f => Sys2Proof.Machine.execVrminF32 f s
  | .vrsumF64 f => Sys2Proof.Machine.execVrsumF64 f s
  | .vrsumI32 f => Sys2Proof.Machine.execVrsumI32 f s
  | .vrmaxI32 f => Sys2Proof.Machine.execVrmaxI32 f s
  | .vrminI32 f => Sys2Proof.Machine.execVrminI32 f s
  | .vmov f => Sys2Proof.Machine.execVmov f s
  | .vxget f => Sys2Proof.Machine.execVxget f s
  | .vxput f => Sys2Proof.Machine.execVxput f s
  | .vins f => Sys2Proof.Machine.execVins f s
  | .vext f => Sys2Proof.Machine.execVext f s
  | .vbcast f => Sys2Proof.Machine.execVbcast f s
  | .vcvtF32I32 f => Sys2Proof.Machine.execVcvtF32I32 f s
  | .vcvtI32F32 f => Sys2Proof.Machine.execVcvtI32F32 f s
  | .vcvtF64F32 f => Sys2Proof.Machine.execVcvtF64F32 f s
  | .vcvtF32F64 f => Sys2Proof.Machine.execVcvtF32F64 f s
  | .vcvtBf16F32 f => Sys2Proof.Machine.execVcvtBf16F32 f s
  | .vcvtF32Bf16 f => Sys2Proof.Machine.execVcvtF32Bf16 f s
  | .vcvtF16F32 f => Sys2Proof.Machine.execVcvtF16F32 f s
  | .vcvtF32F16 f => Sys2Proof.Machine.execVcvtF32F16 f s
  | .vpkSx2 f => Sys2Proof.Machine.execVpkSx2 f s
  | .vpkSx4 f => Sys2Proof.Machine.execVpkSx4 f s
  | .vpkSx7 f => Sys2Proof.Machine.execVpkSx7 f s
  | .vupkSx2 f => Sys2Proof.Machine.execVupkSx2 f s
  | .vupkSx4 f => Sys2Proof.Machine.execVupkSx4 f s
  | .vupkSx7 f => Sys2Proof.Machine.execVupkSx7 f s
  | .vexp2 f => Sys2Proof.Machine.execVexp2 f s
  | .vrcp f => Sys2Proof.Machine.execVrcp f s
  | .vrsqrt f => Sys2Proof.Machine.execVrsqrt f s
  | .vlog2 f => Sys2Proof.Machine.execVlog2 f s
  | .tcfg f => Sys2Proof.Machine.execTcfg f s
  | .trowin f => Sys2Proof.Machine.execTrowin f s
  | .trowout f => Sys2Proof.Machine.execTrowout f s
  | .tcolin f => Sys2Proof.Machine.execTcolin f s
  | .tcolout f => Sys2Proof.Machine.execTcolout f s
  | .tzero f => Sys2Proof.Machine.execTzero f s
  | .tfree f => Sys2Proof.Machine.execTfree f s
  | .tld f => Sys2Proof.Machine.execTld f s
  | .tst f => Sys2Proof.Machine.execTst f s
  | .tmmaBf16 f => Sys2Proof.Machine.execTmmaBf16 f s
  | .tmmaSx7 f => Sys2Proof.Machine.execTmmaSx7 f s
  | .tmmaSx4 f => Sys2Proof.Machine.execTmmaSx4 f s
  | .tmmaSx2 f => Sys2Proof.Machine.execTmmaSx2 f s
  | .gissueBf16 f => Sys2Proof.Machine.execGissueBf16 f s
  | .gissueSx7 f => Sys2Proof.Machine.execGissueSx7 f s
  | .gissueSx4 f => Sys2Proof.Machine.execGissueSx4 f s
  | .gissueSx2 f => Sys2Proof.Machine.execGissueSx2 f s
  | .taccrd f => Sys2Proof.Machine.execTaccrd f s
  | .taccwr f => Sys2Proof.Machine.execTaccwr f s
  | .tacczero f => Sys2Proof.Machine.execTacczero f s
  | .ldI8 f => Sys2Proof.Machine.execLdI8 f s
  | .ldN8 f => Sys2Proof.Machine.execLdN8 f s
  | .ldI16 f => Sys2Proof.Machine.execLdI16 f s
  | .ldN16 f => Sys2Proof.Machine.execLdN16 f s
  | .ldI32 f => Sys2Proof.Machine.execLdI32 f s
  | .ldN32 f => Sys2Proof.Machine.execLdN32 f s
  | .ld64 f => Sys2Proof.Machine.execLd64 f s
  | .st8 f => Sys2Proof.Machine.execSt8 f s
  | .st16 f => Sys2Proof.Machine.execSt16 f s
  | .st32 f => Sys2Proof.Machine.execSt32 f s
  | .st64 f => Sys2Proof.Machine.execSt64 f s
  | .vld f => Sys2Proof.Machine.execVld f s
  | .vst f => Sys2Proof.Machine.execVst f s
  | .vldm f => Sys2Proof.Machine.execVldm f s
  | .vstm f => Sys2Proof.Machine.execVstm f s
  | .vlds f => Sys2Proof.Machine.execVlds f s
  | .vsts f => Sys2Proof.Machine.execVsts f s
  | .vgath f => Sys2Proof.Machine.execVgath f s
  | .vscat f => Sys2Proof.Machine.execVscat f s
  | .pref f => Sys2Proof.Machine.execPref f s
  | .migrate f => Sys2Proof.Machine.execMigrate f s
  | .mapr f => Sys2Proof.Machine.execMapr f s
  | .unmapr f => Sys2Proof.Machine.execUnmapr f s
  | .fence f => Sys2Proof.Machine.execFence f s
  | .lda32 f => Sys2Proof.Machine.execLda32 f s
  | .lda64 f => Sys2Proof.Machine.execLda64 f s
  | .stl32 f => Sys2Proof.Machine.execStl32 f s
  | .stl64 f => Sys2Proof.Machine.execStl64 f s
  | .amoadd64 f => Sys2Proof.Machine.execAmoadd64 f s
  | .amoand64 f => Sys2Proof.Machine.execAmoand64 f s
  | .amoor64 f => Sys2Proof.Machine.execAmoor64 f s
  | .amoxor64 f => Sys2Proof.Machine.execAmoxor64 f s
  | .amomin64 f => Sys2Proof.Machine.execAmomin64 f s
  | .amomax64 f => Sys2Proof.Machine.execAmomax64 f s
  | .amoswap64 f => Sys2Proof.Machine.execAmoswap64 f s
  | .amocas64 f => Sys2Proof.Machine.execAmocas64 f s
  | .amoadd32 f => Sys2Proof.Machine.execAmoadd32 f s
  | .amoand32 f => Sys2Proof.Machine.execAmoand32 f s
  | .amoor32 f => Sys2Proof.Machine.execAmoor32 f s
  | .amoxor32 f => Sys2Proof.Machine.execAmoxor32 f s
  | .amomin32 f => Sys2Proof.Machine.execAmomin32 f s
  | .amomax32 f => Sys2Proof.Machine.execAmomax32 f s
  | .amoswap32 f => Sys2Proof.Machine.execAmoswap32 f s
  | .amocas32 f => Sys2Proof.Machine.execAmocas32 f s
  | .vamoAdd f => Sys2Proof.Machine.execVamoAdd f s
  | .vamoAnd f => Sys2Proof.Machine.execVamoAnd f s
  | .vamoOr f => Sys2Proof.Machine.execVamoOr f s
  | .vamoXor f => Sys2Proof.Machine.execVamoXor f s
  | .vamoMin f => Sys2Proof.Machine.execVamoMin f s
  | .vamoMax f => Sys2Proof.Machine.execVamoMax f s
  | .vamoFadd f => Sys2Proof.Machine.execVamoFadd f s
  | .cpy f => Sys2Proof.Machine.execCpy f s
  | .cpym f => Sys2Proof.Machine.execCpym f s
  | .cpyf f => Sys2Proof.Machine.execCpyf f s
  | .propose f => Sys2Proof.Machine.execPropose f s
  | .dread f => Sys2Proof.Machine.execDread f s
  | .dretire f => Sys2Proof.Machine.execDretire f s
  | .dinit f => Sys2Proof.Machine.execDinit f s
  | .fcfg f => Sys2Proof.Machine.execFcfg f s
  | .fstart f => Sys2Proof.Machine.execFstart f s
  | .fstop f => Sys2Proof.Machine.execFstop f s
  | .fstat f => Sys2Proof.Machine.execFstat f s
  | .spawn f => Sys2Proof.Machine.execSpawn f s
  | .send f => Sys2Proof.Machine.execSend f s
  | .recv f => Sys2Proof.Machine.execRecv f s
  | .msgwait f => Sys2Proof.Machine.execMsgwait f s
  | .fork f => Sys2Proof.Machine.execFork f s
  | .rdv f => Sys2Proof.Machine.execRdv f s
  | .glaunch f => Sys2Proof.Machine.execGlaunch f s
  | .nred f => Sys2Proof.Machine.execNred f s
  | .dep f => Sys2Proof.Machine.execDep f s
  | .mbclr f => Sys2Proof.Machine.execMbclr f s
  | .arrive f => Sys2Proof.Machine.execArrive f s
  | .arrw f => Sys2Proof.Machine.execArrw f s
  | .waitb f => Sys2Proof.Machine.execWaitb f s
  | .join f => Sys2Proof.Machine.execJoin f s
  | .leave f => Sys2Proof.Machine.execLeave f s
  | .dswait f => Sys2Proof.Machine.execDswait f s
  | .dsset f => Sys2Proof.Machine.execDsset f s
  | .cntrd f => Sys2Proof.Machine.execCntrd f s
  | .cntadd f => Sys2Proof.Machine.execCntadd f s
  | .rlaunch f => Sys2Proof.Machine.execRlaunch f s
  | .rstat f => Sys2Proof.Machine.execRstat f s
  | .powerOnReset cube b => Sys2Proof.Machine.execPowerOnReset cube b s
  | .linkTraining cube link lanes partner ignore => Sys2Proof.Machine.execLinkTraining cube link lanes partner ignore s
  | .flitReplay cube link => Sys2Proof.Machine.execFlitReplay cube link s
  | .linkDown cube link => Sys2Proof.Machine.execLinkDown cube link s
  | .packetHop num dir => Sys2Proof.Machine.execPacketHop num dir s
  | .taskPacket num => Sys2Proof.Machine.execTaskPacket num s
  | .pifoAdmission cube => Sys2Proof.Machine.execPifoAdmission cube s
  | .dispatch cube h0 k0 => Sys2Proof.Machine.execDispatch cube h0 k0 s
  | .nodeCompletion cube => Sys2Proof.Machine.execNodeCompletion cube s
  | .quantumExpiry core => Sys2Proof.Machine.execQuantumExpiry core s
  | .contextReturn tid core => Sys2Proof.Machine.execContextReturn tid core s
  | .migrationContext num => Sys2Proof.Machine.execMigrationContext num s
  | .migrateRetry core => Sys2Proof.Machine.execMigrateRetry core s
  | .replyWithData num => Sys2Proof.Machine.execReplyWithData num s
  | .acknowledgement num => Sys2Proof.Machine.execAcknowledgement num s
  | .nack num => Sys2Proof.Machine.execNack num s
  | .admissionReply num => Sys2Proof.Machine.execAdmissionReply num s
  | .retryTimeout num => Sys2Proof.Machine.execRetryTimeout num s
  | .read num ecc => Sys2Proof.Machine.execRead num ecc s
  | .write num ecc => Sys2Proof.Machine.execWrite num ecc s
  | .atomic num => Sys2Proof.Machine.execAtomic num s
  | .decideOnceRequest num => Sys2Proof.Machine.execDecideOnceRequest num s
  | .ownershipRequest num => Sys2Proof.Machine.execOwnershipRequest num s
  | .ownershipRelease num => Sys2Proof.Machine.execOwnershipRelease num s
  | .ownershipGrant num => Sys2Proof.Machine.execOwnershipGrant num s
  | .correctedError cube kind => Sys2Proof.Machine.execCorrectedError cube kind s
  | .deposit num => Sys2Proof.Machine.execDeposit num s
  | .message num => Sys2Proof.Machine.execMessage num s
  | .multicastData num => Sys2Proof.Machine.execMulticastData num s
  | .reductionContribution num => Sys2Proof.Machine.execReductionContribution num s
  | .barrierContribution num => Sys2Proof.Machine.execBarrierContribution num s
  | .barrierRelease cube group => Sys2Proof.Machine.execBarrierRelease cube group s
  | .barrierReleaseMulticast num => Sys2Proof.Machine.execBarrierReleaseMulticast num s
  | .checkpointCommit cube gang => Sys2Proof.Machine.execCheckpointCommit cube gang s
  | .coreUncorrectable core => Sys2Proof.Machine.execCoreUncorrectable core s
  | .refresh cube flue bank => Sys2Proof.Machine.execRefresh cube flue bank s
  | .refreshEnd cube flue bank => Sys2Proof.Machine.execRefreshEnd cube flue bank s
  | .refreshRateChange cube hot => Sys2Proof.Machine.execRefreshRateChange cube hot s
  | .thermalClamp cube => Sys2Proof.Machine.execThermalClamp cube s
  | .cubeThermalTrip cube => Sys2Proof.Machine.execCubeThermalTrip cube s
  | .fetchGrant core => Sys2Proof.Machine.execFetchGrant core s
  | .forwardedInstruction core => Sys2Proof.Machine.execForwardedInstruction core s
  | .waitWakeup core => Sys2Proof.Machine.execWaitWakeup core s
  | .pollRetest core => Sys2Proof.Machine.execPollRetest core s
  | .trapEntry core t => Sys2Proof.Machine.execTrapEntry core t s
  | .contextSave core => Sys2Proof.Machine.execContextSave core s
  | .trapReflection tid => Sys2Proof.Machine.execTrapReflection tid s
  | .faultService tid => Sys2Proof.Machine.execFaultService tid s
  | .interrupt core => Sys2Proof.Machine.execInterrupt core s
  | .graphBusyRefusal core => Sys2Proof.Machine.execGraphBusyRefusal core s
  | .matrixFormStart core => Sys2Proof.Machine.execMatrixFormStart core s
  | .matrixFormComplete core => Sys2Proof.Machine.execMatrixFormComplete core s
  | .gissueJointIssue core => Sys2Proof.Machine.execGissueJointIssue core s
  | .copyCommandStart core => Sys2Proof.Machine.execCopyCommandStart core s
  | .copyCommandComplete core => Sys2Proof.Machine.execCopyCommandComplete core s
  | .flueEntryStart core => Sys2Proof.Machine.execFlueEntryStart core s
  | .streamToken cube flue stream => Sys2Proof.Machine.execStreamToken cube flue stream s
  | .cellFire cube flue cell => Sys2Proof.Machine.execCellFire cube flue cell s
  | .kernelFinish cube flue => Sys2Proof.Machine.execKernelFinish cube flue s
  | .translation core seg off k => Sys2Proof.Machine.execTranslation core seg off k s
  | .pageTableWalk core seg off => Sys2Proof.Machine.execPageTableWalk core seg off s
  | .requestRemap num => Sys2Proof.Machine.execRequestRemap num s
  | .mapInstall cube m => Sys2Proof.Machine.execMapInstall cube m s
  | .cxlMemRequest cube r => Sys2Proof.Machine.execCxlMemRequest cube r s
  | .backinvResponse cube atom => Sys2Proof.Machine.execBackinvResponse cube atom s
  | .backinvTimeout cube atom => Sys2Proof.Machine.execBackinvTimeout cube atom s
  | .doorbell cube v => Sys2Proof.Machine.execDoorbell cube v s
  | .registerWrite cube r v => Sys2Proof.Machine.execRegisterWrite cube r v s
  | .refinementExit cube run => Sys2Proof.Machine.execRefinementExit cube run s
  | .installRankProgram cube words => Sys2Proof.Machine.execInstallRankProgram cube words s
  | .setQuantum cube quantum => Sys2Proof.Machine.execSetQuantum cube quantum s
  | .preempt cube gang => Sys2Proof.Machine.execPreempt cube gang s
  | .withdrawPacket cube arrival => Sys2Proof.Machine.execWithdrawPacket cube arrival s
  | .writeSegmentDescriptor cube asid seg desc => Sys2Proof.Machine.execWriteSegmentDescriptor cube asid seg desc s
  | .writePageTableEntry addr v => Sys2Proof.Machine.execWritePageTableEntry addr v s
  | .bumpAsidGeneration cube asid reflect => Sys2Proof.Machine.execBumpAsidGeneration cube asid reflect s
  | .replaceInterleaveMap cube m => Sys2Proof.Machine.execReplaceInterleaveMap cube m s
  | .writeTrapTableEntry cube asid entry => Sys2Proof.Machine.execWriteTrapTableEntry cube asid entry s
  | .retireFlue cube flue => Sys2Proof.Machine.execRetireFlue cube flue s
  | .markSpareCore core => Sys2Proof.Machine.execMarkSpareCore core s
  | .removeCube cube m => Sys2Proof.Machine.execRemoveCube cube m s
  | .setRetryTime cube cycles => Sys2Proof.Machine.execSetRetryTime cube cycles s
  | .setPowerLimit cube watts => Sys2Proof.Machine.execSetPowerLimit cube watts s
  | .attestationReport cube nonce => Sys2Proof.Machine.execAttestationReport cube nonce s
  | .stopThread core => Sys2Proof.Machine.execStopThread core s
  | .stepThread core => Sys2Proof.Machine.execStepThread core s
  | .resumeThread core => Sys2Proof.Machine.execResumeThread core s
  | .clearPerformanceCounters core => Sys2Proof.Machine.execClearPerformanceCounters core s
  | .thermalClampEnd cube => Sys2Proof.Machine.execThermalClampEnd cube s
  | .coreClockCycle cube => Sys2Proof.Machine.execCoreClockCycle cube s
  | .recoveryImageSupply cube image => Sys2Proof.Machine.execRecoveryImageSupply cube image s

end Sys2Proof.Machine
end

