-- ==== Sys2Proof/Machine/Turns.lean ====
section
/-! DEFINITION. The issue of one instruction by a sequencer (R28-R32, R66, R86, R218, R488), the moves that stand open when
the agenda is empty (log entry 11), and the placing of an instruction for the next step (log entry 10). -/

namespace Sys2Proof.Machine

open Sys2Proof

/-! ### Whether a sequencer may issue -/

/-- Whether a thread is inside an instruction that completes before any interrupt is taken: a request of it is under way
(R315), or the switch of its MAPR waits (R303). -/
def Ctx.committed (c : Ctx) : Bool := c.asked.isSome || c.wait == .mapping

/-- Whether the moving core's thread may issue at all: it runs (`mayRun`), its gang is not held (R37) or it has an instruction
to complete first, and its leader has forwarded an instruction to an attached follower (R28). -/
def mayIssue (s : State) : Bool :=
  mayRun s s.me && (!gangHeld s s.core.ctx || s.core.ctx.committed) &&
  (match s.seqr with
    | .main => !s.core.ctx.attached || !s.core.chain.isEmpty
    | e => (s.core.ctx.engine e).running && enginesMay s s.me)

/-- The moving thread with the ASID and the privilege that a load captured at its issue (R104). -/
def asIssued (p : Pend) (s : State) : State :=
  s.modRegs fun r => { r with asid := p.asid, tsw := tswSet r.tsw 0 p.priv }

/-- Where a load that is sent again reads (R291): the bytes of an AMO, of a part of a vector load, or of a scalar load. -/
def reloadPlace (p : Pend) (s : State) : Except Stop (List Piece) :=
  let d := p.dest
  if p.amo.isSome then place s p.seg p.off d.size .atomic atomicRegion
  else if d.vec.isSome then place s p.seg p.off d.size .load vectorAllow
  else place s p.seg p.off (scalarLen (((regionAt s p.seg p.off).map winOf).getD 0) d.size) .load (scalarAllow d.size)

/-- The request of a load at a place. -/
def reloadBody (p : Pend) (q : Place) : Body :=
  match p.amo, p.dest.vec with
  | some g, _ => .amo g q.addr p.dest
  | none, some l => .read q.addr l.win p.dest
  | none, none => .read q.addr (winOf q.region) p.dest

/-- A load or an AMO that failed at its home is sent again once its fault has been serviced (R213 step 6, log entry 6), with
what it captured at its issue (R104); its fault then may be another. -/
def reload (p : Pend) (s : State) : Host.Outcome State Fault Refusal :=
  match reloadPlace p (asIssued p s) with
  | .error (.trap t _) => finish (.error (.trap { t with pc := p.pc, epc := p.pc } s))
  | .error (.wait _) | .ok [] => .next s
  | .ok (q :: _) =>
    if !s.mayRequest (.main s.me) (homeOf s q.place) .ordered 1 then .next s
    else
      let g := (s.cube s.myCube).imap.mgen
      let t := s.send (.main s.me) s.core.ctx.tid .ordered s.myCube q.place.cube (homeOf s q.place)
        (q.place.ilv.map fun i => (i, g)) (reloadBody p q.place)
      .next (t.modCtx fun c => { c with
        unacked := if p.amo.isSome then c.unacked + 1 else c.unacked
        pend := c.pend.map fun x => if x.num = p.num then { x with num := s.numCtr, failed := false } else x })

/-- What a main sequencer meets at a boundary before its next instruction: a load to send again (R213), a refused store
(R488), then a request to stop the thread (R218), then the end of its quantum (R26). An instruction that completes before any
interrupt is no boundary. -/
def atBoundary (s : State) : Option (Host.Outcome State Fault Refusal) :=
  let c := s.core.ctx
  if s.seqr != .main || c.committed then none
  else match c.pend.find? Pend.failed with
    | some p => some (reload p s)
    | none =>
      if !c.busy.isEmpty then some (execGraphBusyRefusal s.me s)
      else if !c.pending.isEmpty then some (execInterrupt s.me s)
      else if quantumSpent s s.me then some (execQuantumExpiry s.me s)
      else none

/-! ### One instruction -/

/-- The meanings of the opcodes 0x94-0x96. -/
def execHigh (sh : Shape) (s : State) : Host.Outcome State Fault Refusal :=
  match sh with
  | .a 0x94 0 f => execArrive f s
  | .a 0x94 1 f => execArrw f s
  | .a 0x94 2 f => execWaitb f s
  | .a 0x94 3 f => execJoin f s
  | .a 0x94 4 f => execLeave f s
  | .a 0x94 5 f => execDswait f s
  | .a 0x94 6 f => execDsset f s
  | .a 0x95 0 f => execCntrd f s
  | .a 0x95 1 f => execCntadd f s
  | .a 0x96 0 f => execRlaunch f s
  | .a 0x96 1 f => execRstat f s
  | _ => finish (trapHere s .illegalFunct)

/-- Executes what words hold: a decode fault in the order of R66, ENGINE_CLASS (R32), or the instruction. -/
def runWords (run : Shape → State → Host.Outcome State Fault Refusal) (ws : List Word32) (s : State) :
    Host.Outcome State Fault Refusal :=
  match decodeShapes ws with
  | .error e => finish (trapHere s (DecodeFault.code e))
  | .ok sh => if classAllows s.seqr sh then run sh s else finish (trapHere s .engineClass)

/-- Whether an instruction of core `b.me` has retired between two states: its counter 1 has moved (R445). -/
def retiredOne (b t : State) : Bool := (t.getCore b.me).perf[1] != b.core.perf[1]

/-- After a followed instruction: it leaves the follower's chain, and the follower detaches where its next pc is not
the leader's (R146). -/
def followerStep (b t : State) : State :=
  match b.core.chain with
  | [] => t
  | (pc, _) :: l =>
    if !b.core.ctx.attached then t
    else t.modCore b.me fun k =>
      if k.ctx.tid != b.core.ctx.tid || !k.ctx.attached then k
      else if k.ctx.regs.pc = pc then { k with chain := l } else Core.detach k

/-- After a leader's instruction: it is forwarded to the followers that were and are attached (R28). -/
def leaderStep (b t : State) (ws : List Word32) : State :=
  let pc := (t.getCore b.me).ctx.regs.pc
  let was := attachedOf b b.me
  (was.filter fun f => (t.getCore f).ctx.attached).foldl (fun t f => t.modCore f fun k => { k with chain := k.chain ++ [(pc, ws)] }) t

/-- After one instruction of a stepped thread, or its trap: it is asked to stop again (R455). -/
def stepStop (b t : State) : State :=
  if !b.core.ctx.stepOne then t
  else
    let f := fun (c : Ctx) => { c with
      stepOne := false, pending := if c.pending.contains .stop then c.pending else c.pending ++ [.stop] }
    if retiredOne b t || (t.getCore b.me).ctx.trap.isSome then t.modThread b.core.ctx.tid f else t

/-- A leader's instruction that waits is forwarded as it starts to wait, so that its followers execute it in their turn
(R28); but a REJOIN, at which they wait with it (R153), and a MIGRATE, at which they detach (R29). -/
def leaderWaits (b t : State) (ws : List Word32) : State :=
  let k := t.getCore b.me
  let was := attachedOf b b.me
  let op := (ws.getLast?.map majorOp).getD 0
  if was.isEmpty || b.core.ctx.forwarded || k.ctx.tid != b.core.ctx.tid || k.ctx.status != .waiting || k.ctx.trap.isSome ||
      k.ctx.wait.rejoins || op = 0x75 then t
  else
    let pc := k.ctx.regs.pc + BitVec.ofNat 64 (4 * ws.length)
    let t := was.foldl (fun t f => t.modCore f fun k => { k with chain := k.chain ++ [(pc, ws)] }) t
    t.modCore b.me fun k => { k with ctx := { k.ctx with forwarded := true } }

/-- The major opcodes of the instructions that change nothing but registers of their thread, and memory only by stores that are
counted (R292). -/
def registerOp (op : Nat) : Bool :=
  (1 ≤ op && op ≤ 5) || (0x10 ≤ op && op ≤ 0x1B) || op == 0x20 || op == 0x21 || op == 0x23 || (0x3C ≤ op && op ≤ 0x3F) ||
  (0x40 ≤ op && op ≤ 0x4B) || op == 0x70 || (0x72 ≤ op && op ≤ 0x74) || op == 0x78

/-- Whether an instruction of the main sequencer has had an effect outside its thread's registers, so that a load before it
can no longer trap as if nothing after it had executed (log entry 6). -/
def outward (b t : State) (ws : List Word32) : Bool :=
  let c := b.core.ctx
  let d := (t.getCore b.me).ctx
  if d.tid != c.tid then true
  else if d.trap.isSome then d.diverged != c.diverged || [Sequencer.matrix, .copy, .flue].any fun e => (d.engine e).fault != (c.engine e).fault
  else if registerOp ((ws.getLast?.map majorOp).getD 0) then d.unacked != c.unacked || !(attachedOf b b.me).isEmpty
  else d != c

/-- After an instruction with an effect outside the registers, the loads that were outstanding before it keep nothing to put
back (log entry 6). -/
def settleUndo (b t : State) (ws : List Word32) : State :=
  let old := b.core.ctx.pend
  if (old.all fun p => p.undo.isNone) || !outward b t ws then t
  else t.modThread b.core.ctx.tid fun c => { c with
    pend := c.pend.map fun p => if old.any fun q => q.num == p.num then { p with undo := none } else p }

/-- What follows an instruction of the main sequencer beyond its own effect: the forwarding chain, a stepped thread's stop, and
what late loads keep. -/
def afterMain (b : State) (ws : List Word32) (t : State) : State :=
  let t := settleUndo b t ws
  let t :=
    if !retiredOne b t then leaderWaits b t ws
    else if b.core.ctx.forwarded then followerStep b t
    else leaderStep b (followerStep b t) ws
  stepStop b t

/-- Whether the moving sequencer stands in a polling wait (R447). -/
def pollsNow (s : State) : Bool :=
  match s.seqr with
  | .main => s.core.ctx.wait.polls
  | e => (s.core.ctx.engine e).wait.polls

/-- The outcome of an instruction with what follows it; a re-test while polling is counted (R445). -/
def afterIssue (b : State) (ws : List Word32) (o : Host.Outcome State Fault Refusal) : Host.Outcome State Fault Refusal :=
  match o with
  | .next t =>
    let t := if pollsNow b then t.modCore b.me fun k => k.count 12 1 else t
    .next { (if b.seqr = .main then afterMain b ws t else t) with word := [] }
  | .fault e => .fault e
  | .refused r => .refused r

/-- The moving sequencer fetches and executes its next instruction. -/
def runNext (run : Shape → State → Host.Outcome State Fault Refusal) (s : State) : Host.Outcome State Fault Refusal :=
  match nextWords s with
  | .error e => afterIssue s [] (finish (.error e))
  | .ok (ws, t) => afterIssue s ws (runWords run ws { t with word := ws })

/-- A held gang of which every member is back runs on (R37). -/
def unhold (s : State) : State :=
  match s.core.ctx.gang.bind (findGang s) with
  | some (cube, g) => if g.held && !gangHeld s s.core.ctx then modGang s cube g.id fun g => { g with held := false, moved := false } else s
  | none => s

/-- The state in which a turn of a sequencer begins. -/
def turnOf (core : Nat) (e : Sequencer) (later l1 : Bool) (s : State) : State :=
  { s.focus core with seqr := e, answerLater := later, useL1 := l1 }

/-- Whether the moving sequencer's instruction has only stalled, so that what it has been granted stands (R30). -/
def stalled (b t : State) : Bool :=
  let c := b.core.ctx
  let d := (t.getCore b.me).ctx
  d.tid == c.tid && match b.seqr with
    | .main => d.status == .resident && d.trap.isNone && !retiredOne b t
    | e => d.engine e == c.engine e

/-- The grant of a fetch is used by the instruction (R30). -/
def useFetch (b : State) (o : Host.Outcome State Fault Refusal) : Host.Outcome State Fault Refusal :=
  match o with
  | .next t =>
    let x := (b.me, b.core.ctx.pcOf b.seqr)
    if stalled b t || !((t.cube b.myCube).fetched.contains x) then .next t
    else .next (t.modCube b.myCube fun q => { q with fetched := q.fetched.filter fun y => y != x })
  | o => o

/-- A turn of a sequencer: what stands before its instruction, or the instruction once its hearth's port has granted the fetch
(R30); nothing where it may not issue. -/
def issueTurn (run : Shape → State → Host.Outcome State Fault Refusal) (core : Nat) (e : Sequencer) (later l1 : Bool)
    (s : State) : Host.Outcome State Fault Refusal :=
  if 163840 ≤ core then .fault .outsideDomain
  else
    let b := turnOf core e later l1 s
    if !mayRun b core then .next b
    else match atBoundary b with
      | some o => o
      | none =>
        if !mayIssue b then .next b
        else if !b.hasFetch core e then .next (awaitFetch b core)
        else useFetch b (runNext run (unhold b))

/-! ### What moves when the agenda is empty (log entry 11) -/

/-- A move: the state with its agent in focus, and its outcome. -/
abbrev Move := State × Host.Outcome State Fault Refusal

/-- A move of an agent of a core. -/
def atCore (s : State) (core : Nat) (f : State → Host.Outcome State Fault Refusal) : Move :=
  let b := s.focus core
  (b, f b)

/-- A reply is consumed by the agent that asked. -/
def replyMoves (s : State) (f : Flight) : List Move :=
  let b := focusSource s f
  match f.body with
  | .data _ _ _ _ | .copyData _ _ _ _ | .onceData _ _ => [(b, execReplyWithData f.num b)]
  | .ack _ _ | .copied _ _ _ _ => [(b, execAcknowledgement f.num b)]
  | .nack _ => [(b, execNack f.num b)]
  | .admission _ => [(b, execAdmissionReply f.num b)]
  | .grant _ _ _ => [(b, execOwnershipGrant f.num b)]
  | _ => []

/-- A request that has arrived is performed. -/
def performMove (b : State) (f : Flight) : List Move :=
  match f.body with
  | .read _ _ _ | .copyRead _ _ _ _ | .barrierRead _ => [(b, execRead f.num false b)]
  | .write _ _ _ _ => [(b, execWrite f.num false b)]
  | .atomic _ _ _ _ | .amo _ _ _ => [(b, execAtomic f.num b)]
  | .once _ _ _ _ => [(b, execDecideOnceRequest f.num b)]
  | .ownRequest _ _ _ => [(b, execOwnershipRequest f.num b)]
  | .ownRelease _ _ => [(b, execOwnershipRelease f.num b)]
  | .multicast _ _ _ _ => [(b, execMulticastData f.num b)]
  | .deposit _ _ => [(b, execDeposit f.num b)]
  | .message _ _ => [(b, execMessage f.num b)]
  | .packet _ _ _ => [(b, execTaskPacket f.num b)]
  | .context _ _ => [(b, execMigrationContext f.num b)]
  | .contribution _ _ | .partialSum _ _ _ => [(b, execReductionContribution f.num b)]
  | .barrier _ _ => [(b, execBarrierContribution f.num b)]
  | .release _ _ => [(b, execBarrierReleaseMulticast f.num b)]
  | .data _ _ _ _ => [(b, execReplyWithData f.num b)]
  | _ => []

/-- The host answers a snoop for an atom that a waiting write meets (R286). -/
def snoopMoves (s : State) (f : Flight) : List Move :=
  match f.body.addr with
  | none => []
  | some a => ((s.cube f.cube).hosted.filter fun h => meets (logicalAddr s a) 32 h 32).map fun h =>
      atCore s (f.cube * 256) (execBackinvResponse f.cube h)

/-- The hops that a packet may make; where it has no way left, its request is sent again. -/
def hopMoves (s : State) (f : Flight) : List Move :=
  match (List.range 6).filter (mayHop s f) with
  | [] => if f.waiting then [] else
      let b := focusSource s f
      [(b, execRetryTimeout f.num b)]
  | l => l.map fun d => (s, execPacketHop f.num d s)

/-- A reply moves on: along its route, consumed, or discarded by a receiver that does not support it. -/
def backMoves (s : State) (f : Flight) : List Move :=
  if !f.arrived then hopMoves s f
  else if !supported s f then [(s, .next (discardPacket s f.num))]
  else replyMoves s f

/-- A request whose reply was lost is sent again (R383). -/
def lostMoves (s : State) : List Move :=
  (s.kept.filter fun k => !k.taken && !(s.flights.any fun f => f.num == k.reply.num || f.ord == k.request.ord)).map fun k =>
    let b := focusSource s k.request
    (b, execRetryTimeout k.reply.num b)

/-- A request moves on: along its route, performed, resolved again, discarded by a receiver that does not support it, or sent
again where no route is left. -/
def requestMoves (s : State) (f : Flight) : List Move :=
  let b := focusSource s f
  if !f.arrived then hopMoves s f
  else if !supported s f then [(s, .next (discardPacket s f.num))]
  else if (s.cube f.cube).removed || (s.cube f.cube).unreachable || (s.cube f.cube).tripped then
    [(b, execRetryTimeout f.num b)]
  else performMove b f ++ [(b, execRequestRemap f.num b)] ++ snoopMoves s f

/-- The rectangle that the dispatcher tries: the first free one of a shape. -/
def firstRect (s : State) (cube rows cols : Nat) : Nat × Nat :=
  (((List.range 32).flatMap fun h => (List.range 8).map fun k => (h, k)).find? fun x => rectFree s cube x.1 x.2 rows cols).getD (0, 0)

/-- The shape of the PIFO head's work. -/
def headShape (s : State) (cube : Nat) (e : PifoEntry) : Nat × Nat :=
  match e.node with
  | none => (pRows e.packet + 1, pCols e.packet + 1)
  | some (slot, _) => match (s.graph cube slot).bind GraphSlot.job with
    | some r => r.shape
    | none => match nodeOfEntry s cube e with
      | none => (1, 1)
      | some (g, k, x) =>
        let p := g.packet
        let obj := nodeObj x
        match nodeType x with
        | 0 => (templateShape s p obj).getD (1, 1)
        | 3 => ((dBytes s (dispatcherOf (pAsid p)) (pSegs p) obj 0 64).bind fun b => templateShape s p (blockWord b 3)).getD (1, 1)
        | 4 => ((nodeRun s cube p obj slot k).map Run.shape).getD (1, 1)
        | _ => (1, 1)

/-- A placement of the head; one that fails posts its notice and leaves the head in place (R19). -/
def dispatchMoves (s : State) (cube : Nat) : List Move :=
  match headOf (s.cube cube) with
  | none => []
  | some e =>
    let (rows, cols) := headShape s cube e
    let (h0, k0) := firstRect s cube rows cols
    [atCore s (cube * 256) (execDispatch cube h0 k0)]

/-- The contexts that the Stove handles: returned, resumed under the new generation, or reflected. -/
def savedMoves (s : State) (cube : Nat) : List Move :=
  (s.cube cube).stove.saved.map fun v =>
    if v.handled then atCore s v.core (execContextReturn v.ctx.tid v.core)
    else if resumesStale s cube v then atCore s (cube * 256) (execFaultService v.ctx.tid)
    else atCore s (cube * 256) (execTrapReflection v.ctx.tid)

/-- The moves of the flues of a cube. -/
def flueMoves (s : State) (cube : Nat) : List Move :=
  ((List.range 64).filter fun f => (s.flue cube f).st == .running).flatMap fun f =>
    ((List.range 8).map fun k => atCore s (cube * 256) (execStreamToken cube f k)) ++
    ((List.range 16).map fun k => atCore s (cube * 256) (execCellFire cube f k)) ++
    [atCore s (cube * 256) (execKernelFinish cube f)]

/-- The host answers the snoops that the walker, the refinement controller, a kernel of a cube, its Stove or a removal's copy
waits for (R286, R394). -/
def hostMoves (s : State) (cube : Nat) : List Move :=
  let q := s.cube cube
  if q.graphs.isEmpty && q.runs.isEmpty && !kernelRuns q && q.stove.saved.isEmpty && s.removal.isNone then []
  else q.hosted.map fun h => atCore s (cube * 256) (execBackinvResponse cube h)

/-- What the Stove of a cube has under way: notices that wait for room (R373), a retirement (R341), stations to flush
(R403) or to write a generation (R256). -/
def stoveMoves (s : State) (cube : Nat) : List Move :=
  let q := s.cube cube
  let here := fun (f : State → Host.Outcome State Fault Refusal) => atCore s (cube * 256) f
  ((q.stove.heldNotices.take 1).map fun n => here (takeNotice cube n.core)) ++
  (q.retiring.map fun f => here (execRetireFlue cube f)) ++
  ((q.stove.flushing.take 1).map fun k => here (performAction (.flush cube k))) ++
  (match q.stove.changing with
    | none => []
    | some g => ((g.flush ++ g.stations).take 1).map fun k => here (performAction (.writeGen cube k)))

/-- The removal of a cube goes on, and cubes install its map (R389). -/
def removalMoves (s : State) : List Move :=
  match s.removal with
  | none => []
  | some r => (s, .next (removalStep s)) ::
      (if r.owned then ((List.range 640).filter fun c => !r.installed.contains c).map fun c =>
        atCore s (c * 256) (execMapInstall c r.map) else [])

/-- The moves of a cube's agents. -/
def cubeMoves (s : State) (cube : Nat) : List Move :=
  let q := s.cube cube
  let here := fun (f : State → Host.Outcome State Fault Refusal) => atCore s (cube * 256) f
  [here (execPifoAdmission cube)] ++ dispatchMoves s cube ++ [here (execNodeCompletion cube)] ++
  (q.runs.map fun r => here (performAction (.refine cube r.id))) ++ (q.runs.map fun r => here (execRefinementExit cube r.id)) ++ (q.gangs.map fun g => here (execCheckpointCommit cube g.id)) ++
  (q.groups.map fun g => here (execBarrierRelease cube g.num)) ++ savedMoves s cube ++ flueMoves s cube ++
  stoveMoves s cube ++ hostMoves s cube

/-- The moves of a core's engines, and the saves of its thread. -/
def engineMoves (s : State) (core : Nat) : List Move :=
  let here := fun (f : State → Host.Outcome State Fault Refusal) => atCore s core f
  [here (execContextSave core), here (execMatrixFormComplete core), here (execCopyCommandComplete core),
   here (execMatrixFormStart core), here (execGissueJointIssue core), here (execCopyCommandStart core),
   here (execFlueEntryStart core)]

/-- The turns of a core's sequencers, and the retry of a refused MIGRATE. -/
def issueMoves (run : Shape → State → Host.Outcome State Fault Refusal) (s : State) (core : Nat) : List Move :=
  ([Sequencer.matrix, .copy, .flue, .main].map fun e =>
    let b := turnOf core e false false s
    (b, issueTurn run core e false false b)) ++
  (if (s.getCore core).migrateHold then [atCore s core (execMigrateRetry core)] else [])

/-- The cores that the state lists, by number. -/
def coreOrder (s : State) : List Nat := (s.cores.map Prod.fst).foldl insertNat [s.me]

/-- Whether a move changes anything. -/
def Move.moves (m : Move) : Bool :=
  match m.2 with
  | .next t => t != m.1
  | _ => true

/-- The first move of a list that changes something. -/
def firstMove : List Move → Option (Host.Outcome State Fault Refusal)
  | [] => none
  | m :: l => if m.moves then some m.2 else firstMove l

/-- A cycle of every cube's clock. -/
def tickAll (s : State) : State :=
  let f := fun (t : State) (c : Nat) => match execCoreClockCycle c t with
    | .next u => u
    | _ => t
  (((s.cubes.map Prod.fst).foldl insertNat [s.myCube])).foldl f s

/-- What moves when the agenda is empty: in one step an agent of the network, of a cube or of an engine, in the next a
sequencer, in the third a clock cycle passes. Of each kind another is the first to be asked every time, so that none waits for
good on others that can always move, and every quantum ends (R38). A clock cycle passes too where nothing can move. -/
def idle (run : Shape → State → Host.Outcome State Fault Refusal) (s : State) : Host.Outcome State Fault Refusal :=
  let s := { s with idleCtr := s.idleCtr + 1 }
  let replies := (s.flights.filter fun f => f.cls == .reply).flatMap (backMoves s) ++ lostMoves s
  let requests := (s.flights.filter fun f => f.cls != .reply).flatMap (requestMoves s)
  let cubes := (s.cubes.map Prod.fst).flatMap (cubeMoves s)
  let engines := (coreOrder s).flatMap (engineMoves s)
  let issues := (coreOrder s).flatMap (issueMoves run s)
  let agents := (replies ++ requests ++ cubes ++ engines ++ removalMoves s).rotateLeft (s.idleCtr / 3)
  let issues := issues.rotateLeft (s.idleCtr / 3)
  match s.idleCtr % 3 with
  | 0 => (firstMove (agents ++ issues)).getD (.next (tickAll s))
  | 1 => (firstMove (issues ++ agents)).getD (.next (tickAll s))
  | _ => .next (tickAll s)

/-! ### Placing an instruction for the next step (log entry 10) -/

/-- The pc at which an instruction may stand in a scratchpad; 0 where the present one may not. -/
def placePc (pc : Word) : Word := if pc.toNat % 4 = 0 && pc.toNat + 12 ≤ 2 ^ 19 then pc else 0

/-- The thread of a core as the next step needs it: resident, with its code in the local segment, nothing before its next
instruction. -/
def placeCtx (c : Ctx) (held : Bool) (now : BitVec 64) : Ctx :=
  { c with
    status := .resident
    gang := if held then none else c.gang
    regs := { c.regs with
      pc := placePc c.regs.pc
      seg := c.regs.seg.set 0 0xFFFF
      tsw := setField (tswRepeat c.regs.tsw false 0 0) 4 2 0 }
    frame := none
    wait := .none
    waitGroup := none
    trap := none
    busy := []
    asked := none
    pending := []
    pend := c.pend.filter fun p => !p.failed
    residentAt := now }

/-- An instruction's bytes at the moving core's pc, with the next turn its main sequencer's. -/
def placeWords (s : State) (bs : List Byte) : State :=
  let held := gangHeld s s.core.ctx
  let c := placeCtx s.core.ctx held (s.cube s.myCube).clock
  let a := spadAddr s.me c.regs.pc.toNat
  let s := { s with
    core := { s.core with ctx := c, lost := false, chain := [] }
    mem := memSetList s.mem a bs
    poison := s.poison.filter fun x => !meets a 12 x 32
    agenda := [.issue s.me .main false false] }
  let free := fun (q : Cube) => { q with rollbacks := [] }
  let s := { s with cubes := s.cubes.map fun (p : Nat × Cube) => (p.1, free p.2) }
  let s := s.modCube s.myCube fun q => { q with fetched := q.fetched ++ [(s.me, c.regs.pc)] }
  if (s.cube s.myCube).clamped || (s.cube s.myCube).tripped then
    s.modCube s.myCube fun q => { q with clamped := false, tripped := false }
  else s

end Sys2Proof.Machine
end

