-- ==== Sys2Proof/Machine/Step.lean ====
section
/-! DEFINITION. One step of the domain: a rollback that is due, the next turn of the agenda, or, where the agenda is empty, an
agent, a sequencer or the clock, in turns (log entry 11). -/

namespace Sys2Proof.Machine

open Sys2Proof

/-- Executes the instruction of a shape. Lean's compiler builds no constructor of Instr past the 245th, so that the last
three opcodes are executed by their meanings (`execHigh`); `execShape_eq` says that this is `exec`. -/
def execShape (sh : Shape) (s : State) : Host.Outcome State Fault Refusal :=
  match ofShapeLow sh with
  | some i => exec i s
  | none => execHigh sh s

/-- One turn. -/
def turn (t : Turn) (s : State) : Host.Outcome State Fault Refusal :=
  match t with
  | .event i => exec i s
  | .act a => performAction a s
  | .issue core e later l1 => issueTurn execShape core e later l1 s

/-- One step of the domain. -/
def step (s : State) : Host.Outcome State Fault Refusal :=
  match rollbackStep s with
  | some t => .next t
  | none => match s.agenda with
    | t :: l => turn t { s with agenda := l }
    | [] => idle execShape s

/-- The state in which the next step fetches and executes the instruction whose bits are `w`. -/
def State.withFetchWord (s : State) (nbits w : Nat) : State :=
  placeWords s ((wordsOfNat (w % 2 ^ nbits)).flatMap bytesOfWord)

end Sys2Proof.Machine
end

