-- ==== Sys2Proof/Safety.lean ====
section
/-! DEFINITION. The terms that claims are stated in: how an instruction completes, traps or waits, what it leaves
alone, and which states are sound. -/

namespace Sys2Proof.Safety

open Sys2Proof
open Sys2Proof.Machine

/-! ### How an instruction ends -/

/-- An instruction of `words` words completes: `t` holds its own effect; the pc then advances (R61) and it retires
with its stall count (R55). -/
def Completes (i : Instr) (s : State) (words stall : Nat) (t : State) : Prop :=
  exec i s = .next ((t.advance words).retire stall)

/-- An instruction that names the next pc completes: `t` holds its own effect. -/
def Jumps (i : Instr) (s : State) (stall : Nat) (t : State) (pc : Word) : Prop :=
  exec i s = .next ((t.setPc pc).retire stall)

/-- An instruction traps with a code and a fault address, with nothing else changed by it (R213). -/
def TrapsAt (i : Instr) (s : State) (code : TrapCode) (addr : Word) : Prop :=
  exec i s = .next (takeTrap (s.report code addr .none 0) s)

/-- An instruction traps and reports its own address. -/
def Traps (i : Instr) (s : State) (code : TrapCode) : Prop := TrapsAt i s code s.curPc

/-- A trap of an access: kind and segment value stand in the report (R216). -/
def TrapsAccess (i : Instr) (s : State) (code : TrapCode) (addr : Word) (k : AccessKind) (seg : BitVec 16) : Prop :=
  exec i s = .next (takeTrap (s.report code addr k seg) s)

/-! ### Operand fields -/

/-- A legal destination field: a register, or 48 for the queue alone (R52). -/
def DstOk (d : BitVec 6) : Prop := d.toNat < 32 ∨ d.toNat = 48

/-- A legal mask destination (R161). -/
def MaskDstOk (d : BitVec 6) : Prop := d.toNat < 8 ∨ d.toNat = 48

/-- The value d of an immediate form: the register, or 0 where d holds 48 (R141). -/
def DValue (f : FmtL) (s : State) (x : Word) : Prop :=
  (f.d.toNat < 32 ∧ readScalar s 0 f.d = .ok x) ∨ (f.d.toNat = 48 ∧ x = 0)

/-! ### Lanes (R89) -/

/-- A vector instruction completes with a result whose lanes are the given ones. -/
def LanesAre (i : Instr) (s : State) (f : FmtA) (lat : Nat) (v : Nat → Word32) : Prop :=
  ∃ r : Vec, Completes i s (wordsA f) f.s.toNat (writeVector lat f.d r s) ∧ ∀ k, k < 64 → lane r k = v k

/-- A vector instruction completes with a result whose lane pairs are the given ones. -/
def PairsAre (i : Instr) (s : State) (f : FmtA) (lat : Nat) (v : Nat → BitVec 64) : Prop :=
  ∃ r : Vec, Completes i s (wordsA f) f.s.toNat (writeVector lat f.d r s) ∧ ∀ j, j < 32 → pair r j = v j

/-- An instruction of a mask destination completes with a mask whose bits are the given ones. -/
def MaskIs (i : Instr) (s : State) (f : FmtA) (lat : Nat) (v : Nat → Prop) : Prop :=
  ∃ r : Word, Completes i s (wordsA f) f.s.toNat (writeMask lat f.d r s) ∧ ∀ k, k < 64 → (r.getLsbD k = true ↔ v k)

/-- The value of element `k` after `j` of the steps of R131 over `2 * top` elements: each step combines with the
element at half the distance of the step before. -/
def treeValue (op : Nat → Nat → Nat) (x : Nat → Nat) (top : Nat) : Nat → Nat → Nat
  | 0, k => x k
  | j + 1, k => op (treeValue op x top j k) (treeValue op x top j (k + top / 2 ^ j))

/-! ### Homes at rest -/

/-- Nothing makes an access to the memory of a cube wait, or refuses it: no request is in flight or kept, no atom is
poisoned, and in the cube no launched graph, engine, removal, host copy or refresh holds an address. -/
structure Calm (s : State) (cube : Nat) : Prop where
  flights : s.flights = []
  kept : s.kept = []
  poison : s.poison = []
  graphs : (s.cube cube).graphs = []
  owned : (s.cube cube).owned = []
  moving : (s.cube cube).moving = []
  hosted : (s.cube cube).hosted = []
  refreshing : (s.cube cube).refreshing = []

/-! ### What stays -/

/-- Every byte of memory reads as before. -/
def SameMemory (s t : State) : Prop := ∀ a, memGet t.mem a = memGet s.mem a

/-- Every byte of memory outside `n` bytes from `a` on reads as before. -/
def SameMemoryBut (s t : State) (a n : Nat) : Prop := ∀ x, ¬(a ≤ x ∧ x < a + n) → memGet t.mem x = memGet s.mem x

/-- The bits of TSW outside the repeat state are unchanged (R97). -/
def SameTsw (a b : Word) : Prop := ∀ k, k ≠ 6 → ¬(24 ≤ k ∧ k < 52) → b.getLsbD k = a.getLsbD k

/-- Everything outside the thread's own registers, its bookkeeping of distances and waits and its core's counters is
unchanged: the other cores, memory, poison, requests in flight, and the cubes but for a clock. -/
structure SameOutside (s t : State) : Prop where
  me : t.me = s.me
  seqr : t.seqr = s.seqr
  cores : t.cores = s.cores
  memory : SameMemory s t
  poison : t.poison = s.poison
  flights : t.flights = s.flights
  kept : t.kept = s.kept
  seqs : t.seqs = s.seqs
  removal : t.removal = s.removal
  agenda : t.agenda = s.agenda
  detours : t.detours = s.detours
  cubes : ∀ c, { t.cube c with clock := 0 } = { s.cube c with clock := 0 }
  runList : t.core.runList = s.core.runList
  messages : t.core.msgs = s.core.msgs
  maps : t.core.maps = s.core.maps
  tiles : t.core.ctx.tiles = s.core.ctx.tiles
  unacked : t.core.ctx.unacked = s.core.ctx.unacked

/-- The special registers, the return-address store and the rank are unchanged; TSW but for its repeat state. -/
structure SameSpecial (a b : Regs) : Prop where
  tsw : SameTsw a.tsw b.tsw
  fmt : b.fmt = a.fmt
  mb : b.mb = a.mb
  mbstat : b.mbstat = a.mbstat
  seg : b.seg = a.seg
  ras : b.ras = a.ras
  rsp : b.rsp = a.rsp
  rsl : b.rsl = a.rsl
  asid : b.asid = a.asid
  tdirty : b.tdirty = a.tdirty
  rank : b.rank = a.rank

/-- The general, vector, mask and e registers but for a destination of each class. -/
structure SameRegs (a b : Regs) (dg dv dm : Option Nat) : Prop where
  g : ∀ k, dg ≠ some k → b.g[k]? = a.g[k]?
  v : ∀ k, dv ≠ some k → b.v[k]? = a.v[k]?
  m : ∀ k, dm ≠ some k → b.m[k]? = a.m[k]?
  e : b.e = a.e

/-! ### Events -/

/-- A cube of the domain that is not tripped: its events may happen (R238, R456). -/
def InService (s : State) (cube : Nat) : Prop := cube < 640 ∧ (s.cube cube).tripped = false

/-- A core of a cube in service. -/
def CoreInService (s : State) (core : Nat) : Prop := core < 163840 ∧ (s.cube (core / 256)).tripped = false

/-- A request in flight that its home performs now, for the first time, with the state in which it is performed: it is
ready (R265, R390), no duplicate (R382), of a supported kind (R379), and its memory answers (R245). -/
def Arrived (s : State) (num : Nat) (x : Flight) (body : Body) (b : State) : Prop :=
  s.request num = some x ∧ readyFlight s x = true ∧ s.keptOf x = none ∧ answersAt s body = true ∧ x.body = body ∧
  b = focusSource s x

/-- A reply that has reached its receiver, which awaits it, with the state in which it is taken. -/
def Replied (s : State) (num : Nat) (x : Flight) (body : Body) (b : State) : Prop :=
  s.replyOf num = some x ∧ s.awaits num = true ∧ x.body = body ∧ b = (focusSource s x).consume num

/-! ### Engine queues (R189, R190, R360, R440) -/

/-- An engine form issues: with a full queue or a full slot it stalls, unchanged; a stopped engine discards it and marks
its slot (R191); else it enters the queue last, with what it captured, and its slot counts one more. -/
def Enqueues (i : Instr) (s : State) (words stall : Nat) (e : Sequencer) (w : Work) (slot : Nat) (wait : BitVec 8) : Prop :=
  let c := s.core.ctx
  (queueDepth e ≤ queueLen s.core e ∨ 255 ≤ c.slotCount slot → exec i s = .next s) ∧
  (queueLen s.core e < queueDepth e → c.slotCount slot < 255 →
    ((c.engine e).stopped = true → ∃ t, Completes i s words stall t ∧ t.core.ctx.marked slot = true ∧
      t.core.ctx.queue e = c.queue e ∧ t.regs = s.regs ∧ SameOutside s t) ∧
    ((c.engine e).stopped = false → ∃ t x, Completes i s words stall t ∧ t.core.ctx.queue e = c.queue e ++ [x] ∧
      x.work = w ∧ x.slot = slot ∧ x.wait = wait ∧ x.id = s.numCtr ∧ x.pc = s.curPc ∧ x.asid = s.regs.asid ∧
      x.seg = s.regs.seg.toList ∧ x.priv = s.priv ∧ t.core.ctx.slotCount slot = c.slotCount slot + 1 ∧
      t.regs = s.regs ∧ SameOutside s t))

/-- Element (i, j) of acc (R94). -/
def accElem (acc : BitVec 983040) (i j : Nat) : Nat := (acc.extractLsb' (2560 * i + 32 * j) 32).toNat

/-! ### Sound states -/

/-- Memory is in its canonical form: addresses rise, and no cell holds what an unlisted address reads as. -/
def Canonical (s : State) : Prop := Memory.wf s.mem = true

end Sys2Proof.Safety
end

