-- ==== Sys2Proof/Certificates/Slice0/Obligations.lean ====
section
/-! DEFINITION. The statements for the provers, one Prop each. Every docstring names the rules that it formalises. -/

open Sys2Proof
open Sys2Proof.Machine
open Sys2Proof.Safety

/-! ### Scalar instructions -/

/-- R135, R52: INT with legal fields completes with the value of the table, b sign-extended for ADD to MAX and zero-
extended for MINU and MAXU, written at latency 1. R137: LOG completes with the value of the table; a shift amount is the
low six bits of b. R138, R139: CMP completes with the value of the table; SEL's condition is scalar age a1 as the queue
stood; the bit counts are characterised by the bits they count. -/
def Obligations.ScalarResults : Prop :=
  ((∀ (f : FmtA) (s : State) (x y z : Word), DstOk f.d → readScalar s 0 f.a = .ok x →
    readB s 1 f true = .ok y → readB s 1 f false = .ok z →
    let done := fun (i : Instr) (r : Word) => Completes i s (wordsA f) f.s.toNat (writeScalar 1 f.d r s)
    done (.add f) (x + y) ∧ done (.sub f) (x - y) ∧
    done (.adds f) (BitVec.ofInt 64 (max (-2 ^ 63) (min (2 ^ 63 - 1) (x.toInt + y.toInt)))) ∧
    done (.subs f) (BitVec.ofInt 64 (max (-2 ^ 63) (min (2 ^ 63 - 1) (x.toInt - y.toInt)))) ∧
    done (.min f) (if x.toInt ≤ y.toInt then x else y) ∧ done (.max f) (if y.toInt ≤ x.toInt then x else y) ∧
    done (.minu f) (if x.toNat ≤ z.toNat then x else z) ∧ done (.maxu f) (if z.toNat ≤ x.toNat then x else z)) ∧
  (∀ (f : FmtA) (s : State) (x y : Word), DstOk f.d → readScalar s 0 f.a = .ok x → readB s 1 f false = .ok y →
    let done := fun (i : Instr) (r : Word) => Completes i s (wordsA f) f.s.toNat (writeScalar 1 f.d r s)
    let k := y.toNat % 64
    done (.and f) (x &&& y) ∧ done (.or f) (x ||| y) ∧ done (.xor f) (x ^^^ y) ∧ done (.andn f) (x &&& ~~~y) ∧
    done (.sll f) (BitVec.ofNat 64 (x.toNat * 2 ^ k)) ∧ done (.srl f) (BitVec.ofNat 64 (x.toNat / 2 ^ k)) ∧
    done (.sra f) (BitVec.ofInt 64 (x.toInt / 2 ^ k)) ∧ done (.rol f) (x <<< k ||| x >>> (64 - k)))) ∧
  (∀ (f : FmtA) (s : State) (x y z : Word), DstOk f.d → readScalar s 0 f.a = .ok x →
    readB s 1 f true = .ok y → readB s 1 f false = .ok z →
    let done := fun (i : Instr) (r : Word) => Completes i s (wordsA f) f.s.toNat (writeScalar 1 f.d r s)
    done (.ceq f) (if x = y then 1 else 0) ∧ done (.cne f) (if x = y then 0 else 1) ∧
    done (.clt f) (if x.toInt < y.toInt then 1 else 0) ∧ done (.cltu f) (if x.toNat < z.toNat then 1 else 0) ∧
    (∀ q, readScalar s 2 32 = .ok q → done (.sel f) (if q = 0 then y else x)) ∧
    (f.b.toNat = 48 →
      (∃ n, n ≤ 64 ∧ done (.clz f) (BitVec.ofNat 64 n) ∧ x.toNat < 2 ^ (64 - n) ∧ (n < 64 → x.getLsbD (63 - n) = true)) ∧
      (∃ n, n ≤ 64 ∧ done (.ctz f) (BitVec.ofNat 64 n) ∧ (∀ k, k < n → x.getLsbD k = false) ∧
        (n < 64 → x.getLsbD n = true)) ∧
      done (.popc f) (BitVec.ofNat 64 ((List.range 64).countP fun k => x.getLsbD k))))

/-- R136, R110: MULD completes; products at latency 3, quotients and remainders with an interlocked result. A zero
divisor and the signed minimum divided by -1 give R110's values and do not trap. -/
def Obligations.MuldResults : Prop :=
  ∀ (f : FmtA) (s : State) (x y z : Word), DstOk f.d → readScalar s 0 f.a = .ok x →
    readB s 1 f true = .ok y → readB s 1 f false = .ok z →
    let done := fun (i : Instr) (lat : Nat) (r : Word) => Completes i s (wordsA f) f.s.toNat (writeScalar lat f.d r s)
    done (.mul f) 3 (BitVec.ofNat 64 (x.toNat * y.toNat)) ∧
    done (.mulh f) 3 (BitVec.ofInt 64 (x.toInt * y.toInt / 2 ^ 64)) ∧
    done (.mulhu f) 3 (BitVec.ofNat 64 (x.toNat * z.toNat / 2 ^ 64)) ∧
    done (.div f) 0 (if y = 0 then BitVec.allOnes 64 else x.sdiv y) ∧
    done (.divu f) 0 (if z = 0 then BitVec.allOnes 64 else x / z) ∧
    done (.rem f) 0 (if y = 0 then x else x.srem y) ∧ done (.remu f) 0 (if z = 0 then x else x % z) ∧
    (x = BitVec.intMin 64 → y = BitVec.allOnes 64 → done (.div f) 0 x ∧ done (.rem f) 0 0)

/-- R140: PACK completes; element e of the result is the table's value of elements e of a and b, and elements do not
carry into one another. The element width is 8 << FMT.W at issue. -/
def Obligations.PackResults : Prop :=
  ∀ (f : FmtA) (s : State) (x y : Word), DstOk f.d → readScalar s 0 f.a = .ok x → readB s 1 f true = .ok y →
    let w := 8 * 2 ^ s.regs.fmt.toNat
    let el := fun (v : Word) (e : Nat) => v.toNat / 2 ^ (w * e) % 2 ^ w
    let sg := fun (n : Nat) => if n < 2 ^ (w - 1) then (n : Int) else (n : Int) - 2 ^ w
    let clamp := fun (n : Int) => max (-2 ^ (w - 1)) (min (2 ^ (w - 1) - 1) n)
    let done := fun (i : Instr) (lat : Nat) (op : Int → Int → Int) => ∃ r : Word,
      Completes i s (wordsA f) f.s.toNat (writeScalar lat f.d r s) ∧
      ∀ e, e < 64 / w → (el r e : Int) = op (sg (el x e)) (sg (el y e)) % 2 ^ w
    done (.padd f) 1 (fun a b => a + b) ∧ done (.psub f) 1 (fun a b => a - b) ∧
    done (.padds f) 1 (fun a b => clamp (a + b)) ∧ done (.psubs f) 1 (fun a b => clamp (a - b)) ∧
    done (.pmul f) 3 (fun a b => a * b) ∧ done (.pmin f) 1 min ∧ done (.pmax f) 1 max ∧
    done (.pavg f) 1 (fun a b => (a + b + 1) / 2)

/-- R141: the immediate forms complete; d is the register that the field names, or 0 where it holds 48; LI and LIPC do
not read it. -/
def Obligations.ImmediateResults : Prop :=
  ∀ (f : FmtL) (s : State), DstOk f.d →
    let done := fun (i : Instr) (r : Word) => Completes i s (1 + f.p.length) f.s.toNat (writeScalar 1 f.d r s)
    let v := immS f
    let z := immZ f
    done (.li f) v ∧ done (.lipc f) (s.curPc + v) ∧
    ∀ d, DValue f s d →
      done (.addi f) (d + v) ∧ done (.andi f) (d &&& v) ∧ done (.ori f) (d ||| z) ∧ done (.xori f) (d ^^^ z) ∧
      done (.slli f) (BitVec.ofNat 64 (d.toNat * 2 ^ (z.toNat % 64))) ∧
      done (.srli f) (BitVec.ofNat 64 (d.toNat / 2 ^ (z.toNat % 64))) ∧
      done (.srai f) (BitVec.ofInt 64 (d.toInt / 2 ^ (z.toNat % 64))) ∧
      done (.clti f) (if d.toInt < v.toInt then 1 else 0) ∧ done (.cltui f) (if d.toNat < v.toNat then 1 else 0) ∧
      done (.ceqi f) (if d = v then 1 else 0)

/-! ### Vector instructions -/

/-- R165, R166, R167: VINT and VLOG complete with the lanes of the tables at latency 2; VSEL's selector is scalar age
a1 as the queue stood. -/
def Obligations.VectorIntegerResults : Prop :=
  ∀ (f : FmtA) (s : State) (x y z : Vec), DstOk f.d → readVector s 0 f.a = .ok x →
    vectorB true f s = .ok y → vectorB false f s = .ok z →
    let each := fun (i : Instr) (y : Vec) (op : Word32 → Word32 → Word32) =>
      LanesAre i s f 2 fun k => op (lane x k) (lane y k)
    let clamp := fun (n : Int) => BitVec.ofInt 32 (max (-2 ^ 31) (min (2 ^ 31 - 1) n))
    each (.vaddI32 f) y (fun a b => a + b) ∧ each (.vsubI32 f) y (fun a b => a - b) ∧
    each (.vaddsI32 f) y (fun a b => clamp (a.toInt + b.toInt)) ∧
    each (.vsubsI32 f) y (fun a b => clamp (a.toInt - b.toInt)) ∧
    each (.vminI32 f) y (fun a b => if a.toInt ≤ b.toInt then a else b) ∧
    each (.vmaxI32 f) y (fun a b => if b.toInt ≤ a.toInt then a else b) ∧
    each (.vmulI32 f) y (fun a b => a * b) ∧
    each (.vmulhI32 f) y (fun a b => BitVec.ofInt 32 (a.toInt * b.toInt / 2 ^ 32)) ∧
    each (.vand f) z (fun a b => a &&& b) ∧ each (.vor f) z (fun a b => a ||| b) ∧
    each (.vxor f) z (fun a b => a ^^^ b) ∧ each (.vandn f) z (fun a b => a &&& ~~~b) ∧
    each (.vsll f) z (fun a b => BitVec.ofNat 32 (a.toNat * 2 ^ (b.toNat % 32))) ∧
    each (.vsrl f) z (fun a b => BitVec.ofNat 32 (a.toNat / 2 ^ (b.toNat % 32))) ∧
    each (.vsra f) z (fun a b => BitVec.ofInt 32 (a.toInt / 2 ^ (b.toNat % 32))) ∧
    (∀ q, readScalar s 2 32 = .ok q →
      LanesAre (.vsel f) s f 2 fun k => if q.getLsbD k then lane x k else lane y k)

/-- R168, R169: VF32 and VF64 complete lane by lane or pair by pair, with one rounding each; VFMA and VFMS read d, which
must be a register. -/
def Obligations.VectorFloatResults : Prop :=
  ∀ (f : FmtA) (s : State) (x y : Vec), DstOk f.d → f.p = none → readVector s 0 f.a = .ok x → readVector s 1 f.b = .ok y →
    let one := fun (i : Instr) (lat : Nat) (op : Nat → Nat → Nat) =>
      LanesAre i s f lat fun k => BitVec.ofNat 32 (op (lane x k).toNat (lane y k).toNat)
    let two := fun (i : Instr) (lat : Nat) (op : Nat → Nat → Nat) =>
      PairsAre i s f lat fun k => BitVec.ofNat 64 (op (pair x k).toNat (pair y k).toNat)
    let neg := fun (g : Fmt) (a : Nat) => (g.decode a).neg
    one (.vaddF32 f) 4 f32.add ∧ one (.vmulF32 f) 4 f32.mul ∧
    one (.vsubF32 f) 4 (fun a b => f32.ofVal .rne 0 (FVal.add .rne (f32.decode a) (neg f32 b))) ∧
    one (.vminF32 f) 4 (f32.minmax false) ∧ one (.vmaxF32 f) 4 (f32.minmax true) ∧
    one (.vdivF32 f) 0 (fun a b => f32.div .rne (f32.decode a) (f32.decode b)) ∧
    two (.vaddF64 f) 6 f64.add ∧ two (.vmulF64 f) 6 f64.mul ∧
    two (.vsubF64 f) 6 (fun a b => f64.ofVal .rne 0 (FVal.add .rne (f64.decode a) (neg f64 b))) ∧
    two (.vminF64 f) 6 (f64.minmax false) ∧ two (.vmaxF64 f) 6 (f64.minmax true) ∧
    two (.vdivF64 f) 0 (fun a b => f64.div .rne (f64.decode a) (f64.decode b)) ∧
    (f.d.toNat = 48 → Traps (.vfmaF32 f) s .illegalOperand ∧ Traps (.vfmsF32 f) s .illegalOperand ∧
      Traps (.vfmaF64 f) s .illegalOperand ∧ Traps (.vfmsF64 f) s .illegalOperand) ∧
    (∀ z, f.d.toNat < 32 → readVector s 2 f.d = .ok z →
      (LanesAre (.vfmaF32 f) s f 4 fun k =>
        BitVec.ofNat 32 (f32.fma (lane x k).toNat (lane y k).toNat (lane z k).toNat)) ∧
      (LanesAre (.vfmsF32 f) s f 4 fun k =>
        BitVec.ofNat 32 (f32.fnma (lane x k).toNat (lane y k).toNat (lane z k).toNat)) ∧
      (PairsAre (.vfmaF64 f) s f 6 fun k =>
        BitVec.ofNat 64 (f64.fma (pair x k).toNat (pair y k).toNat (pair z k).toNat)) ∧
      (PairsAre (.vfmsF64 f) s f 6 fun k =>
        BitVec.ofNat 64 (f64.fnma (pair x k).toNat (pair y k).toNat (pair z k).toNat)))

/-- R171: VCMP sets bit k of the mask exactly where the test holds of lane k. R172: MASK completes with the table's
values; masks go to the mask register and the scalar queue. -/
def Obligations.VectorCompareAndMaskResults : Prop :=
  (∀ (f : FmtA) (s : State) (x y : Vec), MaskDstOk f.d → readVector s 0 f.a = .ok x → readVector s 1 f.b = .ok y →
    let fl := fun (v : Vec) (k : Nat) => f32.decode (lane v k).toNat
    MaskIs (.vceqF32 f) s f 4 (fun k => (fl x k).eq (fl y k) = true) ∧
    MaskIs (.vcltF32 f) s f 4 (fun k => (fl x k).lt (fl y k) = true) ∧
    MaskIs (.vcleF32 f) s f 4 (fun k => (fl x k).lt (fl y k) = true ∨ (fl x k).eq (fl y k) = true) ∧
    MaskIs (.vcunF32 f) s f 4 (fun k => fl x k = .nan ∨ fl y k = .nan) ∧
    MaskIs (.vceqI32 f) s f 2 (fun k => lane x k = lane y k) ∧
    MaskIs (.vcltI32 f) s f 2 (fun k => (lane x k).toInt < (lane y k).toInt) ∧
    MaskIs (.vcltuI32 f) s f 2 (fun k => (lane x k).toNat < (lane y k).toNat) ∧
    MaskIs (.vcleI32 f) s f 2 (fun k => (lane x k).toInt ≤ (lane y k).toInt)) ∧
  (∀ (f : FmtA) (s : State) (p : Word), readMask s 0 f.a = .ok p →
    (∀ q, MaskDstOk f.d → readMask s 1 f.b = .ok q →
      MaskIs (.mand f) s f 2 (fun k => p.getLsbD k = true ∧ q.getLsbD k = true) ∧
      MaskIs (.mor f) s f 2 (fun k => p.getLsbD k = true ∨ q.getLsbD k = true) ∧
      MaskIs (.mxor f) s f 2 (fun k => p.getLsbD k ≠ q.getLsbD k) ∧
      MaskIs (.mandn f) s f 2 (fun k => p.getLsbD k = true ∧ q.getLsbD k = false)) ∧
    (DstOk f.d → f.b.toNat = 48 →
      Completes (.mpop f) s (wordsA f) f.s.toNat
        (writeScalar 2 f.d (BitVec.ofNat 64 ((List.range 64).countP fun k => p.getLsbD k)) s) ∧
      Completes (.mget f) s (wordsA f) f.s.toNat (writeScalar 2 f.d p s) ∧
      (∃ n, n ≤ 64 ∧ (∀ k, k < n → p.getLsbD k = false) ∧ (n < 64 → p.getLsbD n = true) ∧
        LanesAre (.mffs f) s f 2 fun _ => BitVec.ofNat 32 n)))

/-- R173: VPERM and VSHUF move lanes unchanged. R131, R174: VRED holds in lane 0, or pair 0, the value of R131's steps,
and +0 elsewhere. -/
def Obligations.PermuteAndReductionResults : Prop :=
  (∀ (f : FmtA) (s : State) (x : Vec), DstOk f.d → f.p = none → readVector s 0 f.a = .ok x →
    (∀ y, readVector s 1 f.b = .ok y → LanesAre (.vperm f) s f 3 fun k => lane x ((lane y k).toNat % 64)) ∧
    (∀ b, readScalar s 1 f.b = .ok b →
      let w := b.toNat % 64
      let kind := b.toNat / 64 % 4
      LanesAre (.vshuf f) s f 3 fun k =>
        if kind = 0 then lane x ((k + w) % 64)
        else if kind = 1 then lane x (k ^^^ w)
        else if kind = 2 then (if k + w ≤ 63 then lane x (k + w) else 0)
        else if w ≤ k then lane x (k - w) else 0)) ∧
  (∀ (f : FmtA) (s : State) (x : Vec), DstOk f.d → f.b.toNat = 48 → readVector s 0 f.a = .ok x →
    let el := fun (k : Nat) => (lane x k).toNat
    let one := fun (i : Instr) (op : Nat → Nat → Nat) =>
      LanesAre i s f 8 fun k => if k = 0 then BitVec.ofNat 32 (treeValue op el 32 6 0) else 0
    let sgn := fun (n : Nat) => (BitVec.ofNat 32 n).toInt
    one (.vrsumF32 f) f32.add ∧ one (.vrmaxF32 f) (f32.minmax true) ∧ one (.vrminF32 f) (f32.minmax false) ∧
    (PairsAre (.vrsumF64 f) s f 8 fun j =>
      if j = 0 then BitVec.ofNat 64 (treeValue f64.add (fun j => (pair x j).toNat) 16 5 0) else 0) ∧
    one (.vrsumI32 f) (fun a b => (a + b) % 2 ^ 32) ∧
    one (.vrmaxI32 f) (fun a b => if sgn a < sgn b then b else a) ∧
    one (.vrminI32 f) (fun a b => if sgn b < sgn a then b else a))

/-- R175, R176: the moves between registers, lanes, scalars and the e-file complete. -/
def Obligations.MoveResults : Prop :=
  ∀ (f : FmtA) (s : State),
    (∀ x, DstOk f.d → f.b.toNat = 48 → readVector s 0 f.a = .ok x →
      LanesAre (.vmov f) s f 2 (lane x)) ∧
    (∀ x b, DstOk f.d → readVector s 0 f.a = .ok x → readScalar s 1 f.b = .ok b →
      Completes (.vext f) s (wordsA f) f.s.toNat (writeScalar 2 f.d ((lane x (b.toNat % 64)).setWidth 64) s)) ∧
    (∀ x : Word, readScalar s 0 f.a = .ok x →
      (MaskDstOk f.d → f.b.toNat = 48 →
        Completes (.mset f) s (wordsA f) f.s.toNat (writeMask 2 f.d x s)) ∧
      (DstOk f.d → f.b.toNat = 48 → LanesAre (.vbcast f) s f 2 fun _ => x.setWidth 32) ∧
      (∀ b z, f.d.toNat < 32 → readScalar s 1 f.b = .ok b → readVector s 2 f.d = .ok z →
        LanesAre (.vins f) s f 2 fun k => if k = b.toNat % 64 then x.setWidth 32 else lane z k) ∧
      (∀ v, DstOk f.d → f.b.toNat = 48 → x.toNat ≤ 191 →
        readPlace s (.e x.toNat) (s.regs.e[x.toNat]?.getD 0) (Config.shortVector (freeIdx s 1)) = .ok v →
        LanesAre (.vxget f) s f 2 (lane v)) ∧
      (DstOk f.d → f.b.toNat = 48 → 191 < x.toNat → TrapsAt (.vxget f) s .illegalOperand x) ∧
      (∀ v, f.d.toNat = 48 → readVector s 1 f.b = .ok v →
        (191 < x.toNat → TrapsAt (.vxput f) s .illegalOperand x) ∧
        (x.toNat ≤ 191 → ∃ t, Completes (.vxput f) s (wordsA f) f.s.toNat t ∧
          t.regs.e[x.toNat]? = some v ∧ (∀ k, k ≠ x.toNat → t.regs.e[k]? = s.regs.e[k]?) ∧
          t.regs.gq = s.regs.gq ∧ t.regs.vq = s.regs.vq ∧ t.regs.v = s.regs.v ∧ t.regs.g = s.regs.g ∧
          t.regs.grpdirty = s.regs.grpdirty ||| BitVec.ofNat 7 (2 ^ (2 + x.toNat / 64)) ∧ SameOutside s t)))

/-- R177, R178: the conversions complete with the elements of the table; a reserved rounding mode traps ILLEGAL_FUNCT in
every form. R183: VAPX completes lane by lane; VRCP is the correctly rounded quotient of 1. -/
def Obligations.ConversionAndApproximationResults : Prop :=
  (∀ (f : FmtA) (s : State) (x : Vec) (b : Word), DstOk f.d → readVector s 0 f.a = .ok x → readScalar s 1 f.b = .ok b →
    let h := b.toNat / 8 % 2
    let d := drawOf s
    let el := fun (k : Nat) => (lane x k).toNat
    let half := fun (r : Vec) (j e : Nat) => (r.extractLsb' (1024 * j + 16 * e) 16).toNat
    let halves := fun (i : Instr) (g : Fmt) (m : Mode) => ∃ r : Vec,
      Completes i s (wordsA f) f.s.toNat (writeVector 4 f.d r s) ∧
      ∀ e, e < 64 → half r h e = convert f32 g m (d e) (el e) ∧ half r (1 - h) e = 0
    (5 ≤ b.toNat % 8 → ∀ i ∈ [Instr.vcvtF32I32 f, .vcvtI32F32 f, .vcvtF64F32 f, .vcvtF32F64 f, .vcvtBf16F32 f,
      .vcvtF32Bf16 f, .vcvtF16F32 f, .vcvtF32F16 f], Traps i s .illegalFunct) ∧
    (∀ m, modeOf (b.toNat % 8) = some m →
      (LanesAre (.vcvtF32I32 f) s f 4 fun k => BitVec.ofNat 32 (f32.ofVal m (d k) (FVal.ofInt (lane x k).toInt))) ∧
      (LanesAre (.vcvtI32F32 f) s f 4 fun k =>
        BitVec.ofInt 32 ((f32.decode (el k)).toIntIn m (d k) (-2 ^ 31) (2 ^ 31 - 1))) ∧
      (PairsAre (.vcvtF64F32 f) s f 4 fun j => BitVec.ofNat 64 (convert f32 f64 m (d j) (el (32 * h + j)))) ∧
      (LanesAre (.vcvtF32F64 f) s f 4 fun k =>
        if k / 32 = h then BitVec.ofNat 32 (convert f64 f32 m (d k) (pair x (k % 32)).toNat) else 0) ∧
      (LanesAre (.vcvtF32Bf16 f) s f 4 fun k => BitVec.ofNat 32 (convert bf16 f32 m (d k) (half x h k))) ∧
      (LanesAre (.vcvtF32F16 f) s f 4 fun k => BitVec.ofNat 32 (convert f16 f32 m (d k) (half x h k))) ∧
      halves (.vcvtBf16F32 f) bf16 m ∧ halves (.vcvtF16F32 f) f16 m)) ∧
  (∀ (f : FmtA) (s : State) (x : Vec), DstOk f.d → f.b.toNat = 48 → readVector s 0 f.a = .ok x →
    let el := fun (k : Nat) => (lane x k).toNat
    (LanesAre (.vexp2 f) s f 6 fun k => BitVec.ofNat 32 (exp2 (el k))) ∧
    (LanesAre (.vrcp f) s f 6 fun k => BitVec.ofNat 32 (f32.div .rne (f32.decode 0x3F800000) (f32.decode (el k)))) ∧
    (LanesAre (.vrsqrt f) s f 6 fun k => BitVec.ofNat 32 (rsqrt32 (el k))) ∧
    (LanesAre (.vlog2 f) s f 6 fun k => BitVec.ofNat 32 (log2f32 (el k))))

/-- R179, R180, R182: with a legal control VUPK decodes four blocks; VPK packs four blocks into the low bytes, and one
that collects no outlier completes at latency 8. R127, R181, R408: one that collects outliers traps MISALIGNED at an
unaligned count offset; with its list in stacked DRAM, at a home at rest, it traps OUTLIER_FULL where the header is malformed
or the entries exceed the capacity, and else completes, interlocked, with the blocks, with COUNT moved on and the entries
behind those that were there, in ascending lane order, and no other byte of memory changed. -/
def Obligations.SharedExponentResults : Prop :=
  ∀ (f : FmtA) (s : State) (x : Vec), DstOk f.d → readVector s 0 f.a = .ok x →
    ∀ p ∈ [(2, Instr.vupkSx2 f, Instr.vpkSx2 f), (4, .vupkSx4 f, .vpkSx4 f), (7, .vupkSx7 f, .vpkSx7 f)],
      let m := p.1
      let blk := fun (v : Vec) (n : Nat) => v.toNat / 2 ^ (8 * (n * sxBytes m)) % 2 ^ (8 * sxBytes m)
      let xs := fun (n : Nat) => (List.range 16).map fun i => f32.decode (lane x (16 * n + i)).toNat
      (∀ c, readControl f false s = .ok c → LanesAre p.2.1 s f 8 fun k =>
        let v := sxElem m (blk x (k / 16)) (k % 16)
        BitVec.ofNat 32 (match c.sigma with
          | none => f32.ofVal .rne 0 v
          | some sig => f32.ofVal c.mode (drawOf s k) (v.mul sig))) ∧
      (∀ c, readControl f true s = .ok c → c.sigma = none → ∃ r : Vec,
        Completes p.2.2 s (wordsA f) f.s.toNat (writeVector 8 f.d r s) ∧
        r.toNat < 2 ^ (32 * sxBytes m) ∧
        ∀ n, n < 4 → blk r n = sxPack m c.mode (fun i => drawOf s (16 * n + i)) (xs n) % 2 ^ (8 * sxBytes m)) ∧
      (∀ c sig, readControl f true s = .ok c → c.sigma = some sig →
        (∀ n, n < 4 → (sxPackScaled m c.mode (fun i => drawOf s (16 * n + i)) sig (xs n)).2 = []) → ∃ r : Vec,
        Completes p.2.2 s (wordsA f) f.s.toNat (writeVector 8 f.d r s) ∧
        ∀ n, n < 4 → blk r n =
          (sxPackScaled m c.mode (fun i => drawOf s (16 * n + i)) sig (xs n)).1 % 2 ^ (8 * sxBytes m)) ∧
      (∀ c sig, readControl f true s = .ok c → c.sigma = some sig →
        let rs := fun (n : Nat) => sxPackScaled m c.mode (fun i => drawOf s (16 * n + i)) sig (xs n)
        let outs := (List.range 4).flatMap fun n => (rs n).2.map fun i => 16 * n + i
        let seg := segOf s 0
        outs ≠ [] →
          (c.list.toNat % 32 ≠ 0 → TrapsAccess p.2.2 s .misaligned c.list .atomic seg) ∧
          (∀ q qs z, c.list.toNat % 32 = 0 → place s seg c.list 32 .atomic listRegion = .ok (q :: qs) →
            settlePiece s .atomic seg q = .ok z → z.place.region = .dram → Calm s z.place.cube → Memory.wf s.mem = true →
            let a := z.place.addr
            let count := natOfBytes (s.load a 4)
            let cap := natOfBytes (s.load (a + 4) 4)
            let behind := a + 32 + 8 * count
            (508 < cap ∨ cap < count → TrapsAccess p.2.2 s .outlierFull c.list .atomic seg) ∧
            (cap ≤ 508 → count ≤ cap →
              (4096 < c.list.toNat % 4096 + 32 + 8 * cap → TrapsAccess p.2.2 s .addressRange c.list .atomic seg) ∧
              (c.list.toNat % 4096 + 32 + 8 * cap ≤ 4096 →
                (cap < count + outs.length → TrapsAccess p.2.2 s .outlierFull c.list .atomic seg) ∧
                (count + outs.length ≤ cap → ∃ r t, Completes p.2.2 s (wordsA f) f.s.toNat (writeVector 0 f.d r t) ∧
                  (∀ n, n < 4 → blk r n = (rs n).1 % 2 ^ (8 * sxBytes m)) ∧
                  natOfBytes (t.load a 4) = count + outs.length ∧
                  t.load behind (8 * outs.length) = (outs.flatMap fun k => bytesOfNat 4 (c.obase + k) ++
                    bytesOfNat 4 (if f32.decode (lane x k).toNat = .nan then 0x7FC00000 else (lane x k).toNat)) ∧
                  (∀ y, ¬(a ≤ y ∧ y < a + 4) → ¬(behind ≤ y ∧ y < behind + 8 * outs.length) →
                    memGet t.mem y = memGet s.mem y) ∧ t.regs = s.regs)))))

/-! ### Control -/

/-- R61: outside a frame the pc moves past the instruction's words; inside one the position advances, then the iteration
with the pc back at REPBASE + 4, and after the last iteration the frame is over. That RIT and RPOS read 0 once a frame has
ended is the model's choice (DESIGN CHOICE, log entry 19): neither R59 nor R61 says it. -/
def Obligations.AdvanceFollowsTheFrame : Prop :=
  ∀ (s : State) (w : Nat),
    let next := s.curPc + BitVec.ofNat 64 (4 * w)
    let len := match s.frame with
      | some f => f.body.length
      | none => 1
    let p := s.rep
    (p.ra = false → s.advance w = s.setPc next) ∧
    (p.ra = true → p.rpos + 1 < len → len ≤ 16 → p.rit < 2 ^ 24 →
      (s.advance w).rep = { p with rpos := p.rpos + 1 } ∧ (s.advance w).curPc = next) ∧
    (p.ra = true → len ≤ p.rpos + 1 → p.rit + 1 < p.cnt.toNat → p.cnt.toNat ≤ 2 ^ 24 →
      (s.advance w).rep = { p with rit := p.rit + 1, rpos := 0 } ∧ (s.advance w).curPc = p.base + 4) ∧
    (p.ra = true → len ≤ p.rpos + 1 → p.cnt.toNat ≤ p.rit + 1 →
      (s.advance w).rep = { p with ra := false, rit := 0, rpos := 0 } ∧ (s.advance w).curPc = next)

/-- R143, R45: B goes to its target; a conditional form goes there exactly where its condition holds of c as an i64, and
otherwise to the address after its last word. Nothing else changes. -/
def Obligations.BranchResults : Prop :=
  ∀ (f : FmtB) (s : State),
    let target := s.curPc + offB f * 4
    let after := s.curPc + BitVec.ofNat 64 (4 * (1 + f.p.length))
    (f.c.toNat = 48 → Jumps (.b f) s 0 s target) ∧
    (f.c.toNat ≠ 48 → Traps (.b f) s .illegalOperand) ∧
    (Traps (.bCond 7 f) s .illegalFunct) ∧
    (∀ x, readScalar s 0 f.c = .ok x →
      Jumps (.bCond 0 f) s 0 s (if x = 0 then target else after) ∧
      Jumps (.bCond 1 f) s 0 s (if x = 0 then after else target) ∧
      Jumps (.bCond 2 f) s 0 s (if x.toInt < 0 then target else after) ∧
      Jumps (.bCond 3 f) s 0 s (if x.toInt < 0 then after else target) ∧
      Jumps (.bCond 4 f) s 0 s (if 0 < x.toInt then target else after) ∧
      Jumps (.bCond 5 f) s 0 s (if 0 < x.toInt then after else target) ∧
      Jumps (.bCond 6 f) s 0 s target)

/-- R144, R102: a CALL that is taken makes the address after it the newest return address and goes to its target; with a
full store the oldest entry goes to the spill slot that RSP names, or RET_OVERFLOW traps with that slot. A condition
that does not hold only advances. R145, R102: RET goes to the newest entry and removes it; an address whose low bits
are set traps PC_MISALIGNED with nothing removed; an empty store pops the spill area, or RET_UNDERFLOW traps. -/
def Obligations.CallAndReturnResults : Prop :=
  (∀ (f : FmtB) (s : State),
    let target := s.curPc + offB f * 4
    let after := s.curPc + BitVec.ofNat 64 (4 * (1 + f.p.length))
    let slot := s.regs.rsp.toNat / 8 * 8
    let base := s.regs.rsl.toNat / 4096 * 4096
    let limit := base + 8 * (s.regs.rsl.toNat % 4096 + 1)
    let taken := fun (i : Instr) =>
      (s.regs.ras.length < 16 →
        Jumps i s 0 (s.modRegs fun r => { r with ras := after :: r.ras }) target) ∧
      (16 ≤ s.regs.ras.length → (slot < base ∨ limit < slot + 8) →
        TrapsAt i s .retOverflow (BitVec.ofNat 64 slot)) ∧
      (16 ≤ s.regs.ras.length → base ≤ slot → slot + 8 ≤ limit → ∀ ps t,
        place s (segOf s 0) (BitVec.ofNat 64 slot) 8 .store rawRegion = .ok ps →
        sendWrites s ps ((bytesOfNat 8 (s.regs.ras.getLastD 0).toNat).map some) 0 false = .ok t →
        Jumps i s 0 (t.modRegs fun r => { r with
          ras := after :: r.ras.dropLast, rsp := BitVec.ofNat 64 (slot + 8) }) target)
    (f.c.toNat = 48 → taken (.call f)) ∧
    (f.c.toNat ≠ 48 → Traps (.call f) s .illegalOperand) ∧
    (∀ (k : BitVec 3) x, k ≠ 7 → readScalar s 0 f.c = .ok x →
      (condHolds k x = true → taken (.callCond k f)) ∧
      (condHolds k x = false → Jumps (.callCond k f) s 0 s after))) ∧
  (∀ (f : FmtA) (s : State), f.d.toNat = 48 → f.a.toNat = 48 → f.b.toNat = 48 →
    let slot := s.regs.rsp.toNat / 8 * 8
    let base := s.regs.rsl.toNat / 4096 * 4096
    let limit := base + 8 * (s.regs.rsl.toNat % 4096 + 1)
    (∀ x l, s.regs.ras = x :: l →
      (x.toNat % 4 = 0 → Jumps (.ret f) s f.s.toNat (s.modRegs fun r => { r with ras := l }) x) ∧
      (x.toNat % 4 ≠ 0 → TrapsAt (.ret f) s .pcMisaligned x)) ∧
    (s.regs.ras = [] →
      ((slot ≤ base ∨ limit < slot) → TrapsAt (.ret f) s .retUnderflow (BitVec.ofNat 64 slot)) ∧
      (base < slot → slot ≤ limit → ∀ bs t,
        loadRaw s (segOf s 0) (BitVec.ofNat 64 (slot - 8)) 8 = .ok (bs, t) →
        (natOfBytes bs % 4 = 0 →
          Jumps (.ret f) s f.s.toNat (t.modRegs fun r => { r with rsp := BitVec.ofNat 64 (slot - 8) })
            (BitVec.ofNat 64 (natOfBytes bs))) ∧
        (natOfBytes bs % 4 ≠ 0 → TrapsAt (.ret f) s .pcMisaligned (BitVec.ofNat 64 (natOfBytes bs))))))

/-- R64, R65: LPAD does nothing; JT goes to its table entry's target where the words that it fetches are a header, an
entry and a landing pad with the header's label, and traps where they are not. R58, R59: REP and REPG capture the body
and start a frame with the count, REPBASE at their own address and the pc at the first body word; a count of 0 goes
past the body; inside a frame, or with a count above 2^24 after the body is captured, REP_INVALID traps. -/
def Obligations.JumpTableAndRepeatResults : Prop :=
  (∀ (i : BitVec 6) (s t u v : State) (x : Word) (hdr ent w : Word32),
    (∀ l, Completes (.lpad l) s 1 0 s) ∧
    (let h := s.curPc + 4
     let k := if x.toNat < hdr.toNat % 256 + 1 then x.toNat else 0
     let e := h + BitVec.ofNat 64 (4 + 4 * k)
     let dest := h + (ent.extractLsb' 0 24).signExtend 64 * 4
     readScalar s 0 i = .ok x → fetchWord s s.curPc h = .ok (hdr, t) →
     (hdr.toNat / 2 ^ 24 ≠ 0 → TrapsAt (.jt i) s .jtInvalid h) ∧
     (hdr.toNat / 2 ^ 24 = 0 → fetchWord t s.curPc e = .ok (ent, u) →
       (ent.toNat / 2 ^ 24 ≠ 0 → TrapsAt (.jt i) s .jtInvalid e) ∧
       (ent.toNat / 2 ^ 24 = 0 → fetchWord u s.curPc dest = .ok (w, v) →
         (w.toNat / 2 ^ 8 = 0x3C * 2 ^ 16 + hdr.toNat / 2 ^ 8 → Jumps (.jt i) s 0 v dest) ∧
         (w.toNat / 2 ^ 8 ≠ 0x3C * 2 ^ 16 + hdr.toNat / 2 ^ 8 →
           TrapsAt (.jt i) s .landingMismatch dest))))) ∧
  (∀ (n : BitVec 8) (c : BitVec 6) (len : BitVec 4) (stride : BitVec 5) (s t : State) (fr : Frame),
    let start := fun (i : Instr) (k : Nat) =>
      Jumps i s 0 ((t.setRep { ra := true, rit := 0, rpos := 0, base := s.curPc, cnt := BitVec.ofNat 25 k }).setFrame (some fr))
        (s.curPc + 4)
    (s.rep.ra = true → Traps (.rep n len stride) s .repInvalid) ∧
    (s.rep.ra = false → captureFrame s s.curPc (len.toNat + 1) stride.toNat = .ok (fr, t) →
      start (.rep n len stride) (n.toNat + 1)) ∧
    (s.rep.ra = true → Traps (.repg c len stride) s .repInvalid) ∧
    (∀ x, readScalar s 0 c = .ok x →
      s.rep.ra = false → captureFrame s s.curPc (len.toNat + 1) stride.toNat = .ok (fr, t) →
        (2 ^ 24 < x.toNat → Traps (.repg c len stride) s .repInvalid) ∧
        (x.toNat = 0 → Jumps (.repg c len stride) s 0 t (s.curPc + BitVec.ofNat 64 (4 + 4 * wordCount fr.body))) ∧
        (0 < x.toNat → x.toNat ≤ 2 ^ 24 → start (.repg c len stride) x.toNat)))

/-- R148, R149, R150: YIELD with an empty run list only advances, else the head of the run list becomes resident and the
thread, past the YIELD, is queued last; HALT of a quiet thread without groups retires it (one without a gang and with an
empty run list leaves its core with the thread RETIRED), and in an engine program halts the engine; TRAP takes SOFT_TRAP
with its operand as the address. -/
def Obligations.YieldHaltTrapResults : Prop :=
  ∀ (f : FmtA) (s : State), f.d.toNat = 48 → f.b.toNat = 48 →
    (∀ x, readScalar s 0 f.a = .ok x → TrapsAt (.trap f) s .softTrap x) ∧
    (f.a.toNat = 48 →
      (s.core.runList = [] → Completes (.yield f) s 1 f.s.toNat s) ∧
      (∀ c l, s.core.runList = c :: l → s.core.ctx.drained = true → s.core.ctx.busy = [] → s.core.lost = false →
        ∃ t, exec (.yield f) s = .next t ∧ t.me = s.me ∧ t.core.ctx.tid = c.tid ∧ t.core.ctx.status = .resident ∧
          t.core.ctx.residentAt = (t.cube t.myCube).clock ∧ t.core.runList.length = s.core.runList.length ∧
          (t.core.runList.getLast?.map fun k => (k.tid, k.status)) = some (s.core.ctx.tid, .queued)) ∧
      (s.seqr ≠ .main → exec (.halt f) s =
        .next ((s.past 1 f.s.toNat).modCtx fun c => c.modEngine s.seqr fun g => { g with running := false })) ∧
      (s.seqr = .main → haltQuiet s.core.ctx = true → deliver 0xFF [.matrix, .copy, .flue, .main] s = .ok () →
        s.core.ctx.stores = 0 → s.core.ctx.pend = [] → s.core.ctx.busy = [] →
        groupsOf s s.myCube s.core.ctx.tid = [] → exec (.halt f) s = .next (retireThread (s.past 1 f.s.toNat)) ∧
        (s.core.ctx.gang = none → s.core.runList = [] → ∃ t, exec (.halt f) s = .next t ∧ t.me = s.me ∧
          t.core.ctx.status = .retired ∧ t.core.ctx.tid = s.core.ctx.tid ∧ SameMemory s t)))

/-- R151: FOLLOW that is refused traps FOLLOW_INVALID with its operand; of the leader that the core follows already it does
nothing; else it completes with the core in the leader's set, detached, at the lowest hop that no member holds. R152: DETACH
of an attached follower sets TSW.DET and empties the chain that feeds it, with nothing else changed; of another core it does
nothing. R153: REJOIN completes and does nothing on a core that neither leads nor follows, on an attached follower, on a
follower whose leader's set does not name it, and on a leader whose followers are all attached; a detached follower of a
leader waits at it; a leader whose one follower is detached and waits at its REJOIN completes, and the follower then stands
past its REJOIN, attached where its address is the leader's. That REJOIN of a follower whose leader's set does not name it
completes is the model's choice (DEDUCED, log entry 30): R31 and R153 do not name the case. -/
def Obligations.FollowResults : Prop :=
  ∀ (f : FmtA) (s : State), f.d.toNat = 48 → f.b.toNat = 48 →
    (∀ x, readScalar s 0 f.a = .ok x →
      (followBad s x = true → TrapsAt (.follow f) s .followInvalid x) ∧
      (followBad s x = false →
        let l := s.myCube * 256 + x.toNat
        (tswFol s.regs.tsw = true → leaderOf s.me s.core.ctx = l → Completes (.follow f) s (wordsA f) f.s.toNat s) ∧
        ((tswFol s.regs.tsw = true → leaderOf s.me s.core.ctx ≠ l) → ∃ h t, 1 ≤ h ∧ h ≤ 7 ∧
          freeHop (leaveSet s s.me) l = some h ∧ Completes (.follow f) s (wordsA f) f.s.toNat t ∧
          tswFol t.regs.tsw = true ∧ tswDet t.regs.tsw = true ∧ tswLead t.regs.tsw = x.toNat % 8 ∧
          tswHop t.regs.tsw = h ∧ (t.getCore l).ctx.leads s.me = true))) ∧
    (f.a.toNat = 48 →
      let det := (s.modRegs fun r => { r with tsw := tswSet r.tsw 4 true }).core
      let done := Completes (.rejoin f) s (wordsA f) f.s.toNat
      let led := fun (g : Nat) => tswFol (s.getCore g).ctx.regs.tsw = true ∧ leaderOf g (s.getCore g).ctx = s.me
      (s.core.ctx.attached = true → Completes (.detach f) s (wordsA f) f.s.toNat
        { s with core := { det with chain := [] } }) ∧
      (s.core.ctx.attached = false → Completes (.detach f) s (wordsA f) f.s.toNat s) ∧
      (tswFol s.regs.tsw = false → followersOf s s.me = [] → done s) ∧
      (s.core.ctx.attached = true → done s) ∧
      (tswFol s.regs.tsw = true → (∀ c ∈ contextsOf s (leaderOf s.me s.core.ctx), c.leads s.me = false) → done s) ∧
      (tswFol s.regs.tsw = true → s.core.ctx.attached = false →
        (∃ c ∈ contextsOf s (leaderOf s.me s.core.ctx), c.leads s.me = true) →
        exec (.rejoin f) s = .next (s.setWait (.rejoin f.s.toNat))) ∧
      (tswFol s.regs.tsw = false →
        (∀ g ∈ followersOf s s.me, (s.getCore g).ctx.attached = true ∧ led g) → done s) ∧
      (∀ g, tswFol s.regs.tsw = false → followersOf s s.me = [g] → led g → (s.getCore g).ctx.attached = false →
        (s.getCore g).ctx.wait.rejoins = true → tswRa (s.getCore g).ctx.regs.tsw = false → ∃ t, done t ∧
          (t.getCore g).ctx.regs.pc = (s.getCore g).ctx.regs.pc + 4 ∧ (t.getCore g).ctx.wait = .none ∧
          ((s.getCore g).ctx.regs.pc = s.curPc → (t.getCore g).ctx.attached = true) ∧
          ((s.getCore g).ctx.regs.pc ≠ s.curPc → (t.getCore g).ctx.attached = false)))

/-- R155, R156, R85: RFE traps PRIVILEGED with PRIV clear. With PRIV set and a return record at an aligned offset it
restores the four mode bits and the repeat state, and goes to the record's pc; the other bits of TSW stand. -/
def Obligations.ReturnFromTrap : Prop :=
  ∀ (f : FmtA) (s : State),
    (s.priv = false → Traps (.rfe f) s .privileged) ∧
    (s.priv = true → f.d.toNat = 48 → f.b.toNat = 48 → ∀ o, readScalar s 0 f.a = .ok o →
      (o.toNat % 32 ≠ 0 → TrapsAccess (.rfe f) s .misaligned o .load (segOf s 0)) ∧
      (o.toNat % 32 = 0 → ∀ bs t, loadRaw s (segOf s 0) o 32 = .ok (bs, t) → bs.length = 32 →
        let rec_ := natOfBytes bs
        let pc := BitVec.ofNat 64 rec_
        let w := BitVec.ofNat 64 (rec_ / 2 ^ 64)
        pc.toNat % 4 = 0 → ∃ u, Jumps (.rfe f) s f.s.toNat u pc ∧
          (∀ k, k < 4 → u.regs.tsw.getLsbD k = w.getLsbD k) ∧ tswRa u.regs.tsw = w.getLsbD 6 ∧
          (∀ k, k = 4 ∨ k = 5 ∨ (7 ≤ k ∧ k < 24) → u.regs.tsw.getLsbD k = t.regs.tsw.getLsbD k) ∧
          (w.getLsbD 6 = true → tswRit u.regs.tsw = tswRit w ∧ tswRpos u.regs.tsw = tswRpos w ∧
            u.regs.repbase = BitVec.ofNat 64 (rec_ / 2 ^ 128) ∧ u.regs.rcnt = BitVec.ofNat 25 (rec_ / 2 ^ 213)) ∧
          (w.getLsbD 6 = false → tswRit u.regs.tsw = 0 ∧ tswRpos u.regs.tsw = 0 ∧ u.regs.repbase = t.regs.repbase ∧
            u.regs.rcnt = t.regs.rcnt) ∧
          u.core.ctx.board = []))

/-- R154, R106, R107: SRD pushes the register that its number names, with reserved bits zero, PCR as the next address; 21
and above trap ILLEGAL_FUNCT. R154, R106, R107: SWR writes the fields of the register that its number names (AIT where Stove
core 1 has not written it in the same cycle, R104); a register that no SWR writes traps ILLEGAL_FUNCT, and one that asks for
TSW.PRIV traps PRIVILEGED while PRIV is clear. -/
def Obligations.SpecialRegisterResults : Prop :=
  (∀ (f : FmtL) (s : State), DstOk f.d →
    let r := s.regs
    let shapes := fun (k : Nat) => (s.core.ctx.tiles.shape[k + 3]?.getD 0 ++ s.core.ctx.tiles.shape[k + 2]?.getD 0 ++
      s.core.ctx.tiles.shape[k + 1]?.getD 0 ++ s.core.ctx.tiles.shape[k]?.getD 0 : BitVec 64)
    let reads := fun (n : Nat) (x : Word) =>
      f.immNat = n → Completes (.srd f) s (1 + f.p.length) f.s.toNat (writeScalar 0 f.d x s)
    reads 0 r.tsw ∧ reads 1 (s.curPc + BitVec.ofNat 64 (4 * (1 + f.p.length))) ∧ reads 2 r.repbase ∧ reads 3 r.rsp ∧
    reads 4 r.rsl ∧ reads 5 (r.asid.setWidth 64) ∧ reads 6 ((s.cube s.myCube).ait.setWidth 64) ∧
    reads 7 (r.fmt.setWidth 64) ∧ reads 8 (shapes 0) ∧ reads 9 (shapes 4) ∧ reads 10 (r.tdirty.setWidth 64) ∧
    reads 11 (r.grpdirty.setWidth 64) ∧ reads 12 (r.mbstat.setWidth 64) ∧ reads 13 (r.mb[0]) ∧ reads 14 (r.mb[1]) ∧
    reads 15 (r.mb[2]) ∧ reads 16 (r.mb[3]) ∧ reads 17 (r.seg[0].setWidth 64) ∧ reads 18 (r.seg[1].setWidth 64) ∧
    reads 19 (r.seg[2].setWidth 64) ∧ reads 20 (r.seg[3].setWidth 64) ∧
    (21 ≤ f.immNat → Traps (.srd f) s .illegalFunct)) ∧
  (∀ (f : FmtL) (s : State) (x : Word), readScalar s 0 f.d = .ok x →
    let wide := s.priv = true
    let n := f.immNat
    let writes := fun (P : Prop) (k : Nat) (new : State → Prop) =>
      n = k → P → ∃ t, Completes (.swr f) s (1 + f.p.length) f.s.toNat t ∧ new t ∧ SameMemory s t ∧ t.regs.g = s.regs.g ∧
        t.regs.gq = s.regs.gq
    (n = 1 ∨ n = 2 ∨ n = 8 ∨ n = 9 ∨ 21 ≤ n → Traps (.swr f) s .illegalFunct) ∧
    (s.priv = false → n = 0 ∨ (3 ≤ n ∧ n ≤ 6) ∨ n = 10 ∨ n = 11 → Traps (.swr f) s .privileged) ∧
    writes wide 0 (fun t => (∀ k, k < 4 → t.regs.tsw.getLsbD k = x.getLsbD k) ∧
      (tswRa t.regs.tsw = (tswRa s.regs.tsw && tswRa x)) ∧
      (∀ k, 4 ≤ k → k ≠ 6 → ¬(24 ≤ k ∧ k < 52) → t.regs.tsw.getLsbD k = s.regs.tsw.getLsbD k)) ∧
    writes wide 3 (fun t => t.regs.rsp = x &&& ~~~7) ∧ writes wide 4 (fun t => t.regs.rsl = x) ∧
    writes wide 5 (fun t => t.regs.asid = x.extractLsb' 0 24) ∧
    writes (wide ∧ (s.cube s.myCube).aitStove ≠ some (s.cube s.myCube).clock) 6 (fun t => (t.cube s.myCube).ait = x.extractLsb' 0 16) ∧
    writes True 7 (fun t => t.regs.fmt = x.extractLsb' 0 2) ∧
    writes wide 10 (fun t => t.regs.tdirty = s.regs.tdirty &&& ~~~(x.extractLsb' 0 9)) ∧
    writes wide 11 (fun t => t.regs.grpdirty = s.regs.grpdirty &&& ~~~(x.extractLsb' 0 7)) ∧
    writes True 12 (fun t => t.regs.mbstat = s.regs.mbstat &&& ~~~(x.extractLsb' 0 12)) ∧
    (∀ k, k < 4 → writes True (13 + k) (fun t => t.regs.mb[k]? = some x)) ∧
    (∀ k, k < 4 → writes True (17 + k) (fun t => t.regs.seg[k]? = some (x.extractLsb' 0 16))))

/-! ### Memory -/

/-- R293, R248: a scalar load of n bytes at base + X · n completes with the sign- or zero-extended value of its bytes,
written and pushed with an interlocked result, or, where its answer comes later, with its request sent and its result
interlocked; an offset that breaks the alignment traps MISALIGNED. R445: a cacheable one that is sent counts a miss, and one
that its L1 does not serve whole counts as a load sent. -/
def Obligations.LoadResults : Prop :=
  ∀ (f : FmtM) (s : State) (b : Word), DstOk f.d → readScalar s 0 f.base = .ok b →
    ∀ p ∈ [(Instr.ldI8 f, 1, true), (.ldN8 f, 1, false), (.ldI16 f, 2, true), (.ldN16 f, 2, false), (.ldI32 f, 4, true),
      (.ldN32 f, 4, false), (.ld64 f, 8, false)],
    let n := p.2.1
    let o := b + offM f * BitVec.ofNat 64 n
    let seg := segOf s f.sg.toNat
    let w := ((regionAt s seg o).map winOf).getD 0
    let c : State := { s with core := s.core.count 6 1 }
    let parts := fun (ps : List Piece) => (if w = 0 then lineParts s ps else ps).length
    (o.toNat % alignOf (regionAt s seg o) n ≠ 0 → TrapsAccess p.1 s .misaligned o .load seg) ∧
    (o.toNat % alignOf (regionAt s seg o) n = 0 → ∀ q ps,
      place s seg o (scalarLen w n) .load (scalarAllow n) = .ok (q :: ps) →
      (q.place.region = .mmio →
        Completes p.1 s (1 + f.p.length) 0 (writeScalar 0 f.d
          (if p.2.2 then (BitVec.ofNat (8 * n) (mmioLoad s q.place.cube q.place.addr n)).signExtend 64
            else (BitVec.ofNat (8 * n) (mmioLoad s q.place.cube q.place.addr n)).setWidth 64) c)) ∧
      (q.place.region ≠ .mmio → s.answerLater = true → s.useL1 = false → poisonIn s (q :: ps) = none →
        s.mayRequest (.main s.me) (homeOf s q.place) .ordered 1 = true →
        Completes p.1 s (1 + f.p.length) 0 (sendLoad (if w = 0 then countMisses c [q] else c) q seg n p.2.2 f.d)) ∧
      (q.place.region ≠ .mmio → s.answerLater = false ∨ s.useL1 = true → ∀ bs t,
        loadPieces s .load seg (w = 0) (q :: ps) = .ok (bs, t) →
        let v := BitVec.ofNat (8 * n) (if w = 1 ∨ w = 2 ∨ w = 3 then winLoad w (natOfBytes bs) else natOfBytes bs)
        Completes p.1 s (1 + f.p.length) 0
          (writeScalar 0 f.d (if p.2.2 then v.signExtend 64 else v.setWidth 64) (countSent s (parts (q :: ps)) t))))

/-- R293, R292: a scalar store of n bytes sends the low bytes of d to base + X · n, counts one unacknowledged store and
writes no register; through an FP window it writes one element. No byte of memory changes before the write is performed at
its home. -/
def Obligations.StoreResults : Prop :=
  ∀ (f : FmtM) (s : State) (x b : Word), readScalar s 1 f.d = .ok x → readScalar s 0 f.base = .ok b →
    ∀ p ∈ [(Instr.st8 f, 1), (.st16 f, 2), (.st32 f, 4), (.st64 f, 8)],
    let n := p.2
    let o := b + offM f * BitVec.ofNat 64 n
    let seg := segOf s f.sg.toNat
    let w := ((regionAt s seg o).map winOf).getD 0
    (o.toNat % alignOf (regionAt s seg o) n ≠ 0 → TrapsAccess p.1 s .misaligned o .store seg) ∧
    (o.toNat % alignOf (regionAt s seg o) n = 0 → ∀ ps t,
      place s seg o (scalarLen w n) .store (scalarAllow n) = .ok ps →
      sendWrites s ps ((storeBytes w n x).map some) (if w = 7 then n else 0) true = .ok t →
      Completes p.1 s (1 + f.p.length) 0 { t with core := t.core.count 7 1 } ∧
      t.mem = s.mem ∧ t.regs = s.regs ∧ t.cubes = s.cubes ∧ t.cores = s.cores ∧
      (∀ q, ps = [q] → q.place.region ≠ .mmio → q.place.addr % 32 + q.len ≤ 32 → q.len = (storeBytes w n x).length →
        t.core.ctx.unacked = s.core.ctx.unacked + 1 ∧
        ∃ fl, t.flights = s.flights ++ [fl] ∧
          fl.body = .write q.place.addr ((storeBytes w n x).map some) (if w = 7 then n else 0) q.off ∧
          fl.cube = q.place.cube ∧ fl.home = homeOf s q.place))

/-- R246, R249: in the local segment an aligned footprint inside one window is one piece at the core's own scratchpad, so
that a store there is sent to the core itself with the address that the segment offset gives. R249, R291: past the end
of the local segment a byte is out of range. -/
def Obligations.LocalSegment : Prop :=
  (∀ (s : State) (o : Word) (n : Nat) (k : AccessKind) (allow : Region → Bool), 0 < n →
    o.toNat % 4096 + n ≤ 4096 → o.toNat + n ≤ 2 ^ 22 → allow (.spad s.me (o.toNat / 2 ^ 19)) = true →
    place s 0xFFFF o n k allow =
      .ok [⟨⟨.spad s.me (o.toNat / 2 ^ 19), s.me / 256, spadAddr s.me (o.toNat % 2 ^ 19), none, false⟩, o, n⟩]) ∧
  (∀ (s : State) (o : Word) (n : Nat) (k : AccessKind) (allow : Region → Bool), 0 < n → n ≤ 4096 → 2 ^ 22 ≤ o.toNat →
    place s 0xFFFF o n k allow =
      .error (.trap (s.report .addressRange o k 0xFFFF) s))

/-- R266, R268: a load of the same thread after its own store to the same aligned local bytes returns what was stored,
although the store had not been performed when the load issued. -/
def Obligations.OwnStoreIsSeen : Prop :=
  ∀ (s : State) (o : Nat) (x : Word) (n : Nat), n = 1 ∨ n = 2 ∨ n = 4 ∨ n = 8 → o % n = 0 → o + n ≤ 2 ^ 19 →
    Memory.wf s.mem = true → s.core.ctx.unacked = 0 → s.me < 163840 → Calm s s.myCube → ∀ ps, place s 0xFFFF (BitVec.ofNat 64 o) n .store (scalarAllow n) = .ok ps →
    ∃ t u, sendWrites s ps ((bytesOfNat n x.toNat).map some) 0 true = .ok t ∧ t.mem = s.mem ∧
      loadPieces t .load 0xFFFF false ps = .ok (bytesOfNat n x.toNat, u) ∧ u.core.ctx.unacked ≤ 1

/-- R294, R295, R277: LDA completes as a zero-extended load whose value is never from the L1, and then increments the
version of its scope; STL waits for its release and then sends its store. R274, R296: a FENCE with no kind completes
at once; one with the release or the fetch kind waits, unchanged, while a store is unacknowledged; reserved bits and
scopes trap ILLEGAL_FUNCT. -/
def Obligations.OrderingResults : Prop :=
  (∀ (f : FmtM) (s t : State) (b : Word), readScalar s 0 f.base = .ok b →
    let seg := segOf s f.sg.toNat
    let sc := (f.off.extractLsb' 0 3).toNat
    (∀ p ∈ [(Instr.lda32 f, 4), (.lda64 f, 8)], DstOk f.d →
      scalarLoad p.2 false false seg (b + offAcq f * BitVec.ofNat 64 p.2) f.d s = .ok t →
      Completes p.1 s (1 + f.p.length) 0 (acquire sc t)) ∧
    (∀ p ∈ [(Instr.stl32 f, 4), (.stl64 f, 8)], ∀ x, readScalar s 1 f.d = .ok x →
      scalarStore p.2 seg (b + offAcq f * BitVec.ofNat 64 p.2) x s = .ok t →
      (s.core.ctx.stores = 0 → s.core.ctx.pend = [] → Completes p.1 s (1 + f.p.length) 0 t) ∧
      (s.core.ctx.stores ≠ 0 → exec p.1 s = .next s)) ∧
    (1 ≤ sc → sc ≤ 4 → s.core.vers.length = 4 →
      (acquire sc s).core.vers[sc - 1]? = (s.core.vers[sc - 1]?).map (· + 1) ∧
      (∀ k, k ≠ sc - 1 → (acquire sc s).core.vers[k]? = s.core.vers[k]?) ∧
      (∀ l ∈ (acquire sc s).core.l1, l ∈ s.core.l1 ∧ lineTests s.me (plainHome s l.addr) sc = false) ∧
      (sc = 4 → (acquire sc s).core.once = []))) ∧
  (∀ (f : FmtL) (s : State),
    let v := f.immNat
    let quiet := s.core.ctx.stores = 0 ∧ s.core.ctx.pend = []
    (64 ≤ v ∨ 4 < v % 8 → Traps (.fence f) s .illegalFunct) ∧
    (v < 5 → Completes (.fence f) s (1 + f.p.length) f.s.toNat s) ∧
    (v < 64 → v % 8 < 5 → v / 16 % 4 ≠ 0 → s.core.ctx.stores ≠ 0 → exec (.fence f) s = .next s) ∧
    (v < 64 → v % 8 < 5 → quiet →
      (v / 16 % 4 = 1 → v / 8 % 2 = 0 → Completes (.fence f) s (1 + f.p.length) f.s.toNat s) ∧
      (v / 32 % 2 = 0 → v / 8 % 2 = 1 → Completes (.fence f) s (1 + f.p.length) f.s.toNat (acquire (v % 8) s)) ∧
      (v / 32 % 2 = 1 → ∃ t, Completes (.fence f) s (1 + f.p.length) f.s.toNat t ∧
        (∀ x ∈ (t.cube s.myCube).icache, x.1 ≠ s.myCore / 8) ∧ t.mem = s.mem ∧ t.regs = s.regs)))

/-- R297: a vector load whose parts are answered at once completes with lane k the element that its window's layout gives
it: VLD with every lane, VLDM with the lanes of the units that its mask makes active, and 0 in the others. R292: a vector store
sends the bytes of its active units and writes no register. -/
def Obligations.VectorMemoryResults : Prop :=
  (∀ (f : FmtM) (s t : State) (b : Word) (bs : List Byte) (ps : List Piece), DstOk f.d → readScalar s 0 f.base = .ok b →
    let seg := segOf s f.sg.toNat
    let o := b + offM f * 256
    let all : Word := BitVec.allOnes 64
    let w := vectorWin s seg o all
    let unit := fun (v i : Nat) => (bs.drop (i * unitBytes v)).take (unitBytes v)
    let sent := fun (v : Nat) => countSent s (if v = 0 then lineParts s ps else ps).length t
    let holds := fun (r : Vec) (v i u : Nat) =>
      (sxOfWin v = none → lane r u = BitVec.ofNat 32 (winLoad v (natOfBytes (unit v i)))) ∧
      (∀ m, sxOfWin v = some m → ∀ j, j < 16 →
        lane r (16 * u + j) = BitVec.ofNat 32 (f32.ofVal .rne 0 (sxElem m (natOfBytes (unit v i)) j)))
    (o.toNat % unitAlign w = 0 →
      s.answerLater = false ∨ s.useL1 = true →
      placeList s seg .load vectorAllow (cutRuns (unitRuns o (unitBytes w) (activeUnits w all))) = .ok ps →
      loadPieces s .load seg (w = 0) ps = .ok (bs, t) →
      ∃ r, Completes (.vld f) s (1 + f.p.length) 0 (writeVector 0 f.d r (sent w)) ∧
        ∀ u, u < 64 / unitLanes w → holds r w u u) ∧
    (∀ mask, readA1 s 2 = .ok mask →
      let v := vectorWin s seg o mask
      (activeUnits v mask = [] → Completes (.vldm f) s (1 + f.p.length) 0 (writeVector 0 f.d 0 s)) ∧
      (∀ u us, activeUnits v mask = u :: us →
        (o + BitVec.ofNat 64 (u * unitBytes v)).toNat % unitAlign v = 0 → s.answerLater = false ∨ s.useL1 = true →
        placeList s seg .load vectorAllow (cutRuns (unitRuns o (unitBytes v) (u :: us))) = .ok ps →
        loadPieces s .load seg (v = 0) ps = .ok (bs, t) →
        ∃ r, Completes (.vldm f) s (1 + f.p.length) 0 (writeVector 0 f.d r (sent v)) ∧
          (∀ i y, (u :: us)[i]? = some y → holds r v i y) ∧
          ∀ k, k < 64 → k / unitLanes v ∉ u :: us → lane r k = 0))) ∧
  (∀ (f : FmtM) (s t : State) (x : Vec) (b : Word) (ps : List Piece), readVector s 1 f.d = .ok x →
    readScalar s 0 f.base = .ok b →
    let seg := segOf s f.sg.toNat
    let o := b + offM f * 256
    let stores := fun (i : Instr) (mask : Word) =>
      let w := vectorWin s seg o mask
      (activeUnits w mask = [] → Completes i s (1 + f.p.length) 0 s) ∧
      (∀ u us, activeUnits w mask = u :: us →
        (o + BitVec.ofNat 64 (u * unitBytes w)).toNat % unitAlign w = 0 →
        placeList s seg .store vectorAllow (cutRuns (unitRuns o (unitBytes w) (u :: us))) = .ok ps →
        sendWrites s ps (((u :: us).flatMap fun u => unitStore w
          ((List.range (unitLanes w)).map fun i => (lane x (u * unitLanes w + i)).toNat)).map some)
          (if w = 7 then 4 else 0) false = .ok t →
        Completes i s (1 + f.p.length) 0 { t with core := t.core.count 7 1 } ∧ t.mem = s.mem ∧ t.regs = s.regs)
    stores (.vst f) (BitVec.allOnes 64) ∧ ∀ mask, readA1 s 2 = .ok mask → stores (.vstm f) mask)

/-- R298, R290, R301: in the own scratchpad's RAW window, with every active element aligned and the home at rest, VLDS and
VGATH complete with lane k the word at o + k · b or at o plus the sign-extended lane of b, and 0 where the mask makes it
inactive; VSTS, VSCAT and VAMO complete and put one request for each active lane in flight, in ascending lane order, with its
lane and address, count them unacknowledged and change no register and no byte of memory; the lowest active lane that is
misaligned traps MISALIGNED with its offset; an active lane of a VAMO on a poisoned atom traps MEM_UNCORRECTABLE before any is
sent (R235). Elsewhere: the loads complete with the words that their places hold where the
answers come at once, the stores with the writes that they send, VAMO with its requests, where the places are legal. R302:
PREF changes nothing but the L1. -/
def Obligations.GatherAndLaneAtomicResults : Prop :=
  (∀ (f : FmtA) (s : State) (a : Word), readScalar s 0 f.a = .ok a →
    let seg := (segAddr s a).1
    let o := (segAddr s a).2
    let lanes := fun (mask : Word) => (List.range 64).filter fun k => mask.getLsbD k
    let here := fun (off : Nat → Word) (k : Nat) => (off k).toNat % 4 = 0 ∧ (off k).toNat < 2 ^ 19
    let at_ := fun (off : Nat → Word) (k : Nat) => spadAddr s.me (off k).toNat
    let traps := fun (i : Instr) (off : Nat → Word) (mask : Word) (kind : AccessKind) =>
      ∀ j ∈ lanes mask, seg = 0xFFFF → (off j).toNat % 4 ≠ 0 → (off j).toNat < 2 ^ 19 →
        (∀ k ∈ lanes mask, k < j → here off k) → TrapsAccess i s .misaligned (off j) kind seg
    let local_ := fun (off : Nat → Word) (mask : Word) =>
      seg = 0xFFFF ∧ Calm s s.myCube ∧ ∀ k ∈ lanes mask, here off k
    let loads := fun (i : Instr) (off : Nat → Word) (mask : Word) =>
      traps i off mask .load ∧
      (local_ off mask → s.answerLater = false → ∃ r t,
        Completes i s (wordsA f) f.s.toNat (writeVector 0 f.d r t) ∧ t.mem = s.mem ∧ t.regs = s.regs ∧
        ∀ k, k < 64 → lane r k =
          if mask.getLsbD k then BitVec.ofNat 32 (natOfBytes (s.load (at_ off k) 4)) else 0) ∧
      (s.answerLater = false ∨ s.useL1 = true → ∀ l vals t, gather s seg off mask .load gatherAllow = .ok l →
        loadLanes seg s l = .ok (vals, t) →
        ∃ r, Completes i s (wordsA f) f.s.toNat (writeVector 0 f.d r
            (countSent s (l.flatMap fun x => if x.1.win = 0 then lineParts s x.2 else x.2).length t)) ∧
          ∀ k, k < 64 → lane r k = BitVec.ofNat 32 ((assoc vals k).getD 0))
    let sends := fun (i : Instr) (off : Nat → Word) (mask : Word) (body : Nat → Body) =>
      local_ off mask → s.core.ctx.stores ≤ 959 → ∃ t, Completes i s (wordsA f) f.s.toNat t ∧ t.mem = s.mem ∧
        t.regs = s.regs ∧ t.flights.map Flight.body = (lanes mask).map body ∧
        t.core.ctx.unacked = s.core.ctx.unacked + (lanes mask).length
    let stores := fun (i : Instr) (x : Vec) (off : Nat → Word) (mask : Word) =>
      traps i off mask .store ∧
      sends i off mask (fun k => .write (at_ off k) ((bytesOfNat 4 (lane x k).toNat).map some) 0 (off k)) ∧
      ∀ l t, gather s seg off mask .store gatherAllow = .ok l → s.core.ctx.stores + l.length ≤ 1023 →
        needRoom s (l.flatMap fun y => y.2.map fun p => homeOf s p.place) = .ok () → storeLanes x s l = .ok t →
        Completes i s (wordsA f) f.s.toNat { t with core := t.core.count 7 1 }
    (∀ b, readScalar s 1 f.b = .ok b →
      (DstOk f.d → loads (.vlds f) (fun k => o + BitVec.ofNat 64 k * b) (BitVec.allOnes 64)) ∧
      (∀ x, readVector s 2 f.d = .ok x →
        stores (.vsts f) x (fun k => o + BitVec.ofNat 64 k * b) (BitVec.allOnes 64))) ∧
    (∀ b mask, readVector s 1 f.b = .ok b → readA1 s 3 = .ok mask →
      let off := fun (k : Nat) => o + (lane b k).signExtend 64
      (DstOk f.d → loads (.vgath f) off mask) ∧
      (∀ x, readVector s 2 f.d = .ok x →
        stores (.vscat f) x off mask ∧
        ∀ i ∈ [(Instr.vamoAdd f, AtomicOp.add), (.vamoAnd f, .and), (.vamoOr f, .or), (.vamoXor f, .xor),
            (.vamoMin f, .min), (.vamoMax f, .max), (.vamoFadd f, .fadd)],
          traps i.1 off mask .atomic ∧
          sends i.1 off mask (fun k => .atomic i.2 (at_ off k) (lane x k) (off k)) ∧
          (∀ l, gather s seg off mask .atomic atomicRegion = .ok l →
            (∀ y ∈ l, ∀ p ∈ y.2, registered s p.place.cube p.place.addr 4 = false) →
            (∃ y ∈ l, ∃ p ∈ y.2, poisonIn s [p] ≠ none) → ∃ y ∈ l, ∃ p ∈ y.2, ∃ bad, poisonIn s [p] = some bad ∧
              TrapsAccess i.1 s .memUncorrectable bad .atomic seg) ∧
          ∀ l, gather s seg off mask .atomic atomicRegion = .ok l →
            (∀ y ∈ l, ∀ p ∈ y.2, registered s p.place.cube p.place.addr 4 = false ∧ poisonIn s [p] = none) →
            needRoom s (l.flatMap fun y => y.2.map fun p => homeOf s p.place) = .ok () →
            s.core.ctx.stores + l.length ≤ 1023 →
            ∃ t fs, Completes i.1 s (wordsA f) f.s.toNat t ∧ t.mem = s.mem ∧ t.regs = s.regs ∧
              t.core.ctx.unacked = s.core.ctx.unacked + l.length ∧ t.flights = s.flights ++ fs ∧
              fs.map Flight.body = l.filterMap fun y => y.2.head?.map fun p =>
                .atomic i.2 p.place.addr (lane x y.1.lane) y.1.off))) ∧
  (∀ (f : FmtM) (s : State) (b : Word), f.d.toNat = 48 → readScalar s 0 f.base = .ok b →
    ∃ t, Completes (.pref f) s (1 + f.p.length) 0 t ∧ { t with core := { t.core with l1 := s.core.l1 } } = s)

/-- R300: an AMO that is answered at once completes with the old value, zero-extended, after its access at its home as one
step; a release before it waits for the unacknowledged stores, and an acquire follows it; a misaligned one traps
MISALIGNED. R279: at its home an atomic reads the
old value and stores the operation's value, with no other byte of memory changed, where nothing holds the atom. -/
def Obligations.AtomicResults : Prop :=
  (∀ (f : FmtM) (s : State) (v b c : Word), DstOk f.d → readScalar s 1 f.d = .ok v → readScalar s 0 f.base = .ok b →
    readA1 s 2 = .ok c →
    let seg := segOf s f.sg.toNat
    let sc := (f.off.extractLsb' 0 3).toNat
    let does := fun (i : Instr) (op : AtomicOp) (n : Nat) =>
      let o := b + offAmo f * BitVec.ofNat 64 n
      (o.toNat % n ≠ 0 → TrapsAccess i s .misaligned o .atomic seg) ∧
      (o.toNat % n = 0 → ∀ p ps, place s seg o n .atomic atomicRegion = .ok (p :: ps) →
        (f.off.getLsbD 4 = true → s.core.ctx.stores ≠ 0 → exec i s = .next s) ∧
        (s.core.ctx.stores = 0 → s.core.ctx.pend = [] → s.answerLater = false ∨ f.off.getLsbD 3 = true → ∀ old t,
          atomicAt op n (v.toNat % 2 ^ (8 * n)) (if op = .cas then c.toNat % 2 ^ (8 * n) else 0) seg p s = .ok (old, t) →
          let u := writeScalar 0 f.d (BitVec.ofNat 64 old) { t with core := t.core.count 8 1 }
          Completes i s (1 + f.p.length) 0 (if f.off.getLsbD 3 then acquire sc u else u)))
    does (.amoadd64 f) .add 8 ∧ does (.amoand64 f) .and 8 ∧ does (.amoor64 f) .or 8 ∧ does (.amoxor64 f) .xor 8 ∧
    does (.amomin64 f) .min 8 ∧ does (.amomax64 f) .max 8 ∧ does (.amoswap64 f) .swap 8 ∧ does (.amocas64 f) .cas 8 ∧
    does (.amoadd32 f) .add 4 ∧ does (.amoand32 f) .and 4 ∧ does (.amoor32 f) .or 4 ∧ does (.amoxor32 f) .xor 4 ∧
    does (.amomin32 f) .min 4 ∧ does (.amomax32 f) .max 4 ∧ does (.amoswap32 f) .swap 4 ∧ does (.amocas32 f) .cas 4) ∧
  (∀ (op : AtomicOp) (n v c : Nat) (seg : BitVec 16) (p : Piece) (s : State), n = 4 ∨ n = 8 → v < 2 ^ (8 * n) →
    Memory.wf s.mem = true → s.flights = [] → p.place.region = .dram ∨ (∃ k, p.place.region = .spad k 0) →
    registered s p.place.cube p.place.addr n = false → mustWait (s.cube p.place.cube) none p.place.addr n = false →
    hostedIn s p.place.cube p.place.addr n = false → s.poison = [] → p.place.ilv = none →
    let old := natOfBytes (s.load p.place.addr n)
    ∃ t, atomicAt op n v c seg p s = .ok (old, t) ∧ SameMemoryBut s t p.place.addr n ∧
      natOfBytes (t.load p.place.addr n) = (match op with
        | .add => (old + v) % 2 ^ (8 * n)
        | .and => old &&& v
        | .or => old ||| v
        | .xor => old ^^^ v
        | .min => if (BitVec.ofNat (8 * n) v).toInt < (BitVec.ofNat (8 * n) old).toInt then v else old
        | .max => if (BitVec.ofNat (8 * n) old).toInt < (BitVec.ofNat (8 * n) v).toInt then v else old
        | .swap => v
        | .cas => if old = c then v else old
        | .fadd => f32.add old v % 2 ^ (8 * n)))

/-! ### Tiles and engines -/

/-- R189, R190, R192: an engine form of the tile opcodes issues into the matrix queue with the g values that it reads at
issue. R306, R331: the copy and flue instructions read their descriptors at issue and enter their engine's queue; a
descriptor that would run past the registers traps ILLEGAL_OPERAND. -/
def Obligations.EngineFormsEnqueue : Prop :=
  (∀ (f : FmtT) (s : State) (g : List Word), deliver f.wait.toNat [] s = .ok () →
    ∀ p ∈ [(Instr.tcfg f, 0x60, 0), (.tzero f, 0x60, 5), (.tfree f, 0x60, 6), (.tld f, 0x61, 0), (.tst f, 0x61, 1),
      (.tmmaBf16 f, 0x62, 0), (.tmmaSx7 f, 0x62, 1), (.tmmaSx4 f, 0x62, 2), (.tmmaSx2 f, 0x62, 3),
      (.gissueBf16 f, 0x63, 0), (.gissueSx7 f, 0x63, 1), (.gissueSx4 f, 0x63, 2), (.gissueSx2 f, 0x63, 3),
      (.taccrd f, 0x64, 0), (.taccwr f, 0x64, 1), (.tacczero f, 0x64, 2)],
    tileOperands p.2.1 p.2.2 f s = .ok g →
    Enqueues p.1 s (if f.p.isSome then 2 else 1) 0 .matrix (.tile p.2.1 p.2.2 f g) f.set.toNat f.wait) ∧
  (∀ (f : FmtA) (s : State) (g : Nat → Word), f.d.toNat = 48 → f.b.toNat = 48 →
    (∀ k, k < 4 → f.a.toNat + k < 32 → readG s k (f.a.toNat + k) = .ok (g k)) →
    (∀ p ∈ [(Instr.cpy f, CopyForm.cpy), (.cpym f, .cpym), (.cpyf f, .cpyf)],
      (28 < f.a.toNat → Traps p.1 s .illegalOperand) ∧
      (f.a.toNat ≤ 28 → deliver ((g 3).toNat / 8 % 256) [] s = .ok () →
        let c := copyOf p.2 s (g 0) (g 1) (g 2) (g 3)
        Enqueues p.1 s (wordsA f) f.s.toNat .copy (.copy { c with grp := copyGroup s c.grp }) ((g 3).toNat % 8)
          (BitVec.ofNat 8 ((g 3).toNat / 8 % 256)))) ∧
    (∀ p ∈ [(Instr.fcfg f, 0), (.fstart f, 1), (.fstop f, 2), (.fstat f, 3)],
      (29 < f.a.toNat → Traps p.1 s .illegalOperand) ∧
      (f.a.toNat ≤ 29 → deliver ((g 2).toNat / 8 % 256) [] s = .ok () →
        Enqueues p.1 s (wordsA f) f.s.toNat .flue (.flue p.2 (g 0) (g 1) false) ((g 2).toNat % 8)
          (BitVec.ofNat 8 ((g 2).toNat / 8 % 256)))))

/-- R196: with an empty matrix queue a row or column move is performed at once: TROWIN and TCOLIN write the addressed row or
column of a configured tile from the vector, TROWOUT and TCOLOUT deliver it, and a tile without a configuration, in an SX
format, or an index past its end traps. -/
def Obligations.TransferResults : Prop :=
  ∀ (f : FmtT) (s : State) (q : BitVec 24) (v : Vec) (ix : Word), f.p = some q →
    readVector s 0 (q.extractLsb' 0 6) = .ok v → readScalar s 1 (q.extractLsb' 6 6) = .ok ix →
    s.core.ctx.mq = [] → s.core.ctx.counted = [] → deliver f.wait.toNat [.matrix] s = .ok () →
    let k := f.td.toNat
    let t0 := s.core.ctx.tiles
    let sh := t0.shapeOf k
    let w := fmtBits (shapeFmt sh)
    let c := shapeCols sh
    let el := fun (t : TileRegs) (i j : Nat) => t.bits k / 2 ^ ((i * c + j) * w) % 2 ^ w
    let vl := fun (v : Vec) (j : Nat) => v.toNat / 2 ^ (w * j) % 2 ^ w
    let all := [Instr.trowin f, .trowout f, .tcolin f, .tcolout f]
    (shapeV sh = false → ∀ i ∈ all, Traps i s .tileUnconfigured) ∧
    (shapeV sh = true → (fmtSx (shapeFmt sh)).isSome = true → ∀ i ∈ all, Traps i s .tileFormat) ∧
    (shapeV sh = true → fmtSx (shapeFmt sh) = none → shapeRows sh * c * w ≤ 131072 →
      (shapeRows sh ≤ ix.toNat → Traps (.trowin f) s .tileShape ∧ Traps (.trowout f) s .tileShape) ∧
      (c ≤ ix.toNat → Traps (.tcolin f) s .tileShape ∧ Traps (.tcolout f) s .tileShape) ∧
      (ix.toNat < shapeRows sh →
        (∃ t, Completes (.trowin f) s 2 0 t ∧ ∀ i j, i < shapeRows sh → j < c →
          el t.core.ctx.tiles i j = if i = ix.toNat then vl v j else el t0 i j) ∧
        (∃ r, Completes (.trowout f) s 2 0 (writeVector 0 (q.extractLsb' 0 6) r s) ∧
          ∀ j, j < c → vl r j = el t0 ix.toNat j)) ∧
      (ix.toNat < c →
        (∃ t, Completes (.tcolin f) s 2 0 t ∧ ∀ i j, i < shapeRows sh → j < c →
          el t.core.ctx.tiles i j = if j = ix.toNat then vl v i else el t0 i j) ∧
        (∃ r, Completes (.tcolout f) s 2 0 (writeVector 0 (q.extractLsb' 0 6) r s) ∧
          ∀ i, i < shapeRows sh → vl r i = el t0 i ix.toNat)))

/-- R128, R129, R201: a product of tiles updates exactly the window of acc that A's and B's rows cover, each element block
by block of depth in ascending order with one rounding a block; every other element stands. -/
def Obligations.AccumulateWindow : Prop :=
  ∀ (acc : BitVec 983040) (row0 col0 depth : Nat) (a b : List (List FVal)) (sa sb : List FVal) (i j : Nat),
    i < 384 → j < 80 → row0 + a.length ≤ 384 → col0 + b.length ≤ 80 →
    let nb := blocksOf depth
    let sc := (List.range nb).map fun k => (sa.getD k (.fin false 1 0)).mul (sb.getD k (.fin false 1 0))
    accElem (mulInto acc row0 col0 depth a b sa sb) i j =
      if row0 ≤ i ∧ i < row0 + a.length ∧ col0 ≤ j ∧ j < col0 + b.length then
        updateElem (sc.zip ((blocks16 nb (a.getD (i - row0) [])).zip (blocks16 nb (b.getD (j - col0) []))))
          (accElem acc i j) % 2 ^ 32
      else accElem acc i j

/-! ### Decide-once cells -/

/-- R313: what a home does with a cell: PROPOSE decides an OPEN cell of its generation, DRETIRE opens the next generation or
ends the last, DINIT opens generation g, and every other request leaves the cell. R314, R315: with a legal scope (a
release before one other than 0) on an aligned valid cell whose home is at rest and answers at once, each instruction leaves
the cell as R313 says and completes: PROPOSE writes no register, DREAD and DRETIRE write the image that R313 leaves, DINIT
the image before; PROPOSE, and DREAD with H clear, install a decided image, and a DREAD with H clear whose core holds a
decided copy under its generation may complete with that (R317, R318); the acquire of the scope follows. DINIT traps PRIVILEGED
with PRIV clear. -/
def Obligations.OnceResults : Prop :=
  (∀ (g p cell : Nat), cell < 2 ^ 256 → g < 2 ^ 14 → cellLen p ≤ 24 →
    let st := cell % 4
    let gen := cell / 4 % 2 ^ 14
    (st = 0 → gen = g → cellState (onceNext 0 g p cell) = 1 ∧ cellGen (onceNext 0 g p cell) = g ∧
      cellLen (onceNext 0 g p cell) = cellLen p ∧
      onceNext 0 g p cell / 2 ^ 64 = p / 2 ^ 64 % 2 ^ (8 * cellLen p)) ∧
    (¬(st = 0 ∧ gen = g) → onceNext 0 g p cell = cell) ∧ onceNext 1 g p cell = cell ∧
    (st < 2 → gen = g → g < 16383 → onceNext 2 g p cell = (g + 1) * 4) ∧
    (st < 2 → gen = g → g = 16383 → cellState (onceNext 2 g p cell) = 2 ∧ cellGen (onceNext 2 g p cell) = g) ∧
    (¬(st < 2 ∧ gen = g) → onceNext 2 g p cell = cell) ∧ onceNext 3 g p cell = g * 4) ∧
  (∀ (f : FmtM) (s : State) (b gw : Word) (v : Vec) (p : Piece) (ps : List Piece),
    readScalar s 0 f.base = .ok b → readVector s 1 f.d = .ok v → readA1 s 2 = .ok gw → DstOk f.d →
    let seg := segOf s f.sg.toNat
    let o := b + offOnce f * 32
    let scope := (f.off.extractLsb' 0 3).toNat
    let own := v.toNat % 2 ^ 256
    (s.priv = false → Traps (.dinit f) s .privileged) ∧
    (scope ≤ 3 → (0 < scope → s.core.ctx.stores = 0 ∧ s.core.ctx.pend = []) → o.toNat % 32 = 0 →
      place s seg o 32 .once (fun r => r = .dram) = .ok (p :: ps) → p.place.once = true → p.place.ilv = none →
      s.core.ctx.asked = none → s.answerLater = false → Calm s p.place.cube →
      let at_ := p.place.addr
      let cell := natOfBytes (s.load at_ 32)
      let g := gw.toNat % 2 ^ 14
      let after := fun (new : Nat) => if new = cell then s else s.store at_ (bytesOfNat 32 new)
      let whole := cellState cell ≠ 3 ∧ cellLen cell ≤ 24
      let done := fun (i : Instr) (image : Nat) (t : State) =>
        Completes i s (1 + f.p.length) 0 (writeVector 0 f.d (BitVec.ofNat 2048 image) (acquire scope t))
      let decided := onceNext 0 (cellGen own) own cell
      (f.off.getLsbD 3 = false → cellLen own ≤ 24 → whole →
        Completes (.propose f) s (1 + f.p.length) 0 (acquire scope (onceInstall (after decided) at_ decided))) ∧
      (f.off.getLsbD 3 = true ∨ s.useL1 = false ∨ onceFind s at_ g = none → whole →
        done (.dread f) cell
          (if f.off.getLsbD 3 then s else onceInstall (if s.useL1 then s else onceDrop s at_) at_ cell)) ∧
      (f.off.getLsbD 3 = false → s.useL1 = true → ∀ image, onceFind s at_ g = some image → done (.dread f) image s) ∧
      (f.off.getLsbD 3 = false → whole → done (.dretire f) (onceNext 2 g 0 cell) (after (onceNext 2 g 0 cell))) ∧
      (f.off.getLsbD 3 = false → s.priv = true → done (.dinit f) cell (after (onceNext 3 g 0 cell)))))

/-! ### Queues and messages -/

/-- R361, R363, R364: MSGWAIT answers the header of the oldest message that matches, leaving it; RECV takes that message,
writes its payload to the scratchpad (whose home is at rest) and answers its header, or answers 0 where none matches; a
selector with a reserved bit, and an offset of RECV that is out of range or unaligned or that the payload would pass, trap
QUEUE_INVALID. R362, R365, R367: SEND, DEP and SPAWN wait for their release; then, with room in the class, each puts one request
in flight, the message with the bytes of the scratchpad, the deposit, or the packet as the thread completes it, and counts one
unacknowledged store; reserved bits and numbers of SEND and DEP out of range, and a template of SPAWN with another version, an
operation that there is not or a reserved bit, trap QUEUE_INVALID, and an unaligned template MISALIGNED. -/
def Obligations.MessageResults : Prop :=
  (∀ (f : FmtA) (s : State) (x : Word), DstOk f.d → readScalar s 0 f.a = .ok x →
    let hit := fun (m : Msg) => x.getLsbD 32 = true ∨ m.tag = x.extractLsb' 0 32
    (x.toNat / 2 ^ 33 ≠ 0 → f.b.toNat = 48 → Traps (.msgwait f) s .queueInvalid) ∧
    (∀ b, readScalar s 1 f.b = .ok b → x.toNat / 2 ^ 33 ≠ 0 ∨ 2 ^ 19 ≤ b.toNat ∨ b.toNat % 8 ≠ 0 →
      Traps (.recv f) s .queueInvalid) ∧
    (x.toNat / 2 ^ 33 = 0 →
      (∀ pre m post, f.b.toNat = 48 → s.core.msgs = pre ++ m :: post → (∀ y ∈ pre, ¬ hit y) → hit m →
        Completes (.msgwait f) s (wordsA f) f.s.toNat (writeScalar 0 f.d (msgHeader m) (acquire 3 s))) ∧
      (∀ b, readScalar s 1 f.b = .ok b → b.toNat < 2 ^ 19 → b.toNat % 8 = 0 →
        ((∀ y ∈ s.core.msgs, ¬ hit y) → Completes (.recv f) s (wordsA f) f.s.toNat (writeScalar 0 f.d 0 s)) ∧
        (∀ pre m post, s.core.msgs = pre ++ m :: post → (∀ y ∈ pre, ¬ hit y) → hit m →
          2 ^ 19 < b.toNat + m.payload.length → Traps (.recv f) s .queueInvalid) ∧
        (∀ pre m post, s.core.msgs = pre ++ m :: post → (∀ y ∈ pre, ¬ hit y) → hit m →
          b.toNat + m.payload.length ≤ 2 ^ 19 → Calm s s.myCube → Memory.wf s.mem = true →
          ∃ u, Completes (.recv f) s (wordsA f) f.s.toNat u ∧ u.core.msgs = pre ++ post ∧
            u.load (spadAddr s.me b.toNat) m.payload.length = m.payload ∧
            SameMemoryBut s u (spadAddr s.me b.toNat) m.payload.length ∧
            u.regs.gq = (msgHeader m :: s.regs.gq).take 16)))) ∧
  (∀ (f : FmtA) (s : State) (a b : Word), f.d.toNat = 48 → readScalar s 0 f.a = .ok a → readScalar s 1 f.b = .ok b →
    let quiet := s.core.ctx.stores = 0 ∧ s.core.ctx.pend = []
    let cube := a.toNat / 2 ^ 8 % 2 ^ 10
    let core := a.toNat % 2 ^ 8
    let off := b.toNat % 2 ^ 19
    let len := b.toNat / 2 ^ 32 % 2 ^ 10
    let room := fun (t : State) (h : Nat) => t.mayRequest (.main t.me) h .ordered 1 = true
    let sends := fun (i : Instr) (t : State) (c h : Nat) (body : Body) => ∃ u fl,
      Completes i s (wordsA f) f.s.toNat u ∧ u.flights = t.flights ++ [fl] ∧ fl.cube = c ∧ fl.home = h ∧ fl.body = body ∧
      fl.cls = .ordered ∧ u.core.ctx.unacked = t.core.ctx.unacked + 1 ∧ u.mem = t.mem ∧ u.regs = t.regs
    ((a.toNat / 2 ^ 20 ≠ 0 ∨ 639 < cube) → Traps (.dep f) s .queueInvalid) ∧
    (a.toNat / 2 ^ 20 = 0 → cube ≤ 639 →
      (s.core.ctx.stores ≠ 0 → exec (.dep f) s = .next s) ∧
      (quiet → room s (cube * 256 + core) → sends (.dep f) s cube (cube * 256 + core) (.deposit (cube * 256 + core) ⟨a.toNat / 2 ^ 18 % 4, b⟩))) ∧
    let bad := a.toNat / 2 ^ 18 % 2 ^ 14 ≠ 0 ∨ b.toNat / 2 ^ 19 % 2 ^ 13 ≠ 0 ∨ b.toNat / 2 ^ 42 ≠ 0 ∨ 639 < cube ∨
      512 < len ∨ len % 8 ≠ 0 ∨ off % 8 ≠ 0 ∨ 2 ^ 19 < off + len
    (bad → Traps (.send f) s .queueInvalid) ∧
    (¬ bad →
      (s.core.ctx.stores ≠ 0 → exec (.send f) s = .next s) ∧
      (quiet → Calm s s.myCube → sends (.send f) s cube (cube * 256 + core) (.message (cube * 256 + core)
        { tag := a.extractLsb' 32 32, score := s.myCore, scube := s.myCube, sys := false,
          payload := s.load (spadAddr s.me off) len }))) ∧
    ((segAddr s a).2.toNat % 64 ≠ 0 → TrapsAccess (.spawn f) s .misaligned (segAddr s a).2 .load (segAddr s a).1) ∧
    ((segAddr s a).2.toNat % 64 = 0 → ∀ bs t,
      loadRaw s (segAddr s a).1 (segAddr s a).2 128 = .ok (bs, t) →
      let p := BitVec.ofNat 1024 (natOfBytes bs)
      pVer p ≠ 1 ∨ pOp p = 0 ∨ 3 < pOp p ∨ pReserved p = true → TrapsAt (.spawn f) s .queueInvalid (segAddr s a).2) ∧
    ((segAddr s a).2.toNat % 64 = 0 → ∀ bs t q qs,
      loadRaw s (segAddr s a).1 (segAddr s a).2 128 = .ok (bs, t) → t.core.ctx = s.core.ctx →
      let p := BitVec.ofNat 1024 (natOfBytes bs)
      pVer p = 1 → 1 ≤ pOp p → pOp p ≤ 3 → pReserved p = false →
      place t (segAddr s b).1 (segAddr s b).2 1 .load (fun _ => true) = .ok (q :: qs) →
      (s.core.ctx.stores ≠ 0 → exec (.spawn f) s = .next { t with core := { t.core with perf := s.core.perf } }) ∧
      (quiet → room t (stoveHome q.place.cube) → sends (.spawn f) t q.place.cube (stoveHome q.place.cube)
        (.packet (setPf (setPf p 32 24 s.regs.asid.toNat) 64 57 (globalOf t q.place)) none true))))

/-- R355: GLAUNCH sends its GRAPH packet and waits; with the place of the admission reply it completes and writes it, and
a refusal traps GRAPH_QUEUE_FULL or PEER_LOST with the table's address. R420, R421, R423: RLAUNCH of a block that
passes every check, with a free launch slot, completes with the run admitted; a block with illegal fields or one that a launch
has registered, or an operand with reserved bits, traps REFINE_INVALID, and one without a free slot GRAPH_QUEUE_FULL. That the
walker checks and admits a block within the RLAUNCH itself, with no request and no reply, is the model's choice (DESIGN CHOICE,
log entry 50): R421 hands the block over and waits for the answer. RSTAT of a block of version 1 pushes its status word; a
misaligned one traps. -/
def Obligations.LaunchResults : Prop :=
  (∀ (f : FmtA) (s : State) (a b : Word) (n : Nat), DstOk f.d → readScalar s 0 f.a = .ok a → readScalar s 1 f.b = .ok b →
    let clear : State := s.modCtx fun c => { c with asked := none }
    (∀ ad image, s.core.ctx.asked = some (n, some ⟨ad, image, none⟩) →
      Completes (.glaunch f) s (wordsA f) f.s.toNat (writeScalar 0 f.d (BitVec.ofNat 64 image) clear)) ∧
    (∀ c, c = .graphQueueFull ∨ c = .peerLost → ∀ ad image, s.core.ctx.asked = some (n, some ⟨ad, image, some c⟩) →
      exec (.glaunch f) s = .next (takeTrap (clear.report c (segAddr s a).2 .none 0) clear)) ∧
    (s.core.ctx.asked = some (n, none) → exec (.glaunch f) s = .next s) ∧
    (∀ ps bs t cube l ilv, s.core.ctx.asked = none → (segAddr s a).2.toNat % 64 = 0 → s.core.ctx.stores = 0 →
      s.core.ctx.pend = [] → place s (segAddr s a).1 (segAddr s a).2 1 .load rawRegion = .ok ps →
      loadRaw s (segAddr s a).1 ((segAddr s a).2 + 24) 20 = .ok (bs, t) →
      let target := natOfBytes (bs.take 8) % 2 ^ 57
      resolveGlobal t target = .ok (cube, l, ilv, false) → peerLost t cube = false → mapHeld t = false → ∃ u fl p,
        exec (.glaunch f) s = .next u ∧ u.flights = t.flights ++ [fl] ∧ fl.cube = cube ∧ fl.home = stoveHome cube ∧
        fl.body = .packet p none true ∧ pVer p = 1 ∧ pOp p = 2 ∧ pTarget p = target ∧ pf p 128 64 = a.toNat ∧
        u.core.ctx.asked = some (fl.num, none) ∧ u.regs = t.regs ∧ u.mem = t.mem)) ∧
  (∀ (f : FmtA) (s t u : State) (a b : Word) (b0 b1 bs : List Byte) (pb pa px pw pv : List Piece),
    readScalar s 0 f.a = .ok a →
    let seg := (segAddr s a).1
    let o := (segAddr s a).2
    (DstOk f.d → f.b.toNat = 48 →
      (o.toNat % 32 ≠ 0 → TrapsAccess (.rstat f) s .misaligned o .load seg) ∧
      (o.toNat % 32 = 0 → loadRaw s seg o 8 = .ok (b0, t) → loadRaw t seg (o + 72) 8 = .ok (b1, u) →
        natOfBytes b0 % 256 = 1 →
        Completes (.rstat f) s (wordsA f) f.s.toNat
          (writeScalar 0 f.d (BitVec.ofNat 64 (natOfBytes b1)) (acquire 3 u)))) ∧
    (f.d.toNat = 48 → readScalar s 1 f.b = .ok b → deliver 0 [.main] s = .ok () → o.toNat % 32 = 0 →
      place s seg o 128 .load rawRegion = .ok pb → loadPieces s .load seg false pb = .ok (bs, t) →
      (refFieldsOk (natOfBytes bs) = false ∨ b.toNat / 2 ^ 36 ≠ 0 → TrapsAt (.rlaunch f) s .refineInvalid o) ∧
      (b.toNat / 2 ^ 36 = 0 → refFieldsOk (natOfBytes bs) = true →
        launchRegion t .load (rowsOf (natOfBytes bs)) = .ok pa → launchRegion t .load (bOf (natOfBytes bs)) = .ok pv →
        launchRegion t .store (xOf (natOfBytes bs)) = .ok px → launchRegion t .store (wOf (natOfBytes bs)) = .ok pw →
        refRegionsOk t t.myCube t.requester t.regs.seg.toList (natOfBytes bs) pb pa pv px pw = true →
        t.core.ctx.stores = 0 → t.core.ctx.pend = [] → t.core.ctx.slotCount (b.toNat / 2 ^ 32 % 8) < 255 →
        writeHeld t (.ok pb) = false →
        let q := t.cube t.myCube
        (blockRegistered q (rangesOf t pb) = true → TrapsAt (.rlaunch f) s .refineInvalid o) ∧
        (blockRegistered q (rangesOf t pb) = false →
          (freeSlot q = none → TrapsAt (.rlaunch f) s .graphQueueFull o) ∧
          ∀ slot, freeSlot q = some slot →
            Completes (.rlaunch f) s (wordsA f) f.s.toNat (admitRun t slot a b (natOfBytes bs) (rangesOf t pb))))))

/-- R366, R368, R369: MBCLR answers MBSTAT and clears the FULL bits that its operand names; FORK starts an idle engine at its
operand; RDV of engines that have halted with nothing queued completes. -/
def Obligations.EngineControlResults : Prop :=
  ∀ (f : FmtA) (s : State) (x : Word), readScalar s 0 f.a = .ok x →
    (DstOk f.d → f.b.toNat = 48 → ∃ t, Completes (.mbclr f) s (wordsA f) f.s.toNat
        (writeScalar 0 f.d (s.regs.mbstat.setWidth 64) t) ∧ t.mem = s.mem ∧ t.regs.mb = s.regs.mb ∧
        ∀ k, k < 12 → t.regs.mbstat.getLsbD k = (s.regs.mbstat.getLsbD k && !(decide (k < 4) && x.getLsbD k))) ∧
    (f.d.toNat = 48 → ∀ b, readScalar s 1 f.b = .ok b →
      (2 < x.toNat → Traps (.fork f) s .queueInvalid) ∧
      (∀ e, (x.toNat = 0 ∧ e = .matrix) ∨ (x.toNat = 1 ∧ e = .copy) ∨ (x.toNat = 2 ∧ e = .flue) →
        ((s.core.ctx.engine e).stopped = true → Traps (.fork f) s .queueInvalid) ∧
        ((s.core.ctx.engine e).stopped = false →
          (b.toNat % 4 ≠ 0 → TrapsAt (.fork f) s .pcMisaligned b) ∧
          (b.toNat % 4 = 0 → (s.core.ctx.engine e).running = false → s.core.ctx.stores = 0 → s.core.ctx.pend = [] →
            ∃ t, Completes (.fork f) s (wordsA f) f.s.toNat t ∧ (t.core.ctx.engine e).running = true ∧
              (t.core.ctx.engine e).pc = b ∧ t.regs = s.regs ∧ t.mem = s.mem)))) ∧
    (f.d.toNat = 48 → f.b.toNat = 48 →
      (8 ≤ x.toNat → Traps (.rdv f) s .queueInvalid) ∧
      (x.toNat < 8 → (∀ e ∈ enginesOf x.toNat, (s.core.ctx.engine e).running = false ∧ s.core.ctx.queue e = []) →
        deliver 0 (enginesOf x.toNat) s = .ok () → Completes (.rdv f) s (wordsA f) f.s.toNat s))

/-- R370, R385: an NRED of a member with legal operands, a completed release and room in the class enters its group's round
and sends one contribution in the REDUCE class to the router of its own cube, the first on the way to the root, counted as an
unacknowledged store; with stores unacknowledged it waits; reserved
bits, operations and cubes trap QUEUE_INVALID, and a rescaling one without a second vector ILLEGAL_OPERAND. -/
def Obligations.NetworkReductionResults : Prop :=
  ∀ (f : FmtA) (s : State) (x y : Word) (g : Group) (data second : Vec), f.d.toNat = 48 → f.b.toNat ≤ 30 →
    readG s 1 f.b.toNat = .ok x → readG s 2 (f.b.toNat + 1) = .ok y →
    let n := 4096 + x.toNat % 2 ^ 12
    let op := x.toNat / 2 ^ 12 % 8
    let cube := x.toNat / 2 ^ 24 % 2 ^ 10
    s.group s.myCube n = some g → g.num = n → (g.member s.core.ctx.tid).isSome = true →
    (4 < op ∨ x.toNat / 2 ^ 34 ≠ 0 ∨ 639 < cube → Traps (.nred f) s .queueInvalid) ∧
    (op = 4 → x.toNat / 2 ^ 34 = 0 → cube ≤ 639 → 30 < f.a.toNat → Traps (.nred f) s .illegalOperand) ∧
    (op ≤ 4 → x.toNat / 2 ^ 34 = 0 → cube ≤ 639 → readVector s 0 f.a = .ok data →
      (op = 4 → f.a.toNat ≤ 30 ∧ readVector s 3 (f.a + 1) = .ok second) → s.core.ctx.pend = [] →
      (s.core.ctx.stores ≠ 0 → exec (.nred f) s = .next s) ∧
      (s.core.ctx.stores = 0 →
        s.mayRequest (.main s.me) (256 * cube + x.toNat / 2 ^ 16 % 2 ^ 8) .reduce 1 = true →
        ∃ t fl c, Completes (.nred f) s (wordsA f) f.s.toNat t ∧ t.flights = s.flights ++ [fl] ∧
        fl.cls = .reduce ∧ fl.body = .contribution n c ∧ fl.cube = s.myCube ∧ fl.group = some (n - 4096) ∧
        t.group s.myCube n = some (joinRound g c s.numCtr) ∧ t.core.ctx.unacked = s.core.ctx.unacked + 1 ∧ c.taken = false ∧ c.tid = s.core.ctx.tid ∧ c.op = op ∧ c.data = data ∧
        (op = 4 → c.m = lane second 0 ∧ c.s = lane second 1) ∧ c.all = x.getLsbD 15 ∧
        c.rootCube = cube ∧ c.rootCore = x.toNat / 2 ^ 16 % 2 ^ 8 ∧ c.tag = y.extractLsb' 0 32 ∧ t.regs = s.regs ∧
        t.mem = s.mem))

/-! ### Groups, slots and counters -/

/-- R435, R437, R439: JOIN enters a group that is not bound yet, binding it, or one that is bound to the thread's ASID, as a
member that has not arrived, and of a member does nothing; one that would be the thread's ninth group, one bound to another
ASID, and one with a member on the same core trap GROUP_INVALID, and while a round is open it waits. ARRIVE records the arrival
and LEAVE removes the member, once their releases are done; ARRW and WAITB complete once their phase has released. A group that
the operand does not name, or of which the thread is no member, traps GROUP_INVALID, but for a JOIN of the latter. R430: when the last member of a cube-scope group arrives with the pending count zero, the phase is
released: the phase number moves on and every arrival record is of the phase before. -/
def Obligations.GroupResults : Prop :=
  (∀ (f : FmtA) (s : State) (x : Word) (n : Nat), f.d.toNat = 48 → f.b.toNat = 48 → readScalar s 0 f.a = .ok x →
    let tid := s.core.ctx.tid
    (groupNum s x = none → ∀ i ∈ [Instr.join f, .leave f, .arrive f, .arrw f, .waitb f], Traps i s .groupInvalid) ∧
    (groupNum s x = some n → (∀ g, s.group s.myCube n = some g → g.asid = s.asidId → g.member tid = none) →
      ∀ i ∈ [Instr.leave f, .arrive f, .arrw f, .waitb f], Traps i s .groupInvalid) ∧
    (groupNum s x = some n → s.group s.myCube n = none → (groupsOf s s.myCube tid).length < 8 →
      ∃ t g, Completes (.join f) s (wordsA f) f.s.toNat t ∧ t.group t.myCube n = some g ∧ g.asid = s.asidId ∧
        g.members = [⟨tid, s.me, none⟩] ∧ t.regs = s.regs ∧ t.mem = s.mem) ∧
    (∀ g, groupNum s x = some n → s.group s.myCube n = some g → g.num = n →
      (g.asid ≠ s.asidId → ∀ i ∈ [Instr.join f, .leave f, .arrive f, .arrw f, .waitb f], Traps i s .groupInvalid) ∧
      (g.asid = s.asidId → g.member tid = none →
        (8 ≤ (groupsOf s s.myCube tid).length ∨ (∃ m ∈ g.members, m.core = s.me) → Traps (.join f) s .groupInvalid) ∧
        ((groupsOf s s.myCube tid).length < 8 → (∀ m ∈ g.members, m.core ≠ s.me) →
          (g.rounds ≠ [] → ∃ t, exec (.join f) s = .next t ∧ t.regs = s.regs ∧ t.mem = s.mem ∧
            t.group s.myCube n = some g) ∧
          (g.rounds = [] → ∃ t, Completes (.join f) s (wordsA f) f.s.toNat t ∧
            t.group t.myCube n = some { g with members := g.members ++ [⟨tid, s.me, none⟩] } ∧ t.regs = s.regs ∧
            t.mem = s.mem)))) ∧
    (∀ g m, groupNum s x = some n → s.group s.myCube n = some g → g.num = n → g.asid = s.asidId → g.member tid = some m →
      Completes (.join f) s (wordsA f) f.s.toNat s ∧
      (m.arrived = some (g.phaseAt s.myCube) → Traps (.arrive f) s .groupInvalid) ∧
      (m.arrived ≠ some (g.phaseAt s.myCube) →
        (s.core.ctx.stores ≠ 0 → exec (.arrive f) s = .next s) ∧
        (s.core.ctx.stores = 0 → s.core.ctx.pend = [] →
          exec (.arrive f) s = .next (arriveAt (s.past 1 f.s.toNat) s.myCube n tid)) ∧
        Completes (.waitb f) s (wordsA f) f.s.toNat (acquire (if 4096 ≤ n then 3 else 2) s)) ∧
      (s.core.ctx.stores = 0 → s.core.ctx.pend = [] → g.rounds = [] →
        exec (.leave f) s = .next (removeMember (s.past 1 f.s.toNat) s.myCube n tid)) ∧
      (tswAp s.regs.tsw = true → ∀ k, m.arrived = some k → k ≠ g.phaseAt s.myCube →
        ∃ t, Completes (.arrw f) s (wordsA f) f.s.toNat t ∧ tswAp t.regs.tsw = false ∧ t.mem = s.mem))) ∧
  (∀ (s : State) (cube n tid : Nat) (g : Group), n < 4096 → s.group cube n = some g → g.num = n → g.launch = none →
    g.lag = [] → g.pending cube = 0 → (∃ m ∈ g.members, m.tid = tid) →
    (∀ m ∈ g.members, m.tid = tid ∨ m.arrived = some g.phase) →
    ∃ h, (arriveAt s cube n tid).group cube n = some h ∧ h.phase = g.phase + 1 ∧
      ∀ m ∈ h.members, m.arrived = some g.phase)

/-- R440-R442: DSWAIT completes where every slot of its mask is clear and none is marked; DSSET with nothing outstanding
completes and counts nothing, with stores unacknowledged it adds a marker to its slot. Reserved operand bits trap
COUNTER_INVALID. R443, R444: CNTRD pushes the counter that its selector names, of a slot, the unacknowledged stores, a
version, a group's barrier word (R429) or pending bytes, the wait slots, a performance or error counter or the clock; of a
network group's barrier it first performs the thread's earlier requests to the barrier home, or sends it a request and waits.
CNTADD of a member pushes the pending-byte count and adds to it. A selector with reserved bits, of a class that there is not,
out of its range, or of a group that is free or bound to another ASID, traps COUNTER_INVALID in both, and in CNTADD one of a
class other than 4 and a group of which the thread is no member. A TST counts among the unacknowledged stores while it is
queued (log entry 95). -/
def Obligations.SlotAndCounterResults : Prop :=
  (∀ (f : FmtA) (s : State) (x : Word), f.d.toNat = 48 → f.b.toNat = 48 → readScalar s 0 f.a = .ok x → s.seqr = .main →
    (256 ≤ x.toNat → Traps (.dswait f) s .counterInvalid) ∧
    (x.toNat = 0 → Completes (.dswait f) s (wordsA f) f.s.toNat s) ∧
    (x.toNat < 256 → (∀ c ∈ s.core.ctx.counted, x.toNat.testBit c.slot = false) → deliver x.toNat [] s = .ok () →
      Completes (.dswait f) s (wordsA f) f.s.toNat s) ∧
    (8 ≤ x.toNat → Traps (.dsset f) s .counterInvalid) ∧
    (x.toNat < 8 → s.core.ctx.slotCount x.toNat < 255 →
      (s.core.ctx.stores = 0 → s.core.ctx.pend = [] → Completes (.dsset f) s (wordsA f) f.s.toNat s) ∧
      (s.core.ctx.stores ≠ 0 → ∃ t, Completes (.dsset f) s (wordsA f) f.s.toNat t ∧
        t.core.ctx.slotCount x.toNat = s.core.ctx.slotCount x.toNat + 1 ∧ t.core.ctx.markers = s.core.ctx.markers ++ [s.numCtr] ∧
        t.regs = s.regs ∧ t.mem = s.mem))) ∧
  (∀ (f : FmtA) (s : State) (x : Word), DstOk f.d → readScalar s 0 f.a = .ok x →
    let cls := x.toNat / 2 ^ 16 % 16
    let idx := x.toNat % 2 ^ 13
    let legal := x.toNat / 2 ^ 13 % 8 = 0 ∧ x.toNat / 2 ^ 20 = 0
    let reads := fun (v : Word) => Completes (.cntrd f) s (wordsA f) f.s.toNat (writeScalar 0 f.d v s)
    let unbound := ∀ n g, groupNum s (BitVec.ofNat 64 idx) = some n → s.group s.myCube n = some g → g.asid ≠ s.asidId
    let ends := fun (c : Nat) => if c = 0 then 8 else if c = 1 ∨ c = 8 then 1 else if c = 2 then 4 else if c = 5 then 2 else 16
    (f.b.toNat = 48 →
      (¬ legal → Traps (.cntrd f) s .counterInvalid) ∧
      (legal →
        (9 ≤ cls → Traps (.cntrd f) s .counterInvalid) ∧
        (cls < 9 → cls ≠ 3 → cls ≠ 4 → ends cls ≤ idx → Traps (.cntrd f) s .counterInvalid) ∧
        (cls = 4 ∨ (cls = 3 ∧ (s.core.ctx.asked = none ∨ s.seqr ≠ .main)) → unbound → Traps (.cntrd f) s .counterInvalid) ∧
        (cls = 3 → s.core.ctx.asked = none ∨ s.seqr ≠ .main → ∀ g, counterGroup s idx = .ok g →
          (g.num < 4096 → reads (barrierWord s g)) ∧
          (4096 ≤ g.num → peerLost s g.home = false →
            (s.answerLater = false → ∀ t, drainPair s (256 * g.home) = .ok t →
              Completes (.cntrd f) s (wordsA f) f.s.toNat (writeScalar 0 f.d (barrierWord t g) t)) ∧
            (s.answerLater = true → s.seqr = .main → s.mayRequest (.main s.me) (256 * g.home) .ordered 1 = true →
              ∃ t fl, exec (.cntrd f) s = .next t ∧ t.flights = s.flights ++ [fl] ∧ fl.home = 256 * g.home ∧
                fl.cls = .ordered ∧ fl.body = .barrierRead g.num ∧ t.core.ctx.asked = some (fl.num, none) ∧ t.regs = s.regs ∧
                t.mem = s.mem))) ∧
        (cls = 3 → s.seqr = .main → ∀ num a image g, s.core.ctx.asked = some (num, some ⟨a, image, none⟩) →
          (groupNum s (BitVec.ofNat 64 idx)).bind (fun n => s.group s.myCube n) = some g →
          Completes (.cntrd f) s (wordsA f) f.s.toNat (writeScalar 0 f.d (BitVec.ofNat 64 (image + barrierLocal s g))
            (s.modCtx fun c => { c with asked := none }))) ∧
        (cls = 5 → idx < 2 → reads (BitVec.ofNat 64
          (waitsOn s s.myCube (if idx = 0 then WaitState.holds else WaitState.polls)))) ∧
        (cls = 0 → idx < 8 → reads (BitVec.ofNat 64 (s.core.ctx.slotCount idx % 256 +
          if s.core.ctx.marked idx then 256 else 0))) ∧
        (cls = 1 → idx = 0 → reads (BitVec.ofNat 64 s.core.ctx.stores)) ∧
        (cls = 2 → idx < 4 → reads (BitVec.ofNat 64 (s.core.vers.getD idx 0).toNat)) ∧
        (cls = 6 → ∀ h : idx < 16, reads ((s.core.perf[idx]'h).setWidth 64)) ∧
        (cls = 4 → ∀ g, counterGroup s idx = .ok g → reads ((g.pending s.myCube).signExtend 64)) ∧
        (cls = 7 → ∀ h : idx < 16, reads (((s.cube s.myCube).errs[idx]'h).setWidth 64)) ∧
        (cls = 8 → idx = 0 → reads (s.cube s.myCube).clock))) ∧
    (∀ b, readScalar s 1 f.b = .ok b →
      (¬ legal ∨ cls ≠ 4 ∨ unbound → Traps (.cntadd f) s .counterInvalid) ∧
      ∀ g, legal → cls = 4 → counterGroup s idx = .ok g → g.member s.core.ctx.tid = none →
        Traps (.cntadd f) s .counterInvalid) ∧
    (∀ b g, readScalar s 1 f.b = .ok b → legal → cls = 4 → counterGroup s idx = .ok g →
      (g.member s.core.ctx.tid).isSome = true →
      exec (.cntadd f) s = .next (stepPending (((writeScalar 0 f.d ((g.pending s.myCube).signExtend 64) s).past 1 f.s.toNat))
        s.myCube g.num (b.extractLsb' 0 48))))

/-! ### Range maps, migration, refinement -/

/-- R303, R304, R284, R343: MAPR of a legal range enters a map, beside those that its core holds already, whose scratchpad
rows hold the range's bytes; it waits where a copy engine owns an atom of the range or a kernel streams it, and traps MAP_CONFLICT
where the range meets a map of the cube, its rows meet those of a map of the core, or no entry is free; UNMAPR of an address that
no map of the core begins at changes nothing, and of the one that begins its map removes it. The reports of MAPR's other traps
(MISALIGNED and ADDRESS_RANGE with access kind none, PAGE_PROTECT with the kind of a decide-once access, all at the address A)
are the model's choice (DEDUCED, log entries 25 and 26), and so is that a range is legal where it stands contiguously in the own
cube's DRAM (DEDUCED, log entry 25). R305: MIGRATE to the own core only orders; to another core it sends the context there and leaves it in transit; a
thread in a group traps MIGRATE_GROUP, one that holds what cannot migrate MIGRATE_STATE. -/
def Obligations.RangeMapAndMigrateResults : Prop :=
  ∀ (f : FmtM) (s : State) (b d : Word) (p : Piece) (ps : List Piece), readScalar s 0 f.base = .ok b →
    readScalar s 1 f.d = .ok d →
    let seg := segOf s f.sg.toNat
    let a := b + offM f * 32
    let spo := d.toNat / 2 ^ 12 % 2 ^ 7
    let units := d.toNat / 2 ^ 24 % 2 ^ 7 + 1
    let n := 4096 * units
    let base := logicalAddr s p.place.addr
    (a.toNat % 4096 ≠ 0 → TrapsAccess (.mapr f) s .misaligned a .none seg) ∧
    (a.toNat % 4096 = 0 → 2 ^ 19 < 4096 * (spo + units) → TrapsAccess (.mapr f) s .addressRange a .none seg) ∧
    (∀ e size, a.toNat % 4096 = 0 → 4096 * (spo + units) ≤ 2 ^ 19 →
      place s seg a n .once (fun r => r = .dram) = .ok (p :: ps) → walk s s.regs.asid seg a.toNat = .ok (e, size) →
      let legal := e.getLsbD 5 = false ∧ a.toNat % size + n ≤ size ∧ contiguousDram s s.myCube base 0 (p :: ps) = true
      let clash := (∃ k m, k < 256 ∧ m ∈ (s.getCore (s.myCube * 256 + k)).maps ∧ meets base n m.base (4096 * m.units) = true) ∨
        (∃ m ∈ s.core.maps, meets spo units m.spo m.units = true)
      let free_ := notOwned s s.myCube base n = true ∧ streamed s s.myCube base n = false
      (¬ legal → TrapsAccess (.mapr f) s .pageProtect a .once seg) ∧
      (legal → freeMap s.core = none ∨ clash → TrapsAccess (.mapr f) s .mapConflict a .none seg) ∧
      ∀ i, legal → freeMap s.core = some i → ¬ clash →
        (¬ free_ → exec (.mapr f) s = .next (s.modCtx fun c => { c with wait := .mapping })) ∧
        (free_ → Memory.wf s.mem = true → ∃ t m, Completes (.mapr f) s (1 + f.p.length) 0 t ∧
          t.core.maps = s.core.maps ++ [m] ∧ m.index = i ∧ m.spo = spo ∧ m.units = units ∧ m.base = base ∧ m.fresh = true ∧
          (∀ l, l < n → memGet t.mem (spadAddr s.me (4096 * spo) + l) = memGet s.mem (base + l)) ∧ t.regs = s.regs)) ∧
    (f.d.toNat = 48 → place s seg a 1 .none (fun _ => true) = .ok (p :: ps) →
      ((∀ m ∈ s.core.maps, m.base ≠ base) ∨ p.place.region ≠ .dram → Completes (.unmapr f) s (1 + f.p.length) 0 s) ∧
      (∀ m, p.place.region = .dram → s.core.maps.find? (fun x => x.base == base) = some m →
        let still := notOwned s s.myCube (spadAddr s.me (4096 * m.spo)) (4096 * m.units)
        (still = false → exec (.unmapr f) s = .next s) ∧
        (still = true → ∃ t, Completes (.unmapr f) s (1 + f.p.length) 0 t ∧
          t.core.maps = s.core.maps.filter (fun x => x.index != m.index) ∧ t.regs = s.regs))) ∧
    (f.d.toNat = 48 →
      (groupsOf s s.myCube s.core.ctx.tid ≠ [] → Traps (.migrate f) s .migrateGroup) ∧
      (groupsOf s s.myCube s.core.ctx.tid = [] → migrateHeld s.core.ctx = true → Traps (.migrate f) s .migrateState) ∧
      (groupsOf s s.myCube s.core.ctx.tid = [] → migrateHeld s.core.ctx = false →
        place s seg a 1 .load (fun r => r != .mmio) = .ok (p :: ps) → s.core.ctx.stores = 0 → s.core.ctx.pend = [] →
        (homeOf s p.place = s.me →
          exec (.migrate f) s = .next (((acquire 4 s).advance (1 + f.p.length)).retire 0)) ∧
        (homeOf s p.place ≠ s.me → s.core.forwards.length < 8 → s.core.ctx.busy = [] → s.core.migrateHold = false →
          ∃ t c, exec (.migrate f) s = .next t ∧ t.core.ctx.status = .inTransit ∧
            (∃ fl, t.flights = s.flights ++ [fl] ∧ fl.body = .context (homeOf s p.place) c) ∧ c.tid = s.core.ctx.tid)))

/-! ### Results, steps and traps as a whole -/

/-- R12, R52, R162: what writing a result does. The value becomes age 1 of its queue and the entry of age 16 leaves; a
register is written where d names one; nothing else of the registers moves but the dirty bits. A mask goes to the scalar
queue. -/
def Obligations.ResultPush : Prop :=
  ∀ (lat : Nat) (d : BitVec 6) (x : Word) (y : Vec) (s : State),
    let a := s.regs
    let p := writeScalar lat d x s
    let q := writeVector lat d y s
    let r := writeMask lat d x s
    (p.regs.gq = (x :: a.gq).take 16 ∧ p.regs.vq = a.vq ∧ SameOutside s p ∧ SameSpecial a p.regs ∧ p.regs.pc = a.pc ∧
      SameRegs a p.regs (some d.toNat) none none ∧ (d.toNat < 32 → p.regs.g[d.toNat]? = some x) ∧
      (32 ≤ d.toNat → p.regs.g = a.g)) ∧
    (q.regs.vq = (y :: a.vq).take 16 ∧ q.regs.gq = a.gq ∧ SameOutside s q ∧ SameSpecial a q.regs ∧ q.regs.pc = a.pc ∧
      SameRegs a q.regs none (some d.toNat) none ∧ (d.toNat < 32 → q.regs.v[d.toNat]? = some y) ∧
      (32 ≤ d.toNat → q.regs.v = a.v)) ∧
    (r.regs.gq = (x :: a.gq).take 16 ∧ r.regs.vq = a.vq ∧ SameOutside s r ∧ SameSpecial a r.regs ∧ r.regs.pc = a.pc ∧
      SameRegs a r.regs none none (some d.toNat) ∧ (d.toNat < 8 → r.regs.m[d.toNat]? = some x) ∧
      (8 ≤ d.toNat → r.regs.m = a.m))

/-- The frame of the register instructions, formats A and L (R52, R55, R61, R162): whatever way one of them ends, it has
changed nothing, or it has trapped, or only its destination, the queue of its class, the pc and the repeat state have moved.
CNTRD of a network group's barrier, which may perform or send requests (R444), and VPK with a scale, which may append to a list
(R180), keep every register but these. -/
def Obligations.RegisterFrame : Prop :=
  (∀ (f : FmtL) (s t : State), ∀ i ∈ [Instr.li f, .lipc f, .addi f, .andi f, .ori f, .xori f, .slli f, .srli f, .srai f,
      .clti f, .cltui f, .ceqi f, .srd f], exec i s = .next t → t = s ∨ (∃ r, t = takeTrap r s) ∨
    (SameOutside s t ∧ SameSpecial s.regs t.regs ∧ SameRegs s.regs t.regs (some f.d.toNat) none none ∧
      t.regs.vq = s.regs.vq ∧ t.regs.gq.drop 1 = s.regs.gq.take 15)) ∧
  ∀ (f : FmtA) (s t : State),
    let d := some f.d.toNat
    let ends := fun (i : Instr) (P : Prop) => exec i s = .next t → t = s ∨ (∃ r, t = takeTrap r s) ∨
      (SameOutside s t ∧ SameSpecial s.regs t.regs ∧ P)
    let keeps := fun (i : Instr) (P : Prop) => exec i s = .next t → (∃ r u, t = takeTrap r u ∧ u.regs = s.regs) ∨
      t.regs = s.regs ∨ (SameSpecial s.regs t.regs ∧ P)
    let scalar := SameRegs s.regs t.regs d none none ∧ t.regs.vq = s.regs.vq ∧ t.regs.gq.drop 1 = s.regs.gq.take 15
    let vector := SameRegs s.regs t.regs none d none ∧ t.regs.gq = s.regs.gq ∧ t.regs.vq.drop 1 = s.regs.vq.take 15
    (∀ i ∈ [Instr.add f, .sub f, .adds f, .subs f, .min f, .max f, .minu f, .maxu f, .mul f, .mulh f, .mulhu f, .div f,
        .divu f, .rem f, .remu f, .and f, .or f, .xor f, .andn f, .sll f, .srl f, .sra f, .rol f, .ceq f, .cne f, .clt f,
        .cltu f, .sel f, .clz f, .ctz f, .popc f, .padd f, .psub f, .padds f, .psubs f, .pmul f, .pmin f, .pmax f, .pavg f,
        .mpop f, .mget f, .vext f], ends i scalar) ∧
    keeps (.cntrd f) scalar ∧
    (∀ x, readScalar s 0 f.a = .ok x → x.toNat / 2 ^ 16 % 16 ≠ 3 → ends (.cntrd f) scalar) ∧
    (∀ i ∈ [Instr.vaddI32 f, .vsubI32 f, .vaddsI32 f, .vsubsI32 f, .vminI32 f, .vmaxI32 f, .vmulI32 f, .vmulhI32 f, .vand f,
        .vor f, .vxor f, .vandn f, .vsll f, .vsrl f, .vsra f, .vsel f, .vaddF32 f, .vsubF32 f, .vmulF32 f, .vdivF32 f,
        .vminF32 f, .vmaxF32 f, .vfmaF32 f, .vfmsF32 f, .vaddF64 f, .vsubF64 f, .vmulF64 f, .vdivF64 f, .vminF64 f,
        .vmaxF64 f, .vfmaF64 f, .vfmsF64 f, .vperm f, .vshuf f, .vrsumF32 f, .vrmaxF32 f, .vrminF32 f, .vrsumF64 f,
        .vrsumI32 f, .vrmaxI32 f, .vrminI32 f, .vmov f, .vxget f, .vins f, .vbcast f, .mffs f, .vexp2 f, .vrcp f, .vrsqrt f,
        .vlog2 f, .vcvtF32I32 f, .vcvtI32F32 f, .vcvtF64F32 f, .vcvtF32F64 f, .vcvtBf16F32 f, .vcvtF32Bf16 f, .vcvtF16F32 f,
        .vcvtF32F16 f, .vupkSx2 f, .vupkSx4 f, .vupkSx7 f], ends i vector) ∧
    (∀ i ∈ [Instr.vpkSx2 f, .vpkSx4 f, .vpkSx7 f],
      keeps i vector ∧ ∀ c, readControl f true s = .ok c → c.sigma = none → ends i vector) ∧
    (∀ i ∈ [Instr.vceqF32 f, .vcltF32 f, .vcleF32 f, .vcunF32 f, .vceqI32 f, .vcltI32 f, .vcltuI32 f, .vcleI32 f, .mand f,
        .mor f, .mxor f, .mandn f, .mset f],
      ends i (SameRegs s.regs t.regs none none d ∧ t.regs.vq = s.regs.vq ∧ t.regs.gq.drop 1 = s.regs.gq.take 15))

/-- The frame of the memory instructions (R293, R295, R297, R300): a load and an AMO write their destination and push onto
the queue of its class; a store writes no register; all move the pc and the repeat state besides. A store changes no byte of
memory before it is performed at its home; a load changes none and an AMO only the bytes at its address, as its home's map
resolves it, where no earlier request is in flight. A trap saves the registers as they stood. -/
def Obligations.MemoryFrame : Prop :=
  ∀ (f : FmtM) (s t : State), Memory.wf s.mem = true →
    let d := some f.d.toNat
    let a := s.regs
    let ends := fun (i : Instr) (P Q : Prop) => exec i s = .next t →
      ((∃ r u, t = takeTrap r u ∧ u.regs = a) ∨ (SameSpecial a t.regs ∧ P)) ∧ Q
    let pushed := fun (new old : List Word) => new = old ∨ new.drop 1 = old.take 15
    (∀ i ∈ [Instr.ldI8 f, .ldN8 f, .ldI16 f, .ldN16 f, .ldI32 f, .ldN32 f, .ld64 f, .lda32 f, .lda64 f],
      ends i (SameRegs a t.regs d none none ∧ t.regs.vq = a.vq ∧ pushed t.regs.gq a.gq)
        (s.flights = [] → SameMemory s t)) ∧
    (∀ i ∈ [Instr.vld f, .vldm f],
      ends i (SameRegs a t.regs none d none ∧ t.regs.gq = a.gq ∧ (t.regs.vq = a.vq ∨ t.regs.vq.drop 1 = a.vq.take 15))
        (s.flights = [] → SameMemory s t)) ∧
    (∀ i ∈ [Instr.st8 f, .st16 f, .st32 f, .st64 f, .stl32 f, .stl64 f, .vst f, .vstm f],
      ends i (SameRegs a t.regs none none none ∧ t.regs.gq = a.gq ∧ t.regs.vq = a.vq) (SameMemory s t)) ∧
    (∀ p ∈ [(Instr.amoadd64 f, 8), (.amoand64 f, 8), (.amoor64 f, 8), (.amoxor64 f, 8), (.amomin64 f, 8), (.amomax64 f, 8),
        (.amoswap64 f, 8), (.amocas64 f, 8), (.amoadd32 f, 4), (.amoand32 f, 4), (.amoor32 f, 4), (.amoxor32 f, 4),
        (.amomin32 f, 4), (.amomax32 f, 4), (.amoswap32 f, 4), (.amocas32 f, 4)],
      ends p.1 (SameRegs a t.regs d none none ∧ t.regs.vq = a.vq ∧ pushed t.regs.gq a.gq)
        (s.flights = [] → ∀ b q qs, readScalar s 0 f.base = .ok b →
          place s (segOf s f.sg.toNat) (b + offAmo f * BitVec.ofNat 64 p.2) p.2 .atomic atomicRegion = .ok (q :: qs) →
          match settlePiece s .atomic (segOf s f.sg.toNat) q with
            | .ok q' => SameMemoryBut s t q'.place.addr p.2
            | .error _ => SameMemory s t))

/-- R210, R211, R213 steps 1 and 2, R29, R32, R191: taking a trap on the main sequencer records the report and stops the
thread, unless an instruction of it has its answer and completes first (R220, R315); an attached follower detaches; no register,
memory or request changes but TSW.DET. On an engine sequencer the fault is recorded, the engine stops, and its entries that are not yet performed are discarded with their slots marked. -/
def Obligations.TrapEntry : Prop :=
  ∀ (r : TrapReport) (s : State),
    let t := takeTrap r s
    let a := s.core.ctx
    let b := t.core.ctx
    (s.seqr = .main →
      b.trap = some r ∧ { t.regs with tsw := 0 } = { s.regs with tsw := 0 } ∧
      (∀ k, k ≠ 4 → t.regs.tsw.getLsbD k = s.regs.tsw.getLsbD k) ∧ b.attached = false ∧
      (a.attached = false → t.regs = s.regs) ∧
      b.tiles = a.tiles ∧ b.unacked = a.unacked ∧ b.pend = a.pend ∧ b.mq = a.mq ∧ b.cq = a.cq ∧ b.fq = a.fq ∧ b.tid = a.tid ∧
      t.mem = s.mem ∧ t.flights = s.flights ∧ t.cubes = s.cubes ∧ t.cores = s.cores ∧ t.core.runList = s.core.runList ∧
      (b.asked.bind Prod.snd = none → mayIssue t = false)) ∧
    (∀ e, s.seqr = e → e ≠ .main →
      (b.engine e).stopped = true ∧ (b.engine e).running = false ∧ (b.engine e).fault = some r ∧
      b.queue e = (a.queue e).takeWhile Entry.performed ∧
      (∀ x ∈ unperformed (a.queue e), b.marked x.slot = true) ∧ b.regs = a.regs ∧ b.trap = a.trap ∧
      t.mem = s.mem ∧ t.flights = s.flights ∧ t.cubes = s.cubes ∧ t.cores = s.cores)

/-- R30, R61, R66, R86: a turn of a sequencer that may issue, with nothing due at its boundary and its fetch granted, executes
the instruction that its words hold, then does what follows an instruction (the words that a follower is to execute are kept
meanwhile), which uses the grant up; without the grant it asks for it. Words that hold none trap the first decode fault; in an
engine program an instruction outside its class traps ENGINE_CLASS. -/
def Obligations.StepRunsTheDecodedInstruction : Prop :=
  ∀ (s : State) (core : Nat) (e : Sequencer) (later l1 : Bool) (rest : List Turn) (ws : List Word32) (t : State),
    rollbackStep s = none → s.agenda = .issue core e later l1 :: rest → core < 163840 →
    let b := turnOf core e later l1 { s with agenda := rest }
    let ends := fun (o : Host.Outcome State Fault Refusal) => step s = useFetch b (afterIssue (unhold b) ws o)
    mayIssue b = true → atBoundary b = none →
    (b.hasFetch core e = false → step s = .next (awaitFetch b core)) ∧
    (b.hasFetch core e = true → nextWords (unhold b) = .ok (ws, t) →
      (∀ i n, decodeWords ws = .ok (i, n) → classAllows e i.shape = true → ends (exec i { t with word := ws })) ∧
      (∀ i n, decodeWords ws = .ok (i, n) → classAllows e i.shape = false →
        ends (.next (takeTrap (t.report .engineClass t.curPc .none 0) { t with word := ws }))) ∧
      (∀ c, decodeWords ws = .error c →
        ends (.next (takeTrap (t.report (Machine.DecodeFault.code c) t.curPc .none 0) { t with word := ws }))))

/-- R40-R49 and the opcode tables: words written out from the spec's encodings decode to the instructions that they stand
for, and words that the spec refuses are refused with its fault. -/
def Obligations.WordsDecode : Prop :=
  let a := fun (d x y : Nat) (st : Nat) => FmtA.mk (BitVec.ofNat 6 d) (BitVec.ofNat 6 x) (BitVec.ofNat 6 y) (BitVec.ofNat 3 st) none
  decodeWords [0x01101090] = .ok (.adds (a 4 1 2 0), 1) ∧ decodeWords [0x03C01090] = .ok (.clt (a 48 1 2 0), 1) ∧
  decodeWords [0x030C10A0] = .ok (.sel (a 3 1 2 0), 1) ∧ decodeWords [0x440420CB] = .ok (.vcltF32 (a 1 2 3 3), 1) ∧
  decodeWords [0x411020F8] = .ok (.vsel (a 4 2 3 0), 1) ∧ decodeWords [0x92C02C28] = .ok (.rdv (a 48 2 48 0), 1) ∧
  decodeWords [0xFE0003E8, 0x01042C00] = .ok (.add ⟨1, 2, 48, 0, some 1000⟩, 2) ∧
  decodeWords [0x700C2016] = .ok (.ld64 ⟨3, 2, 0, 2, []⟩, 1) ∧ decodeWords [0x711467FA] = .ok (.st32 ⟨5, 6, 1, 0x7F, []⟩, 1) ∧
  decodeWords [0x3C2A5100] = .ok (.lpad 0x2A51, 1) ∧ decodeWords [0x3D100000] = .ok (.jt 4, 1) ∧
  decodeWords [0xFE0003E8, 0x010420C0] = .error .illegalPrefix ∧ decodeWords [0xFE0003E8, 0x05000C00] = .error .illegalPrefix ∧
  decodeWords [0xFE0003E8, 0x06000000] = .error .illegalOpcode ∧ decodeWords [0x04000038] = .error .illegalFunct ∧
  decodeWords [0x01042E80] = .error .illegalOperand ∧ decodeWords [0x20038000] = .error .illegalFunct ∧
  decodeWords [0xFE000000, 0xFE000000, 0xFE000000, 0x14040008] = .error .illegalPrefix ∧
  decodeWords [0xFE000000, 0x3C2A5100] = .error .illegalPrefix

/-- R40-R49, R66, R75-R86: decoding the words of any well-formed instruction, with any words after them, gives it back and
its number of words. -/
def Obligations.RoundTripAll : Prop :=
  ∀ (i : Instr) (rest : List Word32), i.wf = true → decodeWords (encode i ++ rest) = .ok (i, i.shape.words)

/-- The memory of a state in canonical form stays in it through every step (the model's own form of memory: log entry 1). -/
def Obligations.CanonicalKeptByStep : Prop := ∀ (s t : State), Canonical s → step s = .next t → Canonical t

/-- R88, R26, R27, R103, R276, R330, R350, R361, R377, R400, R425, R445, R446, R456: the machine after reset, in canonical form. -/
def Obligations.ResetState : Prop :=
  let s := State.reset
  let r := s.regs
  Canonical s ∧
  (∀ k, k < 32 → r.g[k]? = some 0 ∧ r.v[k]? = some 0) ∧ (∀ k, k < 192 → r.e[k]? = some 0) ∧ (∀ k, k < 8 → r.m[k]? = some 0) ∧
  r.gq = List.replicate 16 0 ∧ r.vq = List.replicate 16 0 ∧ r.fmt = 2 ∧ (∀ k, k < 4 → r.mb[k]? = some 0 ∧ r.seg[k]? = some 0) ∧
  r.mbstat = 0 ∧ r.tsw = 0 ∧ r.pc = 0 ∧ r.repbase = 0 ∧ r.rcnt = 0 ∧ r.ras = [] ∧ r.rsp = 0 ∧ r.rsl = 0 ∧ r.asid = 0 ∧
  r.grpdirty = 0 ∧ r.tdirty = 0 ∧ (∀ k, k < 8 → s.core.ctx.tiles.bits k = 0 ∧ s.core.ctx.tiles.shapeOf k = 0) ∧
  s.core.ctx.tiles.acc = 0 ∧ s.core.ctx.status = .none ∧ s.core.runList = [] ∧ s.core.msgs = [] ∧ s.core.vers = [0, 0, 0, 0] ∧
  s.core.maps = [] ∧ (∀ k, k < 16 → s.core.perf[k]? = some 0) ∧ s.flights = [] ∧
  (∀ c, (s.cube c).clock = 0 ∧ (s.cube c).ait = 48 ∧ (s.cube c).fgen = 0 ∧ (s.cube c).groups = [] ∧ (s.cube c).pifo = [] ∧
    (∀ k, k < 16 → (s.cube c).errs[k]? = some 0) ∧ (∀ f, f < 64 → (s.flue c f).st = .idle) ∧
    (∀ d, d < 6 → (s.cube c).links[d]? = some ⟨false, 0, 0, 0, []⟩) ∧ (s.cube c).imap.mgen = 0 ∧
    (s.cube c).stove.quantum = 2 ^ 20 ∧ (s.cube c).stove.power = 1100 ∧ (s.cube c).stove.trapTable = [] ∧
    (s.cube c).stove.gens = [] ∧ (s.cube c).stove.ready = false ∧ (s.cube c).stove.rank.length = 16)

/-! ### The matrix engine's forms -/

/-- R189, R190, R191, R194, R201, R202, R209: where its thread's engines may start work, the engine starts the form at its
queue's head once its wait mask is clear. A form that it performs stays as a marker until it completes; TSHAPE and TDIRTY show
it only then. A fault is recorded and stops the engine, a form that must wait changes nothing. TCFG, TZERO, TFREE, TLD,
TACCRD, TACCWR and TACCZERO leave what their rules say, TST sends its image to memory, a product replaces acc. A joint issue
updates the acc of every participant, or each of them records its fault (R203-R206). -/
def Obligations.TileFormResults : Prop :=
  ∀ (s : State) (core : Nat) (x : Entry) (l : List Entry) (op fn : Nat) (f : FmtT) (g : List Word), CoreInService s core →
    let b := { s.focus core with seqr := .main }
    let k := f.td.toNat
    let tl := b.core.ctx.tiles
    enginesMay b core = true → b.core.ctx.mq = x :: l → x.work = .tile op fn f g → isTransfer x = false →
    b.core.ctx.slotsClear x.wait.toNat x.id = true →
    let clean := b.modCtx Ctx.undirtied
    let after := fun (u : State) => { u with core := u.core.count 9 1 }.modCtx fun c =>
      (b.core.ctx.started c).modEntry .matrix x.id fun y => { y with work := Machine.Work.marker }
    let does := fun (P : TileRegs → Regs → Prop) => ∃ t, exec (.matrixFormStart core) s = .next t ∧
      P t.core.ctx.completeForm.tiles t.core.ctx.completeForm.regs ∧ t.core.ctx.tiles.shape = tl.shape ∧
      t.regs.tdirty = b.regs.tdirty ∧ t.mem = b.mem ∧ t.regs.g = b.regs.g ∧ t.regs.gq = b.regs.gq
    (op ≠ 0x63 → (∀ u, startForm x clean = .done u → exec (.matrixFormStart core) s = .next (after u)) ∧
      (∀ r, startForm x clean = .fault r →
        exec (.matrixFormStart core) s = .next (b.modCtx fun c => entryFault c .matrix x r)) ∧
      (startForm x clean = .wait → exec (.matrixFormStart core) s = .next b)) ∧
    (op = 0x63 → (∀ u, startForm x b = .done u →
        exec (.gissueJointIssue core) s = .next { u with core := u.core.count 9 1 }) ∧
      (b.myGang = none → exec (.gissueJointIssue core) s =
        .next (b.modCtx fun c => entryFault c .matrix x (x.report .gissueInvalid x.pc .none 0)))) ∧
    (op = 0x63 → ∀ gang rank, b.myGang = some gang → gridPlace gang core = some rank →
      let row := rowMembers b gang rank
      let ps := row.filterMap fun m => giHead b gang m.2.2 m.2.1
      let o := (row.find? fun m => m.1 % gang.cols == giCol f - gang.k0).map fun m => m.2.2
      let fault := fun (r : TrapReport) => ∃ t, exec (.gissueJointIssue core) s = .next t ∧ t.mem = b.mem ∧
        ∀ p ∈ ps, (t.getCore p.core).ctx = entryFault (b.getCore p.core).ctx .matrix p.entry r
      (giColOk gang f = false → exec (.gissueJointIssue core) s =
        .next (b.modCtx fun c => entryFault c .matrix x (x.report .gissueInvalid x.pc .none 0))) ∧
      (giColOk gang f = true → ps.length ≠ row.length → exec (.gissueJointIssue core) s = .next b) ∧
      (giColOk gang f = true → ps.length = row.length → (ps.map Participant.core).Nodup →
        (∀ r, ps.findSome? giCheck = some r → fault r) ∧
        (ps.findSome? giCheck = none →
          let alike := ps.all fun p => giCol p.f = giCol f && ps.all fun q =>
            q.fn = p.fn && giA q.g = giA p.g && giM q.g = giM p.g && giK q.g = giK p.g
          (alike = false → fault (x.report .gissueMismatch x.pc .none 0)) ∧
          (alike = true → ∀ source, o = some source → (ps.any fun p => giHeld b p source) = false →
            let m := mulFmt fn
            let n := giK g
            let image := fun (c off rows : Nat) => b.load (spadAddr c off) (imageLen m rows n)
            let sc := fun (bs : List Byte) => (List.range 4).map fun i => elemNat 32 (natOfBytes ((bs.drop 8).take 16)) i
            let vals := fun (bs : List Byte) (rows : Nat) =>
              (chunk (rowBytes m n) rows (bs.drop (imageHeader m))).map fun r => rowVals m n (natOfBytes r)
            let ia := image source (giA g) (giM g)
            (∀ p ∈ ps, p.fn = fn ∧ giA p.g = giA g ∧ giM p.g = giM g ∧ giK p.g = n) →
            (∀ p ∈ ps, b.poisoned (spadAddr source (giA g)) (imageLen m (giM g) n) = none ∧
              b.poisoned (spadAddr p.core (giB p.g)) (imageLen m (giN p.g) n) = none ∧
              let ib := image p.core (giB p.g) (giN p.g)
              scaleCheck m n (ia.headD 0).toNat (ib.headD 0).toNat (sc ia) (sc ib) = none) →
            ∃ t, exec (.gissueJointIssue core) s = .next t ∧ t.mem = b.mem ∧ ∀ p ∈ ps,
              let c := (b.getCore p.core).ctx
              let d := (t.getCore p.core).ctx.completeForm
              let ib := image p.core (giB p.g) (giN p.g)
              let w := p.g.getD 3 0
              d.tiles.acc = mulInto (if tswAccv c.regs.tsw then c.tiles.acc else 0) (originRow w) (originCol w) n
                (vals ia (giM g)) (vals ib (giN p.g)) (scaleVals m (sc ia)) (scaleVals m (sc ib)) ∧
              d.tiles.data = c.tiles.data ∧ d.tiles.shape = c.tiles.shape ∧ tswAccv d.regs.tsw = true ∧
              d.regs.tdirty = c.regs.tdirty ||| BitVec.ofNat 9 (2 ^ 8) ∧ d.regs.g = c.regs.g ∧ d.regs.gq = c.regs.gq)))) ∧
    (op = 0x60 → fn = 0 → ∀ q, f.p = some q → does fun t r => t.bits k = 0 ∧ t.shapeOf k = (1#1 ++ q.extractLsb' 0 15 : BitVec 16) ∧
      ((fmtSx (shapeFmt (t.shapeOf k))).isSome = true →
        t.scnt[k]? = some (BitVec.ofNat 8 (blocksOf (shapeCols (t.shapeOf k)))) ∧ t.scaleList k = List.replicate 4 0x3F800000) ∧
      r.tdirty = b.regs.tdirty ||| BitVec.ofNat 9 (2 ^ k) ∧ t.acc = tl.acc ∧
      (∀ j, j ≠ k → t.bits j = tl.bits j ∧ t.shapeOf j = tl.shapeOf j)) ∧
    (op = 0x60 → fn = 5 → (shapeV (tl.shapeOf k) = true → does fun t r => t.bits k = 0 ∧ t.shape = tl.shape ∧
        t.scales = tl.scales ∧ r.tdirty = b.regs.tdirty ||| BitVec.ofNat 9 (2 ^ k) ∧ (∀ j, j ≠ k → t.bits j = tl.bits j)) ∧
      (shapeV (tl.shapeOf k) = false → startForm x clean = .fault (x.report .tileUnconfigured x.pc .none 0))) ∧
    (op = 0x60 → fn = 6 → does fun t r => t.bits k = 0 ∧ t.shapeOf k = 0 ∧ t.scnt[k]? = some 0 ∧
      r.tdirty = b.regs.tdirty ||| BitVec.ofNat 9 (2 ^ k) ∧
      (∀ j, j ≠ k → t.bits j = tl.bits j ∧ t.shapeOf j = tl.shapeOf j)) ∧
    (op = 0x64 → fn = 2 → does fun t r => tswAccv r.tsw = false ∧ t.data = tl.data ∧
      r.tdirty = b.regs.tdirty ||| BitVec.ofNat 9 (2 ^ 8)) ∧
    (op = 0x64 → fn ≤ 1 →
      let j := if fn = 0 then k else f.ta.toNat
      let sh := tl.shapeOf j
      let r0 := (g.headD 0).toNat % 2 ^ 9
      let c0 := (g.headD 0).toNat / 2 ^ 16 % 2 ^ 7
      let n := 32 * shapeCols sh
      let old := if tswAccv b.regs.tsw then tl.acc else 0
      let bad := fun (c : TrapCode) => startForm x clean = .fault (x.report c x.pc .none 0)
      (shapeV sh = false → bad .tileUnconfigured) ∧
      (shapeV sh = true →
        (shapeFmt sh ≠ 0 → bad .tileFormat) ∧
        (shapeFmt sh = 0 →
          ((384 < r0 + shapeRows sh ∨ 80 < c0 + shapeCols sh) → bad .accRange) ∧
          (r0 + shapeRows sh ≤ 384 → c0 + shapeCols sh ≤ 80 →
            (fn = 0 → does fun t r => t.acc = tl.acc ∧ t.shape = tl.shape ∧ r.tsw = b.regs.tsw ∧
              r.tdirty = b.regs.tdirty ||| BitVec.ofNat 9 (2 ^ k) ∧ (∀ i, i ≠ k → t.bits i = tl.bits i) ∧
              t.data[k]? = some (BitVec.ofNat 131072 (packNat n ((List.range (shapeRows sh)).map fun i =>
                getBits (accRow old (r0 + i)) (32 * c0) n)))) ∧
            (fn = 1 → does fun t r => t.data = tl.data ∧ t.shape = tl.shape ∧ tswAccv r.tsw = true ∧
              r.tdirty = b.regs.tdirty ||| BitVec.ofNat 9 (2 ^ 8) ∧
              t.acc = (List.range (shapeRows sh)).foldl (fun acc i =>
                setAccRow acc (r0 + i) (putBits (accRow acc (r0 + i)) (32 * c0) n (tl.row j i))) old))))) ∧
    (op = 0x61 → fn ≤ 1 →
      let sh := tl.shapeOf k
      let sx := (fmtSx (shapeFmt sh)).isSome
      let q := f.p.getD 0
      let a := g.headD 0
      let seg := x.seg.getD (q.extractLsb' 6 2).toNat 0
      let stride := (q.extractLsb' 8 16).toNat
      let unit := if sx then 32 else if shapeFmt sh = 0 then 4 else 2
      let kind := if fn = 0 then AccessKind.load else AccessKind.store
      let n := rowBytes (shapeFmt sh) (shapeCols sh)
      let l := (if sx then [(a, 32)] else []) ++ imageRows a (shapeFmt sh) (shapeRows sh) (shapeCols sh) stride
      let bad := fun (r : TrapReport) => startForm x clean = .fault r
      (shapeV sh = false → bad (x.report .tileUnconfigured x.pc .none 0)) ∧
      (shapeV sh = true → a.toNat % unit ≠ 0 ∨ stride % (if sx then 2 else unit) ≠ 0 → bad (x.report .misaligned a kind seg)) ∧
      (shapeV sh = true → a.toNat % unit = 0 → stride % (if sx then 2 else unit) = 0 →
        (∀ e, placeParts clean (x.requester core) seg kind l = .error e → e.held = false → bad (x.refusal e kind seg)) ∧
        ∀ ps, placeParts clean (x.requester core) seg kind l = .ok ps →
          (∀ ls, fn = 0 → (ps.mapM fun p => p.mapM (landed clean)) = some ls → ownedPieces clean ls.flatten = false →
            (∀ off, poisonIn clean ls.flatten = some off → bad (x.report .memUncorrectable off .load seg)) ∧
            (poisonIn clean ls.flatten = none →
              let bytes := ls.map (readPieces clean)
              let head := bytes.headD []
              does fun t r => t.acc = tl.acc ∧ t.shape = tl.shape ∧ r.tdirty = b.regs.tdirty ||| BitVec.ofNat 9 (2 ^ k) ∧
                (∀ i, i ≠ k → t.bits i = tl.bits i) ∧
                t.data[k]? = some (BitVec.ofNat 131072 (packNat (8 * n) ((if sx then bytes.tail else bytes).map natOfBytes))) ∧
                (sx = true → t.scnt[k]? = some (head.getD 0 0) ∧
                  t.scales[k]? = some (BitVec.ofNat 128 (natOfBytes ((head.drop 8).take 16)))) ∧
                (sx = false → t.scnt = tl.scnt ∧ t.scales = tl.scales))) ∧
          (fn = 1 →
            let ws := (ps.zip (imageBytes tl k stride)).flatMap fun p =>
              mergeAtoms (writesOf (p.2.map some) (clipPieces p.2.length p.1))
            (∀ w, (ws.find? fun w => registered clean w.1.cube w.2.1 w.2.2.1.length) = some w →
              bad (x.report .graphBusy w.2.2.2 .store seg)) ∧
            ((ws.any fun w => registered clean w.1.cube w.2.1 w.2.2.1.length) = false →
              b.core.ctx.unacked + ws.length ≤ 1023 →
              ∃ t fs, exec (.matrixFormStart core) s = .next t ∧ t.mem = b.mem ∧ t.core.ctx.tiles = tl ∧
                t.core.ctx.unacked = b.core.ctx.unacked + ws.length ∧ t.flights = b.flights ++ fs ∧
                fs.map (fun (y : Flight) => (y.cls, y.cube, y.tid, y.body)) =
                  ws.map fun w => (Class.adaptive, w.1.cube, b.core.ctx.tid, Body.write w.2.1 w.2.2.1 0 w.2.2.2))))) ∧
    (op = 0x62 → fn < 4 →
      let m := mulFmt fn
      let sa := tl.shapeOf f.ta.toNat
      let sb := tl.shapeOf f.tb.toNat
      let o := g.headD 0
      let rows := fun (j n : Nat) => (List.range n).map fun i => rowVals m (shapeCols sa) (tl.row j i)
      let bad := fun (c : TrapCode) => startForm x clean = .fault (x.report c x.pc .none 0)
      ((shapeV sa = false ∨ shapeV sb = false) → bad .tileUnconfigured) ∧
      (shapeV sa = true → shapeV sb = true →
        ((shapeFmt sa ≠ m ∨ shapeFmt sb ≠ m) → bad .tileFormat) ∧
        (shapeFmt sa = m → shapeFmt sb = m →
          (shapeCols sb ≠ shapeCols sa → bad .tileShape) ∧
          (shapeCols sb = shapeCols sa →
            let r0 := o.toNat % 2 ^ 9
            let c0 := o.toNat / 2 ^ 16 % 2 ^ 7
            ((384 < r0 + shapeRows sa ∨ 80 < c0 + shapeRows sb) → bad .accRange) ∧
            (r0 + shapeRows sa ≤ 384 → c0 + shapeRows sb ≤ 80 →
              scaleCheck m (shapeCols sa) (tl.scnt[f.ta.toNat]?.getD 0).toNat (tl.scnt[f.tb.toNat]?.getD 0).toNat
                (tl.scaleList f.ta.toNat) (tl.scaleList f.tb.toNat) = none →
              does fun t r => t.data = tl.data ∧ t.shape = tl.shape ∧ tswAccv r.tsw = true ∧
                t.acc = mulInto (if tswAccv b.regs.tsw then tl.acc else 0) r0 c0 (shapeCols sa)
                  (rows f.ta.toNat (shapeRows sa)) (rows f.tb.toNat (shapeRows sb))
                  (scaleVals m (tl.scaleList f.ta.toNat)) (scaleVals m (tl.scaleList f.tb.toNat)))))))

/-! ### Events -/

/-- R238, R456: an event of a cube or core outside the domain stops with a fault of its own name; while a cube is tripped
its events change nothing; a trip holds, and a clamp stops and releases, the cores of the cube. -/
def Obligations.EventsOutsideService : Prop :=
  ∀ (s : State) (cube core : Nat),
    (640 ≤ cube → exec (.thermalClamp cube) s = .fault .outsideDomain ∧ exec (.coreClockCycle cube) s = .fault .outsideDomain ∧
      exec (.pifoAdmission cube) s = .fault .outsideDomain ∧ ∀ b, exec (.powerOnReset cube b) s = .fault .outsideDomain) ∧
    (163840 ≤ core → exec (.contextSave core) s = .fault .outsideDomain ∧ exec (.interrupt core) s = .fault .outsideDomain ∧
      exec (.matrixFormStart core) s = .fault .outsideDomain) ∧
    (cube < 640 → (s.cube cube).tripped = true → ∀ i ∈ [Instr.thermalClampEnd cube, .coreClockCycle cube,
      .pifoAdmission cube, .cubeThermalTrip cube, .nodeCompletion cube], exec i s = .next s) ∧
    (InService s cube →
      (∃ t, exec (.thermalClamp cube) s = .next t ∧ (t.cube cube).clamped = true ∧ t.mem = s.mem ∧
        (t.focus core).core = (s.focus core).core ∧ (core / 256 = cube → ∀ e, mayIssue { t.focus core with seqr := e } = false)) ∧
      (∃ t, exec (.thermalClampEnd cube) s = .next t ∧ (t.cube cube).clamped = false ∧ t.mem = s.mem) ∧
      (∃ t, exec (.cubeThermalTrip cube) s = .next t ∧ (t.cube cube).tripped = true ∧ t.mem = s.mem ∧
        (t.cube cube).stove.errlog.head?.map (fun x => x.extractLsb' 0 16) = some 0x76))

/-- R51, R234, R257, R258, R264, R286, R376, R377, R387, R389, R393, R394, R446, R452: what links, memories, refresh, the
clock and the host port do to a cube in service: a link that trains at both of its ends is up and routes use it, one that goes
down is closed, avoided and reported by both ends; a replay is counted; a corrected error is counted; a refresh begins and ends; the clock moves on; a host
read sets HB of the atoms that it takes, a response or a timeout clears it; a doorbell sends the packet of its slot, or is
ignored; a slot's word is written; an image is kept in recovery; an interleave map is installed. -/
def Obligations.CubeUnitEvents : Prop :=
  ∀ (s : State) (cube : Nat), InService s cube →
    let q := s.cube cube
    let b := s.focus (cube * 256)
    let does := fun (i : Instr) (P : State → Cube → Prop) => ∃ t, exec i s = .next t ∧ P t (t.cube cube)
    let closed := fun (link : Nat) (l : Link) (t : State) => (t.cube cube).links[link]? = some { l with up := false, lanes := 0 } ∧
      t.mem = s.mem ∧ ∀ e ∈ linkEnds cube link, ((t.cube e.1).links[e.2]?).map Link.up ≠ some true ∧
        ⟨e.1, e.2, s.numCtr + 1⟩ ∈ t.detours ∧ (t.cube e.1).stove.errlog.head?.map (fun x => x.extractLsb' 0 16) = some 0x72
    (∀ link lanes v ig l, link < 6 → q.links[link]? = some l →
      (trains s cube link = true → 0 < v → 8 ≤ lanes → does (.linkTraining cube link lanes v ig) fun t c =>
        let n := if 16 ≤ lanes then 16 else 8
        c.links[link]? = some ⟨true, n, min 1 v, l.replay, ig.take 16⟩ ∧ t.mem = s.mem ∧
        ((t.cube (neighbourCube cube link)).links[opposite link]?).map (fun x => (x.up, x.lanes, x.ver)) = some (true, n, min 1 v) ∧
        ∀ d ∈ t.detours, (d.cube, d.dir) ∉ linkEnds cube link) ∧
      (trains s cube link = true → 0 < v → lanes < 8 → does (.linkTraining cube link lanes v ig) fun t _ => closed link l t) ∧
      (trains s cube link = false → exec (.linkTraining cube link lanes v ig) s = .next b)) ∧
    (∀ link (l : Link), q.links[link]? = some l →
      (does (.flitReplay cube link) fun t c => c.links[link]? =
        some { l with replay := if l.replay = BitVec.allOnes 32 then l.replay else l.replay + 1 } ∧ t.mem = s.mem ∧
        t.flights = s.flights ∧ c.errs[7]? = (q.errs[7]?).map fun v => if v = BitVec.allOnes 48 then v else v + 1) ∧
      (l.up = true → does (.linkDown cube link) fun t _ => closed link l t) ∧
      (l.up = false → exec (.linkDown cube link) s = .next b)) ∧
    (∀ k, k < 3 → does (.correctedError cube k) fun t c =>
      c.errs[k]? = (q.errs[k]?).map (fun v => if v = BitVec.allOnes 48 then v else v + 1) ∧ t.mem = s.mem) ∧
    (∀ flue bank, flue < 64 → bank < 256 →
      (does (.refresh cube flue bank) fun t c => (flue, bank) ∈ c.refreshing ∧ t.mem = s.mem) ∧
      ((flue, bank) ∈ q.refreshing → does (.refreshEnd cube flue bank) fun t c =>
        (flue, bank) ∉ c.refreshing ∧ t.mem = s.mem)) ∧
    (∀ hot, does (.refreshRateChange cube hot) fun t c => c.hot = hot ∧ t.mem = s.mem) ∧
    (does (.coreClockCycle cube) fun t c => c.clock = q.clock + 1 ∧ t.mem = s.mem) ∧
    (∀ atom, (does (.backinvResponse cube atom) fun _ c => ∀ h, h ∈ c.hosted ↔ h ∈ q.hosted ∧ h ≠ atom) ∧
      (atom ∈ q.hosted → does (.backinvTimeout cube atom) fun _ c => atom ∉ c.hosted)) ∧
    (∀ a n, q.stove.ready = true → a + n ≤ 2 ^ 47 → does (.cxlMemRequest cube (.read a n)) fun t c =>
      t.mem = s.mem ∧ (∀ h ∈ q.hosted, h ∈ c.hosted) ∧
      (q.owned = [] → q.moving = [] → q.refreshing = [] → ∀ x, x % 32 = 0 → a < x + 32 → x < a + n →
        hostPlace (s.focus (cube * 256)) cube x ≠ none → cube * 2 ^ 47 + x ∈ c.hosted)) ∧
    (∀ a bs t, q.stove.ready = true → a + bs.length ≤ 2 ^ 47 →
      hostWrites cube (hostAtoms (bs.length + 1) a bs) (s.focus (cube * 256)) = some t →
      exec (.cxlMemRequest cube (.write a bs)) s = .next t) ∧
    (∀ v, let k := v.toNat % 256
      (q.stove.ready = false ∨ 256 ≤ v.toNat ∨ (slotStat q k).getLsbD 16 = true →
        does (.doorbell cube v) fun t _ => t.flights = s.flights) ∧
      (∀ c l i, q.stove.ready = true → v.toNat < 256 → (slotStat q k).getLsbD 16 = false →
        resolveGlobal (s.focus (cube * 256)) (pTarget ((assoc q.slots k).getD 0)) = .ok (c, l, i, false) →
        mapHeld (s.focus (cube * 256)) = false →
        does (.doorbell cube v) fun t u => slotStat u k = slotStat q k ||| 1#18 <<< 16 ∧ ∃ fl, t.flights = s.flights ++ [fl] ∧
          fl.src = .host cube k ∧ fl.cube = c ∧ fl.body = .packet ((assoc q.slots k).getD 0) (some k) true)) ∧
    (∀ k w v, q.stove.ready = true → k < 256 → w < 16 → does (.registerWrite cube (.slotWord k w) v) fun _ c =>
      pf ((assoc c.slots k).getD 0) (64 * w) 64 = v.toNat ∧
      ∀ j, j < 16 → j ≠ w → pf ((assoc c.slots k).getD 0) (64 * j) 64 = pf ((assoc q.slots k).getD 0) (64 * j) 64) ∧
    (∀ image, q.stove.recov = true → does (.recoveryImageSupply cube image) fun _ c =>
      assoc c.supplied (imgCore image) = some image) ∧
    (∀ m, mapOk m = true → (holdsOld b cube m.mgen = false → installsNow b m = true →
        does (.mapInstall cube m) fun t c => c.imap = m ∧ t.mem = s.mem) ∧
      ((holdsOld b cube m.mgen = true ∨ installsNow b m = false) → exec (.mapInstall cube m) s = .next b))

/-- R26, R214, R229, R243, R256, R350, R353, R383, R389, R401, R403, R445, R453, R455, R456, R458: a write of DOOR k posts what
REQ k then holds, or is answered UNSUPPORTED; a command that a released Stove core performs has its effect and answers the
posted notice of its code: RSP repeats the sequence number, with OK, or UNSUPPORTED where it changes nothing else. A page-table
write, a new generation, the removal of a cube and the retirement of a flue begin with it, and are answered when their last step
is done. The model's choices here: the operands of a command stand for its argument bytes (DESIGN CHOICE, log entry 11), a
removal begins at the command, and one whose map does not fit or that meets another is refused (DESIGN CHOICE, log entry 68), a
region marked at a retirement stays withdrawn, and a station's part in a flush is a step (DEDUCED, log entry 80), a report is kept
in the Stove, as its buffer lies outside the machine (DESIGN CHOICE, log entry 81). -/
def Obligations.StoveCommands : Prop :=
  ∀ (s : State) (cube : Nat), InService s cube →
    let b := s.focus (cube * 256)
    let q := s.cube cube
    let on := fun (k : Nat) => q.stove.performs k = true
    let answer := fun (k code status : Nat) (v : Stove) => match q.stove.command k with
      | some w => if commandCode w = code then
          v.unanswered = q.stove.unanswered.filter (fun j => j != k) ∧
            windowWord v.rsp k 0 = BitVec.ofNat 64 (status + (w.extractLsb' 16 16).toNat * 2 ^ 16)
        else v.unanswered = q.stove.unanswered
      | none => v.unanswered = q.stove.unanswered
    let gives := fun (k code status : Nat) (i : Instr) (P : Cube → Prop) => on k → ∃ t, exec i s = .next t ∧ P (t.cube cube) ∧
      t.mem = s.mem ∧ answer k code status (t.cube cube).stove
    let does := fun (k code : Nat) (i : Instr) (P : Cube → Prop) => gives k code 0 i P
    (∀ k v, k < 8 → q.stove.recov = false ∨ k = 6 → k ∉ q.stove.unanswered →
      let ws := (List.range 8).map fun j => windowWord q.stove.req k j
      ∃ t, exec (.registerWrite cube (.door k) v) s = .next t ∧ t.mem = s.mem ∧
        (on k ∨ q.stove.recov = false → (on k → unsupportedNotice k ws = false) →
          (t.cube cube).stove.unanswered = q.stove.unanswered ++ [k] ∧ assoc (t.cube cube).stove.posted k = some ws) ∧
        ((on k ∧ unsupportedNotice k ws = true) ∨ (q.stove.recov = true ∧ ¬on k) → k ∉ (t.cube cube).stove.unanswered ∧
          windowWord (t.cube cube).stove.rsp k 0 = BitVec.ofNat 64 (0x62 + ((ws.headD 0).extractLsb' 16 16).toNat * 2 ^ 16))) ∧
    (∀ n m nonce, (¬on 1 → exec (.setQuantum cube n) s = .next b) ∧ (¬on 2 → exec (.replaceInterleaveMap cube m) s = .next b) ∧
      (¬on 3 → exec (.retireFlue cube n) s = .next b) ∧ (¬on 4 → exec (.removeCube cube m) s = .next b) ∧
      (¬on 5 → exec (.setPowerLimit cube n) s = .next b) ∧ (¬on 6 → exec (.attestationReport cube nonce) s = .next b)) ∧
    (∀ ws, (ws.length = 16 → does 1 0x0101 (.installRankProgram cube ws) fun c => c.stove.rank = ws) ∧
      (ws.length ≠ 16 → gives 1 0x0101 0x62 (.installRankProgram cube ws) fun c => c.stove.rank = q.stove.rank)) ∧
    (∀ n, 2 ^ 12 ≤ n → n ≤ 2 ^ 24 → does 1 0x0101 (.setQuantum cube n) fun c => c.stove.quantum = n) ∧
    (∀ n, n < 2 ^ 12 ∨ 2 ^ 24 < n → gives 1 0x0101 0x62 (.setQuantum cube n) fun c => c.stove.quantum = q.stove.quantum) ∧
    (∀ n g, q.gangs.find? (fun x => x.id == n) = some g → does 1 0x0102 (.preempt cube n) fun c =>
      (c.gangs.find? fun x => x.id == n).map Gang.held = some true) ∧
    (∀ n e, q.pifo.find? (fun x => x.arrival == n) = some e → does 1 0x0102 (.withdrawPacket cube n) fun c =>
      c.stove.withdrawn = q.stove.withdrawn ++ [e] ∧ ∀ x ∈ c.pifo, x.arrival ≠ n) ∧
    (∀ n, (∀ e ∈ q.pifo, e.arrival ≠ n) → (∀ e ∈ q.stove.withdrawn, e.arrival ≠ n) →
      gives 1 0x0102 0x62 (.withdrawPacket cube n) fun c => c.pifo = q.pifo) ∧
    (∀ asid seg (d : BitVec 128), d.extractLsb' 1 16 = 0 → d.extractLsb' 57 7 = 0 → d.extractLsb' 113 15 = 0 →
      (d.extractLsb' 64 49).toNat ≤ 2 ^ 48 → d.getLsbD 0 = true →
      does 2 0x0201 (.writeSegmentDescriptor cube asid seg d) fun c =>
        (c.stove.segs.find? fun x => x.asid == asid && x.seg == seg) =
          some ⟨asid, seg, (d.extractLsb' 17 40).toNat * 2 ^ 17, (d.extractLsb' 64 49).toNat⟩ ∧
        ∀ x ∈ c.stove.stations, ¬(x.asid = asid ∧ x.seg = seg)) ∧
    (∀ a v p t, a / 2 ^ 47 = cube → a % 8 = 0 → on 2 → q.stove.flushing = [] → classify b cube (a % 2 ^ 47) none false = .ok p → p.region = .dram →
      homeWrite b cube none p.addr ((bytesOfNat 8 v.toNat).map some) 0 = .done t →
      exec (.writePageTableEntry a v) s = .next (t.modStove cube fun v => { v with flushing := List.range 16 })) ∧
    (∀ k, q.stove.flushing = [k] → ∃ t, performAction (.flush cube k) s = .next t ∧ t.mem = s.mem ∧
      (t.cube cube).stove.flushing = [] ∧ (∀ e ∈ (t.cube cube).stove.stations, e.station ≠ k) ∧ (t.cube cube).icache = [] ∧
      answer 2 0x0201 0 (t.cube cube).stove) ∧
    (∀ asid r, on 2 → q.stove.changing = none → ∃ t, exec (.bumpAsidGeneration cube asid r) s = .next t ∧ t.mem = s.mem ∧
      let c := t.cube cube
      let new := generation q asid + 1
      generation c asid = new ∧ c.stove.unanswered = q.stove.unanswered ∧ (asid ∈ c.stove.reflect ↔ r = true) ∧
      c.stove.changing = some { asid := asid, old := generation q asid, new := new
                                flush := if new = 0 then List.range 16 else [], stations := List.range 16 }) ∧
    (∀ g k, q.stove.changing = some g →
      (k ∈ g.flush → ∃ t, performAction (.writeGen cube k) s = .next t ∧ t.mem = s.mem ∧
        (t.cube cube).stove.changing = some { g with flush := g.flush.erase k } ∧
        ∀ e ∈ (t.cube cube).stove.stations, ¬(e.station = k ∧ e.asid = g.asid)) ∧
      (g.flush = [] → g.stations = [k] → ∃ t, performAction (.writeGen cube k) s = .next t ∧ t.mem = s.mem ∧
        (t.cube cube).stove.changing = none ∧ (t.cube cube).icache = [] ∧ answer 2 0x0202 0 (t.cube cube).stove)) ∧
    (∀ m, mapOk m = true → does 2 0x0203 (.replaceInterleaveMap cube m) fun c => c.imap = m) ∧
    (∀ asid (e : BitVec 256), e.extractLsb' 153 103 = 0 → (ttHpc e).toNat % 4 = 0 → (ttBase e).toNat % 64 = 0 → e ≠ 0 →
      does 3 0x0301 (.writeTrapTableEntry cube asid e) fun c => (c.stove.trapTable.find? fun x => x.1 == asid) = some (asid, e)) ∧
    (∀ f, q.fmap.contains (.inl f) = true → retired q < 8 →
      (on 3 → q.retiring = [] → ∃ t, exec (.retireFlue cube f) s = .next t ∧ (t.cube cube).retiring = [f] ∧
        (t.cube cube).marked = q.marked ++ [63 - retired q] ∧ (t.cube cube).fmap = q.fmap ∧ (t.cube cube).fgen = q.fgen ∧
        t.mem = s.mem) ∧
      (q.retiring = [f] → kernelRuns q = false → does 3 0x0302 (.retireFlue cube f) fun c => c.fgen = q.fgen + 1 ∧
        c.fmap = q.fmap.map (fun e => if e = .inl f then .inr (retired q) else e) ∧
        c.flues = Vector.replicate 64 Flue.reset ∧ c.retiring = [] ∧ c.marked = q.marked)) ∧
    (∀ f, q.fmap.contains (.inl f) = false → gives 3 0x0302 0x62 (.retireFlue cube f) fun c => c.fmap = q.fmap) ∧
    (∀ m, on 4 →
      (s.removal = none → removalMap b q.imap m cube = true → ∃ t, exec (.removeCube cube m) s = .next t ∧
        t.removal = some { cube := cube, old := q.imap, map := m, owned := false, installed := [] } ∧ t.mem = s.mem ∧
        t.cubes = s.cubes) ∧
      (s.removal ≠ none ∨ removalMap b q.imap m cube = false →
        ∃ t, exec (.removeCube cube m) s = .next t ∧ t.removal = s.removal ∧ (t.cube cube).imap = q.imap ∧
          answer 4 0x0401 0x62 (t.cube cube).stove)) ∧
    (∀ n, 2 ^ 14 ≤ n → n ≤ 2 ^ 24 → does 4 0x0401 (.setRetryTime cube n) fun c => c.stove.retry = n) ∧
    (∀ n, 400 ≤ n → n ≤ 1100 → does 5 0x0501 (.setPowerLimit cube n) fun c => c.stove.power = n) ∧
    (∀ nonce, does 6 0x0601 (.attestationReport cube nonce) fun c => ∃ r, c.stove.reports = q.stove.reports ++ [r] ∧
      r.nonce = nonce ∧ r.images = q.stove.images ∧ r.fgen = q.fgen ∧ r.retired = retired q ∧ r.spares = spareMask b cube ∧
      r.versions = q.links.toList.map Link.ver ∧ r.signature = Config.sm2Sign cube (Config.sm3 r.bytes)) ∧
    (∀ core, core / 256 = cube → let k := (s.focus core).core
      (on 7 →
        (k.ctx.live = true → ∃ t, exec (.stopThread core) s = .next t ∧ .stop ∈ t.core.ctx.pending ∧ t.mem = s.mem) ∧
        (∃ t, exec (.clearPerformanceCounters core) s = .next t ∧ t.core.perf = Vector.replicate 16 0 ∧ t.mem = s.mem) ∧
        (∀ i ∈ [Instr.stepThread core, .resumeThread core], ∃ t, exec i s = .next t ∧ .stop ∉ t.core.ctx.pending ∧
          (∀ v ∈ (t.cube cube).stove.saved, v.core = core → v.report = none → v.handled = true) ∧
          (i = .stepThread core → ∀ v ∈ q.stove.saved, v.core = core → v.report = none → v.handled = false →
            ∃ w ∈ (t.cube cube).stove.saved, w.ctx.tid = v.ctx.tid ∧ w.ctx.stepOne = true))) ∧
      (on 3 → coreFree (s.focus core) cube core = true →
        rollbackStep { s.focus core with core := { k with spare := true } } = none →
        ∃ t, exec (.markSpareCore core) s = .next t ∧ t.core.spare = true ∧ t.mem = s.mem))

/-- R26, R27, R28, R30, R35, R36, R213, R218, R219, R223, R447, R488: what may happen to the thread of a core in service
between its instructions: the fetch port grants its next requester in turn, with those that ask for the same word, and they
hold the grant until they have executed that instruction; a follower
with a forwarded instruction, a waiting thread and a refused MIGRATE have a turn; a trap is taken, and a trapped thread that
has drained is saved, its dirty general registers in the image; a spent quantum, a stop or a pre-emption takes an
interruptible thread; a refused store traps GRAPH_BUSY; a core without work is lost alone. The model's choices here: that
TRAP_ENTRY may come with any report (DESIGN CHOICE, log entry 66), that a FETCH_GRANT of a core that is not next leaves the state
as it is (DESIGN CHOICE, log entry 17), and that a grant or a wake-up puts turns on the agenda, which is the model's own (log
entry 3). -/
def Obligations.ThreadEvents : Prop :=
  ∀ (s : State) (core : Nat), CoreInService s core →
    let b := s.focus core
    let c := b.core.ctx
    let does := fun (i : Instr) (P : State → Prop) => ∃ t, exec i s = .next t ∧ P t
    let granted := fun (t : State) => t.agenda = .issue core .main false false :: s.agenda ∧ t.mem = s.mem ∧ t.core.ctx = c
    (∀ pc, nextGrant b (core / 8) = some (core, pc) → does (.fetchGrant core) fun t => t.mem = s.mem ∧
      (t.getCore core).ctx = c ∧
      t.agenda = (mergedGrant b core pc).map (fun x => Turn.issue x.1 x.2 false false) ++ s.agenda ∧
      (t.getCore core).perf[13]? = (b.core.perf[13]?).map (· + 1) ∧
      assoc (t.cube (core / 256)).granted (core / 8 % 32) = some core ∧
      (∀ x ∈ mergedGrant b core pc, x.1 / 8 = core / 8 ∧ (x.1, pc) ∈ (t.cube (core / 256)).fetched)) ∧
    ((∀ pc, nextGrant b (core / 8) ≠ some (core, pc)) → exec (.fetchGrant core) s = .next b) ∧
    (c.live = true → c.attached = true → b.core.chain ≠ [] → does (.forwardedInstruction core) granted) ∧
    (c.status = .waiting → does (.waitWakeup core) granted) ∧
    (c.status = .waiting → c.wait.polls = true → does (.pollRetest core) granted) ∧
    (b.core.migrateHold = true → does (.migrateRetry core) fun t => granted t ∧ t.core.migrateHold = false) ∧
    (∀ r, c.live = true → c.trap = none → exec (.trapEntry core r) s =
      .next (takeTrap { r with pc := c.regs.pc, source := 0 } { b with seqr := .main })) ∧
    (∀ r, c.trap = some r → c.saveable = true → does (.contextSave core) fun t =>
      ∃ v ∈ (t.cube (core / 256)).stove.saved, v.ctx.tid = c.tid ∧ v.report = some r ∧ v.ctx.status = .saved ∧ v.core = core ∧
        v.handled = false ∧ v.ctx.regs.grpdirty = 0 ∧ v.ctx.regs.tdirty = 0 ∧ v.ctx.regs.pc = c.regs.pc ∧
        (c.base ≠ some c.ig ∨ c.ig = 0 ∨ c.regs.grpdirty.getLsbD 0 = true → v.ctx.regs.g = c.regs.g)) ∧
    (∀ k l, b.core.runList = k :: l → b.core.lost = false → c.live = true →
      quantumSpent b core = true → b.core.interruptible = true →
      does (.quantumExpiry core) fun t => (t.getCore core).ctx.tid = k.tid ∧ (t.getCore core).ctx.status = .resident ∧
        (t.getCore core).runList.getLast?.map (fun x => (x.tid, x.status)) = some (c.tid, .queued)) ∧
    (∀ p l, c.pending = p :: l → b.core.interruptible = true → (p = .preempt ∨ p = .stop ∨ p = .error) →
      does (.interrupt core) fun t => ∃ v ∈ (t.cube (core / 256)).stove.saved, v.ctx.tid = c.tid ∧ v.report = none ∧
        v.core = core ∧ v.handled = decide (p ≠ .stop) ∧ v.ctx.regs.pc = c.regs.pc) ∧
    (∀ o l, c.busy = o :: l → c.live = true → c.trap = none → c.asked = none → does (.graphBusyRefusal core) fun t =>
      t.core.ctx.busy = l ∧ t.core.ctx.trap.map (fun r => (r.code, r.addr, r.pc, r.kind, r.source)) =
        some (.graphBusy, o, c.regs.pc, .store, 0) ∧ t.mem = s.mem) ∧
    (c.status = .none → b.core.runList = [] → b.core.dq = [] → b.core.lost = false →
      ((s.cube (core / 256)).runs.all fun r => !r.cores.contains core) = true → (∀ p ∈ s.cubes, p.2.rollbacks = []) →
      (∀ p ∈ s.cubes, ∀ g ∈ p.2.gangs, ∀ m ∈ g.members, m.2.2 = core → m.1 ∈ g.halted) →
      does (.coreUncorrectable core) fun t => (t.getCore core).lost = true ∧ (t.getCore core).l1 = [] ∧ t.mem = s.mem)

/-- R26, R34, R35, R37, R105, R213 step 6, R215, R217, R254, R255, R285, R402: a saved thread that may return joins its core's run
list, or becomes resident where no thread is; a serviced fault of route S resumes it, under the current generation where a
stale one was the cause; a reflected trap aborts its work where the table forbids it or the frame cannot be written, waits for
a free frame, a home, an interleave map, or the service of the frame's own fault, or writes the frame and enters the handler in
supervisor mode with the frame's offset as age 1, in the image area too. A translation or a page-table walk that succeeds leaves its entry in its station. A migration
that the destination refuses leaves the context at its source; one that it accepts joins the run list, or becomes resident. -/
def Obligations.SavedThreadEvents : Prop :=
  (∀ (s : State) (tid core : Nat) (v : SavedCtx), CoreInService s core →
    let b := s.focus core
    (s.cube (core / 256)).stove.saved.find? (fun w => w.ctx.tid == tid) = some v → mayReturn b v core = true → core = v.core →
    (b.core.ctx.present = true → ∃ t, exec (.contextReturn tid core) s = .next t ∧
      t.core.runList = b.core.runList ++ [{ v.ctx with status := Machine.Status.queued }] ∧
      (∀ w ∈ (t.cube (core / 256)).stove.saved, w.ctx.tid ≠ tid) ∧ t.mem = s.mem) ∧
    (b.core.ctx.present = false → b.core.runList = [] → b.core.held = [] → ∃ t, exec (.contextReturn tid core) s = .next t ∧
      t.core.ctx = { v.ctx with status := Machine.Status.resident, residentAt := (b.cube (core / 256)).clock } ∧ t.mem = s.mem)) ∧
  (∀ (s : State) (tid cube : Nat) (v : SavedCtx) (r : TrapReport), s.savedCtx tid = some (cube, v) → v.report = some r →
    v.handled = false → v ∈ (s.cube cube).stove.saved → reportHeld s cube tid = false → (s.cube cube).tripped = false →
    let b := s.focus (cube * 256)
    let a := v.ctx.regs
    let id := a.asid.extractLsb' 0 16
    let e := (((s.cube cube).stove.trapTable.find? fun x => x.1 == id).map Prod.snd).getD 0
    (routeS r.code = true → r.staleGen = false → ∃ w, exec (.faultService tid) s = .next (returnContext w cube tid v.core) ∧
      w.mem = s.mem ∧ ∃ x ∈ (w.cube cube).stove.saved, x.ctx.tid = tid ∧ x.handled = true ∧ x.ctx.regs = a) ∧
    let renews := r.staleGen = true ∧ (s.cube cube).stove.reflect.contains id = false
    (routeS r.code = true → renews → exec (.trapReflection tid) s = .next s ∧
      ∃ w, exec (.faultService tid) s = .next (returnContext w cube tid v.core) ∧ w.mem = s.mem ∧
        ∃ x ∈ (w.cube cube).stove.saved, x.ctx.tid = tid ∧ x.handled = true ∧
          x.ctx.regs = { a with asid := generation (s.cube cube) id ++ id }) ∧
    let reflects := fun (t : State) => exec (.trapReflection tid) s = .next t
    (¬ renews → tswPriv a.tsw = true ∨ ttValid e = false ∨ ttGen e ≠ a.asid.extractLsb' 16 8 →
      reflects (abortWork b v.ctx v.core statusFaulted)) ∧
    (¬ renews → tswPriv a.tsw = false → ttValid e = true → ttGen e = a.asid.extractLsb' 16 8 →
      (frameFor (s.cube cube).stove id tid (ttCount e) = none → reflects b) ∧
      ∀ k, frameFor (s.cube cube).stove id tid (ttCount e) = some k →
        let h := holdFrame b cube id k tid
        let frame := ttBase e + BitVec.ofNat 64 (64 * k)
        (0xFFFE ≤ (a.seg[0]).toNat → reflects (abortWork h v.ctx v.core statusFaulted)) ∧
        ((a.seg[0]).toNat < 0xFFFE →
          (∀ x, footprint h ⟨a.asid, false, none⟩ a.seg[0] frame 64 .store rawRegion = .error x →
            reflects (if x.held || routeS x.code then h else abortWork h v.ctx v.core statusFaulted)) ∧
          (∀ qs, footprint h ⟨a.asid, false, none⟩ a.seg[0] frame 64 .store rawRegion = .ok qs →
            (landPieces h qs = .error none → reflects h) ∧
            (∀ c o, landPieces h qs = .error (some (c, o)) →
              reflects (if routeS c then h else abortWork h v.ctx v.core statusFaulted)) ∧
            ∀ ps, landPieces h qs = .ok ps →
            let write := stoveWrite v.core (mergeAtoms (writesOf ((trapFrameBytes a r).map some) ps)) h
            (write = .wait → reflects h) ∧ (write = .refused → reflects (abortWork h v.ctx v.core statusFaulted)) ∧
            (∀ t, write = .done t → v ∈ (t.cube cube).stove.saved →
              ∃ w, reflects (returnContext w cube tid v.core) ∧ w.mem = t.mem ∧
                ∃ x ∈ (w.cube cube).stove.saved, x.ctx.tid = tid ∧ x.handled = true ∧ x.ctx.trapFrame = some k ∧
                  x.ctx.regs.pc = ttHpc e ∧ x.ctx.regs.gq = (frame :: a.gq).take 16 ∧
                  x.ctx.regs.grpdirty.getLsbD 0 = true ∧
                  x.ctx.image.map (fun i => i.regs.gq) = v.ctx.image.map (fun i => (frame :: i.regs.gq).take 16) ∧ tswPriv x.ctx.regs.tsw = true ∧
                  tswChk x.ctx.regs.tsw = false ∧ tswAp x.ctx.regs.tsw = false ∧ tswRa x.ctx.regs.tsw = false ∧
                  tswRit x.ctx.regs.tsw = 0 ∧ tswRpos x.ctx.regs.tsw = 0 ∧ tswVtrap x.ctx.regs.tsw = tswVtrap a.tsw ∧
                  x.ctx.regs.g = a.g ∧ x.ctx.regs.mb = a.mb))))) ∧
  (∀ (s : State) (core : Nat) (seg : BitVec 16) (o : Word) (k : AccessKind) (p : Place) (pte : BitVec 64) (size : Nat),
    CoreInService s core → seg.toNat < 0xFFFE →
    let b := s.focus core
    let held := fun (t : State) => (∃ x ∈ (t.cube t.myCube).stove.stations, x.station = stationOf b.asidId seg o.toNat ∧
      x.asid = b.asidId ∧ x.seg = seg ∧ x.pte = pte ∧ x.size = size ∧ x.off = o.toNat / size * size) ∧ t.mem = s.mem ∧
      t.regs = b.regs
    (placeOf b b.requester seg o k (fun _ => true) = .ok p → walk b b.regs.asid seg o.toNat = .ok (pte, size) →
      ∃ t, exec (.translation core seg o k) s = .next t ∧ held t) ∧
    (∀ d, segDesc b b.asidId seg = some d → o.toNat < d.limit →
      b.regs.asid.extractLsb' 16 8 = generation (b.cube b.myCube) b.asidId → walkFrom b o.toNat 3 0 d.root = .ok (pte, size) →
      ∃ t, exec (.pageTableWalk core seg o) s = .next t ∧ held t)) ∧
  (∀ (s : State) (num src dest : Nat) (x : Flight) (k : Ctx) (b : State), Arrived s num x (.context dest k) b →
    x.src = .main src → dest ≠ src →
    ((b.getCore dest).lost = true ∨ 4 ≤ (b.getCore dest).runList.length → ∃ t, exec (.migrationContext num) s = .next t ∧
      (t.getCore src).ctx.status = .resident ∧ (t.getCore src).migrateHold = true ∧ t.mem = s.mem) ∧
    ((b.getCore dest).lost = false → (b.getCore dest).runList.length < 4 →
      (b.getCore src).ctx.pending.filter Interrupt.holds = [] →
      let y := { k.arrived (dest / 256 != src / 256) with pending := [] }
      y.regs.e = Vector.replicate 192 0 ∧ y.regs.g = k.regs.g ∧ y.regs.grpdirty = BitVec.allOnes 7 ∧ y.base = none ∧
      ((b.getCore dest).ctx.present = true → ∃ t, exec (.migrationContext num) s = .next t ∧
        (t.getCore dest).runList.getLast? = some y ∧ t.mem = s.mem) ∧
      ((b.getCore dest).ctx.present = false → (b.getCore dest).runList = [] → (b.getCore dest).held = [] →
        ∃ t, exec (.migrationContext num) s = .next t ∧ t.mem = s.mem ∧
          (t.getCore dest).ctx = { y with status := .resident, residentAt := (b.cube (dest / 256)).clock })))

/-- R95, R222, R233, R262, R264, R279, R281, R283, R300, R307, R313, R357, R361, R384: a request that its home performs now has
its effect and is answered: reads of loads and of copies, stores, lanes of atomics, AMOs, decide-once requests, ownership
requests and releases, deposits, messages, and the data of a copy; a store to a registered range, a deposit or message
without room, and a copy's write to a registered range, are refused. -/
def Obligations.HomeEvents : Prop :=
  ∀ (s : State) (num : Nat) (x : Flight) (body : Body) (b : State), Arrived s num x body b →
    let reply := fun (t : State) (r : Body) => ∃ fl ∈ t.flights, fl.num = num ∧ fl.cls = .reply ∧ fl.body = r
    let gone := fun (t : State) => ∀ fl ∈ t.flights, fl.num = num → fl.cls = .reply
    let quiet := fun (a n : Nat) => mustWait (b.cube x.cube) none a n = false ∧ hostedIn b x.cube a n = false ∧ b.poison = []
    (∀ a w d, body = .read a w d → mustWait (b.cube x.cube) none a (readLen w d) = false →
      b.poisoned a (readLen w d) = none → ∃ t, exec (.read num false) s = .next t ∧ t.mem = s.mem ∧
        reply t (.data (readReply w d (b.load a (readLen w d))) d x.ord none) ∧ gone t) ∧
    (∀ a w d, body = .read a w d → mustWait (b.cube x.cube) none a (readLen w d) = true →
      exec (.read num false) s = .next b) ∧
    (∀ a w d q, body = .read a w d → mustWait (b.cube x.cube) none a (readLen w d) = false →
      b.poisoned a (readLen w d) = some q → ∃ t, exec (.read num false) s = .next t ∧ t.mem = s.mem ∧ gone t ∧
        reply t (.data [] d x.ord (some (failedRead .memUncorrectable (BitVec.ofNat 64 q - BitVec.ofNat 64 a))))) ∧
    (∀ n, body = .barrierRead n → ∃ t, exec (.read num false) s = .next t ∧ t.mem = s.mem ∧ gone t ∧
      reply t (.onceData x.ord ⟨0, ((b.group 0 n).map barrierHome).getD 0, none⟩)) ∧
    (∀ a n id p, body = .copyRead a n id p → underRefresh (b.cube x.cube) a = false → b.poisoned a n = none →
      ∃ t, exec (.read num false) s = .next t ∧ t.mem = s.mem ∧ reply t (.copyData (b.load a n) id p none) ∧ gone t) ∧
    (∀ a (bs : List Byte) o, body = .write a (bs.map some) 0 o → Memory.wf s.mem = true →
      registered b x.cube a bs.length = false → quiet a bs.length → ∃ t, exec (.write num false) s = .next t ∧
        t.load a bs.length = bs ∧ SameMemoryBut s t a bs.length ∧ reply t (.ack 1 none) ∧ gone t) ∧
    (∀ a (bs : List Byte) o, body = .write a (bs.map some) 0 o → registered b x.cube a bs.length = true →
      ∃ t, exec (.write num false) s = .next t ∧ t.mem = s.mem ∧ reply t (.ack 1 (some o)) ∧ gone t) ∧
    (∀ a bs o, body = .write a bs 0 o → registered b x.cube a bs.length = false → (b.poisoned a bs.length).isSome = true →
      mustWait (b.cube x.cube) none a bs.length = false → hostedIn b x.cube a bs.length = false →
      ¬(bs.length = 32 ∧ bs.all Option.isSome = true) → ∃ t, exec (.write num false) s = .next t ∧ t.mem = s.mem ∧
        reply t (.ack 1 none) ∧ gone t ∧ x.tid ∈ (t.cube b.myCube).rollbacks) ∧
    (∀ op a v o, body = .atomic op a v o → Memory.wf s.mem = true → registered b x.cube a 4 = false → quiet a 4 →
      ∃ t, exec (.atomic num) s = .next t ∧
        natOfBytes (t.load a 4) = atomicNew op 32 (natOfBytes (b.load a 4)) v.toNat 0 % 2 ^ 32 ∧
        SameMemoryBut s t a 4 ∧ reply t (.ack 1 none) ∧ gone t) ∧
    (∀ g a d, body = .amo g a d → Memory.wf s.mem = true → registered b x.cube a d.size = false → quiet a d.size →
      let old := natOfBytes (b.load a d.size)
      ∃ t, exec (.atomic num) s = .next t ∧
        natOfBytes (t.load a d.size) = atomicNew g.op (8 * d.size) old g.v g.c % 2 ^ (8 * d.size) ∧
        SameMemoryBut s t a d.size ∧ reply t (.data (bytesOfNat 8 old) d x.ord none) ∧ gone t) ∧
    (∀ fn a g p, body = .once fn a g p →
      (∀ t r, performOnce b x.cube fn a g p = some (t, r) →
        exec (.decideOnceRequest num) s = .next (t.performed x (.onceData x.ord r))) ∧
      (performOnce b x.cube fn a g p = none → exec (.decideOnceRequest num) s = .next b)) ∧
    (∀ atom id p core, body = .ownRequest atom id p → x.src.core = some core →
      (mustWait (b.cube x.cube) (some core) atom 32 = true → exec (.ownershipRequest num) s = .next b) ∧
      (mustWait (b.cube x.cube) (some core) atom 32 = false → ∃ t, exec (.ownershipRequest num) s = .next t ∧
        (t.cube x.cube).owned = (b.cube x.cube).owned ++ [(atom, core, id)] ∧ reply t (.grant atom id p) ∧ t.mem = s.mem)) ∧
    (∀ atom id core, body = .ownRelease atom id → x.src.core = some core → ∃ t, exec (.ownershipRelease num) s = .next t ∧
      (t.cube x.cube).owned = (b.cube x.cube).owned.erase (atom, core, id) ∧ reply t (.ack 0 none) ∧ t.mem = s.mem) ∧
    (∀ core d, body = .deposit core d → d.reg < 4 →
      let k := b.getCore core
      let absent := k.ctx.live = false ∨ k.lost = true
      (k.ctx.live = true → k.lost = false → ∃ t, exec (.deposit num) s = .next t ∧
        (t.getCore core).ctx.regs.mb[d.reg]? = some d.val ∧ (t.getCore core).ctx.regs.mbstat.getLsbD d.reg = true ∧
        (k.ctx.regs.mbstat.getLsbD d.reg = true → (t.getCore core).ctx.regs.mbstat.getLsbD (4 + d.reg) = true) ∧
        (meetsWrite b core d = true → (t.getCore core).ctx.regs.mbstat.getLsbD (8 + d.reg) = true) ∧
        (∀ j, j ≠ d.reg → (t.getCore core).ctx.regs.mb[j]? = k.ctx.regs.mb[j]?) ∧ reply t (.ack 1 none)) ∧
      (absent → k.held.length < 4 → ∃ t, exec (.deposit num) s = .next t ∧
        (t.getCore core).held = k.held ++ [d] ∧ reply t (.ack 1 none)) ∧
      (absent → 4 ≤ k.held.length → ∃ t, exec (.deposit num) s = .next t ∧
        (t.getCore core).held = k.held ∧ reply t (.nack none))) ∧
    (∀ core m, body = .message core m →
      (msgRoom (b.getCore core) m = true → ∃ t, exec (.message num) s = .next t ∧
        (t.getCore core).msgs = (b.getCore core).msgs ++ [m] ∧ reply t (.ack 1 none) ∧ t.mem = s.mem) ∧
      (msgRoom (b.getCore core) m = false → ∃ t, exec (.message num) s = .next t ∧
        (t.getCore core).msgs = (b.getCore core).msgs ∧ reply t (.nack none) ∧ t.mem = s.mem)) ∧
    (∀ d bs id p core, body = .multicast d bs id p → x.src.core = some core →
      let end_ := fun (t : State) (r : Option TrapCode) =>
        (disownOnce t x.cube (d / 32 * 32) core id).performed x (.copied d id p r)
      (∀ t, homeWrite b x.cube (some core) d (bs.map some) 0 = .done t →
        exec (.multicastData num) s = .next (end_ t none)) ∧
      (homeWrite b x.cube (some core) d (bs.map some) 0 = .wait → exec (.multicastData num) s = .next b) ∧
      (homeWrite b x.cube (some core) d (bs.map some) 0 = .busy →
        exec (.multicastData num) s = .next (end_ b (some .graphBusy))) ∧
      (homeWrite b x.cube (some core) d (bs.map some) 0 = .poisoned →
        exec (.multicastData num) s = .next (end_ b (some .memUncorrectable))))

/-- R35, R281, R282, R291, R292, R307, R355, R372, R380-R384, R390, R391, R393, R440, R442, R446: a reply that its source awaits
reaches the load, the copy, the decide-once form, the store count or the launch that asked for it; a load that has failed puts
the registers back as they stood before it and traps; a NACK for lack of room has the request set out again, counted, one with a
code ends it; an unanswered request is sent again beside the first, and after seven sends is given up; a packet hops over a link
of its route; a request resolved under an older map is resolved again. -/
def Obligations.SenderEvents : Prop :=
  (∀ (s : State) (num : Nat) (x : Flight) (body : Body) (b : State), Replied s num x body b →
    (forwardedTo s num = none →
      (∀ bs d req err, body = .data bs d req err → dataReady s x.src.place.2 x.tid req = true →
        exec (.replyWithData num) s =
          .next (settleMarkers (dataArrives ((s.consume num).focus x.src.place.2) x.src.place.2 x.tid bs d req err) x.tid)) ∧
      (∀ bs id p bad core, body = .copyData bs id p bad → x.src.core = some core →
        exec (.replyWithData num) s = .next (copyArrive b core id p bs bad)) ∧
      (∀ req a, body = .onceData req a → exec (.replyWithData num) s = .next (settleMarkers (answered b x.tid req a) x.tid))) ∧
    (∀ n r, body = .ack n r → x.src.core.isSome = true →
      exec (.acknowledgement num) s = .next (acknowledged b x.tid n r)) ∧
    (∀ d id p r core, body = .copied d id p r → x.src.core = some core →
      exec (.acknowledgement num) s = .next (copyWritten b core id p d r)) ∧
    (∀ place, body = .admission place →
      (∀ cube k, x.src = .host cube k → ∃ t, exec (.admissionReply num) s = .next t ∧
        slotStat (t.cube cube) k = BitVec.ofNat 18 (2 ^ 17) ∧ t.mem = s.mem) ∧
      (∀ core, x.src = .main core → asksFor b x.tid x.ord = true →
        exec (.admissionReply num) s = .next (answered b x.tid x.ord ⟨0, place, none⟩)) ∧
      (∀ core, x.src = .main core → asksFor b x.tid x.ord = false →
        exec (.admissionReply num) s = .next (acknowledged b x.tid 1 none))) ∧
    (∀ atom id p core, body = .grant atom id p → x.src.core = some core →
      exec (.ownershipGrant num) s =
      .next (copyGrant b core id p atom ((b.kept.find? fun k => k.reply.num == x.num).bind fun k => k.request.ilv)))) ∧
  (∀ (s : State) (num : Nat) (x y : Flight) (code : Option (BitVec 16)), s.replyOf num = some x → x.body = .nack code →
    s.request num = some y → y.waiting = true →
    let b := (focusSource s x).dropReply num
    (code = none ∨ code = some codeCheckFailed → ∃ t, exec (.nack num) s = .next t ∧ t.mem = s.mem ∧
      (t.cube b.myCube).errs[8]? = ((b.cube b.myCube).errs[8]?).map (fun v => if v = BitVec.allOnes 48 then v else v + 1) ∧
      ∀ fl ∈ t.flights, fl.num = num → fl.cls ≠ .reply →
        fl.waiting = false ∧ fl.at_ = fl.src.place.1 ∧ fl.sends = 1 ∧ fl.route = b.numCtr) ∧
    (∀ c, code = some c → c ≠ codeCheckFailed →
      (∀ p k v, y.body = .packet p k v → exec (.nack num) s = .next (packetAnswered (b.landRequest y) y (.inr c))) ∧
      ((∀ p k v, y.body ≠ .packet p k v) → exec (.nack num) s = .next (failRequest b y .peerLost)))) ∧
  (∀ (c : Ctx) (req : Nat) (bs : List Byte) (p : Pend), c.pend.find? (fun z => z.num == req) = some p →
    let d := c.loadDone req bs
    (∀ z ∈ d.pend, z.num ≠ req) ∧ d.unacked = c.unacked - (if p.amo.isSome then 1 else 0) ∧
    (p.dest.vec = none →
      let y : Word := BitVec.ofNat 64 (natOfBytes bs)
      (∀ k, k < 32 → p.dst = some k → d.regs.g[k]? = some y) ∧
      (∀ k, p.dst ≠ some k → d.regs.g[k]? = c.regs.g[k]?) ∧ d.regs.v = c.regs.v ∧
      (1 ≤ p.age → p.age ≤ c.regs.gq.length → p.age ≤ 16 → d.regs.gq[p.age - 1]? = some y) ∧
      (16 < p.age → d.regs.gq = c.regs.gq)) ∧
    (∀ l, p.dest.vec = some l → d.regs.g = c.regs.g ∧ d.regs.gq = c.regs.gq ∧
      (∀ k v, l.reg = some k → c.regs.v[k]? = some v → d.regs.v[k]? = some (putLanes v (laneValues l bs))) ∧
      (∀ k, l.reg ≠ some k → d.regs.v[k]? = c.regs.v[k]?) ∧
      (∀ v, 1 ≤ p.age → p.age ≤ 16 → c.regs.vq[p.age - 1]? = some v →
        d.regs.vq[p.age - 1]? = some (putLanes v (laneValues l bs))))) ∧
  (∀ (c : Ctx) (req : Nat) (code : TrapCode) (away : Word) (p : Pend), c.pend.find? (fun z => z.num == req) = some p →
    let d := c.loadFailed req code away
    let report := fun (t : TrapReport) => (t.code, t.addr, t.pc, t.source)
    d.unacked = c.unacked - (if p.amo.isSome then 1 else 0) ∧
    (∀ u, p.undo = some u → d.trap.map report = some (code, p.off + away, p.pc, 0) ∧ d.regs.pc = u.regs.pc ∧
      d.regs.g = u.regs.g ∧ d.regs.gq = u.regs.gq ∧ d.regs.v = u.regs.v ∧ d.regs.vq = u.regs.vq ∧ d.regs.m = u.regs.m ∧
      ∀ z ∈ d.pend, (assoc u.ages z.num).isSome = true) ∧
    (p.undo = none → d.regs = c.regs ∧ (c.trap = none → d.trap.map report = some (code, p.off + away, p.pc, 0)))) ∧
  (∀ (s : State) (num : Nat) (x : Flight), s.request num = some x → s.keptOf x = none → x.sends ≠ 0 →
    ((s.cube x.src.place.1).tripped = true → exec (.retryTimeout num) s = .next s) ∧
    ((s.cube x.src.place.1).tripped = false → x.sends < 7 → (s.cube x.cube).removed = false →
      let again := x.resent s.numCtr
      again.at_ = x.src.place.1 ∧ again.sends = x.sends + 1 ∧ again.retry = 2 * x.retry ∧ again.seq = x.seq ∧ again.ord = x.ord ∧
      (x.waiting = true → ∃ t, exec (.retryTimeout num) s = .next t ∧ t.mem = s.mem ∧ again ∈ t.flights) ∧
      (x.waiting = false → ∃ t, exec (.retryTimeout num) s = .next t ∧ t.mem = s.mem ∧
        { x with sends := x.sends + 1, retry := 2 * x.retry } ∈ t.flights ∧ { again with num := s.numCtr } ∈ t.flights)) ∧
    ((s.cube x.src.place.1).tripped = false → 7 ≤ x.sends ∨ (s.cube x.cube).removed = true →
      exec (.retryTimeout num) s = .next (giveUpOn s x)) ∧
    (∀ i g, x.ilv = some (i, g) → x.at_ = x.cube → x.waiting = false → (s.cube x.cube).tripped = false →
      g.toNat < (s.cube x.cube).imap.mgen.toNat →
      (x.cls = .ordered → ∀ y ∈ s.flights, y.ord < x.ord → y.cls = .ordered → y.src.same x.src = true → x.home ∈ y.dests →
        (s.keptOf y).isSome = true) →
      let m := (s.cube x.cube).imap
      (∀ e l, x.body.addr = none → mapResolve m i = some (e, l) → e.lost = false →
        ∃ t, exec (.requestRemap num) s = .next t ∧ t.mem = s.mem ∧
          { x with cube := e.cube, home := stoveHome e.cube, ilv := some (i, m.mgen) } ∈ t.flights) ∧
      (∀ a e l p, x.body.addr = some a → mapResolve m (i / 4096 * 4096 + a % 4096) = some (e, l) → e.lost = false →
        classify (focusSource s x) e.cube l (some (i / 4096 * 4096 + a % 4096)) false = .ok p → x.body.mayTouch p = true →
        ∃ t, exec (.requestRemap num) s = .next t ∧ t.mem = s.mem ∧
          { x with cube := e.cube, home := homeOf (focusSource s x) p, ilv := some (i / 4096 * 4096 + a % 4096, m.mgen),
                   body := x.body.withAddr p.addr } ∈ t.flights))) ∧
  (∀ (s : State) (num dir i : Nat) (x : Flight), (s.flights.findIdx? fun f => f.num == num && mayHop s f dir) = some i →
    s.flights[i]? = some x →
    (x.members = [] → ∃ t, exec (.packetHop num dir) s = .next t ∧ t.mem = s.mem ∧ t.cubes = s.cubes ∧
      t.flights = s.flights.set i { x with at_ := neighbourCube x.at_ dir }) ∧
    (x.members ≠ [] → exec (.packetHop num dir) s = .next (hop s i dir x))) ∧
  (∀ (s : State) (dir : Nat) (x : Flight), x.waiting = false → x.members = [] → x.at_ ≠ x.cube → x.sends ≠ 0 →
    (s.cube x.at_).tripped = false → orderedDir s x.route x.at_ x.cube = some dir → linkCarries s x dir = true →
    mayHop s x dir = true)

/-- R225, R227, R371, R384, R385, R430, R432: contributions to reductions and barriers, releases, and the commit of a
checkpoint, which changes no byte outside the gang's two areas. The router of a member's cube accepts a contribution; with the
last one of its own members it folds theirs into one partial; once it has a partial of each of its inputs it folds them and sends
one on, or ends the round at the root: the value goes to the root or in one multicast to the members; a round whose contributions
disagree ends mismatched. The model's choices here (DESIGN CHOICE, log entry 71): the tree of routers follows the members'
dimension-order routes to the root of the first contribution, a router folds its inputs in order of arrival, and the lone NaN of
a maximum, a minimum or a rescale-combine is kept as it is. -/
def Obligations.ReductionAndBarrierEvents : Prop :=
  (∀ (s : State) (num : Nat) (x : Flight) (body : Body) (b : State), Arrived s num x body b →
    let u := b.performed x (.ack 0 none)
    (∀ n p g, body = .barrier n p → b.group 0 n = some g →
      (g.phase = p → exec (.barrierContribution num) s =
        .next (tryNetRelease (u.setGroup 0 { g with got := insertNat g.got x.src.place.1 }) n)) ∧
      (g.phase ≠ p → exec (.barrierContribution num) s = .next u)) ∧
    (∀ n c, body = .contribution n c →
      exec (.reductionContribution num) s = .next (acceptOwn (b.performed x (.ack 1 none)) x.cube n c)) ∧
    (∀ n id p, body = .partialSum n id p → exec (.reductionContribution num) s = .next (acceptPartial u x.cube n id p)) ∧
    (∀ n p g, body = .release n p → b.group 0 n = some g → exec (.barrierReleaseMulticast num) s =
      .next (settle (u.setGroup 0 { g with lag := assocErase g.lag x.cube }) x.cube n))) ∧
  (∀ (s : State) (cube n : Nat) (c : Contribution) (g : Group) (r : Round), s.group 0 n = some g → g.rounds = [r] →
    (r.parts.any fun y => y.tid == c.tid && !y.taken) = true →
    let q := { r with parts := r.parts.map fun y => if y.tid == c.tid && !y.taken then { y with taken := true } else y }
    let h := q.at_ cube
    let own := h.own ++ [⟨[c.tid], c.m.toNat, c.s.toNat, c.data⟩]
    (own.length < ownMembers g q cube → acceptOwn s cube n c = setRound s n (q.put { h with own := own })) ∧
    (∀ p, ownMembers g q cube ≤ own.length → foldAll ((q.parts.head?.map Contribution.op).getD 0) own = some p →
      acceptOwn s cube n c = routerFolds s n g (q.put { h with own := [], ins := h.ins ++ [p] }) cube)) ∧
  (∀ (s : State) (cube n : Nat) (g : Group) (r : Round), s.group 0 n = some g →
    (∀ id p, g.rounds.find? (fun y => y.id == id) = some r → acceptPartial s cube n id p =
      routerFolds s n g (r.put { r.at_ cube with ins := (r.at_ cube).ins ++ [p] }) cube) ∧
    let ins := (r.at_ cube).ins
    let sent := r.put ⟨cube, [], []⟩
    let t := routerFolds s n g r cube
    (ins.length < routerInputs s g r cube → t = setRound s n r) ∧
    (∀ p, routerInputs s g r cube ≤ ins.length → foldAll ((r.parts.head?.map Contribution.op).getD 0) ins = some p →
      (treeNext s r.root treeDepth cube = none → t = endRound (setRound s n sent) n sent p) ∧
      (∀ next, treeNext s r.root treeDepth cube = some next → ∃ fl, t.flights = s.flights ++ [fl] ∧ t.mem = s.mem ∧
        fl.src = .dispatcher cube ∧ fl.cls = .reduce ∧ fl.at_ = cube ∧ fl.cube = next ∧ fl.body = .partialSum n r.id p))) ∧
  (∀ (s : State) (n : Nat) (r : Round) (c : Contribution) (l : List Contribution) (p : Partial), r.parts = c :: l →
    let m : Msg := { tag := c.tag, payload := resultBytes c.op (roundValue c.op p), score := c.rootCore,
                     scube := c.rootCube, sys := true }
    let root := c.rootCube * 256 + c.rootCore
    let t := endRound s n r p
    (agree r.parts = false → t = endMismatched s n r) ∧
    (agree r.parts = true → c.all = false → ∃ fl, t.flights = s.flights ++ [fl] ∧ fl.body = .message root m ∧
      fl.cube = c.rootCube ∧ t.mem = s.mem) ∧
    (agree r.parts = true → c.all = true → ∃ u : State, u.flights = s.flights ∧ u.mem = s.mem ∧
      t = u.multicast (.dispatcher c.rootCube) 0 .ordered c.rootCube n (r.parts.map fun x => x.core) (.message root m))) ∧
  (∀ (s : State) (cube n : Nat), InService s cube →
    exec (.barrierRelease cube n) s = .next (settle (s.focus (cube * 256)) cube n) ∧
    (∀ g, (s.cube cube).gangs.find? (fun y => y.id == n) = some g → g.allCommitted = false →
      let size := g.rows * g.cols * 2 ^ 20
      ∃ t, exec (.checkpointCommit cube n) s = .next (settle t cube g.group) ∧
        (t.cube cube).gangs.all (fun y => y.id != n || y.allCommitted) = true ∧
        ∀ a, ¬(g.cka ≤ a ∧ a < g.cka + size) → ¬(g.ckb ≤ a ∧ a < g.ckb + size) → memGet t.mem a = memGet s.mem a))

/-- R189, R190, R209, R281, R306-R309, R332-R338, R354: the engines' steps. A form that has been performed completes once its
writes are performed, and TSHAPE and TDIRTY show it then; a copy command starts with its targets or faults, sends for each part
an ownership request for every destination atom and then the reads of its source, and completes, the dispatcher's with a report to
the cube that gave it out (DESIGN CHOICE, log entry 43); a flue entry configures its flues, starts their kernels and stays
counted, stops them, or writes their status words, faults, or waits. -/
def Obligations.EngineEvents : Prop :=
  ∀ (s : State) (core : Nat), CoreInService s core →
    let b := s.focus core
    let c := b.core.ctx
    (∀ x l, c.mq = x :: l → x.work = .marker →
      (engineBusy b b.me .matrix c.tid = true → exec (.matrixFormComplete core) s = .next b) ∧
      (engineBusy b b.me .matrix c.tid = false →
        ∃ t, exec (.matrixFormComplete core) s = .next t ∧ t.core.ctx.mq = (x :: l).filter (fun y => y.id != x.id) ∧
          (∀ y ∈ t.core.ctx.counted, y.id ≠ x.id) ∧ t.mem = s.mem ∧ t.regs.g = b.regs.g ∧ t.core.ctx.tiles.acc = c.tiles.acc ∧
          (c.formed = none → t.regs = b.regs ∧ t.core.ctx.tiles = c.tiles) ∧
          (∀ y, c.formed = some y → t.regs.tdirty = b.regs.tdirty ||| y.dirty ∧ t.core.ctx.tiles.shape = y.shape))) ∧
    (∀ x k, c.cq = [x] → b.core.dq = [] → x.work = .copy k → k.atoms = [] → k.fault = none → enginesMay b core = true →
      k.pos < k.len →
      (k.started = false → c.slotsClear x.wait.toNat x.id = false → exec (.copyCommandStart core) s = .next b) ∧
      (k.started = false → c.slotsClear x.wait.toNat x.id = true →
        (∀ ts, startCopy b core x k = .ok ts →
          ∃ t, exec (.copyCommandStart core) s = .next t ∧ (t.core.ctx.cq.map Entry.copyCmd) =
            [some { k with started := true, targets := ts }] ∧ t.mem = s.mem) ∧
        (∀ r, startCopy b core x k = .error r → exec (.copyCommandStart core) s = .next (copyFault b core x 0 r))) ∧
      (∀ d, k.started = true → k.done = [d] → d.1 ≤ k.pos → k.pos < d.1 + d.2 → ∃ t, exec (.copyCommandStart core) s = .next t ∧
        t.core.ctx.cq.map Entry.copyCmd = [some { k with pos := min k.len (d.1 + d.2) }] ∧ t.flights = b.flights ∧ t.mem = s.mem) ∧
      (k.started = true → k.done = [] →
        let r := copyRequester b core x
        let dst := k.dst + BitVec.ofNat 64 k.pos
        let src := k.src + BitVec.ofNat 64 k.pos
        let len := copyPart b r k
        let fails := fun (e : Refused) (a : AccessKind) (seg : BitVec 16) =>
          exec (.copyCommandStart core) s = .next (if e.held then b else copyFault b core x k.pos (x.refusal e a seg))
        (∀ e, k.form ≠ .cpym → placeOf b r k.dstSeg dst .copyDst rawRegion = .error e → fails e .copyDst k.dstSeg) ∧
        (∀ d : Option Place, (k.form = .cpym → d = none) →
          (k.form ≠ .cpym → ∃ q, d = some q ∧ placeOf b r k.dstSeg dst .copyDst rawRegion = .ok q) →
          (∀ e, k.form ≠ .cpyf → sourceRuns b r k.srcSeg (runs 2 src len) = .error e → fails e .copySrc k.srcSeg) ∧
          (∀ ps, (k.form = .cpyf → ps = []) → (k.form ≠ .cpyf → sourceRuns b r k.srcSeg (runs 2 src len) = .ok ps) →
            let n := if k.form = .cpyf then len else (ps.map Piece.len).sum
            let g := (b.cube (core / 256)).imap.mgen
            let me : Agent := .engine core .copy
            let dests := copyDests k k.pos d
            let home := fun (a : Nat) => match d with
              | some q => (q.cube, homeOf b q)
              | none => (a / 2 ^ 47, (spadOf a).elim 0 Prod.fst)
            let data := if k.form = .cpyf then (patternBytes k k.pos n).map some else List.replicate n none
            mapHeld b = false → (∀ a ∈ dests, b.mayRequest me (home a).2 .ordered 1 = true) →
            (∀ q ∈ ps, b.mayRequest me (homeOf b q.place) .adaptive 2 = true) →
            ∃ t fs, exec (.copyCommandStart core) s = .next t ∧ t.mem = s.mem ∧ t.regs = b.regs ∧
              t.core.ctx.cq.map Entry.copyCmd = [some { k with
                pos := k.pos + n
                atoms := dests.map fun a => ⟨k.pos, a, n, false, data, false, d.bind fun q => q.ilv.map fun i => (i, g)⟩ }] ∧
              t.flights = b.flights ++ fs ∧ fs.map (fun (y : Flight) => (y.src, y.cls, y.cube, y.body)) =
                (dests.map fun a => (me, Class.ordered, (home a).1, Body.ownRequest (a / 32 * 32) x.id k.pos)) ++
                ps.map fun q => (me, Class.adaptive, q.place.cube,
                  Body.copyRead q.place.addr q.len x.id (k.pos + (q.off - src).toNat)))))) ∧
    (∀ x k, c.cq = [x] → b.core.dq = [] → c.live = true → x.work = .copy k → k.atoms = [] → k.fault = none → k.sent = true →
      ∃ t, exec (.copyCommandComplete core) s = .next t ∧ t.core.ctx.cq = [] ∧ (∀ y ∈ t.core.ctx.counted, y.id ≠ x.id) ∧
        t.mem = s.mem ∧ t.regs = b.regs) ∧
    (∀ x k, c.cq = [] → b.core.dq = [x] → x.work = .copy k → k.atoms = [] → k.sent = true →
      exec (.copyCommandComplete core) s = .next (reportFrom (b.modCore core fun k => { k with dq := [] }) x.origin
        (if k.fault.isSome then statusFaulted else statusOk))) ∧
    (∀ h l x fn o r, c.fq = h :: l → h.work ≠ .marker → c.fq.find? (fun y => !y.accepted && y.work != .marker) = some x →
      x.work = .flue fn o r false → c.slotsClear x.wait.toNat x.id = true → enginesMay b core = true →
      let cube := core / 256
      let gone := fun (t : State) => dropEarly t cube x.key
      let faults := fun (r' : TrapReport) => exec (.flueEntryStart core) s =
        .next ((gone b).modCore core fun k => { k with ctx := flueFaultCtx k.ctx x r' })
      let waits := exec (.flueEntryStart core) s = .next b
      let does := fun (P : State → Prop) => ∃ t, exec (.flueEntryStart core) s = .next t ∧ P t ∧
        (∀ y ∈ t.core.ctx.fq, y.id ≠ x.id) ∧ (∀ y ∈ t.core.ctx.counted, y.id ≠ x.id)
      let common := flueCommon b cube x.key (x.requester core) x.pc x.seg fn o r
      (common = .error none → waits) ∧ (∀ r', common = .error (some r') → faults r') ∧
      (∀ rc bs, common = .ok (rc, bs) →
        let set := flueSet (b.cube cube) rc
        let img := imageWords bs
        (fn = 0 → (imageOk img = false → faults (x.report .flueInvalid x.pc .none 0)) ∧
          (imageOk img = true → anyRunning b cube set = true → waits) ∧
          (imageOk img = true → anyRunning b cube set = false → does fun t => t.mem = s.mem ∧ ∀ j, j < 64 →
            t.flue cube j = if j ∈ set then { b.flue cube j with st := .configured, owner := core % 256, image := img }
              else b.flue cube j)) ∧
        (fn = 1 → ((b.cube cube).retiring ≠ [] → waits) ∧ ((b.cube cube).retiring = [] →
          let k := startKernel b cube (x.requester core) x.pc x.seg (core % 256) rc bs (some c.tid, x.id) none
          (k = .error none → waits) ∧ (∀ r', k = .error (some r') → faults r') ∧
          (∀ u, k = .ok u → u.mem = b.mem ∧
            (∀ j, j < 64 → u.flue cube j = b.flue cube j ∨
              let v := b.flue cube j
              let w := u.flue cube j
              j ∈ set ∧ v.st ≠ .idle ∧ v.st ≠ .running ∧ v.owner = core % 256 ∧ w.owner = v.owner ∧ w.image = v.image ∧
                w.st = (if w.ins.all List.isEmpty then .done else .running) ∧ w.tokens = 0 ∧ w.cells = freshCells ∧
                w.oq = [[], [], [], []] ∧ w.by_ = some (some c.tid, x.id)) ∧
            let started : Entry → Entry := fun y => { y with work := Machine.Work.flue fn o r true }
            exec (.flueEntryStart core) s = .next (settleStart
              ((gone u).modCore core fun k => { k with ctx := k.ctx.modEntry .flue x.id started }) cube (some c.tid, x.id))))) ∧
        (fn = 2 → does fun t => t.mem = s.mem ∧ ∀ j, j < 64 →
          (t.flue cube j).image = (b.flue cube j).image ∧ (t.flue cube j).owner = (b.flue cube j).owner ∧
          (t.flue cube j).st = if j ∈ set ∧ (b.flue cube j).st = .running then .stopped else (b.flue cube j).st) ∧
        (fn = 3 →
          let (seg, o') := segIn x.seg o
          let place := footprint b (x.requester core) seg o' 512 .store fun a => a = .dram || match a with
            | .spad _ w => w == 0
            | _ => false
          (∀ e, place = .error e → if e.held then waits else faults (x.refusal e .store seg)) ∧
          (∀ ps p u, place = .ok ps → waitsMap b ps = false → landPieces b ps = .ok [p] → p.len = 512 → (∀ j ∈ set, j < 64) →
            Memory.wf b.mem = true → statWrites b cube core [p] set = .ok u → does fun t =>
              (∀ j ∈ set, natOfBytes (t.load (p.place.addr + 8 * j) 8) = statusWord (b.flue cube j)) ∧
              ∀ a, (∀ j ∈ set, ¬(p.place.addr + 8 * j ≤ a ∧ a < p.place.addr + 8 * j + 8)) → memGet t.mem a = memGet s.mem a)))) ∧
    (∀ y, let fs := servedBy b (core / 256) y
      (anyRunning b (core / 256) fs = true → settleStart b (core / 256) y = b) ∧
      (anyRunning b (core / 256) fs = false → ∀ j ∈ fs, ((settleStart b (core / 256) y).flue (core / 256) j).by_ = none))

/-- R324-R326, R336, R339: a running kernel's streams read units in order and write them in order, its cells fire, and it
is done when every cell is done and every token written; a poisoned unit faults it. A write to a launched graph's table is
refused, and the kernel goes on without it: the model's choice (DESIGN CHOICE, log entry 44). -/
def Obligations.KernelEvents : Prop :=
  ∀ (s : State) (cube f k : Nat), InService s cube → f < 64 →
    let b := s.focus (cube * 256)
    let u := s.flue cube f
    u.st = .running →
    (∀ x l, k < 4 → u.frozen = false → canStream u k = true → u.ins.getD k [] = x :: l → b.poisoned x.addr 64 = none →
      unitBlocked b cube x.addr false = false → ∃ t, exec (.streamToken cube f k) s = .next t ∧ t.mem = s.mem ∧
        (t.flue cube f).ins = u.ins.set k l ∧ (t.flue cube f).outs = u.outs ∧
        (∀ j, j < 16 → cEn (imgWord u.image j) = true → cSrcA (imgWord u.image j) = 5 → cSelA (imgWord u.image j) = k →
          j < u.cells.length →
          ((t.flue cube f).cell j).a = (u.cell j).a ++ [BitVec.ofNat 512 (natOfBytes (b.load x.addr 64))])) ∧
    (∀ v q x l, 4 ≤ k → k < 8 → u.frozen = false → u.oq.getD (k - 4) [] = v :: q → u.outs.getD (k - 4) [] = x :: l →
      registered b cube x.addr 64 = false → unitBlocked b cube x.addr true = false → Memory.wf s.mem = true →
      ∃ t, exec (.streamToken cube f k) s = .next t ∧ t.load x.addr 64 = bytesOfNat 64 v.toNat ∧ SameMemoryBut s t x.addr 64 ∧
        (t.flue cube f).tokens = u.tokens + 1 ∧ (t.flue cube f).outs = u.outs.set (k - 4) l) ∧
    (∀ v q x l, 4 ≤ k → k < 8 → u.frozen = false → u.oq.getD (k - 4) [] = v :: q → u.outs.getD (k - 4) [] = x :: l →
      registered b cube x.addr 64 = true → ∃ t, exec (.streamToken cube f k) s = .next t ∧ t.mem = s.mem ∧
        (t.flue cube f).tokens = u.tokens ∧ (t.flue cube f).outs = u.outs.set (k - 4) l ∧ (t.flue cube f).st = .running) ∧
    (∀ x l a, k < 4 → u.frozen = false → canStream u k = true → u.ins.getD k [] = x :: l → b.poisoned x.addr 64 = some a →
      exec (.streamToken cube f k) s =
        .next (kernelFault b cube f 0x24 { x with off := x.off + BitVec.ofNat 64 (a - x.addr) })) ∧
    (u.frozen = false → k < 16 → canFire u k = true →
      (∀ w, fireCell u k = some w → ∃ t, exec (.cellFire cube f k) s = .next t ∧ t.flue cube f = w ∧ t.mem = s.mem) ∧
      (fireCell u k = none → exec (.cellFire cube f k) s = .next (endFlue b cube f .faulted 0x49 none))) ∧
    (u.frozen = true → exec (.cellFire cube f k) s = .next b) ∧
    ((imgCells u.image).all (fun j => u.done.contains j) = true → u.oq.all List.isEmpty = true →
      exec (.kernelFinish cube f) s = .next (endFlue b cube f .done 0 none))

/-- R16-R20, R342, R348, R350-R354, R358, R372, R389, R417: a task packet is turned away for lack of room or as damaged, refused
with the code of the first check that it fails, or ranked into the ingress buffer; the oldest packet there enters the PIFO with
the next arrival number, and its sender is told; the head of the PIFO, the smallest rank and then arrival, is placed, or waits
with one notice; the walker completes a gang that waited for its maps, or handles a completion: it counts the node, lowers the
counts of its successors and enqueues one that reaches zero, aborts the launch at a status that is not OK, and with the last
active node ends the launch with its notification; a run that exits writes its iterate, its norms and last its status word, and
reports to the walker. The model's choices here: one notice for each head that cannot be placed, with its arrival number (DESIGN
CHOICE, log entry 11), a packet that fails its CHECK posts no notification (DEDUCED, log entry 61), and a run that exits before it
has an iterate writes its status word alone (DESIGN CHOICE, log entry 13). -/
def Obligations.TaskEvents : Prop :=
  (∀ (s : State) (num : Nat) (x : Flight) (p : BitVec 1024) (slot : Option Nat) (v : Bool) (b : State),
    Arrived s num x (.packet p slot v) b → x.src.core.isSome = true → b.unadmitted (fun f => f.ord == x.ord) = none →
    let q := s.cube x.cube
    let room := takesPackets b x.cube = true ∧ q.ingress.length < 64
    (¬ room → ∃ t fl, exec (.taskPacket num) s = .next t ∧ fl ∈ t.flights ∧
      fl.num = num ∧ fl.cls = .reply ∧ fl.body = .nack none ∧ t.cubes = s.cubes ∧ t.mem = s.mem) ∧
    (room → v = false →
      exec (.taskPacket num) s = .next (refuse_ (b.errCount x.cube 4) x (some codeCheckFailed))) ∧
    (room → v = true → pOp p = 2 → launchHeld b x.cube p = true → exec (.taskPacket num) s = .next b) ∧
    (room → v = true → pOp p ≠ 2 ∨ launchHeld b x.cube p = false →
      (∀ t place, validate b x.cube (ignoredBits (partnerIgnore b x)) p = .ok (t, place) → exec (.taskPacket num) s =
        .next (rankIn (t.land num) x.cube { packet := p, rank := 0, arrival := 0, node := none, auto := none }
          (some { x with body := .admission place }))) ∧
      (∀ c, validate b x.cube (ignoredBits (partnerIgnore b x)) p = .error c → exec (.taskPacket num) s =
        .next (refuse_ (notifyRefusal (b.errCount x.cube 4) x.cube p c) x (some c))))) ∧
  (∀ (s : State) (cube : Nat), InService s cube →
    let b := s.focus (cube * 256)
    let q := s.cube cube
    (∀ e fl l, q.ingress = (e, fl) :: l →
      (4096 ≤ q.pifo.length → exec (.pifoAdmission cube) s = .next b) ∧
      (q.pifo.length < 4096 → e.node = none ∨ e.auto ≠ none ∨ entryHeld b cube e = false →
        ∃ t, exec (.pifoAdmission cube) s = .next t ∧
          (t.cube cube).pifo = q.pifo ++ [{ e with arrival := q.arrivals, auto := admitAuto b cube e }] ∧
          (t.cube cube).arrivals = q.arrivals + 1 ∧ (q.walked = [] → (t.cube cube).ingress = l) ∧ t.mem = s.mem ∧
          ∀ f, fl = some f → ∃ r ∈ t.flights, r.num = f.num ∧ r.cls = .reply ∧ r.body = f.body)) ∧
    (∀ e, headOf q = some e → dispatcherHeld q = false → entryHeld b cube e = false → ∀ h0 k0,
      let t := b.modCube cube fun y => { y with pifo := y.pifo.filter fun z => z.arrival != e.arrival }
      (∀ u, placeHead t cube h0 k0 e = .done u → exec (.dispatch cube h0 k0) s = .next (doneReading u cube e)) ∧
      (placeHead t cube h0 k0 e = .elsewhere → exec (.dispatch cube h0 k0) s = .next b) ∧
      (placeHead t cube h0 k0 e = .waits → q.noticed = some e.arrival → exec (.dispatch cube h0 k0) s = .next b) ∧
      (placeHead t cube h0 k0 e = .waits → q.noticed ≠ some e.arrival → ∃ u, exec (.dispatch cube h0 k0) s = .next u ∧
        ⟨1, noticePlacement, e.arrival⟩ ∈ (u.cube cube).stove.notices ++ (u.cube cube).stove.heldNotices ∧
        (u.cube cube).noticed = some e.arrival ∧ (u.cube cube).pifo = q.pifo ∧ u.mem = s.mem)) ∧
    (∀ e, headOf q = some e → ∀ y ∈ q.pifo, e.rank < y.rank ∨ (e.rank = y.rank ∧ e.arrival ≤ y.arrival)) ∧
    (∀ t, endedGang b cube = some t → exec (.nodeCompletion cube) s = .next t) ∧
    (endedGang b cube = none → q.done = [] → exec (.nodeCompletion cube) s = .next (startWaiting b cube)) ∧
    (∀ slot k st l g, endedGang b cube = none → q.done = ⟨.node slot k, st⟩ :: l → b.graph cube slot = some g →
      g.started = true → completionHeld b cube (.node slot k) = false →
      let rest := g.active.filter fun j => j != k
      let mine := (q.pifo ++ q.ingress.map Prod.fst ++ q.walked ++ q.stove.withdrawn).filterMap fun y =>
        y.node.bind fun z => if z.1 = slot then some z.2 else none
      let told := fun (t : State) (status node count : Nat) => pNv g.packet = true → pNcube g.packet < 640 →
        ∃ fl ∈ t.flights, fl.cls = .ordered ∧ fl.cube = pNcube g.packet ∧
          fl.body = .message (pNcube g.packet * 256 + pNcore g.packet)
            { tag := pNtag g.packet, score := 0, scube := cube, sys := true
              payload := bytesOfNat 8 (status + node % 2 ^ 16 * 2 ^ 16 + count % 2 ^ 16 * 2 ^ 32) }
      let does := fun (P : State → Prop) => ∃ t, exec (.nodeCompletion cube) s = .next t ∧ P t
      (g.abort.isSome = true → rest ≠ [] → does fun t => t.mem = s.mem ∧ (t.cube cube).done = l ∧
        t.graph cube slot = some { g with active := rest }) ∧
      (g.abort = none → st ≠ statusOk →
        let left := rest.filter fun j => !mine.contains j
        (left ≠ [] → does fun t => t.mem = s.mem ∧ (t.cube cube).done = l ∧
          t.graph cube slot = some { g with active := left, abort := some (st, k) } ∧
          ∀ y ∈ (t.cube cube).pifo ++ (t.cube cube).ingress.map Prod.fst ++ (t.cube cube).walked, y.node.map Prod.fst ≠ some slot) ∧
        (left = [] → g.launches.length = 1 → does fun t => t.mem = s.mem ∧ t.graph cube slot = none ∧
          told t st.toNat k g.done)) ∧
      (g.abort = none → st = statusOk → g.job = none →
        let u := (b.modCube cube fun y => { y with done := l }).setGraph cube { g with active := rest, done := g.done + 1 }
        ∀ h z e, graphOf u cube g.packet = some (h, z) → nodeEntry u g.packet h k = some e →
          (nodeSuccs e = 0 → rest ≠ [] → does fun t => t.mem = s.mem ∧ (t.cube cube).done = l ∧
            t.graph cube slot = some { g with active := rest, done := g.done + 1 }) ∧
          (nodeSuccs e = 0 → rest = [] → g.launches.length = 1 → does fun t => t.mem = s.mem ∧ t.graph cube slot = none ∧
            told t 0 0xFFFF (g.done + 1)) ∧
          (∀ m v p, nodeSuccs e = 1 → succWord u g.packet h (nodeSoff e) = some m → countOf u g.packet h m = some v →
            dPieces u (dispatcherOf (pAsid g.packet)) (pSegs g.packet) h.counts (2 * m) 2 .store = .ok [p] → p.len = 2 →
            poisonIn u [p] = none → m < h.n → Memory.wf b.mem = true →
            let counted := fun (t : State) => natOfBytes (t.load p.place.addr 2) = (v - 1) % 2 ^ 16 ∧
              SameMemoryBut s t p.place.addr 2
            (2 ≤ v → rest ≠ [] → does fun t => counted t ∧
              t.graph cube slot = some { g with active := rest, done := g.done + 1 }) ∧
            (v = 1 → does fun t => counted t ∧
              t.graph cube slot = some { g with active := rest ++ [m], done := g.done + 1 } ∧
              ∃ y ∈ (t.cube cube).ingress.map Prod.fst ++ (t.cube cube).walked, y.node = some (slot, m))))) ∧
    (∀ r, q.runs.find? (fun y => y.id == r.id) = some r → r.cube = cube →
      (r.due = none → exec (.refinementExit cube r.id) s = .next b) ∧
      (∀ e, r.due = some e →
        (∀ u, writeExit b r e = .ok u → ∃ t, exec (.refinementExit cube r.id) s = .next t ∧ t.mem = u.mem ∧
          (∀ y ∈ (t.cube cube).runs, y.id ≠ r.id) ∧ ⟨.node r.slot r.node, exitStatus e⟩ ∈ (t.cube cube).done) ∧
        (writeExit b r e = .error true → exec (.refinementExit cube r.id) s = .next b) ∧
        (writeExit b r e = .error false → e ≠ exitFaulted → ∃ t, exec (.refinementExit cube r.id) s = .next t ∧ t.mem = s.mem ∧
          ((t.cube cube).runs.find? fun y => y.id == r.id) = some { r with due := some exitFaulted })))) ∧
  (∀ (s : State) (r : Run) (e : Nat),
    (r.prog = none → writeExit s r e = writeStatus s r (refStatus 3 (rFmt0 r.data.toNat) e 0 0 false false)) ∧
    (∀ g, r.prog = some g →
      let w := refStatus 3 g.fmt e g.k g.esc g.sing g.limit
      getBits w 0 3 = 3 ∧ getBits w 3 3 = g.fmt % 8 ∧ w.testBit 6 = g.sing ∧ w.testBit 7 = g.limit ∧
      getBits w 16 16 = e % 2 ^ 16 ∧ getBits w 32 16 = g.k % 2 ^ 16 ∧ getBits w 48 3 = g.esc % 8 ∧
      (e = exitFaulted → writeExit s r e = writeStatus s r w) ∧
      (e ≠ exitFaulted → ∀ t, writeExit s r e = .ok t ↔ ∃ u v z, blurOutputs s r false = .ok u ∧
        controlWrite u r (rXadr r.data.toNat) 0 (g.best.flatMap (bytesOfNat 8)) = .ok v ∧
        controlWrite v r r.block 88 (bytesOfNat 8 g.bn ++ bytesOfNat 8 g.nk) = .ok z ∧ writeStatus z r w = .ok t)) ∧
    (∀ w t p, writeStatus s r w = .ok t → controlPieces s r r.block 72 8 = .ok [p] → p.len = 8 → Memory.wf s.mem = true →
      natOfBytes (t.load p.place.addr 8) = w % 2 ^ 64 ∧ SameMemoryBut s t p.place.addr 8))

/-- R5, R88, R450-R452: a reset boots the Stove cores whose images verify, none of them where core 6's own is refused, and the
cube is READY only with all eight. Every core of the cube, every register of it and of its Stove, has its reset value, but for what
the boot sets: the RUN and FAIL bits and what the images carry, the expanders, the spare cores, the retired flues, the links that
train and the error log. -/
def Obligations.PowerOnResetResults : Prop :=
  ∀ (s : State) (cube : Nat) (f : BootFlash), cube < 640 →
    let h := holdCube (s.focus (cube * 256)) cube
    let ok := verified (h.cube cube) f cube
    let r := Cube.reset cube
    ∃ t, exec (.powerOnReset cube f) s = .next t ∧
      let q := t.cube cube
      (∀ k, k < 8 → (q.stove.run.getLsbD k = true ↔ 6 ∈ ok ∧ k ∈ ok) ∧ (q.stove.fail.getLsbD k = true ↔ k ∉ ok)) ∧
      (q.stove.ready = true ↔ ok.length = 8) ∧ (q.stove.recov = true ↔ (6 ∉ ok ∨ 0 ∉ ok)) ∧
      { q with stove := r.stove, supplied := r.supplied, groups := r.groups, links := r.links, errs := r.errs
               expanders := r.expanders, hostIgnore := r.hostIgnore, fgen := r.fgen, fmap := r.fmap } = r ∧
      { q.stove with run := 0, fail := 0, ready := false, recov := false, failed := false, images := [], linking := false
                     notices := [], heldNotices := [], errlog := [], errcount := 0 } = r.stove ∧
      (∀ g ∈ q.groups, 4096 ≤ g.num) ∧ q.supplied = (s.cube cube).supplied ∧
      (∀ k, k < 16 → k ≠ 14 → q.errs[k]? = some 0) ∧ (f.retired = [] → q.errs[14]? = some 0 ∧ q.fgen = r.fgen ∧ q.fmap = r.fmap) ∧
      (∀ d l, q.links[d]? = some l → l.replay = 0 ∧
        (l.up = true → d ∈ f.links ∧ l.lanes = 16 ∧ l.ver = 1 ∧ trains t cube d = true)) ∧
      (∀ e ∈ q.expanders, e ∈ f.expanders) ∧
      (∀ k, k < 256 → let c := t.getCore (cube * 256 + k)
        { c with spare := false } = Core.reset ∧ (c.spare = true → k ∈ f.spares))
end

