-- ==== Sys2Proof/Laws/Encoding.lean ====
section
/-! SUPPORT. The fields of an encoded word read back (R42-R47, R58, R63, R64), and the decoder on the words of a
legal shape. -/

namespace Sys2Proof.Laws

open Sys2Proof

/-! ### Fields of a concatenation -/

/-- A field above the lower part lies in the upper part. -/
theorem ext_append {m n k : Nat} (x : BitVec m) (y : BitVec n) (lo : Nat) (h : n ≤ lo) :
    (x ++ y).extractLsb' lo k = x.extractLsb' (lo - n) k := by
  apply BitVec.eq_of_getLsbD_eq
  intro i hi
  simp only [BitVec.getLsbD_extractLsb', BitVec.getLsbD_append, hi, decide_true, Bool.true_and]
  rw [if_neg (by omega)]
  congr 1
  omega

/-- A field within the lower part lies in the lower part. -/
theorem ext_low {m n k : Nat} (x : BitVec m) (y : BitVec n) (lo : Nat) (h : lo + k ≤ n) :
    (x ++ y).extractLsb' lo k = y.extractLsb' lo k := by
  apply BitVec.eq_of_getLsbD_eq
  intro i hi
  simp only [BitVec.getLsbD_extractLsb', BitVec.getLsbD_append, hi, decide_true, Bool.true_and]
  rw [if_pos (by omega)]

/-- The whole of a vector as a field. -/
theorem ext_whole {k : Nat} (x : BitVec k) : x.extractLsb' 0 k = x := by
  apply BitVec.eq_of_getLsbD_eq
  intro i hi
  simp [hi]

/-- A number that fits is read back. -/
theorem ext_ofNat {k n : Nat} (h : n < 2 ^ k) : ((BitVec.ofNat k n).extractLsb' 0 k).toNat = n := by
  rw [ext_whole, BitVec.toNat_ofNat, Nat.mod_eq_of_lt h]

/-- A prefix word (R47). -/
theorem prefix_op (q : BitVec 24) : majorOp (prefixWord q) = 0xFE := by
  simp only [majorOp, prefixWord]
  rw [ext_append _ _ _ (by omega)]
  exact congrArg BitVec.toNat (ext_whole (0xFE : BitVec 8))

theorem prefix_payload (q : BitVec 24) : (prefixWord q).extractLsb' 0 24 = q := by
  simp only [prefixWord]
  rw [ext_low _ _ _ (by omega)]
  exact ext_whole q

/-! ### The words of each format -/

/-- The A word (R42). -/
theorem fields_a (op fn : Nat) (f : FmtA) (ho : op < 256) (hn : fn < 8) :
    let w := BitVec.ofNat 8 op ++ f.d ++ f.a ++ f.b ++ BitVec.ofNat 3 fn ++ f.s
    majorOp w = op ∧ (w.extractLsb' 3 3).toNat = fn ∧ ∀ q, fmtAOf q w = { f with p := q } := by
  refine ⟨?_, ?_, fun q => ?_⟩
  · simp only [majorOp]
    rw [ext_append _ _ _ (by omega), ext_append _ _ _ (by omega), ext_append _ _ _ (by omega),
      ext_append _ _ _ (by omega), ext_append _ _ _ (by omega)]
    exact ext_ofNat ho
  · rw [ext_append _ _ _ (by omega), ext_low _ _ _ (by omega)]
    exact ext_ofNat hn
  · simp only [fmtAOf]
    congr 1
    · rw [ext_append _ _ _ (by omega), ext_append _ _ _ (by omega), ext_append _ _ _ (by omega),
        ext_append _ _ _ (by omega), ext_low _ _ _ (by omega)]
      exact ext_whole _
    · rw [ext_append _ _ _ (by omega), ext_append _ _ _ (by omega), ext_append _ _ _ (by omega),
        ext_low _ _ _ (by omega)]
      exact ext_whole _
    · rw [ext_append _ _ _ (by omega), ext_append _ _ _ (by omega), ext_low _ _ _ (by omega)]
      exact ext_whole _
    · rw [ext_low _ _ _ (by omega)]
      exact ext_whole _

/-- The L word (R43). -/
theorem fields_l (op : Nat) (f : FmtL) (ho : op < 256) :
    let w := BitVec.ofNat 8 op ++ f.d ++ f.imm ++ f.s
    majorOp w = op ∧ ∀ q, fmtLOf q w = { f with p := q } := by
  refine ⟨?_, fun q => ?_⟩
  · simp only [majorOp]
    rw [ext_append _ _ _ (by omega), ext_append _ _ _ (by omega), ext_append _ _ _ (by omega)]
    exact ext_ofNat ho
  · simp only [fmtLOf]
    congr 1
    · rw [ext_append _ _ _ (by omega), ext_append _ _ _ (by omega), ext_low _ _ _ (by omega)]
      exact ext_whole _
    · rw [ext_append _ _ _ (by omega), ext_low _ _ _ (by omega)]
      exact ext_whole _
    · rw [ext_low _ _ _ (by omega)]
      exact ext_whole _

/-- The M word (R44). -/
theorem fields_m (op fn : Nat) (f : FmtM) (ho : op < 256) (hn : fn < 8) :
    let w := BitVec.ofNat 8 op ++ f.d ++ f.base ++ f.sg ++ f.off ++ BitVec.ofNat 3 fn
    majorOp w = op ∧ (w.extractLsb' 0 3).toNat = fn ∧ ∀ q, fmtMOf q w = { f with p := q } := by
  refine ⟨?_, ?_, fun q => ?_⟩
  · simp only [majorOp]
    rw [ext_append _ _ _ (by omega), ext_append _ _ _ (by omega), ext_append _ _ _ (by omega),
      ext_append _ _ _ (by omega), ext_append _ _ _ (by omega)]
    exact ext_ofNat ho
  · rw [ext_low _ _ _ (by omega)]
    exact ext_ofNat hn
  · simp only [fmtMOf]
    congr 1
    · rw [ext_append _ _ _ (by omega), ext_append _ _ _ (by omega), ext_append _ _ _ (by omega),
        ext_append _ _ _ (by omega), ext_low _ _ _ (by omega)]
      exact ext_whole _
    · rw [ext_append _ _ _ (by omega), ext_append _ _ _ (by omega), ext_append _ _ _ (by omega),
        ext_low _ _ _ (by omega)]
      exact ext_whole _
    · rw [ext_append _ _ _ (by omega), ext_append _ _ _ (by omega), ext_low _ _ _ (by omega)]
      exact ext_whole _
    · rw [ext_append _ _ _ (by omega), ext_low _ _ _ (by omega)]
      exact ext_whole _

/-- The B word (R45). -/
theorem fields_b (op : Nat) (k : BitVec 3) (f : FmtB) (ho : op < 256) :
    let w := BitVec.ofNat 8 op ++ f.c ++ k ++ f.off
    majorOp w = op ∧ w.extractLsb' 15 3 = k ∧ ∀ q, fmtBOf q w = { f with p := q } := by
  refine ⟨?_, ?_, fun q => ?_⟩
  · simp only [majorOp]
    rw [ext_append _ _ _ (by omega), ext_append _ _ _ (by omega), ext_append _ _ _ (by omega)]
    exact ext_ofNat ho
  · rw [ext_append _ _ _ (by omega), ext_low _ _ _ (by omega)]
    exact ext_whole _
  · simp only [fmtBOf]
    congr 1
    · rw [ext_append _ _ _ (by omega), ext_append _ _ _ (by omega), ext_low _ _ _ (by omega)]
      exact ext_whole _
    · rw [ext_low _ _ _ (by omega)]
      exact ext_whole _

/-- The T word (R46). -/
theorem fields_t (op fn : Nat) (f : FmtT) (ho : op < 256) (hn : fn < 16) :
    let w := BitVec.ofNat 8 op ++ f.td ++ f.ta ++ f.tb ++ f.wait ++ f.set ++ BitVec.ofNat 4 fn
    majorOp w = op ∧ (w.extractLsb' 0 4).toNat = fn ∧ ∀ q, fmtTOf q w = { f with p := q } := by
  refine ⟨?_, ?_, fun q => ?_⟩
  · simp only [majorOp]
    rw [ext_append _ _ _ (by omega), ext_append _ _ _ (by omega), ext_append _ _ _ (by omega),
      ext_append _ _ _ (by omega), ext_append _ _ _ (by omega), ext_append _ _ _ (by omega)]
    exact ext_ofNat ho
  · rw [ext_low _ _ _ (by omega)]
    exact ext_ofNat hn
  · simp only [fmtTOf]
    congr 1
    · rw [ext_append _ _ _ (by omega), ext_append _ _ _ (by omega), ext_append _ _ _ (by omega),
        ext_append _ _ _ (by omega), ext_append _ _ _ (by omega), ext_low _ _ _ (by omega)]
      exact ext_whole _
    · rw [ext_append _ _ _ (by omega), ext_append _ _ _ (by omega), ext_append _ _ _ (by omega),
        ext_append _ _ _ (by omega), ext_low _ _ _ (by omega)]
      exact ext_whole _
    · rw [ext_append _ _ _ (by omega), ext_append _ _ _ (by omega), ext_append _ _ _ (by omega),
        ext_low _ _ _ (by omega)]
      exact ext_whole _
    · rw [ext_append _ _ _ (by omega), ext_append _ _ _ (by omega), ext_low _ _ _ (by omega)]
      exact ext_whole _
    · rw [ext_append _ _ _ (by omega), ext_low _ _ _ (by omega)]
      exact ext_whole _

/-- The LPAD word (R64). -/
theorem fields_lpad (l : BitVec 16) :
    let w := (0x3C : BitVec 8) ++ l ++ (0 : BitVec 8)
    majorOp w = 0x3C ∧ w.extractLsb' 0 8 = 0 ∧ w.extractLsb' 8 16 = l := by
  refine ⟨?_, ?_, ?_⟩
  · simp only [majorOp]
    rw [ext_append _ _ _ (by omega), ext_append _ _ _ (by omega)]
    exact congrArg BitVec.toNat (ext_whole _)
  · rw [ext_low _ _ _ (by omega)]
    exact ext_whole _
  · rw [ext_append _ _ _ (by omega), ext_low _ _ _ (by omega)]
    exact ext_whole _

/-- The JT word (R63). -/
theorem fields_jt (i : BitVec 6) :
    let w := (0x3D : BitVec 8) ++ i ++ (0 : BitVec 18)
    majorOp w = 0x3D ∧ w.extractLsb' 0 18 = 0 ∧ w.extractLsb' 18 6 = i := by
  refine ⟨?_, ?_, ?_⟩
  · simp only [majorOp]
    rw [ext_append _ _ _ (by omega), ext_append _ _ _ (by omega)]
    exact congrArg BitVec.toNat (ext_whole _)
  · rw [ext_low _ _ _ (by omega)]
    exact ext_whole _
  · rw [ext_append _ _ _ (by omega), ext_low _ _ _ (by omega)]
    exact ext_whole _

/-- The REP word (R58). -/
theorem fields_rep (n : BitVec 8) (l : BitVec 4) (t : BitVec 5) :
    let w := (0x3E : BitVec 8) ++ n ++ l ++ t ++ (0 : BitVec 7)
    majorOp w = 0x3E ∧ w.extractLsb' 0 7 = 0 ∧ w.extractLsb' 16 8 = n ∧ w.extractLsb' 12 4 = l ∧ w.extractLsb' 7 5 = t := by
  refine ⟨?_, ?_, ?_, ?_, ?_⟩
  · simp only [majorOp]
    rw [ext_append _ _ _ (by omega), ext_append _ _ _ (by omega), ext_append _ _ _ (by omega), ext_append _ _ _ (by omega)]
    exact congrArg BitVec.toNat (ext_whole _)
  · rw [ext_low _ _ _ (by omega)]
    exact ext_whole _
  · rw [ext_append _ _ _ (by omega), ext_append _ _ _ (by omega), ext_append _ _ _ (by omega), ext_low _ _ _ (by omega)]
    exact ext_whole _
  · rw [ext_append _ _ _ (by omega), ext_append _ _ _ (by omega), ext_low _ _ _ (by omega)]
    exact ext_whole _
  · rw [ext_append _ _ _ (by omega), ext_low _ _ _ (by omega)]
    exact ext_whole _

/-- The REPG word (R58). -/
theorem fields_repg (c : BitVec 6) (l : BitVec 4) (t : BitVec 5) :
    let w := (0x3F : BitVec 8) ++ c ++ (0 : BitVec 2) ++ l ++ t ++ (0 : BitVec 7)
    majorOp w = 0x3F ∧ w.extractLsb' 0 7 = 0 ∧ w.extractLsb' 16 2 = 0 ∧ w.extractLsb' 18 6 = c ∧
      w.extractLsb' 12 4 = l ∧ w.extractLsb' 7 5 = t := by
  refine ⟨?_, ?_, ?_, ?_, ?_, ?_⟩
  · simp only [majorOp]
    rw [ext_append _ _ _ (by omega), ext_append _ _ _ (by omega), ext_append _ _ _ (by omega),
      ext_append _ _ _ (by omega), ext_append _ _ _ (by omega)]
    exact congrArg BitVec.toNat (ext_whole _)
  · rw [ext_low _ _ _ (by omega)]
    exact ext_whole _
  · rw [ext_append _ _ _ (by omega), ext_append _ _ _ (by omega), ext_append _ _ _ (by omega), ext_low _ _ _ (by omega)]
    exact ext_whole _
  · rw [ext_append _ _ _ (by omega), ext_append _ _ _ (by omega), ext_append _ _ _ (by omega), ext_append _ _ _ (by omega),
      ext_low _ _ _ (by omega)]
    exact ext_whole _
  · rw [ext_append _ _ _ (by omega), ext_append _ _ _ (by omega), ext_low _ _ _ (by omega)]
    exact ext_whole _
  · rw [ext_append _ _ _ (by omega), ext_low _ _ _ (by omega)]
    exact ext_whole _

/-! ### The decoder on one word behind its prefixes -/

/-- A word with no prefix. -/
theorem decode_zero (w : Word32) (h : majorOp w ≠ 0xFE) : decodeShapes [w] = decodeShape [] w := by
  simp [decodeShapes, h]

/-- A word behind one prefix. -/
theorem decode_one (q : BitVec 24) (w : Word32) (h : majorOp w ≠ 0xFE) :
    decodeShapes [prefixWord q, w] = decodeShape [q] w := by
  simp [decodeShapes, h, prefix_op, prefix_payload]

/-- A word behind two prefixes. -/
theorem decode_two (q r : BitVec 24) (w : Word32) (h : majorOp w ≠ 0xFE) :
    decodeShapes [prefixWord q, prefixWord r, w] = decodeShape [q, r] w := by
  simp [decodeShapes, h, prefix_op, prefix_payload]

/-- What a shape must satisfy to be the decoding of its words. -/
def Legal (sh : Shape) : Bool := sh.assigned && sh.prefixOk && sh.reservedOk && sh.operandsOk

/-- A word whose format and shape are known decodes to that shape. -/
theorem decode_shape {ps : List (BitVec 24)} {w : Word32} {fmt : Format} {sh : Shape} (hf : formatOf (majorOp w) = some fmt)
    (hs : shapeOf fmt ps w = sh) (hp : ps.length ≤ maxPrefixes fmt) (hw : wordReservedOk fmt w = true) (hl : Legal sh = true) :
    decodeShape ps w = .ok sh := by
  simp only [Legal, Bool.and_eq_true] at hl
  obtain ⟨⟨⟨h1, h2⟩, h3⟩, h4⟩ := hl
  simp [decodeShape, hf, hs, h1, h2, h3, h4, hw, Nat.not_lt.mpr hp]

/-- An A shape decodes from its words. -/
theorem round_a (op fn : Nat) (f : FmtA) (ho : op < 0xFE) (hn : fn < 8) (hf : formatOf op = some .a)
    (hl : Legal (.a op fn f) = true) : decodeShapes (shapeWords (.a op fn f)) = .ok (.a op fn f) := by
  obtain ⟨h1, h2, h3⟩ := fields_a op fn f (by omega) hn
  have hne : majorOp (BitVec.ofNat 8 op ++ f.d ++ f.a ++ f.b ++ BitVec.ofNat 3 fn ++ f.s) ≠ 0xFE := by rw [h1]; omega
  obtain ⟨d, a, b, s, p⟩ := f
  cases p with
  | none =>
    simp only [shapeWords, Option.toList, List.map_nil, List.nil_append]
    rw [decode_zero _ hne]
    refine decode_shape (fmt := .a) (by rw [h1]; exact hf) ?_ (by simp [maxPrefixes]) rfl hl
    simp only [shapeOf, h1, h2, h3, List.head?_nil]
  | some q =>
    simp only [shapeWords, Option.toList, List.map_cons, List.map_nil, List.cons_append, List.nil_append]
    rw [decode_one _ _ hne]
    refine decode_shape (fmt := .a) (by rw [h1]; exact hf) ?_ (by simp [maxPrefixes]) rfl hl
    simp only [shapeOf, h1, h2, h3, List.head?_cons]

/-- A T shape decodes from its words. -/
theorem round_t (op fn : Nat) (f : FmtT) (ho : op < 0xFE) (hn : fn < 16) (hf : formatOf op = some .t)
    (hl : Legal (.t op fn f) = true) : decodeShapes (shapeWords (.t op fn f)) = .ok (.t op fn f) := by
  obtain ⟨h1, h2, h3⟩ := fields_t op fn f (by omega) hn
  have hne : majorOp (BitVec.ofNat 8 op ++ f.td ++ f.ta ++ f.tb ++ f.wait ++ f.set ++ BitVec.ofNat 4 fn) ≠ 0xFE := by
    rw [h1]; omega
  obtain ⟨td, ta, tb, w, st, p⟩ := f
  cases p with
  | none =>
    simp only [shapeWords, Option.toList, List.map_nil, List.nil_append]
    rw [decode_zero _ hne]
    refine decode_shape (fmt := .t) (by rw [h1]; exact hf) ?_ (by simp [maxPrefixes]) rfl hl
    simp only [shapeOf, h1, h2, h3, List.head?_nil]
  | some q =>
    simp only [shapeWords, Option.toList, List.map_cons, List.map_nil, List.cons_append, List.nil_append]
    rw [decode_one _ _ hne]
    refine decode_shape (fmt := .t) (by rw [h1]; exact hf) ?_ (by simp [maxPrefixes]) rfl hl
    simp only [shapeOf, h1, h2, h3, List.head?_cons]

/-- The decoder on at most two prefixes and a word. -/
theorem decode_list (p : List (BitVec 24)) (w : Word32) (h : majorOp w ≠ 0xFE) (hp : p.length ≤ 2) :
    decodeShapes (p.map prefixWord ++ [w]) = decodeShape p w := by
  match p, hp with
  | [], _ => exact decode_zero w h
  | [q], _ => exact decode_one q w h
  | [q, r], _ => exact decode_two q r w h

/-- An L shape decodes from its words. -/
theorem round_l (op : Nat) (f : FmtL) (ho : op < 0xFE) (hf : formatOf op = some .l) (hl : Legal (.l op f) = true) :
    decodeShapes (shapeWords (.l op f)) = .ok (.l op f) := by
  obtain ⟨h1, h3⟩ := fields_l op f (by omega)
  have hp : f.p.length ≤ 2 := by simp only [Legal, Shape.prefixOk, Bool.and_eq_true, decide_eq_true_eq] at hl; exact hl.1.1.2
  simp only [shapeWords]
  rw [decode_list _ _ (by rw [h1]; omega) hp]
  refine decode_shape (fmt := .l) (by rw [h1]; exact hf) ?_ hp rfl hl
  simp only [shapeOf, h1, h3]

/-- An M shape decodes from its words. -/
theorem round_m (op fn : Nat) (f : FmtM) (ho : op < 0xFE) (hn : fn < 8) (hf : formatOf op = some .m)
    (hl : Legal (.m op fn f) = true) : decodeShapes (shapeWords (.m op fn f)) = .ok (.m op fn f) := by
  obtain ⟨h1, h2, h3⟩ := fields_m op fn f (by omega) hn
  have hp : f.p.length ≤ 2 := by simp only [Legal, Shape.prefixOk, Bool.and_eq_true, decide_eq_true_eq] at hl; exact hl.1.1.2
  simp only [shapeWords]
  rw [decode_list _ _ (by rw [h1]; omega) hp]
  refine decode_shape (fmt := .m) (by rw [h1]; exact hf) ?_ hp rfl hl
  simp only [shapeOf, h1, h2, h3]

/-- A B shape decodes from its words. -/
theorem round_b (op : Nat) (k : BitVec 3) (f : FmtB) (ho : op < 0xFE) (hf : formatOf op = some .b)
    (hl : Legal (.b op k f) = true) : decodeShapes (shapeWords (.b op k f)) = .ok (.b op k f) := by
  obtain ⟨h1, h2, h3⟩ := fields_b op k f (by omega)
  have hp : f.p.length ≤ 2 := by simp only [Legal, Shape.prefixOk, Bool.and_eq_true, decide_eq_true_eq] at hl; exact hl.1.1.2
  simp only [shapeWords]
  rw [decode_list _ _ (by rw [h1]; omega) hp]
  refine decode_shape (fmt := .b) (by rw [h1]; exact hf) ?_ hp rfl hl
  simp only [shapeOf, h1, h2, h3]

/-- LPAD decodes from its word. -/
theorem round_lpad (l : BitVec 16) : decodeShapes (shapeWords (.lpad l)) = .ok (.lpad l) := by
  obtain ⟨h1, h2, h3⟩ := fields_lpad l
  simp only [shapeWords]
  rw [decode_zero _ (by rw [h1]; omega)]
  refine decode_shape (fmt := .lpad) (by rw [h1]; rfl) ?_ (by simp [maxPrefixes]) ?_ rfl
  · simp only [shapeOf, h3]
  · simp only [wordReservedOk, h2]; rfl

/-- JT decodes from its word. -/
theorem round_jt (i : BitVec 6) (hl : Legal (.jt i) = true) : decodeShapes (shapeWords (.jt i)) = .ok (.jt i) := by
  obtain ⟨h1, h2, h3⟩ := fields_jt i
  simp only [shapeWords]
  rw [decode_zero _ (by rw [h1]; omega)]
  refine decode_shape (fmt := .jt) (by rw [h1]; rfl) ?_ (by simp [maxPrefixes]) ?_ hl
  · simp only [shapeOf, h3]
  · simp only [wordReservedOk, h2]; rfl

/-- REP decodes from its word. -/
theorem round_rep (n : BitVec 8) (l : BitVec 4) (t : BitVec 5) :
    decodeShapes (shapeWords (.rep n l t)) = .ok (.rep n l t) := by
  obtain ⟨h1, h2, h3, h4, h5⟩ := fields_rep n l t
  simp only [shapeWords]
  rw [decode_zero _ (by rw [h1]; omega)]
  refine decode_shape (fmt := .rep) (by rw [h1]; rfl) ?_ (by simp [maxPrefixes]) ?_ rfl
  · simp only [shapeOf, h3, h4, h5]
  · simp only [wordReservedOk, h2]; rfl

/-- REPG decodes from its word. -/
theorem round_repg (c : BitVec 6) (l : BitVec 4) (t : BitVec 5) (hl : Legal (.repg c l t) = true) :
    decodeShapes (shapeWords (.repg c l t)) = .ok (.repg c l t) := by
  obtain ⟨h1, h2, h0, h3, h4, h5⟩ := fields_repg c l t
  simp only [shapeWords]
  rw [decode_zero _ (by rw [h1]; omega)]
  refine decode_shape (fmt := .repg) (by rw [h1]; rfl) ?_ (by simp [maxPrefixes]) ?_ hl
  · simp only [shapeOf, h3, h4, h5]
  · simp only [wordReservedOk, h2, h0]; rfl

end Sys2Proof.Laws
end

