-- ==== Sys2Proof/Laws/State.lean ====
section
/-! SUPPORT. One lemma per field and update of the state, so that no proof unfolds a record update. -/

namespace Sys2Proof.Machine

open Sys2Proof

/-! ### Fields of the state -/

@[simp] theorem State.modCtx_me (s : State) (f : Ctx → Ctx) : (s.modCtx f).me = s.me := rfl
@[simp] theorem State.modCtx_seqr (s : State) (f : Ctx → Ctx) : (s.modCtx f).seqr = s.seqr := rfl
@[simp] theorem State.modCtx_word (s : State) (f : Ctx → Ctx) : (s.modCtx f).word = s.word := rfl
@[simp] theorem State.modCtx_answerLater (s : State) (f : Ctx → Ctx) : (s.modCtx f).answerLater = s.answerLater := rfl
@[simp] theorem State.modCtx_useL1 (s : State) (f : Ctx → Ctx) : (s.modCtx f).useL1 = s.useL1 := rfl
@[simp] theorem State.modCtx_cores (s : State) (f : Ctx → Ctx) : (s.modCtx f).cores = s.cores := rfl
@[simp] theorem State.modCtx_cubes (s : State) (f : Ctx → Ctx) : (s.modCtx f).cubes = s.cubes := rfl
@[simp] theorem State.modCtx_mem (s : State) (f : Ctx → Ctx) : (s.modCtx f).mem = s.mem := rfl
@[simp] theorem State.modCtx_poison (s : State) (f : Ctx → Ctx) : (s.modCtx f).poison = s.poison := rfl
@[simp] theorem State.modCtx_flights (s : State) (f : Ctx → Ctx) : (s.modCtx f).flights = s.flights := rfl
@[simp] theorem State.modCtx_kept (s : State) (f : Ctx → Ctx) : (s.modCtx f).kept = s.kept := rfl
@[simp] theorem State.modCtx_seqs (s : State) (f : Ctx → Ctx) : (s.modCtx f).seqs = s.seqs := rfl
@[simp] theorem State.modCtx_detours (s : State) (f : Ctx → Ctx) : (s.modCtx f).detours = s.detours := rfl
@[simp] theorem State.modCtx_removal (s : State) (f : Ctx → Ctx) : (s.modCtx f).removal = s.removal := rfl
@[simp] theorem State.modCtx_agenda (s : State) (f : Ctx → Ctx) : (s.modCtx f).agenda = s.agenda := rfl
@[simp] theorem State.modCtx_idleCtr (s : State) (f : Ctx → Ctx) : (s.modCtx f).idleCtr = s.idleCtr := rfl
@[simp] theorem State.modCtx_freeCtr (s : State) (f : Ctx → Ctx) : (s.modCtx f).freeCtr = s.freeCtr := rfl
@[simp] theorem State.modCtx_tidCtr (s : State) (f : Ctx → Ctx) : (s.modCtx f).tidCtr = s.tidCtr := rfl
@[simp] theorem State.modCtx_numCtr (s : State) (f : Ctx → Ctx) : (s.modCtx f).numCtr = s.numCtr := rfl
@[simp] theorem State.modCtx_ctx (s : State) (f : Ctx → Ctx) : (s.modCtx f).core.ctx = f s.core.ctx := rfl
@[simp] theorem State.modCtx_core_runList (s : State) (f : Ctx → Ctx) : (s.modCtx f).core.runList = s.core.runList := rfl
@[simp] theorem State.modCtx_core_vers (s : State) (f : Ctx → Ctx) : (s.modCtx f).core.vers = s.core.vers := rfl
@[simp] theorem State.modCtx_core_l1 (s : State) (f : Ctx → Ctx) : (s.modCtx f).core.l1 = s.core.l1 := rfl
@[simp] theorem State.modCtx_core_once (s : State) (f : Ctx → Ctx) : (s.modCtx f).core.once = s.core.once := rfl
@[simp] theorem State.modCtx_core_msgs (s : State) (f : Ctx → Ctx) : (s.modCtx f).core.msgs = s.core.msgs := rfl
@[simp] theorem State.modCtx_core_held (s : State) (f : Ctx → Ctx) : (s.modCtx f).core.held = s.core.held := rfl
@[simp] theorem State.modCtx_core_dq (s : State) (f : Ctx → Ctx) : (s.modCtx f).core.dq = s.core.dq := rfl
@[simp] theorem State.modCtx_core_forwards (s : State) (f : Ctx → Ctx) : (s.modCtx f).core.forwards = s.core.forwards := rfl
@[simp] theorem State.modCtx_core_maps (s : State) (f : Ctx → Ctx) : (s.modCtx f).core.maps = s.core.maps := rfl
@[simp] theorem State.modCtx_core_perf (s : State) (f : Ctx → Ctx) : (s.modCtx f).core.perf = s.core.perf := rfl
@[simp] theorem State.modCtx_core_dirtyA (s : State) (f : Ctx → Ctx) : (s.modCtx f).core.dirtyA = s.core.dirtyA := rfl
@[simp] theorem State.modCtx_core_dirtyB (s : State) (f : Ctx → Ctx) : (s.modCtx f).core.dirtyB = s.core.dirtyB := rfl
@[simp] theorem State.modCtx_core_spare (s : State) (f : Ctx → Ctx) : (s.modCtx f).core.spare = s.core.spare := rfl
@[simp] theorem State.modCtx_core_lost (s : State) (f : Ctx → Ctx) : (s.modCtx f).core.lost = s.core.lost := rfl
@[simp] theorem State.modCtx_core_migrateHold (s : State) (f : Ctx → Ctx) : (s.modCtx f).core.migrateHold = s.core.migrateHold := rfl
@[simp] theorem State.modCtx_core_mbWrite (s : State) (f : Ctx → Ctx) : (s.modCtx f).core.mbWrite = s.core.mbWrite := rfl
@[simp] theorem State.modCtx_core_chain (s : State) (f : Ctx → Ctx) : (s.modCtx f).core.chain = s.core.chain := rfl

@[simp] theorem State.modRegs_me (s : State) (f : Regs → Regs) : (s.modRegs f).me = s.me := rfl
@[simp] theorem State.modRegs_seqr (s : State) (f : Regs → Regs) : (s.modRegs f).seqr = s.seqr := rfl
@[simp] theorem State.modRegs_word (s : State) (f : Regs → Regs) : (s.modRegs f).word = s.word := rfl
@[simp] theorem State.modRegs_answerLater (s : State) (f : Regs → Regs) : (s.modRegs f).answerLater = s.answerLater := rfl
@[simp] theorem State.modRegs_useL1 (s : State) (f : Regs → Regs) : (s.modRegs f).useL1 = s.useL1 := rfl
@[simp] theorem State.modRegs_cores (s : State) (f : Regs → Regs) : (s.modRegs f).cores = s.cores := rfl
@[simp] theorem State.modRegs_cubes (s : State) (f : Regs → Regs) : (s.modRegs f).cubes = s.cubes := rfl
@[simp] theorem State.modRegs_mem (s : State) (f : Regs → Regs) : (s.modRegs f).mem = s.mem := rfl
@[simp] theorem State.modRegs_poison (s : State) (f : Regs → Regs) : (s.modRegs f).poison = s.poison := rfl
@[simp] theorem State.modRegs_flights (s : State) (f : Regs → Regs) : (s.modRegs f).flights = s.flights := rfl
@[simp] theorem State.modRegs_kept (s : State) (f : Regs → Regs) : (s.modRegs f).kept = s.kept := rfl
@[simp] theorem State.modRegs_seqs (s : State) (f : Regs → Regs) : (s.modRegs f).seqs = s.seqs := rfl
@[simp] theorem State.modRegs_detours (s : State) (f : Regs → Regs) : (s.modRegs f).detours = s.detours := rfl
@[simp] theorem State.modRegs_removal (s : State) (f : Regs → Regs) : (s.modRegs f).removal = s.removal := rfl
@[simp] theorem State.modRegs_agenda (s : State) (f : Regs → Regs) : (s.modRegs f).agenda = s.agenda := rfl
@[simp] theorem State.modRegs_idleCtr (s : State) (f : Regs → Regs) : (s.modRegs f).idleCtr = s.idleCtr := rfl
@[simp] theorem State.modRegs_freeCtr (s : State) (f : Regs → Regs) : (s.modRegs f).freeCtr = s.freeCtr := rfl
@[simp] theorem State.modRegs_tidCtr (s : State) (f : Regs → Regs) : (s.modRegs f).tidCtr = s.tidCtr := rfl
@[simp] theorem State.modRegs_numCtr (s : State) (f : Regs → Regs) : (s.modRegs f).numCtr = s.numCtr := rfl
@[simp] theorem State.modRegs_regs (s : State) (f : Regs → Regs) : (s.modRegs f).regs = f s.regs := rfl
@[simp] theorem State.modRegs_core_runList (s : State) (f : Regs → Regs) : (s.modRegs f).core.runList = s.core.runList := rfl
@[simp] theorem State.modRegs_core_vers (s : State) (f : Regs → Regs) : (s.modRegs f).core.vers = s.core.vers := rfl
@[simp] theorem State.modRegs_core_l1 (s : State) (f : Regs → Regs) : (s.modRegs f).core.l1 = s.core.l1 := rfl
@[simp] theorem State.modRegs_core_once (s : State) (f : Regs → Regs) : (s.modRegs f).core.once = s.core.once := rfl
@[simp] theorem State.modRegs_core_msgs (s : State) (f : Regs → Regs) : (s.modRegs f).core.msgs = s.core.msgs := rfl
@[simp] theorem State.modRegs_core_held (s : State) (f : Regs → Regs) : (s.modRegs f).core.held = s.core.held := rfl
@[simp] theorem State.modRegs_core_dq (s : State) (f : Regs → Regs) : (s.modRegs f).core.dq = s.core.dq := rfl
@[simp] theorem State.modRegs_core_forwards (s : State) (f : Regs → Regs) : (s.modRegs f).core.forwards = s.core.forwards := rfl
@[simp] theorem State.modRegs_core_maps (s : State) (f : Regs → Regs) : (s.modRegs f).core.maps = s.core.maps := rfl
@[simp] theorem State.modRegs_core_perf (s : State) (f : Regs → Regs) : (s.modRegs f).core.perf = s.core.perf := rfl
@[simp] theorem State.modRegs_core_dirtyA (s : State) (f : Regs → Regs) : (s.modRegs f).core.dirtyA = s.core.dirtyA := rfl
@[simp] theorem State.modRegs_core_dirtyB (s : State) (f : Regs → Regs) : (s.modRegs f).core.dirtyB = s.core.dirtyB := rfl
@[simp] theorem State.modRegs_core_spare (s : State) (f : Regs → Regs) : (s.modRegs f).core.spare = s.core.spare := rfl
@[simp] theorem State.modRegs_core_lost (s : State) (f : Regs → Regs) : (s.modRegs f).core.lost = s.core.lost := rfl
@[simp] theorem State.modRegs_core_migrateHold (s : State) (f : Regs → Regs) : (s.modRegs f).core.migrateHold = s.core.migrateHold := rfl
@[simp] theorem State.modRegs_core_mbWrite (s : State) (f : Regs → Regs) : (s.modRegs f).core.mbWrite = s.core.mbWrite := rfl
@[simp] theorem State.modRegs_core_chain (s : State) (f : Regs → Regs) : (s.modRegs f).core.chain = s.core.chain := rfl
@[simp] theorem State.modRegs_ctx_tid (s : State) (f : Regs → Regs) : (s.modRegs f).core.ctx.tid = s.core.ctx.tid := rfl
@[simp] theorem State.modRegs_ctx_status (s : State) (f : Regs → Regs) : (s.modRegs f).core.ctx.status = s.core.ctx.status := rfl
@[simp] theorem State.modRegs_ctx_gang (s : State) (f : Regs → Regs) : (s.modRegs f).core.ctx.gang = s.core.ctx.gang := rfl
@[simp] theorem State.modRegs_ctx_tiles (s : State) (f : Regs → Regs) : (s.modRegs f).core.ctx.tiles = s.core.ctx.tiles := rfl
@[simp] theorem State.modRegs_ctx_matrix (s : State) (f : Regs → Regs) : (s.modRegs f).core.ctx.matrix = s.core.ctx.matrix := rfl
@[simp] theorem State.modRegs_ctx_copy (s : State) (f : Regs → Regs) : (s.modRegs f).core.ctx.copy = s.core.ctx.copy := rfl
@[simp] theorem State.modRegs_ctx_flue (s : State) (f : Regs → Regs) : (s.modRegs f).core.ctx.flue = s.core.ctx.flue := rfl
@[simp] theorem State.modRegs_ctx_counted (s : State) (f : Regs → Regs) : (s.modRegs f).core.ctx.counted = s.core.ctx.counted := rfl
@[simp] theorem State.modRegs_ctx_marks (s : State) (f : Regs → Regs) : (s.modRegs f).core.ctx.marks = s.core.ctx.marks := rfl
@[simp] theorem State.modRegs_ctx_markers (s : State) (f : Regs → Regs) : (s.modRegs f).core.ctx.markers = s.core.ctx.markers := rfl
@[simp] theorem State.modRegs_ctx_diverged (s : State) (f : Regs → Regs) : (s.modRegs f).core.ctx.diverged = s.core.ctx.diverged := rfl
@[simp] theorem State.modRegs_ctx_unacked (s : State) (f : Regs → Regs) : (s.modRegs f).core.ctx.unacked = s.core.ctx.unacked := rfl
@[simp] theorem State.modRegs_ctx_mq (s : State) (f : Regs → Regs) : (s.modRegs f).core.ctx.mq = s.core.ctx.mq := rfl
@[simp] theorem State.modRegs_ctx_cq (s : State) (f : Regs → Regs) : (s.modRegs f).core.ctx.cq = s.core.ctx.cq := rfl
@[simp] theorem State.modRegs_ctx_fq (s : State) (f : Regs → Regs) : (s.modRegs f).core.ctx.fq = s.core.ctx.fq := rfl
@[simp] theorem State.modRegs_ctx_kept (s : State) (f : Regs → Regs) : (s.modRegs f).core.ctx.kept = s.core.ctx.kept := rfl
@[simp] theorem State.modRegs_ctx_ig (s : State) (f : Regs → Regs) : (s.modRegs f).core.ctx.ig = s.core.ctx.ig := rfl
@[simp] theorem State.modRegs_ctx_base (s : State) (f : Regs → Regs) : (s.modRegs f).core.ctx.base = s.core.ctx.base := rfl
@[simp] theorem State.modRegs_ctx_pend (s : State) (f : Regs → Regs) : (s.modRegs f).core.ctx.pend = s.core.ctx.pend := rfl
@[simp] theorem State.modRegs_ctx_frame (s : State) (f : Regs → Regs) : (s.modRegs f).core.ctx.frame = s.core.ctx.frame := rfl
@[simp] theorem State.modRegs_ctx_board (s : State) (f : Regs → Regs) : (s.modRegs f).core.ctx.board = s.core.ctx.board := rfl
@[simp] theorem State.modRegs_ctx_wait (s : State) (f : Regs → Regs) : (s.modRegs f).core.ctx.wait = s.core.ctx.wait := rfl
@[simp] theorem State.modRegs_ctx_waitGroup (s : State) (f : Regs → Regs) : (s.modRegs f).core.ctx.waitGroup = s.core.ctx.waitGroup := rfl
@[simp] theorem State.modRegs_ctx_asked (s : State) (f : Regs → Regs) : (s.modRegs f).core.ctx.asked = s.core.ctx.asked := rfl
@[simp] theorem State.modRegs_ctx_trapFrame (s : State) (f : Regs → Regs) : (s.modRegs f).core.ctx.trapFrame = s.core.ctx.trapFrame := rfl
@[simp] theorem State.modRegs_ctx_trap (s : State) (f : Regs → Regs) : (s.modRegs f).core.ctx.trap = s.core.ctx.trap := rfl
@[simp] theorem State.modRegs_ctx_busy (s : State) (f : Regs → Regs) : (s.modRegs f).core.ctx.busy = s.core.ctx.busy := rfl
@[simp] theorem State.modRegs_ctx_residentAt (s : State) (f : Regs → Regs) : (s.modRegs f).core.ctx.residentAt = s.core.ctx.residentAt := rfl
@[simp] theorem State.modRegs_ctx_pending (s : State) (f : Regs → Regs) : (s.modRegs f).core.ctx.pending = s.core.ctx.pending := rfl
@[simp] theorem State.modRegs_ctx_stepOne (s : State) (f : Regs → Regs) : (s.modRegs f).core.ctx.stepOne = s.core.ctx.stepOne := rfl
@[simp] theorem State.modRegs_ctx_image (s : State) (f : Regs → Regs) : (s.modRegs f).core.ctx.image = s.core.ctx.image := rfl
@[simp] theorem State.modRegs_ctx_formed (s : State) (f : Regs → Regs) : (s.modRegs f).core.ctx.formed = s.core.ctx.formed := rfl
@[simp] theorem State.modRegs_ctx_forwarded (s : State) (f : Regs → Regs) : (s.modRegs f).core.ctx.forwarded = s.core.ctx.forwarded := rfl

@[simp] theorem State.modTiles_me (s : State) (f : TileRegs → TileRegs) : (s.modTiles f).me = s.me := rfl
@[simp] theorem State.modTiles_seqr (s : State) (f : TileRegs → TileRegs) : (s.modTiles f).seqr = s.seqr := rfl
@[simp] theorem State.modTiles_word (s : State) (f : TileRegs → TileRegs) : (s.modTiles f).word = s.word := rfl
@[simp] theorem State.modTiles_answerLater (s : State) (f : TileRegs → TileRegs) : (s.modTiles f).answerLater = s.answerLater := rfl
@[simp] theorem State.modTiles_useL1 (s : State) (f : TileRegs → TileRegs) : (s.modTiles f).useL1 = s.useL1 := rfl
@[simp] theorem State.modTiles_cores (s : State) (f : TileRegs → TileRegs) : (s.modTiles f).cores = s.cores := rfl
@[simp] theorem State.modTiles_cubes (s : State) (f : TileRegs → TileRegs) : (s.modTiles f).cubes = s.cubes := rfl
@[simp] theorem State.modTiles_mem (s : State) (f : TileRegs → TileRegs) : (s.modTiles f).mem = s.mem := rfl
@[simp] theorem State.modTiles_poison (s : State) (f : TileRegs → TileRegs) : (s.modTiles f).poison = s.poison := rfl
@[simp] theorem State.modTiles_flights (s : State) (f : TileRegs → TileRegs) : (s.modTiles f).flights = s.flights := rfl
@[simp] theorem State.modTiles_kept (s : State) (f : TileRegs → TileRegs) : (s.modTiles f).kept = s.kept := rfl
@[simp] theorem State.modTiles_seqs (s : State) (f : TileRegs → TileRegs) : (s.modTiles f).seqs = s.seqs := rfl
@[simp] theorem State.modTiles_detours (s : State) (f : TileRegs → TileRegs) : (s.modTiles f).detours = s.detours := rfl
@[simp] theorem State.modTiles_removal (s : State) (f : TileRegs → TileRegs) : (s.modTiles f).removal = s.removal := rfl
@[simp] theorem State.modTiles_agenda (s : State) (f : TileRegs → TileRegs) : (s.modTiles f).agenda = s.agenda := rfl
@[simp] theorem State.modTiles_idleCtr (s : State) (f : TileRegs → TileRegs) : (s.modTiles f).idleCtr = s.idleCtr := rfl
@[simp] theorem State.modTiles_freeCtr (s : State) (f : TileRegs → TileRegs) : (s.modTiles f).freeCtr = s.freeCtr := rfl
@[simp] theorem State.modTiles_tidCtr (s : State) (f : TileRegs → TileRegs) : (s.modTiles f).tidCtr = s.tidCtr := rfl
@[simp] theorem State.modTiles_numCtr (s : State) (f : TileRegs → TileRegs) : (s.modTiles f).numCtr = s.numCtr := rfl
@[simp] theorem State.modTiles_tiles (s : State) (f : TileRegs → TileRegs) : (s.modTiles f).core.ctx.tiles = f s.core.ctx.tiles := rfl
@[simp] theorem State.modTiles_ctx_tid (s : State) (f : TileRegs → TileRegs) : (s.modTiles f).core.ctx.tid = s.core.ctx.tid := rfl
@[simp] theorem State.modTiles_ctx_status (s : State) (f : TileRegs → TileRegs) : (s.modTiles f).core.ctx.status = s.core.ctx.status := rfl
@[simp] theorem State.modTiles_ctx_gang (s : State) (f : TileRegs → TileRegs) : (s.modTiles f).core.ctx.gang = s.core.ctx.gang := rfl
@[simp] theorem State.modTiles_ctx_regs (s : State) (f : TileRegs → TileRegs) : (s.modTiles f).core.ctx.regs = s.core.ctx.regs := rfl
@[simp] theorem State.modTiles_ctx_matrix (s : State) (f : TileRegs → TileRegs) : (s.modTiles f).core.ctx.matrix = s.core.ctx.matrix := rfl
@[simp] theorem State.modTiles_ctx_copy (s : State) (f : TileRegs → TileRegs) : (s.modTiles f).core.ctx.copy = s.core.ctx.copy := rfl
@[simp] theorem State.modTiles_ctx_flue (s : State) (f : TileRegs → TileRegs) : (s.modTiles f).core.ctx.flue = s.core.ctx.flue := rfl
@[simp] theorem State.modTiles_ctx_counted (s : State) (f : TileRegs → TileRegs) : (s.modTiles f).core.ctx.counted = s.core.ctx.counted := rfl
@[simp] theorem State.modTiles_ctx_marks (s : State) (f : TileRegs → TileRegs) : (s.modTiles f).core.ctx.marks = s.core.ctx.marks := rfl
@[simp] theorem State.modTiles_ctx_markers (s : State) (f : TileRegs → TileRegs) : (s.modTiles f).core.ctx.markers = s.core.ctx.markers := rfl
@[simp] theorem State.modTiles_ctx_diverged (s : State) (f : TileRegs → TileRegs) : (s.modTiles f).core.ctx.diverged = s.core.ctx.diverged := rfl
@[simp] theorem State.modTiles_ctx_unacked (s : State) (f : TileRegs → TileRegs) : (s.modTiles f).core.ctx.unacked = s.core.ctx.unacked := rfl
@[simp] theorem State.modTiles_ctx_mq (s : State) (f : TileRegs → TileRegs) : (s.modTiles f).core.ctx.mq = s.core.ctx.mq := rfl
@[simp] theorem State.modTiles_ctx_cq (s : State) (f : TileRegs → TileRegs) : (s.modTiles f).core.ctx.cq = s.core.ctx.cq := rfl
@[simp] theorem State.modTiles_ctx_fq (s : State) (f : TileRegs → TileRegs) : (s.modTiles f).core.ctx.fq = s.core.ctx.fq := rfl
@[simp] theorem State.modTiles_ctx_kept (s : State) (f : TileRegs → TileRegs) : (s.modTiles f).core.ctx.kept = s.core.ctx.kept := rfl
@[simp] theorem State.modTiles_ctx_ig (s : State) (f : TileRegs → TileRegs) : (s.modTiles f).core.ctx.ig = s.core.ctx.ig := rfl
@[simp] theorem State.modTiles_ctx_base (s : State) (f : TileRegs → TileRegs) : (s.modTiles f).core.ctx.base = s.core.ctx.base := rfl
@[simp] theorem State.modTiles_ctx_pend (s : State) (f : TileRegs → TileRegs) : (s.modTiles f).core.ctx.pend = s.core.ctx.pend := rfl
@[simp] theorem State.modTiles_ctx_frame (s : State) (f : TileRegs → TileRegs) : (s.modTiles f).core.ctx.frame = s.core.ctx.frame := rfl
@[simp] theorem State.modTiles_ctx_board (s : State) (f : TileRegs → TileRegs) : (s.modTiles f).core.ctx.board = s.core.ctx.board := rfl
@[simp] theorem State.modTiles_ctx_wait (s : State) (f : TileRegs → TileRegs) : (s.modTiles f).core.ctx.wait = s.core.ctx.wait := rfl
@[simp] theorem State.modTiles_ctx_waitGroup (s : State) (f : TileRegs → TileRegs) : (s.modTiles f).core.ctx.waitGroup = s.core.ctx.waitGroup := rfl
@[simp] theorem State.modTiles_ctx_asked (s : State) (f : TileRegs → TileRegs) : (s.modTiles f).core.ctx.asked = s.core.ctx.asked := rfl
@[simp] theorem State.modTiles_ctx_trapFrame (s : State) (f : TileRegs → TileRegs) : (s.modTiles f).core.ctx.trapFrame = s.core.ctx.trapFrame := rfl
@[simp] theorem State.modTiles_ctx_trap (s : State) (f : TileRegs → TileRegs) : (s.modTiles f).core.ctx.trap = s.core.ctx.trap := rfl
@[simp] theorem State.modTiles_ctx_busy (s : State) (f : TileRegs → TileRegs) : (s.modTiles f).core.ctx.busy = s.core.ctx.busy := rfl
@[simp] theorem State.modTiles_ctx_residentAt (s : State) (f : TileRegs → TileRegs) : (s.modTiles f).core.ctx.residentAt = s.core.ctx.residentAt := rfl
@[simp] theorem State.modTiles_ctx_pending (s : State) (f : TileRegs → TileRegs) : (s.modTiles f).core.ctx.pending = s.core.ctx.pending := rfl
@[simp] theorem State.modTiles_ctx_stepOne (s : State) (f : TileRegs → TileRegs) : (s.modTiles f).core.ctx.stepOne = s.core.ctx.stepOne := rfl
@[simp] theorem State.modTiles_ctx_image (s : State) (f : TileRegs → TileRegs) : (s.modTiles f).core.ctx.image = s.core.ctx.image := rfl
@[simp] theorem State.modTiles_ctx_formed (s : State) (f : TileRegs → TileRegs) : (s.modTiles f).core.ctx.formed = s.core.ctx.formed := rfl
@[simp] theorem State.modTiles_ctx_forwarded (s : State) (f : TileRegs → TileRegs) : (s.modTiles f).core.ctx.forwarded = s.core.ctx.forwarded := rfl

@[simp] theorem State.modCube_me (s : State) (c : Nat) (f : Cube → Cube) : (s.modCube c f).me = s.me := rfl
@[simp] theorem State.modCube_seqr (s : State) (c : Nat) (f : Cube → Cube) : (s.modCube c f).seqr = s.seqr := rfl
@[simp] theorem State.modCube_word (s : State) (c : Nat) (f : Cube → Cube) : (s.modCube c f).word = s.word := rfl
@[simp] theorem State.modCube_answerLater (s : State) (c : Nat) (f : Cube → Cube) : (s.modCube c f).answerLater = s.answerLater := rfl
@[simp] theorem State.modCube_useL1 (s : State) (c : Nat) (f : Cube → Cube) : (s.modCube c f).useL1 = s.useL1 := rfl
@[simp] theorem State.modCube_core (s : State) (c : Nat) (f : Cube → Cube) : (s.modCube c f).core = s.core := rfl
@[simp] theorem State.modCube_cores (s : State) (c : Nat) (f : Cube → Cube) : (s.modCube c f).cores = s.cores := rfl
@[simp] theorem State.modCube_mem (s : State) (c : Nat) (f : Cube → Cube) : (s.modCube c f).mem = s.mem := rfl
@[simp] theorem State.modCube_poison (s : State) (c : Nat) (f : Cube → Cube) : (s.modCube c f).poison = s.poison := rfl
@[simp] theorem State.modCube_flights (s : State) (c : Nat) (f : Cube → Cube) : (s.modCube c f).flights = s.flights := rfl
@[simp] theorem State.modCube_kept (s : State) (c : Nat) (f : Cube → Cube) : (s.modCube c f).kept = s.kept := rfl
@[simp] theorem State.modCube_seqs (s : State) (c : Nat) (f : Cube → Cube) : (s.modCube c f).seqs = s.seqs := rfl
@[simp] theorem State.modCube_detours (s : State) (c : Nat) (f : Cube → Cube) : (s.modCube c f).detours = s.detours := rfl
@[simp] theorem State.modCube_removal (s : State) (c : Nat) (f : Cube → Cube) : (s.modCube c f).removal = s.removal := rfl
@[simp] theorem State.modCube_agenda (s : State) (c : Nat) (f : Cube → Cube) : (s.modCube c f).agenda = s.agenda := rfl
@[simp] theorem State.modCube_idleCtr (s : State) (c : Nat) (f : Cube → Cube) : (s.modCube c f).idleCtr = s.idleCtr := rfl
@[simp] theorem State.modCube_freeCtr (s : State) (c : Nat) (f : Cube → Cube) : (s.modCube c f).freeCtr = s.freeCtr := rfl
@[simp] theorem State.modCube_tidCtr (s : State) (c : Nat) (f : Cube → Cube) : (s.modCube c f).tidCtr = s.tidCtr := rfl
@[simp] theorem State.modCube_numCtr (s : State) (c : Nat) (f : Cube → Cube) : (s.modCube c f).numCtr = s.numCtr := rfl
@[simp] theorem State.modStove_me (s : State) (c : Nat) (f : Stove → Stove) : (s.modStove c f).me = s.me := rfl
@[simp] theorem State.modStove_seqr (s : State) (c : Nat) (f : Stove → Stove) : (s.modStove c f).seqr = s.seqr := rfl
@[simp] theorem State.modStove_word (s : State) (c : Nat) (f : Stove → Stove) : (s.modStove c f).word = s.word := rfl
@[simp] theorem State.modStove_answerLater (s : State) (c : Nat) (f : Stove → Stove) : (s.modStove c f).answerLater = s.answerLater := rfl
@[simp] theorem State.modStove_useL1 (s : State) (c : Nat) (f : Stove → Stove) : (s.modStove c f).useL1 = s.useL1 := rfl
@[simp] theorem State.modStove_core (s : State) (c : Nat) (f : Stove → Stove) : (s.modStove c f).core = s.core := rfl
@[simp] theorem State.modStove_cores (s : State) (c : Nat) (f : Stove → Stove) : (s.modStove c f).cores = s.cores := rfl
@[simp] theorem State.modStove_mem (s : State) (c : Nat) (f : Stove → Stove) : (s.modStove c f).mem = s.mem := rfl
@[simp] theorem State.modStove_poison (s : State) (c : Nat) (f : Stove → Stove) : (s.modStove c f).poison = s.poison := rfl
@[simp] theorem State.modStove_flights (s : State) (c : Nat) (f : Stove → Stove) : (s.modStove c f).flights = s.flights := rfl
@[simp] theorem State.modStove_kept (s : State) (c : Nat) (f : Stove → Stove) : (s.modStove c f).kept = s.kept := rfl
@[simp] theorem State.modStove_seqs (s : State) (c : Nat) (f : Stove → Stove) : (s.modStove c f).seqs = s.seqs := rfl
@[simp] theorem State.modStove_detours (s : State) (c : Nat) (f : Stove → Stove) : (s.modStove c f).detours = s.detours := rfl
@[simp] theorem State.modStove_removal (s : State) (c : Nat) (f : Stove → Stove) : (s.modStove c f).removal = s.removal := rfl
@[simp] theorem State.modStove_agenda (s : State) (c : Nat) (f : Stove → Stove) : (s.modStove c f).agenda = s.agenda := rfl
@[simp] theorem State.modStove_idleCtr (s : State) (c : Nat) (f : Stove → Stove) : (s.modStove c f).idleCtr = s.idleCtr := rfl
@[simp] theorem State.modStove_freeCtr (s : State) (c : Nat) (f : Stove → Stove) : (s.modStove c f).freeCtr = s.freeCtr := rfl
@[simp] theorem State.modStove_tidCtr (s : State) (c : Nat) (f : Stove → Stove) : (s.modStove c f).tidCtr = s.tidCtr := rfl
@[simp] theorem State.modStove_numCtr (s : State) (c : Nat) (f : Stove → Stove) : (s.modStove c f).numCtr = s.numCtr := rfl
@[simp] theorem State.errCount_me (s : State) (c k : Nat) : (s.errCount c k).me = s.me := rfl
@[simp] theorem State.errCount_seqr (s : State) (c k : Nat) : (s.errCount c k).seqr = s.seqr := rfl
@[simp] theorem State.errCount_word (s : State) (c k : Nat) : (s.errCount c k).word = s.word := rfl
@[simp] theorem State.errCount_answerLater (s : State) (c k : Nat) : (s.errCount c k).answerLater = s.answerLater := rfl
@[simp] theorem State.errCount_useL1 (s : State) (c k : Nat) : (s.errCount c k).useL1 = s.useL1 := rfl
@[simp] theorem State.errCount_core (s : State) (c k : Nat) : (s.errCount c k).core = s.core := rfl
@[simp] theorem State.errCount_cores (s : State) (c k : Nat) : (s.errCount c k).cores = s.cores := rfl
@[simp] theorem State.errCount_mem (s : State) (c k : Nat) : (s.errCount c k).mem = s.mem := rfl
@[simp] theorem State.errCount_poison (s : State) (c k : Nat) : (s.errCount c k).poison = s.poison := rfl
@[simp] theorem State.errCount_flights (s : State) (c k : Nat) : (s.errCount c k).flights = s.flights := rfl
@[simp] theorem State.errCount_kept (s : State) (c k : Nat) : (s.errCount c k).kept = s.kept := rfl
@[simp] theorem State.errCount_seqs (s : State) (c k : Nat) : (s.errCount c k).seqs = s.seqs := rfl
@[simp] theorem State.errCount_detours (s : State) (c k : Nat) : (s.errCount c k).detours = s.detours := rfl
@[simp] theorem State.errCount_removal (s : State) (c k : Nat) : (s.errCount c k).removal = s.removal := rfl
@[simp] theorem State.errCount_agenda (s : State) (c k : Nat) : (s.errCount c k).agenda = s.agenda := rfl
@[simp] theorem State.errCount_idleCtr (s : State) (c k : Nat) : (s.errCount c k).idleCtr = s.idleCtr := rfl
@[simp] theorem State.errCount_freeCtr (s : State) (c k : Nat) : (s.errCount c k).freeCtr = s.freeCtr := rfl
@[simp] theorem State.errCount_tidCtr (s : State) (c k : Nat) : (s.errCount c k).tidCtr = s.tidCtr := rfl
@[simp] theorem State.errCount_numCtr (s : State) (c k : Nat) : (s.errCount c k).numCtr = s.numCtr := rfl
@[simp] theorem State.notice_me (s : State) (c k n : Nat) : (s.notice c k n).me = s.me := rfl
@[simp] theorem State.notice_seqr (s : State) (c k n : Nat) : (s.notice c k n).seqr = s.seqr := rfl
@[simp] theorem State.notice_word (s : State) (c k n : Nat) : (s.notice c k n).word = s.word := rfl
@[simp] theorem State.notice_answerLater (s : State) (c k n : Nat) : (s.notice c k n).answerLater = s.answerLater := rfl
@[simp] theorem State.notice_useL1 (s : State) (c k n : Nat) : (s.notice c k n).useL1 = s.useL1 := rfl
@[simp] theorem State.notice_core (s : State) (c k n : Nat) : (s.notice c k n).core = s.core := rfl
@[simp] theorem State.notice_cores (s : State) (c k n : Nat) : (s.notice c k n).cores = s.cores := rfl
@[simp] theorem State.notice_mem (s : State) (c k n : Nat) : (s.notice c k n).mem = s.mem := rfl
@[simp] theorem State.notice_poison (s : State) (c k n : Nat) : (s.notice c k n).poison = s.poison := rfl
@[simp] theorem State.notice_flights (s : State) (c k n : Nat) : (s.notice c k n).flights = s.flights := rfl
@[simp] theorem State.notice_kept (s : State) (c k n : Nat) : (s.notice c k n).kept = s.kept := rfl
@[simp] theorem State.notice_seqs (s : State) (c k n : Nat) : (s.notice c k n).seqs = s.seqs := rfl
@[simp] theorem State.notice_detours (s : State) (c k n : Nat) : (s.notice c k n).detours = s.detours := rfl
@[simp] theorem State.notice_removal (s : State) (c k n : Nat) : (s.notice c k n).removal = s.removal := rfl
@[simp] theorem State.notice_agenda (s : State) (c k n : Nat) : (s.notice c k n).agenda = s.agenda := rfl
@[simp] theorem State.notice_idleCtr (s : State) (c k n : Nat) : (s.notice c k n).idleCtr = s.idleCtr := rfl
@[simp] theorem State.notice_freeCtr (s : State) (c k n : Nat) : (s.notice c k n).freeCtr = s.freeCtr := rfl
@[simp] theorem State.notice_tidCtr (s : State) (c k n : Nat) : (s.notice c k n).tidCtr = s.tidCtr := rfl
@[simp] theorem State.notice_numCtr (s : State) (c k n : Nat) : (s.notice c k n).numCtr = s.numCtr := rfl
@[simp] theorem State.noticeOf_me (s : State) (c k n a : Nat) : (s.noticeOf c k n a).me = s.me := rfl
@[simp] theorem State.noticeOf_seqr (s : State) (c k n a : Nat) : (s.noticeOf c k n a).seqr = s.seqr := rfl
@[simp] theorem State.noticeOf_word (s : State) (c k n a : Nat) : (s.noticeOf c k n a).word = s.word := rfl
@[simp] theorem State.noticeOf_answerLater (s : State) (c k n a : Nat) : (s.noticeOf c k n a).answerLater = s.answerLater := rfl
@[simp] theorem State.noticeOf_useL1 (s : State) (c k n a : Nat) : (s.noticeOf c k n a).useL1 = s.useL1 := rfl
@[simp] theorem State.noticeOf_core (s : State) (c k n a : Nat) : (s.noticeOf c k n a).core = s.core := rfl
@[simp] theorem State.noticeOf_cores (s : State) (c k n a : Nat) : (s.noticeOf c k n a).cores = s.cores := rfl
@[simp] theorem State.noticeOf_mem (s : State) (c k n a : Nat) : (s.noticeOf c k n a).mem = s.mem := rfl
@[simp] theorem State.noticeOf_poison (s : State) (c k n a : Nat) : (s.noticeOf c k n a).poison = s.poison := rfl
@[simp] theorem State.noticeOf_flights (s : State) (c k n a : Nat) : (s.noticeOf c k n a).flights = s.flights := rfl
@[simp] theorem State.noticeOf_kept (s : State) (c k n a : Nat) : (s.noticeOf c k n a).kept = s.kept := rfl
@[simp] theorem State.noticeOf_seqs (s : State) (c k n a : Nat) : (s.noticeOf c k n a).seqs = s.seqs := rfl
@[simp] theorem State.noticeOf_detours (s : State) (c k n a : Nat) : (s.noticeOf c k n a).detours = s.detours := rfl
@[simp] theorem State.noticeOf_removal (s : State) (c k n a : Nat) : (s.noticeOf c k n a).removal = s.removal := rfl
@[simp] theorem State.noticeOf_agenda (s : State) (c k n a : Nat) : (s.noticeOf c k n a).agenda = s.agenda := rfl
@[simp] theorem State.noticeOf_idleCtr (s : State) (c k n a : Nat) : (s.noticeOf c k n a).idleCtr = s.idleCtr := rfl
@[simp] theorem State.noticeOf_freeCtr (s : State) (c k n a : Nat) : (s.noticeOf c k n a).freeCtr = s.freeCtr := rfl
@[simp] theorem State.noticeOf_tidCtr (s : State) (c k n a : Nat) : (s.noticeOf c k n a).tidCtr = s.tidCtr := rfl
@[simp] theorem State.noticeOf_numCtr (s : State) (c k n a : Nat) : (s.noticeOf c k n a).numCtr = s.numCtr := rfl
@[simp] theorem State.errRecord_me (s : State) (c k n a : Nat) : (s.errRecord c k n a).me = s.me := rfl
@[simp] theorem State.errRecord_seqr (s : State) (c k n a : Nat) : (s.errRecord c k n a).seqr = s.seqr := rfl
@[simp] theorem State.errRecord_word (s : State) (c k n a : Nat) : (s.errRecord c k n a).word = s.word := rfl
@[simp] theorem State.errRecord_answerLater (s : State) (c k n a : Nat) : (s.errRecord c k n a).answerLater = s.answerLater := rfl
@[simp] theorem State.errRecord_useL1 (s : State) (c k n a : Nat) : (s.errRecord c k n a).useL1 = s.useL1 := rfl
@[simp] theorem State.errRecord_core (s : State) (c k n a : Nat) : (s.errRecord c k n a).core = s.core := rfl
@[simp] theorem State.errRecord_cores (s : State) (c k n a : Nat) : (s.errRecord c k n a).cores = s.cores := rfl
@[simp] theorem State.errRecord_mem (s : State) (c k n a : Nat) : (s.errRecord c k n a).mem = s.mem := rfl
@[simp] theorem State.errRecord_poison (s : State) (c k n a : Nat) : (s.errRecord c k n a).poison = s.poison := rfl
@[simp] theorem State.errRecord_flights (s : State) (c k n a : Nat) : (s.errRecord c k n a).flights = s.flights := rfl
@[simp] theorem State.errRecord_kept (s : State) (c k n a : Nat) : (s.errRecord c k n a).kept = s.kept := rfl
@[simp] theorem State.errRecord_seqs (s : State) (c k n a : Nat) : (s.errRecord c k n a).seqs = s.seqs := rfl
@[simp] theorem State.errRecord_detours (s : State) (c k n a : Nat) : (s.errRecord c k n a).detours = s.detours := rfl
@[simp] theorem State.errRecord_removal (s : State) (c k n a : Nat) : (s.errRecord c k n a).removal = s.removal := rfl
@[simp] theorem State.errRecord_agenda (s : State) (c k n a : Nat) : (s.errRecord c k n a).agenda = s.agenda := rfl
@[simp] theorem State.errRecord_idleCtr (s : State) (c k n a : Nat) : (s.errRecord c k n a).idleCtr = s.idleCtr := rfl
@[simp] theorem State.errRecord_freeCtr (s : State) (c k n a : Nat) : (s.errRecord c k n a).freeCtr = s.freeCtr := rfl
@[simp] theorem State.errRecord_tidCtr (s : State) (c k n a : Nat) : (s.errRecord c k n a).tidCtr = s.tidCtr := rfl
@[simp] theorem State.errRecord_numCtr (s : State) (c k n a : Nat) : (s.errRecord c k n a).numCtr = s.numCtr := rfl
@[simp] theorem State.send_me (s : State) (a : Agent) (t : Nat) (k : Class) (x y z : Nat) (i : Option (Nat × BitVec 16)) (b : Body) : (s.send a t k x y z i b).me = s.me := rfl
@[simp] theorem State.send_seqr (s : State) (a : Agent) (t : Nat) (k : Class) (x y z : Nat) (i : Option (Nat × BitVec 16)) (b : Body) : (s.send a t k x y z i b).seqr = s.seqr := rfl
@[simp] theorem State.send_word (s : State) (a : Agent) (t : Nat) (k : Class) (x y z : Nat) (i : Option (Nat × BitVec 16)) (b : Body) : (s.send a t k x y z i b).word = s.word := rfl
@[simp] theorem State.send_answerLater (s : State) (a : Agent) (t : Nat) (k : Class) (x y z : Nat) (i : Option (Nat × BitVec 16)) (b : Body) : (s.send a t k x y z i b).answerLater = s.answerLater := rfl
@[simp] theorem State.send_useL1 (s : State) (a : Agent) (t : Nat) (k : Class) (x y z : Nat) (i : Option (Nat × BitVec 16)) (b : Body) : (s.send a t k x y z i b).useL1 = s.useL1 := rfl
@[simp] theorem State.send_core (s : State) (a : Agent) (t : Nat) (k : Class) (x y z : Nat) (i : Option (Nat × BitVec 16)) (b : Body) : (s.send a t k x y z i b).core = s.core := rfl
@[simp] theorem State.send_cores (s : State) (a : Agent) (t : Nat) (k : Class) (x y z : Nat) (i : Option (Nat × BitVec 16)) (b : Body) : (s.send a t k x y z i b).cores = s.cores := rfl
@[simp] theorem State.send_cubes (s : State) (a : Agent) (t : Nat) (k : Class) (x y z : Nat) (i : Option (Nat × BitVec 16)) (b : Body) : (s.send a t k x y z i b).cubes = s.cubes := rfl
@[simp] theorem State.send_mem (s : State) (a : Agent) (t : Nat) (k : Class) (x y z : Nat) (i : Option (Nat × BitVec 16)) (b : Body) : (s.send a t k x y z i b).mem = s.mem := rfl
@[simp] theorem State.send_poison (s : State) (a : Agent) (t : Nat) (k : Class) (x y z : Nat) (i : Option (Nat × BitVec 16)) (b : Body) : (s.send a t k x y z i b).poison = s.poison := rfl
@[simp] theorem State.send_kept (s : State) (a : Agent) (t : Nat) (k : Class) (x y z : Nat) (i : Option (Nat × BitVec 16)) (b : Body) : (s.send a t k x y z i b).kept = s.kept := rfl
@[simp] theorem State.send_detours (s : State) (a : Agent) (t : Nat) (k : Class) (x y z : Nat) (i : Option (Nat × BitVec 16)) (b : Body) : (s.send a t k x y z i b).detours = s.detours := rfl
@[simp] theorem State.send_removal (s : State) (a : Agent) (t : Nat) (k : Class) (x y z : Nat) (i : Option (Nat × BitVec 16)) (b : Body) : (s.send a t k x y z i b).removal = s.removal := rfl
@[simp] theorem State.send_agenda (s : State) (a : Agent) (t : Nat) (k : Class) (x y z : Nat) (i : Option (Nat × BitVec 16)) (b : Body) : (s.send a t k x y z i b).agenda = s.agenda := rfl
@[simp] theorem State.send_idleCtr (s : State) (a : Agent) (t : Nat) (k : Class) (x y z : Nat) (i : Option (Nat × BitVec 16)) (b : Body) : (s.send a t k x y z i b).idleCtr = s.idleCtr := rfl
@[simp] theorem State.send_freeCtr (s : State) (a : Agent) (t : Nat) (k : Class) (x y z : Nat) (i : Option (Nat × BitVec 16)) (b : Body) : (s.send a t k x y z i b).freeCtr = s.freeCtr := rfl
@[simp] theorem State.send_tidCtr (s : State) (a : Agent) (t : Nat) (k : Class) (x y z : Nat) (i : Option (Nat × BitVec 16)) (b : Body) : (s.send a t k x y z i b).tidCtr = s.tidCtr := rfl
@[simp] theorem State.send_numCtr (s : State) (a : Agent) (t : Nat) (k : Class) (x y z : Nat) (i : Option (Nat × BitVec 16)) (b : Body) : (s.send a t k x y z i b).numCtr = s.numCtr + 1 := rfl
@[simp] theorem State.land_me (s : State) (n : Nat) : (s.land n).me = s.me := rfl
@[simp] theorem State.land_seqr (s : State) (n : Nat) : (s.land n).seqr = s.seqr := rfl
@[simp] theorem State.land_word (s : State) (n : Nat) : (s.land n).word = s.word := rfl
@[simp] theorem State.land_answerLater (s : State) (n : Nat) : (s.land n).answerLater = s.answerLater := rfl
@[simp] theorem State.land_useL1 (s : State) (n : Nat) : (s.land n).useL1 = s.useL1 := rfl
@[simp] theorem State.land_core (s : State) (n : Nat) : (s.land n).core = s.core := rfl
@[simp] theorem State.land_cores (s : State) (n : Nat) : (s.land n).cores = s.cores := rfl
@[simp] theorem State.land_cubes (s : State) (n : Nat) : (s.land n).cubes = s.cubes := rfl
@[simp] theorem State.land_mem (s : State) (n : Nat) : (s.land n).mem = s.mem := rfl
@[simp] theorem State.land_poison (s : State) (n : Nat) : (s.land n).poison = s.poison := rfl
@[simp] theorem State.land_kept (s : State) (n : Nat) : (s.land n).kept = s.kept := rfl
@[simp] theorem State.land_seqs (s : State) (n : Nat) : (s.land n).seqs = s.seqs := rfl
@[simp] theorem State.land_detours (s : State) (n : Nat) : (s.land n).detours = s.detours := rfl
@[simp] theorem State.land_removal (s : State) (n : Nat) : (s.land n).removal = s.removal := rfl
@[simp] theorem State.land_agenda (s : State) (n : Nat) : (s.land n).agenda = s.agenda := rfl
@[simp] theorem State.land_idleCtr (s : State) (n : Nat) : (s.land n).idleCtr = s.idleCtr := rfl
@[simp] theorem State.land_freeCtr (s : State) (n : Nat) : (s.land n).freeCtr = s.freeCtr := rfl
@[simp] theorem State.land_tidCtr (s : State) (n : Nat) : (s.land n).tidCtr = s.tidCtr := rfl
@[simp] theorem State.land_numCtr (s : State) (n : Nat) : (s.land n).numCtr = s.numCtr := rfl
@[simp] theorem State.modFlight_me (s : State) (n : Nat) (f : Flight → Flight) : (s.modFlight n f).me = s.me := rfl
@[simp] theorem State.modFlight_seqr (s : State) (n : Nat) (f : Flight → Flight) : (s.modFlight n f).seqr = s.seqr := rfl
@[simp] theorem State.modFlight_word (s : State) (n : Nat) (f : Flight → Flight) : (s.modFlight n f).word = s.word := rfl
@[simp] theorem State.modFlight_answerLater (s : State) (n : Nat) (f : Flight → Flight) : (s.modFlight n f).answerLater = s.answerLater := rfl
@[simp] theorem State.modFlight_useL1 (s : State) (n : Nat) (f : Flight → Flight) : (s.modFlight n f).useL1 = s.useL1 := rfl
@[simp] theorem State.modFlight_core (s : State) (n : Nat) (f : Flight → Flight) : (s.modFlight n f).core = s.core := rfl
@[simp] theorem State.modFlight_cores (s : State) (n : Nat) (f : Flight → Flight) : (s.modFlight n f).cores = s.cores := rfl
@[simp] theorem State.modFlight_cubes (s : State) (n : Nat) (f : Flight → Flight) : (s.modFlight n f).cubes = s.cubes := rfl
@[simp] theorem State.modFlight_mem (s : State) (n : Nat) (f : Flight → Flight) : (s.modFlight n f).mem = s.mem := rfl
@[simp] theorem State.modFlight_poison (s : State) (n : Nat) (f : Flight → Flight) : (s.modFlight n f).poison = s.poison := rfl
@[simp] theorem State.modFlight_kept (s : State) (n : Nat) (f : Flight → Flight) : (s.modFlight n f).kept = s.kept := rfl
@[simp] theorem State.modFlight_seqs (s : State) (n : Nat) (f : Flight → Flight) : (s.modFlight n f).seqs = s.seqs := rfl
@[simp] theorem State.modFlight_detours (s : State) (n : Nat) (f : Flight → Flight) : (s.modFlight n f).detours = s.detours := rfl
@[simp] theorem State.modFlight_removal (s : State) (n : Nat) (f : Flight → Flight) : (s.modFlight n f).removal = s.removal := rfl
@[simp] theorem State.modFlight_agenda (s : State) (n : Nat) (f : Flight → Flight) : (s.modFlight n f).agenda = s.agenda := rfl
@[simp] theorem State.modFlight_idleCtr (s : State) (n : Nat) (f : Flight → Flight) : (s.modFlight n f).idleCtr = s.idleCtr := rfl
@[simp] theorem State.modFlight_freeCtr (s : State) (n : Nat) (f : Flight → Flight) : (s.modFlight n f).freeCtr = s.freeCtr := rfl
@[simp] theorem State.modFlight_tidCtr (s : State) (n : Nat) (f : Flight → Flight) : (s.modFlight n f).tidCtr = s.tidCtr := rfl
@[simp] theorem State.modFlight_numCtr (s : State) (n : Nat) (f : Flight → Flight) : (s.modFlight n f).numCtr = s.numCtr := rfl
@[simp] theorem State.modThread_me (s : State) (n : Nat) (f : Ctx → Ctx) : (s.modThread n f).me = s.me := rfl
@[simp] theorem State.modThread_seqr (s : State) (n : Nat) (f : Ctx → Ctx) : (s.modThread n f).seqr = s.seqr := rfl
@[simp] theorem State.modThread_word (s : State) (n : Nat) (f : Ctx → Ctx) : (s.modThread n f).word = s.word := rfl
@[simp] theorem State.modThread_answerLater (s : State) (n : Nat) (f : Ctx → Ctx) : (s.modThread n f).answerLater = s.answerLater := rfl
@[simp] theorem State.modThread_useL1 (s : State) (n : Nat) (f : Ctx → Ctx) : (s.modThread n f).useL1 = s.useL1 := rfl
@[simp] theorem State.modThread_mem (s : State) (n : Nat) (f : Ctx → Ctx) : (s.modThread n f).mem = s.mem := rfl
@[simp] theorem State.modThread_poison (s : State) (n : Nat) (f : Ctx → Ctx) : (s.modThread n f).poison = s.poison := rfl
@[simp] theorem State.modThread_kept (s : State) (n : Nat) (f : Ctx → Ctx) : (s.modThread n f).kept = s.kept := rfl
@[simp] theorem State.modThread_seqs (s : State) (n : Nat) (f : Ctx → Ctx) : (s.modThread n f).seqs = s.seqs := rfl
@[simp] theorem State.modThread_detours (s : State) (n : Nat) (f : Ctx → Ctx) : (s.modThread n f).detours = s.detours := rfl
@[simp] theorem State.modThread_removal (s : State) (n : Nat) (f : Ctx → Ctx) : (s.modThread n f).removal = s.removal := rfl
@[simp] theorem State.modThread_agenda (s : State) (n : Nat) (f : Ctx → Ctx) : (s.modThread n f).agenda = s.agenda := rfl
@[simp] theorem State.modThread_idleCtr (s : State) (n : Nat) (f : Ctx → Ctx) : (s.modThread n f).idleCtr = s.idleCtr := rfl
@[simp] theorem State.modThread_freeCtr (s : State) (n : Nat) (f : Ctx → Ctx) : (s.modThread n f).freeCtr = s.freeCtr := rfl
@[simp] theorem State.modThread_tidCtr (s : State) (n : Nat) (f : Ctx → Ctx) : (s.modThread n f).tidCtr = s.tidCtr := rfl
@[simp] theorem State.modThread_numCtr (s : State) (n : Nat) (f : Ctx → Ctx) : (s.modThread n f).numCtr = s.numCtr := rfl

/-! ### The moving sequencer -/

@[simp] theorem State.setPc_me (s : State) (p : Word) : (s.setPc p).me = s.me := by
  unfold State.setPc; split <;> rfl
@[simp] theorem State.setPc_seqr (s : State) (p : Word) : (s.setPc p).seqr = s.seqr := by
  unfold State.setPc; split <;> rfl
@[simp] theorem State.setPc_word (s : State) (p : Word) : (s.setPc p).word = s.word := by
  unfold State.setPc; split <;> rfl
@[simp] theorem State.setPc_answerLater (s : State) (p : Word) : (s.setPc p).answerLater = s.answerLater := by
  unfold State.setPc; split <;> rfl
@[simp] theorem State.setPc_useL1 (s : State) (p : Word) : (s.setPc p).useL1 = s.useL1 := by
  unfold State.setPc; split <;> rfl
@[simp] theorem State.setPc_cores (s : State) (p : Word) : (s.setPc p).cores = s.cores := by
  unfold State.setPc; split <;> rfl
@[simp] theorem State.setPc_cubes (s : State) (p : Word) : (s.setPc p).cubes = s.cubes := by
  unfold State.setPc; split <;> rfl
@[simp] theorem State.setPc_mem (s : State) (p : Word) : (s.setPc p).mem = s.mem := by
  unfold State.setPc; split <;> rfl
@[simp] theorem State.setPc_poison (s : State) (p : Word) : (s.setPc p).poison = s.poison := by
  unfold State.setPc; split <;> rfl
@[simp] theorem State.setPc_flights (s : State) (p : Word) : (s.setPc p).flights = s.flights := by
  unfold State.setPc; split <;> rfl
@[simp] theorem State.setPc_kept (s : State) (p : Word) : (s.setPc p).kept = s.kept := by
  unfold State.setPc; split <;> rfl
@[simp] theorem State.setPc_seqs (s : State) (p : Word) : (s.setPc p).seqs = s.seqs := by
  unfold State.setPc; split <;> rfl
@[simp] theorem State.setPc_detours (s : State) (p : Word) : (s.setPc p).detours = s.detours := by
  unfold State.setPc; split <;> rfl
@[simp] theorem State.setPc_removal (s : State) (p : Word) : (s.setPc p).removal = s.removal := by
  unfold State.setPc; split <;> rfl
@[simp] theorem State.setPc_agenda (s : State) (p : Word) : (s.setPc p).agenda = s.agenda := by
  unfold State.setPc; split <;> rfl
@[simp] theorem State.setPc_idleCtr (s : State) (p : Word) : (s.setPc p).idleCtr = s.idleCtr := by
  unfold State.setPc; split <;> rfl
@[simp] theorem State.setPc_freeCtr (s : State) (p : Word) : (s.setPc p).freeCtr = s.freeCtr := by
  unfold State.setPc; split <;> rfl
@[simp] theorem State.setPc_tidCtr (s : State) (p : Word) : (s.setPc p).tidCtr = s.tidCtr := by
  unfold State.setPc; split <;> rfl
@[simp] theorem State.setPc_numCtr (s : State) (p : Word) : (s.setPc p).numCtr = s.numCtr := by
  unfold State.setPc; split <;> rfl
@[simp] theorem State.setRep_me (s : State) (p : Rep) : (s.setRep p).me = s.me := by
  unfold State.setRep; split <;> rfl
@[simp] theorem State.setRep_seqr (s : State) (p : Rep) : (s.setRep p).seqr = s.seqr := by
  unfold State.setRep; split <;> rfl
@[simp] theorem State.setRep_word (s : State) (p : Rep) : (s.setRep p).word = s.word := by
  unfold State.setRep; split <;> rfl
@[simp] theorem State.setRep_answerLater (s : State) (p : Rep) : (s.setRep p).answerLater = s.answerLater := by
  unfold State.setRep; split <;> rfl
@[simp] theorem State.setRep_useL1 (s : State) (p : Rep) : (s.setRep p).useL1 = s.useL1 := by
  unfold State.setRep; split <;> rfl
@[simp] theorem State.setRep_cores (s : State) (p : Rep) : (s.setRep p).cores = s.cores := by
  unfold State.setRep; split <;> rfl
@[simp] theorem State.setRep_cubes (s : State) (p : Rep) : (s.setRep p).cubes = s.cubes := by
  unfold State.setRep; split <;> rfl
@[simp] theorem State.setRep_mem (s : State) (p : Rep) : (s.setRep p).mem = s.mem := by
  unfold State.setRep; split <;> rfl
@[simp] theorem State.setRep_poison (s : State) (p : Rep) : (s.setRep p).poison = s.poison := by
  unfold State.setRep; split <;> rfl
@[simp] theorem State.setRep_flights (s : State) (p : Rep) : (s.setRep p).flights = s.flights := by
  unfold State.setRep; split <;> rfl
@[simp] theorem State.setRep_kept (s : State) (p : Rep) : (s.setRep p).kept = s.kept := by
  unfold State.setRep; split <;> rfl
@[simp] theorem State.setRep_seqs (s : State) (p : Rep) : (s.setRep p).seqs = s.seqs := by
  unfold State.setRep; split <;> rfl
@[simp] theorem State.setRep_detours (s : State) (p : Rep) : (s.setRep p).detours = s.detours := by
  unfold State.setRep; split <;> rfl
@[simp] theorem State.setRep_removal (s : State) (p : Rep) : (s.setRep p).removal = s.removal := by
  unfold State.setRep; split <;> rfl
@[simp] theorem State.setRep_agenda (s : State) (p : Rep) : (s.setRep p).agenda = s.agenda := by
  unfold State.setRep; split <;> rfl
@[simp] theorem State.setRep_idleCtr (s : State) (p : Rep) : (s.setRep p).idleCtr = s.idleCtr := by
  unfold State.setRep; split <;> rfl
@[simp] theorem State.setRep_freeCtr (s : State) (p : Rep) : (s.setRep p).freeCtr = s.freeCtr := by
  unfold State.setRep; split <;> rfl
@[simp] theorem State.setRep_tidCtr (s : State) (p : Rep) : (s.setRep p).tidCtr = s.tidCtr := by
  unfold State.setRep; split <;> rfl
@[simp] theorem State.setRep_numCtr (s : State) (p : Rep) : (s.setRep p).numCtr = s.numCtr := by
  unfold State.setRep; split <;> rfl
@[simp] theorem State.setFrame_me (s : State) (f : Option Frame) : (s.setFrame f).me = s.me := by
  unfold State.setFrame; split <;> rfl
@[simp] theorem State.setFrame_seqr (s : State) (f : Option Frame) : (s.setFrame f).seqr = s.seqr := by
  unfold State.setFrame; split <;> rfl
@[simp] theorem State.setFrame_word (s : State) (f : Option Frame) : (s.setFrame f).word = s.word := by
  unfold State.setFrame; split <;> rfl
@[simp] theorem State.setFrame_answerLater (s : State) (f : Option Frame) : (s.setFrame f).answerLater = s.answerLater := by
  unfold State.setFrame; split <;> rfl
@[simp] theorem State.setFrame_useL1 (s : State) (f : Option Frame) : (s.setFrame f).useL1 = s.useL1 := by
  unfold State.setFrame; split <;> rfl
@[simp] theorem State.setFrame_cores (s : State) (f : Option Frame) : (s.setFrame f).cores = s.cores := by
  unfold State.setFrame; split <;> rfl
@[simp] theorem State.setFrame_cubes (s : State) (f : Option Frame) : (s.setFrame f).cubes = s.cubes := by
  unfold State.setFrame; split <;> rfl
@[simp] theorem State.setFrame_mem (s : State) (f : Option Frame) : (s.setFrame f).mem = s.mem := by
  unfold State.setFrame; split <;> rfl
@[simp] theorem State.setFrame_poison (s : State) (f : Option Frame) : (s.setFrame f).poison = s.poison := by
  unfold State.setFrame; split <;> rfl
@[simp] theorem State.setFrame_flights (s : State) (f : Option Frame) : (s.setFrame f).flights = s.flights := by
  unfold State.setFrame; split <;> rfl
@[simp] theorem State.setFrame_kept (s : State) (f : Option Frame) : (s.setFrame f).kept = s.kept := by
  unfold State.setFrame; split <;> rfl
@[simp] theorem State.setFrame_seqs (s : State) (f : Option Frame) : (s.setFrame f).seqs = s.seqs := by
  unfold State.setFrame; split <;> rfl
@[simp] theorem State.setFrame_detours (s : State) (f : Option Frame) : (s.setFrame f).detours = s.detours := by
  unfold State.setFrame; split <;> rfl
@[simp] theorem State.setFrame_removal (s : State) (f : Option Frame) : (s.setFrame f).removal = s.removal := by
  unfold State.setFrame; split <;> rfl
@[simp] theorem State.setFrame_agenda (s : State) (f : Option Frame) : (s.setFrame f).agenda = s.agenda := by
  unfold State.setFrame; split <;> rfl
@[simp] theorem State.setFrame_idleCtr (s : State) (f : Option Frame) : (s.setFrame f).idleCtr = s.idleCtr := by
  unfold State.setFrame; split <;> rfl
@[simp] theorem State.setFrame_freeCtr (s : State) (f : Option Frame) : (s.setFrame f).freeCtr = s.freeCtr := by
  unfold State.setFrame; split <;> rfl
@[simp] theorem State.setFrame_tidCtr (s : State) (f : Option Frame) : (s.setFrame f).tidCtr = s.tidCtr := by
  unfold State.setFrame; split <;> rfl
@[simp] theorem State.setFrame_numCtr (s : State) (f : Option Frame) : (s.setFrame f).numCtr = s.numCtr := by
  unfold State.setFrame; split <;> rfl
@[simp] theorem State.advance_me (s : State) (n : Nat) : (s.advance n).me = s.me := by
  unfold State.advance; dsimp only; split <;> (try split) <;> (try split) <;> (try split) <;> simp
@[simp] theorem State.advance_seqr (s : State) (n : Nat) : (s.advance n).seqr = s.seqr := by
  unfold State.advance; dsimp only; split <;> (try split) <;> (try split) <;> (try split) <;> simp
@[simp] theorem State.advance_word (s : State) (n : Nat) : (s.advance n).word = s.word := by
  unfold State.advance; dsimp only; split <;> (try split) <;> (try split) <;> (try split) <;> simp
@[simp] theorem State.advance_answerLater (s : State) (n : Nat) : (s.advance n).answerLater = s.answerLater := by
  unfold State.advance; dsimp only; split <;> (try split) <;> (try split) <;> (try split) <;> simp
@[simp] theorem State.advance_useL1 (s : State) (n : Nat) : (s.advance n).useL1 = s.useL1 := by
  unfold State.advance; dsimp only; split <;> (try split) <;> (try split) <;> (try split) <;> simp
@[simp] theorem State.advance_cores (s : State) (n : Nat) : (s.advance n).cores = s.cores := by
  unfold State.advance; dsimp only; split <;> (try split) <;> (try split) <;> (try split) <;> simp
@[simp] theorem State.advance_cubes (s : State) (n : Nat) : (s.advance n).cubes = s.cubes := by
  unfold State.advance; dsimp only; split <;> (try split) <;> (try split) <;> (try split) <;> simp
@[simp] theorem State.advance_mem (s : State) (n : Nat) : (s.advance n).mem = s.mem := by
  unfold State.advance; dsimp only; split <;> (try split) <;> (try split) <;> (try split) <;> simp
@[simp] theorem State.advance_poison (s : State) (n : Nat) : (s.advance n).poison = s.poison := by
  unfold State.advance; dsimp only; split <;> (try split) <;> (try split) <;> (try split) <;> simp
@[simp] theorem State.advance_flights (s : State) (n : Nat) : (s.advance n).flights = s.flights := by
  unfold State.advance; dsimp only; split <;> (try split) <;> (try split) <;> (try split) <;> simp
@[simp] theorem State.advance_kept (s : State) (n : Nat) : (s.advance n).kept = s.kept := by
  unfold State.advance; dsimp only; split <;> (try split) <;> (try split) <;> (try split) <;> simp
@[simp] theorem State.advance_seqs (s : State) (n : Nat) : (s.advance n).seqs = s.seqs := by
  unfold State.advance; dsimp only; split <;> (try split) <;> (try split) <;> (try split) <;> simp
@[simp] theorem State.advance_detours (s : State) (n : Nat) : (s.advance n).detours = s.detours := by
  unfold State.advance; dsimp only; split <;> (try split) <;> (try split) <;> (try split) <;> simp
@[simp] theorem State.advance_removal (s : State) (n : Nat) : (s.advance n).removal = s.removal := by
  unfold State.advance; dsimp only; split <;> (try split) <;> (try split) <;> (try split) <;> simp
@[simp] theorem State.advance_agenda (s : State) (n : Nat) : (s.advance n).agenda = s.agenda := by
  unfold State.advance; dsimp only; split <;> (try split) <;> (try split) <;> (try split) <;> simp
@[simp] theorem State.advance_idleCtr (s : State) (n : Nat) : (s.advance n).idleCtr = s.idleCtr := by
  unfold State.advance; dsimp only; split <;> (try split) <;> (try split) <;> (try split) <;> simp
@[simp] theorem State.advance_freeCtr (s : State) (n : Nat) : (s.advance n).freeCtr = s.freeCtr := by
  unfold State.advance; dsimp only; split <;> (try split) <;> (try split) <;> (try split) <;> simp
@[simp] theorem State.advance_tidCtr (s : State) (n : Nat) : (s.advance n).tidCtr = s.tidCtr := by
  unfold State.advance; dsimp only; split <;> (try split) <;> (try split) <;> (try split) <;> simp
@[simp] theorem State.advance_numCtr (s : State) (n : Nat) : (s.advance n).numCtr = s.numCtr := by
  unfold State.advance; dsimp only; split <;> (try split) <;> (try split) <;> (try split) <;> simp
@[simp] theorem State.retire_me (s : State) (n : Nat) : (s.retire n).me = s.me := by
  rcases s with ⟨_, q, _⟩; cases q <;> rfl
@[simp] theorem State.retire_seqr (s : State) (n : Nat) : (s.retire n).seqr = s.seqr := by
  rcases s with ⟨_, q, _⟩; cases q <;> rfl
@[simp] theorem State.retire_word (s : State) (n : Nat) : (s.retire n).word = s.word := by
  rcases s with ⟨_, q, _⟩; cases q <;> rfl
@[simp] theorem State.retire_answerLater (s : State) (n : Nat) : (s.retire n).answerLater = s.answerLater := by
  rcases s with ⟨_, q, _⟩; cases q <;> rfl
@[simp] theorem State.retire_useL1 (s : State) (n : Nat) : (s.retire n).useL1 = s.useL1 := by
  rcases s with ⟨_, q, _⟩; cases q <;> rfl
@[simp] theorem State.retire_cores (s : State) (n : Nat) : (s.retire n).cores = s.cores := by
  rcases s with ⟨_, q, _⟩; cases q <;> rfl
@[simp] theorem State.retire_mem (s : State) (n : Nat) : (s.retire n).mem = s.mem := by
  rcases s with ⟨_, q, _⟩; cases q <;> rfl
@[simp] theorem State.retire_poison (s : State) (n : Nat) : (s.retire n).poison = s.poison := by
  rcases s with ⟨_, q, _⟩; cases q <;> rfl
@[simp] theorem State.retire_flights (s : State) (n : Nat) : (s.retire n).flights = s.flights := by
  rcases s with ⟨_, q, _⟩; cases q <;> rfl
@[simp] theorem State.retire_kept (s : State) (n : Nat) : (s.retire n).kept = s.kept := by
  rcases s with ⟨_, q, _⟩; cases q <;> rfl
@[simp] theorem State.retire_seqs (s : State) (n : Nat) : (s.retire n).seqs = s.seqs := by
  rcases s with ⟨_, q, _⟩; cases q <;> rfl
@[simp] theorem State.retire_detours (s : State) (n : Nat) : (s.retire n).detours = s.detours := by
  rcases s with ⟨_, q, _⟩; cases q <;> rfl
@[simp] theorem State.retire_removal (s : State) (n : Nat) : (s.retire n).removal = s.removal := by
  rcases s with ⟨_, q, _⟩; cases q <;> rfl
@[simp] theorem State.retire_agenda (s : State) (n : Nat) : (s.retire n).agenda = s.agenda := by
  rcases s with ⟨_, q, _⟩; cases q <;> rfl
@[simp] theorem State.retire_idleCtr (s : State) (n : Nat) : (s.retire n).idleCtr = s.idleCtr := by
  rcases s with ⟨_, q, _⟩; cases q <;> rfl
@[simp] theorem State.retire_tidCtr (s : State) (n : Nat) : (s.retire n).tidCtr = s.tidCtr := by
  rcases s with ⟨_, q, _⟩; cases q <;> rfl
@[simp] theorem State.retire_numCtr (s : State) (n : Nat) : (s.retire n).numCtr = s.numCtr := by
  rcases s with ⟨_, q, _⟩; cases q <;> rfl
@[simp] theorem State.retire_freeCtr (s : State) (n : Nat) : (s.retire n).freeCtr = s.freeCtr + 1 := by
  rcases s with ⟨_, q, _⟩; cases q <;> rfl
@[simp] theorem takeTrap_me (t : TrapReport) (s : State) : (takeTrap t s).me = s.me := by
  unfold takeTrap; split <;> rfl
@[simp] theorem takeTrap_seqr (t : TrapReport) (s : State) : (takeTrap t s).seqr = s.seqr := by
  unfold takeTrap; split <;> rfl
@[simp] theorem takeTrap_word (t : TrapReport) (s : State) : (takeTrap t s).word = s.word := by
  unfold takeTrap; split <;> rfl
@[simp] theorem takeTrap_answerLater (t : TrapReport) (s : State) : (takeTrap t s).answerLater = s.answerLater := by
  unfold takeTrap; split <;> rfl
@[simp] theorem takeTrap_useL1 (t : TrapReport) (s : State) : (takeTrap t s).useL1 = s.useL1 := by
  unfold takeTrap; split <;> rfl
@[simp] theorem takeTrap_cores (t : TrapReport) (s : State) : (takeTrap t s).cores = s.cores := by
  unfold takeTrap; split <;> rfl
@[simp] theorem takeTrap_cubes (t : TrapReport) (s : State) : (takeTrap t s).cubes = s.cubes := by
  unfold takeTrap; split <;> rfl
@[simp] theorem takeTrap_mem (t : TrapReport) (s : State) : (takeTrap t s).mem = s.mem := by
  unfold takeTrap; split <;> rfl
@[simp] theorem takeTrap_poison (t : TrapReport) (s : State) : (takeTrap t s).poison = s.poison := by
  unfold takeTrap; split <;> rfl
@[simp] theorem takeTrap_flights (t : TrapReport) (s : State) : (takeTrap t s).flights = s.flights := by
  unfold takeTrap; split <;> rfl
@[simp] theorem takeTrap_kept (t : TrapReport) (s : State) : (takeTrap t s).kept = s.kept := by
  unfold takeTrap; split <;> rfl
@[simp] theorem takeTrap_seqs (t : TrapReport) (s : State) : (takeTrap t s).seqs = s.seqs := by
  unfold takeTrap; split <;> rfl
@[simp] theorem takeTrap_detours (t : TrapReport) (s : State) : (takeTrap t s).detours = s.detours := by
  unfold takeTrap; split <;> rfl
@[simp] theorem takeTrap_removal (t : TrapReport) (s : State) : (takeTrap t s).removal = s.removal := by
  unfold takeTrap; split <;> rfl
@[simp] theorem takeTrap_agenda (t : TrapReport) (s : State) : (takeTrap t s).agenda = s.agenda := by
  unfold takeTrap; split <;> rfl
@[simp] theorem takeTrap_idleCtr (t : TrapReport) (s : State) : (takeTrap t s).idleCtr = s.idleCtr := by
  unfold takeTrap; split <;> rfl
@[simp] theorem takeTrap_freeCtr (t : TrapReport) (s : State) : (takeTrap t s).freeCtr = s.freeCtr := by
  unfold takeTrap; split <;> rfl
@[simp] theorem takeTrap_tidCtr (t : TrapReport) (s : State) : (takeTrap t s).tidCtr = s.tidCtr := by
  unfold takeTrap; split <;> rfl
@[simp] theorem takeTrap_numCtr (t : TrapReport) (s : State) : (takeTrap t s).numCtr = s.numCtr := by
  unfold takeTrap; split <;> rfl

end Sys2Proof.Machine
end

