-- ==== Sys2Proof/Laws/Memory.lean ====
section
/-! SUPPORT. Memory: the canonical form is kept by every write, a read after a write gives what was written, and a
write leaves every other byte alone (R3, R6). -/

namespace Sys2Proof.Machine

open Sys2Proof

/-- The canonical form, said of the list at once. -/
theorem Memory.wf_iff (l : List Host.Cell) :
    Memory.wf l = true ↔ l.Pairwise (fun p q => p.1 < q.1) ∧ ∀ p ∈ l, p.2 ≠ unlisted p.1 := by
  induction l with
  | nil => simp [Memory.wf]
  | cons p l ih =>
    cases l with
    | nil => simp [Memory.wf]
    | cons q l =>
      simp only [Memory.wf, Bool.and_eq_true, bne_iff_ne, ne_eq, decide_eq_true_eq, ih, List.pairwise_cons,
        List.mem_cons, forall_eq_or_imp]
      constructor
      · rintro ⟨⟨hp, hlt⟩, ⟨hq, hl⟩, hq', hl'⟩
        exact ⟨⟨⟨hlt, fun a ha => lt_trans hlt (hq a ha)⟩, hq, hl⟩, hp, hq', hl'⟩
      · rintro ⟨⟨⟨hlt, -⟩, hq, hl⟩, hp, hq', hl'⟩
        exact ⟨⟨hp, hlt⟩, ⟨hq, hl⟩, hq', hl'⟩

theorem memSet_mem {l : List Host.Cell} {a : Nat} {b : Byte} {p : Host.Cell} (h : p ∈ memSet l a b) :
    p ∈ l ∨ (p = (a, b) ∧ b ≠ unlisted a) := by
  induction l with
  | nil => simp only [memSet] at h; split at h <;> simp_all
  | cons q l ih =>
    simp only [memSet] at h
    split at h
    · rcases List.mem_cons.1 h with rfl | h
      · simp
      · rcases ih h with h | h <;> simp [h]
    · split at h <;> split at h <;> simp_all <;> tauto

/-- A write keeps the canonical form. -/
theorem memSet_wf {l : List Host.Cell} (a : Nat) (b : Byte) (h : Memory.wf l = true) :
    Memory.wf (memSet l a b) = true := by
  rw [Memory.wf_iff] at *
  obtain ⟨hp, hu⟩ := h
  refine ⟨?_, fun p hm => ?_⟩
  · clear hu
    induction l with
    | nil => simp only [memSet]; split <;> simp
    | cons q l ih =>
      obtain ⟨hq, hl⟩ := List.pairwise_cons.1 hp
      simp only [memSet]
      split
      · rename_i hlt
        refine List.pairwise_cons.2 ⟨fun p hm => ?_, ih hl⟩
        rcases memSet_mem hm with hm | ⟨rfl, -⟩
        · exact hq p hm
        · exact hlt
      · rename_i hge
        split
        · rename_i heq
          subst heq
          split
          · exact hl
          · exact List.pairwise_cons.2 ⟨hq, hl⟩
        · rename_i hne
          split
          · exact hp
          · refine List.pairwise_cons.2 ⟨fun p hm => ?_, hp⟩
            rcases List.mem_cons.1 hm with rfl | hm
            · show a < _; omega
            · have := hq p hm; show a < _; omega
  · rcases memSet_mem hm with hm | ⟨rfl, hb⟩
    · exact hu p hm
    · exact hb

/-- Consecutive writes keep the canonical form. -/
theorem memSetList_wf {l : List Host.Cell} (a : Nat) (bs : List Byte) (h : Memory.wf l = true) :
    Memory.wf (memSetList l a bs) = true := by
  induction bs generalizing l a with
  | nil => exact h
  | cons b bs ih => exact ih _ (memSet_wf a b h)

/-- Forgetting cells keeps the canonical form. -/
theorem memFilter_wf {l : List Host.Cell} (p : Host.Cell → Bool) (h : Memory.wf l = true) :
    Memory.wf (l.filter p) = true := by
  rw [Memory.wf_iff] at *
  exact ⟨h.1.filter _, fun q hq => h.2 q (List.mem_filter.1 hq).1⟩

theorem memGet_nil (x : Nat) : memGet [] x = unlisted x := rfl

theorem memGet_cons (p : Host.Cell) (l : List Host.Cell) (x : Nat) :
    memGet (p :: l) x = if p.1 = x then p.2 else memGet l x := by
  unfold memGet
  by_cases h : p.1 = x <;> simp [h]

/-- An address below every listed one is unlisted. -/
theorem memGet_absent {l : List Host.Cell} {x : Nat} (h : ∀ p ∈ l, p.1 ≠ x) : memGet l x = unlisted x := by
  induction l with
  | nil => rfl
  | cons p l ih =>
    rw [memGet_cons, if_neg (h p (by simp))]
    exact ih fun q hq => h q (by simp [hq])

/-- A read after a write of one byte. -/
theorem memGet_memSet {l : List Host.Cell} (h : Memory.wf l = true) (a : Nat) (b : Byte) (x : Nat) :
    memGet (memSet l a b) x = if x = a then b else memGet l x := by
  obtain ⟨hp, -⟩ := (Memory.wf_iff l).1 h
  clear h
  induction l with
  | nil =>
    simp only [memSet]
    split
    · rename_i hb; subst hb; by_cases hx : x = a <;> simp [hx, memGet_nil]
    · rw [memGet_cons, memGet_nil]; by_cases hx : x = a
      · simp [hx]
      · simp [hx, Ne.symm hx]
  | cons q l ih =>
    obtain ⟨hq, hl⟩ := List.pairwise_cons.1 hp
    simp only [memSet]
    split
    · rename_i hlt
      rw [memGet_cons, memGet_cons, ih hl]
      by_cases hx : q.1 = x
      · have : x ≠ a := by omega
        simp [hx, this]
      · simp [hx]
    · split
      · rename_i heq
        split
        · rename_i hb
          rw [memGet_cons]
          by_cases hx : x = a
          · subst hx
            rw [if_pos rfl, hb, memGet_absent]
            intro p hm; have := hq p hm; omega
          · rw [if_neg hx, if_neg (by omega)]
        · rw [memGet_cons, memGet_cons]
          by_cases hx : x = a
          · simp [hx]
          · rw [if_neg hx, if_neg (by simpa [eq_comm] using hx), if_neg (by omega)]
      · split
        · rename_i hb
          by_cases hx : x = a
          · subst hx
            rw [if_pos rfl, hb, memGet_absent]
            intro p hm
            rcases List.mem_cons.1 hm with rfl | hm
            · omega
            · have := hq p hm; omega
          · rw [if_neg hx]
        · rw [memGet_cons]
          by_cases hx : x = a
          · simp [hx]
          · rw [if_neg hx, if_neg (by simpa [eq_comm] using hx)]

/-- A read after consecutive writes. -/
theorem memGet_memSetList {l : List Host.Cell} (h : Memory.wf l = true) (a : Nat) (bs : List Byte) (x : Nat) :
    memGet (memSetList l a bs) x = if a ≤ x ∧ x < a + bs.length then bs.getD (x - a) 0 else memGet l x := by
  induction bs generalizing l a with
  | nil => simp only [memSetList, List.length_nil]; rw [if_neg (by omega)]
  | cons b bs ih =>
    rw [memSetList, ih (memSet_wf a b h), memGet_memSet h]
    by_cases h1 : a + 1 ≤ x ∧ x < a + 1 + bs.length
    · obtain ⟨k, rfl⟩ : ∃ k, x = a + 1 + k := ⟨x - (a + 1), by omega⟩
      rw [if_pos h1, if_pos (by simp only [List.length_cons]; omega)]
      have e1 : a + 1 + k - (a + 1) = k := by omega
      have e2 : a + 1 + k - a = k + 1 := by omega
      rw [e1, e2, List.getD_cons_succ]
    · rw [if_neg h1]
      by_cases hx : x = a
      · subst hx; simp
      · rw [if_neg hx, if_neg (by simp only [List.length_cons]; omega)]

theorem memGetList_length (l : List Host.Cell) (a n : Nat) : (memGetList l a n).length = n := by
  induction n generalizing a with
  | zero => rfl
  | succ n ih => simp [memGetList, ih]

theorem memGetList_getElem (l : List Host.Cell) (a n k : Nat) (h : k < (memGetList l a n).length) :
    (memGetList l a n)[k] = memGet l (a + k) := by
  induction n generalizing a k with
  | zero => simp [memGetList] at h
  | succ n ih =>
    cases k with
    | zero => simp [memGetList]
    | succ k =>
      have := ih (a + 1) k (by simpa [memGetList] using h)
      simp only [memGetList, List.getElem_cons_succ, this]
      congr 1; omega

/-- What was written is read back. -/
theorem memGetList_memSetList {l : List Host.Cell} (h : Memory.wf l = true) (a : Nat) (bs : List Byte) :
    memGetList (memSetList l a bs) a bs.length = bs := by
  apply List.ext_getElem (memGetList_length ..)
  intro k h1 h2
  rw [memGetList_getElem, memGet_memSetList h, if_pos (by omega)]
  have : a + k - a = k := by omega
  rw [this, List.getD_eq_getElem?_getD, List.getElem?_eq_getElem h2]; rfl

/-! ### The state's memory -/

@[simp] theorem State.modCore_mem (s : State) (i : Nat) (f : Core → Core) : (s.modCore i f).mem = s.mem := by
  unfold State.modCore State.setCore; split <;> rfl

@[simp] theorem State.setCore_mem (s : State) (i : Nat) (c : Core) : (s.setCore i c).mem = s.mem := by
  unfold State.setCore; split <;> rfl

@[simp] theorem State.focus_mem (s : State) (i : Nat) : (s.focus i).mem = s.mem := by
  unfold State.focus; split <;> rfl

@[simp] theorem markLines_mem (s : State) (a n : Nat) : (markLines s a n).mem = s.mem := by
  unfold markLines; split
  · rfl
  · exact State.modCore_mem ..


/-- A store changes memory by its bytes alone. -/
@[simp] theorem State.store_mem (s : State) (a : Nat) (bs : List Byte) : (s.store a bs).mem = memSetList s.mem a bs := by
  unfold State.store
  cases bs with
  | nil => simp [memSetList]
  | cons b bs => simp

/-- A store keeps the canonical form. -/
theorem State.store_wf (s : State) (a : Nat) (bs : List Byte) (h : Memory.wf s.mem = true) :
    Memory.wf (s.store a bs).mem = true := by
  rw [State.store_mem]; exact memSetList_wf a bs h

/-- A load after a store of the same bytes. -/
theorem State.load_store (s : State) (a : Nat) (bs : List Byte) (h : Memory.wf s.mem = true) :
    (s.store a bs).load a bs.length = bs := by
  rw [State.load, State.store_mem]; exact memGetList_memSetList h a bs

end Sys2Proof.Machine
end

