-- ==== Sys2Proof/Laws/Operands.lean ====
section
/-! SUPPORT. Bit fields, lanes and operands: what the shared operations do, said once (R51, R52, R89). -/

namespace Sys2Proof.Machine

open Sys2Proof

/-! ### Packing -/

/-- A packed number stays within its elements. -/
theorem packNat_lt (w : Nat) (l : List Nat) : packNat w l < 2 ^ (w * l.length) := by
  induction l with
  | nil => simp [packNat]
  | cons x l ih =>
    have h1 := Nat.mod_lt x (Nat.two_pow_pos w)
    have h2 : 2 ^ (w * (x :: l).length) = 2 ^ w * 2 ^ (w * l.length) := by
      rw [List.length_cons, Nat.mul_succ, Nat.pow_add, Nat.mul_comm]
    rw [packNat, h2]
    calc x % 2 ^ w + 2 ^ w * packNat w l < 2 ^ w + 2 ^ w * packNat w l := by omega
      _ = 2 ^ w * (packNat w l + 1) := by ring
      _ ≤ 2 ^ w * 2 ^ (w * l.length) := Nat.mul_le_mul_left _ ih

/-- Element `k` of a packed list. -/
theorem elemNat_packNat (w : Nat) (l : List Nat) (k : Nat) : elemNat w (packNat w l) k = l.getD k 0 % 2 ^ w := by
  induction l generalizing k with
  | nil => simp [packNat, elemNat]
  | cons x l ih =>
    have hp : 0 < 2 ^ w := Nat.two_pow_pos w
    cases k with
    | zero => simp [packNat, elemNat]
    | succ k =>
      have h : (x % 2 ^ w + 2 ^ w * packNat w l) / 2 ^ w = packNat w l := by
        rw [Nat.add_mul_div_left _ _ hp, Nat.div_eq_of_lt (Nat.mod_lt _ hp), Nat.zero_add]
      have h2 : 2 ^ (w * (k + 1)) = 2 ^ w * 2 ^ (w * k) := by rw [Nat.mul_succ, Nat.pow_add, Nat.mul_comm]
      rw [List.getD_cons_succ, ← ih k]
      simp only [elemNat, packNat, h2, ← Nat.div_div_eq_div_mul, h]

/-- Element `e` of `w` bits of a vector made of a list that fits it. -/
theorem extract_packNat (w n e : Nat) (l : List Nat) (h : w * l.length ≤ n) :
    (BitVec.ofNat n (packNat w l)).extractLsb' (w * e) w = BitVec.ofNat w (l.getD e 0) := by
  apply BitVec.eq_of_toNat_eq
  have h1 : packNat w l < 2 ^ n := lt_of_lt_of_le (packNat_lt w l) (Nat.pow_le_pow_right (by omega) h)
  rw [BitVec.extractLsb'_toNat, BitVec.toNat_ofNat, BitVec.toNat_ofNat, Nat.mod_eq_of_lt h1,
    Nat.shiftRight_eq_div_pow]
  exact elemNat_packNat w l e

/-- The lanes of a vector made lane by lane. -/
@[simp] theorem lane_ofLanes (f : Nat → Word32) (k : Nat) (h : k < 64) : lane (ofLanes f) k = f k := by
  unfold lane ofLanes
  rw [extract_packNat 32 2048 k _ (by simp)]
  simp [List.getD_eq_getElem?_getD, h]

/-- The pairs of a vector made pair by pair. -/
@[simp] theorem pair_ofPairs (f : Nat → BitVec 64) (k : Nat) (h : k < 32) : pair (ofPairs f) k = f k := by
  unfold pair ofPairs
  rw [extract_packNat 64 2048 k _ (by simp)]
  simp [List.getD_eq_getElem?_getD, h]

/-- The bits of a mask made bit by bit. -/
theorem getLsbD_maskOf (f : Nat → Bool) (k : Nat) (h : k < 64) : (BitVec.ofNat 64 (maskOf 64 f)).getLsbD k = f k := by
  have e := extract_packNat 1 64 k ((List.range 64).map fun k => if f k then 1 else 0) (by simp)
  have b := congrArg (fun v => BitVec.getLsbD v 0) e
  simp only [BitVec.getLsbD_extractLsb', Nat.one_mul, Nat.add_zero] at b
  unfold maskOf
  simp only [Nat.zero_lt_one, decide_true, Bool.true_and] at b
  rw [b]
  cases hf : f k <;> simp [List.getD_eq_getElem?_getD, h, hf]

/-! ### Fields and results -/

theorem needDst_ok {s : State} {d : BitVec 6} (h : d.toNat < 32 ∨ d.toNat = 48) : needDst s d = .ok () := by
  unfold needDst
  rw [if_pos]
  rcases h with h | h <;> simp [h]

theorem needUnused_ok {s : State} {d : BitVec 6} (h : d.toNat = 48) : needUnused s d = .ok () := by
  unfold needUnused
  rw [if_pos h]

theorem needDstReg_ok {s : State} {d : BitVec 6} (h : d.toNat < 32) : needDstReg s d = .ok () := by
  unfold needDstReg
  rw [if_pos h]

theorem needMaskDst_ok {s : State} {d : BitVec 6} (h : d.toNat < 8 ∨ d.toNat = 48) : needMaskDst s d = .ok () := by
  unfold needMaskDst
  rw [if_pos]
  rcases h with h | h <;> simp [h]

theorem State.modCtx_modCtx (s : State) (f g : Ctx → Ctx) : (s.modCtx f).modCtx g = s.modCtx fun c => g (f c) := rfl

/-- A push changes the thread alone. -/
theorem pushScalar_eq (lat : Nat) (x : Word) (s : State) : ∃ f, pushScalar lat x s = s.modCtx f := ⟨_, rfl⟩

/-- A scalar result changes the thread alone. -/
theorem writeScalar_eq (lat : Nat) (d : BitVec 6) (x : Word) (s : State) : ∃ f, writeScalar lat d x s = s.modCtx f := by
  unfold writeScalar pushScalar setG
  dsimp only
  split
  · exact ⟨_, State.modCtx_modCtx ..⟩
  · exact ⟨_, rfl⟩

/-- A vector result changes the thread alone. -/
theorem writeVector_eq (lat : Nat) (d : BitVec 6) (x : Vec) (s : State) : ∃ f, writeVector lat d x s = s.modCtx f := by
  unfold writeVector pushVector setV
  dsimp only
  split
  · exact ⟨_, State.modCtx_modCtx ..⟩
  · exact ⟨_, rfl⟩

/-- A mask result changes the thread alone. -/
theorem writeMask_eq (lat : Nat) (d : BitVec 6) (x : Word) (s : State) : ∃ f, writeMask lat d x s = s.modCtx f := by
  unfold writeMask pushScalar
  dsimp only
  split
  · exact ⟨_, State.modCtx_modCtx ..⟩
  · exact ⟨_, rfl⟩

/-- The queue after a scalar result. -/
theorem writeScalar_gq (lat : Nat) (d : BitVec 6) (x : Word) (s : State) :
    (writeScalar lat d x s).regs.gq = (x :: s.regs.gq).take 16 := by
  unfold writeScalar
  split <;> rfl

/-- The queue after a vector result. -/
theorem writeVector_vq (lat : Nat) (d : BitVec 6) (x : Vec) (s : State) :
    (writeVector lat d x s).regs.vq = (x :: s.regs.vq).take 16 := by
  unfold writeVector
  split <;> rfl

/-! ### How a meaning ends -/

theorem issue_ok {words stall : Nat} {body : State → Except Stop State} {s t : State} (h : body s = .ok t) :
    issue words stall body s = .next ((t.advance words).retire stall) := by
  simp [issue, h, finish]

theorem issue_trap {words stall : Nat} {body : State → Except Stop State} {s t : State} {r : TrapReport}
    (h : body s = .error (.trap r t)) : issue words stall body s = .next (takeTrap r t) := by
  simp [issue, h, finish]

theorem issue_wait {words stall : Nat} {body : State → Except Stop State} {s t : State}
    (h : body s = .error (.wait t)) : issue words stall body s = .next t := by
  simp [issue, h, finish]

theorem issueTo_ok {stall : Nat} {body : State → Except Stop (State × Word)} {s t : State} {pc : Word}
    (h : body s = .ok (t, pc)) : issueTo stall body s = .next ((t.setPc pc).retire stall) := by
  simp [issueTo, h, finish]

theorem issueTo_trap {stall : Nat} {body : State → Except Stop (State × Word)} {s t : State} {r : TrapReport}
    (h : body s = .error (.trap r t)) : issueTo stall body s = .next (takeTrap r t) := by
  simp [issueTo, h, finish]

end Sys2Proof.Machine
end

