-- ==== Sys2Proof/Laws/PerInstr.lean ====
section
/-! SUPPORT. Decoding an encoded instruction gives it back: one lemma per constructor (family RoundTrip). -/

namespace Sys2Proof.Laws

open Sys2Proof

/-- Decoding the words of a well-formed instruction gives the instruction and the number of its words. -/
def RoundTrip.Statement (i : Instr) : Prop := i.wf = true → decodeWords (encode i) = .ok (i, i.shape.words)

/-- A well-formed instruction has a legal shape. -/
theorem legal_of_wf {i : Instr} (h : i.wf = true) : Legal i.shape = true := by
  simp only [Instr.wf, Bool.and_eq_true] at h
  simp only [Legal, Bool.and_eq_true]
  exact ⟨⟨⟨h.1.1.1.1, h.1.1.2⟩, h.1.2⟩, h.2⟩

/-- From the round trip of the shape to that of the instruction. -/
theorem lift (i : Instr) (hs : Legal i.shape = true → decodeShapes (shapeWords i.shape) = .ok i.shape)
    (ho : i.wf = true → ofShape i.shape = some i) : RoundTrip.Statement i := by
  intro h
  simp only [decodeWords, encode, hs (legal_of_wf h), ho h]

/-- An event has no words and is not well formed. -/
theorem event_trip (i : Instr) (h : i.shape = .event) : RoundTrip.Statement i := by
  intro hw
  simp [Instr.wf, h, Shape.assigned] at hw

/-- The unconditional shape of B and CALL is that of no conditional form. -/
theorem cond_cases {k : BitVec 3} (h : k.toNat < 6) : k ≠ 7 ∧ k ≠ 6 := by
  constructor <;> (intro he; rw [he] at h; exact absurd h (by decide))

theorem RoundTrip.add (f : FmtA) : RoundTrip.Statement (.add f) :=
  lift _ (round_a 0x01 0 f (by decide) (by decide) rfl) fun _ => rfl
theorem RoundTrip.sub (f : FmtA) : RoundTrip.Statement (.sub f) :=
  lift _ (round_a 0x01 1 f (by decide) (by decide) rfl) fun _ => rfl
theorem RoundTrip.adds (f : FmtA) : RoundTrip.Statement (.adds f) :=
  lift _ (round_a 0x01 2 f (by decide) (by decide) rfl) fun _ => rfl
theorem RoundTrip.subs (f : FmtA) : RoundTrip.Statement (.subs f) :=
  lift _ (round_a 0x01 3 f (by decide) (by decide) rfl) fun _ => rfl
theorem RoundTrip.min (f : FmtA) : RoundTrip.Statement (.min f) :=
  lift _ (round_a 0x01 4 f (by decide) (by decide) rfl) fun _ => rfl
theorem RoundTrip.max (f : FmtA) : RoundTrip.Statement (.max f) :=
  lift _ (round_a 0x01 5 f (by decide) (by decide) rfl) fun _ => rfl
theorem RoundTrip.minu (f : FmtA) : RoundTrip.Statement (.minu f) :=
  lift _ (round_a 0x01 6 f (by decide) (by decide) rfl) fun _ => rfl
theorem RoundTrip.maxu (f : FmtA) : RoundTrip.Statement (.maxu f) :=
  lift _ (round_a 0x01 7 f (by decide) (by decide) rfl) fun _ => rfl
theorem RoundTrip.and (f : FmtA) : RoundTrip.Statement (.and f) :=
  lift _ (round_a 0x02 0 f (by decide) (by decide) rfl) fun _ => rfl
theorem RoundTrip.or (f : FmtA) : RoundTrip.Statement (.or f) :=
  lift _ (round_a 0x02 1 f (by decide) (by decide) rfl) fun _ => rfl
theorem RoundTrip.xor (f : FmtA) : RoundTrip.Statement (.xor f) :=
  lift _ (round_a 0x02 2 f (by decide) (by decide) rfl) fun _ => rfl
theorem RoundTrip.andn (f : FmtA) : RoundTrip.Statement (.andn f) :=
  lift _ (round_a 0x02 3 f (by decide) (by decide) rfl) fun _ => rfl
theorem RoundTrip.sll (f : FmtA) : RoundTrip.Statement (.sll f) :=
  lift _ (round_a 0x02 4 f (by decide) (by decide) rfl) fun _ => rfl
theorem RoundTrip.srl (f : FmtA) : RoundTrip.Statement (.srl f) :=
  lift _ (round_a 0x02 5 f (by decide) (by decide) rfl) fun _ => rfl
theorem RoundTrip.sra (f : FmtA) : RoundTrip.Statement (.sra f) :=
  lift _ (round_a 0x02 6 f (by decide) (by decide) rfl) fun _ => rfl
theorem RoundTrip.rol (f : FmtA) : RoundTrip.Statement (.rol f) :=
  lift _ (round_a 0x02 7 f (by decide) (by decide) rfl) fun _ => rfl
theorem RoundTrip.ceq (f : FmtA) : RoundTrip.Statement (.ceq f) :=
  lift _ (round_a 0x03 0 f (by decide) (by decide) rfl) fun _ => rfl
theorem RoundTrip.cne (f : FmtA) : RoundTrip.Statement (.cne f) :=
  lift _ (round_a 0x03 1 f (by decide) (by decide) rfl) fun _ => rfl
theorem RoundTrip.clt (f : FmtA) : RoundTrip.Statement (.clt f) :=
  lift _ (round_a 0x03 2 f (by decide) (by decide) rfl) fun _ => rfl
theorem RoundTrip.cltu (f : FmtA) : RoundTrip.Statement (.cltu f) :=
  lift _ (round_a 0x03 3 f (by decide) (by decide) rfl) fun _ => rfl
theorem RoundTrip.sel (f : FmtA) : RoundTrip.Statement (.sel f) :=
  lift _ (round_a 0x03 4 f (by decide) (by decide) rfl) fun _ => rfl
theorem RoundTrip.clz (f : FmtA) : RoundTrip.Statement (.clz f) :=
  lift _ (round_a 0x03 5 f (by decide) (by decide) rfl) fun _ => rfl
theorem RoundTrip.ctz (f : FmtA) : RoundTrip.Statement (.ctz f) :=
  lift _ (round_a 0x03 6 f (by decide) (by decide) rfl) fun _ => rfl
theorem RoundTrip.popc (f : FmtA) : RoundTrip.Statement (.popc f) :=
  lift _ (round_a 0x03 7 f (by decide) (by decide) rfl) fun _ => rfl
theorem RoundTrip.mul (f : FmtA) : RoundTrip.Statement (.mul f) :=
  lift _ (round_a 0x04 0 f (by decide) (by decide) rfl) fun _ => rfl
theorem RoundTrip.mulh (f : FmtA) : RoundTrip.Statement (.mulh f) :=
  lift _ (round_a 0x04 1 f (by decide) (by decide) rfl) fun _ => rfl
theorem RoundTrip.mulhu (f : FmtA) : RoundTrip.Statement (.mulhu f) :=
  lift _ (round_a 0x04 2 f (by decide) (by decide) rfl) fun _ => rfl
theorem RoundTrip.div (f : FmtA) : RoundTrip.Statement (.div f) :=
  lift _ (round_a 0x04 3 f (by decide) (by decide) rfl) fun _ => rfl
theorem RoundTrip.divu (f : FmtA) : RoundTrip.Statement (.divu f) :=
  lift _ (round_a 0x04 4 f (by decide) (by decide) rfl) fun _ => rfl
theorem RoundTrip.rem (f : FmtA) : RoundTrip.Statement (.rem f) :=
  lift _ (round_a 0x04 5 f (by decide) (by decide) rfl) fun _ => rfl
theorem RoundTrip.remu (f : FmtA) : RoundTrip.Statement (.remu f) :=
  lift _ (round_a 0x04 6 f (by decide) (by decide) rfl) fun _ => rfl
theorem RoundTrip.padd (f : FmtA) : RoundTrip.Statement (.padd f) :=
  lift _ (round_a 0x05 0 f (by decide) (by decide) rfl) fun _ => rfl
theorem RoundTrip.psub (f : FmtA) : RoundTrip.Statement (.psub f) :=
  lift _ (round_a 0x05 1 f (by decide) (by decide) rfl) fun _ => rfl
theorem RoundTrip.padds (f : FmtA) : RoundTrip.Statement (.padds f) :=
  lift _ (round_a 0x05 2 f (by decide) (by decide) rfl) fun _ => rfl
theorem RoundTrip.psubs (f : FmtA) : RoundTrip.Statement (.psubs f) :=
  lift _ (round_a 0x05 3 f (by decide) (by decide) rfl) fun _ => rfl
theorem RoundTrip.pmul (f : FmtA) : RoundTrip.Statement (.pmul f) :=
  lift _ (round_a 0x05 4 f (by decide) (by decide) rfl) fun _ => rfl
theorem RoundTrip.pmin (f : FmtA) : RoundTrip.Statement (.pmin f) :=
  lift _ (round_a 0x05 5 f (by decide) (by decide) rfl) fun _ => rfl
theorem RoundTrip.pmax (f : FmtA) : RoundTrip.Statement (.pmax f) :=
  lift _ (round_a 0x05 6 f (by decide) (by decide) rfl) fun _ => rfl
theorem RoundTrip.pavg (f : FmtA) : RoundTrip.Statement (.pavg f) :=
  lift _ (round_a 0x05 7 f (by decide) (by decide) rfl) fun _ => rfl
theorem RoundTrip.addi (f : FmtL) : RoundTrip.Statement (.addi f) :=
  lift _ (round_l 0x10 f (by decide) rfl) fun _ => rfl
theorem RoundTrip.andi (f : FmtL) : RoundTrip.Statement (.andi f) :=
  lift _ (round_l 0x11 f (by decide) rfl) fun _ => rfl
theorem RoundTrip.ori (f : FmtL) : RoundTrip.Statement (.ori f) :=
  lift _ (round_l 0x12 f (by decide) rfl) fun _ => rfl
theorem RoundTrip.xori (f : FmtL) : RoundTrip.Statement (.xori f) :=
  lift _ (round_l 0x13 f (by decide) rfl) fun _ => rfl
theorem RoundTrip.li (f : FmtL) : RoundTrip.Statement (.li f) :=
  lift _ (round_l 0x14 f (by decide) rfl) fun _ => rfl
theorem RoundTrip.slli (f : FmtL) : RoundTrip.Statement (.slli f) :=
  lift _ (round_l 0x15 f (by decide) rfl) fun _ => rfl
theorem RoundTrip.srli (f : FmtL) : RoundTrip.Statement (.srli f) :=
  lift _ (round_l 0x16 f (by decide) rfl) fun _ => rfl
theorem RoundTrip.srai (f : FmtL) : RoundTrip.Statement (.srai f) :=
  lift _ (round_l 0x17 f (by decide) rfl) fun _ => rfl
theorem RoundTrip.clti (f : FmtL) : RoundTrip.Statement (.clti f) :=
  lift _ (round_l 0x18 f (by decide) rfl) fun _ => rfl
theorem RoundTrip.cltui (f : FmtL) : RoundTrip.Statement (.cltui f) :=
  lift _ (round_l 0x19 f (by decide) rfl) fun _ => rfl
theorem RoundTrip.ceqi (f : FmtL) : RoundTrip.Statement (.ceqi f) :=
  lift _ (round_l 0x1A f (by decide) rfl) fun _ => rfl
theorem RoundTrip.lipc (f : FmtL) : RoundTrip.Statement (.lipc f) :=
  lift _ (round_l 0x1B f (by decide) rfl) fun _ => rfl
theorem RoundTrip.b (f : FmtB) : RoundTrip.Statement (.b f) :=
  lift _ (round_b 0x20 6 f (by decide) rfl) fun _ => rfl
theorem RoundTrip.bCond (cond : BitVec 3) (f : FmtB) : RoundTrip.Statement (.bCond cond f) :=
  lift _ (round_b 0x20 cond f (by decide) rfl) fun h => by
    have hk : cond.toNat < 6 := by simp only [Instr.wf, Instr.condOk, Bool.and_eq_true, decide_eq_true_eq] at h; exact h.1.1.1.2
    have hc := cond_cases hk
    show ofShape (.b 0x20 cond f) = _
    simp only [ofShape, ofShapeLow, instrB]
    rw [if_neg hc.1, if_neg hc.2]
theorem RoundTrip.call (f : FmtB) : RoundTrip.Statement (.call f) :=
  lift _ (round_b 0x21 6 f (by decide) rfl) fun _ => rfl
theorem RoundTrip.callCond (cond : BitVec 3) (f : FmtB) : RoundTrip.Statement (.callCond cond f) :=
  lift _ (round_b 0x21 cond f (by decide) rfl) fun h => by
    have hk : cond.toNat < 6 := by simp only [Instr.wf, Instr.condOk, Bool.and_eq_true, decide_eq_true_eq] at h; exact h.1.1.1.2
    have hc := cond_cases hk
    show ofShape (.b 0x21 cond f) = _
    simp only [ofShape, ofShapeLow, instrB]
    rw [if_neg hc.1, if_neg hc.2]
theorem RoundTrip.ret (f : FmtA) : RoundTrip.Statement (.ret f) :=
  lift _ (round_a 0x22 0 f (by decide) (by decide) rfl) fun _ => rfl
theorem RoundTrip.yield (f : FmtA) : RoundTrip.Statement (.yield f) :=
  lift _ (round_a 0x22 1 f (by decide) (by decide) rfl) fun _ => rfl
theorem RoundTrip.halt (f : FmtA) : RoundTrip.Statement (.halt f) :=
  lift _ (round_a 0x22 2 f (by decide) (by decide) rfl) fun _ => rfl
theorem RoundTrip.trap (f : FmtA) : RoundTrip.Statement (.trap f) :=
  lift _ (round_a 0x22 3 f (by decide) (by decide) rfl) fun _ => rfl
theorem RoundTrip.follow (f : FmtA) : RoundTrip.Statement (.follow f) :=
  lift _ (round_a 0x22 4 f (by decide) (by decide) rfl) fun _ => rfl
theorem RoundTrip.detach (f : FmtA) : RoundTrip.Statement (.detach f) :=
  lift _ (round_a 0x22 5 f (by decide) (by decide) rfl) fun _ => rfl
theorem RoundTrip.rejoin (f : FmtA) : RoundTrip.Statement (.rejoin f) :=
  lift _ (round_a 0x22 6 f (by decide) (by decide) rfl) fun _ => rfl
theorem RoundTrip.rfe (f : FmtA) : RoundTrip.Statement (.rfe f) :=
  lift _ (round_a 0x22 7 f (by decide) (by decide) rfl) fun _ => rfl
theorem RoundTrip.srd (f : FmtL) : RoundTrip.Statement (.srd f) :=
  lift _ (round_l 0x23 f (by decide) rfl) fun _ => rfl
theorem RoundTrip.swr (f : FmtL) : RoundTrip.Statement (.swr f) :=
  lift _ (round_l 0x24 f (by decide) rfl) fun _ => rfl
theorem RoundTrip.lpad (label : BitVec 16) : RoundTrip.Statement (.lpad label) :=
  lift _ (fun _ => round_lpad _) fun _ => rfl
theorem RoundTrip.jt (i : BitVec 6) : RoundTrip.Statement (.jt i) :=
  lift _ (round_jt _) fun _ => rfl
theorem RoundTrip.rep (n : BitVec 8) (len : BitVec 4) (stride : BitVec 5) : RoundTrip.Statement (.rep n len stride) :=
  lift _ (fun _ => round_rep _ _ _) fun _ => rfl
theorem RoundTrip.repg (c : BitVec 6) (len : BitVec 4) (stride : BitVec 5) : RoundTrip.Statement (.repg c len stride) :=
  lift _ (round_repg _ _ _) fun _ => rfl
theorem RoundTrip.vaddI32 (f : FmtA) : RoundTrip.Statement (.vaddI32 f) :=
  lift _ (round_a 0x40 0 f (by decide) (by decide) rfl) fun _ => rfl
theorem RoundTrip.vsubI32 (f : FmtA) : RoundTrip.Statement (.vsubI32 f) :=
  lift _ (round_a 0x40 1 f (by decide) (by decide) rfl) fun _ => rfl
theorem RoundTrip.vaddsI32 (f : FmtA) : RoundTrip.Statement (.vaddsI32 f) :=
  lift _ (round_a 0x40 2 f (by decide) (by decide) rfl) fun _ => rfl
theorem RoundTrip.vsubsI32 (f : FmtA) : RoundTrip.Statement (.vsubsI32 f) :=
  lift _ (round_a 0x40 3 f (by decide) (by decide) rfl) fun _ => rfl
theorem RoundTrip.vminI32 (f : FmtA) : RoundTrip.Statement (.vminI32 f) :=
  lift _ (round_a 0x40 4 f (by decide) (by decide) rfl) fun _ => rfl
theorem RoundTrip.vmaxI32 (f : FmtA) : RoundTrip.Statement (.vmaxI32 f) :=
  lift _ (round_a 0x40 5 f (by decide) (by decide) rfl) fun _ => rfl
theorem RoundTrip.vmulI32 (f : FmtA) : RoundTrip.Statement (.vmulI32 f) :=
  lift _ (round_a 0x40 6 f (by decide) (by decide) rfl) fun _ => rfl
theorem RoundTrip.vmulhI32 (f : FmtA) : RoundTrip.Statement (.vmulhI32 f) :=
  lift _ (round_a 0x40 7 f (by decide) (by decide) rfl) fun _ => rfl
theorem RoundTrip.vand (f : FmtA) : RoundTrip.Statement (.vand f) :=
  lift _ (round_a 0x41 0 f (by decide) (by decide) rfl) fun _ => rfl
theorem RoundTrip.vor (f : FmtA) : RoundTrip.Statement (.vor f) :=
  lift _ (round_a 0x41 1 f (by decide) (by decide) rfl) fun _ => rfl
theorem RoundTrip.vxor (f : FmtA) : RoundTrip.Statement (.vxor f) :=
  lift _ (round_a 0x41 2 f (by decide) (by decide) rfl) fun _ => rfl
theorem RoundTrip.vandn (f : FmtA) : RoundTrip.Statement (.vandn f) :=
  lift _ (round_a 0x41 3 f (by decide) (by decide) rfl) fun _ => rfl
theorem RoundTrip.vsll (f : FmtA) : RoundTrip.Statement (.vsll f) :=
  lift _ (round_a 0x41 4 f (by decide) (by decide) rfl) fun _ => rfl
theorem RoundTrip.vsrl (f : FmtA) : RoundTrip.Statement (.vsrl f) :=
  lift _ (round_a 0x41 5 f (by decide) (by decide) rfl) fun _ => rfl
theorem RoundTrip.vsra (f : FmtA) : RoundTrip.Statement (.vsra f) :=
  lift _ (round_a 0x41 6 f (by decide) (by decide) rfl) fun _ => rfl
theorem RoundTrip.vsel (f : FmtA) : RoundTrip.Statement (.vsel f) :=
  lift _ (round_a 0x41 7 f (by decide) (by decide) rfl) fun _ => rfl
theorem RoundTrip.vaddF32 (f : FmtA) : RoundTrip.Statement (.vaddF32 f) :=
  lift _ (round_a 0x42 0 f (by decide) (by decide) rfl) fun _ => rfl
theorem RoundTrip.vsubF32 (f : FmtA) : RoundTrip.Statement (.vsubF32 f) :=
  lift _ (round_a 0x42 1 f (by decide) (by decide) rfl) fun _ => rfl
theorem RoundTrip.vmulF32 (f : FmtA) : RoundTrip.Statement (.vmulF32 f) :=
  lift _ (round_a 0x42 2 f (by decide) (by decide) rfl) fun _ => rfl
theorem RoundTrip.vfmaF32 (f : FmtA) : RoundTrip.Statement (.vfmaF32 f) :=
  lift _ (round_a 0x42 3 f (by decide) (by decide) rfl) fun _ => rfl
theorem RoundTrip.vfmsF32 (f : FmtA) : RoundTrip.Statement (.vfmsF32 f) :=
  lift _ (round_a 0x42 4 f (by decide) (by decide) rfl) fun _ => rfl
theorem RoundTrip.vminF32 (f : FmtA) : RoundTrip.Statement (.vminF32 f) :=
  lift _ (round_a 0x42 5 f (by decide) (by decide) rfl) fun _ => rfl
theorem RoundTrip.vmaxF32 (f : FmtA) : RoundTrip.Statement (.vmaxF32 f) :=
  lift _ (round_a 0x42 6 f (by decide) (by decide) rfl) fun _ => rfl
theorem RoundTrip.vdivF32 (f : FmtA) : RoundTrip.Statement (.vdivF32 f) :=
  lift _ (round_a 0x42 7 f (by decide) (by decide) rfl) fun _ => rfl
theorem RoundTrip.vaddF64 (f : FmtA) : RoundTrip.Statement (.vaddF64 f) :=
  lift _ (round_a 0x43 0 f (by decide) (by decide) rfl) fun _ => rfl
theorem RoundTrip.vsubF64 (f : FmtA) : RoundTrip.Statement (.vsubF64 f) :=
  lift _ (round_a 0x43 1 f (by decide) (by decide) rfl) fun _ => rfl
theorem RoundTrip.vmulF64 (f : FmtA) : RoundTrip.Statement (.vmulF64 f) :=
  lift _ (round_a 0x43 2 f (by decide) (by decide) rfl) fun _ => rfl
theorem RoundTrip.vfmaF64 (f : FmtA) : RoundTrip.Statement (.vfmaF64 f) :=
  lift _ (round_a 0x43 3 f (by decide) (by decide) rfl) fun _ => rfl
theorem RoundTrip.vfmsF64 (f : FmtA) : RoundTrip.Statement (.vfmsF64 f) :=
  lift _ (round_a 0x43 4 f (by decide) (by decide) rfl) fun _ => rfl
theorem RoundTrip.vminF64 (f : FmtA) : RoundTrip.Statement (.vminF64 f) :=
  lift _ (round_a 0x43 5 f (by decide) (by decide) rfl) fun _ => rfl
theorem RoundTrip.vmaxF64 (f : FmtA) : RoundTrip.Statement (.vmaxF64 f) :=
  lift _ (round_a 0x43 6 f (by decide) (by decide) rfl) fun _ => rfl
theorem RoundTrip.vdivF64 (f : FmtA) : RoundTrip.Statement (.vdivF64 f) :=
  lift _ (round_a 0x43 7 f (by decide) (by decide) rfl) fun _ => rfl
theorem RoundTrip.vceqF32 (f : FmtA) : RoundTrip.Statement (.vceqF32 f) :=
  lift _ (round_a 0x44 0 f (by decide) (by decide) rfl) fun _ => rfl
theorem RoundTrip.vcltF32 (f : FmtA) : RoundTrip.Statement (.vcltF32 f) :=
  lift _ (round_a 0x44 1 f (by decide) (by decide) rfl) fun _ => rfl
theorem RoundTrip.vcleF32 (f : FmtA) : RoundTrip.Statement (.vcleF32 f) :=
  lift _ (round_a 0x44 2 f (by decide) (by decide) rfl) fun _ => rfl
theorem RoundTrip.vcunF32 (f : FmtA) : RoundTrip.Statement (.vcunF32 f) :=
  lift _ (round_a 0x44 3 f (by decide) (by decide) rfl) fun _ => rfl
theorem RoundTrip.vceqI32 (f : FmtA) : RoundTrip.Statement (.vceqI32 f) :=
  lift _ (round_a 0x44 4 f (by decide) (by decide) rfl) fun _ => rfl
theorem RoundTrip.vcltI32 (f : FmtA) : RoundTrip.Statement (.vcltI32 f) :=
  lift _ (round_a 0x44 5 f (by decide) (by decide) rfl) fun _ => rfl
theorem RoundTrip.vcltuI32 (f : FmtA) : RoundTrip.Statement (.vcltuI32 f) :=
  lift _ (round_a 0x44 6 f (by decide) (by decide) rfl) fun _ => rfl
theorem RoundTrip.vcleI32 (f : FmtA) : RoundTrip.Statement (.vcleI32 f) :=
  lift _ (round_a 0x44 7 f (by decide) (by decide) rfl) fun _ => rfl
theorem RoundTrip.mand (f : FmtA) : RoundTrip.Statement (.mand f) :=
  lift _ (round_a 0x45 0 f (by decide) (by decide) rfl) fun _ => rfl
theorem RoundTrip.mor (f : FmtA) : RoundTrip.Statement (.mor f) :=
  lift _ (round_a 0x45 1 f (by decide) (by decide) rfl) fun _ => rfl
theorem RoundTrip.mxor (f : FmtA) : RoundTrip.Statement (.mxor f) :=
  lift _ (round_a 0x45 2 f (by decide) (by decide) rfl) fun _ => rfl
theorem RoundTrip.mandn (f : FmtA) : RoundTrip.Statement (.mandn f) :=
  lift _ (round_a 0x45 3 f (by decide) (by decide) rfl) fun _ => rfl
theorem RoundTrip.mpop (f : FmtA) : RoundTrip.Statement (.mpop f) :=
  lift _ (round_a 0x45 4 f (by decide) (by decide) rfl) fun _ => rfl
theorem RoundTrip.mffs (f : FmtA) : RoundTrip.Statement (.mffs f) :=
  lift _ (round_a 0x45 5 f (by decide) (by decide) rfl) fun _ => rfl
theorem RoundTrip.mset (f : FmtA) : RoundTrip.Statement (.mset f) :=
  lift _ (round_a 0x45 6 f (by decide) (by decide) rfl) fun _ => rfl
theorem RoundTrip.mget (f : FmtA) : RoundTrip.Statement (.mget f) :=
  lift _ (round_a 0x45 7 f (by decide) (by decide) rfl) fun _ => rfl
theorem RoundTrip.vperm (f : FmtA) : RoundTrip.Statement (.vperm f) :=
  lift _ (round_a 0x46 0 f (by decide) (by decide) rfl) fun _ => rfl
theorem RoundTrip.vshuf (f : FmtA) : RoundTrip.Statement (.vshuf f) :=
  lift _ (round_a 0x46 1 f (by decide) (by decide) rfl) fun _ => rfl
theorem RoundTrip.vrsumF32 (f : FmtA) : RoundTrip.Statement (.vrsumF32 f) :=
  lift _ (round_a 0x47 0 f (by decide) (by decide) rfl) fun _ => rfl
theorem RoundTrip.vrmaxF32 (f : FmtA) : RoundTrip.Statement (.vrmaxF32 f) :=
  lift _ (round_a 0x47 1 f (by decide) (by decide) rfl) fun _ => rfl
theorem RoundTrip.vrminF32 (f : FmtA) : RoundTrip.Statement (.vrminF32 f) :=
  lift _ (round_a 0x47 2 f (by decide) (by decide) rfl) fun _ => rfl
theorem RoundTrip.vrsumF64 (f : FmtA) : RoundTrip.Statement (.vrsumF64 f) :=
  lift _ (round_a 0x47 3 f (by decide) (by decide) rfl) fun _ => rfl
theorem RoundTrip.vrsumI32 (f : FmtA) : RoundTrip.Statement (.vrsumI32 f) :=
  lift _ (round_a 0x47 4 f (by decide) (by decide) rfl) fun _ => rfl
theorem RoundTrip.vrmaxI32 (f : FmtA) : RoundTrip.Statement (.vrmaxI32 f) :=
  lift _ (round_a 0x47 5 f (by decide) (by decide) rfl) fun _ => rfl
theorem RoundTrip.vrminI32 (f : FmtA) : RoundTrip.Statement (.vrminI32 f) :=
  lift _ (round_a 0x47 6 f (by decide) (by decide) rfl) fun _ => rfl
theorem RoundTrip.vmov (f : FmtA) : RoundTrip.Statement (.vmov f) :=
  lift _ (round_a 0x48 0 f (by decide) (by decide) rfl) fun _ => rfl
theorem RoundTrip.vxget (f : FmtA) : RoundTrip.Statement (.vxget f) :=
  lift _ (round_a 0x48 1 f (by decide) (by decide) rfl) fun _ => rfl
theorem RoundTrip.vxput (f : FmtA) : RoundTrip.Statement (.vxput f) :=
  lift _ (round_a 0x48 2 f (by decide) (by decide) rfl) fun _ => rfl
theorem RoundTrip.vins (f : FmtA) : RoundTrip.Statement (.vins f) :=
  lift _ (round_a 0x48 3 f (by decide) (by decide) rfl) fun _ => rfl
theorem RoundTrip.vext (f : FmtA) : RoundTrip.Statement (.vext f) :=
  lift _ (round_a 0x48 4 f (by decide) (by decide) rfl) fun _ => rfl
theorem RoundTrip.vbcast (f : FmtA) : RoundTrip.Statement (.vbcast f) :=
  lift _ (round_a 0x48 5 f (by decide) (by decide) rfl) fun _ => rfl
theorem RoundTrip.vcvtF32I32 (f : FmtA) : RoundTrip.Statement (.vcvtF32I32 f) :=
  lift _ (round_a 0x49 0 f (by decide) (by decide) rfl) fun _ => rfl
theorem RoundTrip.vcvtI32F32 (f : FmtA) : RoundTrip.Statement (.vcvtI32F32 f) :=
  lift _ (round_a 0x49 1 f (by decide) (by decide) rfl) fun _ => rfl
theorem RoundTrip.vcvtF64F32 (f : FmtA) : RoundTrip.Statement (.vcvtF64F32 f) :=
  lift _ (round_a 0x49 2 f (by decide) (by decide) rfl) fun _ => rfl
theorem RoundTrip.vcvtF32F64 (f : FmtA) : RoundTrip.Statement (.vcvtF32F64 f) :=
  lift _ (round_a 0x49 3 f (by decide) (by decide) rfl) fun _ => rfl
theorem RoundTrip.vcvtBf16F32 (f : FmtA) : RoundTrip.Statement (.vcvtBf16F32 f) :=
  lift _ (round_a 0x49 4 f (by decide) (by decide) rfl) fun _ => rfl
theorem RoundTrip.vcvtF32Bf16 (f : FmtA) : RoundTrip.Statement (.vcvtF32Bf16 f) :=
  lift _ (round_a 0x49 5 f (by decide) (by decide) rfl) fun _ => rfl
theorem RoundTrip.vcvtF16F32 (f : FmtA) : RoundTrip.Statement (.vcvtF16F32 f) :=
  lift _ (round_a 0x49 6 f (by decide) (by decide) rfl) fun _ => rfl
theorem RoundTrip.vcvtF32F16 (f : FmtA) : RoundTrip.Statement (.vcvtF32F16 f) :=
  lift _ (round_a 0x49 7 f (by decide) (by decide) rfl) fun _ => rfl
theorem RoundTrip.vpkSx2 (f : FmtA) : RoundTrip.Statement (.vpkSx2 f) :=
  lift _ (round_a 0x4A 0 f (by decide) (by decide) rfl) fun _ => rfl
theorem RoundTrip.vpkSx4 (f : FmtA) : RoundTrip.Statement (.vpkSx4 f) :=
  lift _ (round_a 0x4A 1 f (by decide) (by decide) rfl) fun _ => rfl
theorem RoundTrip.vpkSx7 (f : FmtA) : RoundTrip.Statement (.vpkSx7 f) :=
  lift _ (round_a 0x4A 2 f (by decide) (by decide) rfl) fun _ => rfl
theorem RoundTrip.vupkSx2 (f : FmtA) : RoundTrip.Statement (.vupkSx2 f) :=
  lift _ (round_a 0x4A 4 f (by decide) (by decide) rfl) fun _ => rfl
theorem RoundTrip.vupkSx4 (f : FmtA) : RoundTrip.Statement (.vupkSx4 f) :=
  lift _ (round_a 0x4A 5 f (by decide) (by decide) rfl) fun _ => rfl
theorem RoundTrip.vupkSx7 (f : FmtA) : RoundTrip.Statement (.vupkSx7 f) :=
  lift _ (round_a 0x4A 6 f (by decide) (by decide) rfl) fun _ => rfl
theorem RoundTrip.vexp2 (f : FmtA) : RoundTrip.Statement (.vexp2 f) :=
  lift _ (round_a 0x4B 0 f (by decide) (by decide) rfl) fun _ => rfl
theorem RoundTrip.vrcp (f : FmtA) : RoundTrip.Statement (.vrcp f) :=
  lift _ (round_a 0x4B 1 f (by decide) (by decide) rfl) fun _ => rfl
theorem RoundTrip.vrsqrt (f : FmtA) : RoundTrip.Statement (.vrsqrt f) :=
  lift _ (round_a 0x4B 2 f (by decide) (by decide) rfl) fun _ => rfl
theorem RoundTrip.vlog2 (f : FmtA) : RoundTrip.Statement (.vlog2 f) :=
  lift _ (round_a 0x4B 3 f (by decide) (by decide) rfl) fun _ => rfl
theorem RoundTrip.tcfg (f : FmtT) : RoundTrip.Statement (.tcfg f) :=
  lift _ (round_t 0x60 0 f (by decide) (by decide) rfl) fun _ => rfl
theorem RoundTrip.trowin (f : FmtT) : RoundTrip.Statement (.trowin f) :=
  lift _ (round_t 0x60 1 f (by decide) (by decide) rfl) fun _ => rfl
theorem RoundTrip.trowout (f : FmtT) : RoundTrip.Statement (.trowout f) :=
  lift _ (round_t 0x60 2 f (by decide) (by decide) rfl) fun _ => rfl
theorem RoundTrip.tcolin (f : FmtT) : RoundTrip.Statement (.tcolin f) :=
  lift _ (round_t 0x60 3 f (by decide) (by decide) rfl) fun _ => rfl
theorem RoundTrip.tcolout (f : FmtT) : RoundTrip.Statement (.tcolout f) :=
  lift _ (round_t 0x60 4 f (by decide) (by decide) rfl) fun _ => rfl
theorem RoundTrip.tzero (f : FmtT) : RoundTrip.Statement (.tzero f) :=
  lift _ (round_t 0x60 5 f (by decide) (by decide) rfl) fun _ => rfl
theorem RoundTrip.tfree (f : FmtT) : RoundTrip.Statement (.tfree f) :=
  lift _ (round_t 0x60 6 f (by decide) (by decide) rfl) fun _ => rfl
theorem RoundTrip.tld (f : FmtT) : RoundTrip.Statement (.tld f) :=
  lift _ (round_t 0x61 0 f (by decide) (by decide) rfl) fun _ => rfl
theorem RoundTrip.tst (f : FmtT) : RoundTrip.Statement (.tst f) :=
  lift _ (round_t 0x61 1 f (by decide) (by decide) rfl) fun _ => rfl
theorem RoundTrip.tmmaBf16 (f : FmtT) : RoundTrip.Statement (.tmmaBf16 f) :=
  lift _ (round_t 0x62 0 f (by decide) (by decide) rfl) fun _ => rfl
theorem RoundTrip.tmmaSx7 (f : FmtT) : RoundTrip.Statement (.tmmaSx7 f) :=
  lift _ (round_t 0x62 1 f (by decide) (by decide) rfl) fun _ => rfl
theorem RoundTrip.tmmaSx4 (f : FmtT) : RoundTrip.Statement (.tmmaSx4 f) :=
  lift _ (round_t 0x62 2 f (by decide) (by decide) rfl) fun _ => rfl
theorem RoundTrip.tmmaSx2 (f : FmtT) : RoundTrip.Statement (.tmmaSx2 f) :=
  lift _ (round_t 0x62 3 f (by decide) (by decide) rfl) fun _ => rfl
theorem RoundTrip.gissueBf16 (f : FmtT) : RoundTrip.Statement (.gissueBf16 f) :=
  lift _ (round_t 0x63 0 f (by decide) (by decide) rfl) fun _ => rfl
theorem RoundTrip.gissueSx7 (f : FmtT) : RoundTrip.Statement (.gissueSx7 f) :=
  lift _ (round_t 0x63 1 f (by decide) (by decide) rfl) fun _ => rfl
theorem RoundTrip.gissueSx4 (f : FmtT) : RoundTrip.Statement (.gissueSx4 f) :=
  lift _ (round_t 0x63 2 f (by decide) (by decide) rfl) fun _ => rfl
theorem RoundTrip.gissueSx2 (f : FmtT) : RoundTrip.Statement (.gissueSx2 f) :=
  lift _ (round_t 0x63 3 f (by decide) (by decide) rfl) fun _ => rfl
theorem RoundTrip.taccrd (f : FmtT) : RoundTrip.Statement (.taccrd f) :=
  lift _ (round_t 0x64 0 f (by decide) (by decide) rfl) fun _ => rfl
theorem RoundTrip.taccwr (f : FmtT) : RoundTrip.Statement (.taccwr f) :=
  lift _ (round_t 0x64 1 f (by decide) (by decide) rfl) fun _ => rfl
theorem RoundTrip.tacczero (f : FmtT) : RoundTrip.Statement (.tacczero f) :=
  lift _ (round_t 0x64 2 f (by decide) (by decide) rfl) fun _ => rfl
theorem RoundTrip.ldI8 (f : FmtM) : RoundTrip.Statement (.ldI8 f) :=
  lift _ (round_m 0x70 0 f (by decide) (by decide) rfl) fun _ => rfl
theorem RoundTrip.ldN8 (f : FmtM) : RoundTrip.Statement (.ldN8 f) :=
  lift _ (round_m 0x70 1 f (by decide) (by decide) rfl) fun _ => rfl
theorem RoundTrip.ldI16 (f : FmtM) : RoundTrip.Statement (.ldI16 f) :=
  lift _ (round_m 0x70 2 f (by decide) (by decide) rfl) fun _ => rfl
theorem RoundTrip.ldN16 (f : FmtM) : RoundTrip.Statement (.ldN16 f) :=
  lift _ (round_m 0x70 3 f (by decide) (by decide) rfl) fun _ => rfl
theorem RoundTrip.ldI32 (f : FmtM) : RoundTrip.Statement (.ldI32 f) :=
  lift _ (round_m 0x70 4 f (by decide) (by decide) rfl) fun _ => rfl
theorem RoundTrip.ldN32 (f : FmtM) : RoundTrip.Statement (.ldN32 f) :=
  lift _ (round_m 0x70 5 f (by decide) (by decide) rfl) fun _ => rfl
theorem RoundTrip.ld64 (f : FmtM) : RoundTrip.Statement (.ld64 f) :=
  lift _ (round_m 0x70 6 f (by decide) (by decide) rfl) fun _ => rfl
theorem RoundTrip.st8 (f : FmtM) : RoundTrip.Statement (.st8 f) :=
  lift _ (round_m 0x71 0 f (by decide) (by decide) rfl) fun _ => rfl
theorem RoundTrip.st16 (f : FmtM) : RoundTrip.Statement (.st16 f) :=
  lift _ (round_m 0x71 1 f (by decide) (by decide) rfl) fun _ => rfl
theorem RoundTrip.st32 (f : FmtM) : RoundTrip.Statement (.st32 f) :=
  lift _ (round_m 0x71 2 f (by decide) (by decide) rfl) fun _ => rfl
theorem RoundTrip.st64 (f : FmtM) : RoundTrip.Statement (.st64 f) :=
  lift _ (round_m 0x71 3 f (by decide) (by decide) rfl) fun _ => rfl
theorem RoundTrip.vld (f : FmtM) : RoundTrip.Statement (.vld f) :=
  lift _ (round_m 0x72 0 f (by decide) (by decide) rfl) fun _ => rfl
theorem RoundTrip.vst (f : FmtM) : RoundTrip.Statement (.vst f) :=
  lift _ (round_m 0x72 1 f (by decide) (by decide) rfl) fun _ => rfl
theorem RoundTrip.vldm (f : FmtM) : RoundTrip.Statement (.vldm f) :=
  lift _ (round_m 0x72 2 f (by decide) (by decide) rfl) fun _ => rfl
theorem RoundTrip.vstm (f : FmtM) : RoundTrip.Statement (.vstm f) :=
  lift _ (round_m 0x72 3 f (by decide) (by decide) rfl) fun _ => rfl
theorem RoundTrip.vlds (f : FmtA) : RoundTrip.Statement (.vlds f) :=
  lift _ (round_a 0x73 0 f (by decide) (by decide) rfl) fun _ => rfl
theorem RoundTrip.vsts (f : FmtA) : RoundTrip.Statement (.vsts f) :=
  lift _ (round_a 0x73 1 f (by decide) (by decide) rfl) fun _ => rfl
theorem RoundTrip.vgath (f : FmtA) : RoundTrip.Statement (.vgath f) :=
  lift _ (round_a 0x73 2 f (by decide) (by decide) rfl) fun _ => rfl
theorem RoundTrip.vscat (f : FmtA) : RoundTrip.Statement (.vscat f) :=
  lift _ (round_a 0x73 3 f (by decide) (by decide) rfl) fun _ => rfl
theorem RoundTrip.pref (f : FmtM) : RoundTrip.Statement (.pref f) :=
  lift _ (round_m 0x74 0 f (by decide) (by decide) rfl) fun _ => rfl
theorem RoundTrip.migrate (f : FmtM) : RoundTrip.Statement (.migrate f) :=
  lift _ (round_m 0x75 0 f (by decide) (by decide) rfl) fun _ => rfl
theorem RoundTrip.mapr (f : FmtM) : RoundTrip.Statement (.mapr f) :=
  lift _ (round_m 0x76 0 f (by decide) (by decide) rfl) fun _ => rfl
theorem RoundTrip.unmapr (f : FmtM) : RoundTrip.Statement (.unmapr f) :=
  lift _ (round_m 0x76 1 f (by decide) (by decide) rfl) fun _ => rfl
theorem RoundTrip.fence (f : FmtL) : RoundTrip.Statement (.fence f) :=
  lift _ (round_l 0x77 f (by decide) rfl) fun _ => rfl
theorem RoundTrip.lda32 (f : FmtM) : RoundTrip.Statement (.lda32 f) :=
  lift _ (round_m 0x78 0 f (by decide) (by decide) rfl) fun _ => rfl
theorem RoundTrip.lda64 (f : FmtM) : RoundTrip.Statement (.lda64 f) :=
  lift _ (round_m 0x78 1 f (by decide) (by decide) rfl) fun _ => rfl
theorem RoundTrip.stl32 (f : FmtM) : RoundTrip.Statement (.stl32 f) :=
  lift _ (round_m 0x78 2 f (by decide) (by decide) rfl) fun _ => rfl
theorem RoundTrip.stl64 (f : FmtM) : RoundTrip.Statement (.stl64 f) :=
  lift _ (round_m 0x78 3 f (by decide) (by decide) rfl) fun _ => rfl
theorem RoundTrip.amoadd64 (f : FmtM) : RoundTrip.Statement (.amoadd64 f) :=
  lift _ (round_m 0x80 0 f (by decide) (by decide) rfl) fun _ => rfl
theorem RoundTrip.amoand64 (f : FmtM) : RoundTrip.Statement (.amoand64 f) :=
  lift _ (round_m 0x80 1 f (by decide) (by decide) rfl) fun _ => rfl
theorem RoundTrip.amoor64 (f : FmtM) : RoundTrip.Statement (.amoor64 f) :=
  lift _ (round_m 0x80 2 f (by decide) (by decide) rfl) fun _ => rfl
theorem RoundTrip.amoxor64 (f : FmtM) : RoundTrip.Statement (.amoxor64 f) :=
  lift _ (round_m 0x80 3 f (by decide) (by decide) rfl) fun _ => rfl
theorem RoundTrip.amomin64 (f : FmtM) : RoundTrip.Statement (.amomin64 f) :=
  lift _ (round_m 0x80 4 f (by decide) (by decide) rfl) fun _ => rfl
theorem RoundTrip.amomax64 (f : FmtM) : RoundTrip.Statement (.amomax64 f) :=
  lift _ (round_m 0x80 5 f (by decide) (by decide) rfl) fun _ => rfl
theorem RoundTrip.amoswap64 (f : FmtM) : RoundTrip.Statement (.amoswap64 f) :=
  lift _ (round_m 0x80 6 f (by decide) (by decide) rfl) fun _ => rfl
theorem RoundTrip.amocas64 (f : FmtM) : RoundTrip.Statement (.amocas64 f) :=
  lift _ (round_m 0x80 7 f (by decide) (by decide) rfl) fun _ => rfl
theorem RoundTrip.amoadd32 (f : FmtM) : RoundTrip.Statement (.amoadd32 f) :=
  lift _ (round_m 0x81 0 f (by decide) (by decide) rfl) fun _ => rfl
theorem RoundTrip.amoand32 (f : FmtM) : RoundTrip.Statement (.amoand32 f) :=
  lift _ (round_m 0x81 1 f (by decide) (by decide) rfl) fun _ => rfl
theorem RoundTrip.amoor32 (f : FmtM) : RoundTrip.Statement (.amoor32 f) :=
  lift _ (round_m 0x81 2 f (by decide) (by decide) rfl) fun _ => rfl
theorem RoundTrip.amoxor32 (f : FmtM) : RoundTrip.Statement (.amoxor32 f) :=
  lift _ (round_m 0x81 3 f (by decide) (by decide) rfl) fun _ => rfl
theorem RoundTrip.amomin32 (f : FmtM) : RoundTrip.Statement (.amomin32 f) :=
  lift _ (round_m 0x81 4 f (by decide) (by decide) rfl) fun _ => rfl
theorem RoundTrip.amomax32 (f : FmtM) : RoundTrip.Statement (.amomax32 f) :=
  lift _ (round_m 0x81 5 f (by decide) (by decide) rfl) fun _ => rfl
theorem RoundTrip.amoswap32 (f : FmtM) : RoundTrip.Statement (.amoswap32 f) :=
  lift _ (round_m 0x81 6 f (by decide) (by decide) rfl) fun _ => rfl
theorem RoundTrip.amocas32 (f : FmtM) : RoundTrip.Statement (.amocas32 f) :=
  lift _ (round_m 0x81 7 f (by decide) (by decide) rfl) fun _ => rfl
theorem RoundTrip.vamoAdd (f : FmtA) : RoundTrip.Statement (.vamoAdd f) :=
  lift _ (round_a 0x82 0 f (by decide) (by decide) rfl) fun _ => rfl
theorem RoundTrip.vamoAnd (f : FmtA) : RoundTrip.Statement (.vamoAnd f) :=
  lift _ (round_a 0x82 1 f (by decide) (by decide) rfl) fun _ => rfl
theorem RoundTrip.vamoOr (f : FmtA) : RoundTrip.Statement (.vamoOr f) :=
  lift _ (round_a 0x82 2 f (by decide) (by decide) rfl) fun _ => rfl
theorem RoundTrip.vamoXor (f : FmtA) : RoundTrip.Statement (.vamoXor f) :=
  lift _ (round_a 0x82 3 f (by decide) (by decide) rfl) fun _ => rfl
theorem RoundTrip.vamoMin (f : FmtA) : RoundTrip.Statement (.vamoMin f) :=
  lift _ (round_a 0x82 4 f (by decide) (by decide) rfl) fun _ => rfl
theorem RoundTrip.vamoMax (f : FmtA) : RoundTrip.Statement (.vamoMax f) :=
  lift _ (round_a 0x82 5 f (by decide) (by decide) rfl) fun _ => rfl
theorem RoundTrip.vamoFadd (f : FmtA) : RoundTrip.Statement (.vamoFadd f) :=
  lift _ (round_a 0x82 6 f (by decide) (by decide) rfl) fun _ => rfl
theorem RoundTrip.cpy (f : FmtA) : RoundTrip.Statement (.cpy f) :=
  lift _ (round_a 0x88 0 f (by decide) (by decide) rfl) fun _ => rfl
theorem RoundTrip.cpym (f : FmtA) : RoundTrip.Statement (.cpym f) :=
  lift _ (round_a 0x88 1 f (by decide) (by decide) rfl) fun _ => rfl
theorem RoundTrip.cpyf (f : FmtA) : RoundTrip.Statement (.cpyf f) :=
  lift _ (round_a 0x88 2 f (by decide) (by decide) rfl) fun _ => rfl
theorem RoundTrip.propose (f : FmtM) : RoundTrip.Statement (.propose f) :=
  lift _ (round_m 0x90 0 f (by decide) (by decide) rfl) fun _ => rfl
theorem RoundTrip.dread (f : FmtM) : RoundTrip.Statement (.dread f) :=
  lift _ (round_m 0x90 1 f (by decide) (by decide) rfl) fun _ => rfl
theorem RoundTrip.dretire (f : FmtM) : RoundTrip.Statement (.dretire f) :=
  lift _ (round_m 0x90 2 f (by decide) (by decide) rfl) fun _ => rfl
theorem RoundTrip.dinit (f : FmtM) : RoundTrip.Statement (.dinit f) :=
  lift _ (round_m 0x90 3 f (by decide) (by decide) rfl) fun _ => rfl
theorem RoundTrip.fcfg (f : FmtA) : RoundTrip.Statement (.fcfg f) :=
  lift _ (round_a 0x91 0 f (by decide) (by decide) rfl) fun _ => rfl
theorem RoundTrip.fstart (f : FmtA) : RoundTrip.Statement (.fstart f) :=
  lift _ (round_a 0x91 1 f (by decide) (by decide) rfl) fun _ => rfl
theorem RoundTrip.fstop (f : FmtA) : RoundTrip.Statement (.fstop f) :=
  lift _ (round_a 0x91 2 f (by decide) (by decide) rfl) fun _ => rfl
theorem RoundTrip.fstat (f : FmtA) : RoundTrip.Statement (.fstat f) :=
  lift _ (round_a 0x91 3 f (by decide) (by decide) rfl) fun _ => rfl
theorem RoundTrip.spawn (f : FmtA) : RoundTrip.Statement (.spawn f) :=
  lift _ (round_a 0x92 0 f (by decide) (by decide) rfl) fun _ => rfl
theorem RoundTrip.send (f : FmtA) : RoundTrip.Statement (.send f) :=
  lift _ (round_a 0x92 1 f (by decide) (by decide) rfl) fun _ => rfl
theorem RoundTrip.recv (f : FmtA) : RoundTrip.Statement (.recv f) :=
  lift _ (round_a 0x92 2 f (by decide) (by decide) rfl) fun _ => rfl
theorem RoundTrip.msgwait (f : FmtA) : RoundTrip.Statement (.msgwait f) :=
  lift _ (round_a 0x92 3 f (by decide) (by decide) rfl) fun _ => rfl
theorem RoundTrip.fork (f : FmtA) : RoundTrip.Statement (.fork f) :=
  lift _ (round_a 0x92 4 f (by decide) (by decide) rfl) fun _ => rfl
theorem RoundTrip.rdv (f : FmtA) : RoundTrip.Statement (.rdv f) :=
  lift _ (round_a 0x92 5 f (by decide) (by decide) rfl) fun _ => rfl
theorem RoundTrip.glaunch (f : FmtA) : RoundTrip.Statement (.glaunch f) :=
  lift _ (round_a 0x92 6 f (by decide) (by decide) rfl) fun _ => rfl
theorem RoundTrip.nred (f : FmtA) : RoundTrip.Statement (.nred f) :=
  lift _ (round_a 0x92 7 f (by decide) (by decide) rfl) fun _ => rfl
theorem RoundTrip.dep (f : FmtA) : RoundTrip.Statement (.dep f) :=
  lift _ (round_a 0x93 0 f (by decide) (by decide) rfl) fun _ => rfl
theorem RoundTrip.mbclr (f : FmtA) : RoundTrip.Statement (.mbclr f) :=
  lift _ (round_a 0x93 1 f (by decide) (by decide) rfl) fun _ => rfl
theorem RoundTrip.arrive (f : FmtA) : RoundTrip.Statement (.arrive f) :=
  lift _ (round_a 0x94 0 f (by decide) (by decide) rfl) fun _ => rfl
theorem RoundTrip.arrw (f : FmtA) : RoundTrip.Statement (.arrw f) :=
  lift _ (round_a 0x94 1 f (by decide) (by decide) rfl) fun _ => rfl
theorem RoundTrip.waitb (f : FmtA) : RoundTrip.Statement (.waitb f) :=
  lift _ (round_a 0x94 2 f (by decide) (by decide) rfl) fun _ => rfl
theorem RoundTrip.join (f : FmtA) : RoundTrip.Statement (.join f) :=
  lift _ (round_a 0x94 3 f (by decide) (by decide) rfl) fun _ => rfl
theorem RoundTrip.leave (f : FmtA) : RoundTrip.Statement (.leave f) :=
  lift _ (round_a 0x94 4 f (by decide) (by decide) rfl) fun _ => rfl
theorem RoundTrip.dswait (f : FmtA) : RoundTrip.Statement (.dswait f) :=
  lift _ (round_a 0x94 5 f (by decide) (by decide) rfl) fun _ => rfl
theorem RoundTrip.dsset (f : FmtA) : RoundTrip.Statement (.dsset f) :=
  lift _ (round_a 0x94 6 f (by decide) (by decide) rfl) fun _ => rfl
theorem RoundTrip.cntrd (f : FmtA) : RoundTrip.Statement (.cntrd f) :=
  lift _ (round_a 0x95 0 f (by decide) (by decide) rfl) fun _ => rfl
theorem RoundTrip.cntadd (f : FmtA) : RoundTrip.Statement (.cntadd f) :=
  lift _ (round_a 0x95 1 f (by decide) (by decide) rfl) fun _ => rfl
theorem RoundTrip.rlaunch (f : FmtA) : RoundTrip.Statement (.rlaunch f) :=
  lift _ (round_a 0x96 0 f (by decide) (by decide) rfl) fun _ => rfl
theorem RoundTrip.rstat (f : FmtA) : RoundTrip.Statement (.rstat f) :=
  lift _ (round_a 0x96 1 f (by decide) (by decide) rfl) fun _ => rfl
theorem RoundTrip.powerOnReset (cube : Nat) (b : BootFlash) : RoundTrip.Statement (.powerOnReset cube b) :=
  event_trip _ rfl
theorem RoundTrip.linkTraining (cube link lanes partner : Nat) (ignore : List IgnoreEntry) :
    RoundTrip.Statement (.linkTraining cube link lanes partner ignore) :=
  event_trip _ rfl
theorem RoundTrip.flitReplay (cube link : Nat) : RoundTrip.Statement (.flitReplay cube link) :=
  event_trip _ rfl
theorem RoundTrip.linkDown (cube link : Nat) : RoundTrip.Statement (.linkDown cube link) :=
  event_trip _ rfl
theorem RoundTrip.packetHop (num dir : Nat) : RoundTrip.Statement (.packetHop num dir) :=
  event_trip _ rfl
theorem RoundTrip.taskPacket (num : Nat) : RoundTrip.Statement (.taskPacket num) :=
  event_trip _ rfl
theorem RoundTrip.pifoAdmission (cube : Nat) : RoundTrip.Statement (.pifoAdmission cube) :=
  event_trip _ rfl
theorem RoundTrip.dispatch (cube h0 k0 : Nat) : RoundTrip.Statement (.dispatch cube h0 k0) :=
  event_trip _ rfl
theorem RoundTrip.nodeCompletion (cube : Nat) : RoundTrip.Statement (.nodeCompletion cube) :=
  event_trip _ rfl
theorem RoundTrip.quantumExpiry (core : Nat) : RoundTrip.Statement (.quantumExpiry core) :=
  event_trip _ rfl
theorem RoundTrip.contextReturn (tid core : Nat) : RoundTrip.Statement (.contextReturn tid core) :=
  event_trip _ rfl
theorem RoundTrip.migrationContext (num : Nat) : RoundTrip.Statement (.migrationContext num) :=
  event_trip _ rfl
theorem RoundTrip.migrateRetry (core : Nat) : RoundTrip.Statement (.migrateRetry core) :=
  event_trip _ rfl
theorem RoundTrip.replyWithData (num : Nat) : RoundTrip.Statement (.replyWithData num) :=
  event_trip _ rfl
theorem RoundTrip.acknowledgement (num : Nat) : RoundTrip.Statement (.acknowledgement num) :=
  event_trip _ rfl
theorem RoundTrip.nack (num : Nat) : RoundTrip.Statement (.nack num) :=
  event_trip _ rfl
theorem RoundTrip.admissionReply (num : Nat) : RoundTrip.Statement (.admissionReply num) :=
  event_trip _ rfl
theorem RoundTrip.retryTimeout (num : Nat) : RoundTrip.Statement (.retryTimeout num) :=
  event_trip _ rfl
theorem RoundTrip.read (num : Nat) (ecc : Bool) : RoundTrip.Statement (.read num ecc) :=
  event_trip _ rfl
theorem RoundTrip.write (num : Nat) (ecc : Bool) : RoundTrip.Statement (.write num ecc) :=
  event_trip _ rfl
theorem RoundTrip.atomic (num : Nat) : RoundTrip.Statement (.atomic num) :=
  event_trip _ rfl
theorem RoundTrip.decideOnceRequest (num : Nat) : RoundTrip.Statement (.decideOnceRequest num) :=
  event_trip _ rfl
theorem RoundTrip.ownershipRequest (num : Nat) : RoundTrip.Statement (.ownershipRequest num) :=
  event_trip _ rfl
theorem RoundTrip.ownershipRelease (num : Nat) : RoundTrip.Statement (.ownershipRelease num) :=
  event_trip _ rfl
theorem RoundTrip.ownershipGrant (num : Nat) : RoundTrip.Statement (.ownershipGrant num) :=
  event_trip _ rfl
theorem RoundTrip.correctedError (cube kind : Nat) : RoundTrip.Statement (.correctedError cube kind) :=
  event_trip _ rfl
theorem RoundTrip.deposit (num : Nat) : RoundTrip.Statement (.deposit num) :=
  event_trip _ rfl
theorem RoundTrip.message (num : Nat) : RoundTrip.Statement (.message num) :=
  event_trip _ rfl
theorem RoundTrip.multicastData (num : Nat) : RoundTrip.Statement (.multicastData num) :=
  event_trip _ rfl
theorem RoundTrip.reductionContribution (num : Nat) : RoundTrip.Statement (.reductionContribution num) :=
  event_trip _ rfl
theorem RoundTrip.barrierContribution (num : Nat) : RoundTrip.Statement (.barrierContribution num) :=
  event_trip _ rfl
theorem RoundTrip.barrierRelease (cube group : Nat) : RoundTrip.Statement (.barrierRelease cube group) :=
  event_trip _ rfl
theorem RoundTrip.barrierReleaseMulticast (num : Nat) : RoundTrip.Statement (.barrierReleaseMulticast num) :=
  event_trip _ rfl
theorem RoundTrip.checkpointCommit (cube gang : Nat) : RoundTrip.Statement (.checkpointCommit cube gang) :=
  event_trip _ rfl
theorem RoundTrip.coreUncorrectable (core : Nat) : RoundTrip.Statement (.coreUncorrectable core) :=
  event_trip _ rfl
theorem RoundTrip.refresh (cube flue bank : Nat) : RoundTrip.Statement (.refresh cube flue bank) :=
  event_trip _ rfl
theorem RoundTrip.refreshEnd (cube flue bank : Nat) : RoundTrip.Statement (.refreshEnd cube flue bank) :=
  event_trip _ rfl
theorem RoundTrip.refreshRateChange (cube : Nat) (hot : Bool) : RoundTrip.Statement (.refreshRateChange cube hot) :=
  event_trip _ rfl
theorem RoundTrip.thermalClamp (cube : Nat) : RoundTrip.Statement (.thermalClamp cube) :=
  event_trip _ rfl
theorem RoundTrip.cubeThermalTrip (cube : Nat) : RoundTrip.Statement (.cubeThermalTrip cube) :=
  event_trip _ rfl
theorem RoundTrip.fetchGrant (core : Nat) : RoundTrip.Statement (.fetchGrant core) :=
  event_trip _ rfl
theorem RoundTrip.forwardedInstruction (core : Nat) : RoundTrip.Statement (.forwardedInstruction core) :=
  event_trip _ rfl
theorem RoundTrip.waitWakeup (core : Nat) : RoundTrip.Statement (.waitWakeup core) :=
  event_trip _ rfl
theorem RoundTrip.pollRetest (core : Nat) : RoundTrip.Statement (.pollRetest core) :=
  event_trip _ rfl
theorem RoundTrip.trapEntry (core : Nat) (t : TrapReport) : RoundTrip.Statement (.trapEntry core t) :=
  event_trip _ rfl
theorem RoundTrip.contextSave (core : Nat) : RoundTrip.Statement (.contextSave core) :=
  event_trip _ rfl
theorem RoundTrip.trapReflection (tid : Nat) : RoundTrip.Statement (.trapReflection tid) :=
  event_trip _ rfl
theorem RoundTrip.faultService (tid : Nat) : RoundTrip.Statement (.faultService tid) :=
  event_trip _ rfl
theorem RoundTrip.interrupt (core : Nat) : RoundTrip.Statement (.interrupt core) :=
  event_trip _ rfl
theorem RoundTrip.graphBusyRefusal (core : Nat) : RoundTrip.Statement (.graphBusyRefusal core) :=
  event_trip _ rfl
theorem RoundTrip.matrixFormStart (core : Nat) : RoundTrip.Statement (.matrixFormStart core) :=
  event_trip _ rfl
theorem RoundTrip.matrixFormComplete (core : Nat) : RoundTrip.Statement (.matrixFormComplete core) :=
  event_trip _ rfl
theorem RoundTrip.gissueJointIssue (core : Nat) : RoundTrip.Statement (.gissueJointIssue core) :=
  event_trip _ rfl
theorem RoundTrip.copyCommandStart (core : Nat) : RoundTrip.Statement (.copyCommandStart core) :=
  event_trip _ rfl
theorem RoundTrip.copyCommandComplete (core : Nat) : RoundTrip.Statement (.copyCommandComplete core) :=
  event_trip _ rfl
theorem RoundTrip.flueEntryStart (core : Nat) : RoundTrip.Statement (.flueEntryStart core) :=
  event_trip _ rfl
theorem RoundTrip.streamToken (cube flue stream : Nat) : RoundTrip.Statement (.streamToken cube flue stream) :=
  event_trip _ rfl
theorem RoundTrip.cellFire (cube flue cell : Nat) : RoundTrip.Statement (.cellFire cube flue cell) :=
  event_trip _ rfl
theorem RoundTrip.kernelFinish (cube flue : Nat) : RoundTrip.Statement (.kernelFinish cube flue) :=
  event_trip _ rfl
theorem RoundTrip.translation (core : Nat) (seg : BitVec 16) (off : BitVec 64) (k : AccessKind) : RoundTrip.Statement (.translation core seg off k) :=
  event_trip _ rfl
theorem RoundTrip.pageTableWalk (core : Nat) (seg : BitVec 16) (off : BitVec 64) : RoundTrip.Statement (.pageTableWalk core seg off) :=
  event_trip _ rfl
theorem RoundTrip.requestRemap (num : Nat) : RoundTrip.Statement (.requestRemap num) :=
  event_trip _ rfl
theorem RoundTrip.mapInstall (cube : Nat) (m : InterleaveMap) : RoundTrip.Statement (.mapInstall cube m) :=
  event_trip _ rfl
theorem RoundTrip.cxlMemRequest (cube : Nat) (r : HostRequest) : RoundTrip.Statement (.cxlMemRequest cube r) :=
  event_trip _ rfl
theorem RoundTrip.backinvResponse (cube atom : Nat) : RoundTrip.Statement (.backinvResponse cube atom) :=
  event_trip _ rfl
theorem RoundTrip.backinvTimeout (cube atom : Nat) : RoundTrip.Statement (.backinvTimeout cube atom) :=
  event_trip _ rfl
theorem RoundTrip.doorbell (cube : Nat) (v : BitVec 64) : RoundTrip.Statement (.doorbell cube v) :=
  event_trip _ rfl
theorem RoundTrip.registerWrite (cube : Nat) (r : WindowReg) (v : BitVec 64) : RoundTrip.Statement (.registerWrite cube r v) :=
  event_trip _ rfl
theorem RoundTrip.refinementExit (cube run : Nat) : RoundTrip.Statement (.refinementExit cube run) :=
  event_trip _ rfl
theorem RoundTrip.installRankProgram (cube : Nat) (words : List (BitVec 32)) : RoundTrip.Statement (.installRankProgram cube words) :=
  event_trip _ rfl
theorem RoundTrip.setQuantum (cube quantum : Nat) : RoundTrip.Statement (.setQuantum cube quantum) :=
  event_trip _ rfl
theorem RoundTrip.preempt (cube gang : Nat) : RoundTrip.Statement (.preempt cube gang) :=
  event_trip _ rfl
theorem RoundTrip.withdrawPacket (cube arrival : Nat) : RoundTrip.Statement (.withdrawPacket cube arrival) :=
  event_trip _ rfl
theorem RoundTrip.writeSegmentDescriptor (cube : Nat) (asid seg : BitVec 16) (desc : BitVec 128) : RoundTrip.Statement (.writeSegmentDescriptor cube asid seg desc) :=
  event_trip _ rfl
theorem RoundTrip.writePageTableEntry (addr : Nat) (v : BitVec 64) : RoundTrip.Statement (.writePageTableEntry addr v) :=
  event_trip _ rfl
theorem RoundTrip.bumpAsidGeneration (cube : Nat) (asid : BitVec 16) (reflect : Bool) : RoundTrip.Statement (.bumpAsidGeneration cube asid reflect) :=
  event_trip _ rfl
theorem RoundTrip.replaceInterleaveMap (cube : Nat) (m : InterleaveMap) : RoundTrip.Statement (.replaceInterleaveMap cube m) :=
  event_trip _ rfl
theorem RoundTrip.writeTrapTableEntry (cube : Nat) (asid : BitVec 16) (entry : BitVec 256) : RoundTrip.Statement (.writeTrapTableEntry cube asid entry) :=
  event_trip _ rfl
theorem RoundTrip.retireFlue (cube flue : Nat) : RoundTrip.Statement (.retireFlue cube flue) :=
  event_trip _ rfl
theorem RoundTrip.markSpareCore (core : Nat) : RoundTrip.Statement (.markSpareCore core) :=
  event_trip _ rfl
theorem RoundTrip.removeCube (cube : Nat) (m : InterleaveMap) : RoundTrip.Statement (.removeCube cube m) :=
  event_trip _ rfl
theorem RoundTrip.setRetryTime (cube cycles : Nat) : RoundTrip.Statement (.setRetryTime cube cycles) :=
  event_trip _ rfl
theorem RoundTrip.setPowerLimit (cube watts : Nat) : RoundTrip.Statement (.setPowerLimit cube watts) :=
  event_trip _ rfl
theorem RoundTrip.attestationReport (cube : Nat) (nonce : BitVec 256) : RoundTrip.Statement (.attestationReport cube nonce) :=
  event_trip _ rfl
theorem RoundTrip.stopThread (core : Nat) : RoundTrip.Statement (.stopThread core) :=
  event_trip _ rfl
theorem RoundTrip.stepThread (core : Nat) : RoundTrip.Statement (.stepThread core) :=
  event_trip _ rfl
theorem RoundTrip.resumeThread (core : Nat) : RoundTrip.Statement (.resumeThread core) :=
  event_trip _ rfl
theorem RoundTrip.clearPerformanceCounters (core : Nat) : RoundTrip.Statement (.clearPerformanceCounters core) :=
  event_trip _ rfl
theorem RoundTrip.thermalClampEnd (cube : Nat) : RoundTrip.Statement (.thermalClampEnd cube) :=
  event_trip _ rfl
theorem RoundTrip.coreClockCycle (cube : Nat) : RoundTrip.Statement (.coreClockCycle cube) :=
  event_trip _ rfl
theorem RoundTrip.recoveryImageSupply (cube : Nat) (image : FirmwareImage) : RoundTrip.Statement (.recoveryImageSupply cube image) :=
  event_trip _ rfl

end Sys2Proof.Laws
end

