-- ==== Sys2Proof/Laws/Step.lean ====
section
/-! SUPPORT. The step executes the decoded instruction: the executable dispatch on shapes is `exec`. -/

namespace Sys2Proof.Machine

open Sys2Proof

/-- The meanings of the last three opcodes are the arms of `exec`. -/
theorem execHigh_eq {op fn : Nat} {f : FmtA} {i : Instr} (h : instrHigh op fn f = some i) (s : State) :
    execHigh (.a op fn f) s = exec i s := by
  unfold instrHigh instrHigh94 instrHigh95 instrHigh96 at h
  split at h
  all_goals first
    | (split at h <;> simp at h <;> subst h <;> rfl)
    | simp at h

/-- A shape that stands for an instruction executes as that instruction. -/
theorem execShape_eq {sh : Shape} {i : Instr} (h : ofShape sh = some i) (s : State) : execShape sh s = exec i s := by
  cases hl : ofShapeLow sh with
  | some j =>
    simp only [ofShape, hl, Option.some.injEq] at h
    simp only [execShape, hl, h]
  | none =>
    simp only [ofShape, hl] at h
    simp only [execShape, hl]
    split at h
    · exact execHigh_eq h s
    · simp at h

end Sys2Proof.Machine
end

