-- ==== Sys2Proof/Tests/Slice0.lean ====
section
/-! SUPPORT. Tests of the model on small states: the well-formedness checks, one word of every instruction, and worked cases
of the spec; then a witness for the hypotheses of each statement. -/

namespace Sys2Proof.Tests

-- One test after another: tests that wait for each other's kernel check would each hold a thread and its stack.
set_option Elab.async false

open Sys2Proof
open Sys2Proof.Machine
open Sys2Proof.Safety

/-! ### Small states -/

/-- Thread 1 resident on core 0, at 0x1000, in the local segment throughout, with its pc and mode as a launch leaves
them. -/
def base : State :=
  { State.reset with
    core := { Core.reset with
      ctx := { Ctx.reset with
        tid := 1
        status := .resident
        regs := { Regs.reset with pc := 0x1000, seg := Vector.replicate 4 0xFFFF } } }
    numCtr := 100 }

/-- A state with one g register set. -/
def withG (k : Nat) (x : Word) (s : State) : State := s.modRegs fun r => { r with g := r.g.setIfInBounds k x }

/-- A state with one v register set. -/
def withV (k : Nat) (f : Nat → Word32) (s : State) : State :=
  s.modRegs fun r => { r with v := r.v.setIfInBounds k (ofLanes f) }

/-- A state with bytes in the scratchpad of core 0. -/
def withBytes (o : Nat) (bs : List Byte) (s : State) : State := s.store (spadAddr 0 o) bs

/-- A state with another TSW. -/
def withTsw (w : Word) (s : State) : State := s.modRegs fun r => { r with tsw := w }

/-- The next state of an outcome. -/
def nextOf (o : Host.Outcome State Fault Refusal) : State := match o with
  | .next s => s
  | _ => State.reset

/-- The trap code that the moving thread has taken. -/
def trapOf (s : State) : Option TrapCode := s.core.ctx.trap.map fun r => r.code

/-- A format A word without prefix. -/
def fA (d a b : BitVec 6) : FmtA := ⟨d, a, b, 0, none⟩

/-- g0 after one instruction. -/
def g0 (i : Instr) (s : State) : Option Word := (nextOf (exec i s)).regs.g[0]?

/-- One lane of v0 after one instruction. -/
def v0 (i : Instr) (k : Nat) (s : State) : Option Word32 := ((nextOf (exec i s)).regs.v[0]?).map fun v => lane v k

/-! ### Well-formedness: a term that each check refuses -/

/-- An event has no word (R75). -/
theorem test_wf_assigned : (Instr.refresh 0 0 0).wf = false := by decide
/-- Condition codes 6 and 7 are no condition (R45). -/
theorem test_wf_cond : (Instr.bCond 6 ⟨1, 0, []⟩).wf = false ∧ (Instr.callCond 7 ⟨1, 0, []⟩).wf = false := by decide
/-- A prefix needs field b to hold 48, and takes no vector form of VF32 (R47, R83). -/
theorem test_wf_prefix : (Instr.add ⟨1, 2, 3, 0, some 5⟩).wf = false ∧ (Instr.vaddF32 ⟨1, 2, 48, 0, some 5⟩).wf = false := by
  decide
/-- FENCE has six bits and scopes 0 to 4 (R296). -/
theorem test_wf_reserved : (Instr.fence ⟨48, 64, 0, []⟩).wf = false ∧ (Instr.fence ⟨48, 5, 0, []⟩).wf = false := by decide
/-- A destination is a register or 48 (R52). -/
theorem test_wf_operands : (Instr.add (fA 33 1 2)).wf = false ∧ (Instr.add (fA 48 1 2)).wf = true := by decide

/-! ### One step of scalar instructions (chapters 5 and 6) -/

/-- R135: ADD wraps at 64 bits; ADDS saturates. -/
theorem test_add : g0 (.add (fA 0 2 3)) (withG 2 0x7FFFFFFFFFFFFFFF (withG 3 1 base)) = some 0x8000000000000000 ∧
    g0 (.adds (fA 0 2 3)) (withG 2 0x7FFFFFFFFFFFFFFF (withG 3 1 base)) = some 0x7FFFFFFFFFFFFFFF := by decide
/-- R110: a zero divisor gives all ones, and the remainder is the dividend. -/
theorem test_div : g0 (.div (fA 0 2 3)) (withG 2 7 base) = some (BitVec.allOnes 64) ∧
    g0 (.rem (fA 0 2 3)) (withG 2 7 base) = some 7 := by decide
/-- R138: CLZ of 0 is 64, and CLT is signed. -/
theorem test_cmp : g0 (.clz (fA 0 2 48)) base = some 64 ∧ g0 (.clt (fA 0 2 3)) (withG 2 (-1) base) = some 1 := by decide
/-- R137: a shift takes the low six bits of its amount. -/
theorem test_sll : g0 (.sll (fA 0 2 3)) (withG 2 1 (withG 3 65 base)) = some 2 := by decide
/-- R140: PAVG rounds up in each 32-bit element (FMT.W = 2 after reset). -/
theorem test_pavg : g0 (.pavg (fA 0 2 3)) (withG 2 0x0000000100000002 (withG 3 0x0000000200000002 base)) =
    some 0x0000000200000002 := by decide
/-- R12, R52: a result with destination 48 is age 1 of the queue only, and the pc passes the word. -/
theorem test_queue : ((nextOf (exec (.add (fA 48 2 3)) (withG 2 5 base))).regs.gq.head? = some 5) ∧
    (nextOf (exec (.add (fA 48 2 3)) (withG 2 5 base))).regs.pc = 0x1004 := by decide
/-- R57: an FP32 sum read at once is too early: with TSW.CHK set it traps STALL_SHORT. -/
theorem test_stall_short : trapOf (nextOf (exec (.vmov (fA 1 0 48)) (nextOf (exec (.vaddF32 (fA 0 2 3)) (withTsw 2 base))))) =
    some .stallShort := by decide +kernel
/-- R143: BNZ on 0 falls through; BZ goes to its target, 4 bytes a unit. -/
theorem test_branch : (nextOf (exec (.bCond 1 ⟨2, 5, []⟩) base)).regs.pc = 0x1004 ∧
    (nextOf (exec (.bCond 0 ⟨2, 5, []⟩) base)).regs.pc = 0x1014 := by decide
/-- R102, the worked case: with RSL 0x2_0003 and RSP 0x2_0020 a full store traps RET_OVERFLOW at 0x2_0020. -/
theorem test_ret_overflow :
    let s := nextOf (exec (.call ⟨48, 4, []⟩) (base.modRegs fun r =>
      { r with rsl := 0x20003, rsp := 0x20020, ras := List.replicate 16 0x40 }))
    s.core.ctx.trap.map (fun r => (r.code, r.addr)) = some (.retOverflow, 0x20020) := by decide
/-- R102, the worked case: with an empty store and RSP at its base RET traps RET_UNDERFLOW at 0x2_0000. -/
theorem test_ret_underflow :
    let s := nextOf (exec (.ret (fA 48 48 48)) (base.modRegs fun r => { r with rsl := 0x20003, rsp := 0x20000 }))
    s.core.ctx.trap.map (fun r => (r.code, r.addr)) = some (.retUnderflow, 0x20000) := by decide
/-- R155, R85: RFE in user mode traps PRIVILEGED. -/
theorem test_rfe : trapOf (nextOf (exec (.rfe (fA 48 2 48)) base)) = some .privileged := by decide
/-- R95, the worked case: a deposit before a local write in the same cycle; MBCLR answers MBSTAT and clears FULL. -/
theorem test_mbclr : g0 (.mbclr (fA 0 2 48)) (withG 2 1 (base.modRegs fun r => { r with mbstat := 0x11 })) = some 0x11 ∧
    (nextOf (exec (.mbclr (fA 0 2 48)) (withG 2 1 (base.modRegs fun r => { r with mbstat := 0x11 })))).regs.mbstat = 0x10 := by
  decide

/-! ### Vector instructions (chapter 7) -/

/-- R183: vrcp of 3.0 is 0x3EAA_AAAB, and vlog2 of 8.0 is 3.0. -/
theorem test_vapx : v0 (.vrcp (fA 0 2 48)) 5 (withV 2 (fun _ => 0x40400000) base) = some 0x3EAAAAAB ∧
    v0 (.vlog2 (fA 0 2 48)) 0 (withV 2 (fun _ => 0x41000000) base) = some 0x40400000 := by decide +kernel
/-- R130: EXP2 of -150.0 is the smallest subnormal. -/
theorem test_exp2 : exp2 0xC3160000 = 1 := by decide
/-- R171, the worked case: lanes 0 to 2 hold 1.0, NaN and -0.0 against 2.0, 3.0 and +0.0; every other lane is equal. -/
theorem test_vcmp :
    let s := withV 2 (fun k => if k = 0 then 0x3F800000 else if k = 1 then 0x7FC00000 else if k = 2 then 0x80000000 else 0)
      (withV 3 (fun k => if k = 0 then 0x40000000 else if k = 1 then 0x40400000 else 0) base)
    (nextOf (exec (.vcltF32 (fA 1 2 3)) s)).regs.m[1]? = some 1 ∧
    (nextOf (exec (.vceqF32 (fA 1 2 3)) s)).regs.m[1]? = some 0xFFFFFFFFFFFFFFFC ∧
    (nextOf (exec (.vcunF32 (fA 1 2 3)) s)).regs.m[1]? = some 2 := by decide +kernel
/-- R127, R182, the worked case: 1.0, 0, 6.0 and -0.75 with the scale 3.0 pack into 7F FF 05 00 0A in SX4. -/
theorem test_sx4 : ((sxPackScaled 4 .rne (fun _ => 0) (f32.decode 0x40400000)
    ((List.range 16).map fun k => f32.decode (if k = 0 then 0x3F800000 else if k = 2 then 0x40C00000 else if k = 3 then 0xBF400000
      else 0))).1) % 2 ^ 64 = 0x0000000A0005FF7F := by decide
/-- R176: a vector register index above 191 traps with its value. -/
theorem test_vxget : (nextOf (exec (.vxget (fA 0 2 48)) (withG 2 192 base))).core.ctx.trap.map (fun r => (r.code, r.addr)) =
    some (.illegalOperand, 192) := by decide

/-! ### Memory (chapters 10 to 12, 16, 17) -/

/-- R241, the worked case: 0x12_3456_7890 lies at 0x48D1_5890 of flue 39, with home core 157. -/
theorem test_home : placeDram (Cube.reset 0) 0x1234567890 = (39, 0x48D15890) ∧ homeDram (Cube.reset 0) 0x1234567890 = 157 := by
  decide
/-- R243, the worked case: with flue 39 retired it lies at 0xFCD1_5890 of flue 18, with home core 73. -/
theorem test_retired :
    let q := retire base 0 39 |>.cube 0
    placeDram q 0x1234567890 = (18, 0xFCD15890) ∧ homeDram q 0x1234567890 = 73 := by decide
/-- R399, the worked case: entry 1 of four gives cube 5 and base 0x100_0000; I = 0x5123 resolves to 0x100_1123 there. -/
theorem test_interleave : (mapResolve ⟨12, 0, [⟨0, false, 0⟩, ⟨5, false, 0x1000000⟩, ⟨2, false, 0⟩, ⟨3, false, 0⟩]⟩ 0x5123).map
    (fun x => (x.1.cube, x.2)) = some (5, 0x1001123) := by decide
/-- R247, R248, the worked case: BF16 1.5 at 0x102 read through BF16W is 0x3FC0_0000, and through FP32 it is misaligned. -/
theorem test_window :
    let s := withBytes 0x100 [0x80, 0x3F, 0xC0, 0x3F] base
    g0 (.ldN32 ⟨0, 2, 0, 0, []⟩) (withG 2 0x100102 s) = some 0x3FC00000 ∧
    g0 (.ldN16 ⟨0, 2, 0, 0, []⟩) (withG 2 0x102 s) = some 0x3FC0 ∧
    trapOf (nextOf (exec (.ldN32 ⟨0, 2, 0, 0, []⟩) (withG 2 0x80102 s))) = some .misaligned := by decide
/-- R247, R292, the worked case: 0x3F80_C000 stored through BF16W sends the two bytes 0x81 and 0x3F. -/
theorem test_window_store :
    let s := nextOf (exec (.st32 ⟨3, 2, 0, 0, []⟩) (withG 2 0x100100 (withG 3 0x3F80C000 base)))
    s.flights.map Flight.body = [.write (spadAddr 0 0x100) [some 0x81, some 0x3F] 0 0x100100] ∧ s.core.ctx.unacked = 1 := by decide
/-- R266, R268: a thread's own store is seen by its next load. -/
theorem test_own_store :
    let s := nextOf (exec (.st64 ⟨3, 2, 0, 1, []⟩) (withG 2 0x100 (withG 3 0x1122334455667788 base)))
    g0 (.ldN16 ⟨0, 2, 0, 5, []⟩) s = some 0x5566 := by decide
/-- R300: AMOADD answers the old value and stores the sum. -/
theorem test_amo :
    let s := withG 2 0x100 (withG 3 5 (withBytes 0x100 [9] base))
    (nextOf (exec (.amoadd64 ⟨3, 2, 0, 0, []⟩) s)).regs.g[3]? = some 9 ∧
    memGet (nextOf (exec (.amoadd64 ⟨3, 2, 0, 0, []⟩) s)).mem (spadAddr 0 0x100) = 14 := by decide
/-- R313: PROPOSE decides an open cell of its generation; a retired cell opens the next one. -/
theorem test_once : onceNext 0 3 (5 * 2 ^ 32 + 7 * 2 ^ 64) 12 % 4 = 1 ∧ onceNext 2 3 0 12 = 16 ∧ onceNext 2 16383 0 65532 % 4 = 2 := by
  decide
/-- R380, the worked case: the route from cube 347 to cube 0. -/
theorem test_route : [347, 348, 349, 340, 330, 320, 400, 480, 560].map (fun c =>
    ((orderedDir State.reset 0 c 0).map (neighbourCube c)).getD c) = [348, 349, 340, 330, 320, 400, 480, 560, 0] := by decide
/-- R386, the worked case: two partials of rescale-combine, (3.0, 2.0, 4.0) and (1.0, 4.0, 8.0), give (3.0, 3.0, 6.0). -/
theorem test_rescale :
    let r := foldPartials 4 ⟨[1], 0x40400000, 0x40000000, ofLanes fun _ => 0x40800000⟩ ⟨[2], 0x3F800000, 0x40800000, ofLanes fun _ => 0x41000000⟩
    r.m = 0x40400000 ∧ r.s = 0x40400000 ∧ (lane r.o 0) = 0x40C00000 := by decide +kernel

/-! ### Tiles, groups, cubes -/

/-- R196, the worked case: TROWIN writes 1.0 onward into row 3 of a 16 x 16 FP32 tile. -/
theorem test_trowin :
    let s := (withV 9 (fun k => BitVec.ofNat 32 (f32.ofVal .rne 0 (.fin false (k + 1) 0))) (withG 3 3 base)).modTiles fun t =>
      { t with shape := t.shape.set 2 (1#1 ++ 0#3 ++ 15#6 ++ 15#6) }
    ((nextOf (exec (.trowin ⟨2, 0, 0, 0, 0, some (3 * 64 + 9)⟩) s)).core.ctx.tiles.bits 2) / 2 ^ (32 * (3 * 16 + 5)) % 2 ^ 32 =
      0x40C00000 := by decide +kernel
/-- R430, R437: the only member's arrival releases its group. -/
theorem test_barrier :
    let s := nextOf (exec (.join (fA 48 2 48)) (withG 2 1 base))
    ((nextOf (exec (.arrive (fA 48 2 48)) s)).group 0 1).map Group.phase = some 1 := by decide
/-- R449: CNTRD of class 1 reads the unacknowledged stores; class 9 names nothing. -/
theorem test_cntrd :
    g0 (.cntrd (fA 0 2 48)) (withG 2 0x10000 (base.modCtx fun c => { c with unacked := 3 })) = some 3 ∧
    trapOf (nextOf (exec (.cntrd (fA 0 2 48)) (withG 2 0x90000 base))) = some .counterInvalid := by decide
/-- R26, R455: a quantum below 2^12 is refused and answered; one in range is set. -/
theorem test_quantum :
    let s := base.modStove 0 fun t => { t with run := 0xFF }
    ((nextOf (exec (.setQuantum 0 5) s)).cube 0).stove.quantum = 2 ^ 20 ∧
    ((nextOf (exec (.setQuantum 0 5000) s)).cube 0).stove.quantum = 5000 := by decide
/-- R450: with no image in the boot flash no Stove core is released and the cube is not ready. -/
theorem test_boot :
    ((nextOf (exec (.powerOnReset 0 ⟨[], [], [], [], [], []⟩) base)).cube 0).stove.run = 0 ∧
    ((nextOf (exec (.powerOnReset 0 ⟨[], [], [], [], [], []⟩) base)).cube 0).stove.ready = false := by decide
/-- R456: a trip is severe and holds the cube. -/
theorem test_trip : ((nextOf (exec (.cubeThermalTrip 0) base)).cube 0).tripped = true := by decide
/-- R61, R66: the first step after a word is placed runs it. -/
theorem test_step : (nextOf (step ((withG 2 5 base).withFetchWord 32 0x01002100))).regs.g[0]? = some 5 := by decide

/-! ### Decoding: one word of every instruction, written from the opcode table -/

theorem test_decode_01 :
    decodeWords [0x011461C1] = .ok (.add ⟨5, 6, 7, 1, none⟩, 1) ∧
    decodeWords [0x011461C9] = .ok (.sub ⟨5, 6, 7, 1, none⟩, 1) ∧
    decodeWords [0x011461D1] = .ok (.adds ⟨5, 6, 7, 1, none⟩, 1) ∧
    decodeWords [0x011461D9] = .ok (.subs ⟨5, 6, 7, 1, none⟩, 1) ∧
    decodeWords [0x011461E1] = .ok (.min ⟨5, 6, 7, 1, none⟩, 1) ∧
    decodeWords [0x011461E9] = .ok (.max ⟨5, 6, 7, 1, none⟩, 1) ∧
    decodeWords [0x011461F1] = .ok (.minu ⟨5, 6, 7, 1, none⟩, 1) ∧
    decodeWords [0x011461F9] = .ok (.maxu ⟨5, 6, 7, 1, none⟩, 1) := by
  exact ⟨rfl, rfl, rfl, rfl, rfl, rfl, rfl, rfl⟩
theorem test_decode_02 :
    decodeWords [0x021461C1] = .ok (.and ⟨5, 6, 7, 1, none⟩, 1) ∧
    decodeWords [0x021461C9] = .ok (.or ⟨5, 6, 7, 1, none⟩, 1) ∧
    decodeWords [0x021461D1] = .ok (.xor ⟨5, 6, 7, 1, none⟩, 1) ∧
    decodeWords [0x021461D9] = .ok (.andn ⟨5, 6, 7, 1, none⟩, 1) ∧
    decodeWords [0x021461E1] = .ok (.sll ⟨5, 6, 7, 1, none⟩, 1) ∧
    decodeWords [0x021461E9] = .ok (.srl ⟨5, 6, 7, 1, none⟩, 1) ∧
    decodeWords [0x021461F1] = .ok (.sra ⟨5, 6, 7, 1, none⟩, 1) ∧
    decodeWords [0x021461F9] = .ok (.rol ⟨5, 6, 7, 1, none⟩, 1) := by
  exact ⟨rfl, rfl, rfl, rfl, rfl, rfl, rfl, rfl⟩
theorem test_decode_03 :
    decodeWords [0x031461C1] = .ok (.ceq ⟨5, 6, 7, 1, none⟩, 1) ∧
    decodeWords [0x031461C9] = .ok (.cne ⟨5, 6, 7, 1, none⟩, 1) ∧
    decodeWords [0x031461D1] = .ok (.clt ⟨5, 6, 7, 1, none⟩, 1) ∧
    decodeWords [0x031461D9] = .ok (.cltu ⟨5, 6, 7, 1, none⟩, 1) ∧
    decodeWords [0x031461E1] = .ok (.sel ⟨5, 6, 7, 1, none⟩, 1) ∧
    decodeWords [0x03146C29] = .ok (.clz ⟨5, 6, 48, 1, none⟩, 1) ∧
    decodeWords [0x03146C31] = .ok (.ctz ⟨5, 6, 48, 1, none⟩, 1) ∧
    decodeWords [0x03146C39] = .ok (.popc ⟨5, 6, 48, 1, none⟩, 1) := by
  exact ⟨rfl, rfl, rfl, rfl, rfl, rfl, rfl, rfl⟩
theorem test_decode_04 :
    decodeWords [0x041461C1] = .ok (.mul ⟨5, 6, 7, 1, none⟩, 1) ∧
    decodeWords [0x041461C9] = .ok (.mulh ⟨5, 6, 7, 1, none⟩, 1) ∧
    decodeWords [0x041461D1] = .ok (.mulhu ⟨5, 6, 7, 1, none⟩, 1) ∧
    decodeWords [0x041461D9] = .ok (.div ⟨5, 6, 7, 1, none⟩, 1) ∧
    decodeWords [0x041461E1] = .ok (.divu ⟨5, 6, 7, 1, none⟩, 1) ∧
    decodeWords [0x041461E9] = .ok (.rem ⟨5, 6, 7, 1, none⟩, 1) ∧
    decodeWords [0x041461F1] = .ok (.remu ⟨5, 6, 7, 1, none⟩, 1) := by
  exact ⟨rfl, rfl, rfl, rfl, rfl, rfl, rfl⟩
theorem test_decode_05 :
    decodeWords [0x051461C1] = .ok (.padd ⟨5, 6, 7, 1, none⟩, 1) ∧
    decodeWords [0x051461C9] = .ok (.psub ⟨5, 6, 7, 1, none⟩, 1) ∧
    decodeWords [0x051461D1] = .ok (.padds ⟨5, 6, 7, 1, none⟩, 1) ∧
    decodeWords [0x051461D9] = .ok (.psubs ⟨5, 6, 7, 1, none⟩, 1) ∧
    decodeWords [0x051461E1] = .ok (.pmul ⟨5, 6, 7, 1, none⟩, 1) ∧
    decodeWords [0x051461E9] = .ok (.pmin ⟨5, 6, 7, 1, none⟩, 1) ∧
    decodeWords [0x051461F1] = .ok (.pmax ⟨5, 6, 7, 1, none⟩, 1) ∧
    decodeWords [0x051461F9] = .ok (.pavg ⟨5, 6, 7, 1, none⟩, 1) := by
  exact ⟨rfl, rfl, rfl, rfl, rfl, rfl, rfl, rfl⟩
theorem test_decode_10 :
    decodeWords [0x10140049] = .ok (.addi ⟨5, 9, 1, []⟩, 1) := by
  rfl
theorem test_decode_11 :
    decodeWords [0x11140049] = .ok (.andi ⟨5, 9, 1, []⟩, 1) := by
  rfl
theorem test_decode_12 :
    decodeWords [0x12140049] = .ok (.ori ⟨5, 9, 1, []⟩, 1) := by
  rfl
theorem test_decode_13 :
    decodeWords [0x13140049] = .ok (.xori ⟨5, 9, 1, []⟩, 1) := by
  rfl
theorem test_decode_14 :
    decodeWords [0x14140049] = .ok (.li ⟨5, 9, 1, []⟩, 1) := by
  rfl
theorem test_decode_15 :
    decodeWords [0x15140049] = .ok (.slli ⟨5, 9, 1, []⟩, 1) := by
  rfl
theorem test_decode_16 :
    decodeWords [0x16140049] = .ok (.srli ⟨5, 9, 1, []⟩, 1) := by
  rfl
theorem test_decode_17 :
    decodeWords [0x17140049] = .ok (.srai ⟨5, 9, 1, []⟩, 1) := by
  rfl
theorem test_decode_18 :
    decodeWords [0x18140049] = .ok (.clti ⟨5, 9, 1, []⟩, 1) := by
  rfl
theorem test_decode_19 :
    decodeWords [0x19140049] = .ok (.cltui ⟨5, 9, 1, []⟩, 1) := by
  rfl
theorem test_decode_1A :
    decodeWords [0x1A140049] = .ok (.ceqi ⟨5, 9, 1, []⟩, 1) := by
  rfl
theorem test_decode_1B :
    decodeWords [0x1B140049] = .ok (.lipc ⟨5, 9, 1, []⟩, 1) := by
  rfl
theorem test_decode_20 :
    decodeWords [0x20C30123] = .ok (.b ⟨48, 291, []⟩, 1) ∧
    decodeWords [0x20198123] = .ok (.bCond 3 ⟨6, 291, []⟩, 1) := by
  exact ⟨rfl, rfl⟩
theorem test_decode_21 :
    decodeWords [0x21C30123] = .ok (.call ⟨48, 291, []⟩, 1) ∧
    decodeWords [0x21198123] = .ok (.callCond 3 ⟨6, 291, []⟩, 1) := by
  exact ⟨rfl, rfl⟩
theorem test_decode_22 :
    decodeWords [0x22C30C01] = .ok (.ret ⟨48, 48, 48, 1, none⟩, 1) ∧
    decodeWords [0x22C30C09] = .ok (.yield ⟨48, 48, 48, 1, none⟩, 1) ∧
    decodeWords [0x22C30C11] = .ok (.halt ⟨48, 48, 48, 1, none⟩, 1) ∧
    decodeWords [0x22C06C19] = .ok (.trap ⟨48, 6, 48, 1, none⟩, 1) ∧
    decodeWords [0x22C06C21] = .ok (.follow ⟨48, 6, 48, 1, none⟩, 1) ∧
    decodeWords [0x22C30C29] = .ok (.detach ⟨48, 48, 48, 1, none⟩, 1) ∧
    decodeWords [0x22C30C31] = .ok (.rejoin ⟨48, 48, 48, 1, none⟩, 1) ∧
    decodeWords [0x22C06C39] = .ok (.rfe ⟨48, 6, 48, 1, none⟩, 1) := by
  exact ⟨rfl, rfl, rfl, rfl, rfl, rfl, rfl, rfl⟩
theorem test_decode_23 :
    decodeWords [0x23140039] = .ok (.srd ⟨5, 7, 1, []⟩, 1) := by
  rfl
theorem test_decode_24 :
    decodeWords [0x24140039] = .ok (.swr ⟨5, 7, 1, []⟩, 1) := by
  rfl
theorem test_decode_3C :
    decodeWords [0x3C000900] = .ok (.lpad 9, 1) := by
  rfl
theorem test_decode_3D :
    decodeWords [0x3D140000] = .ok (.jt 5, 1) := by
  rfl
theorem test_decode_3E :
    decodeWords [0x3E419200] = .ok (.rep 65 9 4, 1) := by
  rfl
theorem test_decode_3F :
    decodeWords [0x3F189200] = .ok (.repg 6 9 4, 1) := by
  rfl
theorem test_decode_40 :
    decodeWords [0x401461C1] = .ok (.vaddI32 ⟨5, 6, 7, 1, none⟩, 1) ∧
    decodeWords [0x401461C9] = .ok (.vsubI32 ⟨5, 6, 7, 1, none⟩, 1) ∧
    decodeWords [0x401461D1] = .ok (.vaddsI32 ⟨5, 6, 7, 1, none⟩, 1) ∧
    decodeWords [0x401461D9] = .ok (.vsubsI32 ⟨5, 6, 7, 1, none⟩, 1) ∧
    decodeWords [0x401461E1] = .ok (.vminI32 ⟨5, 6, 7, 1, none⟩, 1) ∧
    decodeWords [0x401461E9] = .ok (.vmaxI32 ⟨5, 6, 7, 1, none⟩, 1) ∧
    decodeWords [0x401461F1] = .ok (.vmulI32 ⟨5, 6, 7, 1, none⟩, 1) ∧
    decodeWords [0x401461F9] = .ok (.vmulhI32 ⟨5, 6, 7, 1, none⟩, 1) := by
  exact ⟨rfl, rfl, rfl, rfl, rfl, rfl, rfl, rfl⟩
theorem test_decode_41 :
    decodeWords [0x411461C1] = .ok (.vand ⟨5, 6, 7, 1, none⟩, 1) ∧
    decodeWords [0x411461C9] = .ok (.vor ⟨5, 6, 7, 1, none⟩, 1) ∧
    decodeWords [0x411461D1] = .ok (.vxor ⟨5, 6, 7, 1, none⟩, 1) ∧
    decodeWords [0x411461D9] = .ok (.vandn ⟨5, 6, 7, 1, none⟩, 1) ∧
    decodeWords [0x411461E1] = .ok (.vsll ⟨5, 6, 7, 1, none⟩, 1) ∧
    decodeWords [0x411461E9] = .ok (.vsrl ⟨5, 6, 7, 1, none⟩, 1) ∧
    decodeWords [0x411461F1] = .ok (.vsra ⟨5, 6, 7, 1, none⟩, 1) ∧
    decodeWords [0x411461F9] = .ok (.vsel ⟨5, 6, 7, 1, none⟩, 1) := by
  exact ⟨rfl, rfl, rfl, rfl, rfl, rfl, rfl, rfl⟩
theorem test_decode_42 :
    decodeWords [0x421461C1] = .ok (.vaddF32 ⟨5, 6, 7, 1, none⟩, 1) ∧
    decodeWords [0x421461C9] = .ok (.vsubF32 ⟨5, 6, 7, 1, none⟩, 1) ∧
    decodeWords [0x421461D1] = .ok (.vmulF32 ⟨5, 6, 7, 1, none⟩, 1) ∧
    decodeWords [0x421461D9] = .ok (.vfmaF32 ⟨5, 6, 7, 1, none⟩, 1) ∧
    decodeWords [0x421461E1] = .ok (.vfmsF32 ⟨5, 6, 7, 1, none⟩, 1) ∧
    decodeWords [0x421461E9] = .ok (.vminF32 ⟨5, 6, 7, 1, none⟩, 1) ∧
    decodeWords [0x421461F1] = .ok (.vmaxF32 ⟨5, 6, 7, 1, none⟩, 1) ∧
    decodeWords [0x421461F9] = .ok (.vdivF32 ⟨5, 6, 7, 1, none⟩, 1) := by
  exact ⟨rfl, rfl, rfl, rfl, rfl, rfl, rfl, rfl⟩
theorem test_decode_43 :
    decodeWords [0x431461C1] = .ok (.vaddF64 ⟨5, 6, 7, 1, none⟩, 1) ∧
    decodeWords [0x431461C9] = .ok (.vsubF64 ⟨5, 6, 7, 1, none⟩, 1) ∧
    decodeWords [0x431461D1] = .ok (.vmulF64 ⟨5, 6, 7, 1, none⟩, 1) ∧
    decodeWords [0x431461D9] = .ok (.vfmaF64 ⟨5, 6, 7, 1, none⟩, 1) ∧
    decodeWords [0x431461E1] = .ok (.vfmsF64 ⟨5, 6, 7, 1, none⟩, 1) ∧
    decodeWords [0x431461E9] = .ok (.vminF64 ⟨5, 6, 7, 1, none⟩, 1) ∧
    decodeWords [0x431461F1] = .ok (.vmaxF64 ⟨5, 6, 7, 1, none⟩, 1) ∧
    decodeWords [0x431461F9] = .ok (.vdivF64 ⟨5, 6, 7, 1, none⟩, 1) := by
  exact ⟨rfl, rfl, rfl, rfl, rfl, rfl, rfl, rfl⟩
theorem test_decode_44 :
    decodeWords [0x441461C1] = .ok (.vceqF32 ⟨5, 6, 7, 1, none⟩, 1) ∧
    decodeWords [0x441461C9] = .ok (.vcltF32 ⟨5, 6, 7, 1, none⟩, 1) ∧
    decodeWords [0x441461D1] = .ok (.vcleF32 ⟨5, 6, 7, 1, none⟩, 1) ∧
    decodeWords [0x441461D9] = .ok (.vcunF32 ⟨5, 6, 7, 1, none⟩, 1) ∧
    decodeWords [0x441461E1] = .ok (.vceqI32 ⟨5, 6, 7, 1, none⟩, 1) ∧
    decodeWords [0x441461E9] = .ok (.vcltI32 ⟨5, 6, 7, 1, none⟩, 1) ∧
    decodeWords [0x441461F1] = .ok (.vcltuI32 ⟨5, 6, 7, 1, none⟩, 1) ∧
    decodeWords [0x441461F9] = .ok (.vcleI32 ⟨5, 6, 7, 1, none⟩, 1) := by
  exact ⟨rfl, rfl, rfl, rfl, rfl, rfl, rfl, rfl⟩
theorem test_decode_45 :
    decodeWords [0x451461C1] = .ok (.mand ⟨5, 6, 7, 1, none⟩, 1) ∧
    decodeWords [0x451461C9] = .ok (.mor ⟨5, 6, 7, 1, none⟩, 1) ∧
    decodeWords [0x451461D1] = .ok (.mxor ⟨5, 6, 7, 1, none⟩, 1) ∧
    decodeWords [0x451461D9] = .ok (.mandn ⟨5, 6, 7, 1, none⟩, 1) ∧
    decodeWords [0x45146C21] = .ok (.mpop ⟨5, 6, 48, 1, none⟩, 1) ∧
    decodeWords [0x45146C29] = .ok (.mffs ⟨5, 6, 48, 1, none⟩, 1) ∧
    decodeWords [0x45146C31] = .ok (.mset ⟨5, 6, 48, 1, none⟩, 1) ∧
    decodeWords [0x45146C39] = .ok (.mget ⟨5, 6, 48, 1, none⟩, 1) := by
  exact ⟨rfl, rfl, rfl, rfl, rfl, rfl, rfl, rfl⟩
theorem test_decode_46 :
    decodeWords [0x461461C1] = .ok (.vperm ⟨5, 6, 7, 1, none⟩, 1) ∧
    decodeWords [0x461461C9] = .ok (.vshuf ⟨5, 6, 7, 1, none⟩, 1) := by
  exact ⟨rfl, rfl⟩
theorem test_decode_47 :
    decodeWords [0x47146C01] = .ok (.vrsumF32 ⟨5, 6, 48, 1, none⟩, 1) ∧
    decodeWords [0x47146C09] = .ok (.vrmaxF32 ⟨5, 6, 48, 1, none⟩, 1) ∧
    decodeWords [0x47146C11] = .ok (.vrminF32 ⟨5, 6, 48, 1, none⟩, 1) ∧
    decodeWords [0x47146C19] = .ok (.vrsumF64 ⟨5, 6, 48, 1, none⟩, 1) ∧
    decodeWords [0x47146C21] = .ok (.vrsumI32 ⟨5, 6, 48, 1, none⟩, 1) ∧
    decodeWords [0x47146C29] = .ok (.vrmaxI32 ⟨5, 6, 48, 1, none⟩, 1) ∧
    decodeWords [0x47146C31] = .ok (.vrminI32 ⟨5, 6, 48, 1, none⟩, 1) := by
  exact ⟨rfl, rfl, rfl, rfl, rfl, rfl, rfl⟩
theorem test_decode_48 :
    decodeWords [0x48146C01] = .ok (.vmov ⟨5, 6, 48, 1, none⟩, 1) ∧
    decodeWords [0x48146C09] = .ok (.vxget ⟨5, 6, 48, 1, none⟩, 1) ∧
    decodeWords [0x48C061D1] = .ok (.vxput ⟨48, 6, 7, 1, none⟩, 1) ∧
    decodeWords [0x481461D9] = .ok (.vins ⟨5, 6, 7, 1, none⟩, 1) ∧
    decodeWords [0x481461E1] = .ok (.vext ⟨5, 6, 7, 1, none⟩, 1) ∧
    decodeWords [0x48146C29] = .ok (.vbcast ⟨5, 6, 48, 1, none⟩, 1) := by
  exact ⟨rfl, rfl, rfl, rfl, rfl, rfl⟩
theorem test_decode_49 :
    decodeWords [0x491461C1] = .ok (.vcvtF32I32 ⟨5, 6, 7, 1, none⟩, 1) ∧
    decodeWords [0x491461C9] = .ok (.vcvtI32F32 ⟨5, 6, 7, 1, none⟩, 1) ∧
    decodeWords [0x491461D1] = .ok (.vcvtF64F32 ⟨5, 6, 7, 1, none⟩, 1) ∧
    decodeWords [0x491461D9] = .ok (.vcvtF32F64 ⟨5, 6, 7, 1, none⟩, 1) ∧
    decodeWords [0x491461E1] = .ok (.vcvtBf16F32 ⟨5, 6, 7, 1, none⟩, 1) ∧
    decodeWords [0x491461E9] = .ok (.vcvtF32Bf16 ⟨5, 6, 7, 1, none⟩, 1) ∧
    decodeWords [0x491461F1] = .ok (.vcvtF16F32 ⟨5, 6, 7, 1, none⟩, 1) ∧
    decodeWords [0x491461F9] = .ok (.vcvtF32F16 ⟨5, 6, 7, 1, none⟩, 1) := by
  exact ⟨rfl, rfl, rfl, rfl, rfl, rfl, rfl, rfl⟩
theorem test_decode_4A :
    decodeWords [0x4A1461C1] = .ok (.vpkSx2 ⟨5, 6, 7, 1, none⟩, 1) ∧
    decodeWords [0x4A1461C9] = .ok (.vpkSx4 ⟨5, 6, 7, 1, none⟩, 1) ∧
    decodeWords [0x4A1461D1] = .ok (.vpkSx7 ⟨5, 6, 7, 1, none⟩, 1) ∧
    decodeWords [0x4A1461E1] = .ok (.vupkSx2 ⟨5, 6, 7, 1, none⟩, 1) ∧
    decodeWords [0x4A1461E9] = .ok (.vupkSx4 ⟨5, 6, 7, 1, none⟩, 1) ∧
    decodeWords [0x4A1461F1] = .ok (.vupkSx7 ⟨5, 6, 7, 1, none⟩, 1) := by
  exact ⟨rfl, rfl, rfl, rfl, rfl, rfl⟩
theorem test_decode_4B :
    decodeWords [0x4B146C01] = .ok (.vexp2 ⟨5, 6, 48, 1, none⟩, 1) ∧
    decodeWords [0x4B146C09] = .ok (.vrcp ⟨5, 6, 48, 1, none⟩, 1) ∧
    decodeWords [0x4B146C11] = .ok (.vrsqrt ⟨5, 6, 48, 1, none⟩, 1) ∧
    decodeWords [0x4B146C19] = .ok (.vlog2 ⟨5, 6, 48, 1, none⟩, 1) := by
  exact ⟨rfl, rfl, rfl, rfl⟩
theorem test_decode_60 :
    decodeWords [0xFE001FFF, 0x604040B0] = .ok (.tcfg ⟨2, 0, 0, 129, 3, some 0x1FFF⟩, 2) ∧
    decodeWords [0xFE000189, 0x604040B1] = .ok (.trowin ⟨2, 0, 0, 129, 3, some 0x189⟩, 2) ∧
    decodeWords [0xFE00018A, 0x606040B2] = .ok (.trowout ⟨3, 0, 0, 129, 3, some 0x18A⟩, 2) ∧
    decodeWords [0xFE00018B, 0x608040B3] = .ok (.tcolin ⟨4, 0, 0, 129, 3, some 0x18B⟩, 2) ∧
    decodeWords [0xFE00018A, 0x60A040B4] = .ok (.tcolout ⟨5, 0, 0, 129, 3, some 0x18A⟩, 2) ∧
    decodeWords [0x60A040B5] = .ok (.tzero ⟨5, 0, 0, 129, 3, none⟩, 1) ∧
    decodeWords [0x60A040B6] = .ok (.tfree ⟨5, 0, 0, 129, 3, none⟩, 1) := by
  exact ⟨rfl, rfl, rfl, rfl, rfl, rfl, rfl⟩
theorem test_decode_61 :
    decodeWords [0xFE000104, 0x61C040B0] = .ok (.tld ⟨6, 0, 0, 129, 3, some 0x104⟩, 2) ∧
    decodeWords [0xFE000104, 0x61E040B1] = .ok (.tst ⟨7, 0, 0, 129, 3, some 0x104⟩, 2) := by
  exact ⟨rfl, rfl⟩
theorem test_decode_62 :
    decodeWords [0x62DBC0B0] = .ok (.tmmaBf16 ⟨6, 6, 7, 129, 3, none⟩, 1) ∧
    decodeWords [0x62DBC0B1] = .ok (.tmmaSx7 ⟨6, 6, 7, 129, 3, none⟩, 1) ∧
    decodeWords [0x62DBC0B2] = .ok (.tmmaSx4 ⟨6, 6, 7, 129, 3, none⟩, 1) ∧
    decodeWords [0x62DBC0B3] = .ok (.tmmaSx2 ⟨6, 6, 7, 129, 3, none⟩, 1) := by
  exact ⟨rfl, rfl, rfl, rfl⟩
theorem test_decode_63 :
    decodeWords [0xFE0001C7, 0x630040B0] = .ok (.gissueBf16 ⟨0, 0, 0, 129, 3, some 0x1C7⟩, 2) ∧
    decodeWords [0xFE0001C7, 0x630040B1] = .ok (.gissueSx7 ⟨0, 0, 0, 129, 3, some 0x1C7⟩, 2) ∧
    decodeWords [0xFE0001C7, 0x630040B2] = .ok (.gissueSx4 ⟨0, 0, 0, 129, 3, some 0x1C7⟩, 2) ∧
    decodeWords [0xFE0001C7, 0x630040B3] = .ok (.gissueSx2 ⟨0, 0, 0, 129, 3, some 0x1C7⟩, 2) := by
  exact ⟨rfl, rfl, rfl, rfl⟩
theorem test_decode_64 :
    decodeWords [0x64B840B0] = .ok (.taccrd ⟨5, 6, 0, 129, 3, none⟩, 1) ∧
    decodeWords [0x64D440B1] = .ok (.taccwr ⟨6, 5, 0, 129, 3, none⟩, 1) ∧
    decodeWords [0x640040B2] = .ok (.tacczero ⟨0, 0, 0, 129, 3, none⟩, 1) := by
  exact ⟨rfl, rfl, rfl⟩
theorem test_decode_70 :
    decodeWords [0x70146808] = .ok (.ldI8 ⟨5, 6, 2, 0x1, []⟩, 1) ∧
    decodeWords [0x70146809] = .ok (.ldN8 ⟨5, 6, 2, 0x1, []⟩, 1) ∧
    decodeWords [0x7014680A] = .ok (.ldI16 ⟨5, 6, 2, 0x1, []⟩, 1) ∧
    decodeWords [0x7014680B] = .ok (.ldN16 ⟨5, 6, 2, 0x1, []⟩, 1) ∧
    decodeWords [0x7014680C] = .ok (.ldI32 ⟨5, 6, 2, 0x1, []⟩, 1) ∧
    decodeWords [0x7014680D] = .ok (.ldN32 ⟨5, 6, 2, 0x1, []⟩, 1) ∧
    decodeWords [0x7014680E] = .ok (.ld64 ⟨5, 6, 2, 0x1, []⟩, 1) := by
  exact ⟨rfl, rfl, rfl, rfl, rfl, rfl, rfl⟩
theorem test_decode_71 :
    decodeWords [0x71146808] = .ok (.st8 ⟨5, 6, 2, 0x1, []⟩, 1) ∧
    decodeWords [0x71146809] = .ok (.st16 ⟨5, 6, 2, 0x1, []⟩, 1) ∧
    decodeWords [0x7114680A] = .ok (.st32 ⟨5, 6, 2, 0x1, []⟩, 1) ∧
    decodeWords [0x7114680B] = .ok (.st64 ⟨5, 6, 2, 0x1, []⟩, 1) := by
  exact ⟨rfl, rfl, rfl, rfl⟩
theorem test_decode_72 :
    decodeWords [0x72146808] = .ok (.vld ⟨5, 6, 2, 0x1, []⟩, 1) ∧
    decodeWords [0x72146809] = .ok (.vst ⟨5, 6, 2, 0x1, []⟩, 1) ∧
    decodeWords [0x7214680A] = .ok (.vldm ⟨5, 6, 2, 0x1, []⟩, 1) ∧
    decodeWords [0x7214680B] = .ok (.vstm ⟨5, 6, 2, 0x1, []⟩, 1) := by
  exact ⟨rfl, rfl, rfl, rfl⟩
theorem test_decode_73 :
    decodeWords [0x731461C1] = .ok (.vlds ⟨5, 6, 7, 1, none⟩, 1) ∧
    decodeWords [0x731461C9] = .ok (.vsts ⟨5, 6, 7, 1, none⟩, 1) ∧
    decodeWords [0x731461D1] = .ok (.vgath ⟨5, 6, 7, 1, none⟩, 1) ∧
    decodeWords [0x731461D9] = .ok (.vscat ⟨5, 6, 7, 1, none⟩, 1) := by
  exact ⟨rfl, rfl, rfl, rfl⟩
theorem test_decode_74 :
    decodeWords [0x74C06808] = .ok (.pref ⟨48, 6, 2, 0x1, []⟩, 1) := by
  rfl
theorem test_decode_75 :
    decodeWords [0x75C06808] = .ok (.migrate ⟨48, 6, 2, 0x1, []⟩, 1) := by
  rfl
theorem test_decode_76 :
    decodeWords [0x76146808] = .ok (.mapr ⟨5, 6, 2, 0x1, []⟩, 1) ∧
    decodeWords [0x76C06809] = .ok (.unmapr ⟨48, 6, 2, 0x1, []⟩, 1) := by
  exact ⟨rfl, rfl⟩
theorem test_decode_77 :
    decodeWords [0x77C00151] = .ok (.fence ⟨48, 42, 1, []⟩, 1) := by
  rfl
theorem test_decode_78 :
    decodeWords [0x78146858] = .ok (.lda32 ⟨5, 6, 2, 0xB, []⟩, 1) ∧
    decodeWords [0x78146859] = .ok (.lda64 ⟨5, 6, 2, 0xB, []⟩, 1) ∧
    decodeWords [0x7814685A] = .ok (.stl32 ⟨5, 6, 2, 0xB, []⟩, 1) ∧
    decodeWords [0x7814685B] = .ok (.stl64 ⟨5, 6, 2, 0xB, []⟩, 1) := by
  exact ⟨rfl, rfl, rfl, rfl⟩
theorem test_decode_80 :
    decodeWords [0x80146998] = .ok (.amoadd64 ⟨5, 6, 2, 0x33, []⟩, 1) ∧
    decodeWords [0x80146999] = .ok (.amoand64 ⟨5, 6, 2, 0x33, []⟩, 1) ∧
    decodeWords [0x8014699A] = .ok (.amoor64 ⟨5, 6, 2, 0x33, []⟩, 1) ∧
    decodeWords [0x8014699B] = .ok (.amoxor64 ⟨5, 6, 2, 0x33, []⟩, 1) ∧
    decodeWords [0x8014699C] = .ok (.amomin64 ⟨5, 6, 2, 0x33, []⟩, 1) ∧
    decodeWords [0x8014699D] = .ok (.amomax64 ⟨5, 6, 2, 0x33, []⟩, 1) ∧
    decodeWords [0x8014699E] = .ok (.amoswap64 ⟨5, 6, 2, 0x33, []⟩, 1) ∧
    decodeWords [0x8014699F] = .ok (.amocas64 ⟨5, 6, 2, 0x33, []⟩, 1) := by
  exact ⟨rfl, rfl, rfl, rfl, rfl, rfl, rfl, rfl⟩
theorem test_decode_81 :
    decodeWords [0x81146998] = .ok (.amoadd32 ⟨5, 6, 2, 0x33, []⟩, 1) ∧
    decodeWords [0x81146999] = .ok (.amoand32 ⟨5, 6, 2, 0x33, []⟩, 1) ∧
    decodeWords [0x8114699A] = .ok (.amoor32 ⟨5, 6, 2, 0x33, []⟩, 1) ∧
    decodeWords [0x8114699B] = .ok (.amoxor32 ⟨5, 6, 2, 0x33, []⟩, 1) ∧
    decodeWords [0x8114699C] = .ok (.amomin32 ⟨5, 6, 2, 0x33, []⟩, 1) ∧
    decodeWords [0x8114699D] = .ok (.amomax32 ⟨5, 6, 2, 0x33, []⟩, 1) ∧
    decodeWords [0x8114699E] = .ok (.amoswap32 ⟨5, 6, 2, 0x33, []⟩, 1) ∧
    decodeWords [0x8114699F] = .ok (.amocas32 ⟨5, 6, 2, 0x33, []⟩, 1) := by
  exact ⟨rfl, rfl, rfl, rfl, rfl, rfl, rfl, rfl⟩
theorem test_decode_82 :
    decodeWords [0x821461C1] = .ok (.vamoAdd ⟨5, 6, 7, 1, none⟩, 1) ∧
    decodeWords [0x821461C9] = .ok (.vamoAnd ⟨5, 6, 7, 1, none⟩, 1) ∧
    decodeWords [0x821461D1] = .ok (.vamoOr ⟨5, 6, 7, 1, none⟩, 1) ∧
    decodeWords [0x821461D9] = .ok (.vamoXor ⟨5, 6, 7, 1, none⟩, 1) ∧
    decodeWords [0x821461E1] = .ok (.vamoMin ⟨5, 6, 7, 1, none⟩, 1) ∧
    decodeWords [0x821461E9] = .ok (.vamoMax ⟨5, 6, 7, 1, none⟩, 1) ∧
    decodeWords [0x821461F1] = .ok (.vamoFadd ⟨5, 6, 7, 1, none⟩, 1) := by
  exact ⟨rfl, rfl, rfl, rfl, rfl, rfl, rfl⟩
theorem test_decode_88 :
    decodeWords [0x88C06C01] = .ok (.cpy ⟨48, 6, 48, 1, none⟩, 1) ∧
    decodeWords [0x88C06C09] = .ok (.cpym ⟨48, 6, 48, 1, none⟩, 1) ∧
    decodeWords [0x88C06C11] = .ok (.cpyf ⟨48, 6, 48, 1, none⟩, 1) := by
  exact ⟨rfl, rfl, rfl⟩
theorem test_decode_90 :
    decodeWords [0x90146898] = .ok (.propose ⟨5, 6, 2, 0x13, []⟩, 1) ∧
    decodeWords [0x901468D9] = .ok (.dread ⟨5, 6, 2, 0x1B, []⟩, 1) ∧
    decodeWords [0x9014689A] = .ok (.dretire ⟨5, 6, 2, 0x13, []⟩, 1) ∧
    decodeWords [0x9014689B] = .ok (.dinit ⟨5, 6, 2, 0x13, []⟩, 1) := by
  exact ⟨rfl, rfl, rfl, rfl⟩
theorem test_decode_91 :
    decodeWords [0x91C06C01] = .ok (.fcfg ⟨48, 6, 48, 1, none⟩, 1) ∧
    decodeWords [0x91C06C09] = .ok (.fstart ⟨48, 6, 48, 1, none⟩, 1) ∧
    decodeWords [0x91C06C11] = .ok (.fstop ⟨48, 6, 48, 1, none⟩, 1) ∧
    decodeWords [0x91C06C19] = .ok (.fstat ⟨48, 6, 48, 1, none⟩, 1) := by
  exact ⟨rfl, rfl, rfl, rfl⟩
theorem test_decode_92 :
    decodeWords [0x92C061C1] = .ok (.spawn ⟨48, 6, 7, 1, none⟩, 1) ∧
    decodeWords [0x92C061C9] = .ok (.send ⟨48, 6, 7, 1, none⟩, 1) ∧
    decodeWords [0x921461D1] = .ok (.recv ⟨5, 6, 7, 1, none⟩, 1) ∧
    decodeWords [0x92146C19] = .ok (.msgwait ⟨5, 6, 48, 1, none⟩, 1) ∧
    decodeWords [0x92C061E1] = .ok (.fork ⟨48, 6, 7, 1, none⟩, 1) ∧
    decodeWords [0x92C06C29] = .ok (.rdv ⟨48, 6, 48, 1, none⟩, 1) ∧
    decodeWords [0x921461F1] = .ok (.glaunch ⟨5, 6, 7, 1, none⟩, 1) ∧
    decodeWords [0x92C061F9] = .ok (.nred ⟨48, 6, 7, 1, none⟩, 1) := by
  exact ⟨rfl, rfl, rfl, rfl, rfl, rfl, rfl, rfl⟩
theorem test_decode_93 :
    decodeWords [0x93C061C1] = .ok (.dep ⟨48, 6, 7, 1, none⟩, 1) ∧
    decodeWords [0x93146C09] = .ok (.mbclr ⟨5, 6, 48, 1, none⟩, 1) := by
  exact ⟨rfl, rfl⟩
theorem test_decode_94 :
    decodeWords [0x94C06C01] = .ok (.arrive ⟨48, 6, 48, 1, none⟩, 1) ∧
    decodeWords [0x94C06C09] = .ok (.arrw ⟨48, 6, 48, 1, none⟩, 1) ∧
    decodeWords [0x94C06C11] = .ok (.waitb ⟨48, 6, 48, 1, none⟩, 1) ∧
    decodeWords [0x94C06C19] = .ok (.join ⟨48, 6, 48, 1, none⟩, 1) ∧
    decodeWords [0x94C06C21] = .ok (.leave ⟨48, 6, 48, 1, none⟩, 1) ∧
    decodeWords [0x94C06C29] = .ok (.dswait ⟨48, 6, 48, 1, none⟩, 1) ∧
    decodeWords [0x94C06C31] = .ok (.dsset ⟨48, 6, 48, 1, none⟩, 1) := by
  exact ⟨rfl, rfl, rfl, rfl, rfl, rfl, rfl⟩
theorem test_decode_95 :
    decodeWords [0x95146C01] = .ok (.cntrd ⟨5, 6, 48, 1, none⟩, 1) ∧
    decodeWords [0x951461C9] = .ok (.cntadd ⟨5, 6, 7, 1, none⟩, 1) := by
  exact ⟨rfl, rfl⟩
theorem test_decode_96 :
    decodeWords [0x96C061C1] = .ok (.rlaunch ⟨48, 6, 7, 1, none⟩, 1) ∧
    decodeWords [0x96146C09] = .ok (.rstat ⟨5, 6, 48, 1, none⟩, 1) := by
  exact ⟨rfl, rfl⟩

/-! ### Witnesses: states and operands that meet the hypotheses of each statement -/

/-- An action that succeeds. -/
abbrev Ok {ε α : Type} (e : Except ε α) : Prop := ∃ x, e = .ok x

theorem ok_of {ε α : Type} {e : Except ε α} (h : e.isOk = true) : Ok e := by
  cases e with
  | error _ => simp [Except.isOk, Except.toBool] at h
  | ok x => exact ⟨x, rfl⟩

/-- Two actions, the second on what the first answers. -/
theorem ok_two {ε α β : Type} {e : Except ε α} {f : α → Except ε β} (h : (e.bind f).isOk = true) :
    ∃ x y, e = .ok x ∧ f x = .ok y := by
  cases e with
  | error _ => simp [Except.bind, Except.isOk, Except.toBool] at h
  | ok x => obtain ⟨y, hy⟩ := ok_of h; exact ⟨x, y, rfl, hy⟩

/-- A footprint that has a first piece. -/
theorem ok_cons {ε α : Type} {e : Except ε (List α)} {p : α → List α → Bool} (h : (match e with
    | .ok (x :: l) => p x l
    | _ => false) = true) : ∃ x l, e = .ok (x :: l) ∧ p x l = true := by
  match e, h with
  | .ok (x :: l), h => exact ⟨x, l, rfl, h⟩

/-- Thread 1 with segment 1 mapping DRAM by one page segment 2 a decide-once page
and segment 3 MMIO; entries of 16 GiB. -/
def dram : State :=
  ((base.modRegs fun r => { r with seg := #v[0xFFFF, 1, 2, 0xFFFF] }).modStove 0 fun t =>
    { t with segs := [⟨0, 1, 0x40000000, 0x400000000⟩, ⟨0, 2, 0x40001000, 0x400000000⟩,
      ⟨0, 3, 0x40002000, 0x400000000⟩] }).store 0x40000000 [0x1F] |>.store 0x40001000 [0x2F]
    |>.store 0x40002000 [0x1F, 0, 0, 0, 0, 0x7F]

/-- A format M word. -/
def fM (d b : BitVec 6) (sg : BitVec 2) : FmtM := ⟨d, b, sg, 0, []⟩

theorem witness_ScalarResults : DstOk 48 ∧ DstOk 31 ∧ readScalar base 0 2 = .ok 0 ∧
    readB base 1 ⟨0, 2, 48, 0, some 0xFFFFFF⟩ true = .ok (BitVec.allOnes 64) ∧
    readB base 1 ⟨0, 2, 48, 0, some 0xFFFFFF⟩ false = .ok 0xFFFFFF ∧ readB base 1 (fA 0 2 48) true = .ok 0 ∧
    readB base 1 (fA 0 2 48) false = .ok 0 ∧ readScalar base 2 32 = .ok 0 :=
  ⟨.inr rfl, .inl (by decide), rfl, rfl, rfl, rfl, rfl, rfl⟩

theorem witness_MuldResults :
    let s := withG 2 0x8000000000000000 (withG 3 0xFFFFFFFFFFFFFFFF base)
    DstOk 0 ∧ readScalar s 0 2 = .ok (BitVec.intMin 64) ∧ readB s 1 (fA 0 2 3) true = .ok (BitVec.allOnes 64) ∧
    readB s 1 (fA 0 2 3) false = .ok (BitVec.allOnes 64) ∧ readB s 1 (fA 0 2 4) true = .ok 0 :=
  ⟨.inl (by decide), rfl, rfl, rfl, rfl⟩

theorem witness_PackResults : DstOk 0 ∧ readScalar base 0 2 = .ok 0 ∧ readB base 1 (fA 0 2 3) true = .ok 0 :=
  ⟨.inl (by decide), rfl, rfl⟩

theorem witness_ImmediateResults : DstOk 48 ∧ DValue ⟨48, 0, 0, []⟩ base 0 ∧ DValue ⟨31, 0, 0, []⟩ base 0 :=
  ⟨.inr rfl, .inr ⟨rfl, rfl⟩, .inl ⟨by decide, rfl⟩⟩

theorem witness_VectorIntegerResults : DstOk 0 ∧ Ok (readVector base 0 2) ∧ Ok (vectorB true (fA 0 2 3) base) ∧
    Ok (vectorB false (fA 0 2 3) base) ∧ readScalar base 2 32 = .ok 0 :=
  ⟨.inl (by decide), ok_of rfl, ok_of rfl, ok_of rfl, rfl⟩

theorem witness_VectorFloatResults : DstOk 48 ∧ DstOk 0 ∧ Ok (readVector base 0 2) ∧ Ok (readVector base 1 3) ∧
    Ok (readVector base 2 0) :=
  ⟨.inr rfl, .inl (by decide), ok_of rfl, ok_of rfl, ok_of rfl⟩

theorem witness_VectorCompareAndMaskResults : MaskDstOk 7 ∧ MaskDstOk 48 ∧ DstOk 0 ∧ Ok (readVector base 0 2) ∧
    Ok (readVector base 1 3) ∧ readMask base 0 7 = .ok 0 ∧ readMask base 1 0 = .ok 0 :=
  ⟨.inl (by decide), .inr rfl, .inl (by decide), ok_of rfl, ok_of rfl, rfl, rfl⟩

theorem witness_PermuteAndReductionResults : DstOk 0 ∧ Ok (readVector base 0 2) ∧ Ok (readVector base 1 3) ∧
    readScalar base 1 48 = .ok 0 :=
  ⟨.inl (by decide), ok_of rfl, ok_of rfl, rfl⟩

theorem witness_MoveResults :
    let s := withG 2 191 (withG 3 192 base)
    DstOk 0 ∧ MaskDstOk 0 ∧ Ok (readVector s 0 2) ∧ readScalar s 0 2 = .ok 191 ∧ readScalar s 0 3 = .ok 192 ∧
    readScalar s 1 2 = .ok 191 ∧ Ok (readVector s 2 0) ∧ Ok (readVector s 1 2) ∧
    Ok (readPlace s (.e 191) (s.regs.e[191]?.getD 0) (Config.shortVector (freeIdx s 1))) :=
  ⟨.inl (by decide), .inl (by decide), ok_of rfl, rfl, rfl, rfl, ok_of rfl, ok_of rfl, ok_of rfl⟩

theorem witness_ConversionAndApproximationResults : DstOk 0 ∧ Ok (readVector base 0 2) ∧
    readScalar (withG 3 5 base) 1 3 = .ok 5 ∧ readScalar (withG 3 4 base) 1 3 = .ok 4 ∧ (modeOf 4).isSome = true :=
  ⟨.inl (by decide), ok_of rfl, rfl, rfl, rfl⟩

theorem witness_SharedExponentResults :
    DstOk 0 ∧ Ok (readVector base 0 2) ∧ (∃ c, readControl (fA 0 2 48) false base = .ok c ∧ c.sigma = none) ∧
    (∃ c, readControl (fA 0 2 48) true base = .ok c ∧ c.sigma = none) ∧
    (∃ c sig, readControl (fA 0 2 6) true (withG 6 0x0000400840400000 base) = .ok c ∧ c.sigma = some sig ∧
      (sxPackScaled 4 c.mode (fun i => drawOf base i) sig ((List.range 16).map fun _ => f32.decode 0)).2 = []) :=
  ⟨.inl (by decide), ok_of rfl, ⟨_, rfl, rfl⟩, ⟨_, rfl, rfl⟩, ⟨_, _, rfl, rfl, rfl⟩⟩

/-- A repeat frame of two words and `n` iterations, at an iteration and a position. -/
def inFrame (n : Nat) (rit rpos : Nat) : State :=
  (base.setRep { ra := true, rit := rit, rpos := rpos, base := 0xFFC, cnt := BitVec.ofNat 25 n }).setFrame (some ⟨0, [[0], [0]]⟩)

theorem witness_AdvanceFollowsTheFrame : base.rep.ra = false ∧
    ((inFrame 2 0 0).rep.ra = true ∧ (inFrame 2 0 0).rep.rpos + 1 < 2) ∧
    ((inFrame 2 0 1).rep.ra = true ∧ 2 ≤ (inFrame 2 0 1).rep.rpos + 1 ∧ (inFrame 2 0 1).rep.rit + 1 < 2) ∧
    ((inFrame 2 1 1).rep.ra = true ∧ 2 ≤ (inFrame 2 1 1).rep.rpos + 1 ∧ (inFrame 2 1 1).rep.cnt.toNat ≤ (inFrame 2 1 1).rep.rit + 1) := by
  decide

theorem witness_BranchResults : (48 : BitVec 6).toNat = 48 ∧ (2 : BitVec 6).toNat ≠ 48 ∧ readScalar base 0 2 = .ok 0 := ⟨rfl, by decide, rfl⟩

/-- A full return-address store, with its spill area and pointer. -/
def fullRas (rsl rsp : Word) : State := base.modRegs fun r => { r with rsl := rsl, rsp := rsp, ras := List.replicate 16 0x40 }

theorem witness_CallAndReturnResults :
    readScalar base 0 2 = .ok 0 ∧ condHolds 0 0 = true ∧ condHolds 1 0 = false ∧ base.regs.ras.length < 16 ∧
    (16 ≤ (fullRas 0x20003 0x20020).regs.ras.length ∧ 0x20020 < 0x20020 + 8) ∧
    (∃ ps t, place (fullRas 0x20003 0x20018) (segOf (fullRas 0x20003 0x20018) 0) 0x20018 8 .store rawRegion = .ok ps ∧
      sendWrites (fullRas 0x20003 0x20018) ps ((bytesOfNat 8 0x40).map some) 0 false = .ok t) ∧
    (∃ l, (fullRas 0 0).regs.ras = 0x40 :: l) ∧
    ((base.modRegs fun r => { r with rsl := 0x20003, rsp := 0x20000 }).regs.ras = []) ∧
    Ok (loadRaw (base.modRegs fun r => { r with rsl := 0x20003, rsp := 0x20020 }) 0xFFFF 0x20018 8) :=
  ⟨rfl, rfl, rfl, by decide, by decide, ok_two rfl, ⟨_, rfl⟩, rfl, ok_of rfl⟩

/-- A jump table at 0x1004 with one entry, whose target is two words past it: a landing pad of label 0. -/
def table : State := withBytes 0x1008 [2, 0, 0, 0, 0, 0, 0, 0x3C] base

theorem witness_JumpTableAndRepeatResults :
    readScalar table 0 2 = .ok 0 ∧ (∃ t u v, fetchWord table 0x1000 0x1004 = .ok (0, t) ∧ fetchWord t 0x1000 0x1008 = .ok (2, u) ∧
      fetchWord u 0x1000 0x100C = .ok (0x3C000000, v)) ∧
    (∃ t, fetchWord (withBytes 0x1007 [1] base) 0x1000 0x1004 = .ok (0x01000000, t)) ∧
    (∃ t u, fetchWord (withBytes 0x100B [1] base) 0x1000 0x1004 = .ok (0, t) ∧ fetchWord t 0x1000 0x1008 = .ok (0x01000000, u)) ∧
    base.rep.ra = false ∧ (inFrame 2 0 0).rep.ra = true ∧
    Ok (captureFrame (withBytes 0x1004 [0, 0x21, 0, 1] base) 0x1000 1 0) ∧ readScalar (withG 2 0x1000000 base) 0 2 = .ok (2 ^ 24) ∧
    readScalar (withG 2 0x1000001 base) 0 2 = .ok (2 ^ 24 + 1) :=
  ⟨rfl, ⟨_, _, _, rfl, rfl, rfl⟩, ⟨_, rfl⟩, ⟨_, _, rfl, rfl⟩, rfl, rfl, ok_of rfl, rfl, rfl⟩

/-- A second thread on the run list of core 0. -/
def twoThreads : State := { base with core := { base.core with runList := [{ Ctx.reset with tid := 2, status := .queued }] } }

theorem witness_YieldHaltTrapResults : readScalar base 0 2 = .ok 0 ∧ base.core.runList = [] ∧
    ((∃ c, twoThreads.core.runList = c :: []) ∧ twoThreads.core.ctx.drained = true ∧ twoThreads.core.ctx.busy = [] ∧
      twoThreads.core.lost = false) ∧
    ({ base with seqr := .matrix } : State).seqr ≠ .main ∧
    (haltQuiet base.core.ctx = true ∧ deliver 0xFF [.matrix, .copy, .flue, .main] base = .ok () ∧ base.core.ctx.unacked = 0 ∧
      base.core.ctx.pend = [] ∧ base.core.ctx.busy = [] ∧ groupsOf base 0 1 = [] ∧ base.core.ctx.gang.isNone = true) :=
  ⟨rfl, rfl, ⟨⟨_, rfl⟩, rfl, rfl, rfl⟩, by decide, rfl, rfl, rfl, rfl, rfl, rfl, rfl⟩

/-- Core 1 of the hearth with a thread of its own. -/
def pairOfCores : State := { base with cores := [(1, { Core.reset with ctx := { base.core.ctx with tid := 2 } })] }

/-- Core 0 once it follows core 1. -/
def following : State := nextOf (exec (.follow (fA 48 2 48)) (withG 2 1 pairOfCores))

/-- Core 0 as the leader of core 1, whose TSW has the given bits 4 and 5; it stands at its REJOIN. -/
def leading (tsw : Word) : State :=
  { withTsw 0x20000 base with cores := [(1, { Core.reset with ctx := { base.core.ctx with
      tid := 2, status := .waiting, wait := .rejoin 0, regs := { base.regs with tsw := tsw } } })] }

theorem witness_FollowResults :
    (readScalar (withG 2 1 pairOfCores) 0 2 = .ok 1 ∧ followBad (withG 2 1 pairOfCores) 1 = false ∧
      freeHop (leaveSet (withG 2 1 pairOfCores) 0) 1 = some 1) ∧
    (readScalar (withG 2 8 pairOfCores) 0 2 = .ok 8 ∧ followBad (withG 2 8 pairOfCores) 8 = true) ∧
    (tswFol following.regs.tsw = true ∧ leaderOf following.me following.core.ctx = 1 ∧ followBad following 1 = false ∧
      following.core.ctx.attached = false ∧ (contextsOf following 1).any (fun c => c.leads 0) = true) ∧
    (withTsw 0x120 pairOfCores).core.ctx.attached = true ∧
    ((contextsOf (withTsw 0x120 pairOfCores) 1).all fun c => c.leads 0 == false) = true ∧
    base.core.ctx.attached = false ∧ followersOf base 0 = [] ∧
    (let s := leading 0x20
     followersOf s 0 = [1] ∧ tswFol s.regs.tsw = false ∧ tswFol (s.getCore 1).ctx.regs.tsw = true ∧
      leaderOf 1 (s.getCore 1).ctx = 0 ∧ (s.getCore 1).ctx.attached = true) ∧
    (let s := leading 0x30
     followersOf s 0 = [1] ∧ (s.getCore 1).ctx.attached = false ∧ (s.getCore 1).ctx.wait.rejoins = true ∧
      tswRa (s.getCore 1).ctx.regs.tsw = false ∧ (s.getCore 1).ctx.regs.pc = s.curPc) :=
  ⟨⟨rfl, by decide +kernel, by decide +kernel⟩, ⟨rfl, by decide +kernel⟩, by decide +kernel, rfl, by decide +kernel, rfl, rfl,
    by decide +kernel, by decide +kernel⟩

theorem witness_ReturnFromTrap : base.priv = false ∧ (withTsw 1 base).priv = true ∧
    readScalar (withG 2 32 (withTsw 1 base)) 0 2 = .ok 32 ∧ readScalar (withG 2 1 (withTsw 1 base)) 0 2 = .ok 1 ∧
    (∃ bs t, loadRaw (withTsw 1 base) (segOf (withTsw 1 base) 0) 32 32 = .ok (bs, t) ∧ bs.length = 32 ∧ natOfBytes bs % 4 = 0) :=
  ⟨rfl, rfl, rfl, rfl, ⟨_, _, rfl, rfl, rfl⟩⟩

theorem witness_SpecialRegisterResults : DstOk 0 ∧ (⟨0, 20, 0, []⟩ : FmtL).immNat = 20 ∧ 21 ≤ (⟨0, 21, 0, []⟩ : FmtL).immNat ∧
    readScalar base 0 0 = .ok 0 ∧ readScalar (withTsw 1 base) 0 0 = .ok 0 ∧ base.priv = false ∧ (withTsw 1 base).priv = true ∧
    (⟨0, 6, 0, []⟩ : FmtL).immNat = 6 ∧ (⟨0, 11, 0, []⟩ : FmtL).immNat = 11 ∧
    (base.cube 0).aitStove ≠ some (base.cube 0).clock :=
  ⟨.inl (by decide), rfl, by decide, rfl, rfl, rfl, rfl, rfl, rfl, by decide⟩

theorem witness_LoadResults :
    let s := withG 2 0x100 base
    DstOk 0 ∧ readScalar s 0 2 = .ok 0x100 ∧ (0x101 : Word).toNat % alignOf (regionAt s 0xFFFF 0x101) 2 ≠ 0 ∧
    (0x100 : Word).toNat % alignOf (regionAt s 0xFFFF 0x100) 8 = 0 ∧
    (∃ q qs, place s 0xFFFF 0x100 8 .load (scalarAllow 8) = .ok (q :: qs) ∧ (q.place.region != .mmio) = true) ∧
    (∃ q qs, place dram 3 0 8 .load (scalarAllow 8) = .ok (q :: qs) ∧ (q.place.region == .mmio) = true) ∧
    (∃ ps t, place s 0xFFFF 0x100 8 .load (scalarAllow 8) = .ok ps ∧ loadPieces s .load 0xFFFF true ps = .ok t) ∧
    s.answerLater = false ∧ ({ s with answerLater := true } : State).answerLater = true ∧ s.useL1 = false ∧
    (∃ q qs, place s 0xFFFF 0x100 8 .load (scalarAllow 8) = .ok (q :: qs) ∧
      ((poisonIn s (q :: qs)).isNone && s.mayRequest (.main 0) (homeOf s q.place) .ordered 1) = true) :=
  ⟨.inl (by decide), rfl, by decide, by decide, ok_cons (by decide +kernel), ok_cons (by decide +kernel), ok_two (by decide +kernel),
    rfl, rfl, rfl, ok_cons (by decide +kernel)⟩

theorem witness_StoreResults :
    let s := withG 2 0x100 base
    readScalar s 1 3 = .ok 0 ∧ readScalar s 0 2 = .ok 0x100 ∧ (0x101 : Word).toNat % alignOf (regionAt s 0xFFFF 0x101) 2 ≠ 0 ∧
    (∃ ps t, place s 0xFFFF 0x100 8 .store (scalarAllow 8) = .ok ps ∧
      sendWrites s ps ((storeBytes 0 8 0).map some) 0 true = .ok t) ∧
    (∃ q qs, place s 0xFFFF 0x100 8 .store (scalarAllow 8) = .ok (q :: qs) ∧
      (q.place.region != .mmio && q.place.addr % 32 + q.len ≤ 32 && q.len == 8 && qs.isEmpty) = true) :=
  ⟨rfl, rfl, by decide, ok_two (by decide +kernel), ok_cons (by decide +kernel)⟩

theorem witness_LocalSegment :
    (0 < 8 ∧ (0x3FFFF8 : Word).toNat % 4096 + 8 ≤ 4096 ∧ (0x3FFFF8 : Word).toNat + 8 ≤ 2 ^ 22 ∧ rawRegion (.spad 0 0) = true) ∧
    (0 < 4096 ∧ 2 ^ 22 ≤ (0x400000 : Word).toNat) := by decide

/-- The home of core 0 is at rest. -/
theorem calm_base : Calm base 0 := ⟨rfl, rfl, rfl, rfl, rfl, rfl, rfl, rfl⟩

theorem witness_OwnStoreIsSeen : 0x7FFF8 % 8 = 0 ∧ 0x7FFF8 + 8 ≤ 2 ^ 19 ∧ Memory.wf base.mem = true ∧
    base.core.ctx.unacked = 0 ∧ base.me < 163840 ∧ Calm base base.myCube ∧
    Ok (place base 0xFFFF (BitVec.ofNat 64 0x7FFF8) 8 .store (scalarAllow 8)) :=
  ⟨by decide, by decide, rfl, rfl, by decide, calm_base, ok_of (by decide +kernel)⟩

/-- A state with unacknowledged stores. -/
def busyStores (s : State) : State := s.modCtx fun c => { c with unacked := 1 }

theorem witness_OrderingResults :
    readScalar base 0 2 = .ok 0 ∧ DstOk 0 ∧ Ok (scalarLoad 4 false false 0xFFFF 0x100 1 base) ∧
    Ok (scalarStore 4 0xFFFF 0x100 7 base) ∧ Ok (scalarStore 4 0xFFFF 0x100 7 (busyStores base)) ∧
    (busyStores base).core.ctx.unacked ≠ 0 ∧ base.core.ctx.unacked = 0 ∧ base.core.ctx.pend = [] ∧ base.core.vers.length = 4 ∧
    (⟨48, 64, 0, []⟩ : FmtL).immNat = 64 ∧ (⟨48, 4, 0, []⟩ : FmtL).immNat = 4 ∧ (⟨48, 63, 0, []⟩ : FmtL).immNat = 63 :=
  ⟨rfl, .inl (by decide), ok_of (by decide +kernel), ok_of (by decide +kernel), ok_of (by decide +kernel), by decide, rfl, rfl,
    rfl, rfl, rfl, rfl⟩

theorem witness_VectorMemoryResults :
    let us := cutRuns (unitRuns 0x100 4 (activeUnits 0 (BitVec.allOnes 64)))
    DstOk 0 ∧ readScalar base 0 2 = .ok 0 ∧ Ok (readVector base 1 3) ∧ vectorWin base 0xFFFF 0x100 (BitVec.allOnes 64) = 0 ∧
    (0x100 : Word).toNat % unitAlign 0 = 0 ∧
    (∃ ps t, placeList base 0xFFFF .load vectorAllow us = .ok ps ∧ loadPieces base .load 0xFFFF true ps = .ok t) ∧
    (∃ ps t, placeList base 0xFFFF .store vectorAllow us = .ok ps ∧
      sendWrites base ps (List.replicate 256 (some 0)) 0 false = .ok t) ∧
    readA1 base 2 = .ok 0 ∧ activeUnits 0 0 = [] ∧ activeUnits 0 1 = [0] ∧ activeUnits 6 0x8000 = [0] ∧
    base.answerLater = false :=
  ⟨.inl (by decide), rfl, ok_of (by decide +kernel), by decide +kernel, by decide, ok_two (by decide +kernel),
    ok_two (by decide +kernel), rfl, by decide +kernel, by decide +kernel, by decide +kernel, rfl⟩

theorem witness_GatherAndLaneAtomicResults :
    let off := fun (k : Nat) => BitVec.ofNat 64 (0x100 + 4 * k)
    let s := withG 2 0xC000000000000100 base
    DstOk 0 ∧ readScalar s 0 2 = .ok 0xC000000000000100 ∧ readScalar s 1 3 = .ok 0 ∧ Ok (readVector s 2 0) ∧
    Ok (readVector s 1 3) ∧ readA1 base 3 = .ok 0 ∧ (segAddr s 0xC000000000000100).1 = 0xFFFF ∧ Calm s s.myCube ∧
    (∀ k < 64, (off k).toNat % 4 = 0 ∧ (off k).toNat < 2 ^ 19) ∧ (0x7FFFD % 4 ≠ 0 ∧ 0x7FFFD < 2 ^ 19) ∧ s.answerLater = false ∧
    s.core.ctx.unacked ≤ 959 ∧
    (∃ l t, gather base 0xFFFF off 0x8001 .load gatherAllow = .ok l ∧ loadLanes 0xFFFF base l = .ok t) ∧
    (∃ l t, gather base 0xFFFF off 0x8001 .store gatherAllow = .ok l ∧ storeLanes 0 base l = .ok t) ∧
    Ok (gather base 0xFFFF off 0x8001 .atomic atomicRegion) ∧ (∀ c a, registered base c a 4 = false) ∧
    Ok (needRoom base [0, 0]) :=
  ⟨.inl (by decide), rfl, rfl, ok_of (by decide +kernel), ok_of (by decide +kernel), rfl, rfl, ⟨rfl, rfl, rfl, rfl, rfl, rfl, rfl, rfl⟩,
    by decide +kernel, by decide, rfl, by decide, ok_two (by decide +kernel), ok_two (by decide +kernel), ok_of (by decide +kernel),
    fun _ _ => rfl, ok_of (by decide +kernel)⟩

theorem witness_AtomicResults :
    let s := withG 2 0x100 base
    DstOk 3 ∧ readScalar s 1 3 = .ok 0 ∧ readScalar s 0 2 = .ok 0x100 ∧ readA1 s 2 = .ok 0 ∧ 0x101 % 8 ≠ 0 ∧
    (busyStores s).core.ctx.unacked ≠ 0 ∧
    (∃ p ps, place s 0xFFFF 0x100 8 .atomic atomicRegion = .ok (p :: ps) ∧ (match atomicAt .add 8 1 0 0xFFFF p s with
      | .ok _ => p.place.region == .spad 0 0 && p.place.ilv.isNone
      | _ => false) = true) ∧ s.answerLater = false ∧
    (∃ p ps, place dram 1 0x100 8 .atomic atomicRegion = .ok (p :: ps) ∧ (p.place.region == .dram) = true) ∧
    (Memory.wf dram.mem = true ∧ dram.flights = [] ∧ dram.poison = [] ∧ registered dram 0 0x100 8 = false ∧
      mustWait (dram.cube 0) none 0x100 8 = false ∧ hostedIn dram 0 0x100 8 = false) :=
  ⟨.inl (by decide), rfl, rfl, rfl, by decide, by decide, ok_cons (by decide +kernel), rfl, ok_cons (by decide +kernel),
    by decide +kernel⟩

theorem witness_EngineFormsEnqueue :
    deliver 0xFF [] base = .ok () ∧ (∀ fn < 7, Ok (tileOperands 0x60 fn ⟨0, 0, 0, 0, 0, some 0⟩ base)) ∧
    (∀ fn < 2, Ok (tileOperands 0x61 fn ⟨0, 0, 0, 0, 0, some 2⟩ base)) ∧
    (∀ fn < 4, Ok (tileOperands 0x62 fn ⟨7, 0, 0, 0, 0, none⟩ base)) ∧
    (∀ fn < 4, Ok (tileOperands 0x63 fn ⟨0, 0, 0, 0, 0, some (28 * 16)⟩ base)) ∧
    (∀ fn < 3, Ok (tileOperands 0x64 fn ⟨7, 7, 0, 0, 0, none⟩ base)) ∧
    (∀ k < 4, Ok (readG base k (28 + k))) ∧ (∀ k < 3, Ok (readG base k (29 + k))) ∧
    queueLen base.core .matrix < queueDepth .matrix ∧ queueLen base.core .copy < queueDepth .copy ∧
    queueLen base.core .flue < queueDepth .flue ∧ base.core.ctx.slotCount 7 < 255 ∧ (base.core.ctx.engine .copy).stopped = false :=
  ⟨rfl, fun _ _ => ok_of rfl, fun _ _ => ok_of rfl, fun _ _ => ok_of rfl, fun _ _ => ok_of rfl,
    by intro n h; interval_cases n <;> exact ok_of rfl, by intro k h; interval_cases k <;> exact ok_of rfl,
    by intro k h; interval_cases k <;> exact ok_of rfl, by decide, by decide, by decide, by decide, rfl⟩

/-- Tile 2 configured as 16 x 16 with a format code. -/
def tiled (fmt : BitVec 3) : State := base.modTiles fun t => { t with shape := t.shape.set 2 (1#1 ++ fmt ++ 15#6 ++ 15#6) }

theorem witness_TransferResults :
    Ok (readVector base 0 9) ∧ readScalar (withG 3 15 base) 1 3 = .ok 15 ∧ readScalar (withG 3 16 base) 1 3 = .ok 16 ∧
    deliver 0xFF [.matrix] base = .ok () ∧ base.core.ctx.mq = [] ∧ base.core.ctx.counted = [] ∧
    (shapeV (base.core.ctx.tiles.shapeOf 2) = false) ∧
    (shapeV ((tiled 4).core.ctx.tiles.shapeOf 2) = true ∧ (fmtSx (shapeFmt ((tiled 4).core.ctx.tiles.shapeOf 2))).isSome = true) ∧
    (let sh := (tiled 0).core.ctx.tiles.shapeOf 2
     shapeV sh = true ∧ fmtSx (shapeFmt sh) = none ∧ shapeRows sh = 16 ∧ shapeCols sh = 16) :=
  ⟨ok_of (by decide +kernel), rfl, rfl, rfl, rfl, rfl, by decide +kernel, by decide +kernel, by decide +kernel, by decide +kernel,
    by decide +kernel, by decide +kernel⟩

theorem witness_AccumulateWindow : 383 < 384 ∧ 79 < 80 ∧ 383 + [[FVal.nan]].length ≤ 384 ∧ 79 + [[FVal.nan]].length ≤ 80 := by decide

/-- A supervisor state with an open decide-once cell at offset 0x100 of segment 2. -/
def cellState0 : State := withTsw 1 dram

theorem witness_OnceResults :
    ((12 : Nat) < 2 ^ 256 ∧ 3 < 2 ^ 14 ∧ cellLen (24 * 2 ^ 32) ≤ 24 ∧ 12 % 4 = 0 ∧ 12 / 4 % 2 ^ 14 = 3) ∧
    (65532 / 4 % 2 ^ 14 = 16383 ∧ 65532 % 4 = 0) ∧
    readScalar cellState0 0 2 = .ok 0 ∧ Ok (readVector cellState0 1 3) ∧ readA1 cellState0 2 = .ok 0 ∧ DstOk 3 ∧
    dram.priv = false ∧ cellState0.priv = true ∧
    (∃ p ps, place cellState0 2 0x100 32 .once (fun r => r = .dram) = .ok (p :: ps) ∧ (p.place.once && p.place.ilv.isNone &&
      p.place.cube == 0 && cellState (natOfBytes (cellState0.load p.place.addr 32)) != 3 &&
      cellLen (natOfBytes (cellState0.load p.place.addr 32)) ≤ 24) = true) ∧
    cellState0.core.ctx.asked = none ∧ cellState0.answerLater = false ∧ Calm cellState0 0 ∧ cellState0.core.ctx.unacked = 0 ∧
    cellState0.core.ctx.pend = [] ∧ onceFind cellState0 0x100 0 = none :=
  ⟨by decide, by decide, rfl, ok_of (by decide +kernel), rfl, .inl (by decide), by decide +kernel, by decide +kernel,
    ok_cons (by decide +kernel), rfl, rfl, ⟨rfl, rfl, rfl, rfl, rfl, rfl, rfl, rfl⟩, rfl, rfl, by decide +kernel⟩

/-- A message of tag 5 with eight bytes. -/
def msg5 : Msg := { tag := 5, score := 1, scube := 0, sys := false, payload := [1, 2, 3, 4, 5, 6, 7, 8] }

/-- One message on the queue. -/
def queued : State := { base with core := { base.core with msgs := [msg5] } }

/-- A GANG packet at offset 0. -/
def packet0 : State := withBytes 0 [1, 1] base

/-- An action that answers a pair. -/
theorem ok_pair {ε α β : Type} {e : Except ε (α × β)} {p : α → β → Bool} (h : (match e with
    | .ok (x, y) => p x y
    | _ => false) = true) : ∃ x y, e = .ok (x, y) ∧ p x y = true := by
  match e, h with
  | .ok (x, y), h => exact ⟨x, y, rfl, h⟩

theorem witness_MessageResults :
    DstOk 0 ∧ readScalar (withG 2 0x200000000 base) 0 2 = .ok 0x200000000 ∧ 0x200000000 / 2 ^ 33 ≠ 0 ∧
    (readScalar (withG 2 5 queued) 0 2 = .ok 5 ∧ queued.core.msgs = [] ++ msg5 :: [] ∧ msg5.tag = (5 : Word).extractLsb' 0 32) ∧
    (readScalar (withG 3 0x7FFF8 queued) 1 3 = .ok 0x7FFF8 ∧ 0x7FFF8 + msg5.payload.length ≤ 2 ^ 19 ∧
      Calm queued queued.myCube ∧ Memory.wf queued.mem = true) ∧
    base.mayRequest (.main 0) (639 * 256 + 0xFF) .ordered 1 = true ∧
    (readScalar (withG 2 0x27FFF base) 0 2 = .ok 0x27FFF ∧ 0x27FFF / 2 ^ 20 = 0 ∧ 0x27FFF / 2 ^ 8 % 2 ^ 10 = 639) ∧
    (0x28000 / 2 ^ 8 % 2 ^ 10 = 640 ∧ 0x100000 / 2 ^ 20 ≠ 0) ∧ (busyStores base).core.ctx.unacked ≠ 0 ∧
    (0x2000007FE00 / 2 ^ 19 % 2 ^ 13 = 0 ∧ 0x2000007FE00 / 2 ^ 42 = 0 ∧ 0x2000007FE00 / 2 ^ 32 % 2 ^ 10 ≤ 512 ∧
      0x7FE00 + 512 ≤ 2 ^ 19) ∧
    (∃ bs t, loadRaw packet0 0xFFFF 0 128 = .ok (bs, t) ∧
      ((match place t 0xFFFF 0 1 .load (fun _ => true) with
        | .ok (_ :: _) => true
        | _ => false) && t.core.ctx == packet0.core.ctx && pVer (BitVec.ofNat 1024 (natOfBytes bs)) == 1 &&
        pOp (BitVec.ofNat 1024 (natOfBytes bs)) == 1 && !pReserved (BitVec.ofNat 1024 (natOfBytes bs)) &&
        t.mayRequest (.main 0) (stoveHome 0) .ordered 1) = true) :=
  ⟨.inl (by decide), rfl, by decide, ⟨rfl, rfl, rfl⟩, ⟨rfl, by decide, ⟨rfl, rfl, rfl, rfl, rfl, rfl, rfl, rfl⟩, rfl⟩, by decide +kernel,
    ⟨rfl, by decide, by decide⟩, by decide, by decide, by decide, ok_pair (by decide +kernel)⟩

/-- A refinement block of one row at offset 0x100 of segment 1: A, b, x and the workspace at 0x1000, 0x2000, 0x3000 and
0x4000 of the segment, with delta 2.0 (bytes 0 to 7 as in the worked case of R417). -/
def refineBytes : List Byte :=
  bytesOfNat 128 (packNat 64 [0x0014040000010401, 0x4000000000001000, 8, 0x4000000000002000, 0x4000000000003000,
    0x4000000000004000, 0, 0, 0x4000000000000000])

/-- The state that holds it. -/
def refine : State := withG 2 0x4000000000000100 (dram.store 0x100 refineBytes)

/-- What a launch of a block needs, checked at once. -/
def launchable (s : State) : Bool :=
  match place s 1 0x100 128 .load rawRegion with
  | .ok pb => match loadPieces s .load 1 false pb with
    | .ok (bs, t) =>
      let k := natOfBytes bs
      (match launchRegion t .load (rowsOf k), launchRegion t .load (bOf k), launchRegion t .store (xOf k),
          launchRegion t .store (wOf k) with
        | .ok pa, .ok pv, .ok px, .ok pw => refRegionsOk t t.myCube t.requester t.regs.seg.toList k pb pa pv px pw
        | _, _, _, _ => false) && refFieldsOk k && t.core.ctx.unacked == 0 && t.core.ctx.pend.isEmpty &&
      t.core.ctx.slotCount 0 < 255 && !blockRegistered (t.cube t.myCube) (rangesOf t pb) && (freeSlot (t.cube t.myCube)).isSome &&
      !writeHeld t (.ok pb)
    | _ => false
  | _ => false

/-- A thread that waits for the reply to request 9. -/
def asking (r : Option OnceAnswer) : State := base.modCtx fun c => { c with asked := some (9, r) }

theorem witness_LaunchResults :
    DstOk 0 ∧ readScalar base 0 2 = .ok 0 ∧ readScalar base 1 3 = .ok 0 ∧
    (asking (some ⟨0, 4, none⟩)).core.ctx.asked = some (9, some ⟨0, 4, none⟩) ∧
    (asking (some ⟨0, 0, some .graphQueueFull⟩)).core.ctx.asked = some (9, some ⟨0, 0, some .graphQueueFull⟩) ∧
    (asking none).core.ctx.asked = some (9, none) ∧ base.core.ctx.asked = none ∧
    Ok (place base 0xFFFF 0x40 1 .load rawRegion) ∧
    (∃ bs t, loadRaw base 0xFFFF 0x58 20 = .ok (bs, t) ∧ ((match resolveGlobal t (natOfBytes (bs.take 8) % 2 ^ 57) with
      | .ok (c, _, _, false) => !peerLost t c && !mapHeld t
      | _ => false)) = true) ∧
    readScalar refine 0 2 = .ok 0x4000000000000100 ∧ deliver 0 [.main] refine = .ok () ∧ launchable refine = true ∧
    (∃ bs t, loadRaw refine 1 0x100 8 = .ok (bs, t) ∧ (natOfBytes bs % 256 == 1 && (loadRaw t 1 0x148 8).isOk) = true) ∧
    refFieldsOk 0 = false ∧ (0x1000000000 : Word).toNat / 2 ^ 36 ≠ 0 ∧ (0x101 : Word).toNat % 32 ≠ 0 :=
  ⟨.inl (by decide), rfl, rfl, rfl, rfl, rfl, rfl, ok_of (by decide +kernel), ok_pair (by decide +kernel), rfl, rfl,
    by decide +kernel, ok_pair (by decide +kernel), by decide +kernel, by decide, by decide⟩

/-- An engine sequencer that is stopped, or running. -/
def engined (e : Sequencer) (g : Engine) : State := base.modCtx fun c => c.modEngine e fun _ => g

theorem witness_EngineControlResults :
    readScalar (withG 2 2 base) 0 2 = .ok 2 ∧ readScalar (withG 2 3 base) 0 2 = .ok 3 ∧ DstOk 0 ∧ readScalar base 1 3 = .ok 0 ∧
    readScalar (withG 3 2 base) 1 3 = .ok 2 ∧
    ((engined .flue { Engine.reset with stopped := true }).core.ctx.engine .flue).stopped = true ∧
    ((base.core.ctx.engine .flue).stopped = false ∧ (base.core.ctx.engine .flue).running = false ∧ base.core.ctx.unacked = 0 ∧
      base.core.ctx.pend = []) ∧
    readScalar (withG 2 8 base) 0 2 = .ok 8 ∧ readScalar (withG 2 7 base) 0 2 = .ok 7 ∧
    (∀ e ∈ enginesOf 7, (base.core.ctx.engine e).running = false ∧ base.core.ctx.queue e = []) ∧
    deliver 0 (enginesOf 7) base = .ok () :=
  ⟨rfl, rfl, .inl (by decide), rfl, rfl, rfl, ⟨rfl, rfl, rfl, rfl⟩, rfl, rfl, by decide, rfl⟩

/-- A group of one member, thread 1 on core 0. -/
def oneMember (n : Nat) (arrived : Option (BitVec 16)) : Group :=
  { num := n, asid := 0, launch := none, phase := 0, members := [⟨1, 0, arrived⟩], mism := 0, pend := [], home := 0, sent := [],
    got := [], lag := [], rounds := [] }

/-- A state with a group. -/
def grouped (n : Nat) (arrived : Option (BitVec 16)) : State :=
  (base.modCube 0 fun q => { q with groups := [oneMember n arrived] })

theorem witness_NetworkReductionResults :
    let s := withG 20 0xC0007 (withG 21 0x55 (grouped 4103 none))
    readG s 1 20 = .ok 0xC0007 ∧ readG s 2 21 = .ok 0x55 ∧ s.group 0 4103 = some (oneMember 4103 none) ∧
    ((oneMember 4103 none).member 1).isSome = true ∧ 4096 + 0xC0007 % 2 ^ 12 = 4103 ∧ 0xC0007 / 2 ^ 12 % 8 = 0 ∧
    readG (withG 20 0x5007 s) 1 20 = .ok 0x5007 ∧ readG (withG 20 0x4007 s) 1 20 = .ok 0x4007 ∧ Ok (readVector s 0 8) ∧
    Ok (readVector s 0 30) ∧ Ok (readVector s 3 31) ∧ s.core.ctx.pend = [] ∧ s.core.ctx.unacked = 0 ∧
    (busyStores s).core.ctx.unacked ≠ 0 ∧ s.mayRequest (.main 0) 0 .reduce 1 = true :=
  ⟨rfl, rfl, rfl, rfl, by decide, by decide, rfl, rfl, ok_of (by decide +kernel), ok_of (by decide +kernel), ok_of (by decide +kernel),
    rfl, rfl, by decide, by decide +kernel⟩

theorem witness_GroupResults :
    readScalar (withG 2 63 base) 0 2 = .ok 63 ∧ groupNum base 63 = some 63 ∧ groupNum base 64 = none ∧ groupNum base 4096 = some 4096 ∧
    groupNum base 8192 = none ∧ base.group 0 63 = none ∧ (groupsOf base 0 1).length < 8 ∧ base.core.runList = [] ∧
    (let g := oneMember 63 none
     (grouped 63 none).group 0 63 = some g ∧ g.num = 63 ∧ g.asid = (grouped 63 none).asidId ∧ g.member 1 = some ⟨1, 0, none⟩ ∧
      g.rounds = [] ∧ g.launch = none ∧ g.lag = [] ∧ g.pending 0 = 0 ∧ (∃ m ∈ g.members, m.tid = 1)) ∧
    ((oneMember 63 (some 0)).member 1 = some ⟨1, 0, some 0⟩ ∧ (oneMember 63 (some 0)).phaseAt 0 = 0) ∧
    (tswAp (withTsw 4 base).regs.tsw = true ∧ (oneMember 63 (some 5)).member 1 = some ⟨1, 0, some 5⟩ ∧
      (5 : BitVec 16) ≠ (oneMember 63 (some 5)).phaseAt 0) ∧ (busyStores base).core.ctx.unacked ≠ 0 :=
  ⟨rfl, rfl, rfl, rfl, rfl, rfl, by decide, rfl, ⟨rfl, rfl, rfl, rfl, rfl, rfl, rfl, rfl, by decide⟩, ⟨rfl, rfl⟩,
    ⟨by decide, rfl, by decide⟩, by decide⟩

theorem witness_SlotAndCounterResults :
    base.seqr = .main ∧ readScalar (withG 2 256 base) 0 2 = .ok 256 ∧ readScalar (withG 2 255 base) 0 2 = .ok 255 ∧
    (∀ c ∈ base.core.ctx.counted, (255 : Nat).testBit c.slot = false) ∧ deliver 255 [] base = .ok () ∧
    readScalar (withG 2 8 base) 0 2 = .ok 8 ∧ readScalar (withG 2 7 base) 0 2 = .ok 7 ∧ base.core.ctx.slotCount 7 < 255 ∧
    base.core.ctx.unacked = 0 ∧ base.core.ctx.pend = [] ∧ (busyStores base).core.ctx.unacked ≠ 0 ∧ DstOk 0 ∧
    (0x80000 / 2 ^ 16 % 16 = 8 ∧ 0x80000 / 2 ^ 13 % 8 = 0 ∧ 0x80000 / 2 ^ 20 = 0) ∧ 0x90000 / 2 ^ 16 % 16 = 9 ∧
    0x6000F % 2 ^ 13 = 15 ∧ 0x10000 % 2 ^ 13 = 0 ∧ 0x20003 % 2 ^ 13 = 3 ∧ 0x100000 / 2 ^ 20 ≠ 0 ∧
    (∃ g, counterGroup (grouped 63 none) 63 = .ok g ∧ (g.member 1).isSome = true) :=
  ⟨rfl, rfl, rfl, by decide, rfl, rfl, rfl, by decide, rfl, rfl, by decide, .inl (by decide), by decide, by decide, by decide, by decide,
    by decide, by decide, ⟨_, rfl, rfl⟩⟩

/-- A range map of one unit from offset 0x2000 of segment 1 (the DRAM address) onto row 3. -/
def mapped : State := { dram with core := { dram.core with maps := [⟨0, 3, 1, false, 0x2000, none⟩] } }

theorem witness_RangeMapAndMigrateResults :
    readScalar dram 0 2 = .ok 0 ∧ readScalar dram 1 3 = .ok 0 ∧ (0x2001 : Word).toNat % 4096 ≠ 0 ∧ 4096 * (0x7F + 1) ≤ 2 ^ 19 ∧
    (∃ p ps, place dram 1 0x2000 4096 .once (fun r => r = .dram) = .ok (p :: ps) ∧ (contiguousDram dram 0 0x2000 0 (p :: ps) &&
      logicalAddr dram p.place.addr == 0x2000 && homeOf dram p.place != 0) = true) ∧
    (∃ e size, walk dram 0 1 0x2000 = .ok (e, size) ∧ (!e.getLsbD 5 && 0x2000 % size + 4096 ≤ size) = true) ∧
    freeMap dram.core = some 0 ∧ (∀ k < 256, (dram.getCore k).maps = []) ∧ notOwned dram 0 0x2000 4096 = true ∧
    streamed dram 0 0x2000 4096 = false ∧ Memory.wf dram.mem = true ∧
    (∃ p ps, place mapped 1 0x2000 1 .none (fun _ => true) = .ok (p :: ps) ∧ (p.place.region == .dram &&
      logicalAddr mapped p.place.addr == 0x2000) = true) ∧
    notOwned mapped 0 (spadAddr 0 (4096 * 3)) 4096 = true ∧
    groupsOf (grouped 63 none) 0 1 ≠ [] ∧ groupsOf dram 0 1 = [] ∧ migrateHeld dram.core.ctx = false ∧
    migrateHeld (tiled 0).core.ctx = true ∧
    (∃ p ps, place dram 1 0x2000 1 .load (fun r => r != .mmio) = .ok (p :: ps) ∧ (homeOf dram p.place != 0) = true) ∧
    (∃ p ps, place dram 1 0 1 .load (fun r => r != .mmio) = .ok (p :: ps) ∧ (homeOf dram p.place == 0) = true) ∧
    dram.core.forwards.length < 8 ∧ dram.core.ctx.busy = [] ∧ dram.core.migrateHold = false :=
  ⟨rfl, rfl, by decide, by decide, ok_cons (by decide +kernel), ok_pair (by decide +kernel), rfl, by decide +kernel, rfl,
    by decide +kernel, by decide +kernel, ok_cons (by decide +kernel), rfl, by decide +kernel, rfl, by decide +kernel, by decide +kernel,
    ok_cons (by decide +kernel), ok_cons (by decide +kernel), by decide, rfl, rfl⟩

theorem witness_ResultPush : (31 : BitVec 6).toNat < 32 ∧ 32 ≤ (48 : BitVec 6).toNat ∧ (7 : BitVec 6).toNat < 8 := by decide

/-- An outcome that is a next state. -/
abbrev Runs (o : Host.Outcome State Fault Refusal) : Prop := ∃ t, o = .next t

theorem witness_RegisterFrame : Runs (exec (.add (fA 0 2 3)) base) ∧ Runs (exec (.vmov (fA 0 2 48)) base) ∧
    Runs (exec (.mand (fA 7 2 3)) base) :=
  ⟨⟨_, rfl⟩, ⟨_, rfl⟩, ⟨_, rfl⟩⟩

theorem witness_MemoryFrame : Memory.wf base.mem = true ∧ base.flights = [] ∧ Runs (exec (.ld64 (fM 0 2 0)) base) ∧
    Runs (exec (.vld (fM 0 2 0)) base) ∧ Runs (exec (.st64 (fM 0 2 0)) base) ∧ Runs (exec (.amoadd64 (fM 0 2 0)) base) ∧
    readScalar base 0 2 = .ok 0 ∧ (∃ q qs, place base 0xFFFF 0 8 .atomic atomicRegion = .ok (q :: qs) ∧ (q.len == 8) = true) :=
  ⟨rfl, rfl, ⟨_, rfl⟩, ⟨_, rfl⟩, ⟨_, rfl⟩, ⟨_, rfl⟩, rfl, ok_cons (by decide +kernel)⟩

theorem witness_TrapEntry : base.seqr = .main ∧ base.core.ctx.attached = false ∧ (withTsw 0x20 base).core.ctx.attached = true ∧
    ({ base with seqr := .copy } : State).seqr ≠ .main := by decide

/-- The turn of core 0's main sequencer. -/
def turning : State := { withBytes 0x1000 [0x00, 0x21, 0x00, 0x01] base with agenda := [.issue 0 .main false false] }

theorem witness_StepRunsTheDecodedInstruction :
    rollbackStep turning = none ∧ turning.agenda = .issue 0 .main false false :: [] ∧
    (let b := turnOf 0 .main false false { turning with agenda := [] }
     mayIssue b = true ∧ (atBoundary b).isNone = true ∧ (∃ ws t, nextWords (unhold b) = .ok (ws, t) ∧ (ws == [0x01002100]) = true)) ∧
    decodeWords [0x01002100] = .ok (.add (fA 0 2 4), 1) ∧ classAllows .main (Instr.add (fA 0 2 4)).shape = true ∧
    classAllows .copy (Instr.vaddI32 (fA 0 2 4)).shape = false ∧ decodeWords [0] = .error .illegalOpcode :=
  ⟨rfl, rfl, ⟨by decide +kernel, by decide +kernel, ok_pair (by decide +kernel)⟩, rfl, rfl, rfl, rfl⟩

theorem witness_RoundTripAll : (Instr.add (fA 48 31 47)).wf = true ∧ (Instr.li ⟨48, 0x7FFF, 7, [0xFFFFFF, 1]⟩).wf = true := by decide

theorem witness_CanonicalKeptByStep : Canonical turning ∧ Runs (step turning) := ⟨rfl, ⟨_, rfl⟩⟩

/-! Events -/

/-- An entry of an engine queue. -/
def entry (w : Work) : Entry :=
  { id := 5, work := w, pc := 0x1000, own := false, slot := 1, wait := 0, asid := 0, seg := [0xFFFF, 0xFFFF, 0xFFFF, 0xFFFF],
    priv := false, origin := none }

/-- A T instruction on tile 2 from tiles 3 and 4. -/
def fT (p : Option (BitVec 24)) : FmtT := ⟨2, 3, 4, 0, 1, p⟩

/-- The matrix queue with one form at its head. -/
def mqueue (w : Work) (s : State) : State := s.modCtx fun c => { c with mq := [entry w], counted := [⟨1, 5⟩] }

/-- Tiles 3 and 4 configured as 64 x 16 and 64 x (k + 1) of BF16. -/
def product (k : Nat) : State := base.modTiles fun t => { t with
  shape := (t.shape.set 3 (1#1 ++ 1#3 ++ 63#6 ++ 15#6)).set 4 (1#1 ++ 1#3 ++ 63#6 ++ BitVec.ofNat 6 k) }

theorem witness_TileFormResults : CoreInService base 0 ∧
    (∀ w, enginesMay ((mqueue w base).focus 0) 0 = true ∧ (mqueue w base).core.ctx.mq = entry w :: [] ∧
      (mqueue w base).core.ctx.slotsClear 0 5 = true) ∧
    isTransfer (entry (.tile 0x60 0 (fT (some 0)) [])) = false ∧ isTransfer (entry (.tile 0x62 0 (fT none) [0])) = false ∧
    isTransfer (entry (.tile 0x63 0 (fT none) [])) = false ∧ isTransfer (entry (.tile 0x64 2 (fT none) [])) = false ∧
    (∃ u, startForm (entry (.tile 0x60 5 (fT none) [])) (tiled 0) = .done u) ∧ base.myGang.isNone = true ∧
    shapeV (base.core.ctx.tiles.shapeOf 2) = false ∧ shapeV ((tiled 0).core.ctx.tiles.shapeOf 2) = true ∧
    (let sa := (product 15).core.ctx.tiles.shapeOf 3
     let sb := (product 15).core.ctx.tiles.shapeOf 4
     shapeV sa = true ∧ shapeFmt sa = mulFmt 0 ∧ shapeFmt sb = mulFmt 0 ∧ shapeCols sb = shapeCols sa ∧ 320 + shapeRows sa ≤ 384 ∧
      384 < 321 + shapeRows sa ∧ 16 + shapeRows sb ≤ 80 ∧ 80 < 17 + shapeRows sb ∧ scaleCheck (mulFmt 0) (shapeCols sa) 0 0 [] [] = none) ∧
    shapeCols ((product 14).core.ctx.tiles.shapeOf 4) ≠ shapeCols ((product 14).core.ctx.tiles.shapeOf 3) ∧
    shapeFmt ((tiled 0).core.ctx.tiles.shapeOf 2) ≠ mulFmt 0 :=
  ⟨⟨by decide, rfl⟩, fun _ => ⟨rfl, rfl, rfl⟩, rfl, rfl, rfl, rfl, ⟨_, rfl⟩, rfl, by decide +kernel, by decide +kernel, by decide +kernel,
    by decide +kernel, by decide +kernel⟩

theorem witness_EventsOutsideService : InService base 639 ∧ 640 ≤ 640 ∧ 163840 ≤ 163840 ∧
    ((base.modCube 0 fun q => { q with tripped := true }).cube 0).tripped = true :=
  ⟨⟨by decide, rfl⟩, by decide, by decide, rfl⟩

/-- A cube that is ready, with every Stove core running. -/
def ready (s : State) : State := s.modStove 0 fun t => { t with run := 0xFF, ready := true }

/-- A map of two entries of generation 1. -/
def map1 : InterleaveMap := ⟨12, 1, [⟨0, false, 0⟩, ⟨1, false, 0⟩]⟩

theorem witness_CubeUnitEvents : InService (ready base) 0 ∧ ((ready base).cube 0).links[5]? = some ⟨false, 0, 0, 0, []⟩ ∧
    ((base.modCube 0 fun q => { q with links := q.links.set 0 ⟨true, 16, 1, 0, []⟩ }).cube 0).links[0]? = some ⟨true, 16, 1, 0, []⟩ ∧
    (63, 255) ∈ ((base.modCube 0 fun q => { q with refreshing := [(63, 255)] }).cube 0).refreshing ∧
    32 ∈ ((base.modCube 0 fun q => { q with hosted := [32] }).cube 0).hosted ∧ ((ready base).cube 0).stove.ready = true ∧
    (hostWrites 0 (hostAtoms 2 0x100 [1]) ((ready base).focus 0)).isSome = true ∧ (base.cube 0).stove.ready = false ∧
    (slotStat ((base.modCube 0 fun q => { q with slotstat := [(255, 0x10000)] }).cube 0) 255).getLsbD 16 = true ∧
    (slotStat ((ready base).cube 0) 255).getLsbD 16 = false ∧
    (match resolveGlobal ((ready base).focus 0) (pTarget ((assoc ((ready base).cube 0).slots 255).getD 0)) with
      | .ok (_, _, _, lost) => !lost
      | _ => false) = true ∧ ((base.modStove 0 fun t => { t with recov := true }).cube 0).stove.recov = true ∧ mapOk map1 = true ∧
    holdsOld base 0 1 = false ∧ installsNow base map1 = true ∧ mapHeld ((ready base).focus 0) = false ∧
    (((ready base).cube 0).owned = [] ∧ ((ready base).cube 0).moving = [] ∧ ((ready base).cube 0).refreshing = [] ∧
      (hostPlace ((ready base).focus 0) 0 0x100).isSome = true) :=
  ⟨⟨by decide, rfl⟩, rfl, rfl, by decide, by decide, rfl, by decide +kernel, rfl, by decide, by decide, by decide +kernel, rfl,
    by decide, rfl, rfl, rfl, rfl, rfl, rfl, by decide +kernel⟩

/-- A gang of thread 1 on core 0. -/
def gang1 : Gang :=
  { id := 3, h0 := 0, k0 := 0, rows := 1, cols := 1, asid := 0, group := 64, members := [(0, 1, 0)], halted := [],
    origin := .packet false 0 0 0, ckpt := false, cka := 0, ckb := 0, areaA := none, areaB := none, held := false,
    moved := false, ending := none }

/-- A cube with a gang. -/
def ganged : State := (ready base).modCube 0 fun q => { q with gangs := [gang1] }

/-- An entry of the PIFO. -/
def queuedPacket : PifoEntry := { packet := 0, rank := 5, arrival := 9, node := none, auto := none }

/-- A thread that the Stove holds. -/
def heldBy (v : SavedCtx) (s : State) : State := s.modStove 0 fun t => { t with saved := [v] }

/-- A saved context of thread 8, of core 0. -/
def saved8 (report : Option TrapReport) (handled : Bool) : SavedCtx :=
  { ctx := { base.core.ctx with tid := 8, status := .saved }, core := 0, report := report, handled := handled }

/-- No thread on core 0. -/
def empty : State := ready { base with core := Core.reset }

theorem witness_StoveCommands : InService (ready base) 0 ∧ (∀ k < 8, ((ready base).cube 0).stove.run.getLsbD k = true) ∧
    (List.replicate 16 (0 : BitVec 32)).length = 16 ∧ (ganged.cube 0).gangs.find? (fun x => x.id == 3) = some gang1 ∧
    (((ready base).modCube 0 fun q => { q with pifo := [queuedPacket] }).cube 0).pifo.find? (fun x => x.arrival == 9) = some queuedPacket ∧
    (let d : BitVec 128 := 1#128 + 2#128 ^ 112
     d.extractLsb' 1 16 = 0 ∧ d.extractLsb' 57 7 = 0 ∧ d.extractLsb' 113 15 = 0 ∧ (d.extractLsb' 64 49).toNat ≤ 2 ^ 48 ∧ d.getLsbD 0 = true) ∧
    (match classify (ready base) 0 8 none false with
      | .ok p => p.region == .dram && (match homeWrite (ready base) 0 none p.addr ((bytesOfNat 8 1).map some) 0 with
        | .done _ => true
        | _ => false)
      | _ => false) = true ∧ mapOk map1 = true ∧
    (let e : BitVec 256 := 4
     e.extractLsb' 153 103 = 0 ∧ (ttHpc e).toNat % 4 = 0 ∧ (ttBase e).toNat % 64 = 0 ∧ e ≠ 0) ∧
    ((ready base).cube 0).stove.flushing = [] ∧
    (((ready base).cube 0).fmap.contains (.inl 63) = true ∧ ((ready base).cube 0).retiring = [] ∧ retired ((ready base).cube 0) < 8 ∧
      kernelRuns ((ready base).cube 0) = false ∧ (((ready base).modCube 0 fun q => { q with retiring := [63] }).cube 0).retiring = [63]) ∧
    (let s := (ready base).modCube 0 fun q => { q with imap := map1 }
     s.removal.isNone = true ∧ removalMap (s.focus 0) (s.cube 0).imap ⟨12, 2, [⟨2, false, 0⟩, ⟨1, false, 0⟩]⟩ 0 = true) ∧
    (ready base).core.ctx.live = true ∧ coreFree empty 0 0 = true ∧
    rollbackStep { empty with core := { empty.core with spare := true } } = none ∧
    saved8 none false ∈ ((heldBy (saved8 none false) (ready base)).cube 0).stove.saved :=
  ⟨⟨by decide, rfl⟩, by decide, rfl, rfl, by decide +kernel, by decide +kernel, by decide +kernel, by decide, by decide +kernel,
    rfl, by decide +kernel, by decide +kernel, rfl, by decide +kernel, rfl, .head _⟩

/-- A removal of cube 0 that has begun. -/
theorem witness_StoveCommands_removal :
    ({ base with removal := some ⟨0, map1, ⟨12, 2, [⟨2, false, 0⟩, ⟨1, false, 0⟩]⟩, false, []⟩ } : State).removal ≠ none := by
  decide

/-- A trap report. -/
def report0 (code : TrapCode) : TrapReport :=
  { code := code, pc := 0x1000, addr := 0, epc := 0, source := 0, kind := .load, seg := 0, staleGen := false }

/-- The thread of core 0, changed. -/
def ctxWith (f : Ctx → Ctx) (s : State) : State := s.modCtx f

theorem witness_ThreadEvents : CoreInService base 163839 ∧ CoreInService base 0 ∧ base.core.ctx.live = true ∧ base.core.ctx.trap.isNone = true ∧
    ((withTsw 0x20 base).core.ctx.attached = true ∧ ({ base.core with chain := [(0, [])] } : Core).chain ≠ []) ∧
    (ctxWith (fun c => { c with status := .waiting, wait := .poll 0 64 }) base).core.ctx.wait.polls = true ∧
    ({ base.core with migrateHold := true } : Core).migrateHold = true ∧
    (ctxWith (fun c => { c with trap := some (report0 .softTrap) }) base).core.ctx.saveable = true ∧
    (let s := twoThreads.modCube 0 fun q => { q with clock := 0x100000 }
     (∃ c, s.core.runList = c :: []) ∧ s.core.interruptible = true ∧ s.core.lost = false ∧ quantumSpent (s.focus 0) 0 = true) ∧
    (∀ p ∈ [Interrupt.preempt, .stop, .error], (ctxWith (fun c => { c with pending := [p] }) base).core.interruptible = true) ∧
    nextGrant (base.focus 0) 0 = some (0, 0x1000) ∧ (∀ pc, nextGrant (base.focus 1) 0 ≠ some (1, pc)) ∧
    (base.core.ctx.base ≠ some base.core.ctx.ig ∨ base.core.ctx.ig = 0 ∨ base.regs.grpdirty.getLsbD 0 = true) ∧
    (ctxWith (fun c => { c with busy := [0x100] }) base).core.ctx.asked = none ∧
    (empty.core.ctx.status = .none ∧ empty.core.runList = [] ∧ empty.core.dq = [] ∧ empty.core.lost = false ∧ (empty.cube 0).runs = [] ∧
      (∀ p ∈ empty.cubes, p.2.rollbacks = []) ∧ (∀ p ∈ empty.cubes, p.2.gangs = [])) :=
  ⟨⟨by decide, rfl⟩, ⟨by decide, rfl⟩, rfl, rfl, ⟨by decide +kernel, by decide⟩, rfl, rfl, by decide +kernel,
    ⟨⟨_, rfl⟩, by decide +kernel, rfl, by decide +kernel⟩, by decide +kernel, by decide +kernel,
    fun _ h => (show Option.map Prod.fst (nextGrant (base.focus 1) 0) ≠ some 1 by decide +kernel) (congrArg _ h), .inl (by decide), rfl, rfl, rfl, rfl, rfl, rfl, by decide, by decide⟩

/-- A handler at 0x2000 with frames from 0x4000 on, in the trap table of ASID 0. -/
def handler : BitVec 256 := 1#104 ++ 0#8 ++ 1#16 ++ 0x4000#64 ++ 0x2000#64

/-- A request, or a reply, in flight for thread 1 at cube 0. -/
def sent (src : Agent) (cls : Machine.Class) (b : Body) : Flight :=
  { num := 7, ord := 7, seq := 0, seqs := [], route := 7, src := src, tid := 1, cls := cls, at_ := 0, cube := 0, home := 0,
    ilv := none, sends := 1, waiting := false, retry := 2 ^ 18, members := [], group := none, ver := 1, rsv := 0, body := b }

/-- Requests of core 0's main sequencer and of its copy engine. -/
def asks (b : Body) : Flight := sent (.main 0) .ordered b
def copies (b : Body) : Flight := sent (.engine 0 .copy) .adaptive b

/-- A migrating context of thread 1 from core 0 to core 1. -/
def travelling : Flight := { asks (.context 1 base.core.ctx) with home := 1 }

/-- A state with one flight. -/
def inFlight (x : Flight) (s : State) : State := { s with flights := [x] }

/-- Whether a request has come to its home, for the first time. -/
def comes (s : State) (x : Flight) : Bool :=
  let t := inFlight x s
  readyFlight t x && (t.keptOf x).isNone && answersAt t x.body

/-- A request that has come to its home. -/
theorem arrived (s : State) (x : Flight) (h : comes s x = true) (r : (inFlight x s).request x.num = some x) :
    ∃ t, Arrived (inFlight x s) x.num x x.body t := by
  simp only [comes, Bool.and_eq_true, Option.isNone_iff_eq_none] at h
  exact ⟨_, r, h.1.1, h.1.2, h.2, rfl, rfl⟩

/-- A reply with the request that its source keeps. -/
def replied (x : Flight) (s : State) : State := { s with flights := [x], kept := [⟨asks (.read 0x100 0 ⟨8, false, none, none⟩), x, false⟩] }

/-- Whether a reply has come to its source. -/
def returns (s : State) (x : Flight) : Bool := x.arrived && supported (replied x s) x

/-- How the Stove's write of a frame at offset 0x4000 of segment 1 ends: done, to wait, refused, or no such place. -/
def frameEnds (s : State) : Nat :=
  match footprint s ⟨0, false, none⟩ 1 (ttBase handler) 64 .store rawRegion with
  | .error _ => 3
  | .ok ps => match stoveWrite 0 (mergeAtoms (writesOf ((trapFrameBytes s.regs (report0 .softTrap)).map some) ps)) s with
    | .done _ => 0
    | .wait => 1
    | .refused => 2

/-- Cube 0 with an atom that engine 1 owns, with a registered range, or with an atom that the host holds. -/
def ownedAt (a : Nat) (s : State) : State := s.modCube 0 fun q => { q with owned := [(a, 1, 5)] }
def graphAt (a : Nat) (s : State) : State := s.modCube 0 fun q => { q with graphs := [GraphSlot.mk 0 0 [] true [] 0 none [(a, 32)] none] }

theorem witness_SavedThreadEvents :
    (∀ (h : Bool), ((heldBy (saved8 none h) (ready base)).cube 0).stove.saved.find? (fun w => w.ctx.tid == 8) = some (saved8 none h)) ∧
    CoreInService (heldBy (saved8 none true) (ready base)) 0 ∧
    mayReturn ((heldBy (saved8 none true) (ready base)).focus 0) (saved8 none true) 0 = true ∧ 0 = (saved8 none true).core ∧
    (((heldBy (saved8 none true) base).focus 0).core.ctx.present = true) ∧
    (((heldBy (saved8 none true) empty).focus 0).core.ctx.present = false ∧ ((heldBy (saved8 none true) empty).focus 0).core.runList = [] ∧
      ((heldBy (saved8 none true) empty).focus 0).core.held = []) ∧
    (let s := heldBy (saved8 (some (report0 .pageAbsent)) false) (ready base)
     (s.savedCtx 8).map Prod.fst = some 0 ∧ saved8 (some (report0 .pageAbsent)) false ∈ (s.cube 0).stove.saved ∧ reportHeld s 0 8 = false) ∧
    routeS .pageAbsent = true ∧ (report0 .pageAbsent).staleGen = false ∧ ({ report0 .addressRange with staleGen := true }).staleGen = true ∧
    ((ready base).cube 0).stove.reflect.contains 0 = false ∧
    ttValid 0 = false ∧ ttValid handler = true ∧ ttGen handler = 0 ∧ (0xFFFE : BitVec 16).toNat ≥ 0xFFFE ∧ ((0xFFFD : BitVec 16).toNat < 0xFFFE) ∧
    frameFor (dram.cube 0).stove 0 1 (ttCount handler) = some 0 ∧ frameFor (dram.cube 0).stove 0 1 (ttCount 0) = none ∧
    frameEnds (dram.focus 0) = 0 ∧ frameEnds (ownedAt 0x4020 dram) = 1 ∧ frameEnds (graphAt 0x4020 dram) = 2 ∧ frameEnds base = 3 ∧
    (match placeOf dram dram.requester 1 0x100 .load (fun _ => true), walk dram dram.regs.asid 1 0x100 with
      | .ok _, .ok _ => true
      | _, _ => false) = true ∧
    (match segDesc dram dram.asidId 1 with
      | some d => decide (0x100 < d.limit) && (match walkFrom dram 0x100 3 0 d.root with
        | .ok _ => true
        | _ => false)
      | none => false) = true ∧ (dram.regs.asid.extractLsb' 16 8 = generation (dram.cube 0) 0) ∧
    (∃ t, Arrived (inFlight travelling base) 7 travelling (.context 1 base.core.ctx) t) ∧ travelling.src = .main 0 ∧
    ((base.getCore 1).lost = false ∧ (base.getCore 1).runList.length < 4 ∧ (base.getCore 0).ctx.pending.filter Interrupt.holds = [] ∧
      (pairOfCores.getCore 1).ctx.present = true ∧ (base.getCore 1).ctx.present = false ∧ (base.getCore 1).runList = [] ∧
      (base.getCore 1).held = []) ∧
    4 ≤ ({ Core.reset with runList := List.replicate 4 Ctx.reset } : Core).runList.length :=
  ⟨fun h => by cases h <;> rfl, ⟨by decide, rfl⟩, by decide +kernel, rfl, by decide +kernel, ⟨by decide +kernel, rfl, rfl⟩,
    ⟨by decide +kernel, .head _, by decide +kernel⟩, rfl, rfl, rfl, rfl, by decide +kernel, by decide +kernel, by decide +kernel,
    by decide, by decide, by decide +kernel, by decide +kernel, by decide +kernel, by decide +kernel, by decide +kernel,
    by decide +kernel, by decide +kernel, by decide +kernel, rfl, arrived base travelling (by decide +kernel) rfl, rfl,
    ⟨rfl, by decide, rfl, by decide +kernel, by decide +kernel, rfl, rfl⟩, by decide⟩

/-- A load's destination of eight bytes: register 3. -/
def dest8 : LoadDest := ⟨8, false, some 3, none⟩

theorem witness_HomeEvents :
    (∀ b ∈ [Body.read 0x100 0 dest8, .copyRead 0x100 32 5 0, .write 0x100 [some 1] 0 0x100, .atomic .add 0x100 1 0,
        .amo ⟨.add, 1, 0⟩ 0x100 dest8, .once 0 0x100 0 0, .deposit 0 ⟨3, 9⟩, .message 0 msg5], comes base (asks b) = true ∧
      ∃ t, Arrived (inFlight (asks b) base) 7 (asks b) b t) ∧
    (∀ b ∈ [Body.ownRequest 0x100 5 0, .ownRelease 0x100 5, .multicast 0x100 [1] 5 0],
      ∃ t, Arrived (inFlight (copies b) base) 7 (copies b) b t) ∧ (copies (.ownRelease 0x100 5)).src.core = some 0 ∧
    (mustWait (base.cube 0) none 0x100 8 = false ∧ underRefresh (base.cube 0) 0x100 = false ∧ hostedIn base 0 0x100 8 = false) ∧
    base.poisoned 0x100 8 = none ∧ base.poison = [] ∧ Memory.wf base.mem = true ∧ registered base 0 0x100 8 = false ∧
    registered (graphAt 0x100 base) 0 0x100 1 = true ∧ comes (graphAt 0x100 base) (asks (.write 0x100 [some 1] 0 0x100)) = true ∧
    (performOnce base 0 0 0x100 0 0).isSome = true ∧ (performOnce (ownedAt 0x100 base) 0 0 0x100 0 0).isNone = true ∧
    mustWait (base.cube 0) (some 0) 0x100 32 = false ∧ mustWait ((ownedAt 0x100 base).cube 0) (some 0) 0x100 32 = true ∧
    ((base.getCore 0).ctx.live = true ∧ (base.getCore 0).lost = false) ∧ ((empty.getCore 0).ctx.live = false ∧ (empty.getCore 0).held.length < 4) ∧
    (4 ≤ ({ Core.reset with held := List.replicate 4 ⟨0, 0⟩ } : Core).held.length) ∧ msgRoom (base.getCore 0) msg5 = true ∧
    msgRoom { Core.reset with msgs := List.replicate 32 msg5 } msg5 = false ∧
    (let ends := fun (s : State) => match homeWrite s 0 (some 0) 0x100 [some 1] 0 with
      | .done _ => 0
      | .wait => 1
      | .busy => 2
      | .poisoned => 3
     ends base = 0 ∧ ends (ownedAt 0x100 base) = 1 ∧ ends (graphAt 0x100 base) = 2) :=
  ⟨by
      intro b h
      have k : comes base (asks b) = true := by
        revert b
        decide +kernel
      exact ⟨k, arrived base (asks b) k rfl⟩,
    by
      intro b h
      have k : comes base (copies b) = true := by
        revert b
        decide +kernel
      exact arrived base (copies b) k rfl,
    rfl, ⟨rfl, rfl, rfl⟩, rfl, rfl, rfl, rfl, by decide +kernel, by decide +kernel, by decide +kernel, by decide +kernel, rfl,
    by decide +kernel, ⟨rfl, rfl⟩, ⟨rfl, by decide⟩, by decide, by decide +kernel, by decide +kernel, by decide +kernel⟩

/-- A state with a NACK of a request that waits for it. -/
def nacked (b : Body) (code : Option (BitVec 16)) : State :=
  { base with flights := [{ asks b with waiting := true }, sent (.main 0) .reply (.nack code)] }

theorem witness_SenderEvents :
    (∀ x ∈ [sent (.main 0) .reply (.data [1] dest8 7 none), sent (.engine 0 .copy) .reply (.copyData [1] 5 0 none),
        sent (.main 0) .reply (.onceData 7 ⟨0, 0, none⟩), sent (.main 0) .reply (.ack 1 none),
        sent (.engine 0 .copy) .reply (.copied 0x100 5 0 none), sent (.main 0) .reply (.admission 1),
        sent (.host 0 255) .reply (.admission 0), sent (.engine 0 .copy) .reply (.grant 0x100 5 0)],
      returns base x = true ∧ (forwardedTo (replied x base) 7).isNone = true ∧ (replied x base).awaits 7 = true) ∧
    ((replied (sent (.main 0) .reply (.ack 1 none)) base).replyOf 7 = some (sent (.main 0) .reply (.ack 1 none)) ∧
      (replied (sent (.main 0) .reply (.ack 1 none)) base).awaits 7 = true) ∧
    dataReady (replied (sent (.main 0) .reply (.data [1] dest8 7 none)) base) 0 1 7 = true ∧
    asksFor (ctxWith (fun c => { c with asked := some (7, none) }) base) 1 7 = true ∧ asksFor base 1 7 = false ∧
    (∀ b c, (nacked b c).replyOf 7 = some (sent (.main 0) .reply (.nack c)) ∧
      (nacked b c).request 7 = some { asks b with waiting := true }) ∧ (some 0x62 : Option (BitVec 16)) ≠ some codeCheckFailed ∧
    (let p : Pend := { num := 7, dst := some 3, age := 1, pc := 0, seg := 0, off := 0, dest := dest8, amo := none, failed := false, asid := 0,
                       priv := false, undo := none }
     let c := (base.modRegs fun r => { r with gq := [0] }).core.ctx
     ({ c with pend := [p] } : Ctx).pend.find? (fun z => z.num == 7) = some p ∧ 1 ≤ p.age ∧ p.age ≤ c.regs.gq.length ∧ p.age ≤ 16 ∧
      16 < 17 ∧ p.dest.vec = none ∧ ({ p with dest := ⟨256, false, none, some ⟨some 31, 0, [63]⟩⟩ } : Pend).dest.vec ≠ none) ∧
    (inFlight (asks (.read 0 0 dest8)) base).request 7 = some (asks (.read 0 0 dest8)) ∧
    (inFlight (asks (.read 0 0 dest8)) base).keptOf (asks (.read 0 0 dest8)) = none ∧
    ((asks (.barrier 4096 0)).sends < 7 ∧ (base.cube 0).removed = false ∧ ({ asks (.barrier 4096 0) with sends := 7 } : Flight).sends ≥ 7) ∧
    (let s := base.modCube 0 fun q => { q with imap := map1 }
     let x := { asks (.read 0x100 0 dest8) with ilv := some (0x100, 0) }
     (0 : BitVec 16).toNat < (s.cube 0).imap.mgen.toNat ∧ (mapResolve map1 0x100).map (fun p => p.1.lost) = some false ∧
      (match mapResolve map1 0x100 with
        | some (e, l) => (match classify (focusSource (inFlight x s) x) e.cube l (some 0x100) false with
          | .ok p => x.body.mayTouch p
          | _ => false)
        | none => false) = true ∧ (Body.packet 0 none true).addr = none) ∧
    (let s := (inFlight { asks (.read 0x100 0 dest8) with cube := 1 } base).modCube 0 fun q =>
       { q with links := q.links.set 0 ⟨true, 16, 1, 0, []⟩ }
     let x := { asks (.read 0x100 0 dest8) with cube := 1 }
     (s.flights.findIdx? fun f => f.num == 7 && mayHop s f 0) = some 0 ∧ s.flights[0]? = some x ∧ x.members = [] ∧
      ({ x with members := [256] } : Flight).members ≠ [] ∧ x.at_ ≠ x.cube ∧ orderedDir s x.route x.at_ x.cube = some 0 ∧
      linkCarries s x 0 = true) :=
  ⟨by decide +kernel, ⟨rfl, by decide +kernel⟩, by decide +kernel, by decide +kernel, by decide +kernel, fun _ _ => ⟨rfl, rfl⟩, by decide,
    ⟨rfl, by decide, by decide, by decide, by decide, rfl, by decide⟩, rfl, rfl, ⟨by decide, rfl, by decide⟩,
    ⟨by decide, by decide +kernel, by decide +kernel, rfl⟩,
    ⟨by decide +kernel, rfl, rfl, by decide, by decide, by decide +kernel, by decide +kernel⟩⟩

/-- A contribution of thread 1 to group 4103. -/
def contribution (taken : Bool) : Contribution :=
  { tid := 1, core := 0, op := 0, all := false, rootCore := 12, rootCube := 0, tag := 0x55, data := 0, m := 0, s := 0, taken := taken }

theorem witness_ReductionAndBarrierEvents :
    (∀ b ∈ [Body.barrier 4103 0, .release 4103 0, .contribution 4103 (contribution false), .partialSum 4103 3 ⟨[1], 0, 0, 0⟩],
      ∃ t, Arrived (inFlight (sent (.main 0) .reduce b) (grouped 4103 none)) 7 (sent (.main 0) .reduce b) b t) ∧
    (grouped 4103 none).group 0 4103 = some (oneMember 4103 none) ∧
    (oneMember 4103 none).phase = 0 ∧ (oneMember 4103 none).phase ≠ 1 ∧
    (let r : Round := ⟨[1, 2], [contribution false], 3, []⟩
     let g : Group := { oneMember 4103 none with members := [⟨1, 0, none⟩, ⟨2, 256, none⟩], rounds := [r] }
     let s := base.modCube 0 fun q => { q with groups := [g] }
     let p : Partial := ⟨[1], 0, 0, 0⟩
     s.group 0 4103 = some g ∧ g.rounds = [r] ∧ (r.parts.any fun y => y.tid == 1 && !y.taken) = true ∧
      g.rounds.find? (fun y => y.id == 3) = some r ∧ ownMembers { g with members := [⟨1, 0, none⟩, ⟨2, 1, none⟩] } r 0 = 2 ∧
      ownMembers g r 0 = 1 ∧ (foldAll 0 [p]).isSome = true ∧ routerInputs s g r 0 = 2 ∧ routerInputs s g r 1 = 1 ∧
      treeNext s r.root treeDepth 0 = none ∧ treeNext s r.root treeDepth 1 = some 0) ∧
    agree [contribution true, contribution true] = true ∧ agree [contribution true, { contribution true with tag := 0 }] = false ∧
    (contribution true).all = false ∧ ({ contribution true with all := true } : Contribution).all = true ∧
    InService ganged 0 ∧ (ganged.cube 0).gangs.find? (fun y => y.id == 3) = some gang1 :=
  ⟨by
      intro b h
      have k : comes (grouped 4103 none) (sent (.main 0) .reduce b) = true := by
        revert b
        decide +kernel
      exact arrived _ (sent (.main 0) .reduce b) k rfl,
    rfl, rfl, by decide, by decide +kernel, by decide +kernel, by decide +kernel, rfl, rfl, ⟨by decide, rfl⟩, rfl⟩

theorem witness_ReductionAndBarrierEvents_commit :
    ({ gang1 with areaA := some ⟨1, [], [], [], oneMember 64 none, false, []⟩ } : Gang).allCommitted = false := by decide

/-- An action that fails. -/
theorem error_of {ε α : Type} {e : Except ε α} (h : e.isOk = false) : ∃ x, e = .error x := by
  cases e with
  | error x => exact ⟨x, rfl⟩
  | ok _ => simp [Except.isOk, Except.toBool] at h

/-- A copy command of one atom within the local segment. -/
def copy1 (started : Bool) (pos : Nat) : CopyCmd :=
  { form := .cpy, src := 0x200, srcSeg := 0xFFFF, dst := 0x300, dstSeg := 0xFFFF, len := 32, pb := false, grp := 0, started := started,
    pos := pos, fault := none, targets := [], atoms := [], done := [] }

/-- The copy queue with one command, or the flue queue with one entry. -/
def cqueue (c : CopyCmd) : State := base.modCtx fun k => { k with cq := [entry (.copy c)], counted := [⟨1, 5⟩] }
def fqueue (fn : Nat) : State := base.modCtx fun k => { k with fq := [entry (.flue fn 0 0 false)], counted := [⟨1, 5⟩] }

theorem witness_EngineEvents : CoreInService base 0 ∧
    ((mqueue .marker base).core.ctx.mq = entry .marker :: [] ∧ engineBusy (mqueue .marker base) 0 .matrix 1 = false ∧
      engineBusy (inFlight (sent (.engine 0 .matrix) .ordered (.write 0x100 [some 1] 0 0)) base) 0 .matrix 1 = true ∧
      (mqueue .marker base).core.ctx.formed = none) ∧
    (∀ c, (cqueue c).core.ctx.cq = [entry (.copy c)] ∧ (cqueue c).core.dq = [] ∧ enginesMay ((cqueue c).focus 0) 0 = true ∧
      (cqueue c).core.ctx.slotsClear 0 5 = true ∧ (cqueue c).core.ctx.live = true) ∧
    (ctxWith (fun c => { c with counted := [⟨7, 4⟩] }) (cqueue (copy1 false 0))).core.ctx.slotsClear 0x80 5 = false ∧
    (∃ ts, startCopy (cqueue (copy1 false 0)) 0 (entry (.copy (copy1 false 0))) (copy1 false 0) = .ok ts) ∧
    (∃ r, startCopy (cqueue (copy1 false 0)) 0 (entry (.copy (copy1 false 0))) { copy1 false 0 with pb := true } = .error r) ∧
    ((copy1 true 0).atoms = [] ∧ (copy1 true 0).fault = none ∧ (copy1 true 0).started = true ∧ (copy1 true 0).pos < (copy1 true 0).len) ∧
    (copy1 true 32).sent = true ∧
    (let k : Core := { base.core with dq := [{ entry (.copy (copy1 true 32)) with origin := some (0, .node 0 0) }] }
     k.ctx.cq = [] ∧ k.dq = [{ entry (.copy (copy1 true 32)) with origin := some (0, .node 0 0) }]) ∧
    (∀ fn, (fqueue fn).core.ctx.fq = entry (.flue fn 0 0 false) :: [] ∧ (fqueue fn).core.ctx.slotsClear 0 5 = true ∧
      enginesMay ((fqueue fn).focus 0) 0 = true ∧
      (fqueue fn).core.ctx.fq.find? (fun y => !y.accepted && y.work != .marker) = some (entry (.flue fn 0 0 false))) ∧
    (match flueEntry (fqueue 3) 0 (entry (.flue 3 0 0 false)) 1 3 0 0 with
      | .fault _ => true
      | _ => false) = true :=
  ⟨⟨by decide, rfl⟩, ⟨rfl, by decide +kernel, by decide +kernel, rfl⟩, fun _ => ⟨rfl, rfl, rfl, rfl, rfl⟩, by decide +kernel,
    ok_of (by decide +kernel), error_of (by decide +kernel), ⟨rfl, rfl, rfl, by decide⟩, rfl, ⟨rfl, rfl⟩,
    fun _ => ⟨rfl, rfl, rfl, rfl⟩, by decide +kernel⟩

/-- A flue whose kernel runs with a stream unit to read, a token to write and a unit for it. -/
def flue1 : Flue :=
  { Flue.reset with
    st := .running
    image := List.replicate 17 0
    cells := List.replicate 16 ⟨0, 0, [], [], false⟩
    ins := [[⟨0x1000, 1, 0⟩], [], [], []]
    outs := [[⟨0x2000, 1, 0⟩], [], [], []]
    oq := [[7], [], [], []] }

theorem witness_KernelEvents : InService base 0 ∧ flue1.st = .running ∧ canStream flue1 0 = true ∧ flue1.ins.getD 0 [] = [⟨0x1000, 1, 0⟩] ∧
    (base.poisoned 0x1000 64).isNone = true ∧ unitBlocked base 0 0x1000 false = false ∧ flue1.oq.getD 0 [] = [7] ∧
    flue1.outs.getD 0 [] = [⟨0x2000, 1, 0⟩] ∧ unitBlocked base 0 0x2000 true = false ∧ Memory.wf base.mem = true ∧
    ({ flue1 with frozen := true } : Flue).frozen = true ∧ (imgCells flue1.image).all (fun j => flue1.done.contains j) = true ∧
    ({ flue1 with oq := [[], [], [], []] } : Flue).oq.all List.isEmpty = true :=
  ⟨⟨by decide, rfl⟩, rfl, by decide +kernel, rfl, rfl, rfl, rfl, rfl, rfl, rfl, rfl, by decide +kernel, rfl⟩

/-- The cell passes a constant on, and to a stream whose every position has been written. -/
theorem witness_KernelEvents_fire :
    (canFire { flue1 with image := 0x68 :: List.replicate 16 0 } 0 = true ∧
      (fireCell { flue1 with image := 0x68 :: List.replicate 16 0 } 0).isSome = true) ∧
    (canFire { flue1 with image := 0x4068 :: List.replicate 16 0, outs := [[], [], [], []], oq := [[], [], [], []] } 0 = true ∧
      (fireCell { flue1 with image := 0x4068 :: List.replicate 16 0, outs := [[], [], [], []], oq := [[], [], [], []] } 0).isNone = true) := by
  decide +kernel

/-- A GANG packet of one member, and a GRAPH packet whose header is at offset 0 of segment 1. -/
def gangPacket : BitVec 1024 := 0x101#1024 ||| 4#1024 <<< 576
def graphPacket : BitVec 1024 := 0x201#1024 ||| 1#1024 <<< 192

theorem witness_TaskEvents :
    (∀ v, ∃ t, Arrived (inFlight (asks (.packet 0 none v)) (ready base)) 7 (asks (.packet 0 none v)) (.packet 0 none v) t) ∧
    (asks (.packet 0 none true)).src.core.isSome = true ∧ ((ready base).unadmitted fun f => f.ord == 7) = none ∧
    takesPackets (ready base) 0 = true ∧ takesPackets base 0 = false ∧ ((ready base).cube 0).ingress.length < 64 ∧
    64 ≤ ({ (ready base).cube 0 with ingress := List.replicate 64 (queuedPacket, none) } : Cube).ingress.length ∧
    pOp 0 ≠ 2 ∧ pOp 0x201 = 2 ∧ launchHeld (ready base) 0 0x201 = false ∧ launchHeld (ownedAt 0 (ready dram)) 0 graphPacket = true ∧
    pOp graphPacket = 2 ∧
    (∃ c, validate (ready base) 0 0 0 = .error c) ∧ Ok (validate (ready base) 0 0 gangPacket) ∧ InService (ready base) 0 ∧
    (let s := (ready base).modCube 0 fun q => { q with ingress := [(queuedPacket, none)], pifo := [queuedPacket] }
     (s.cube 0).ingress = (queuedPacket, none) :: [] ∧ (s.cube 0).pifo.length < 4096 ∧ queuedPacket.node = none ∧
      headOf (s.cube 0) = some queuedPacket ∧ dispatcherHeld (s.cube 0) = false ∧ entryHeld s 0 queuedPacket = false ∧
      (s.cube 0).noticed ≠ some queuedPacket.arrival ∧ (s.cube 0).walked = []) ∧
    4096 ≤ ({ (ready base).cube 0 with pifo := List.replicate 4096 queuedPacket } : Cube).pifo.length ∧
    (let s := fun (p : BitVec 1024) => match placeHead (ready base) 0 0 0 { queuedPacket with packet := p } with
      | .done _ => 0
      | .waits => 1
      | .elsewhere => 2
     s 0 = 0 ∧ s gangPacket = 2 ∧ s (gangPacket ||| 0xFF#1024 <<< 256) = 1) ∧
    (let r : Run := { id := 5, block := 0, data := 0, asid := 0, segs := [], slot := 0, node := 0, by_ := none, pc := 0,
                      note := (false, 0), cores := [], group := 64, cube := 0, prog := none, rows := [], elems := [],
                      due := none }
     (base.modCube 0 fun q => { q with runs := [r] }).cube 0 |>.runs.find? (fun y => y.id == 5)) ≠ none :=
  ⟨fun v => by
      have k : comes (ready base) (asks (.packet 0 none v)) = true := by cases v <;> decide +kernel
      exact arrived (ready base) (asks (.packet 0 none v)) k rfl,
    rfl, by decide +kernel, by decide +kernel,
    by decide +kernel, by decide, by decide +kernel, by decide +kernel, by decide +kernel, by decide +kernel, by decide +kernel,
    by decide +kernel, error_of (by decide +kernel), ok_of (by decide +kernel), ⟨by decide, rfl⟩,
    ⟨rfl, by decide, rfl, rfl, rfl, by decide +kernel, by decide, rfl⟩, by decide +kernel, by decide +kernel, by decide +kernel⟩

theorem witness_PowerOnResetResults : 639 < 640 := by decide

/-! ### Witnesses of the boundary cases of the wider statements -/

/-- Thread 1 with its registers in stacked DRAM: a list of capacity 2 at offset 0x100 of segment 1 (RAW), and its control
in g6: a scale, its list. -/
def listed : State := dram.store 0x100 (bytesOfNat 8 (2 * 2 ^ 32))

theorem witness_SharedExponentResults_list :
    (∃ q qs, place listed 1 0x100 32 .atomic listRegion = .ok (q :: qs) ∧ (match settlePiece listed .atomic 1 q with
      | .ok z => z.place.region == .dram && z.place.cube == 0 && z.place.addr == 0x100
      | _ => false) = true) ∧ Calm listed 0 ∧ Memory.wf listed.mem = true ∧
    natOfBytes (listed.load 0x100 4) = 0 ∧ natOfBytes (listed.load 0x104 4) = 2 ∧
    (sxPackScaled 2 .rne (fun _ => 0) ((f32.decode 0x3F800000)) ((List.range 16).map fun _ => f32.decode 0x7F800000)).2 ≠ [] :=
  ⟨ok_cons (by decide +kernel), ⟨rfl, rfl, rfl, rfl, rfl, rfl, rfl, rfl⟩, by decide +kernel, by decide +kernel, by decide +kernel,
    by decide +kernel⟩

theorem witness_LoadResults_later :
    let s : State := { withG 2 0x100 base with answerLater := true }
    s.useL1 = false ∧ (∃ q qs, place s 0xFFFF 0x100 8 .load (scalarAllow 8) = .ok (q :: qs) ∧ (q.place.region != .mmio &&
      (poisonIn s (q :: qs)).isNone && s.mayRequest (.main s.me) (homeOf s q.place) .ordered 1) = true) :=
  ⟨rfl, ok_cons (by decide +kernel)⟩

theorem witness_GroupResults_bound :
    let g := { oneMember 63 none with members := [⟨2, 1, none⟩] }
    let s := base.modCube 0 fun q => { q with groups := [g] }
    s.group 0 63 = some g ∧ g.asid = s.asidId ∧ g.member 1 = none ∧ (groupsOf s 0 1).length < 8 ∧ (∀ m ∈ g.members, m.core ≠ s.me) ∧
      g.rounds = [] ∧ (∃ m ∈ (oneMember 63 none).members, m.core = s.me) ∧ ({ g with asid := 7 } : Group).asid ≠ s.asidId := by
  decide +kernel

theorem witness_SlotAndCounterResults_classes :
    (∃ g, counterGroup (grouped 4103 none) 4103 = .ok g ∧ (decide (4096 ≤ g.num) && !peerLost (grouped 4103 none) g.home) = true) ∧
    Ok (drainPair (grouped 4103 none) 0) ∧ (grouped 4103 none).mayRequest (.main 0) 0 .ordered 1 = true ∧
    (groupNum (grouped 4103 none) (BitVec.ofNat 64 4103)).bind (fun n => (grouped 4103 none).group 0 n) = some (oneMember 4103 none) ∧
    ((groupNum base (BitVec.ofNat 64 63)) = some 63 ∧ { oneMember 63 none with asid := 7 }.asid ≠ base.asidId) :=
  ⟨⟨oneMember 4103 none, rfl, by decide +kernel⟩, ok_of (by decide +kernel), by decide +kernel,
    by decide +kernel, by decide +kernel, by decide +kernel⟩

theorem witness_RangeMapAndMigrateResults_maps :
    (freeMap mapped.core = some 1 ∧ (∃ m ∈ mapped.core.maps, meets 3 1 m.spo m.units = true) ∧
      (∀ m ∈ mapped.core.maps, meets 5 1 m.spo m.units = false)) ∧
    freeMap ({ mapped.core with maps := (List.range 8).map fun i => ⟨i, 3, 1, false, 0x2000, none⟩ } : Core) = none := by
  decide +kernel

/-- The matrix queue with a load or a store of tile 2, 16 x 16 of FP32, at an offset of the local segment. -/
def tileAt (fn : Nat) (a : Word) : State := mqueue (.tile 0x61 fn (fT none) [a]) (tiled 0)

theorem witness_TileFormResults_memory : ∀ fn, fn < 2 →
    let s := tileAt fn 0x100
    let x := entry (.tile 0x61 fn (fT none) [0x100])
    let kind := if fn = 0 then AccessKind.load else AccessKind.store
    let l := imageRows 0x100 0 16 16 0
    shapeV (s.core.ctx.tiles.shapeOf 2) = true ∧ shapeFmt (s.core.ctx.tiles.shapeOf 2) = 0 ∧
    (match placeParts s (x.requester 0) 0xFFFF kind l with
      | .ok ps => (match ps.mapM fun p => p.mapM (landed s) with
        | some ls => !ownedPieces s ls.flatten && (poisonIn s ls.flatten).isNone
        | none => false) &&
        !(((ps.zip (imageBytes s.core.ctx.tiles 2 0)).flatMap fun p =>
          mergeAtoms (writesOf (p.2.map some) (clipPieces p.2.length p.1))).any fun w => registered s w.1.cube w.2.1 w.2.2.1.length)
      | _ => false) = true ∧
    (match placeParts s (x.requester 0) 0xFFFF kind (imageRows 0x3FFFF0 0 16 16 0) with
      | .error e => !e.held
      | .ok _ => false) = true := by
  decide +kernel

/-- Thread 1 in a gang of one on core 0, its GISSUE of column 0 at the head of its queue. -/
def jointly (col : BitVec 24) : State :=
  (mqueue (.tile 0x63 0 (fT (some col)) [0, 0, 0, 0]) base).modCtx (fun c => { c with gang := some 3 })
    |>.modCube 0 fun q => { q with gangs := [gang1] }

theorem witness_TileFormResults_joint :
    (jointly 0).myGang = some gang1 ∧ gridPlace gang1 0 = some 0 ∧ giColOk gang1 (fT (some 0)) = true ∧
    giColOk gang1 (fT (some 1)) = false ∧ rowMembers (jointly 0) gang1 0 = [(0, 1, 0)] ∧
    (match giHead (jointly 0) gang1 0 1 with
      | some p => p.core == 0 && (giCheck p).isNone && !giHeld (jointly 0) p 0 && giM p.g == 1 && giN p.g == 1 && giK p.g == 1
      | none => false) = true ∧
    (scaleCheck (mulFmt 0) 1 0 0 [0, 0, 0, 0] [0, 0, 0, 0]).isNone = true := by
  decide +kernel

/-- Cube 0 and its neighbour with step 6 of R450 reached. -/
def training : State := (ready base).modStove 0 (fun t => { t with linking := true }) |>.modStove (neighbourCube 0 0) fun t =>
  { t with linking := true }

theorem witness_CubeUnitEvents_links : InService training 0 ∧ (training.cube 0).links[0]? = some ⟨false, 0, 0, 0, []⟩ ∧
    trains training 0 0 = true ∧ trains (ready base) 0 0 = false ∧
    ((training.modCube 0 fun q => { q with links := q.links.set 0 ⟨true, 16, 1, 0xFFFFFFFF, []⟩ }).cube 0).links[0]? =
      some ⟨true, 16, 1, BitVec.allOnes 32, []⟩ ∧
    (holdsOld (inFlight { sent (.main 0) .ordered (.read 0x100 0 dest8) with ilv := some (0x100, 0) } base) 0 1 = true ∨
      installsNow ({ base with removal := some ⟨0, map1, map1, false, []⟩ } : State) map1 = false) :=
  ⟨⟨by decide, rfl⟩, by decide +kernel, by decide +kernel, by decide +kernel, by decide +kernel, by decide +kernel⟩

/-- Cube 0 with a command of a code, of sequence number 7, in the mailbox of a Stove core. -/
def commanded (k code : Nat) (s : State) : State := s.modStove 0 fun t =>
  { t with unanswered := [k], posted := [(k, [BitVec.ofNat 64 (code + 7 * 2 ^ 16)])] }

theorem witness_StoveCommands_posted :
    (∀ k < 8, ((ready base).cube 0).stove.performs k = true ∧ (base.cube 0).stove.performs k = false ∧
      (((ready base).cube 0).stove.command k).isNone = true) ∧
    (((commanded 1 0x0101 (ready base)).cube 0).stove.command 1 = some 0x70101 ∧ commandCode 0x70101 = 0x0101) ∧
    unsupportedNotice 1 (List.replicate 8 0) = true ∧
    (let s := (ready base).modStove 0 fun t => { t with flushing := [15] }
     (s.cube 0).stove.flushing = [15]) ∧
    (let g : GenChange := ⟨0, 255, 0, [0], [15]⟩
     let s := (ready base).modStove 0 fun t => { t with changing := some g }
     (s.cube 0).stove.changing = some g ∧ 0 ∈ g.flush ∧ ({ g with flush := [] } : GenChange).flush = []) ∧
    (((ready base).modStove 0 fun t => { t with recov := true }).cube 0).stove.performs 1 = false := by
  decide +kernel

theorem witness_ThreadEvents_write :
    (∀ x ∈ mergedGrant (base.focus 0) 0 0x1000, x.1 / 8 = 0) ∧ mergedGrant (base.focus 0) 0 0x1000 = [(0, .main)] := by
  decide +kernel

/-- An atom of cube 0 that cannot be read. -/
def badAtom (s : State) : State := { s with poison := [0x100] }

theorem witness_HomeEvents_poison :
    (∀ b ∈ [Body.read 0x100 0 dest8, .write 0x100 [some 1] 0 0x100], comes (badAtom base) (asks b) = true ∧
      ∃ t, Arrived (inFlight (asks b) (badAtom base)) 7 (asks b) b t) ∧
    (∃ t, Arrived (inFlight (asks (.barrierRead 4103)) (grouped 4103 none)) 7 (asks (.barrierRead 4103)) (.barrierRead 4103) t) ∧
    (badAtom base).poisoned 0x100 8 = some 0x100 ∧ ((badAtom base).poisoned 0x100 1).isSome = true ∧
    meetsWrite ({ base with core := { base.core with mbWrite := some (3, 0) } }) 0 ⟨3, 9⟩ = true ∧
    (match homeWrite (badAtom base) 0 (some 0) 0x100 [some 1] 0 with
      | .poisoned => true
      | _ => false) = true :=
  ⟨by
      intro b h
      have k : comes (badAtom base) (asks b) = true := by
        revert b
        decide +kernel
      exact ⟨k, arrived (badAtom base) (asks b) k rfl⟩,
    arrived (grouped 4103 none) (asks (.barrierRead 4103)) (by decide +kernel) rfl, by decide +kernel, by decide +kernel,
    by decide +kernel, by decide +kernel⟩

theorem witness_SenderEvents_undo :
    (let p : Pend := { num := 7, dst := some 3, age := 1, pc := 0, seg := 0, off := 0, dest := dest8, amo := none, failed := false,
                       asid := 0, priv := false, undo := some ⟨base.regs, []⟩ }
     ({ base.core.ctx with pend := [p] } : Ctx).pend.find? (fun z => z.num == 7) = some p ∧ p.undo = some ⟨base.regs, []⟩) ∧
    (let x := asks (.read 0x100 0 dest8)
     x.sends ≠ 0 ∧ (base.cube x.src.place.1).tripped = false ∧ x.waiting = false ∧ ({ x with waiting := true } : Flight).waiting = true) ∧
    ((base.modCube 0 fun q => { q with tripped := true }).cube 0).tripped = true :=
  ⟨⟨by decide +kernel, rfl⟩, ⟨by decide, rfl, rfl, rfl⟩, rfl⟩

/-- A copy command that has started, with a part of it done; its queue sends its next part from the local segment. -/
theorem witness_EngineEvents_part :
    (({ copy1 true 0 with done := [(0, 16)] } : CopyCmd).done = [(0, 16)] ∧ (0 : Nat) ≤ 0 ∧ 0 < 0 + 16) ∧
    (let c := copy1 true 0
     let x := entry (.copy c)
     let s := cqueue c
     let r := copyRequester s 0 x
     (match placeOf s r 0xFFFF 0x300 .copyDst rawRegion, sourceRuns s r 0xFFFF (runs 2 0x200 (copyPart s r c)) with
      | .ok q, .ok ps => !mapHeld s && (copyDests c 0 (some q)).all (fun _ => s.mayRequest (.engine 0 .copy) (homeOf s q) .ordered 1) &&
        ps.all fun p => s.mayRequest (.engine 0 .copy) (homeOf s p.place) .adaptive 2
      | _, _ => false) = true ∧
     (match placeOf s r 0xFFFF 0x400000 .copyDst rawRegion with
      | .error e => !e.held
      | .ok _ => false) = true) := by
  decide +kernel

/-- A flue entry at the head of its queue; flue 0 is owned by core 0 and in a state, a record of one element names it at
offset 0x100, and an image with no cell stands at 0x200. -/
def flued (fn : Nat) (st : FlueStatus) : State :=
  withBytes 0x100 (bytesOfNat 64 (1 + 2 ^ 128 + 2 ^ 160 + 2 ^ 256)) (withBytes 0x282 [1] (fqueue fn)) |>.modCube 0 fun q =>
    { q with flues := q.flues.set 0 { Flue.reset with st := st, image := List.replicate 16 0 ++ [0x10000] } }

/-- What the common steps of a flue entry answer: the flues, and whether the image is one; none for a fault or a wait. -/
def flueSeen (fn : Nat) (st : FlueStatus) (o : Word) : Option (List Nat × Bool) :=
  match flueCommon (flued fn st) 0 11 ⟨0, false, some 0⟩ 0x1000 (List.replicate 4 0xFFFF) fn o 0x100 with
  | .ok (rc, bs) => some (flueSet ((flued fn st).cube 0) rc, imageOk (imageWords bs))
  | .error _ => none

theorem witness_EngineEvents_flues :
    flueSeen 0 .idle 0x200 = some ([0], true) ∧ flueSeen 0 .idle 0x400 = some ([0], false) ∧ flueSeen 1 .configured 0x200 = some ([0], false) ∧
    flueSeen 2 .running 0 = some ([0], false) ∧ flueSeen 3 .done 0x400 = some ([0], false) ∧
    anyRunning (flued 1 .running) 0 [0] = true ∧ anyRunning (flued 1 .done) 0 [0] = false ∧
    (match startKernel (flued 1 .configured) 0 ⟨0, false, some 0⟩ 0x1000 (List.replicate 4 0xFFFF) 0
        (1 + 2 ^ 128 + 2 ^ 160 + 2 ^ 256) (List.replicate 128 0) (some 1, 5) none with
      | .ok _ => true
      | .error _ => false) = true ∧
    (match statWrites (flued 3 .done) 0 0 [⟨⟨.spad 0 0, 0, spadAddr 0 0x400, none, false⟩, 0x400, 512⟩] [0] with
      | .ok _ => true
      | .error _ => false) = true := by
  decide +kernel

theorem witness_KernelEvents_stops :
    registered (graphAt 0x2000 base) 0 0x2000 64 = true ∧ ({ base with poison := [0x1020] } : State).poisoned 0x1000 64 = some 0x1020 := by
  decide +kernel

/-- A launch of one node that is counted, or done. -/
def oneNode (abort : Option (BitVec 16 × Nat)) : GraphSlot :=
  GraphSlot.mk 0 0 [⟨graphPacket, true⟩] true [0] 0 abort [] none

/-- The status of node 0 of that launch has come. -/
def nodeDone (st : BitVec 16) (abort : Option (BitVec 16 × Nat)) : State := (ready base).modCube 0 fun q =>
  { q with graphs := [oneNode abort], done := [⟨.node 0 0, st⟩] }

/-- A run whose exit is due, or is not. -/
def run5 (due : Option Nat) : Run :=
  { id := 5, block := 0x100, data := 0, asid := 0, segs := [0xFFFF, 1, 2, 0xFFFF], slot := 0, node := 0, by_ := none, pc := 0,
    note := (false, 0), cores := [], group := 64, cube := 0, prog := none, rows := [], elems := [], due := due }

theorem witness_TaskEvents_ends :
    (let s := nodeDone 0x63 none
     (endedGang s 0).isNone = true ∧ (s.cube 0).done = [⟨.node 0 0, 0x63⟩] ∧ s.graph 0 0 = some (oneNode none) ∧
      (oneNode none).started = true ∧ completionHeld s 0 (.node 0 0) = false ∧ (oneNode none).launches.length = 1 ∧
      (oneNode none).job.isNone = true) ∧
    completionHeld (nodeDone 0 (some (0x63, 1))) 0 (.node 0 0) = false ∧
    (let s := (ready base).modCube 0 fun q => { q with runs := [run5 none] }
     (s.cube 0).runs.find? (fun y => y.id == 5) = some (run5 none) ∧ (run5 none).cube = 0 ∧ (run5 (some 1)).due = some 1) ∧
    (writeExit (ready dram) { run5 (some 1) with block := 0x4000000000000100 } 1).isOk = true ∧
    (writeExit (ready base) { run5 (some 1) with block := 0x4000000000000100 } 1).isOk = false := by
  decide +kernel

end Sys2Proof.Tests
end

