-- ==== Sys2Proof/Proofs/ResultPush.lean ====
section
/-! SUPPORT and the proof of O39: what writing a result does to the thread (R12, R52, R162). -/

namespace Sys2Proof.Safety

open Sys2Proof Sys2Proof.Machine

/-- A change of the thread that keeps its tiles and its stores outstanding stays within the thread. -/
theorem sameOutside_modCtx {s : State} {f : Ctx → Ctx} (ht : (f s.core.ctx).tiles = s.core.ctx.tiles)
    (hu : (f s.core.ctx).unacked = s.core.ctx.unacked) : SameOutside s (s.modCtx f) where
  me := rfl
  seqr := rfl
  cores := rfl
  memory _ := rfl
  poison := rfl
  flights := rfl
  kept := rfl
  seqs := rfl
  removal := rfl
  agenda := rfl
  detours := rfl
  cubes _ := rfl
  runList := rfl
  messages := rfl
  maps := rfl
  tiles := ht
  unacked := hu

theorem SameOutside.trans {s t u : State} (h : SameOutside s t) (k : SameOutside t u) : SameOutside s u where
  me := k.me.trans h.me
  seqr := k.seqr.trans h.seqr
  cores := k.cores.trans h.cores
  memory a := (k.memory a).trans (h.memory a)
  poison := k.poison.trans h.poison
  flights := k.flights.trans h.flights
  kept := k.kept.trans h.kept
  seqs := k.seqs.trans h.seqs
  removal := k.removal.trans h.removal
  agenda := k.agenda.trans h.agenda
  detours := k.detours.trans h.detours
  cubes c := (k.cubes c).trans (h.cubes c)
  runList := k.runList.trans h.runList
  messages := k.messages.trans h.messages
  maps := k.maps.trans h.maps
  tiles := k.tiles.trans h.tiles
  unacked := k.unacked.trans h.unacked

/-- Two register files that differ in the result queues, the dirty bits and the g, v and m registers alone have the same
special registers. -/
theorem sameSpecial_results (a : Regs) (g : Vector Word 32) (gq : List Word) (v : Vector Vec 32) (vq : List Vec)
    (m : Vector Word 8) (x : BitVec 7) :
    SameSpecial a { a with g := g, gq := gq, v := v, vq := vq, m := m, grpdirty := x } where
  tsw _ _ _ := rfl
  fmt := rfl
  mb := rfl
  mbstat := rfl
  seg := rfl
  ras := rfl
  rsp := rfl
  rsl := rfl
  asid := rfl
  tdirty := rfl
  rank := rfl

theorem getElem?_setIfInBounds_of_some_ne {α : Type} {n j k : Nat} (v : Vector α n) (x : α) (h : some j ≠ some k) :
    (v.setIfInBounds j x)[k]? = v[k]? :=
  Vector.getElem?_setIfInBounds_ne fun e => h (congrArg some e)

/-- What a scalar result leaves of the register file. -/
theorem writeScalar_regs (lat : Nat) (d : BitVec 6) (x : Word) (s : State) :
    ∃ y, (writeScalar lat d x s).regs = { s.regs with
      g := s.regs.g.setIfInBounds d.toNat x, gq := (x :: s.regs.gq).take 16, grpdirty := y } := by
  unfold writeScalar
  dsimp only
  split
  · exact ⟨_, rfl⟩
  · next h => exact ⟨_, by rw [Vector.setIfInBounds_eq_of_size_le (by omega)]; rfl⟩

/-- What a vector result leaves of the register file. -/
theorem writeVector_regs (lat : Nat) (d : BitVec 6) (x : Vec) (s : State) :
    ∃ y, (writeVector lat d x s).regs = { s.regs with
      v := s.regs.v.setIfInBounds d.toNat x, vq := (x :: s.regs.vq).take 16, grpdirty := y } := by
  unfold writeVector
  dsimp only
  split
  · exact ⟨_, rfl⟩
  · next h => exact ⟨_, by rw [Vector.setIfInBounds_eq_of_size_le (by omega)]; rfl⟩

/-- What a mask result leaves of the register file. -/
theorem writeMask_regs (lat : Nat) (d : BitVec 6) (x : Word) (s : State) :
    ∃ y, (writeMask lat d x s).regs = { s.regs with
      m := s.regs.m.setIfInBounds d.toNat x, gq := (x :: s.regs.gq).take 16, grpdirty := y } := by
  unfold writeMask
  dsimp only
  split
  · exact ⟨_, rfl⟩
  · next h => exact ⟨_, by rw [Vector.setIfInBounds_eq_of_size_le (by omega)]; rfl⟩

theorem writeScalar_outside (lat : Nat) (d : BitVec 6) (x : Word) (s : State) :
    SameOutside s (writeScalar lat d x s) := by
  have push : SameOutside s (pushScalar lat x s) := sameOutside_modCtx rfl rfl
  unfold writeScalar
  dsimp only
  split
  · exact push.trans (sameOutside_modCtx rfl rfl)
  · exact push

theorem writeVector_outside (lat : Nat) (d : BitVec 6) (x : Vec) (s : State) :
    SameOutside s (writeVector lat d x s) := by
  have push : SameOutside s (pushVector lat x s) := sameOutside_modCtx rfl rfl
  unfold writeVector
  dsimp only
  split
  · exact push.trans (sameOutside_modCtx rfl rfl)
  · exact push

theorem writeMask_outside (lat : Nat) (d : BitVec 6) (x : Word) (s : State) :
    SameOutside s (writeMask lat d x s) := by
  have push : SameOutside s (pushScalar lat x s) := sameOutside_modCtx rfl rfl
  unfold writeMask
  dsimp only
  split
  · exact push.trans (sameOutside_modCtx rfl rfl)
  · exact push

/-- Settles O39: a write of a result is a push and, where d names a register, one assignment; each leaves the rest of the
register file and all outside it. -/
theorem resultPush : Obligations.ResultPush := by
  intro lat d x y s
  refine ⟨?_, ?_, ?_⟩
  · obtain ⟨b, h⟩ := writeScalar_regs lat d x s
    simp only [h]
    exact ⟨trivial, trivial, writeScalar_outside .., sameSpecial_results .., trivial,
      ⟨fun _ hk => getElem?_setIfInBounds_of_some_ne _ _ hk, fun _ _ => rfl, fun _ _ => rfl, rfl⟩,
      Vector.getElem?_setIfInBounds_self_of_lt, fun hd => Vector.setIfInBounds_eq_of_size_le hd⟩
  · obtain ⟨b, h⟩ := writeVector_regs lat d y s
    simp only [h]
    exact ⟨trivial, trivial, writeVector_outside .., sameSpecial_results .., trivial,
      ⟨fun _ _ => rfl, fun _ hk => getElem?_setIfInBounds_of_some_ne _ _ hk, fun _ _ => rfl, rfl⟩,
      Vector.getElem?_setIfInBounds_self_of_lt, fun hd => Vector.setIfInBounds_eq_of_size_le hd⟩
  · obtain ⟨b, h⟩ := writeMask_regs lat d x s
    simp only [h]
    exact ⟨trivial, trivial, writeMask_outside .., sameSpecial_results .., trivial,
      ⟨fun _ _ => rfl, fun _ _ => rfl, fun _ hk => getElem?_setIfInBounds_of_some_ne _ _ hk, rfl⟩,
      Vector.getElem?_setIfInBounds_self_of_lt, fun hd => Vector.setIfInBounds_eq_of_size_le hd⟩

end Sys2Proof.Safety
end

