-- ==== Sys2Proof/Proofs/CubeFrame.lean ====
section
/-! SUPPORT. Cubes and cores after a change of one, and what reports to a Stove leave of a cube. -/

namespace Sys2Proof.Machine

open Sys2Proof

/-! ### Association lists, cubes and cores -/

theorem assoc_cons {α : Type} (p : Nat × α) (l : List (Nat × α)) (j : Nat) :
    assoc (p :: l) j = if p.1 = j then some p.2 else assoc l j := by
  unfold assoc
  by_cases h : p.1 = j <;> simp [h]

theorem assoc_assocSet {α : Type} (l : List (Nat × α)) (k : Nat) (x : α) (j : Nat) :
    assoc (assocSet l k x) j = if j = k then some x else assoc l j := by
  induction l with
  | nil =>
    simp only [assocSet, assoc_cons]
    grind
  | cons p l ih =>
    unfold assocSet
    split
    · grind [assoc_cons]
    · split
      · grind [assoc_cons]
      · grind [assoc_cons]

/-- A cube after a change of one. -/
theorem State.modCube_cube (s : State) (c : Nat) (f : Cube → Cube) (d : Nat) :
    (s.modCube c f).cube d = if d = c then f (s.cube c) else s.cube d := by
  unfold State.cube State.modCube
  rw [assoc_assocSet]
  split <;> rfl

@[simp] theorem State.modCube_cube_same (s : State) (c : Nat) (f : Cube → Cube) : (s.modCube c f).cube c = f (s.cube c) := by
  rw [State.modCube_cube, if_pos rfl]

theorem State.modCube_cube_ne (s : State) {c d : Nat} (f : Cube → Cube) (h : d ≠ c) : (s.modCube c f).cube d = s.cube d := by
  rw [State.modCube_cube, if_neg h]

/-- What a change of a cube leaves of each cube, it leaves in the state. -/
theorem State.modCube_keeps {α : Type} {p : Cube → α} {f : Cube → Cube} (h : ∀ q, p (f q) = p q) (s : State) (c d : Nat) :
    p ((s.modCube c f).cube d) = p (s.cube d) := by
  rw [State.modCube_cube]
  split
  · next e => rw [h, e]
  · rfl

theorem State.setCore_cube (s : State) (i : Nat) (k : Core) (c : Nat) : (s.setCore i k).cube c = s.cube c := by
  unfold State.setCore
  split <;> rfl

@[simp] theorem State.modCore_cube (s : State) (i : Nat) (f : Core → Core) (c : Nat) : (s.modCore i f).cube c = s.cube c :=
  State.setCore_cube ..

@[simp] theorem State.focus_cube (s : State) (i c : Nat) : (s.focus i).cube c = s.cube c := by
  unfold State.focus
  split <;> rfl

/-- A core after a change of one. -/
theorem State.modCore_getCore (s : State) (i : Nat) (f : Core → Core) (j : Nat) :
    (s.modCore i f).getCore j = if j = i then f (s.getCore i) else s.getCore j := by
  unfold State.modCore State.setCore
  by_cases hi : i = s.me
  · by_cases hj : j = i
    · subst hj
      simp only [if_pos hi]
      simp [State.getCore, hi]
    · have hn : j ≠ s.me := fun e => hj (e.trans hi.symm)
      simp [State.getCore, hn, hi]
  · by_cases hj : j = i
    · subst hj
      simp [hi, State.getCore, assoc_assocSet]
    · simp [hi, hj, State.getCore, assoc_assocSet]

/-- A neighbour on the torus is another cube (R375). -/
theorem neighbourCube_ne (c d : Nat) : neighbourCube c d ≠ c := by
  unfold neighbourCube coords cubeAt
  dsimp only
  split <;> omega

/-! ### Images supplied in recovery outlast what expels a cube -/

/-- The images of a cube that were supplied in recovery. -/
def State.supplied (s : State) (c : Nat) : List (Nat × FirmwareImage) := (s.cube c).supplied

@[simp] theorem State.focus_supplied (s : State) (i c : Nat) : (s.focus i).supplied c = s.supplied c := by
  simp [State.supplied]

@[simp] theorem State.setGroup_supplied (s : State) (cube : Nat) (g : Group) (c : Nat) :
    (s.setGroup cube g).supplied c = s.supplied c := State.modCube_keeps (p := Cube.supplied) (by intro; rfl) ..

@[simp] theorem State.freeGroup_supplied (s : State) (cube n c : Nat) :
    (s.freeGroup cube n).supplied c = s.supplied c := State.modCube_keeps (p := Cube.supplied) (by intro; rfl) ..

@[simp] theorem State.errCount_supplied (s : State) (cube k c : Nat) :
    (s.errCount cube k).supplied c = s.supplied c := State.modCube_keeps (p := Cube.supplied) (by intro; rfl) ..

theorem foldl_supplied {α : Type} {c : Nat} {f : State → α → State} (h : ∀ t x, (f t x).supplied c = t.supplied c)
    (l : List α) (s : State) : (l.foldl f s).supplied c = s.supplied c := by
  induction l generalizing s with
  | nil => rfl
  | cons x l ih => exact (ih _).trans (h s x)

theorem State.multicast_supplied (s : State) (a : Agent) (tid : Nat) (k : Class) (from_ n : Nat) (l : List Nat)
    (b : Body) (c : Nat) : (s.multicast a tid k from_ n l b).supplied c = s.supplied c := by
  unfold State.multicast
  split
  · rfl
  · exact foldl_supplied (f := fun t d => t.takeSeq a d k) (by intros; rfl) ..

theorem sendContributions_supplied (s : State) (n c : Nat) : (sendContributions s n).supplied c = s.supplied c := by
  unfold sendContributions
  split
  · rfl
  · exact (foldl_supplied (by intros; rfl) ..).trans (State.setGroup_supplied ..)

theorem tryNetRelease_supplied (s : State) (n c : Nat) : (tryNetRelease s n).supplied c = s.supplied c := by
  unfold tryNetRelease
  split
  · rfl
  · dsimp only
    split
    · rfl
    · exact (State.multicast_supplied ..).trans (State.setGroup_supplied ..)

theorem captureCkpt_supplied (s : State) (cube : Nat) (g : Gang) (n : Nat) (grp : Group) (c : Nat) :
    (captureCkpt s cube g n grp).supplied c = s.supplied c :=
  (foldl_supplied (by intros; exact congrArg Cube.supplied (State.modCore_cube ..)) ..).trans
    (State.modCube_keeps (p := Cube.supplied) (by intro; rfl) ..)

theorem tryRelease_supplied (s : State) (cube n c : Nat) : (tryRelease s cube n).supplied c = s.supplied c := by
  unfold tryRelease
  split
  · rfl
  · dsimp only
    split
    · rfl
    · split
      · simp
      · split
        · rfl
        · split
          · rw [captureCkpt_supplied, State.setGroup_supplied]
          · simp

@[simp] theorem settle_supplied (s : State) (cube n c : Nat) : (settle s cube n).supplied c = s.supplied c := by
  unfold settle
  split
  · rw [tryNetRelease_supplied, sendContributions_supplied]
  · exact tryRelease_supplied ..

@[simp] theorem removeMember_supplied (s : State) (cube n tid c : Nat) :
    (removeMember s cube n tid).supplied c = s.supplied c := by
  unfold removeMember
  split
  · rfl
  · dsimp only
    split <;> simp

theorem endMismatched_supplied (s : State) (n : Nat) (r : Round) (c : Nat) :
    (endMismatched s n r).supplied c = s.supplied c := by
  unfold endMismatched
  split
  · rfl
  · exact (foldl_supplied (by intros; rfl) ..).trans (by simp)

theorem expel_supplied (s : State) (cube n tid c : Nat) : (expel s cube n tid).supplied c = s.supplied c := by
  unfold expel
  split
  · rfl
  · exact (removeMember_supplied ..).trans (foldl_supplied (fun t r => endMismatched_supplied t _ r c) ..)

theorem expelCube_supplied (s : State) (cube c : Nat) : (expelCube s cube).supplied c = s.supplied c :=
  foldl_supplied (fun t _ => expel_supplied t ..) ..

/-! ### What reports to the Stove leave of a cube -/

/-- A Stove without its mailboxes, its log and what else a boot fills. -/
def Stove.quiet (t : Stove) : Stove :=
  { t with failed := false, images := [], linking := false, notices := [], heldNotices := [], errlog := [], errcount := 0 }

/-- A cube that differs from another in its Stove's mailboxes, log and FAILED bit alone. -/
def Logged (a b : Cube) : Prop := ∃ x, b = { a with stove := x } ∧ x.quiet = a.stove.quiet ∧ x.linking = a.stove.linking

theorem Logged.refl (a : Cube) : Logged a a := ⟨_, rfl, rfl, rfl⟩

theorem Logged.trans {a b c : Cube} (h : Logged a b) (k : Logged b c) : Logged a c := by
  obtain ⟨x, rfl, hq, hl⟩ := h
  obtain ⟨y, rfl, kq, kl⟩ := k
  exact ⟨y, rfl, kq.trans hq, kl.trans hl⟩

/-- A change of the Stove's mailboxes, log and FAILED bit. -/
theorem modStove_logged {f : Stove → Stove} (hq : ∀ t, (f t).quiet = t.quiet) (hl : ∀ t, (f t).linking = t.linking)
    (s : State) (c d : Nat) : Logged (s.cube d) ((s.modStove c f).cube d) := by
  rw [State.modStove, State.modCube_cube]
  split
  · next e => exact e ▸ ⟨_, rfl, hq _, hl _⟩
  · exact Logged.refl _

theorem noticeOf_logged (s : State) (c core kind arg d : Nat) : Logged (s.cube d) ((s.noticeOf c core kind arg).cube d) :=
  modStove_logged (by intro t; unfold Stove.post; split <;> rfl) (by intro t; unfold Stove.post; split <;> rfl) ..

theorem logError_logged (s : State) (c code sev where_ d : Nat) : Logged (s.cube d) ((logError s c code sev where_).cube d) :=
  (modStove_logged (by intro; rfl) (by intro; rfl) ..).trans (noticeOf_logged ..)

theorem reportLink_logged (s : State) (c link d : Nat) : Logged (s.cube d) ((reportLink s c link).cube d) :=
  (noticeOf_logged ..).trans (logError_logged ..)

end Sys2Proof.Machine
end

