-- ==== Sys2Proof/Proofs/PowerOnReset.lean ====
section
/-! SUPPORT and the proof of O60: a power-on reset (R450-R452). -/

namespace Sys2Proof.Machine

open Sys2Proof

/-! ### A cube while it boots -/

/-- The registers of a cube while it boots: reset values but for what the boot sets, the Stove's other registers as given, and a
link up only in a direction of which `T` holds. -/
structure Booted (b : BootFlash) (cube : Nat) (given : List (Nat × FirmwareImage)) (st : Stove) (T : Nat → Prop)
    (q : Cube) : Prop where
  regs : { q with
    stove := (Cube.reset cube).stove, supplied := (Cube.reset cube).supplied, groups := (Cube.reset cube).groups
    links := (Cube.reset cube).links, errs := (Cube.reset cube).errs, expanders := (Cube.reset cube).expanders
    hostIgnore := (Cube.reset cube).hostIgnore, fgen := (Cube.reset cube).fgen, fmap := (Cube.reset cube).fmap } =
    Cube.reset cube
  stove : q.stove.quiet = st
  groups : ∀ g ∈ q.groups, 4096 ≤ g.num
  supplied : q.supplied = given
  errs : ∀ k, k < 16 → k ≠ 14 → q.errs[k]? = some 0
  flues : b.retired = [] → q.errs[14]? = some 0 ∧ q.fgen = (Cube.reset cube).fgen ∧ q.fmap = (Cube.reset cube).fmap
  links : ∀ d l, q.links[d]? = some l → l.replay = 0 ∧ (l.up = true → d ∈ b.links ∧ l.lanes = 16 ∧ l.ver = 1 ∧ T d)
  expanders : ∀ e ∈ q.expanders, e ∈ b.expanders

section Booted

variable {b : BootFlash} {cube : Nat} {given : List (Nat × FirmwareImage)} {st : Stove} {T : Nat → Prop} {q : Cube}

theorem Booted.setStove (h : Booted b cube given st T q) {x y : Stove} (hx : x.quiet = y) :
    Booted b cube given y T { q with stove := x } :=
  { h with stove := hx }

theorem Booted.logged {p : Cube} (h : Booted b cube given st T q) (hp : Logged q p) : Booted b cube given st T p := by
  obtain ⟨x, rfl, hq, -⟩ := hp
  exact h.setStove (hq.trans h.stove)

/-- While no link is up, it does not matter which may be. -/
theorem Booted.weaken {U : Nat → Prop} (h : Booted b cube given st T q) (hU : ∀ d, T d → U d) :
    Booted b cube given st U q :=
  { h with links := fun d l hl => (h.links d l hl).imp_right fun hup up =>
      have ⟨hd, hlanes, hver, ht⟩ := hup up
      ⟨hd, hlanes, hver, hU d ht⟩ }

theorem Booted.setLinks (h : Booted b cube given st T q) {d : Nat} {f : Link → Link} {v : Vector Link 6}
    (hv : ∀ k l, v[k]? = some l → q.links[k]? = some l ∨ k = d ∧ ∃ x, q.links[d]? = some x ∧ l = f x)
    (hf : ∀ x, (f x).replay = x.replay ∧ ((f x).up = true → d ∈ b.links ∧ (f x).lanes = 16 ∧ (f x).ver = 1 ∧ T d)) :
    Booted b cube given st T { q with links := v } := by
  refine { h with links := fun k l hl => ?_ }
  rcases hv k l hl with old | ⟨rfl, x, hx, rfl⟩
  · exact h.links k l old
  · exact ⟨(hf x).1.trans (h.links k x hx).1, (hf x).2⟩

theorem Booted.setExpanders (h : Booted b cube given st T q) {l : List Expander} (hl : ∀ e ∈ l, e ∈ b.expanders) :
    Booted b cube given st T { q with expanders := l } :=
  { h with expanders := hl }

theorem Booted.setHostIgnore (h : Booted b cube given st T q) (l : List IgnoreEntry) :
    Booted b cube given st T { q with hostIgnore := l } :=
  { h with regs := h.regs }

/-- A flue retired: the kernels' flues stand as at reset, and counter 14 tells of it. -/
theorem Booted.retireFlue (h : Booted b cube given st T q) (hr : b.retired ≠ []) (m : List (Nat ⊕ Nat)) (g : BitVec 16)
    (x : BitVec 48) : Booted b cube given st T { q with
      fmap := m, fgen := g, flues := Vector.replicate 64 Flue.reset, errs := q.errs.setIfInBounds 14 x } :=
  { h with
    regs := congrArg (fun p : Cube => { p with flues := Vector.replicate 64 Flue.reset }) h.regs
    errs := fun k hk hn => (Vector.getElem?_setIfInBounds_ne (Ne.symm hn)).trans (h.errs k hk hn)
    flues := fun e => absurd e hr }

end Booted

/-- A state while one of its cubes boots. -/
structure BootState (b : BootFlash) (cube : Nat) (given : List (Nat × FirmwareImage)) (st : Stove) (T : Nat → Prop)
    (t : State) : Prop where
  booted : Booted b cube given st T (t.cube cube)
  cores : ∀ k, k < 256 → { t.getCore (cube * 256 + k) with spare := false } = Core.reset ∧
    ((t.getCore (cube * 256 + k)).spare = true → k ∈ b.spares)

section BootState

variable {b : BootFlash} {cube : Nat} {given : List (Nat × FirmwareImage)} {st : Stove} {T : Nat → Prop} {t : State}

/-- A change of cubes after which this one is as a boot may leave it. -/
theorem BootState.ofCube {u : State} {st' : Stove} {T' : Nat → Prop} (h : BootState b cube given st T t)
    (hu : Booted b cube given st' T' (u.cube cube)) (hc : ∀ i, u.getCore i = t.getCore i) :
    BootState b cube given st' T' u :=
  ⟨hu, fun k hk => by rw [hc]; exact h.cores k hk⟩

theorem BootState.withError (h : BootState b cube given st T t) (c code sev where_ : Nat) :
    BootState b cube given st T (logError t c code sev where_) :=
  h.ofCube (h.booted.logged (logError_logged ..)) fun _ => rfl

theorem BootState.withReport (h : BootState b cube given st T t) (c link : Nat) :
    BootState b cube given st T (reportLink t c link) :=
  h.ofCube (h.booted.logged (reportLink_logged ..)) fun _ => rfl

/-- What a change of a link does to the cube at its first end. -/
theorem modLink_cube (s : State) (c dir : Nat) (f : Link → Link) :
    ∃ v, (modLink s c dir f).cube c = { s.cube c with links := v } ∧ ∀ k l, v[k]? = some l →
      (s.cube c).links[k]? = some l ∨ k = dir ∧ ∃ x, (s.cube c).links[dir]? = some x ∧ l = f x := by
  unfold modLink
  dsimp only
  rw [State.modCube_cube_ne _ _ (neighbourCube_ne c dir).symm, State.modCube_cube_same]
  refine ⟨_, rfl, fun k l hl => ?_⟩
  split at hl
  · next x hx =>
    rw [Vector.getElem?_setIfInBounds] at hl
    split at hl
    · next e =>
      subst e
      split at hl
      · exact .inr ⟨rfl, x, hx, (Option.some.inj hl).symm⟩
      · cases hl
    · exact .inl hl
  · exact .inl hl

theorem BootState.withLink (h : BootState b cube given st T t) {d : Nat} {f : Link → Link}
    (hf : ∀ x, (f x).replay = x.replay ∧ ((f x).up = true → d ∈ b.links ∧ (f x).lanes = 16 ∧ (f x).ver = 1 ∧ T d)) :
    BootState b cube given st T (modLink t cube d f) := by
  obtain ⟨v, hc, hv⟩ := modLink_cube t cube d f
  exact h.ofCube (hc ▸ h.booted.setLinks hv hf) fun _ => rfl

theorem BootState.detoured (h : BootState b cube given st T t) (c link : Nat) :
    BootState b cube given st T (closeLink t c link) :=
  h.ofCube h.booted (by intro; rfl)

theorem BootState.routed (h : BootState b cube given st T t) (c link : Nat) :
    BootState b cube given st T (openLink t c link) :=
  h.ofCube h.booted (by intro; rfl)

theorem BootState.linksClosed (h : BootState b cube given st T t) : BootState b cube given st T (closeLinks t cube) := by
  refine List.foldlRecOn _ _ h fun u hu d _ => ?_
  have closed := (hu.withLink (d := d) (f := fun l => { l with up := false, lanes := 0 })
    fun _ => ⟨rfl, fun up => nomatch up⟩).detoured cube d
  dsimp only
  split
  · exact closed.withReport ..
  · exact closed

theorem BootState.memoryBooted (h : BootState b cube given st T t) : BootState b cube given st T (bootMemory t cube b) := by
  refine h.ofCube ?_ fun _ => rfl
  rw [bootMemory, State.modCube_cube_same]
  refine h.booted.setExpanders fun e he => ?_
  rcases List.mem_append.mp he with h | h <;> exact List.mem_of_mem_filter (List.mem_of_mem_take h)

theorem BootState.withSpare (h : BootState b cube given st T t) {k : Nat} (hk : k ∈ b.spares) :
    BootState b cube given st T (t.modCore (cube * 256 + k) fun c => { c with spare := true }) := by
  refine ⟨(State.modCore_cube ..).symm ▸ h.booted, fun j hj => ?_⟩
  rw [State.modCore_getCore]
  split
  · next e =>
    obtain rfl : j = k := by omega
    exact ⟨(h.cores j hj).1, fun _ => hk⟩
  · exact h.cores j hj

theorem BootState.withRetired (h : BootState b cube given st T t) (hr : b.retired ≠ []) (flue : Nat) :
    BootState b cube given st T (retire t cube flue) := by
  unfold retire
  dsimp only
  split
  · exact BootState.withError
      (h.ofCube (h.booted.logged (modStove_logged (by intro; rfl) (by intro; rfl) ..)) (by intro; rfl)) ..
  · refine BootState.withError (h.ofCube ?_ (by intro; rfl)) ..
    have stands (s : State) : (rehome s).cube cube = s.cube cube := rfl
    rw [State.errCount, State.modCube_cube_same, stands, State.modCube_cube_same]
    exact h.booted.retireFlue hr ..

theorem BootState.sparesBooted (h : BootState b cube given st T t) : BootState b cube given st T (bootSpares t cube b) := by
  refine List.foldlRecOn _ _ (List.foldlRecOn _ _ h fun u hu k hk => ?_) fun u hu d hd => ?_
  · split
    · exact hu.withSpare hk
    · exact hu
  · split
    · exact hu.withRetired (List.ne_nil_of_mem hd) d
    · exact hu

end BootState

/-! ### The bits of the Stove's core masks -/

/-- The numbers below `n` of which `p` holds, as the bits of a sum. -/
theorem sum_two_pow_filter (p : Nat → Bool) (n : Nat) :
    let x := ((List.range n).filter p).foldl (fun x k => x + 2 ^ k) 0
    x < 2 ^ n ∧ ∀ k, x.testBit k = (decide (k < n) && p k) := by
  induction n with
  | zero => simp
  | succ n ih =>
    obtain ⟨hlt, hbit⟩ := ih
    rw [List.range_succ, List.filter_append, List.foldl_append]
    generalize ((List.range n).filter p).foldl (fun x k => x + 2 ^ k) 0 = x at hlt hbit ⊢
    have above : x.testBit n = false := Nat.testBit_lt_two_pow hlt
    cases hp : p n with
    | false =>
      simp only [List.filter_cons, hp, List.filter_nil, Bool.false_eq_true, if_false, List.foldl_nil]
      refine ⟨by omega, fun k => ?_⟩
      rw [hbit]
      by_cases hk : k = n
      · simp [hk, hp]
      · have : k < n ↔ k < n + 1 := by omega
        simp [this]
    | true =>
      simp only [List.filter_cons, hp, List.filter_nil, if_true, List.foldl_cons, List.foldl_nil]
      refine ⟨by omega, fun k => ?_⟩
      rcases Nat.lt_trichotomy k n with hk | rfl | hk
      · rw [Nat.add_comm, Nat.testBit_two_pow_add_gt hk, hbit]
        have : k < n + 1 := by omega
        simp [hk, this]
      · rw [Nat.add_comm, Nat.testBit_two_pow_add_eq, above]
        simp [hp]
      · have hx : x + 2 ^ n < 2 ^ k := by
          have : 2 ^ (n + 1) ≤ 2 ^ k := Nat.pow_le_pow_right (by omega) hk
          omega
        have : ¬k < n + 1 := by omega
        rw [Nat.testBit_lt_two_pow hx]
        simp [this]

/-- The mask of the cores in a list. -/
def coreMask (l : List Nat) : BitVec 8 := BitVec.ofNat 8 (l.foldl (fun x k => x + 2 ^ k) 0)

theorem coreMask_filter (p : Nat → Bool) {k : Nat} (hk : k < 8) :
    (coreMask ((List.range 8).filter p)).getLsbD k = p k := by
  unfold coreMask
  rw [BitVec.getLsbD_ofNat, (sum_two_pow_filter p 8).2 k]
  simp [hk]

/-- A Stove that has booted the cores of `ok`. -/
def bootedStove (ok : List Nat) (ready : Bool) : Stove :=
  let bad := (List.range 8).filter fun k => !ok.contains k
  { Stove.reset with
    run := if ok.contains 6 then coreMask ok else 0, fail := coreMask bad, ready := ready
    recov := bad.contains 6 || bad.contains 0 }

/-- The verified cores are as many as there are just when each is verified. -/
theorem verified_length {q : Cube} {f : BootFlash} {cube : Nat} (h : (verified q f cube).length = 8) {k : Nat}
    (hk : k < 8) : k ∈ verified q f cube := by
  have whole : verified q f cube = List.range 8 := List.filter_sublist.eq_of_length h
  simp [whole, hk]

/-! ### The steps of a boot -/

theorem resetCores_getCore (s : State) (cube : Nat) {i : Nat} (h : i / 256 = cube) :
    (resetCores s cube).getCore i = Core.reset := by
  unfold resetCores State.getCore
  dsimp only
  split
  · next e => rw [if_pos (e ▸ h)]
  · have gone : assoc (s.cores.filter fun p => p.1 / 256 != cube) i = none := by
      unfold assoc
      rw [Option.map_eq_none_iff, List.find?_eq_none]
      rintro ⟨j, c⟩ hj
      have : j / 256 ≠ cube := by simpa using (List.mem_filter.mp hj).2
      simp only [beq_iff_eq]
      rintro rfl
      exact this h
    rw [gone]
    rfl

theorem Booted.held (b : BootFlash) (cube : Nat) (given : List (Nat × FirmwareImage)) (gs : List Group) :
    Booted b cube given Stove.reset (fun _ => False)
      { Cube.reset cube with supplied := given, groups := gs.filter fun g => 4096 ≤ g.num } where
  regs := rfl
  stove := rfl
  groups g hg := by simpa using (List.mem_filter.mp hg).2
  supplied := rfl
  errs k hk _ := by simp [Cube.reset, hk]
  flues _ := ⟨by simp [Cube.reset], rfl, rfl⟩
  links d l hl := by
    simp only [Cube.reset] at hl
    obtain ⟨hd, he⟩ := Vector.getElem?_eq_some_iff.mp hl
    rw [Vector.getElem_replicate] at he
    subst he
    exact ⟨rfl, fun up => nomatch up⟩
  expanders e he := nomatch he

/-- After step 1 of R450 every core and register of the cube has its reset value. -/
theorem holdCube_state (b : BootFlash) (s : State) (cube : Nat) :
    BootState b cube (s.supplied cube) Stove.reset (fun _ => False) (holdCube s cube) where
  booted := by
    have kept : ((resetPlace (resetCores (expelCube s cube) cube) cube).cube cube).supplied = s.supplied cube :=
      expelCube_supplied s cube cube
    unfold holdCube
    dsimp only
    rw [State.modCube_cube_same, kept]
    exact Booted.held ..
  cores k hk := by
    have fresh : (holdCube s cube).getCore (cube * 256 + k) = Core.reset :=
      resetCores_getCore (expelCube s cube) cube (by omega)
    rw [fresh]
    exact ⟨rfl, fun h => nomatch h⟩

/-! ### The reset as a whole -/

theorem Logged.linking {a b : Cube} (h : Logged a b) : b.stove.linking = a.stove.linking := by
  obtain ⟨x, rfl, -, hl⟩ := h
  exact hl

theorem modLink_linking (s : State) (c dir : Nat) (f : Link → Link) (d : Nat) :
    ((modLink s c dir f).cube d).stove.linking = (s.cube d).stove.linking :=
  (State.modCube_keeps (p := fun q => q.stove.linking) (by intro; rfl) ..).trans
    (State.modCube_keeps (p := fun q => q.stove.linking) (by intro; rfl) ..)

theorem trains_congr {s u : State} (h : ∀ c, (u.cube c).stove.linking = (s.cube c).stove.linking) (c link : Nat) :
    trains u c link = trains s c link := by
  simp [trains, h]

theorem coreMask_verified {q : Cube} {f : BootFlash} {cube k : Nat} (hk : k < 8) :
    (coreMask (verified q f cube)).getLsbD k = true ↔ k ∈ verified q f cube := by
  unfold verified
  rw [coreMask_filter _ hk]
  simp [hk]

/-- A Stove is known by what it shows apart from its mailboxes and log. -/
theorem quiet_released {x st : Stove} (h : x.quiet = st) (run fail : BitVec 8) (recov : Bool)
    (images : List (BitVec 256 × BitVec 32)) :
    Stove.quiet { x with run := run, fail := fail, recov := recov, images := images } =
      { st with run := run, fail := fail, recov := recov } := by
  rw [← h]
  rfl

section Steps

variable {b : BootFlash} {cube : Nat} {given : List (Nat × FirmwareImage)} {st : Stove} {T : Nat → Prop} {t : State}

/-- A change of this cube's Stove. -/
theorem BootState.withStove (h : BootState b cube given st T t) {f : Stove → Stove} {st' : Stove}
    (hf : (f (t.cube cube).stove).quiet = st') : BootState b cube given st' T (t.modStove cube f) := by
  refine h.ofCube ?_ fun _ => rfl
  rw [State.modStove, State.modCube_cube_same]
  exact h.booted.setStove hf

/-- Steps 2 and 3 of R450. -/
theorem BootState.released (h : BootState b cube given Stove.reset T t) (ok : List Nat) :
    BootState b cube given (bootedStove ok false) T (releaseStove t cube b ok) := by
  unfold releaseStove
  exact h.withStove (quiet_released h.booted.stove ..)

/-- A state on the way through step 6 of R450, in which the cubes train their links that did at its start. -/
def Linking (b : BootFlash) (cube : Nat) (given : List (Nat × FirmwareImage)) (st : Stove) (start u : State) : Prop :=
  BootState b cube given st (fun d => trains start cube d = true) u ∧
    ∀ c, (u.cube c).stove.linking = (start.cube c).stove.linking

theorem Linking.reported {start u : State} (h : Linking b cube given st start u) (c link : Nat) :
    Linking b cube given st start (reportLink u c link) :=
  ⟨h.1.withReport .., fun d => (reportLink_logged u c link d).linking.trans (h.2 d)⟩

theorem Linking.trained {start u : State} (h : Linking b cube given st start u) {d : Nat} (hd : d ∈ b.links)
    (ht : trains u cube d = true) :
    Linking b cube given st start
      (openLink (modLink u cube d fun l => { l with up := true, lanes := 16, ver := 1, ignore := [] }) cube d) := by
  obtain ⟨hu, hl⟩ := h
  have stands : trains start cube d = true := (trains_congr hl cube d).symm.trans ht
  have up := hu.withLink (f := fun l => { l with up := true, lanes := 16, ver := 1, ignore := [] })
    fun _ => ⟨rfl, fun _ => ⟨hd, rfl, rfl, stands⟩⟩
  exact ⟨up.routed .., fun c => (modLink_linking ..).trans (hl c)⟩

/-- Step 6 of R450: the links that are up train. -/
theorem BootState.linksBooted (h : BootState b cube given st (fun _ => False) t) :
    BootState b cube given st (fun d => trains (bootLinks t cube b) cube d = true) (bootLinks t cube b) := by
  have started : BootState b cube given st (fun _ => False) (t.modStove cube fun t => { t with linking := true }) :=
    h.withStove h.booted.stove
  have linked : Linking b cube given st (t.modStove cube fun t => { t with linking := true }) (bootLinks t cube b) := by
    refine List.foldlRecOn _ _ ⟨started.ofCube (started.booted.weaken fun _ e => e.elim) fun _ => rfl, fun _ => rfl⟩
      fun u hu d _ => ?_
    split
    · next hd =>
      split
      · next ht => exact hu.trained (List.contains_iff_mem.mp hd) ht
      · exact hu
    · exact List.foldlRecOn _ _ hu fun u hu e _ => hu.reported ..
  obtain ⟨booted, same⟩ := linked
  exact booted.ofCube (booted.booted.weaken fun d ht => (trains_congr same cube d).trans ht) fun _ => rfl

/-- Step 7 of R450. -/
theorem BootState.hostBooted {ok : List Nat} {x : Bool} (h : BootState b cube given (bootedStove ok x) T t) :
    BootState b cube given (bootedStove ok (ok.length = 8)) T (bootHost t cube b ok) := by
  have ready : BootState b cube given (bootedStove ok (ok.length = 8)) T
      (t.modStove cube fun t => { t with ready := ok.length = 8 }) :=
    h.withStove (congrArg (fun t : Stove => { t with ready := ok.length = 8 }) h.booted.stove)
  refine ready.ofCube ?_ fun _ => rfl
  rw [bootHost, State.modCube_cube_same]
  exact ready.booted.setHostIgnore _

theorem bootHost_trains (t : State) (cube : Nat) (b : BootFlash) (ok : List Nat) (c link : Nat) :
    trains (bootHost t cube b ok) c link = trains t c link :=
  trains_congr (fun _ => (State.modCube_keeps (p := fun q => q.stove.linking) (by intro; rfl) ..).trans
    (State.modCube_keeps (p := fun q => q.stove.linking) (by intro; rfl) ..)) ..

end Steps

/-- How a power-on reset ends: READY is set only where each image has been accepted. -/
theorem execPowerOnReset_boots (b : BootFlash) {cube : Nat} (hc : cube < 640) (s : State) :
    let ok := verified ((holdCube (s.focus (cube * 256)) cube).cube cube) b cube
    ∃ t, execPowerOnReset cube b s = .next t ∧
      BootState b cube (s.supplied cube) (bootedStove ok (ok.length = 8)) (fun d => trains t cube d = true) t := by
  intro ok
  have held := holdCube_state b (s.focus (cube * 256)) cube
  rw [State.focus_supplied] at held
  have released := held.linksClosed.released ok
  have memory := released.memoryBooted
  have spares := memory.sparesBooted
  have links := spares.linksBooted
  have host := links.hostBooted
  have early {k : Nat} (hk : k < 8) (hr : (!(ok.contains 6 && ok.contains k)) = true) {u : State} {T : Nat → Prop}
      (hT : ∀ d, T d → trains u cube d = true) (hu : BootState b cube (s.supplied cube) (bootedStove ok false) T u) :
      BootState b cube (s.supplied cube) (bootedStove ok (ok.length = 8)) (fun d => trains u cube d = true) u := by
    have unready : ok.length ≠ 8 := fun full => by
      simp [ok, verified_length full (k := 6) (by omega), verified_length full hk] at hr
    rw [decide_eq_false unready]
    exact hu.ofCube (hu.booted.weaken hT) fun _ => rfl
  unfold execPowerOnReset
  rw [if_neg (by omega)]
  dsimp only
  split
  · next h2 => exact ⟨_, rfl, early (by omega) h2 (fun _ e => e.elim) released⟩
  · split
    · next h3 => exact ⟨_, rfl, early (by omega) h3 (fun _ e => e.elim) memory⟩
    · split
      · next h4 => exact ⟨_, rfl, early (by omega) h4 (fun _ e => e.elim) spares⟩
      · refine ⟨_, rfl, ?_⟩
        split
        · exact host.ofCube (host.booted.weaken fun d ht => (bootHost_trains ..).trans ht) fun _ => rfl
        · next h0 =>
          have off := (Bool.not_eq_true' _).mpr (Bool.eq_false_of_not_eq_true h0)
          exact early (k := 0) (by omega) off (fun _ ht => ht) links

/-! ### What a booted Stove shows -/

section Shown

variable {b : BootFlash} {cube : Nat} {given : List (Nat × FirmwareImage)} {ok : List Nat} {x : Bool} {T : Nat → Prop}
  {q : Cube}

theorem Booted.run (h : Booted b cube given (bootedStove ok x) T q) :
    q.stove.run = if ok.contains 6 then coreMask ok else 0 :=
  congrArg Stove.run h.stove

theorem Booted.fail (h : Booted b cube given (bootedStove ok x) T q) :
    q.stove.fail = coreMask ((List.range 8).filter fun k => !ok.contains k) :=
  congrArg Stove.fail h.stove

theorem Booted.ready (h : Booted b cube given (bootedStove ok x) T q) : q.stove.ready = x :=
  congrArg Stove.ready h.stove

theorem Booted.recov_iff (h : Booted b cube given (bootedStove ok x) T q) : q.stove.recov = true ↔ 6 ∉ ok ∨ 0 ∉ ok := by
  have shown : q.stove.quiet.recov = (bootedStove ok x).recov := congrArg Stove.recov h.stove
  rw [show q.stove.recov = (bootedStove ok x).recov from shown]
  simp [bootedStove]

theorem Booted.fail_iff (h : Booted b cube given (bootedStove ok x) T q) {k : Nat} (hk : k < 8) :
    q.stove.fail.getLsbD k = true ↔ k ∉ ok := by
  rw [h.fail, coreMask_filter _ hk]
  simp

theorem Booted.run_iff {p : Cube} {c : Nat} (h : Booted b cube given (bootedStove (verified p b c) x) T q) {k : Nat}
    (hk : k < 8) : q.stove.run.getLsbD k = true ↔ 6 ∈ verified p b c ∧ k ∈ verified p b c := by
  rw [h.run]
  split
  · next h6 => simpa [List.contains_iff_mem.mp h6] using coreMask_verified hk
  · next h6 => simp [mt List.contains_iff_mem.mpr h6]

theorem Booted.rest (h : Booted b cube given (bootedStove ok x) T q) :
    { q.stove.quiet with run := 0, fail := 0, ready := false, recov := false } = Stove.reset := by
  rw [h.stove]
  rfl

end Shown

end Sys2Proof.Machine

namespace Sys2Proof.Safety

open Sys2Proof Sys2Proof.Machine

/-- Settles O60: each step of R450 keeps the reset values of the cube and its cores but for what it sets, and READY comes
last. -/
theorem powerOnResetResults : Obligations.PowerOnResetResults := by
  intro s cube f hc
  obtain ⟨t, ht, booted, cores⟩ := execPowerOnReset_boots f hc s
  have ready := booted.ready
  exact ⟨t, ht, fun k hk => ⟨booted.run_iff hk, booted.fail_iff hk⟩, ready ▸ decide_eq_true_iff, booted.recov_iff,
    booted.regs, booted.rest, booted.groups, booted.supplied, booted.errs, booted.flues, booted.links, booted.expanders,
    cores⟩

end Sys2Proof.Safety
end

