-- ==== Sys2Proof/Proofs/MemoryFrame.lean ====
section
/-! SUPPORT. What leaves memory alone: an equation `(f …).mem = s.mem` for each operation that writes none. -/

namespace Sys2Proof.Machine

open Sys2Proof Sys2Proof.Safety

@[simp] theorem foldl_mem {α : Type} {f : State → α → State} (h : ∀ t x, (f t x).mem = t.mem) (l : List α) (s : State) :
    (l.foldl f s).mem = s.mem := by
  induction l generalizing s with
  | nil => rfl
  | cons x l ih => rw [List.foldl_cons, ih, h]

theorem foldl_fst_mem {α β : Type} {f : State × β → α → State × β} (h : ∀ x a, (f x a).1.mem = x.1.mem) (l : List α)
    (x : State × β) : (l.foldl f x).1.mem = x.1.mem := by
  induction l generalizing x with
  | nil => rfl
  | cons a l ih => rw [List.foldl_cons, ih, h]

@[simp] theorem foldl_send_mem {α : Type} (src : α → Agent) (tid : Nat) (cls : Class) (at_ : α → Nat) (cube home : State → α → Nat)
    (ilv : α → Option (Nat × BitVec 16)) (body : α → Body) (l : List α) (s : State) :
    (l.foldl (fun t x => t.send (src x) tid cls (at_ x) (cube t x) (home t x) (ilv x) (body x)) s).mem = s.mem :=
  foldl_mem (by simp) ..

/-! ### The state -/

@[simp] theorem State.takeSeq_mem (s : State) (src : Agent) (home : Nat) (cls : Class) :
    (s.takeSeq src home cls).mem = s.mem := rfl

@[simp] theorem State.sendHeld_mem (s : State) : (s.sendHeld).mem = s.mem := by
  unfold State.sendHeld; split <;> rfl

@[simp] theorem State.putFlights_mem (s : State) (l : List Flight) : (s.putFlights l).mem = s.mem := rfl

@[simp] theorem State.multicast_mem (s : State) (src : Agent) (tid : Nat) (cls : Class) (from_ n : Nat) (members : List Nat)
    (body : Body) : (s.multicast src tid cls from_ n members body).mem = s.mem := by
  unfold State.multicast; split
  · rfl
  · exact foldl_mem (by simp) ..

/-! ### Operands and results -/

@[simp] theorem writeScalar_mem (lat : Nat) (d : BitVec 6) (x : Word) (s : State) :
    (writeScalar lat d x s).mem = s.mem := by
  unfold writeScalar; split <;> rfl

@[simp] theorem writeVector_mem (lat : Nat) (d : BitVec 6) (x : Vec) (s : State) :
    (writeVector lat d x s).mem = s.mem := by
  unfold writeVector; split <;> rfl

@[simp] theorem writeMask_mem (lat : Nat) (d : BitVec 6) (x : Word) (s : State) : (writeMask lat d x s).mem = s.mem := by
  unfold writeMask; split <;> rfl

/-! ### Accesses -/

@[simp] theorem State.again_mem (s : State) (f : Flight) (k : Kept) : (s.again f k).mem = s.mem := rfl

@[simp] theorem State.reply_mem (s : State) (f : Flight) (b : Body) : (s.reply f b).mem = s.mem := rfl

@[simp] theorem l1DropAt_mem (s : State) (core : Option Nat) (a n : Nat) : (l1DropAt s core a n).mem = s.mem := by
  unfold l1DropAt; split <;> simp

@[simp] theorem l1DropRange_mem (s : State) (a n : Nat) : (l1DropRange s a n).mem = s.mem := rfl

@[simp] theorem l1DropAll_mem (s : State) (a n : Nat) : (l1DropAll s a n).mem = s.mem := rfl

@[simp] theorem dropEarly_mem (s : State) (cube key : Nat) : (dropEarly s cube key).mem = s.mem := by
  unfold dropEarly; split <;> rfl

@[simp] theorem readAhead_mem (s : State) (cube key a : Nat) : (readAhead s cube key a).mem = s.mem := by
  simp only [readAhead]; split <;> simp

@[simp] theorem sendWrite_mem (s : State) (p : Place) (a : Nat) (bs : List (Option Byte)) (add : Nat) (off : Word) :
    (sendWrite s p a bs add off).mem = s.mem := rfl

@[simp] theorem l1Merge_mem (s : State) (a : Nat) (bs : List (Option Byte)) (add : Nat) :
    (l1Merge s a bs add).mem = s.mem := by
  unfold l1Merge; split <;> rfl

@[simp] theorem bumpVersion_mem (s : State) (scope : Nat) : (bumpVersion s scope).mem = s.mem := by
  unfold bumpVersion; split <;> rfl

@[simp] theorem acquire_mem (scope : Nat) (s : State) : (acquire scope s).mem = s.mem := by simp [acquire]

@[simp] theorem l1Fill_mem (s : State) (a : Nat) : (l1Fill s a).mem = s.mem := rfl

@[simp] theorem l1Drop_mem (s : State) (a : Nat) : (l1Drop s a).mem = s.mem := rfl

@[simp] theorem countSent_mem (s : State) (parts : Nat) (t : State) : (countSent s parts t).mem = t.mem := by
  unfold countSent; split <;> rfl

@[simp] theorem countMisses_mem (s : State) (ps : List Piece) : (countMisses s ps).mem = s.mem := rfl

/-! ### Memory instructions -/

@[simp] theorem sendLoad_mem (s : State) (p : Piece) (seg : BitVec 16) (n : Nat) (signed : Bool) (d : BitVec 6) :
    (sendLoad s p seg n signed d).mem = s.mem := by simp [sendLoad]

@[simp] theorem dropFetched_mem (s : State) : (dropFetched s).mem = s.mem := rfl

@[simp] theorem sendLanes_mem (s : State) (seg : BitVec 16) (w : LanePart → Nat) (d : BitVec 6) (l : List LanePart) :
    (sendLanes s seg w d l).mem = s.mem := by
  refine (writeVector_mem ..).trans (foldl_fst_mem (fun x q => ?_) ..)
  rfl

@[simp] theorem sendAmo_mem (s : State) (p : Piece) (seg : BitVec 16) (n : Nat) (args : AmoArgs) (d : BitVec 6) :
    (sendAmo s p seg n args d).mem = s.mem := by simp [sendAmo]

@[simp] theorem sendAtomics_mem (op : AtomicOp) (x : Vec) (s : State) (l : List (LaneAccess × List Piece)) :
    (sendAtomics op x s l).mem = s.mem := by
  induction l generalizing s with
  | nil => rfl
  | cons a l ih =>
    obtain ⟨a, _ | ⟨p, ps⟩⟩ := a
    · exact ih s
    · exact ih _

@[simp] theorem redirect_mem (s : State) (from_ dest n : Nat) : (redirect s from_ dest n).mem = s.mem := rfl

@[simp] theorem rehome_mem (s : State) : (rehome s).mem = s.mem := rfl

/-! ### Groups and barriers -/

@[simp] theorem State.setGroup_mem (s : State) (cube : Nat) (g : Group) : (s.setGroup cube g).mem = s.mem := rfl

@[simp] theorem State.freeGroup_mem (s : State) (cube n : Nat) : (s.freeGroup cube n).mem = s.mem := rfl

@[simp] theorem captureCkpt_mem (s : State) (cube : Nat) (g : Gang) (n : Nat) (grp : Group) :
    (captureCkpt s cube g n grp).mem = s.mem := by simp [captureCkpt]

@[simp] theorem tryRelease_mem (s : State) (cube n : Nat) : (tryRelease s cube n).mem = s.mem := by
  simp only [tryRelease]; repeat' split
  all_goals simp

@[simp] theorem sendContributions_mem (s : State) (n : Nat) : (sendContributions s n).mem = s.mem := by
  unfold sendContributions; split <;> simp

@[simp] theorem tryNetRelease_mem (s : State) (n : Nat) : (tryNetRelease s n).mem = s.mem := by
  simp only [tryNetRelease]; repeat' split
  all_goals simp

@[simp] theorem settle_mem (s : State) (cube n : Nat) : (settle s cube n).mem = s.mem := by
  unfold settle; split <;> simp

@[simp] theorem stepPending_mem (s : State) (cube n : Nat) (x : BitVec 48) : (stepPending s cube n x).mem = s.mem := by
  unfold stepPending; split <;> simp

@[simp] theorem arriveAt_mem (s : State) (cube n tid : Nat) : (arriveAt s cube n tid).mem = s.mem := by
  unfold arriveAt; split <;> simp

@[simp] theorem removeMember_mem (s : State) (cube n tid : Nat) : (removeMember s cube n tid).mem = s.mem := by
  simp only [removeMember]; repeat' split
  all_goals simp

/-! ### Engines -/

@[simp] theorem sendMsg_mem (s : State) (src : Agent) (tid from_ cube core : Nat) (m : Msg) :
    (sendMsg s src tid from_ cube core m).mem = s.mem := rfl

@[simp] theorem notify_mem (s : State) (from_ core cube : Nat) (tag : BitVec 32) (status : BitVec 16) (node count : Nat) :
    (notify s from_ core cube tag status node count).mem = s.mem := by
  unfold notify; split <;> rfl

@[simp] theorem reportDone_mem (s : State) (cube : Nat) (o : Option WorkOrigin) (status : BitVec 16) :
    (reportDone s cube o status).mem = s.mem := by
  simp only [reportDone]; repeat' split
  all_goals simp

@[simp] theorem reportFrom_mem (s : State) (o : Option (Nat × WorkOrigin)) (status : BitVec 16) :
    (reportFrom s o status).mem = s.mem := by
  unfold reportFrom; split <;> simp

/-! ### Copies -/

@[simp] theorem releaseAtom_mem (s : State) (core tid id : Nat) (a : CopyAtom) :
    (releaseAtom s core tid id a).mem = s.mem := rfl

@[simp] theorem releaseEntry_mem (s : State) (core tid : Nat) (x : Entry) : (releaseEntry s core tid x).mem = s.mem := by
  unfold releaseEntry; split
  · exact foldl_mem (by simp) ..
  · rfl

@[simp] theorem dropAtom_mem (s : State) (core : Nat) (x : Entry) (a : CopyAtom) :
    (dropAtom s core x a).mem = s.mem := by
  unfold dropAtom; split <;> simp

@[simp] theorem copyFault_mem (s : State) (core : Nat) (x : Entry) (p : Nat) (t : TrapReport) :
    (copyFault s core x p t).mem = s.mem := by
  simp only [copyFault]; repeat' split
  all_goals simp

@[simp] theorem copySend_mem (s : State) (core : Nat) (x : Entry) (c : CopyCmd) : (copySend s core x c).mem = s.mem := by
  simp only [copySend]; repeat' split
  all_goals simp

@[simp] theorem copySendData_mem (s : State) (core : Nat) (x : Entry) (c : CopyCmd) (p : Nat) :
    (copySendData s core x c p).mem = s.mem := by
  simp only [copySendData]; split
  · rfl
  · split
    · exact (State.multicast_mem ..).trans ((foldl_mem (by simp) ..).trans (by simp))
    · exact (foldl_mem (by simp) ..).trans (by simp)

@[simp] theorem copyWrites_mem (s : State) (core id : Nat) : (copyWrites s core id).mem = s.mem := by
  unfold copyWrites; split
  · rfl
  · exact foldl_mem (by simp) ..

@[simp] theorem copyGrant_release_mem (core id atom : Nat) (ilv : Option (Nat × BitVec 16)) (s : State) :
    (copyGrant.release_ core id atom ilv s).mem = s.mem := rfl

@[simp] theorem copyGrant_mem (s : State) (core id p atom : Nat) (ilv : Option (Nat × BitVec 16)) :
    (copyGrant s core id p atom ilv).mem = s.mem := by
  simp only [copyGrant]; split
  · split <;> simp
  · simp

@[simp] theorem copyArrive_mem (s : State) (core id q : Nat) (bs : List Byte) (err : Option Word) :
    (copyArrive s core id q bs err).mem = s.mem := by
  simp only [copyArrive]; repeat' split
  all_goals simp

@[simp] theorem copyWritten_mem (s : State) (core id p dst : Nat) (refused : Option TrapCode) :
    (copyWritten s core id p dst refused).mem = s.mem := by
  simp only [copyWritten]; repeat' split
  all_goals simp

@[simp] theorem copyStart_mem (core : Nat) (s : State) : (copyStart core s).mem = s.mem := by
  have hw (l : List Entry) : (l.foldl (fun t x => copyWrites t core x.id) s).mem = s.mem := foldl_mem (by simp) ..
  simp only [copyStart]; repeat' split
  all_goals simp [hw]

@[simp] theorem copyComplete_mem (core : Nat) (s : State) : (copyComplete core s).mem = s.mem := by
  simp only [copyComplete]; repeat' split
  all_goals simp

/-! ### Tiles -/

@[simp] theorem setTile_mem (s : State) (k : Nat) (f : TileRegs → TileRegs) : (setTile s k f).mem = s.mem := rfl

@[simp] theorem giFault_mem (s : State) (ps : List Participant) (t : TrapReport) : (giFault s ps t).mem = s.mem :=
  foldl_mem (by simp) ..

@[simp] theorem giPerform_mem (s : State) (ps : List Participant) (source : Nat) :
    (giPerform s ps source).mem = s.mem := by
  simp only [giPerform]; split
  · rfl
  · split
    · simp
    · exact foldl_mem (by simp) ..

theorem tileConfig_mem {fn : Nat} {x : Entry} {f : FmtT} {s t : State} (h : tileConfig fn x f s = .done t) :
    t.mem = s.mem := by
  unfold tileConfig at h
  grind [setTile_mem]

theorem tileLoad_mem {x : Entry} {f : FmtT} {ps : List (List Piece)} {seg : BitVec 16} {s t : State}
    (h : tileLoad x f ps seg s = .done t) : t.mem = s.mem := by
  grind [tileLoad, setTile_mem]

theorem tileStore_mem {x : Entry} {f : FmtT} {ps : List (List Piece)} {stride : Nat} {seg : BitVec 16} {s t : State}
    (h : tileStore x f ps stride seg s = .done t) : t.mem = s.mem := by
  simp only [tileStore] at h
  repeat' split at h
  all_goals cases h
  exact foldl_mem (by simp) ..

theorem tileMem_mem {fn : Nat} {x : Entry} {f : FmtT} {g : List Word} {s t : State}
    (h : tileMem fn x f g s = .done t) : t.mem = s.mem := by
  grind [tileMem, tileLoad_mem, tileStore_mem]

theorem tileMul_mem {fn : Nat} {x : Entry} {f : FmtT} {g : List Word} {s t : State}
    (h : tileMul fn x f g s = .done t) : t.mem = s.mem := by
  simp only [tileMul] at h
  repeat' split at h
  all_goals cases h
  rfl

theorem tileAcc_mem {fn : Nat} {x : Entry} {f : FmtT} {g : List Word} {s t : State}
    (h : tileAcc fn x f g s = .done t) : t.mem = s.mem := by
  grind [tileAcc, setTile_mem, State.modCtx_mem]

theorem giJoint_mem {x : Entry} {f : FmtT} {s t : State} (h : giJoint x f s = .done t) : t.mem = s.mem := by
  grind [giJoint, giFault_mem, giPerform_mem]

theorem startForm_mem {x : Entry} {s t : State} (h : startForm x s = .done t) : t.mem = s.mem := by
  unfold startForm at h
  split at h
  · split at h
    · exact tileConfig_mem h
    · exact tileMem_mem h
    · exact tileMul_mem h
    · exact tileAcc_mem h
    · exact giJoint_mem h
  · cases h; rfl

@[simp] theorem matrixStart_mem (s : State) : (matrixStart s).mem = s.mem := by
  unfold matrixStart; split
  · rfl
  · split
    · rfl
    · split
      · split
        · rfl
        · rfl
        · next h =>
          have hm := startForm_mem h
          simp only
          split <;> split at hm <;> simpa using hm
      · rfl

@[simp] theorem matrixComplete_mem (s : State) : (matrixComplete s).mem = s.mem := by
  simp only [matrixComplete]; repeat' split
  all_goals simp

/-! ### Contexts -/

@[simp] theorem modTsw_mem (s : State) (core : Nat) (f : Word → Word) : (modTsw s core f).mem = s.mem := by simp [modTsw]

@[simp] theorem detachFollowers_mem (s : State) (core : Nat) : (detachFollowers s core).mem = s.mem := by simp [detachFollowers]

@[simp] theorem leaveLed_mem (s : State) (core : Nat) (c : Ctx) : (leaveLed s core c).mem = s.mem := by
  unfold leaveLed; split <;> simp

@[simp] theorem leaveSet_mem (s : State) (core : Nat) : (leaveSet s core).mem = s.mem := by
  simp only [leaveSet]; split <;> simp

@[simp] theorem standDown_mem (s : State) (core : Nat) : (standDown s core).mem = s.mem := by simp [standDown]

@[simp] theorem nextResident_mem (s : State) (core : Nat) : (nextResident s core).mem = s.mem := by
  simp only [nextResident]; repeat' split
  all_goals simp

@[simp] theorem settleStops_mem (s : State) (core : Nat) : (settleStops s core).mem = s.mem := by
  simp only [settleStops]; split <;> simp

@[simp] theorem rotate_mem (s : State) (core : Nat) : (rotate s core).mem = s.mem := by simp [rotate]

@[simp] theorem endMismatched_mem (s : State) (n : Nat) (r : Round) : (endMismatched s n r).mem = s.mem := by
  unfold endMismatched; split
  · rfl
  · exact (foldl_mem (by simp) ..).trans (by simp)

@[simp] theorem dropThread_mem (s : State) (tid : Nat) : (dropThread s tid).mem = s.mem := rfl

@[simp] theorem releaseOwned_mem (s : State) (core : Nat) (c : Ctx) : (releaseOwned s core c).mem = s.mem :=
  foldl_mem (by simp) ..

@[simp] theorem modGang_mem (s : State) (cube id : Nat) (f : Gang → Gang) : (modGang s cube id f).mem = s.mem := rfl

@[simp] theorem expel_mem (s : State) (cube n tid : Nat) : (expel s cube n tid).mem = s.mem := by
  unfold expel; split
  · rfl
  · exact (removeMember_mem ..).trans (foldl_mem (by simp) ..)

@[simp] theorem abortThread_mem (s : State) (core tid : Nat) : (abortThread s core tid).mem = s.mem := by simp [abortThread]

/-! ### Synchronisation -/

@[simp] theorem State.setWait_mem (s : State) (w : WaitState) : (s.setWait w).mem = s.mem := by
  unfold State.setWait; split <;> rfl

@[simp] theorem State.past_mem (s : State) (words stall : Nat) : (s.past words stall).mem = s.mem := by simp [State.past]

@[simp] theorem setAp_mem (b : Bool) (s : State) : (setAp b s).mem = s.mem := rfl

@[simp] theorem settleMarkers_mem (s : State) (tid : Nat) : (settleMarkers s tid).mem = s.mem := rfl

/-! ### Queues -/

/-! ### Fetch -/

@[simp] theorem holdWord_mem (s : State) (g : Nat) (w : Word32) : (holdWord s g w).mem = s.mem := by
  unfold holdWord; split <;> rfl

/-! ### Control -/

@[simp] theorem rejoinFollower_mem (pc : Word) (s : State) (core : Nat) : (rejoinFollower pc s core).mem = s.mem := by simp [rejoinFollower]

@[simp] theorem writeSpecial_mem (s : State) (n stall : Nat) (x : Word) : (writeSpecial s n stall x).mem = s.mem := by
  simp only [writeSpecial]; repeat' split
  all_goals simp

@[simp] theorem depart_mem (s : State) (h words : Nat) : (depart s h words).mem = s.mem := by simp [depart]

/-! ### Decided cells -/

@[simp] theorem onceInstall_mem (s : State) (a image : Nat) : (onceInstall s a image).mem = s.mem := by
  unfold onceInstall; split <;> rfl

@[simp] theorem onceDrop_mem (s : State) (a : Nat) : (onceDrop s a).mem = s.mem := rfl

/-! ### Flues -/

@[simp] theorem State.modFlue_mem (s : State) (cube f : Nat) (g : Flue → Flue) : (s.modFlue cube f g).mem = s.mem := rfl

@[simp] theorem loadImage_mem (s : State) (cube owner : Nat) (img : List (BitVec 64)) (set : List Nat) :
    (loadImage s cube owner img set).mem = s.mem :=
  foldl_mem (by simp) ..

@[simp] theorem settleStart_mem (s : State) (cube : Nat) (b : Option Nat × Nat) :
    (settleStart s cube b).mem = s.mem := by
  have hf (l : List Nat) (g : Flue → Flue) : (l.foldl (fun t f => t.modFlue cube f g) s).mem = s.mem := foldl_mem (by simp) ..
  simp only [settleStart]; repeat' split
  all_goals simp [hf]

@[simp] theorem endFlue_mem (s : State) (cube f : Nat) (st : FlueStatus) (code : BitVec 16) (where_ : Option StreamUnit) :
    (endFlue s cube f st code where_).mem = s.mem := by
  simp only [endFlue]; split <;> simp

@[simp] theorem stopFlues_mem (s : State) (cube : Nat) (l : List Nat) : (stopFlues s cube l).mem = s.mem :=
  foldl_mem (fun t f => by split <;> simp) ..

@[simp] theorem kernelFault_mem (s : State) (cube f : Nat) (code : BitVec 16) (u : StreamUnit) :
    (kernelFault s cube f code u).mem = s.mem := by
  unfold kernelFault; split <;> simp

@[simp] theorem cellFire_mem (s : State) (cube f k : Nat) : (cellFire s cube f k).mem = s.mem := by
  simp only [cellFire]; repeat' split
  all_goals simp

@[simp] theorem readRecord_mem (s : State) (core addr : Nat) : (readRecord s core addr).mem = s.mem := by
  unfold readRecord; split
  · split <;> simp
  · simp

@[simp] theorem kernelFinish_mem (s : State) (cube f : Nat) : (kernelFinish s cube f).mem = s.mem := by
  simp only [kernelFinish]; repeat' split
  all_goals simp

@[simp] theorem freezeFlue_mem (s : State) (cube f : Nat) (b : Bool) : (freezeFlue s cube f b).mem = s.mem := rfl

/-! ### Tasks -/

@[simp] theorem State.setGraph_mem (s : State) (cube : Nat) (g : GraphSlot) : (s.setGraph cube g).mem = s.mem := rfl

@[simp] theorem State.freeGraph_mem (s : State) (cube slot : Nat) : (s.freeGraph cube slot).mem = s.mem := rfl

@[simp] theorem reserve_mem (s : State) (cube slot header : Nat) (ranges : List (Nat × Nat)) (p : BitVec 1024) :
    (reserve s cube slot header ranges p).mem = s.mem := by
  unfold reserve; split <;> rfl

@[simp] theorem notifyRefusal_mem (s : State) (cube : Nat) (p : BitVec 1024) (code : BitVec 16) :
    (notifyRefusal s cube p code).mem = s.mem := by
  unfold notifyRefusal; split <;> simp

theorem rankPacket_mem (s : State) (cube : Nat) (p : BitVec 1024) : (rankPacket s cube p).2.mem = s.mem := by
  simp only [rankPacket]; split <;> simp

@[simp] theorem rankIn_mem (s : State) (cube : Nat) (e : PifoEntry) (f : Option Flight) :
    (rankIn s cube e f).mem = s.mem := by
  simp [rankIn, rankPacket_mem]

@[simp] theorem enqueueIn_mem (s : State) (cube : Nat) (e : PifoEntry) : (enqueueIn s cube e).mem = s.mem := by
  simp only [enqueueIn]; split <;> simp

@[simp] theorem refill_mem (s : State) (cube : Nat) : (refill s cube).mem = s.mem := by
  unfold refill; split <;> [rfl; split] <;> simp

@[simp] theorem enqueueNode_mem (s : State) (cube slot : Nat) (p : BitVec 1024) (prio k : Nat) :
    (enqueueNode s cube slot p prio k).mem = s.mem := by
  unfold enqueueNode; split <;> simp

@[simp] theorem withdrawNodes_mem (s : State) (cube slot : Nat) : (withdrawNodes s cube slot).mem = s.mem := by
  simp only [withdrawNodes]; split <;> simp

@[simp] theorem abortLaunch_mem (s : State) (cube slot : Nat) (status : BitVec 16) (k : Nat) :
    (abortLaunch s cube slot status k).mem = s.mem := by
  unfold abortLaunch; split <;> simp

@[simp] theorem notifyLaunch_mem (s : State) (cube : Nat) (g : GraphSlot) : (notifyLaunch s cube g).mem = s.mem := by
  simp only [notifyLaunch]; split <;> simp

@[simp] theorem readNode_mem (s : State) (cube slot k addr : Nat) : (readNode s cube slot k addr).mem = s.mem := by
  simp only [readNode]; split <;> simp

@[simp] theorem launchMember_mem (scope : Nat) (p : BitVec 1024) (asid : BitVec 24) (gang : Nat) (s : State) (m : Nat × Nat × Nat) :
    (launchMember scope p asid gang s m).mem = s.mem := by simp [launchMember]

@[simp] theorem multicastImage_mem (s : State) (cube h0 rows : Nat) (p : BitVec 1024) (asid : BitVec 24) :
    (multicastImage s cube h0 rows p asid).mem = s.mem := by
  unfold multicastImage; split <;> rfl

/-! ### Refinement -/

@[simp] theorem modRun_mem (s : State) (r : Run) (f : Run → Run) : (modRun s r f).mem = s.mem := rfl

@[simp] theorem stopRun_mem (s : State) (r : Run) (e : Nat) : (stopRun s r e).mem = s.mem := rfl

@[simp] theorem unregister_mem (s : State) (r : Run) : (unregister s r).mem = s.mem := by
  unfold unregister; split <;> rfl

@[simp] theorem endRun_mem (s : State) (r : Run) (e : Nat) : (endRun s r e).mem = s.mem := by
  unfold endRun; split <;> simp

@[simp] theorem loseMember_mem (s : State) (r : Run) (core : Nat) (spare : Option Nat) :
    (loseMember s r core spare).mem = s.mem := by
  unfold loseMember; split <;> [rfl; split] <;> simp

/-! ### Events of the network -/

@[simp] theorem answerPosted_mem (s : State) (cube k : Nat) (w : BitVec 64) (status : Nat) :
    (answerPosted s cube k w status).mem = s.mem := rfl

@[simp] theorem answerCommand_mem (s : State) (cube k code : Nat) (status : Nat) :
    (answerCommand s cube k code status).mem = s.mem := by
  unfold answerCommand; split
  · split <;> simp
  · simp

@[simp] theorem State.landRequest_mem (s : State) (f : Flight) : (s.landRequest f).mem = s.mem := by simp [State.landRequest]

@[simp] theorem State.dropReply_mem (s : State) (num : Nat) : (s.dropReply num).mem = s.mem := rfl

@[simp] theorem State.consume_mem (s : State) (num : Nat) : (s.consume num).mem = s.mem := by simp [State.consume]

@[simp] theorem focusSource_mem (s : State) (f : Flight) : (focusSource s f).mem = s.mem := by
  unfold focusSource; split <;> simp

@[simp] theorem State.performed_mem (s : State) (f : Flight) (b : Body) : (s.performed f b).mem = s.mem := rfl

@[simp] theorem refuse_mem (s : State) (f : Flight) (code : Option (BitVec 16)) : (refuse_ s f code).mem = s.mem := rfl

@[simp] theorem refuseRoom_mem (s : State) (f : Flight) : (refuseRoom s f).mem = s.mem := rfl

@[simp] theorem logError_mem (s : State) (cube code sev where_ : Nat) :
    (logError s cube code sev where_).mem = s.mem := rfl

@[simp] theorem loadFault_mem (s : State) (core tid req : Nat) (t : TrapReport) :
    (loadFault s core tid req t).mem = s.mem := by
  simp only [loadFault]; split <;> simp

@[simp] theorem dataArrives_mem (s : State) (at_ tid : Nat) (bs : List Byte) (d : LoadDest) (req : Nat) (err : Option TrapReport) :
    (dataArrives s at_ tid bs d req err).mem = s.mem := by
  simp only [dataArrives]; repeat' split
  all_goals simp

@[simp] theorem answered_mem (s : State) (tid num : Nat) (a : OnceAnswer) : (answered s tid num a).mem = s.mem := rfl

@[simp] theorem acknowledged_mem (s : State) (tid n : Nat) (refused : Option Word) :
    (acknowledged s tid n refused).mem = s.mem := rfl

@[simp] theorem slotDone_mem (s : State) (cube slot : Nat) (code : BitVec 16) :
    (slotDone s cube slot code).mem = s.mem := rfl

@[simp] theorem packetAnswered_mem (s : State) (f : Flight) (r : Nat ⊕ BitVec 16) :
    (packetAnswered s f r).mem = s.mem := by
  simp only [packetAnswered]; repeat' split
  all_goals simp

@[simp] theorem storeFailed_mem (s : State) (f : Flight) : (storeFailed s f).mem = s.mem := rfl

@[simp] theorem copyRefused_mem (s : State) (core id p : Nat) (k : AccessKind) (code : TrapCode) :
    (copyRefused s core id p k code).mem = s.mem := by
  unfold copyRefused; split <;> simp

@[simp] theorem roundLost_mem (s : State) (n id : Nat) : (roundLost s n id).mem = s.mem := by
  unfold roundLost; split <;> simp

@[simp] theorem failRequest_mem (s : State) (f : Flight) (code : TrapCode) : (failRequest s f code).mem = s.mem := by
  have hm (t : State) (l : List Nat) (core id p d : Nat) :
      (l.foldl (fun t m => copyWritten t core id p (spadAddr m d) (some code)) t).mem = t.mem := foldl_mem (by simp) ..
  simp only [failRequest]; repeat' split
  all_goals simp [hm]

@[simp] theorem modLink_mem (s : State) (c dir : Nat) (f : Link → Link) : (modLink s c dir f).mem = s.mem := rfl

@[simp] theorem discardPacket_mem (s : State) (num : Nat) : (discardPacket s num).mem = s.mem := by
  unfold discardPacket; split <;> [rfl; split] <;> simp

@[simp] theorem openLink_mem (s : State) (cube link : Nat) : (openLink s cube link).mem = s.mem := rfl

@[simp] theorem closeLink_mem (s : State) (cube link : Nat) : (closeLink s cube link).mem = s.mem := rfl

@[simp] theorem reportLink_mem (s : State) (cube link : Nat) : (reportLink s cube link).mem = s.mem := rfl

@[simp] theorem linkDown_mem (s : State) (cube link : Nat) : (linkDown s cube link).mem = s.mem :=
  (foldl_mem (by simp) ..).trans (by simp)

@[simp] theorem hop_mem (s : State) (i dir : Nat) (f : Flight) : (hop s i dir f).mem = s.mem := by
  unfold hop; split <;> rfl

@[simp] theorem poisonAtom_mem (s : State) (a : Nat) : (poisonAtom s a).mem = s.mem := by
  simp only [poisonAtom]; split <;> simp

@[simp] theorem disownOnce_mem (s : State) (cube atom core id : Nat) : (disownOnce s cube atom core id).mem = s.mem := rfl

@[simp] theorem sendAgain_mem (s : State) (num : Nat) : (sendAgain s num).mem = s.mem := rfl

@[simp] theorem endRound_mem (s : State) (n : Nat) (r : Round) (p : Partial) : (endRound s n r p).mem = s.mem := by
  simp only [endRound]; repeat' split
  all_goals simp

@[simp] theorem setRound_mem (s : State) (n : Nat) (r : Round) : (setRound s n r).mem = s.mem := by
  unfold setRound; split <;> rfl

@[simp] theorem routerFolds_mem (s : State) (n : Nat) (g : Group) (r : Round) (cube : Nat) :
    (routerFolds s n g r cube).mem = s.mem := by
  simp only [routerFolds]; repeat' split
  all_goals simp

@[simp] theorem acceptPartial_mem (s : State) (cube n id : Nat) (p : Partial) :
    (acceptPartial s cube n id p).mem = s.mem := by
  unfold acceptPartial; split <;> [rfl; split] <;> simp

@[simp] theorem acceptOwn_mem (s : State) (cube n : Nat) (c : Contribution) : (acceptOwn s cube n c).mem = s.mem := by
  simp only [acceptOwn]; repeat' split
  all_goals simp

@[simp] theorem expelCube_mem (s : State) (cube : Nat) : (expelCube s cube).mem = s.mem :=
  foldl_mem (by simp) ..

@[simp] theorem loseCube_mem (s : State) (by_ cube : Nat) : (loseCube s by_ cube).mem = s.mem := by
  unfold loseCube; split
  · rfl
  · exact (logError_mem ..).trans ((expelCube_mem ..).trans (foldl_mem (by simp) ..))

@[simp] theorem giveUpOn_mem (s : State) (f : Flight) : (giveUpOn s f).mem = s.mem := by
  simp only [giveUpOn]; split <;> simp

@[simp] theorem State.modIngress_mem (s : State) (cube ord : Nat) (g : Flight → Option Flight) :
    (s.modIngress cube ord g).mem = s.mem := rfl

@[simp] theorem strayPacket_mem (s : State) (src dst : Nat) (kind : BitVec 8) :
    (strayPacket s src dst kind).mem = s.mem := by
  unfold strayPacket; split <;> rfl

@[simp] theorem damagePacket_mem (s : State) (num : Nat) : (damagePacket s num).mem = s.mem := rfl

@[simp] theorem defacePacket_mem (s : State) (num : Nat) (ver : BitVec 8) (rsv : BitVec 320) :
    (defacePacket s num ver rsv).mem = s.mem := rfl

@[simp] theorem setMap_mem (s : State) (cube : Nat) (m : InterleaveMap) : (setMap s cube m).mem = s.mem := rfl

@[simp] theorem acknowledgeInstall_mem (s : State) (cube : Nat) : (acknowledgeInstall s cube).mem = s.mem := rfl

@[simp] theorem ownMoved_mem (s : State) (r : Removal) : (ownMoved s r).mem = s.mem :=
  foldl_mem (by simp) ..

@[simp] theorem endRemoval_mem (s : State) (r : Removal) : (endRemoval s r).mem = s.mem := by
  simp [endRemoval]

/-! ### Events of a core -/

@[simp] theorem grantTurn_mem (s : State) (core : Nat) : (grantTurn s core).mem = s.mem := rfl

@[simp] theorem grantFetch_mem (s : State) (core : Nat) (pc : Word) : (grantFetch s core pc).mem = s.mem := by simp [grantFetch]

@[simp] theorem awaitFetch_mem (s : State) (core : Nat) : (awaitFetch s core).mem = s.mem := by
  unfold awaitFetch; split <;> simp

@[simp] theorem saveContext_mem (s : State) (core : Nat) (report : Option TrapReport) (handled : Bool) :
    (saveContext s core report handled).mem = s.mem := by
  unfold saveContext; split <;> simp

@[simp] theorem deliverBusy_mem (s : State) : (deliverBusy s).mem = s.mem := by
  unfold deliverBusy; split <;> rfl

@[simp] theorem modSaved_mem (s : State) (cube tid : Nat) (f : SavedCtx → SavedCtx) :
    (modSaved s cube tid f).mem = s.mem := rfl

@[simp] theorem moveMember_mem (s : State) (tid core : Nat) : (moveMember s tid core).mem = s.mem := rfl

@[simp] theorem acquireOn_mem (s : State) (core : Nat) : (acquireOn s core).mem = s.mem := by simp [acquireOn]

@[simp] theorem returnContext_mem (s : State) (cube tid core : Nat) : (returnContext s cube tid core).mem = s.mem := by
  simp only [returnContext]; repeat' split
  all_goals simp

@[simp] theorem holdFrame_mem (s : State) (cube : Nat) (id : BitVec 16) (k tid : Nat) :
    (holdFrame s cube id k tid).mem = s.mem := rfl

@[simp] theorem cacheEntry_mem (s : State) (seg : BitVec 16) (off : Nat) (pte : BitVec 64) (size : Nat) :
    (cacheEntry s seg off pte size).mem = s.mem := rfl

@[simp] theorem moveMap_mem (from_ dest : Nat) (s : State) (m : RangeMap) : (moveMap from_ dest s m).mem = s.mem := rfl

@[simp] theorem renameThread_mem (s : State) (old new core : Nat) : (renameThread s old new core).mem = s.mem := rfl

@[simp] theorem detachStray_mem (s : State) (m : Nat × Nat × Nat) : (detachStray s m).mem = s.mem := by
  simp only [detachStray]; split <;> simp

@[simp] theorem stopMembers_mem (s : State) (g : Gang) : (stopMembers s g).mem = s.mem :=
  foldl_mem (fun t m => by repeat' split
                           all_goals simp) ..

@[simp] theorem loseCopies_mem (s : State) (core : Nat) : (loseCopies s core).mem = s.mem :=
  (foldl_mem (by simp) ..).trans ((State.modCore_mem ..).trans (foldl_mem (by simp) ..))

@[simp] theorem loseRunCore_mem (s : State) (core : Nat) : (loseRunCore s core).mem = s.mem := by
  simp only [loseRunCore]; repeat' split
  all_goals simp

@[simp] theorem rescueQueued_mem (s : State) (core : Nat) : (rescueQueued s core).mem = s.mem := by simp [rescueQueued]

@[simp] theorem preempt_mem (s : State) (cube gang : Nat) : (preempt s cube gang).mem = s.mem := by
  unfold preempt; split
  · rfl
  · refine (modGang_mem ..).trans (foldl_mem (fun t m => ?_) ..)
    repeat' split
    all_goals simp

@[simp] theorem stopForError_mem (s : State) (core : Nat) : (stopForError s core).mem = s.mem := by
  simp only [stopForError]; split <;> simp

@[simp] theorem endStop_mem (s : State) (core : Nat) (f : Ctx → Ctx) : (endStop s core f).mem = s.mem := by simp [endStop]

theorem validate_mem {s t : State} {cube n : Nat} {ig : BitVec 1024} {p : BitVec 1024}
    (h : validate s cube ig p = .ok (t, n)) : t.mem = s.mem := by
  grind [validate, reserve_mem]

/-! ### Events of a cube -/

@[simp] theorem receivePacket_mem (s : State) (f : Flight) (p : BitVec 1024) (valid : Bool) :
    (receivePacket s f p valid).mem = s.mem := by
  simp only [receivePacket]; repeat' split
  case h_2 h => simp [validate_mem h]
  all_goals simp

@[simp] theorem doneReading_mem (s : State) (cube : Nat) (e : PifoEntry) : (doneReading s cube e).mem = s.mem := by
  unfold doneReading; split <;> simp

@[simp] theorem noticeHead_mem (s : State) (cube : Nat) (e : PifoEntry) : (noticeHead s cube e).mem = s.mem := by
  unfold noticeHead; split <;> rfl

@[simp] theorem dropWords_mem (s : State) (cube : Nat) : (dropWords s cube).mem = s.mem := rfl

@[simp] theorem dropStation_mem (s : State) (k : Nat) : (dropStation s k).mem = s.mem := rfl

@[simp] theorem flushStation_mem (s : State) (cube k : Nat) : (flushStation s cube k).mem = s.mem := by
  simp only [flushStation]; repeat' split
  all_goals simp

@[simp] theorem writeGeneration_mem (s : State) (cube k : Nat) : (writeGeneration s cube k).mem = s.mem := by
  simp only [writeGeneration]; repeat' split
  all_goals simp

@[simp] theorem retire_mem (s : State) (cube flue : Nat) : (retire s cube flue).mem = s.mem := by
  simp only [retire]; split <;> simp

@[simp] theorem beginRetire_mem (s : State) (cube flue : Nat) : (beginRetire s cube flue).mem = s.mem := rfl

@[simp] theorem endRetire_mem (s : State) (cube flue : Nat) : (endRetire s cube flue).mem = s.mem := by simp [endRetire]

@[simp] theorem hostRefused_mem (s : State) (cube l : Nat) : (hostRefused s cube l).mem = s.mem := rfl

@[simp] theorem hostPoisoned_mem (s : State) (cube l : Nat) : (hostPoisoned s cube l).mem = s.mem := rfl

@[simp] theorem hostRead_mem (s : State) (cube a n : Nat) : (hostRead s cube a n).mem = s.mem := by
  simp only [hostRead]; split <;> simp

@[simp] theorem dropHosted_mem (s : State) (cube atom : Nat) : (dropHosted s cube atom).mem = s.mem := rfl

@[simp] theorem setSlotStat_mem (s : State) (cube k : Nat) (v : BitVec 18) : (setSlotStat s cube k v).mem = s.mem := rfl

@[simp] theorem submitSlot_mem (s : State) (cube k : Nat) : (submitSlot s cube k).mem = s.mem := by
  simp only [submitSlot]; repeat' split
  all_goals simp

@[simp] theorem ringDoor_mem (s : State) (cube k : Nat) : (ringDoor s cube k).mem = s.mem := by
  simp only [ringDoor]; repeat' split
  all_goals simp

@[simp] theorem resetCores_mem (s : State) (cube : Nat) : (resetCores s cube).mem = s.mem := rfl

@[simp] theorem releaseStove_mem (s : State) (cube : Nat) (b : BootFlash) (ok : List Nat) :
    (releaseStove s cube b ok).mem = s.mem := rfl

@[simp] theorem bootMemory_mem (s : State) (cube : Nat) (b : BootFlash) : (bootMemory s cube b).mem = s.mem := rfl

@[simp] theorem bootSpares_mem (s : State) (cube : Nat) (b : BootFlash) : (bootSpares s cube b).mem = s.mem :=
  (foldl_mem (fun t f => by split <;> simp) ..).trans (foldl_mem (fun t k => by split <;> simp) ..)

@[simp] theorem closeLinks_mem (s : State) (cube : Nat) : (closeLinks s cube).mem = s.mem :=
  foldl_mem (fun t d => by dsimp only; split <;> simp) ..

@[simp] theorem bootLinks_mem (s : State) (cube : Nat) (b : BootFlash) : (bootLinks s cube b).mem = s.mem := by
  refine (foldl_mem (fun t d => ?_) ..).trans (by simp)
  repeat' split
  · simp
  · rfl
  · exact foldl_mem (by simp) ..

@[simp] theorem bootHost_mem (s : State) (cube : Nat) (b : BootFlash) (ok : List Nat) :
    (bootHost s cube b ok).mem = s.mem := rfl

/-! ### Turns -/

@[simp] theorem followerStep_mem (b t : State) : (followerStep b t).mem = t.mem := by
  unfold followerStep; split <;> [rfl; split] <;> simp

@[simp] theorem leaderStep_mem (b t : State) (ws : List Word32) : (leaderStep b t ws).mem = t.mem := by simp [leaderStep]

@[simp] theorem stepStop_mem (b t : State) : (stepStop b t).mem = t.mem := by
  unfold stepStop; split <;> [rfl; split] <;> simp

@[simp] theorem leaderWaits_mem (b t : State) (ws : List Word32) : (leaderWaits b t ws).mem = t.mem := by
  simp only [leaderWaits]; split <;> simp

@[simp] theorem settleUndo_mem (b t : State) (ws : List Word32) : (settleUndo b t ws).mem = t.mem := by
  simp only [settleUndo]; split <;> simp

@[simp] theorem afterMain_mem (b : State) (ws : List Word32) (t : State) : (afterMain b ws t).mem = t.mem := by
  simp only [afterMain]; repeat' split
  all_goals simp

@[simp] theorem unhold_mem (s : State) : (unhold s).mem = s.mem := by
  unfold unhold; split
  · split <;> simp
  · simp

@[simp] theorem turnOf_mem (core : Nat) (e : Sequencer) (later l1 : Bool) (s : State) :
    (turnOf core e later l1 s).mem = s.mem := by simp [turnOf]

theorem cubeEvent_mem {cube : Nat} {f : State → State} {s t : State} (hf : ∀ u, (f u).mem = u.mem)
    (h : cubeEvent cube f s = .next t) : t.mem = s.mem := by
  unfold cubeEvent at h
  repeat' split at h
  all_goals cases h
  · rfl
  · rw [hf, State.focus_mem]

@[simp] theorem tickAll_mem (s : State) : (tickAll s).mem = s.mem := by
  refine foldl_mem (fun t c => ?_) ..
  split
  · next h => exact cubeEvent_mem (fun u => by rfl) h
  · rfl

end Sys2Proof.Machine
end

