-- ==== Sys2Proof/Proofs/Canonical.lean ====
section
/-! SUPPORT. The canonical form of memory (log entry 1) as a property of meanings and outcomes: how a meaning ends and where an
outcome lands. -/

namespace Sys2Proof.Safety

open Sys2Proof.Machine

/-- A state with the memory of one in canonical form is in canonical form. -/
theorem Canonical.of_mem {s t : State} (h : Canonical s) (e : t.mem = s.mem) : Canonical t := by
  rw [Canonical, e]; exact h

theorem Canonical.ite {c : Prop} [Decidable c] {s t : State} (hs : Canonical s) (ht : Canonical t) :
    Canonical (if c then s else t) := by
  split
  · exact hs
  · exact ht

end Sys2Proof.Safety

namespace Sys2Proof.Machine

open Sys2Proof Sys2Proof.Safety

/-- The state in which a stop is taken. -/
def Stop.state : Stop → State
  | .trap _ s => s
  | .wait s => s

@[simp] theorem Stop.wait_state (s : State) : (Stop.wait s).state = s := rfl

/-- A value of which nothing is asked: it holds no state. -/
def Anything {α : Type} (_ : α) : Prop := True

/-- A meaning ends well: the state of a stop is in canonical form, and a value is as asked. -/
def Ends {α : Type} (Q : α → Prop) : Except Stop α → Prop
  | .ok x => Q x
  | .error e => Canonical e.state

/-- An outcome lands well: the next state, where there is one, is in canonical form. -/
def Lands : Host.Outcome State Fault Refusal → Prop
  | .next t => Canonical t
  | _ => True

section Sequence

variable {α β : Type} {Q : α → Prop} {R : β → Prop}

theorem Ends.bind {x : Except Stop α} {f : α → Except Stop β} (hx : Ends Q x) (hf : ∀ a, Q a → Ends R (f a)) :
    Ends R (x >>= f) := by
  cases x with
  | ok a => exact hf a hx
  | error e => exact hx

theorem trapAt_ends {s : State} (h : Canonical s) (c : TrapCode) (a : Word) : Ends Q (trapAt s c a) := h

theorem trapHere_ends {s : State} (h : Canonical s) (c : TrapCode) : Ends Q (trapHere s c) := h

theorem stall_ends {s : State} (h : Canonical s) : Ends Q (stall s) := h

theorem trapAccess_ends {s : State} (h : Canonical s) (c : TrapCode) (a : Word) (k : AccessKind) (seg : BitVec 16) :
    Ends Q (trapAccess s c a k seg) := h

end Sequence

theorem Ends.ite {α : Type} {Q : α → Prop} {c : Prop} [Decidable c] {x y : Except Stop α} (hx : Ends Q x)
    (hy : Ends Q y) : Ends Q (if c then x else y) := by
  split
  · exact hx
  · exact hy

theorem Ends.join {α β : Type} {Q : α → Prop} {R : β → Prop} {c : Prop} [Decidable c] {x y : Except Stop α}
    {k : α → Except Stop β} (hx : Ends Q x) (hy : Ends Q y) (hk : ∀ a, Q a → Ends R (k a)) :
    Ends R (if c then x >>= k else y >>= k) := by
  split
  · exact hx.bind hk
  · exact hy.bind hk

theorem Ends.map {α β : Type} {Q : α → Prop} {x : Except Stop α} (hx : Ends Q x) (f : α → β) :
    Ends Anything (x.map f) := by
  cases x with
  | ok a => trivial
  | error e => exact hx

theorem finish_lands {r : Except Stop State} (h : Ends Canonical r) : Lands (finish r) := by
  match r, h with
  | .ok t, h => exact h
  | .error (.trap t s), h => exact Canonical.of_mem (s := s) h (by simp)
  | .error (.wait s), h => exact h

theorem issue_lands {s : State} {body : State → Except Stop State} (words stall : Nat) (h : Ends Canonical (body s)) :
    Lands (issue words stall body s) := by
  refine finish_lands ?_
  match body s, h with
  | .ok t, h => exact Canonical.of_mem (s := t) h (by simp)
  | .error e, h => exact h

theorem issueTo_lands {s : State} {body : State → Except Stop (State × Word)} (stall : Nat)
    (h : Ends (fun x => Canonical x.1) (body s)) : Lands (issueTo stall body s) := by
  refine finish_lands ?_
  match body s, h with
  | .ok (t, pc), h => exact Canonical.of_mem (s := t) h (by simp)
  | .error e, h => exact h

theorem store_canonical {s : State} (h : Canonical s) (a : Nat) (bs : List Byte) : Canonical (s.store a bs) :=
  State.store_wf s a bs h

end Sys2Proof.Machine
end

