-- ==== Sys2Proof/Proofs/CanonicalKept.lean ====
section
/-! SUPPORT. Each operation of the machine keeps the canonical form of memory, in the order of the model. -/

namespace Sys2Proof.Machine

open Sys2Proof Sys2Proof.Safety

theorem foldl_canonical {α : Type} {f : State → α → State} {s : State} (h : Canonical s)
    (hf : ∀ t x, Canonical t → Canonical (f t x)) (l : List α) : Canonical (l.foldl f s) := by
  induction l generalizing s with
  | nil => exact h
  | cons x l ih => exact ih (hf s x h)

/-! ### The state -/

theorem needPriv_ends {s : State} (h : Canonical s) : Ends Anything (needPriv s) := by
  unfold needPriv
  split
  · trivial
  · exact trapHere_ends h ..

theorem addUnacked_ends {s : State} (h : Canonical s) (n : Nat) : Ends Canonical (addUnacked s n) := by
  unfold addUnacked
  split
  · exact stall_ends h ..
  · trivial

/-! ### Operands and results -/

theorem readPlace_ends {s : State} (h : Canonical s) {α : Type} (x : Loc) (value open_ : α) :
    Ends Anything (readPlace s x value open_) := by
  unfold readPlace
  split
  · split
    · trivial
    · split
      · exact trapHere_ends h ..
      · trivial
  · trivial

theorem interlock_ends {s : State} (h : Canonical s) (dst : Option Nat) (age : Option Nat) :
    Ends Anything (interlock s dst age) := by
  unfold interlock
  split
  · exact stall_ends h ..
  · trivial

theorem interlockV_ends {s : State} (h : Canonical s) (reg : Option Nat) (age : Option Nat) :
    Ends Anything (interlockV s reg age) := by
  unfold interlockV
  split
  · exact stall_ends h ..
  · trivial

theorem readScalar_ends {s : State} (h : Canonical s) (pos : Nat) (f : BitVec 6) : Ends Anything (readScalar s pos f) := by
  unfold readScalar
  dsimp only
  split
  · refine (interlock_ends h ..).bind fun _ _ => ?_
    exact readPlace_ends h ..
  · split
    · refine (interlock_ends h ..).bind fun _ _ => ?_
      exact readPlace_ends h ..
    · split
      · trivial
      · trivial
      · trivial
      · trivial
      · trivial
      · trivial
      · trivial
      · trivial
      · exact trapHere_ends h ..

theorem readVector_ends {s : State} (h : Canonical s) (pos : Nat) (f : BitVec 6) : Ends Anything (readVector s pos f) := by
  unfold readVector
  dsimp only
  split
  · refine (interlockV_ends h ..).bind fun _ _ => ?_
    exact readPlace_ends h ..
  · split
    · refine (interlockV_ends h ..).bind fun _ _ => ?_
      exact readPlace_ends h ..
    · split
      · trivial
      · trivial
      · trivial
      · trivial
      · trivial
      · trivial
      · trivial
      · trivial
      · exact trapHere_ends h ..

theorem readMask_ends {s : State} (h : Canonical s) (pos : Nat) (f : BitVec 6) : Ends Anything (readMask s pos f) := by
  unfold readMask
  dsimp only
  split
  · exact readPlace_ends h ..
  · split
    · trivial
    · trivial
    · exact trapHere_ends h ..

theorem readA1_ends {s : State} (h : Canonical s) (pos : Nat) : Ends Anything (readA1 s pos) := by
  unfold readA1
  exact readScalar_ends h ..

theorem needUnused_ends {s : State} (h : Canonical s) (f : BitVec 6) : Ends Anything (needUnused s f) := by
  unfold needUnused
  split
  · trivial
  · exact trapHere_ends h ..

theorem needDst_ends {s : State} (h : Canonical s) (f : BitVec 6) : Ends Anything (needDst s f) := by
  unfold needDst
  split
  · trivial
  · exact trapHere_ends h ..

theorem needDstReg_ends {s : State} (h : Canonical s) (f : BitVec 6) : Ends Anything (needDstReg s f) := by
  unfold needDstReg
  split
  · trivial
  · exact trapHere_ends h ..

theorem needMaskDst_ends {s : State} (h : Canonical s) (f : BitVec 6) : Ends Anything (needMaskDst s f) := by
  unfold needMaskDst
  split
  · trivial
  · exact trapHere_ends h ..

theorem readG_ends {s : State} (h : Canonical s) (pos k : Nat) : Ends Anything (readG s pos k) := by
  unfold readG
  exact readScalar_ends h ..

theorem readB_ends {s : State} (h : Canonical s) (pos : Nat) (f : FmtA) (signed : Bool) :
    Ends Anything (readB s pos f signed) := by
  unfold readB
  split
  · exact readScalar_ends h ..
  · trivial

/-! ### Translation -/

/-! ### Accesses -/

theorem storeEnabled_canonical {s : State} (h : Canonical s) (a : Nat) (bs : List (Option Byte)) :
    Canonical (storeEnabled s a bs) := by
  unfold storeEnabled
  split
  · exact State.store_wf s a _ h
  · refine foldl_canonical h (fun t x ht => ?_) _
    split
    · exact State.store_wf t _ _ ht
    · exact ht

theorem addElems_canonical {s : State} (h : Canonical s) (a n : Nat) (bs : List Byte) (k : Nat) :
    Canonical (addElems s a n bs k) := by
  induction k generalizing s a bs with
  | zero => exact h
  | succ k ih => exact ih (State.store_wf s a _ h) ..

theorem homeWrite_canonical {s t : State} {cube : Nat} {who : Option Nat} {a : Nat} {bs : List (Option Byte)} {add : Nat}
    (h : Canonical s) (ht : homeWrite s cube who a bs add = .done t) : Canonical t := by
  simp only [homeWrite] at ht
  repeat' split at ht
  all_goals cases ht
  · exact storeEnabled_canonical h ..
  · exact addElems_canonical h ..

theorem performNew_canonical {s t : State} {f : Flight} (h : Canonical s) (ht : performNew s f = some t) :
    Canonical t := by
  unfold performNew at ht
  split at ht
  · split at ht <;> cases ht
    · next hw => exact (homeWrite_canonical h hw).of_mem (by simp)
    · exact h.of_mem (by simp)
    · exact h.of_mem (by simp)
  · dsimp only at ht
    split at ht <;> cases ht
    · next hw => exact (homeWrite_canonical h hw).of_mem (by simp)
    · exact h.of_mem (by simp)
    · exact h.of_mem (by simp)
  · cases ht; exact h

theorem performStore_canonical {s t : State} {f : Flight} (h : Canonical s) (ht : performStore s f = some t) :
    Canonical t := by
  unfold performStore at ht
  split at ht
  · cases ht; exact h.of_mem (by simp)
  · exact performNew_canonical h ht

theorem performAll_canonical {s t : State} {l : List Flight} (h : Canonical s) (ht : performAll s l = some t) :
    Canonical t := by
  induction l generalizing s with
  | nil => cases ht; exact h
  | cons f l ih =>
    unfold performAll at ht
    split at ht
    · next hs => exact ih (performStore_canonical h hs) ht
    · cases ht

theorem drainPair_ends {s : State} (h : Canonical s) (home : Nat) : Ends Canonical (drainPair s home) := by
  simp only [drainPair]
  split
  · exact stall_ends h
  · split
    · next ht => exact performAll_canonical h ht
    · exact stall_ends h

theorem settlePiece_ends {s : State} (h : Canonical s) (k : AccessKind) (seg : BitVec 16) (p : Piece) :
    Ends Anything (settlePiece s k seg p) := by
  unfold settlePiece
  split
  · trivial
  · exact stall_ends h ..
  · exact trapAccess_ends h ..

theorem needRoom_ends {s : State} (h : Canonical s) (homes : List Nat) : Ends Anything (needRoom s homes) := by
  unfold needRoom
  split
  · trivial
  · exact stall_ends h ..

theorem needRoomIn_ends {s : State} (h : Canonical s) (home : Nat) (cls : Class) :
    Ends Anything (needRoomIn s home cls) := by
  unfold needRoomIn
  split
  · trivial
  · exact stall_ends h ..

theorem sendWrites_ends {s : State} (h : Canonical s) (pieces : List Piece) (bs : List (Option Byte)) (add : Nat)
    (one : Bool) : Ends Canonical (sendWrites s pieces bs add one) := by
  unfold sendWrites; dsimp only
  split
  · exact h
  · split
    · exact h
    · refine (needRoom_ends h ..).bind fun _ _ => (addUnacked_ends h ..).bind fun t ht => ?_
      exact foldl_canonical ht (fun u w hu => hu.of_mem (by simp)) _

theorem release_ends {s : State} (h : Canonical s) : Ends Anything (release s) := by
  unfold release
  split
  · trivial
  · exact stall_ends h ..

theorem loadParts_ends {s : State} (h : Canonical s) (k : AccessKind) (seg : BitVec 16) (cached : Bool) (ps : List Piece) :
    Ends (fun x => Canonical x.2) (loadParts s k seg cached ps) := by
  induction ps generalizing s with
  | nil => exact h
  | cons p ps ih =>
    unfold loadParts
    refine (settlePiece_ends h ..).bind fun p _ => ?_
    dsimp only
    split
    · exact (ih (s := { s with core := s.core.count 4 1 }) h).bind fun x hx => hx
    · refine (drainPair_ends h _).bind fun t ht => ?_
      split
      · exact stall_ends ht
      · split
        · exact trapAccess_ends ht ..
        · refine (ih (ht.of_mem ?_)).bind fun x hx => hx
          repeat' split
          all_goals simp

theorem loadPieces_ends {s : State} (h : Canonical s) (k : AccessKind) (seg : BitVec 16) (cached : Bool)
    (ps : List Piece) : Ends (fun x => Canonical x.2) (loadPieces s k seg cached ps) := by
  unfold loadPieces
  exact loadParts_ends h ..

theorem waitUncounted_ends {α : Type} {Q : α → Prop} (s : State) {r : Except Stop α} (h : Ends Q r) :
    Ends Q (waitUncounted s r) := by
  unfold waitUncounted; split <;> exact h

theorem place_ends {s : State} (h : Canonical s) (seg : BitVec 16) (o : Word) (n : Nat) (k : AccessKind)
    (allow : Region → Bool) : Ends Anything (place s seg o n k allow) := by
  unfold place
  split
  · split
    · exact stall_ends h ..
    · trivial
  · unfold refuse
    split
    · exact stall_ends h ..
    · trivial

theorem loadRaw_ends {s : State} (h : Canonical s) (seg : BitVec 16) (o : Word) (n : Nat) :
    Ends (fun x => Canonical x.2) (loadRaw s seg o n) := by
  unfold loadRaw
  refine (place_ends h ..).bind fun _ _ => ?_
  refine (loadPieces_ends h ..).bind fun _ _ => ?_
  split
  · trivial

/-! ### Memory instructions -/

theorem needAligned_ends {s : State} (h : Canonical s) (seg : BitVec 16) (o : Word) (al : Nat) (k : AccessKind) :
    Ends Anything (needAligned s seg o al k) := by
  unfold needAligned
  split
  · trivial
  · exact trapAccess_ends h ..

theorem scalarLoad_ends {s : State} (h : Canonical s) (n : Nat) (signed cached : Bool) (seg : BitVec 16)
    (o : Word) (d : BitVec 6) : Ends Canonical (scalarLoad n signed cached seg o d s) := by
  unfold scalarLoad
  refine (needAligned_ends h ..).bind fun _ _ => (place_ends h ..).bind fun _ _ => ?_
  split
  · exact h
  · split
    · exact h.of_mem (by simp)
    · split
      · split
        · exact trapAccess_ends h ..
        · exact (needRoom_ends h ..).bind fun _ _ => h.of_mem (by simp [apply_ite State.mem])
      · exact (waitUncounted_ends s (loadPieces_ends h ..)).bind fun ⟨_, _⟩ ht => ht.of_mem (by simp)

theorem scalarStore_ends {s : State} (h : Canonical s) (n : Nat) (seg : BitVec 16) (o : Word) (x : Word) :
    Ends Canonical (scalarStore n seg o x s) := by
  unfold scalarStore
  dsimp only
  refine (needAligned_ends h ..).bind fun _ _ => ?_
  refine (place_ends h ..).bind fun _ _ => ?_
  refine (sendWrites_ends h ..).bind fun _ _ => ?_
  trivial

theorem ld_ends {s : State} (h : Canonical s) (n : Nat) (signed : Bool) (f : FmtM) : Ends Canonical (ld n signed f s) := by
  unfold ld
  refine (needDst_ends h ..).bind fun _ _ => ?_
  refine (readScalar_ends h ..).bind fun _ _ => ?_
  exact scalarLoad_ends h ..

theorem st_ends {s : State} (h : Canonical s) (n : Nat) (f : FmtM) : Ends Canonical (st n f s) := by
  unfold st
  refine (readScalar_ends h ..).bind fun _ _ => ?_
  refine (readScalar_ends h ..).bind fun _ _ => ?_
  exact scalarStore_ends h ..

theorem lda_ends {s : State} (h : Canonical s) (n : Nat) (f : FmtM) : Ends Canonical (lda n f s) := by
  unfold lda
  refine (needDst_ends h ..).bind fun _ _ => ?_
  refine (readScalar_ends h ..).bind fun _ _ => ?_
  refine (scalarLoad_ends h ..).bind fun t h1 => ?_
  exact h1.of_mem (by simp)

theorem stl_ends {s : State} (h : Canonical s) (n : Nat) (f : FmtM) : Ends Canonical (stl n f s) := by
  unfold stl
  refine (readScalar_ends h ..).bind fun _ _ => ?_
  refine (readScalar_ends h ..).bind fun _ _ => ?_
  refine (scalarStore_ends h ..).bind fun _ _ => ?_
  refine (release_ends h ..).bind fun _ _ => ?_
  trivial

theorem fence_ends {s : State} (h : Canonical s) (f : FmtL) : Ends Canonical (fence f s) := by
  unfold fence
  dsimp only
  split
  · exact trapHere_ends h ..
  · split
    · refine (release_ends h ..).bind fun _ _ => ?_
      split
      · split
        · split
          · exact h.of_mem (by simp)
          · exact stall_ends h ..
        · split
          · exact h.of_mem (by simp)
          · exact stall_ends h ..
      · change Canonical _
        split
        · exact h
        · exact h
    · refine Ends.bind (Q := Anything) ?_ fun _ _ => ?_
      · trivial
      · split
        · split
          · split
            · exact h.of_mem (by simp)
            · exact stall_ends h ..
          · split
            · exact h.of_mem (by simp)
            · exact stall_ends h ..
        · change Canonical _
          split
          · exact h
          · exact h

theorem placeList_ends {s : State} (h : Canonical s) (seg : BitVec 16) (k : AccessKind) (allow : Region → Bool)
    (l : List (Word × Nat)) : Ends Anything (placeList s seg k allow l) := by
  unfold placeList
  split
  · split
    · exact stall_ends h ..
    · trivial
  · unfold refuse
    split
    · exact stall_ends h ..
    · trivial

theorem vld_ends {s : State} (h : Canonical s) (masked : Bool) (f : FmtM) : Ends Canonical (vld masked f s) := by
  unfold vld
  refine (needDst_ends h ..).bind fun _ _ => (readScalar_ends h ..).bind fun _ _ => ?_
  refine Ends.join (Q := Anything) (readA1_ends h ..) trivial fun mask _ => ?_
  dsimp only
  split
  · exact h.of_mem (by simp)
  · refine (needAligned_ends h ..).bind fun _ _ => (placeList_ends h ..).bind fun _ _ => ?_
    split
    · split
      · exact trapAccess_ends h ..
      · exact (needRoom_ends h ..).bind fun _ _ => h.of_mem (by simp [apply_ite State.mem])
    · exact (waitUncounted_ends s (loadPieces_ends h ..)).bind fun ⟨_, _⟩ ht => ht.of_mem (by simp)

theorem vst_ends {s : State} (h : Canonical s) (masked : Bool) (f : FmtM) : Ends Canonical (vst masked f s) := by
  unfold vst
  refine (readVector_ends h ..).bind fun _ _ => ?_
  refine (readScalar_ends h ..).bind fun _ _ => ?_
  dsimp only
  split
  · refine (readA1_ends h ..).bind fun _ _ => ?_
    split
    · trivial
    · refine (needAligned_ends h ..).bind fun _ _ => ?_
      refine (placeList_ends h ..).bind fun _ _ => ?_
      refine (sendWrites_ends h ..).bind fun _ _ => ?_
      trivial
  · refine Ends.bind (Q := Anything) ?_ fun _ _ => ?_
    · trivial
    · split
      · trivial
      · refine (needAligned_ends h ..).bind fun _ _ => ?_
        refine (placeList_ends h ..).bind fun _ _ => ?_
        refine (sendWrites_ends h ..).bind fun _ _ => ?_
        trivial

theorem placeLanes_ends {s : State} (h : Canonical s) (seg : BitVec 16) (k : AccessKind) (allow : Region → Bool)
    (l : List LaneAccess) : Ends Anything (placeLanes s seg k allow l) := by
  induction l with
  | nil => trivial
  | cons a l ih => exact (place_ends h ..).bind fun _ _ => ih.bind fun _ _ => trivial

theorem gather_ends {s : State} (h : Canonical s) (seg : BitVec 16) (off : Nat → Word) (mask : Word)
    (k : AccessKind) (allow : Region → Bool) : Ends Anything (gather s seg off mask k allow) := by
  unfold gather
  dsimp only
  split
  · exact trapAccess_ends h ..
  · refine (placeLanes_ends h ..).bind fun _ _ => ?_
    trivial

theorem loadLanes_ends {s : State} (h : Canonical s) (seg : BitVec 16) (l : List (LaneAccess × List Piece)) :
    Ends (fun x => Canonical x.2) (loadLanes seg s l) := by
  induction l generalizing s with
  | nil => exact h
  | cons x l ih => exact (loadPieces_ends h ..).bind fun _ ht => (ih ht).bind fun _ hu => hu

theorem storeLanes_ends {s : State} (h : Canonical s) (x : Vec) (l : List (LaneAccess × List Piece)) :
    Ends Canonical (storeLanes x s l) := by
  induction l generalizing s with
  | nil => exact h
  | cons a l ih => exact (sendWrites_ends h ..).bind fun _ ht => ih ht

theorem gatherLoad_ends {s : State} (h : Canonical s) (d : BitVec 6) (seg : BitVec 16) (off : Nat → Word)
    (mask : Word) : Ends Canonical (gatherLoad d seg off mask s) := by
  unfold gatherLoad
  refine (gather_ends h ..).bind fun _ _ => ?_
  split
  · split
    · exact trapAccess_ends h ..
    · exact (needRoom_ends h ..).bind fun _ _ => h.of_mem (by simp)
  · exact (waitUncounted_ends s (loadLanes_ends h ..)).bind fun ⟨_, _⟩ ht => ht.of_mem (by simp)

theorem scatterStore_ends {s : State} (h : Canonical s) (x : Vec) (seg : BitVec 16) (off : Nat → Word)
    (mask : Word) : Ends Canonical (scatterStore x seg off mask s) := by
  unfold scatterStore
  refine (gather_ends h ..).bind fun _ _ => ?_
  refine (needRoom_ends h ..).bind fun _ _ => ?_
  refine (addUnacked_ends h ..).bind fun _ _ => ?_
  refine (storeLanes_ends h ..).bind fun _ _ => ?_
  trivial

theorem vlds_ends {s : State} (h : Canonical s) (f : FmtA) : Ends Canonical (vlds f s) := by
  unfold vlds
  refine (needDst_ends h ..).bind fun _ _ => ?_
  refine (readScalar_ends h ..).bind fun _ _ => ?_
  refine (readScalar_ends h ..).bind fun _ _ => ?_
  dsimp only
  exact gatherLoad_ends h ..

theorem vsts_ends {s : State} (h : Canonical s) (f : FmtA) : Ends Canonical (vsts f s) := by
  unfold vsts
  refine (readVector_ends h ..).bind fun _ _ => ?_
  refine (readScalar_ends h ..).bind fun _ _ => ?_
  refine (readScalar_ends h ..).bind fun _ _ => ?_
  split
  · exact scatterStore_ends h ..

theorem vgath_ends {s : State} (h : Canonical s) (f : FmtA) : Ends Canonical (vgath f s) := by
  unfold vgath
  refine (needDst_ends h ..).bind fun _ _ => ?_
  refine (readScalar_ends h ..).bind fun _ _ => ?_
  refine (readVector_ends h ..).bind fun _ _ => ?_
  refine (readA1_ends h ..).bind fun _ _ => ?_
  dsimp only
  exact gatherLoad_ends h ..

theorem vscat_ends {s : State} (h : Canonical s) (f : FmtA) : Ends Canonical (vscat f s) := by
  unfold vscat
  refine (readVector_ends h ..).bind fun _ _ => ?_
  refine (readScalar_ends h ..).bind fun _ _ => ?_
  refine (readVector_ends h ..).bind fun _ _ => ?_
  refine (readA1_ends h ..).bind fun _ _ => ?_
  split
  · exact scatterStore_ends h ..

theorem atomicAt_ends {s : State} (h : Canonical s) (op : AtomicOp) (n : Nat) (v c : Nat) (seg : BitVec 16)
    (p : Piece) : Ends (fun x => Canonical x.2) (atomicAt op n v c seg p s) := by
  unfold atomicAt
  refine (settlePiece_ends h ..).bind fun p _ => (drainPair_ends h _).bind fun t ht => ?_
  have drop : Canonical (l1Drop t p.place.addr) := ht.of_mem (by simp)
  dsimp only
  split
  · next hw => exact homeWrite_canonical drop hw
  · exact stall_ends drop
  · exact trapAccess_ends drop ..
  · exact trapAccess_ends drop ..

theorem amo_ends {s : State} (h : Canonical s) (op : AtomicOp) (n : Nat) (f : FmtM) : Ends Canonical (amo op n f s) := by
  unfold amo
  refine (needDst_ends h ..).bind fun _ _ => (readScalar_ends h ..).bind fun v _ => (readScalar_ends h ..).bind fun b _ => ?_
  refine Ends.join (Q := Anything) (readA1_ends h ..) trivial fun c _ => ?_
  refine (needAligned_ends h ..).bind fun _ _ => (place_ends h ..).bind fun ps _ => ?_
  refine Ends.join (Q := Anything) (release_ends h) trivial fun _ _ => (addUnacked_ends h ..).bind fun counted hc => ?_
  split
  · exact h
  · split
    · split
      · exact trapAccess_ends h ..
      · split
        · exact trapAccess_ends h ..
        · exact (needRoom_ends h ..).bind fun _ _ => hc.of_mem (by simp)
    · refine (atomicAt_ends h ..).bind fun ⟨_, t⟩ ht => ht.of_mem ?_
      split <;> simp

theorem vamo_ends {s : State} (h : Canonical s) (op : AtomicOp) (f : FmtA) : Ends Canonical (vamo op f s) := by
  unfold vamo
  refine (readVector_ends h ..).bind fun _ _ => ?_
  refine (readScalar_ends h ..).bind fun _ _ => ?_
  refine (readVector_ends h ..).bind fun _ _ => ?_
  refine (readA1_ends h ..).bind fun _ _ => ?_
  dsimp only
  refine (gather_ends h ..).bind fun _ _ => ?_
  split
  · exact trapAccess_ends h ..
  · split
    · exact trapAccess_ends h ..
    · refine (needRoom_ends h ..).bind fun _ _ => ?_
      refine (addUnacked_ends h ..).bind fun t h1 => ?_
      exact h1.of_mem (by simp)

theorem pref_ends {s : State} (h : Canonical s) (f : FmtM) : Ends Canonical (pref f s) := by
  unfold pref
  refine (needUnused_ends h ..).bind fun _ _ => ?_
  refine (readScalar_ends h ..).bind fun _ _ => ?_
  dsimp only
  split
  · trivial
  · change Canonical _
    split
    · exact h
    · exact h

theorem moveBytes_canonical {s : State} (h : Canonical s) (from_ dest n : Nat) : Canonical (moveBytes s from_ dest n) :=
  Canonical.of_mem (s := { s with mem := memSetList s.mem dest (s.load from_ n) }) (memSetList_wf dest _ h) (by simp [moveBytes])

theorem rehome_redirect_canonical {s : State} (h : Canonical s) (k : Core) (a b n : Nat) :
    Canonical (rehome (redirect { s with core := k } a b n)) := h

theorem mapSwitch_canonical {s : State} (h : Canonical s) (m : RangeMap) : Canonical (mapSwitch s m) := by
  refine rehome_redirect_canonical (moveBytes_canonical (Canonical.of_mem (s := s) h ?_) ..) ..
  rw [l1DropAll_mem, l1DropAll_mem]

theorem unmapSwitch_canonical {s : State} (h : Canonical s) (core : Nat) (m : RangeMap) :
    Canonical (unmapSwitch s core m) := by
  simp only [unmapSwitch, Canonical, rehome_mem, redirect_mem, State.modCore_mem]
  exact memSetList_wf _ _ (by simpa [Canonical] using h)

theorem mapr_ends {s : State} (h : Canonical s) (f : FmtM) : Ends Canonical (mapr f s) := by
  unfold mapr
  refine (readScalar_ends h ..).bind fun _ _ => (readScalar_ends h ..).bind fun _ _ => ?_
  extract_lets a seg spo units
  clear_value spo units
  refine Ends.ite (trapAccess_ends h ..) (Ends.ite (trapAccess_ends h ..) ?_)
  refine (place_ends h ..).bind fun ps _ => ?_
  cases ps with
  | nil => exact h
  | cons p _ =>
  dsimp -zeta only
  extract_lets
  refine Ends.ite (trapAccess_ends h ..) ?_
  cases freeMap s.core with
  | none => exact trapAccess_ends h ..
  | some i =>
      refine Ends.ite (trapAccess_ends h ..) (Ends.ite h ?_)
      exact mapSwitch_canonical h _

theorem unmapr_ends {s : State} (h : Canonical s) (f : FmtM) : Ends Canonical (unmapr f s) := by
  unfold unmapr
  refine (needUnused_ends h ..).bind fun _ _ => ?_
  refine (readScalar_ends h ..).bind fun _ _ => ?_
  dsimp only
  refine (place_ends h ..).bind fun _ _ => ?_
  split
  · trivial
  · split
    · trivial
    · split
      · change Canonical _
        exact unmapSwitch_canonical h ..
      · exact stall_ends h ..

/-! ### Groups and barriers -/

theorem writeArea_canonical {s : State} (h : Canonical s) (g : Gang) (a : Bool) : Canonical (writeArea s g a) :=
  memSetList_wf _ _ h

theorem commitCkpts_canonical {s : State} (h : Canonical s) (cube : Nat) (g : Gang) :
    Canonical (commitCkpts s cube g) := by
  refine foldl_canonical ?_ (fun t x ht => ht.of_mem (by simp)) _
  exact foldl_canonical h (fun t c ht => writeArea_canonical ht ..) _

/-! ### Engines -/

theorem enqueue_ends {s : State} (h : Canonical s) (e : Sequencer) (w : Work) (slot : Nat) (wait : BitVec 8) :
    Ends Canonical (enqueue e w slot wait s) := by
  unfold enqueue
  dsimp only
  split
  · exact stall_ends h ..
  · split
    · trivial
    · trivial

theorem deliver_ends {s : State} (h : Canonical s) (slots : Nat) (named : List Sequencer) :
    Ends Anything (deliver slots named s) := by
  unfold deliver
  split
  · split
    · trivial
    · trivial
  · trivial

/-! ### Copies -/

theorem cpyForm_ends {s : State} (h : Canonical s) (form : CopyForm) (f : FmtA) : Ends Canonical (cpyForm form f s) := by
  unfold cpyForm
  refine (needUnused_ends h ..).bind fun _ _ => ?_
  refine (needUnused_ends h ..).bind fun _ _ => ?_
  dsimp only
  split
  · exact trapHere_ends h ..
  · refine (readG_ends h ..).bind fun _ _ => ?_
    refine (readG_ends h ..).bind fun _ _ => ?_
    refine (readG_ends h ..).bind fun _ _ => ?_
    refine (readG_ends h ..).bind fun _ _ => ?_
    refine (deliver_ends h ..).bind fun _ _ => ?_
    exact enqueue_ends h ..

/-! ### Tiles -/

theorem tileOperands_ends {s : State} (h : Canonical s) (op fn : Nat) (f : FmtT) :
    Ends Anything (tileOperands op fn f s) := by
  unfold tileOperands
  dsimp only
  split
  · refine (readScalar_ends h ..).bind fun _ _ => ?_
    trivial
  · refine (readG_ends h ..).bind fun _ _ => ?_
    trivial
  · refine (readG_ends h ..).bind fun _ _ => ?_
    refine (readG_ends h ..).bind fun _ _ => ?_
    refine (readG_ends h ..).bind fun _ _ => ?_
    refine (readG_ends h ..).bind fun _ _ => ?_
    trivial
  · split
    · trivial
    · refine (readG_ends h ..).bind fun _ _ => ?_
      trivial
  · trivial

theorem tileForm_ends {s : State} (h : Canonical s) (op fn : Nat) (f : FmtT) : Ends Canonical (tileForm op fn f s) := by
  unfold tileForm
  refine (tileOperands_ends h ..).bind fun _ _ => ?_
  refine (deliver_ends h ..).bind fun _ _ => ?_
  exact enqueue_ends h ..

theorem moveTile_ends {s : State} (h : Canonical s) (fn : Nat) (f : FmtT) (ix : Word) (v : Vec) :
    Ends Canonical (moveTile fn f ix v s) := by
  unfold moveTile
  dsimp only
  split
  · exact trapHere_ends h ..
  · split
    · exact trapHere_ends h ..
    · split
      · split
        · exact trapHere_ends h ..
        · split
          · trivial
          · trivial
          · exact h.of_mem (by simp)
          · exact h.of_mem (by simp)
      · split
        · exact trapHere_ends h ..
        · split
          · trivial
          · trivial
          · trivial
          · exact h.of_mem (by simp)

theorem transfer_ends {s : State} (h : Canonical s) (fn : Nat) (f : FmtT) : Ends Canonical (transfer fn f s) := by
  unfold transfer
  dsimp only
  split
  · refine (readVector_ends h ..).bind fun _ _ => ?_
    refine (readScalar_ends h ..).bind fun _ _ => ?_
    split
    · split
      · refine (deliver_ends (h.of_mem (by simp)) ..).bind fun _ _ => ?_
        exact moveTile_ends (h.of_mem (by simp)) ..
      · exact stall_ends h ..
    · refine (deliver_ends h ..).bind fun _ _ => ?_
      split
      · exact moveTile_ends h ..
      · refine (enqueue_ends h ..).bind fun t h1 => ?_
        exact stall_ends h1 ..
  · refine Ends.bind (Q := Anything) ?_ fun _ _ => ?_
    · trivial
    · refine (readScalar_ends h ..).bind fun _ _ => ?_
      split
      · split
        · refine (deliver_ends (h.of_mem (by simp)) ..).bind fun _ _ => ?_
          exact moveTile_ends (h.of_mem (by simp)) ..
        · exact stall_ends h ..
      · refine (deliver_ends h ..).bind fun _ _ => ?_
        split
        · exact moveTile_ends h ..
        · refine (enqueue_ends h ..).bind fun t h1 => ?_
          exact stall_ends h1 ..

/-! ### Contexts -/

theorem finishGang_canonical {s t : State} {cube : Nat} {g : Gang} {status : BitVec 16} (h : Canonical s)
    (ht : finishGang s cube g status = some t) : Canonical t := by
  simp only [finishGang] at ht
  split at ht <;> cases ht
  refine (foldl_canonical h (fun u m hu => unmapSwitch_canonical hu m.1 m.2) (gangMaps s g.id)).of_mem ?_
  simp

theorem gangEnd_canonical {s : State} (h : Canonical s) (cube : Nat) (g : Gang) (status : BitVec 16) :
    Canonical (gangEnd s cube g status) := by
  unfold gangEnd
  cases hf : finishGang s cube g status with
  | none => exact h.of_mem (by simp)
  | some t => exact finishGang_canonical h hf

theorem endedGang_canonical {s t : State} {cube : Nat} (h : Canonical s) (ht : endedGang s cube = some t) :
    Canonical t := by
  obtain ⟨g, -, hg⟩ := List.exists_of_findSome?_eq_some ht
  obtain ⟨status, -, hs⟩ := Option.bind_eq_some_iff.1 hg
  exact finishGang_canonical h hs

theorem gangHalt_canonical {s : State} (h : Canonical s) (id tid : Nat) : Canonical (gangHalt s id tid) := by
  unfold gangHalt
  split
  · exact h
  · split
    · exact h
    · dsimp only
      split
      · exact gangEnd_canonical (h.of_mem (by simp)) ..
      · exact h.of_mem (by simp)

theorem abortGang_canonical {s : State} (h : Canonical s) (id : Nat) (status : BitVec 16) :
    Canonical (abortGang s id status) := by
  unfold abortGang
  split
  · exact h
  · refine gangEnd_canonical (foldl_canonical h (fun t m ht => ?_) _) ..
    dsimp only
    split
    · exact ht
    · refine ht.of_mem ?_
      have he (l : List Nat) (core : Nat) : (l.foldl (fun u n => expel u (core / 256) n m.2.1) t).mem = t.mem :=
        foldl_mem (by simp) ..
      split <;> simp [he]

theorem retireThread_canonical {s : State} (h : Canonical s) : Canonical (retireThread s) := by
  have left : Canonical ((dropThread (leaveSet s s.me) s.core.ctx.tid).modCtx fun c =>
    { c with tid := s.core.ctx.tid, status := .retired }) := h.of_mem (by simp)
  unfold retireThread
  dsimp only
  split
  · next id _ => exact (gangHalt_canonical left id s.core.ctx.tid).of_mem (by simp)
  · exact left.of_mem (by simp)

/-! ### Synchronisation -/

theorem waitHere_ends {α : Type} {Q : α → Prop} {s : State} (h : Canonical s) : Ends Q (waitHere s) := by
  refine h.of_mem (t := (Stop.wait _).state) ?_
  simp only [Stop.state]; split <;> rfl

theorem releaseWait_ends {s : State} (h : Canonical s) : Ends Anything (releaseWait s) := by
  unfold releaseWait
  split
  · trivial
  · exact waitHere_ends h ..

theorem waitSlot_ends {α : Type} {Q : α → Prop} {s : State} (h : Canonical s) : Ends Q (waitSlot s) := by
  have hw (t : State) (w : WaitState) (ht : Canonical t) : Ends Q (.error (.wait (t.setWait w))) :=
    ht.of_mem (State.setWait_mem ..)
  unfold waitSlot; dsimp only
  split
  · exact hw _ _ h
  · exact hw _ _ h
  · split
    · exact hw _ _ h
    · split
      · exact trapHere_ends (h.of_mem (by simp)) _
      · exact hw _ _ (h.of_mem (by simp))

theorem checkGroup_ends {s : State} (h : Canonical s) (x : Word) : Ends Anything (checkGroup s x) := by
  unfold checkGroup
  split
  · exact trapHere_ends h ..
  · split
    · exact trapHere_ends h ..
    · split
      · exact trapHere_ends h ..
      · split
        · exact trapHere_ends h ..
        · trivial

theorem groupOperand_ends {s : State} (h : Canonical s) (f : FmtA) : Ends Anything (groupOperand f s) := by
  unfold groupOperand
  refine (needUnused_ends h ..).bind fun _ _ => ?_
  refine (needUnused_ends h ..).bind fun _ _ => ?_
  exact readScalar_ends h ..

theorem joinBody_ends {s : State} (h : Canonical s) (f : FmtA) : Ends Canonical (joinBody f s) := by
  unfold joinBody
  refine (groupOperand_ends h ..).bind fun _ _ => ?_
  split
  · exact trapHere_ends h ..
  · dsimp only
    split
    · exact trapHere_ends h ..
    · split
      · trivial
      · split
        · exact trapHere_ends h ..
        · split
          · exact trapHere_ends h ..
          · split
            · exact waitHere_ends h ..
            · trivial

theorem leaveBody_ends {s : State} (h : Canonical s) (f : FmtA) : Ends Canonical (leaveBody f s) := by
  unfold leaveBody
  refine (groupOperand_ends h ..).bind fun _ _ => ?_
  refine (checkGroup_ends h ..).bind fun _ _ => ?_
  split
  · refine (releaseWait_ends h ..).bind fun _ _ => ?_
    split
    · exact waitHere_ends h ..
    · exact h.of_mem (by simp)

theorem leaveAll_ends {s : State} (h : Canonical s) (l : List Group) : Ends Canonical (leaveAll s l) := by
  induction l generalizing s with
  | nil => exact h
  | cons g l ih =>
    unfold leaveAll
    split
    · exact ih h
    · split
      · exact waitHere_ends h ..
      · exact ih (h.of_mem (by simp))

theorem arriveBody_ends {s : State} (h : Canonical s) (f : FmtA) : Ends Canonical (arriveBody f s) := by
  unfold arriveBody
  refine (groupOperand_ends h ..).bind fun _ _ => ?_
  refine (checkGroup_ends h ..).bind fun _ _ => ?_
  split
  · split
    · exact trapHere_ends h ..
    · refine (release_ends h ..).bind fun _ _ => ?_
      exact h.of_mem (by simp)

theorem waitPhase_ends {s : State} (h : Canonical s) (n : Nat) : Ends Canonical (waitPhase n s) := by
  unfold waitPhase
  split
  · exact h.of_mem (by simp)
  · exact waitSlot_ends (h.of_mem (by simp)) ..

theorem arrwBody_ends {s : State} (h : Canonical s) (f : FmtA) : Ends Canonical (arrwBody f s) := by
  unfold arrwBody
  refine (groupOperand_ends h ..).bind fun _ _ => ?_
  dsimp only
  split
  · refine (waitPhase_ends h ..).bind fun t h1 => ?_
    trivial
  · refine (checkGroup_ends h ..).bind fun _ _ => ?_
    split
    · exact trapHere_ends h ..
    · refine (releaseWait_ends h ..).bind fun _ _ => ?_
      refine (waitPhase_ends (h.of_mem (by simp)) ..).bind fun t h1 => ?_
      trivial

theorem waitbBody_ends {s : State} (h : Canonical s) (f : FmtA) : Ends Canonical (waitbBody f s) := by
  unfold waitbBody
  refine (groupOperand_ends h ..).bind fun _ _ => ?_
  refine (checkGroup_ends h ..).bind fun _ _ => ?_
  dsimp only
  exact waitPhase_ends h ..

theorem dswaitBody_ends {s : State} (h : Canonical s) (f : FmtA) : Ends Canonical (dswaitBody f s) := by
  unfold dswaitBody
  refine (groupOperand_ends h ..).bind fun _ _ => ?_
  split
  · exact trapHere_ends h ..
  · dsimp only
    split
    · trivial
    · split
      · exact waitSlot_ends h ..
      · split
        · refine (deliver_ends h ..).bind fun _ _ => ?_
          trivial
        · split
          · trivial
          · trivial

theorem dssetBody_ends {s : State} (h : Canonical s) (f : FmtA) : Ends Canonical (dssetBody f s) := by
  unfold dssetBody
  refine (groupOperand_ends h ..).bind fun _ _ => ?_
  split
  · exact trapHere_ends h ..
  · dsimp only
    split
    · split
      · exact stall_ends h ..
      · split
        · trivial
        · trivial
    · exact enqueue_ends h ..

theorem counterGroup_ends {s : State} (h : Canonical s) (idx : Nat) : Ends Anything (counterGroup s idx) := by
  unfold counterGroup
  split
  · exact trapHere_ends h ..
  · split
    · trivial
    · exact trapHere_ends h ..

theorem netBarrier_ends {s : State} (h : Canonical s) (g : Group) : Ends (fun x => Canonical x.2) (netBarrier s g) := by
  unfold netBarrier
  split
  · exact trapHere_ends h ..
  · split
    · refine (needRoom_ends h ..).bind fun _ _ => ?_
      trivial
    · refine (drainPair_ends h ..).bind fun _ _ => ?_
      trivial

theorem netAnswer_ends {s : State} (h : Canonical s) (g : Option Group) (r : OnceAnswer) :
    Ends (fun x => Canonical x.2) (netAnswer s g r) := by
  unfold netAnswer
  dsimp only
  split
  · refine trapHere_ends ?_ ..
    exact h
  · trivial

theorem barrierValue_ends {s : State} (h : Canonical s) (idx : Nat) :
    Ends (fun x => Canonical x.2) (barrierValue s idx) := by
  unfold barrierValue
  split
  · exact stall_ends h ..
  · exact netAnswer_ends h ..
  · refine (counterGroup_ends h ..).bind fun _ _ => ?_
    split
    · exact netBarrier_ends h ..
    · trivial

theorem counterValue_ends {s : State} (h : Canonical s) (cls idx : Nat) :
    Ends (fun x => Canonical x.2) (counterValue s cls idx) := by
  unfold counterValue
  dsimp only
  split
  · split
    · trivial
    · exact trapHere_ends h ..
  · split
    · trivial
    · exact trapHere_ends h ..
  · split
    · trivial
    · exact trapHere_ends h ..
  · exact barrierValue_ends h ..
  · refine (counterGroup_ends h ..).bind fun _ _ => ?_
    trivial
  · split
    · trivial
    · exact trapHere_ends h ..
  · split
    · trivial
    · exact trapHere_ends h ..
  · split
    · trivial
    · exact trapHere_ends h ..
  · split
    · trivial
    · exact trapHere_ends h ..
  · exact trapHere_ends h ..

theorem selector_ends {s : State} (h : Canonical s) (x : Word) : Ends Anything (selector s x) := by
  unfold selector
  split
  · exact trapHere_ends h ..
  · trivial

theorem cntrdBody_ends {s : State} (h : Canonical s) (f : FmtA) : Ends Canonical (cntrdBody f s) := by
  unfold cntrdBody
  refine (needDst_ends h ..).bind fun _ _ => ?_
  refine (needUnused_ends h ..).bind fun _ _ => ?_
  refine (readScalar_ends h ..).bind fun _ _ => ?_
  refine (selector_ends h ..).bind fun _ _ => ?_
  dsimp only
  refine (counterValue_ends h ..).bind fun ⟨_, x⟩ h1 => ?_
  exact h1.of_mem (by simp)

theorem cntaddBody_ends {s : State} (h : Canonical s) (f : FmtA) : Ends Canonical (cntaddBody f s) := by
  unfold cntaddBody
  refine (needDst_ends h ..).bind fun _ _ => ?_
  refine (readScalar_ends h ..).bind fun _ _ => ?_
  refine (readScalar_ends h ..).bind fun _ _ => ?_
  refine (selector_ends h ..).bind fun _ _ => ?_
  split
  · split
    · exact trapHere_ends h ..
    · refine (counterGroup_ends h ..).bind fun _ _ => ?_
      split
      · exact trapHere_ends h ..
      · exact h.of_mem (by simp)

/-! ### Queues -/

theorem spawnBody_ends {s : State} (h : Canonical s) (f : FmtA) : Ends Canonical (spawnBody f s) := by
  unfold spawnBody
  refine (needUnused_ends h ..).bind fun _ _ => ?_
  refine (readScalar_ends h ..).bind fun _ _ => ?_
  refine (readScalar_ends h ..).bind fun _ _ => ?_
  dsimp only
  refine (needAligned_ends h ..).bind fun _ _ => ?_
  refine (loadRaw_ends h ..).bind fun ⟨_, x⟩ h1 => ?_
  split
  · exact trapAt_ends h ..
  · refine (place_ends h1 ..).bind fun _ _ => ?_
    split
    · trivial
    · refine (release_ends h1 ..).bind fun _ _ => ?_
      refine (needRoomIn_ends h1 ..).bind fun _ _ => ?_
      refine (addUnacked_ends h1 ..).bind fun t h2 => ?_
      trivial

theorem glaunchBody_ends {s : State} (h : Canonical s) (f : FmtA) : Ends Canonical (glaunchBody f s) := by
  unfold glaunchBody
  refine (needDst_ends h ..).bind fun _ _ => ?_
  refine (readScalar_ends h ..).bind fun _ _ => ?_
  refine (readScalar_ends h ..).bind fun _ _ => ?_
  split
  · split
    · exact stall_ends h ..
    · dsimp only
      split
      · refine trapAt_ends ?_ ..
        exact h
      · refine trapAt_ends ?_ ..
        exact h
      · refine trapHere_ends ?_ ..
        exact h
      · exact h.of_mem (by simp)
    · refine (needAligned_ends h ..).bind fun _ _ => ?_
      refine (place_ends h ..).bind fun _ _ => ?_
      refine (release_ends h ..).bind fun _ _ => ?_
      refine (loadRaw_ends h ..).bind fun _ _ => ?_
      split
      · dsimp only
        split
        · exact trapAt_ends h ..
        · split
          · exact trapAt_ends h ..
          · split
            · exact stall_ends h ..
            · trivial

theorem sendBody_ends {s : State} (h : Canonical s) (f : FmtA) : Ends Canonical (sendBody f s) := by
  unfold sendBody
  refine (needUnused_ends h ..).bind fun _ _ => ?_
  refine (readScalar_ends h ..).bind fun _ _ => ?_
  refine (readScalar_ends h ..).bind fun _ _ => ?_
  dsimp only
  split
  · exact trapHere_ends h ..
  · refine (release_ends h ..).bind fun _ _ => ?_
    refine (loadRaw_ends h ..).bind fun ⟨_, x⟩ h1 => ?_
    refine (needRoomIn_ends h1 ..).bind fun _ _ => ?_
    refine (addUnacked_ends h1 ..).bind fun t h2 => ?_
    trivial

theorem needSelector_ends {s : State} (h : Canonical s) (x : Word) : Ends Anything (needSelector s x) := by
  unfold needSelector
  split
  · trivial
  · exact trapHere_ends h ..

theorem localParts_canonical {s t : State} {core off : Nat} {l : List (Nat × List (Option Byte))} (h : Canonical s)
    (ht : localParts s core off l = some t) : Canonical t := by
  induction l generalizing s with
  | nil => cases ht; exact h
  | cons p l ih =>
    unfold localParts at ht
    split at ht
    · next hw => exact ih (homeWrite_canonical h hw) ht
    · cases ht
    · exact ih (s := s.modCtx _) h ht
    · exact ih (s := s.modCube _ _) h ht

theorem localStore_ends {s : State} (h : Canonical s) (off : Nat) (bs : List Byte) :
    Ends Canonical (localStore s off bs) := by
  refine (drainPair_ends h _).bind fun t ht => ?_
  split
  · next hu => exact localParts_canonical ht hu
  · exact stall_ends h

theorem recvBody_ends {s : State} (h : Canonical s) (f : FmtA) : Ends Canonical (recvBody f s) := by
  unfold recvBody
  refine (needDst_ends h ..).bind fun _ _ => ?_
  refine (readScalar_ends h ..).bind fun _ _ => ?_
  refine (readScalar_ends h ..).bind fun _ _ => ?_
  refine (needSelector_ends h ..).bind fun _ _ => ?_
  split
  · exact trapHere_ends h ..
  · split
    · exact h.of_mem (by simp)
    · split
      · exact h.of_mem (by simp)
      · split
        · exact trapHere_ends h ..
        · refine (localStore_ends h ..).bind fun t h1 => ?_
          exact h1.of_mem (by simp)

theorem msgwaitBody_ends {s : State} (h : Canonical s) (f : FmtA) : Ends Canonical (msgwaitBody f s) := by
  unfold msgwaitBody
  refine (needDst_ends h ..).bind fun _ _ => ?_
  refine (needUnused_ends h ..).bind fun _ _ => ?_
  refine (readScalar_ends h ..).bind fun _ _ => ?_
  refine (needSelector_ends h ..).bind fun _ _ => ?_
  split
  · exact waitSlot_ends h ..
  · exact h.of_mem (by simp)

theorem depBody_ends {s : State} (h : Canonical s) (f : FmtA) : Ends Canonical (depBody f s) := by
  unfold depBody
  refine (needUnused_ends h ..).bind fun _ _ => ?_
  refine (readScalar_ends h ..).bind fun _ _ => ?_
  refine (readScalar_ends h ..).bind fun _ _ => ?_
  dsimp only
  split
  · exact trapHere_ends h ..
  · refine (release_ends h ..).bind fun _ _ => ?_
    refine (needRoomIn_ends h ..).bind fun _ _ => ?_
    refine (addUnacked_ends h ..).bind fun _ _ => ?_
    trivial

theorem mbclrBody_ends {s : State} (h : Canonical s) (f : FmtA) : Ends Canonical (mbclrBody f s) := by
  unfold mbclrBody
  refine (needDst_ends h ..).bind fun _ _ => ?_
  refine (needUnused_ends h ..).bind fun _ _ => ?_
  refine (readScalar_ends h ..).bind fun _ _ => ?_
  exact h.of_mem (by simp)

theorem forkBody_ends {s : State} (h : Canonical s) (f : FmtA) : Ends Canonical (forkBody f s) := by
  unfold forkBody
  refine (needUnused_ends h ..).bind fun _ _ => ?_
  refine (readScalar_ends h ..).bind fun _ _ => ?_
  refine (readScalar_ends h ..).bind fun _ _ => ?_
  dsimp only
  split
  · exact trapHere_ends h ..
  · split
    · exact trapAt_ends h ..
    · split
      · exact waitHere_ends h ..
      · refine (releaseWait_ends h ..).bind fun _ _ => ?_
        trivial

theorem rdvBody_ends {s : State} (h : Canonical s) (f : FmtA) : Ends Canonical (rdvBody f s) := by
  unfold rdvBody
  refine (needUnused_ends h ..).bind fun _ _ => ?_
  refine (needUnused_ends h ..).bind fun _ _ => ?_
  refine (readScalar_ends h ..).bind fun _ _ => ?_
  split
  · exact trapHere_ends h ..
  · dsimp only
    split
    · exact waitHere_ends h ..
    · refine (deliver_ends h ..).bind fun _ _ => ?_
      trivial

theorem nredBody_ends {s : State} (h : Canonical s) (f : FmtA) : Ends Canonical (nredBody f s) := by
  unfold nredBody
  refine (needUnused_ends h ..).bind fun _ _ => ?_
  dsimp only
  split
  · exact trapHere_ends h ..
  · refine (readG_ends h ..).bind fun _ _ => ?_
    refine (readG_ends h ..).bind fun _ _ => ?_
    split
    · exact trapHere_ends h ..
    · split
      · exact trapHere_ends h ..
      · split
        · exact trapHere_ends h ..
        · refine (readVector_ends h ..).bind fun _ _ => ?_
          split
          · refine (readVector_ends h ..).bind fun _ _ => ?_
            refine (release_ends h ..).bind fun _ _ => ?_
            refine (needRoomIn_ends h ..).bind fun _ _ => ?_
            refine (addUnacked_ends h ..).bind fun _ _ => ?_
            trivial
          · refine Ends.bind (Q := Anything) ?_ fun _ _ => ?_
            · trivial
            · refine (release_ends h ..).bind fun _ _ => ?_
              refine (needRoomIn_ends h ..).bind fun _ _ => ?_
              refine (addUnacked_ends h ..).bind fun _ _ => ?_
              trivial

/-! ### Fetch -/

theorem fetchTrap_ends {α : Type} {Q : α → Prop} {s : State} (h : Canonical s) (pc : Word) (code : TrapCode) (a : Word)
    (stale : Bool) : Ends Q (fetchTrap s pc code a stale) := h

theorem settleFetch_ends {s : State} (h : Canonical s) (pc : Word) (ps : List Piece) :
    Ends Anything (settleFetch s pc ps) := by
  induction ps with
  | nil => trivial
  | cons p ps ih =>
    unfold settleFetch
    split
    · exact ih.bind fun _ _ => trivial
    · exact stall_ends h
    · exact fetchTrap_ends h ..

theorem fetchWord_ends {s : State} (h : Canonical s) (pc a : Word) : Ends (fun x => Canonical x.2) (fetchWord s pc a) := by
  unfold fetchWord
  split
  · split
    · exact stall_ends h ..
    · exact fetchTrap_ends h ..
  · split
    · exact fetchTrap_ends h ..
    · dsimp only
      split
      · trivial
      · refine (settleFetch_ends h ..).bind fun _ _ => ?_
        split
        · exact stall_ends h ..
        · split
          · exact fetchTrap_ends h ..
          · exact h.of_mem (by simp)

theorem readInstr_ends {s : State} (h : Canonical s) (pc a : Word) : Ends (fun x => Canonical x.2) (readInstr s pc a) := by
  simp only [readInstr]
  refine (fetchWord_ends h ..).bind fun ⟨_, x⟩ h1 => ?_
  split
  · trivial
  · refine (fetchWord_ends h1 ..).bind fun ⟨_, x'⟩ h2 => ?_
    split
    · trivial
    · refine (fetchWord_ends h2 ..).bind fun ⟨_, x'⟩ h3 => ?_
      trivial

theorem captureBody_ends {s : State} (h : Canonical s) (p : Word) (n : Nat) (a : Word) :
    Ends (fun x => Canonical x.2) (captureBody p n s a) := by
  induction n generalizing s a with
  | zero => exact h
  | succ n ih => exact (readInstr_ends h ..).bind fun _ ht => (ih ht _).bind fun _ hu => hu

theorem repTrap_ends {α : Type} {Q : α → Prop} {s : State} (h : Canonical s) (p : Word) : Ends Q (repTrap s p) := h

theorem captureFrame_ends {s : State} (h : Canonical s) (p : Word) (len stride : Nat) :
    Ends (fun x => Canonical x.2) (captureFrame s p len stride) := by
  simp only [captureFrame]
  refine (captureBody_ends h ..).bind fun ⟨_, x⟩ h1 => ?_
  split
  · trivial
  · exact repTrap_ends h ..

theorem recapture_ends {s : State} (h : Canonical s) : Ends Canonical (recapture s) := by
  unfold recapture
  dsimp only
  refine (fetchWord_ends h ..).bind fun ⟨_, x⟩ h1 => ?_
  split
  · exact repTrap_ends h ..
  · refine (captureFrame_ends h1 ..).bind fun ⟨_, x'⟩ h2 => ?_
    exact h2.of_mem (by simp)

theorem nextWords_ends {s : State} (h : Canonical s) : Ends (fun x => Canonical x.2) (nextWords s) := by
  unfold nextWords
  dsimp only
  split
  · refine Ends.join (Q := Canonical) (recapture_ends h) h fun t ht => ?_
    split
    · exact repTrap_ends ht ..
    · split
      · exact repTrap_ends ht ..
      · exact ht
  · split
    · exact h
    · exact readInstr_ends h ..

/-! ### Control -/

theorem bBody_ends {s : State} (h : Canonical s) (f : FmtB) : Ends (fun x => Canonical x.1) (bBody f s) := by
  unfold bBody
  refine (needUnused_ends h ..).bind fun _ _ => ?_
  trivial

theorem condOf_ends {s : State} (h : Canonical s) (k : BitVec 3) (f : FmtB) : Ends Anything (condOf k f s) := by
  unfold condOf
  split
  · exact trapHere_ends h ..
  · refine (readScalar_ends h ..).bind fun _ _ => ?_
    trivial

theorem bCondBody_ends {s : State} (h : Canonical s) (k : BitVec 3) (f : FmtB) :
    Ends (fun x => Canonical x.1) (bCondBody k f s) := by
  unfold bCondBody
  refine (condOf_ends h ..).bind fun _ _ => ?_
  trivial

theorem spillOldest_ends {s : State} (h : Canonical s) : Ends Canonical (spillOldest s) := by
  unfold spillOldest
  split
  · trivial
  · dsimp only
    split
    · exact trapAt_ends h ..
    · refine (place_ends h ..).bind fun _ _ => ?_
      refine (sendWrites_ends h ..).bind fun _ _ => ?_
      trivial

theorem callTo_ends {s : State} (h : Canonical s) (f : FmtB) : Ends (fun x => Canonical x.1) (callTo f s) := by
  unfold callTo
  refine (spillOldest_ends h ..).bind fun _ _ => ?_
  trivial

theorem callBody_ends {s : State} (h : Canonical s) (f : FmtB) : Ends (fun x => Canonical x.1) (callBody f s) := by
  unfold callBody
  refine (needUnused_ends h ..).bind fun _ _ => ?_
  exact callTo_ends h ..

theorem callCondBody_ends {s : State} (h : Canonical s) (k : BitVec 3) (f : FmtB) :
    Ends (fun x => Canonical x.1) (callCondBody k f s) := by
  unfold callCondBody
  refine (condOf_ends h ..).bind fun _ _ => ?_
  split
  · exact callTo_ends h ..
  · trivial

theorem needNone_ends {s : State} (h : Canonical s) (f : FmtA) : Ends Anything (needNone f s) := by
  unfold needNone
  refine (needUnused_ends h ..).bind fun _ _ => ?_
  refine (needUnused_ends h ..).bind fun _ _ => ?_
  exact needUnused_ends h ..

theorem ctlOperand_ends {s : State} (h : Canonical s) (f : FmtA) : Ends Anything (ctlOperand f s) := by
  unfold ctlOperand
  refine (needUnused_ends h ..).bind fun _ _ => ?_
  refine (needUnused_ends h ..).bind fun _ _ => ?_
  exact readScalar_ends h ..

theorem popReturn_ends {s : State} (h : Canonical s) : Ends (fun x => Canonical x.2) (popReturn s) := by
  unfold popReturn
  split
  · trivial
  · dsimp only
    split
    · exact trapAt_ends h ..
    · refine (loadRaw_ends h ..).bind fun _ _ => ?_
      trivial

theorem retBody_ends {s : State} (h : Canonical s) (f : FmtA) : Ends (fun x => Canonical x.1) (retBody f s) := by
  unfold retBody
  refine (needNone_ends h ..).bind fun _ _ => ?_
  refine (popReturn_ends h ..).bind fun _ _ => ?_
  split
  · split
    · exact trapAt_ends h ..
    · trivial

theorem yieldBody_ends {s : State} (h : Canonical s) (f : FmtA) : Ends Canonical (yieldBody f s) := by
  unfold yieldBody
  refine (needNone_ends h ..).bind fun _ _ => ?_
  split
  · exact h.of_mem (by simp)
  · split
    · exact stall_ends h ..
    · exact h.of_mem (by simp)

theorem haltMain_ends {s : State} (h : Canonical s) (f : FmtA) : Ends Canonical (haltMain f s) := by
  unfold haltMain
  split
  · exact waitHere_ends h
  · refine (deliver_ends h ..).bind fun _ _ => ?_
    dsimp only
    split
    · exact waitHere_ends h
    · exact (leaveAll_ends h ..).bind fun t ht => retireThread_canonical (ht.of_mem (by simp))

theorem haltBody_ends {s : State} (h : Canonical s) (f : FmtA) : Ends Canonical (haltBody f s) := by
  unfold haltBody
  refine (needNone_ends h ..).bind fun _ _ => ?_
  split
  · exact haltMain_ends h ..
  · exact h.of_mem (by simp)

theorem trapBody_ends {s : State} (h : Canonical s) (f : FmtA) : Ends Canonical (trapBody f s) := by
  unfold trapBody
  refine (ctlOperand_ends h ..).bind fun _ _ => ?_
  exact trapAt_ends h ..

theorem followBody_ends {s : State} (h : Canonical s) (f : FmtA) : Ends Canonical (followBody f s) := by
  unfold followBody
  refine (ctlOperand_ends h ..).bind fun _ _ => ?_
  split
  · exact trapAt_ends h ..
  · dsimp only
    split
    · trivial
    · split
      · exact trapAt_ends h ..
      · exact h.of_mem (by simp)

theorem detachBody_ends {s : State} (h : Canonical s) (f : FmtA) : Ends Canonical (detachBody f s) := by
  unfold detachBody
  refine (needNone_ends h ..).bind fun _ _ => ?_
  trivial

theorem rejoinBody_ends {s : State} (h : Canonical s) (f : FmtA) : Ends Canonical (rejoinBody f s) := by
  unfold rejoinBody
  refine (needNone_ends h ..).bind fun _ _ => ?_
  dsimp only
  split
  · split
    · trivial
    · split
      · exact h.of_mem (by simp)
      · trivial
  · split
    · exact h.of_mem (by simp)
    · exact h.of_mem (by simp)

theorem srdBody_ends {s : State} (h : Canonical s) (f : FmtL) : Ends Canonical (srdBody f s) := by
  unfold srdBody
  refine (needDst_ends h ..).bind fun _ _ => ?_
  split
  · exact trapHere_ends h ..
  · exact h.of_mem (by simp)

theorem swrBody_ends {s : State} (h : Canonical s) (f : FmtL) : Ends Canonical (swrBody f s) := by
  unfold swrBody
  split
  · exact trapHere_ends h ..
  · dsimp only
    split
    · refine (needPriv_ends h ..).bind fun _ _ => ?_
      refine (readScalar_ends h ..).bind fun _ _ => ?_
      exact h.of_mem (by simp)
    · refine Ends.bind (Q := Anything) ?_ fun _ _ => ?_
      · trivial
      · refine (readScalar_ends h ..).bind fun _ _ => ?_
        exact h.of_mem (by simp)

theorem rfeBody_ends {s : State} (h : Canonical s) (f : FmtA) : Ends (fun x => Canonical x.1) (rfeBody f s) := by
  unfold rfeBody
  refine (needPriv_ends h ..).bind fun _ _ => ?_
  refine (ctlOperand_ends h ..).bind fun _ _ => ?_
  split
  · exact trapAccess_ends h ..
  · refine (loadRaw_ends h ..).bind fun _ _ => ?_
    split
    · dsimp only
      split
      · exact trapAccess_ends h ..
      · trivial

theorem jtTrap_ends {α : Type} {Q : α → Prop} {s : State} (h : Canonical s) (c : TrapCode) (a : Word) :
    Ends Q (jtTrap s c a) := h

theorem jtBody_ends {s : State} (h : Canonical s) (i : BitVec 6) : Ends (fun x => Canonical x.1) (jtBody i s) := by
  have index (g : Word → Nat) : Ends Anything ((readScalar s 0 i).map g) := (readScalar_ends h ..).map g
  unfold jtBody
  refine (fetchWord_ends h ..).bind fun ⟨_, t⟩ ht => Ends.ite (jtTrap_ends h ..) ?_
  · refine Ends.join (Q := Anything) trivial (index _) fun k _ => (fetchWord_ends ht ..).bind fun ⟨_, u⟩ hu => ?_
    refine Ends.ite (jtTrap_ends h ..) ?_
    exact (fetchWord_ends hu ..).bind fun ⟨_, w⟩ hw => (index _).bind fun _ _ => Ends.ite (jtTrap_ends h ..) hw

theorem repFrame_ends {s : State} (h : Canonical s) (len stride : Nat) {count : Except Stop Nat}
    (hc : Ends Anything count) : Ends (fun x => Canonical x.1) (repFrame len stride count s) := by
  unfold repFrame
  dsimp only
  split
  · exact trapHere_ends h _
  · refine (captureFrame_ends h ..).bind fun ⟨_, t⟩ ht => hc.bind fun _ _ => ?_
    split
    · exact trapHere_ends h _
    · split
      · exact ht
      · exact ht.of_mem (by simp)

theorem repBody_ends {s : State} (h : Canonical s) (n len stride : Nat) :
    Ends (fun x => Canonical x.1) (repBody n len stride s) :=
  repFrame_ends h len stride trivial

theorem repgBody_ends {s : State} (h : Canonical s) (c : BitVec 6) (len : BitVec 4) (stride : BitVec 5) :
    Ends (fun x => Canonical x.1) (repgBody c len stride s) :=
  repFrame_ends h _ _ ((readScalar_ends h ..).map _)

theorem migrateBody_ends {s : State} (h : Canonical s) (f : FmtM) : Ends Canonical (migrateBody f s) := by
  unfold migrateBody
  refine (needUnused_ends h ..).bind fun _ _ => ?_
  refine (readScalar_ends h ..).bind fun _ _ => ?_
  dsimp only
  split
  · exact trapHere_ends h ..
  · split
    · exact trapHere_ends h ..
    · refine (place_ends h ..).bind fun _ _ => ?_
      split
      · trivial
      · split
        · refine (release_ends h ..).bind fun _ _ => ?_
          exact h.of_mem (by simp)
        · split
          · exact waitHere_ends h ..
          · exact h.of_mem (by simp)

/-! ### Decided cells -/

theorem performOnce_canonical {s : State} {cube fn a g p : Nat} {x : State × OnceAnswer} (h : Canonical s)
    (hx : performOnce s cube fn a g p = some x) : Canonical x.1 := by
  simp only [performOnce] at hx
  split at hx
  · cases hx
  · split at hx
    · cases hx; exact h
    · split at hx
      · cases hx; exact h
      · split at hx
        · cases hx; exact h
        · split at hx <;> cases hx
          exact store_canonical h ..

theorem onceFinish_ends {s : State} (h : Canonical s) (fn : Nat) (install : Bool) (seg : BitVec 16) (o : Word)
    (f : FmtM) (r : OnceAnswer) : Ends Canonical (onceFinish fn install seg o f r s) := by
  unfold onceFinish
  split
  · exact trapAccess_ends h ..
  · exact h.of_mem (by simp [apply_ite State.mem])

theorem onceForm_ends {s : State} (h : Canonical s) (fn : Nat) (f : FmtM) : Ends Canonical (onceForm fn f s) := by
  unfold onceForm
  refine Ends.join (Q := Anything) (needPriv_ends h) trivial fun _ _ => ?_
  refine Ends.join (Q := Anything) trivial (needDst_ends h ..) fun _ _ => ?_
  refine Ends.join (Q := Anything) ((readVector_ends h ..).bind fun _ _ => trivial) trivial fun prop _ => ?_
  refine Ends.join (Q := Anything) trivial ((readA1_ends h ..).bind fun _ _ => trivial) fun g _ => ?_
  refine (readScalar_ends h ..).bind fun b _ => ?_
  extract_lets seg o scope held install
  split
  · exact stall_ends h
  · exact onceFinish_ends (h.of_mem (by simp)) ..
  · refine Ends.ite (trapHere_ends h _) (Ends.ite (trapAccess_ends h ..) ?_)
    refine (place_ends h ..).bind fun ps _ => ?_
    match ps with
    | [] => exact h
    | p :: _ =>
      dsimp -zeta only
      extract_lets a t m num u perform
      have dropped : Canonical t := h.of_mem (by simp [t, apply_ite State.mem])
      refine Ends.ite (trapAccess_ends h ..) (Ends.ite (trapAccess_ends h ..) ?_)
      refine Ends.join (k := perform) (Q := Anything) (release_ends h) trivial fun _ _ => ?_
      clear_value t
      dsimp only [perform]
      split
      · exact onceFinish_ends dropped ..
      · refine Ends.ite ((needRoom_ends dropped ..).bind fun _ _ => ?_) ?_
        · exact dropped.of_mem (t := Stop.state _) (by simp [u])
        · refine (settlePiece_ends dropped ..).bind fun _ _ => Ends.ite (trapAccess_ends dropped ..) ?_
          refine (drainPair_ends dropped _).bind fun u hu => ?_
          split
          · exact stall_ends hu
          · next hp => exact onceFinish_ends (performOnce_canonical hu hp) ..

/-! ### Flues -/

theorem flueForm_ends {s : State} (h : Canonical s) (fn : Nat) (f : FmtA) : Ends Canonical (flueForm fn f s) := by
  unfold flueForm
  refine (needUnused_ends h ..).bind fun _ _ => ?_
  refine (needUnused_ends h ..).bind fun _ _ => ?_
  dsimp only
  split
  · exact trapHere_ends h ..
  · refine (readG_ends h ..).bind fun _ _ => ?_
    refine (readG_ends h ..).bind fun _ _ => ?_
    refine (readG_ends h ..).bind fun _ _ => ?_
    refine (deliver_ends h ..).bind fun _ _ => ?_
    exact enqueue_ends h ..

theorem statWrites_canonical {s t : State} {cube core : Nat} {ps : List Piece} {l : List Nat} (h : Canonical s)
    (ht : statWrites s cube core ps l = .ok t) : Canonical t := by
  induction l generalizing s with
  | nil => cases ht; exact h
  | cons f l ih =>
    unfold statWrites at ht
    dsimp only at ht
    split at ht
    · next hw => exact ih ((homeWrite_canonical h hw).of_mem (by simp)) ht
    all_goals cases ht

theorem flueStat_canonical {s t : State} {core : Nat} {x : Entry} {rc : Record} {obj : Word} (h : Canonical s)
    (ht : flueStat s core x rc obj = .done t) : Canonical t := by
  simp only [flueStat] at ht
  repeat' split at ht
  all_goals cases ht
  next hw => exact statWrites_canonical h hw

theorem startKernel_mem {s t : State} {cube : Nat} {r : Requester} {pc : Word} {segs : List (BitVec 16)} {owner : Nat}
    {rc : Record} {table : List Byte} {by_ : Option Nat × Nat} {origin : Option WorkOrigin}
    (ht : startKernel s cube r pc segs owner rc table by_ origin = .ok t) : t.mem = s.mem := by
  simp only [startKernel] at ht
  repeat' split at ht
  all_goals cases ht
  exact foldl_mem (by simp) ..

theorem flueEntry_canonical {s t : State} {core : Nat} {x : Entry} {tid fn : Nat} {obj rec_ : Word} (h : Canonical s)
    (ht : flueEntry s core x tid fn obj rec_ = .done t) : Canonical t := by
  simp only [flueEntry] at ht
  split at ht
  · cases ht
  · cases ht
  · split at ht
    · repeat' split at ht
      all_goals cases ht
      exact h.of_mem (by simp)
    · repeat' split at ht
      all_goals cases ht
      next hk => exact h.of_mem (startKernel_mem hk)
    · cases ht
      exact h.of_mem (by simp)
    · exact flueStat_canonical h ht

theorem flueStart_canonical {s : State} (h : Canonical s) (core : Nat) : Canonical (flueStart core s) := by
  simp only [flueStart]
  repeat' split
  case h_3.isTrue ht _ => exact (flueEntry_canonical h ht).of_mem (by simp)
  case h_3.isFalse ht _ => exact (flueEntry_canonical h ht).of_mem (by simp)
  all_goals exact h.of_mem (by simp)

theorem streamToken_canonical {s : State} (h : Canonical s) (cube f k : Nat) : Canonical (streamToken s cube f k) := by
  unfold streamToken; dsimp only
  split
  · exact h
  · split
    · repeat' split
      all_goals exact h.of_mem (by simp)
    · split
      · next v q x l _ _ =>
        split
        · exact h.of_mem (by simp)
        · split
          · exact h
          · refine Canonical.of_mem (store_canonical h x.addr (bytesOfNat 64 v.toNat)) ?_
            rw [State.modFlue_mem]
            split <;> simp
      · exact h.of_mem (by simp)
      · exact h

/-! ### Tasks -/

theorem writePieces_canonical {s : State} (h : Canonical s) (bs : List Byte) (ps : List Piece) :
    Canonical (writePieces s bs ps) := by
  induction ps generalizing s bs with
  | nil => exact h
  | cons p ps ih => exact ih (State.store_wf s _ _ h) _

theorem setCount_canonical {s t : State} {p : BitVec 1024} {g : GraphHeader} {k v : Nat} (h : Canonical s)
    (ht : setCount s p g k v = some t) : Canonical t := by
  unfold setCount at ht
  repeat' split at ht
  all_goals cases ht
  exact writePieces_canonical h ..

theorem initCounts_canonical {s : State} (h : Canonical s) (p : BitVec 1024) (g : GraphHeader) (n k : Nat)
    (l : List (Nat × Nat)) : Canonical (initCounts p g n k s l).1 := by
  induction n generalizing s k l with
  | zero => exact h
  | succ n ih =>
    unfold initCounts
    split
    · exact h
    · split
      · exact h
      · split
        · exact h
        · next hc => exact ih (setCount_canonical h hc) ..

theorem startLaunch_canonical {s : State} (h : Canonical s) (cube slot : Nat) : Canonical (startLaunch s cube slot) := by
  unfold startLaunch
  split
  · exact h
  · next g _ =>
    split
    · exact h
    · have started : Canonical (s.setGraph cube { g with started := true, active := [], done := 0, abort := none }) :=
        h.of_mem (by simp)
      dsimp only
      split
      · exact started.of_mem (by simp)
      · split
        · exact started.of_mem (by simp)
        · next hd _ _ _ =>
          have counted := initCounts_canonical started g.packet hd hd.n 0 []
          split
          · next hi => rw [hi] at counted; exact counted.of_mem (by simp)
          · next hi => rw [hi] at counted; exact counted.of_mem (by simp)

theorem endLaunches_canonical {s : State} (h : Canonical s) (cube slot n : Nat) :
    Canonical (endLaunches cube slot n s) := by
  induction n generalizing s with
  | zero => exact h
  | succ n ih =>
    unfold endLaunches
    split
    · exact h
    · split
      · exact h
      · dsimp only
        split
        · exact h.of_mem (by simp)
        · exact ih (startLaunch_canonical (h.of_mem (by simp)) ..)

theorem successors_canonical {s : State} (h : Canonical s) (cube slot : Nat) (p : BitVec 1024) (g : GraphHeader)
    (node n j : Nat) : Canonical (successors cube slot p g node n j s) := by
  induction n generalizing s j with
  | zero => exact h
  | succ n ih =>
    have hb : Canonical (abortLaunch s cube slot statusFaulted node) := h.of_mem (by simp)
    unfold successors
    dsimp only
    split
    · exact hb
    · split
      · exact hb
      · split
        · exact hb
        · split
          · exact hb
          · next hc =>
            have hs := setCount_canonical h hc
            refine ih ?_ _
            split
            · exact hs.of_mem (by simp)
            · exact hs

theorem startWaiting_canonical {s : State} (h : Canonical s) (cube : Nat) : Canonical (startWaiting s cube) := by
  unfold startWaiting
  split
  · exact endLaunches_canonical (startLaunch_canonical h ..) ..
  · exact h

theorem walkerStep_canonical {s : State} (h : Canonical s) (cube : Nat) : Canonical (walkerStep s cube) := by
  unfold walkerStep
  split
  · exact startWaiting_canonical h ..
  · split
    · exact h
    · dsimp only
      split
      · exact h.of_mem (by simp)
      · split
        · exact h.of_mem (by simp)
        · refine endLaunches_canonical ?_ ..
          split
          · exact h.of_mem (by simp)
          · split
            · exact h.of_mem (by simp)
            · split
              · exact h.of_mem (by simp)
              · split
                · exact h.of_mem (by simp)
                · split
                  · exact h.of_mem (by simp)
                  · exact successors_canonical (h.of_mem (by simp)) ..

theorem launchGangAt_canonical {s t : State} {cube h0 k0 : Nat} {p : BitVec 1024} {asid : BitVec 24}
    {origin : WorkOrigin} {scope : Nat} (h : Canonical s)
    (ht : launchGangAt s cube h0 k0 p asid origin scope = some t) : Canonical t := by
  simp only [launchGangAt, freshTids, State.fresh] at ht
  split at ht
  · cases ht
  · split at ht
    · cases ht
    · split at ht
      · cases ht
        exact h.of_mem (by simp)
      · cases ht
        split
        · exact commitCkpts_canonical (h.of_mem (by simp)) ..
        · exact h.of_mem (by simp)

theorem dispatchTemplate_canonical {s t : State} {cube h0 k0 : Nat} {p : BitVec 1024} {obj : Word} {slot k : Nat}
    (h : Canonical s) (ht : dispatchTemplate s cube h0 k0 p obj slot k = some t) : Canonical t := by
  simp only [dispatchTemplate] at ht
  split at ht
  · cases ht; exact h.of_mem (by simp)
  · split at ht
    · cases ht; exact h.of_mem (by simp)
    · exact launchGangAt_canonical h ht

theorem exists_of_bind_ok {ε α β : Type} {x : Except ε α} {f : α → Except ε β} {b : β} (h : x >>= f = .ok b) :
    ∃ a, x = .ok a ∧ f a = .ok b := by
  cases x with
  | ok a => exact ⟨a, rfl, h⟩
  | error e => cases h

/-! ### Refinement -/

theorem controlWrite_canonical {s t : State} {r : Run} {x : Word} {skip : Nat} {bs : List Byte} (h : Canonical s)
    (ht : controlWrite s r x skip bs = .ok t) : Canonical t := by
  obtain ⟨ps, -, hp⟩ := exists_of_bind_ok ht
  have hw := writePieces_canonical h bs ps
  dsimp only at hp
  split at hp <;> cases hp
  · exact hw
  · exact hw.of_mem (by simp)

theorem blurOutputs_canonical {s t : State} {r : Run} {withX : Bool} (h : Canonical s)
    (ht : blurOutputs s r withX = .ok t) : Canonical t := by
  cases withX with
  | false => exact controlWrite_canonical (h.of_mem (by simp)) ht
  | true =>
    obtain ⟨u, hu, ht⟩ := exists_of_bind_ok ht
    exact controlWrite_canonical ((controlWrite_canonical (h.of_mem (by simp)) hu).of_mem (by simp)) ht

theorem writeStatus_canonical {s t : State} {r : Run} {w : Nat} (h : Canonical s) (ht : writeStatus s r w = .ok t) :
    Canonical t :=
  controlWrite_canonical h ht

theorem launchRegion_ends {s : State} (h : Canonical s) (k : AccessKind) (l : List (Word × Nat)) :
    Ends Anything (launchRegion s k l) := by
  unfold launchRegion
  split
  · unfold refuse
    split
    · exact stall_ends h ..
    · trivial
  · split
    · exact trapAccess_ends h ..
    · trivial

theorem admitRun_canonical {s : State} (h : Canonical s) (slot : Nat) (a b : Word) (blk : RefBlock)
    (ranges : List (Nat × Nat)) : Canonical (admitRun s slot a b blk ranges) := by
  have hw {t : State} (ht : Canonical t) (r : Run) (w : Nat) : Canonical ((writeStatus t r w).toOption.getD t) := by
    cases he : writeStatus t r w with
    | ok u => exact writeStatus_canonical ht he
    | error e => exact ht
  refine startLaunch_canonical (Canonical.of_mem (hw (t := State.modCtx _ _) ?_ _ _) (State.setGraph_mem ..)) ..
  exact h

theorem rlaunchBody_ends {s : State} (h : Canonical s) (f : FmtA) : Ends Canonical (rlaunchBody f s) := by
  unfold rlaunchBody
  refine (needUnused_ends h ..).bind fun _ _ => (readScalar_ends h ..).bind fun _ _ => (readScalar_ends h ..).bind fun _ _ => ?_
  refine (deliver_ends h ..).bind fun _ _ => (needAligned_ends h ..).bind fun _ _ => (place_ends h ..).bind fun _ _ => ?_
  refine (loadPieces_ends h ..).bind fun ⟨_, t⟩ ht => Ends.ite (trapAt_ends h ..) ?_
  refine (launchRegion_ends ht ..).bind fun _ _ => (launchRegion_ends ht ..).bind fun _ _ => ?_
  refine (launchRegion_ends ht ..).bind fun _ _ => (launchRegion_ends ht ..).bind fun _ _ => ?_
  refine Ends.ite (trapAt_ends h ..) ((release_ends ht).bind fun _ _ => ?_)
  refine Ends.ite (stall_ends h) (Ends.ite (trapAt_ends h ..) ?_)
  split
  · exact trapAt_ends h ..
  · exact admitRun_canonical ht ..

theorem rstatBody_ends {s : State} (h : Canonical s) (f : FmtA) : Ends Canonical (rstatBody f s) := by
  unfold rstatBody
  refine (needDst_ends h ..).bind fun _ _ => ?_
  refine (needUnused_ends h ..).bind fun _ _ => ?_
  refine (readScalar_ends h ..).bind fun _ _ => ?_
  dsimp only
  refine (needAligned_ends h ..).bind fun _ _ => ?_
  refine (loadRaw_ends h ..).bind fun ⟨_, x⟩ h1 => ?_
  refine (loadRaw_ends h1 ..).bind fun ⟨_, x'⟩ h2 => ?_
  split
  · exact trapAt_ends h2 ..
  · exact h2.of_mem (by simp)

theorem placeRun_canonical {s t : State} {cube h0 k0 : Nat} {r : Run} (h : Canonical s)
    (ht : placeRun s cube h0 k0 r = some t) : Canonical t := by
  simp only [placeRun] at ht
  split at ht
  · cases ht
  · split at ht
    · cases ht
    · split at ht
      · cases ht
      · cases ht
        refine h.of_mem ?_
        repeat' split
        all_goals simp
      · next hw =>
        have hu := writeStatus_canonical (h.of_mem (by split <;> [simp; (split <;> simp)])) hw
        split at ht
        · cases ht
        · cases ht; exact hu.of_mem (by simp)
        · next hb => cases ht; exact blurOutputs_canonical hu hb

theorem showPass_canonical {s t : State} {r : Run} {g : Progress} (h : Canonical s) (ht : showPass s r g = .ok t) :
    Canonical t := by
  obtain ⟨u, hu, ht⟩ := exists_of_bind_ok ht
  split at ht
  · exact controlWrite_canonical (blurOutputs_canonical h hu) ht
  · exact writeStatus_canonical (blurOutputs_canonical h hu) ht

theorem refineStep_canonical {s : State} (h : Canonical s) (r : Run) : Canonical (refineStep s r) := by
  unfold refineStep
  split
  · exact h
  · split
    · split <;> exact h.of_mem (by simp)
    · dsimp only
      split
      · exact h
      · exact h.of_mem (by simp)
      · next ht => exact (showPass_canonical h ht).of_mem (by simp)

theorem writeExit_canonical {s t : State} {r : Run} {e : Nat} (h : Canonical s) (ht : writeExit s r e = .ok t) :
    Canonical t := by
  unfold writeExit at ht
  split at ht
  · exact writeStatus_canonical h ht
  · split at ht
    · exact writeStatus_canonical h ht
    · obtain ⟨u, hu, ht⟩ := exists_of_bind_ok ht
      obtain ⟨v, hv, ht⟩ := exists_of_bind_ok ht
      obtain ⟨w, hw, ht⟩ := exists_of_bind_ok ht
      exact writeStatus_canonical (controlWrite_canonical (controlWrite_canonical (blurOutputs_canonical h hu) hv) hw) ht

theorem exitRun_canonical {s : State} (h : Canonical s) (r : Run) : Canonical (exitRun s r) := by
  unfold exitRun
  split
  · exact h
  · split
    · next ht => exact (writeExit_canonical h ht).of_mem (by simp)
    · exact h
    · split <;> exact h.of_mem (by simp)

/-! ### Events of the network -/

theorem storeAtHome_canonical {s : State} (h : Canonical s) (f : Flight) : Canonical (storeAtHome f s) := by
  unfold storeAtHome
  cases hp : performStore s f with
  | none => exact h
  | some t => exact performStore_canonical h hp

theorem amoAtHome_canonical {s : State} (h : Canonical s) (f : Flight) (g : AmoArgs) (a : Nat) (d : LoadDest) :
    Canonical (amoAtHome f s g a d) := by
  unfold amoAtHome; dsimp only
  split
  · next ht => exact (homeWrite_canonical h ht).of_mem (by simp)
  · exact h
  · exact h.of_mem (by simp)
  · exact h.of_mem (by simp)

theorem copyMoved_canonical {s : State} (h : Canonical s) (x : Nat × Nat × Nat) : Canonical (copyMoved s x) := by
  have hf (l m : List Host.Cell) (a b : Nat) (hm : Memory.wf m = true) :
      Memory.wf (l.foldl (fun l p => memSet l (b + (p.1 - a)) p.2) m) = true := by
    induction l generalizing m with
    | nil => exact hm
    | cons p l ih => exact ih _ (memSet_wf _ _ hm)
  exact hf _ _ _ _ (memFilter_wf _ h)

theorem removalStep_canonical {s : State} (h : Canonical s) : Canonical (removalStep s) := by
  unfold removalStep
  split
  · exact h
  · split
    · exact Canonical.ite (h.of_mem (by simp)) h
    · refine Canonical.ite h ?_
      split
      · exact Canonical.ite h (copyMoved_canonical h _)
      · exact Canonical.ite h (h.of_mem (by simp))

/-! ### Events of a core -/

theorem stoveWrite_canonical {s t : State} {core : Nat} {l : List (Place × Nat × List (Option Byte) × Word)}
    (h : Canonical s) (ht : stoveWrite core l s = .done t) : Canonical t := by
  induction l generalizing s with
  | nil => cases ht; exact h
  | cons x l ih =>
    obtain ⟨p, a, bs, o⟩ := x
    unfold stoveWrite at ht
    split at ht
    · next hw => exact ih ((homeWrite_canonical h hw).of_mem (by simp)) ht
    all_goals cases ht

theorem abortWork_canonical {s : State} (h : Canonical s) (c : Ctx) (core : Nat) (status : BitVec 16) :
    Canonical (abortWork s c core status) := by
  unfold abortWork
  split
  · split
    · exact abortGang_canonical h ..
    · exact h.of_mem (by simp)
  · exact h.of_mem (by simp)

theorem reflectTrap_canonical {s : State} (h : Canonical s) (giveUp : Bool) (tid : Nat) (cube : Nat) (v : SavedCtx)
    (t : TrapReport) : Canonical (reflectTrap giveUp tid s cube v t) := by
  have h : Canonical (s.focus (cube * 256)) := h.of_mem (by simp)
  unfold reflectTrap; dsimp only
  split
  · exact abortWork_canonical h ..
  · split
    · exact h
    · next k _ =>
      have hf : Canonical (holdFrame (s.focus (cube * 256)) cube (v.ctx.regs.asid.extractLsb' 0 16) k tid) := h.of_mem (by simp)
      split
      · exact abortWork_canonical hf ..
      · split
        · split
          · exact hf
          · exact abortWork_canonical hf ..
        · split
          · exact hf
          · split
            · exact hf
            · exact abortWork_canonical hf ..
          · split
            · exact hf
            · exact abortWork_canonical hf ..
            · next hu => exact (stoveWrite_canonical hf hu).of_mem (by simp)

theorem giveUpTrap_canonical {s : State} (h : Canonical s) (tid : Nat) : Canonical (giveUpTrap tid s) := by
  unfold giveUpTrap
  split
  · exact h
  · split
    · exact h
    · split
      · exact h
      · exact reflectTrap_canonical h ..

theorem restoreLines_canonical {s : State} (h : Canonical s) (core : Nat) (cells : List Host.Cell)
    (lines : List Nat) : Canonical (restoreLines s core cells lines) :=
  foldl_canonical h (fun t _ ht => State.store_wf t _ _ ht) _

theorem rollbackMaps_canonical {s : State} (h : Canonical s) (from_ dest : Nat) :
    Canonical (rollbackMaps s from_ dest) := by
  have hu := foldl_canonical h (fun t m ht => unmapSwitch_canonical ht from_ m) ((s.getCore from_).maps.filter RangeMap.fresh)
  unfold rollbackMaps; dsimp only
  split
  · exact hu
  · exact hu.of_mem ((foldl_mem (by simp) ..).trans (by simp))

theorem restoreSpad_canonical {s : State} (h : Canonical s) (a spare : Bool) (core : Nat) (cells : List Host.Cell) :
    Canonical (restoreSpad s a spare core cells) := by
  unfold restoreSpad
  dsimp only
  split
  · exact (restoreLines_canonical h core cells (List.range 512)).of_mem (by simp)
  · exact restoreLines_canonical h ..

theorem restoreMember_canonical {s : State} (h : Canonical s) (ck : Checkpoint) (a : Bool) (moves : List (Nat × Nat))
    (m : (Nat × Nat × Nat) × (Nat × Nat × Nat)) : Canonical (restoreMember ck a moves s m) := by
  obtain ⟨⟨rank, old, oldCore⟩, -, new, core⟩ := m
  have hs := restoreSpad_canonical (rollbackMaps_canonical h oldCore core) a (oldCore != core) core
    ((assoc ck.spads rank).getD [])
  simp only [restoreMember]
  split
  · exact hs.of_mem (by simp)
  · refine hs.of_mem ((foldl_mem (by simp) ..).trans ?_)
    split <;> simp

theorem rollbackGang_canonical {s : State} (h : Canonical s) (cube : Nat) (g : Gang) :
    Canonical (rollbackGang s cube g) := by
  unfold rollbackGang
  split
  · next ck places _ _ =>
    dsimp only
    refine Canonical.of_mem ?_ (modGang_mem ..)
    have hm (l : List ((Nat × Nat × Nat) × (Nat × Nat × Nat))) (names : List (Nat × Nat × Nat)) (moves : List (Nat × Nat)) :
        Canonical (names.foldl detachStray (l.foldl (restoreMember ck (areaIsA ck.n) moves)
          (freshTids (stopMembers s g) g.members.length).2)) :=
      (foldl_canonical (h.of_mem (by simp [freshTids])) (fun t m ht => restoreMember_canonical ht ..) l).of_mem
        (foldl_mem (by simp) ..)
    exact Canonical.ite ((hm _ _ _).of_mem (State.setGroup_mem ..))
      (foldl_canonical ((hm _ _ _).of_mem (State.setGroup_mem ..)) (fun t m ht => ht.of_mem (by simp)) _)
  · exact abortGang_canonical h ..

theorem rollbackThread_canonical {s t : State} {cube tid : Nat} (h : Canonical s)
    (ht : rollbackThread s cube tid = some t) : Canonical t := by
  unfold rollbackThread at ht; dsimp only at ht
  split at ht
  · split at ht
    · cases ht
    · split at ht <;> cases ht
      · exact rollbackGang_canonical (h.of_mem (by simp)) ..
      · exact abortGang_canonical (h.of_mem (by simp)) ..
  · split at ht <;> cases ht <;> exact h.of_mem (by simp)

theorem rollbackStep_canonical {s t : State} (h : Canonical s) (ht : rollbackStep s = some t) : Canonical t := by
  obtain ⟨p, -, hp⟩ := List.exists_of_findSome?_eq_some ht
  split at hp
  · cases hp
  · obtain ⟨tid, -, hr⟩ := List.exists_of_findSome?_eq_some hp
    exact rollbackThread_canonical (h.of_mem (by simp)) hr

/-! ### Events of a cube -/

theorem giveLaunch_canonical {s : State} (h : Canonical s) (cube : Nat) (p : BitVec 1024) :
    Canonical (giveLaunch s cube p) := by
  unfold giveLaunch
  split
  · exact h
  · exact endLaunches_canonical (startLaunch_canonical (h.of_mem (by simp)) ..) ..

theorem onRect_canonical {s t : State} {cube rows cols : Nat} {r : Option State} (hr : ∀ u, r = some u → Canonical u)
    (ht : onRect s cube rows cols r = .done t) : Canonical t := by
  unfold onRect at ht
  repeat' split at ht
  all_goals cases ht
  exact hr _ rfl

theorem onUnit_canonical {t : State} {r : Option State} (hr : ∀ u, r = some u → Canonical u)
    (ht : onUnit r = .done t) : Canonical t := by
  unfold onUnit at ht
  split at ht <;> cases ht
  exact hr _ rfl

theorem placeTemplate_canonical {s t : State} {cube h0 k0 : Nat} {p : BitVec 1024} {obj : Word} {slot k : Nat}
    (h : Canonical s) (ht : placeTemplate s cube h0 k0 p obj slot k = .done t) : Canonical t := by
  unfold placeTemplate at ht
  split at ht
  · next hd => cases ht; exact dispatchTemplate_canonical h hd
  · split at ht
    · exact onRect_canonical (by simp) ht
    · cases ht

theorem placeRefine_canonical {s t : State} {cube h0 k0 : Nat} {r : Run} (h : Canonical s)
    (ht : placeRefine s cube h0 k0 r = .done t) : Canonical t :=
  onRect_canonical (fun _ hu => placeRun_canonical h hu) ht

@[simp] theorem State.fresh_mem (s : State) : s.fresh.2.mem = s.mem := rfl

theorem dispatchCopy_canonical {s t : State} {cube : Nat} {asid : BitVec 24} {segs : List (BitVec 16)} {obj : Word}
    {origin : WorkOrigin} (h : Canonical s) (ht : dispatchCopy s cube asid segs obj origin = some t) : Canonical t := by
  simp only [dispatchCopy] at ht
  repeat' split at ht
  all_goals cases ht
  all_goals exact h.of_mem (by simp)

theorem dispatchFlue_canonical {s t : State} {cube : Nat} {asid : BitVec 24} {segs : List (BitVec 16)}
    {image table rec_ : Word} {slot k : Nat} (h : Canonical s)
    (ht : dispatchFlue s cube asid segs image table rec_ slot k = some t) : Canonical t := by
  simp only [dispatchFlue] at ht
  split at ht
  · cases ht
  · cases ht; exact h.of_mem (by simp)
  · split at ht
    · cases ht
    · split at ht
      · cases ht; exact h.of_mem (by simp)
      · split at ht
        · cases ht
        · cases ht; exact h.of_mem (by simp)
        · split at ht
          · cases ht
          · cases ht; exact h.of_mem (by simp)
          · next hk =>
            have hu := (startKernel_mem hk).trans (show _ = s.mem by simp)
            split at ht <;> cases ht <;> exact h.of_mem (by simp [hu])

theorem placeNode_canonical {s t : State} {cube h0 k0 : Nat} {e : PifoEntry} {slot k : Nat} (h : Canonical s)
    (ht : placeNode s cube h0 k0 e slot k = .done t) : Canonical t := by
  have faulted (u : BitVec 16) : Canonical (reportDone s cube (some (.node slot k)) u) := h.of_mem (by simp)
  unfold placeNode at ht
  extract_lets fault at ht
  have hf {u : State} (hu : fault = .done u) : Canonical u := Placed.done.inj hu ▸ faulted _
  split at ht
  · exact placeRefine_canonical h ht
  · split at ht
    · exact hf ht
    · next g _ x _ =>
      extract_lets p segs asid obj at ht
      split at ht
      · exact hf ht
      · split at ht
        · exact hf ht
        · split at ht
          · exact placeTemplate_canonical h ht
          · exact onUnit_canonical (fun _ hu => dispatchCopy_canonical h hu) ht
          · split at ht
            · exact hf ht
            · exact onUnit_canonical (fun _ hu => dispatchFlue_canonical h hu) ht
          · generalize dBytes s (dispatcherOf asid) segs obj 0 64 = bytes at ht
            match bytes, e.auto, ht with
            | _, some (.inl _), ht => cases ht; exact faulted _
            | some _, some (.inr true), ht => exact onUnit_canonical (fun _ hu => dispatchFlue_canonical h hu) ht
            | some _, some (.inr false), ht => exact placeTemplate_canonical h ht
            | _, none, ht => exact hf ht
            | none, some (.inr true), ht => exact hf ht
            | none, some (.inr false), ht => exact hf ht
          · split at ht
            · exact hf ht
            · exact placeRefine_canonical h ht

theorem placeHead_canonical {s t : State} {cube h0 k0 : Nat} {e : PifoEntry} (h : Canonical s)
    (ht : placeHead s cube h0 k0 e = .done t) : Canonical t := by
  simp only [placeHead] at ht
  split at ht
  · exact placeNode_canonical h ht
  · split at ht
    · exact onRect_canonical (fun _ hu => launchGangAt_canonical h hu) ht
    · split at ht
      · exact onUnit_canonical (fun _ hu => dispatchCopy_canonical h hu) ht
      · cases ht
        exact giveLaunch_canonical h ..

theorem hostWrite_canonical {s t : State} {cube : Nat} {x : Nat × List Byte} (h : Canonical s)
    (ht : hostWrite s cube x = some t) : Canonical t := by
  simp only [hostWrite] at ht
  split at ht
  · cases ht; exact h
  · split at ht
    · cases ht; exact h.of_mem (by simp)
    · split at ht <;> cases ht
      · next hw => exact (homeWrite_canonical (h.of_mem (by simp)) hw).of_mem (by simp)
      · exact h.of_mem (by simp)
      · exact h.of_mem (by simp)

theorem hostWrites_canonical {s t : State} {cube : Nat} {l : List (Nat × List Byte)} (h : Canonical s)
    (ht : hostWrites cube l s = some t) : Canonical t := by
  induction l generalizing s with
  | nil => cases ht; exact h
  | cons x l ih =>
    unfold hostWrites at ht
    split at ht
    · next hw => exact ih (hostWrite_canonical h hw) ht
    · cases ht

theorem resetPlace_canonical {s : State} (h : Canonical s) (cube : Nat) : Canonical (resetPlace s cube) :=
  memFilter_wf _ h

theorem holdCube_canonical {s : State} (h : Canonical s) (cube : Nat) : Canonical (holdCube s cube) :=
  (resetPlace_canonical (s := resetCores (expelCube s cube) cube) (h.of_mem (by simp)) cube).of_mem (by simp [holdCube])

/-! ### Scalar instructions -/

theorem scalarB_ends {s : State} (h : Canonical s) (ext : Bool) (f : FmtA) : Ends Anything (scalarB ext f s) := by
  unfold scalarB
  exact readB_ends h ..

theorem scalarTwo_ends {s : State} (h : Canonical s) (lat : Nat) (ext : Bool) (op : Word → Word → Word) (f : FmtA) :
    Ends Canonical (scalarTwo lat ext op f s) := by
  unfold scalarTwo
  refine (needDst_ends h ..).bind fun _ _ => ?_
  refine (readScalar_ends h ..).bind fun _ _ => ?_
  refine (scalarB_ends h ..).bind fun _ _ => ?_
  exact h.of_mem (by simp)

theorem scalarOne_ends {s : State} (h : Canonical s) (lat : Nat) (op : Word → Word) (f : FmtA) :
    Ends Canonical (scalarOne lat op f s) := by
  unfold scalarOne
  refine (needDst_ends h ..).bind fun _ _ => ?_
  refine (needUnused_ends h ..).bind fun _ _ => ?_
  refine (readScalar_ends h ..).bind fun _ _ => ?_
  exact h.of_mem (by simp)

theorem readD_ends {s : State} (h : Canonical s) (f : FmtL) : Ends Anything (readD f s) := by
  unfold readD
  refine (needDst_ends h ..).bind fun _ _ => ?_
  split
  · exact readScalar_ends h ..
  · trivial

theorem immForm_ends {s : State} (h : Canonical s) (v : Word) (op : Word → Word → Word) (f : FmtL) :
    Ends Canonical (immForm v op f s) := by
  unfold immForm
  refine (readD_ends h ..).bind fun _ _ => ?_
  exact h.of_mem (by simp)

theorem selBody_ends {s : State} (h : Canonical s) (f : FmtA) : Ends Canonical (selBody f s) := by
  unfold selBody
  refine (readA1_ends h ..).bind fun _ _ => ?_
  exact scalarTwo_ends h ..

theorem packed_ends {s : State} (h : Canonical s) (lat : Nat) (op : Nat → Int → Int → Int) (f : FmtA) :
    Ends Canonical (packed lat op f s) := by
  unfold packed
  dsimp only
  exact scalarTwo_ends h ..

theorem liBody_ends {s : State} (h : Canonical s) (f : FmtL) : Ends Canonical (liBody f s) := by
  unfold liBody
  refine (needDst_ends h ..).bind fun _ _ => ?_
  exact h.of_mem (by simp)

theorem lipcBody_ends {s : State} (h : Canonical s) (f : FmtL) : Ends Canonical (lipcBody f s) := by
  unfold lipcBody
  refine (needDst_ends h ..).bind fun _ _ => ?_
  exact h.of_mem (by simp)

/-! ### Vector instructions -/

theorem vectorB_ends {s : State} (h : Canonical s) (signed : Bool) (f : FmtA) : Ends Anything (vectorB signed f s) := by
  unfold vectorB
  split
  · exact readVector_ends h ..
  · trivial

theorem vectorTwo_ends {s : State} (h : Canonical s) (lat : Nat) (signed : Bool) (op : Vec → Vec → Vec) (f : FmtA) :
    Ends Canonical (vectorTwo lat signed op f s) := by
  unfold vectorTwo
  refine (needDst_ends h ..).bind fun _ _ => ?_
  refine (readVector_ends h ..).bind fun _ _ => ?_
  refine (vectorB_ends h ..).bind fun _ _ => ?_
  exact h.of_mem (by simp)

theorem vectorOne_ends {s : State} (h : Canonical s) (lat : Nat) (op : Vec → Vec) (f : FmtA) :
    Ends Canonical (vectorOne lat op f s) := by
  unfold vectorOne
  refine (needDst_ends h ..).bind fun _ _ => ?_
  refine (needUnused_ends h ..).bind fun _ _ => ?_
  refine (readVector_ends h ..).bind fun _ _ => ?_
  exact h.of_mem (by simp)

theorem vectorAcc_ends {s : State} (h : Canonical s) (lat : Nat) (op : Vec → Vec → Vec → Vec) (f : FmtA) :
    Ends Canonical (vectorAcc lat op f s) := by
  unfold vectorAcc
  refine (needDstReg_ends h ..).bind fun _ _ => ?_
  refine (readVector_ends h ..).bind fun _ _ => ?_
  refine (readVector_ends h ..).bind fun _ _ => ?_
  refine (readVector_ends h ..).bind fun _ _ => ?_
  exact h.of_mem (by simp)

theorem vectorCmp_ends {s : State} (h : Canonical s) (lat : Nat) (test : Word32 → Word32 → Bool) (f : FmtA) :
    Ends Canonical (vectorCmp lat test f s) := by
  unfold vectorCmp
  refine (needMaskDst_ends h ..).bind fun _ _ => ?_
  refine (readVector_ends h ..).bind fun _ _ => ?_
  refine (readVector_ends h ..).bind fun _ _ => ?_
  exact h.of_mem (by simp)

theorem maskTwo_ends {s : State} (h : Canonical s) (op : Word → Word → Word) (f : FmtA) :
    Ends Canonical (maskTwo op f s) := by
  unfold maskTwo
  refine (needMaskDst_ends h ..).bind fun _ _ => ?_
  refine (readMask_ends h ..).bind fun _ _ => ?_
  refine (readMask_ends h ..).bind fun _ _ => ?_
  exact h.of_mem (by simp)

theorem vselBody_ends {s : State} (h : Canonical s) (f : FmtA) : Ends Canonical (vselBody f s) := by
  unfold vselBody
  refine (readA1_ends h ..).bind fun _ _ => ?_
  exact vectorTwo_ends h ..

theorem maskToScalar_ends {s : State} (h : Canonical s) (op : Word → Word) (f : FmtA) :
    Ends Canonical (maskToScalar op f s) := by
  unfold maskToScalar
  refine (needDst_ends h ..).bind fun _ _ => ?_
  refine (needUnused_ends h ..).bind fun _ _ => ?_
  refine (readMask_ends h ..).bind fun _ _ => ?_
  exact h.of_mem (by simp)

theorem mffsBody_ends {s : State} (h : Canonical s) (f : FmtA) : Ends Canonical (mffsBody f s) := by
  unfold mffsBody
  refine (needDst_ends h ..).bind fun _ _ => ?_
  refine (needUnused_ends h ..).bind fun _ _ => ?_
  refine (readMask_ends h ..).bind fun _ _ => ?_
  exact h.of_mem (by simp)

theorem msetBody_ends {s : State} (h : Canonical s) (f : FmtA) : Ends Canonical (msetBody f s) := by
  unfold msetBody
  refine (needMaskDst_ends h ..).bind fun _ _ => ?_
  refine (needUnused_ends h ..).bind fun _ _ => ?_
  refine (readScalar_ends h ..).bind fun _ _ => ?_
  exact h.of_mem (by simp)

theorem vshufBody_ends {s : State} (h : Canonical s) (f : FmtA) : Ends Canonical (vshufBody f s) := by
  unfold vshufBody
  refine (needDst_ends h ..).bind fun _ _ => ?_
  refine (readVector_ends h ..).bind fun _ _ => ?_
  refine (readScalar_ends h ..).bind fun _ _ => ?_
  exact h.of_mem (by simp)

theorem eIndex_ends {s : State} (h : Canonical s) (i : Word) : Ends Anything (eIndex i s) := by
  unfold eIndex
  split
  · exact trapAt_ends h ..
  · trivial

theorem vxgetBody_ends {s : State} (h : Canonical s) (f : FmtA) : Ends Canonical (vxgetBody f s) := by
  unfold vxgetBody
  refine (needDst_ends h ..).bind fun _ _ => ?_
  refine (needUnused_ends h ..).bind fun _ _ => ?_
  refine (readScalar_ends h ..).bind fun _ _ => ?_
  refine (eIndex_ends h ..).bind fun _ _ => ?_
  refine (readPlace_ends h ..).bind fun _ _ => ?_
  exact h.of_mem (by simp)

theorem vxputBody_ends {s : State} (h : Canonical s) (f : FmtA) : Ends Canonical (vxputBody f s) := by
  unfold vxputBody
  refine (needUnused_ends h ..).bind fun _ _ => ?_
  refine (readScalar_ends h ..).bind fun _ _ => ?_
  refine (readVector_ends h ..).bind fun _ _ => ?_
  refine (eIndex_ends h ..).bind fun _ _ => ?_
  trivial

theorem vinsBody_ends {s : State} (h : Canonical s) (f : FmtA) : Ends Canonical (vinsBody f s) := by
  unfold vinsBody
  refine (needDstReg_ends h ..).bind fun _ _ => ?_
  refine (readScalar_ends h ..).bind fun _ _ => ?_
  refine (readScalar_ends h ..).bind fun _ _ => ?_
  refine (readVector_ends h ..).bind fun _ _ => ?_
  exact h.of_mem (by simp)

theorem vextBody_ends {s : State} (h : Canonical s) (f : FmtA) : Ends Canonical (vextBody f s) := by
  unfold vextBody
  refine (needDst_ends h ..).bind fun _ _ => ?_
  refine (readVector_ends h ..).bind fun _ _ => ?_
  refine (readScalar_ends h ..).bind fun _ _ => ?_
  exact h.of_mem (by simp)

theorem vbcastBody_ends {s : State} (h : Canonical s) (f : FmtA) : Ends Canonical (vbcastBody f s) := by
  unfold vbcastBody
  refine (needDst_ends h ..).bind fun _ _ => ?_
  refine (needUnused_ends h ..).bind fun _ _ => ?_
  refine (readScalar_ends h ..).bind fun _ _ => ?_
  exact h.of_mem (by simp)

theorem vcvt_ends {s : State} (h : Canonical s) (op : Mode → Nat → (Nat → Nat) → Vec → Vec) (f : FmtA) :
    Ends Canonical (vcvt op f s) := by
  unfold vcvt
  refine (needDst_ends h ..).bind fun _ _ => ?_
  refine (readVector_ends h ..).bind fun _ _ => ?_
  refine (readScalar_ends h ..).bind fun _ _ => ?_
  split
  · exact trapHere_ends h ..
  · exact h.of_mem (by simp)

theorem readControl_ends {s : State} (h : Canonical s) (f : FmtA) (wantList : Bool) :
    Ends Anything (readControl f wantList s) := by
  unfold readControl
  split
  · trivial
  · split
    · exact trapHere_ends h ..
    · refine (readScalar_ends h ..).bind fun _ _ => ?_
      split
      · exact trapHere_ends h ..
      · split
        · exact trapHere_ends h ..
        · split
          · trivial
          · dsimp only
            split
            · split
              · refine (readG_ends h ..).bind fun _ _ => ?_
                trivial
              · refine Ends.bind (Q := Anything) ?_ fun _ _ => ?_
                · trivial
                · trivial
            · exact trapHere_ends h ..

theorem vupk_ends {s : State} (h : Canonical s) (m : Nat) (f : FmtA) : Ends Canonical (vupk m f s) := by
  unfold vupk
  refine (needDst_ends h ..).bind fun _ _ => ?_
  refine (readVector_ends h ..).bind fun _ _ => ?_
  refine (readControl_ends h ..).bind fun _ _ => ?_
  exact h.of_mem (by simp)

/-! ### Packing -/

theorem appendWrite_ends {s t : State} (h : Canonical s) (ht : Canonical t) (seg : BitVec 16)
    (l : List (Place × Nat × List (Option Byte) × Word)) : Ends Canonical (appendWrite s seg t l) := by
  induction l generalizing t with
  | nil => exact ht
  | cons x l ih =>
    unfold appendWrite
    split
    · next hw => exact ih (homeWrite_canonical ht hw)
    · exact stall_ends h
    · exact trapAccess_ends h ..
    · exact trapAccess_ends h ..

theorem appendOutliers_ends {s : State} (h : Canonical s) (o : Word) (ents : List (Nat × Nat)) :
    Ends Canonical (appendOutliers o ents s) := by
  unfold appendOutliers
  dsimp only
  split
  · exact trapAccess_ends h ..
  · refine (place_ends h ..).bind fun _ _ => ?_
    split
    · exact h
    · refine (settlePiece_ends h ..).bind fun _ _ => (drainPair_ends h _).bind fun t ht => ?_
      refine Ends.ite (stall_ends ht) (Ends.ite (trapAccess_ends ht ..) (Ends.ite (trapAccess_ends ht ..) ?_))
      split
      · exact trapAccess_ends ht ..
      · refine Ends.ite (trapAccess_ends ht ..) ((appendWrite_ends ht ht ..).bind fun u hu => ?_)
        exact foldl_canonical hu (fun _ _ hv => hv.of_mem (by simp)) _

theorem vpk_ends {s : State} (h : Canonical s) (m : Nat) (f : FmtA) : Ends Canonical (vpk m f s) := by
  unfold vpk
  refine (needDst_ends h ..).bind fun _ _ => (readVector_ends h ..).bind fun _ _ => (readControl_ends h ..).bind fun _ _ => ?_
  dsimp only
  split
  · exact h.of_mem (by simp)
  · split
    · exact h.of_mem (by simp)
    · exact (appendOutliers_ends h ..).bind fun _ ht => ht.of_mem (by simp)

/-! ### Turns -/

end Sys2Proof.Machine
end

