-- ==== Sys2Proof/Proofs/CanonicalEvents.lean ====
section
/-! SUPPORT. Events keep the canonical form of memory. -/

namespace Sys2Proof.Machine

open Sys2Proof Sys2Proof.Safety

/-! ### Events -/

theorem Lands.ite {c : Prop} [Decidable c] {o p : Host.Outcome State Fault Refusal} (ho : Lands o) (hp : Lands p) :
    Lands (if c then o else p) := by
  split
  · exact ho
  · exact hp

/-! ### Events of the network -/

theorem cubeEvent_lands {s : State} (h : Canonical s) (cube : Nat) {f : State → State}
    (hf : ∀ b, Canonical b → Canonical (f b)) : Lands (cubeEvent cube f s) :=
  Lands.ite trivial (Lands.ite h (hf _ (h.of_mem (by simp))))

theorem coreEvent_lands {s : State} (h : Canonical s) (core : Nat) {f : State → State}
    (hf : ∀ b, Canonical b → Canonical (f b)) : Lands (coreEvent core f s) :=
  Lands.ite trivial (Lands.ite h (hf _ (h.of_mem (by simp))))

theorem commandOn_canonical {s : State} (h : Canonical s) (cube k code : Nat) {f : State → Option State}
    (hf : ∀ t, f s = some t → Canonical t) : Canonical (commandOn cube k code f s) := by
  unfold commandOn
  split
  · exact h
  · split
    · next t ht => exact (hf t ht).of_mem (by simp)
    · exact h.of_mem (by simp)

theorem stoveCommand_lands {s : State} (h : Canonical s) (cube k code : Nat) {f : State → Option State}
    (hf : ∀ b t, Canonical b → f b = some t → Canonical t) : Lands (stoveCommand cube k code f s) :=
  cubeEvent_lands h _ fun b hb => commandOn_canonical hb _ _ _ fun t => hf b t hb

theorem stoveCoreCommand_lands {s : State} (h : Canonical s) (core k code : Nat) {f : State → State}
    (hf : ∀ b, Canonical b → Canonical (f b)) : Lands (stoveCoreCommand core k code f s) :=
  coreEvent_lands h _ fun b hb => commandOn_canonical hb _ _ _ fun _ ht => Option.some.inj ht ▸ hf b hb

theorem requestEvent_lands {s : State} (h : Canonical s) (num : Nat) (kind : Body → Bool) {f : Flight → State → State}
    (hf : ∀ x b, Canonical b → Canonical (f x b)) : Lands (requestEvent num kind f s) := by
  unfold requestEvent
  split
  · refine Lands.ite h ?_
    split
    · exact Canonical.of_mem h (by simp)
    · exact Canonical.ite (hf _ _ (h.of_mem (by simp))) (h.of_mem (by simp))
  · exact h

theorem replyEvent_lands {s : State} (h : Canonical s) (num : Nat) (kind : Body → Bool) {f : Flight → State → State}
    (hf : ∀ x b, Canonical b → Canonical (f x b)) : Lands (replyEvent num kind f s) := by
  unfold replyEvent
  split
  · exact Lands.ite h (Lands.ite (hf _ _ (h.of_mem (by simp))) (Canonical.of_mem h (by simp)))
  · exact h

theorem execLinkTraining_lands {s : State} (h : Canonical s) (cube link lanes partner : Nat)
    (ignore : List IgnoreEntry) : Lands (execLinkTraining cube link lanes partner ignore s) := by
  refine cubeEvent_lands h _ fun b hb => ?_
  dsimp only
  split
  · exact hb
  · split
    · exact hb.of_mem (by simp)
    · exact hb.of_mem (by simp)

theorem execFlitReplay_lands {s : State} (h : Canonical s) (cube link : Nat) : Lands (execFlitReplay cube link s) := by
  refine cubeEvent_lands h _ fun b hb => ?_
  split
  · exact hb
  · exact hb.of_mem (by simp)

theorem execLinkDown_lands {s : State} (h : Canonical s) (cube link : Nat) : Lands (execLinkDown cube link s) := by
  refine cubeEvent_lands h _ fun b hb => ?_
  split
  · exact hb
  · split
    · exact hb.of_mem (by simp)
    · exact hb

theorem execPacketHop_lands {s : State} (h : Canonical s) (num dir : Nat) : Lands (execPacketHop num dir s) := by
  unfold execPacketHop
  split
  · trivial
  · split
    · trivial
    · exact h.of_mem (by simp)

theorem execRead_lands {s : State} (h : Canonical s) (num : Nat) (ecc : Bool) : Lands (execRead num ecc s) := by
  refine requestEvent_lands h _ _ fun x b hb => ?_
  split
  · split
    · dsimp only
      split
      · exact hb
      · split
        · exact hb.of_mem (by simp)
        · exact hb.of_mem (by simp)
    · dsimp only
      split
      · exact hb
      · split
        · exact hb.of_mem (by simp)
        · exact hb.of_mem (by simp)
  · split
    · exact hb
    · split
      · dsimp only
        split
        · exact hb.of_mem (by simp)
        · exact hb.of_mem (by simp)
      · dsimp only
        split
        · exact hb.of_mem (by simp)
        · exact hb.of_mem (by simp)
  · exact hb.of_mem (by simp)
  · exact hb

theorem execReplyWithData_lands {s : State} (h : Canonical s) (num : Nat) : Lands (execReplyWithData num s) := by
  unfold execReplyWithData
  split
  · split
    · trivial
    · split
      · trivial
      · exact h.of_mem (by simp)
    · trivial
  · split
    · trivial
    · split
      · trivial
      · split
        · dsimp only
          split
          · trivial
          · exact h.of_mem (by simp)
        · split
          · exact h.of_mem (by simp)
          · trivial
        · exact h.of_mem (by simp)
        · trivial

theorem execWrite_lands {s : State} (h : Canonical s) (num : Nat) (ecc : Bool) : Lands (execWrite num ecc s) := by
  refine requestEvent_lands h _ _ fun x b hb => ?_
  dsimp only
  split
  · exact storeAtHome_canonical (Canonical.ite (hb.of_mem (by simp)) hb) _
  · exact hb

theorem execAtomic_lands {s : State} (h : Canonical s) (num : Nat) : Lands (execAtomic num s) := by
  refine requestEvent_lands h _ _ fun x b hb => ?_
  split
  · exact amoAtHome_canonical hb ..
  · exact storeAtHome_canonical hb ..

theorem execDecideOnceRequest_lands {s : State} (h : Canonical s) (num : Nat) : Lands (execDecideOnceRequest num s) := by
  refine requestEvent_lands h _ _ fun x b hb => ?_
  split
  · split
    · next hp => exact (performOnce_canonical hb hp).of_mem (by simp)
    · exact hb
  · exact hb

theorem execOwnershipRequest_lands {s : State} (h : Canonical s) (num : Nat) : Lands (execOwnershipRequest num s) := by
  refine requestEvent_lands h _ _ fun x b hb => ?_
  split
  · split
    · exact hb
    · exact hb.of_mem (by simp)
  · exact hb

theorem execOwnershipRelease_lands {s : State} (h : Canonical s) (num : Nat) : Lands (execOwnershipRelease num s) := by
  refine requestEvent_lands h _ _ fun x b hb => ?_
  split
  · exact hb.of_mem (by simp)
  · exact hb

theorem execOwnershipGrant_lands {s : State} (h : Canonical s) (num : Nat) : Lands (execOwnershipGrant num s) := by
  refine replyEvent_lands h _ _ fun x b hb => ?_
  split
  · exact hb.of_mem (by simp)
  · exact hb

theorem execCorrectedError_lands {s : State} (h : Canonical s) (cube kind : Nat) :
    Lands (execCorrectedError cube kind s) := by
  refine cubeEvent_lands h _ fun b hb => ?_
  split
  · exact hb.of_mem (by simp)
  · exact hb

theorem execDeposit_lands {s : State} (h : Canonical s) (num : Nat) : Lands (execDeposit num s) := by
  refine requestEvent_lands h _ _ fun x b hb => ?_
  split
  · dsimp only
    split
    · exact hb.of_mem (by simp)
    · split
      · exact hb.of_mem (by simp)
      · exact hb.of_mem (by simp)
  · exact hb

theorem execMessage_lands {s : State} (h : Canonical s) (num : Nat) : Lands (execMessage num s) := by
  refine requestEvent_lands h _ _ fun x b hb => ?_
  split
  · split
    · exact hb.of_mem (by simp)
    · exact hb.of_mem (by simp)
  · exact hb

theorem execMulticastData_lands {s : State} (h : Canonical s) (num : Nat) : Lands (execMulticastData num s) := by
  refine requestEvent_lands h _ _ fun x b hb => ?_
  dsimp only
  split
  · split
    · next hw => exact (homeWrite_canonical hb hw).of_mem (by simp)
    · exact hb
    · exact hb.of_mem (by simp)
    · exact hb.of_mem (by simp)
  · exact hb

theorem execAcknowledgement_lands {s : State} (h : Canonical s) (num : Nat) : Lands (execAcknowledgement num s) := by
  refine replyEvent_lands h _ _ fun x b hb => ?_
  split
  · exact hb.of_mem (by simp)
  · exact hb.of_mem (by simp)
  · exact hb

theorem execNack_lands {s : State} (h : Canonical s) (num : Nat) : Lands (execNack num s) := by
  unfold execNack
  split
  · trivial
  · split
    · dsimp only
      split
      · exact h.of_mem (by simp)
      · split
        · exact h.of_mem (by simp)
        · split
          · exact h.of_mem (by simp)
          · split
            · exact h.of_mem (by simp)
            · split
              · exact h.of_mem (by simp)
              · exact h.of_mem (by simp)
    · trivial

theorem execAdmissionReply_lands {s : State} (h : Canonical s) (num : Nat) : Lands (execAdmissionReply num s) := by
  refine replyEvent_lands h _ _ fun x b hb => ?_
  split
  · exact hb.of_mem (by simp)
  · exact hb

theorem execReductionContribution_lands {s : State} (h : Canonical s) (num : Nat) :
    Lands (execReductionContribution num s) := by
  refine requestEvent_lands h _ _ fun x b hb => ?_
  split
  · exact hb.of_mem (by simp)
  · exact hb.of_mem (by simp)
  · exact hb

theorem execBarrierContribution_lands {s : State} (h : Canonical s) (num : Nat) :
    Lands (execBarrierContribution num s) := by
  refine requestEvent_lands h _ _ fun x b hb => ?_
  split
  · dsimp only
    split
    · split
      · exact hb.of_mem (by simp)
      · exact hb.of_mem (by simp)
    · exact hb.of_mem (by simp)
  · exact hb

theorem execBarrierRelease_lands {s : State} (h : Canonical s) (cube group : Nat) :
    Lands (execBarrierRelease cube group s) :=
  cubeEvent_lands h _ fun _ hb => hb.of_mem (by simp)

theorem execBarrierReleaseMulticast_lands {s : State} (h : Canonical s) (num : Nat) :
    Lands (execBarrierReleaseMulticast num s) := by
  refine requestEvent_lands h _ _ fun x b hb => ?_
  split
  · dsimp only
    split
    · exact hb.of_mem (by simp)
    · exact hb.of_mem (by simp)
  · exact hb

theorem execRetryTimeout_lands {s : State} (h : Canonical s) (num : Nat) : Lands (execRetryTimeout num s) := by
  unfold execRetryTimeout
  dsimp only
  split
  · split
    · split
      · trivial
      · split
        · exact h.of_mem (by simp)
        · split
          · exact h.of_mem (by simp)
          · exact h.of_mem (by simp)
    · split
      · trivial
      · split
        · exact h.of_mem (by simp)
        · split
          · exact h.of_mem (by simp)
          · exact h.of_mem (by simp)
  · split
    · split
      · trivial
      · split
        · exact h.of_mem (by simp)
        · trivial
    · split
      · split
        · trivial
        · split
          · exact h.of_mem (by simp)
          · trivial
      · trivial

theorem execRequestRemap_lands {s : State} (h : Canonical s) (num : Nat) : Lands (execRequestRemap num s) := by
  unfold execRequestRemap
  split
  · trivial
  · split
    · trivial
    · dsimp only
      split
      · trivial
      · split
        · trivial
        · split
          · trivial
          · split
            · exact h.of_mem (by simp)
            · split
              · exact h.of_mem (by simp)
              · split
                · exact h.of_mem (by simp)
                · split
                  · exact h.of_mem (by simp)
                  · split
                    · exact h.of_mem (by simp)
                    · exact h.of_mem (by simp)

theorem execMapInstall_lands {s : State} (h : Canonical s) (cube : Nat) (m : InterleaveMap) :
    Lands (execMapInstall cube m s) := by
  refine cubeEvent_lands h _ fun b hb => ?_
  split
  · exact hb.of_mem (by simp)
  · exact hb

theorem execReplaceInterleaveMap_lands {s : State} (h : Canonical s) (cube : Nat) (m : InterleaveMap) :
    Lands (execReplaceInterleaveMap cube m s) := by
  refine stoveCommand_lands h _ _ _ fun b t hb ht => ?_
  obtain ⟨-, ht⟩ := Option.ite_none_right_eq_some.mp ht
  cases ht
  exact hb.of_mem (by simp)

theorem execRemoveCube_lands {s : State} (h : Canonical s) (cube : Nat) (m : InterleaveMap) :
    Lands (execRemoveCube cube m s) := by
  refine cubeEvent_lands h _ fun b hb => ?_
  dsimp only
  split
  · exact hb
  · split
    · exact hb.of_mem (by simp)
    · exact hb.of_mem (by simp)

theorem execSetRetryTime_lands {s : State} (h : Canonical s) (cube cycles : Nat) :
    Lands (execSetRetryTime cube cycles s) := by
  refine stoveCommand_lands h _ _ _ fun b t hb ht => ?_
  obtain ⟨-, ht⟩ := Option.ite_none_right_eq_some.mp ht
  cases ht
  exact hb.of_mem (by simp)

/-! ### Events of a core -/

theorem execFetchGrant_lands {s : State} (h : Canonical s) (core : Nat) : Lands (execFetchGrant core s) := by
  refine coreEvent_lands h _ fun b hb => ?_
  split
  · exact hb
  · split
    · exact hb
    · exact hb.of_mem (by simp)

theorem execForwardedInstruction_lands {s : State} (h : Canonical s) (core : Nat) :
    Lands (execForwardedInstruction core s) := by
  refine coreEvent_lands h _ fun b hb => ?_
  split
  · exact hb.of_mem (by simp)
  · exact hb

theorem execWaitWakeup_lands {s : State} (h : Canonical s) (core : Nat) : Lands (execWaitWakeup core s) := by
  refine coreEvent_lands h _ fun b hb => ?_
  split
  · exact hb.of_mem (by simp)
  · exact hb

theorem execPollRetest_lands {s : State} (h : Canonical s) (core : Nat) : Lands (execPollRetest core s) := by
  refine coreEvent_lands h _ fun b hb => ?_
  split
  · exact hb.of_mem (by simp)
  · exact hb

theorem execContextSave_lands {s : State} (h : Canonical s) (core : Nat) : Lands (execContextSave core s) := by
  refine coreEvent_lands h _ fun b hb => ?_
  split
  · split
    · exact hb.of_mem (by simp)
    · exact hb
  · exact hb

theorem execQuantumExpiry_lands {s : State} (h : Canonical s) (core : Nat) : Lands (execQuantumExpiry core s) := by
  refine coreEvent_lands h _ fun b hb => ?_
  dsimp only
  split
  · exact hb
  · split
    · exact hb.of_mem (by simp)
    · split
      · exact hb
      · exact hb.of_mem (by simp)

theorem execInterrupt_lands {s : State} (h : Canonical s) (core : Nat) : Lands (execInterrupt core s) := by
  refine coreEvent_lands h _ fun b hb => ?_
  split
  · exact hb
  · split
    · exact hb
    · dsimp only
      split
      · split
        · exact hb.of_mem (by simp)
        · exact hb.of_mem (by simp)
      · exact hb.of_mem (by simp)
      · exact hb.of_mem (by simp)
      · exact hb.of_mem (by simp)

theorem execGraphBusyRefusal_lands {s : State} (h : Canonical s) (core : Nat) : Lands (execGraphBusyRefusal core s) := by
  refine coreEvent_lands h _ fun b hb => ?_
  split
  · exact hb.of_mem (by simp)
  · exact hb

theorem execTrapEntry_lands {s : State} (h : Canonical s) (core : Nat) (t : TrapReport) :
    Lands (execTrapEntry core t s) := by
  refine coreEvent_lands h _ fun b hb => ?_
  split
  · exact hb.of_mem (by simp)
  · exact hb

theorem execContextReturn_lands {s : State} (h : Canonical s) (tid core : Nat) : Lands (execContextReturn tid core s) :=
  coreEvent_lands h _ fun _ hb => hb.of_mem (by simp)

theorem execFaultService_lands {s : State} (h : Canonical s) (tid : Nat) : Lands (execFaultService tid s) := by
  unfold execFaultService
  split
  · trivial
  · split
    · trivial
    · dsimp only
      split
      · exact h.of_mem (by simp)
      · exact h.of_mem (by simp)

theorem execTrapReflection_lands {s : State} (h : Canonical s) (tid : Nat) : Lands (execTrapReflection tid s) := by
  unfold execTrapReflection
  split
  · trivial
  · split
    · trivial
    · change Canonical _
      split
      · exact h
      · exact reflectTrap_canonical h ..

theorem execMigrationContext_lands {s : State} (h : Canonical s) (num : Nat) : Lands (execMigrationContext num s) := by
  refine requestEvent_lands h _ _ fun x b hb => ?_
  split
  · dsimp only
    split
    · exact hb.of_mem (by simp)
    · exact hb.of_mem (by simp)
  · exact hb

theorem execMigrateRetry_lands {s : State} (h : Canonical s) (core : Nat) : Lands (execMigrateRetry core s) := by
  refine coreEvent_lands h _ fun b hb => ?_
  split
  · exact hb.of_mem (by simp)
  · exact hb

theorem execMatrixFormStart_lands {s : State} (h : Canonical s) (core : Nat) : Lands (execMatrixFormStart core s) := by
  refine coreEvent_lands h _ fun b hb => ?_
  split
  · exact hb.of_mem (by simp)
  · exact hb

theorem execGissueJointIssue_lands {s : State} (h : Canonical s) (core : Nat) : Lands (execGissueJointIssue core s) := by
  refine coreEvent_lands h _ fun b hb => ?_
  split
  · exact hb.of_mem (by simp)
  · exact hb

theorem execMatrixFormComplete_lands {s : State} (h : Canonical s) (core : Nat) :
    Lands (execMatrixFormComplete core s) :=
  coreEvent_lands h _ fun _ hb => hb.of_mem (by simp)

theorem execCopyCommandStart_lands {s : State} (h : Canonical s) (core : Nat) : Lands (execCopyCommandStart core s) := by
  refine coreEvent_lands h _ fun b hb => ?_
  dsimp only
  split
  · split
    · exact hb.of_mem (by simp)
    · exact hb.of_mem (by simp)
  · exact hb.of_mem (by simp)

theorem execCopyCommandComplete_lands {s : State} (h : Canonical s) (core : Nat) :
    Lands (execCopyCommandComplete core s) :=
  coreEvent_lands h _ fun _ hb => hb.of_mem (by simp)

theorem execFlueEntryStart_lands {s : State} (h : Canonical s) (core : Nat) : Lands (execFlueEntryStart core s) := by
  refine coreEvent_lands h _ fun b hb => ?_
  split
  · exact flueStart_canonical hb ..
  · exact hb

theorem execStreamToken_lands {s : State} (h : Canonical s) (cube flue stream : Nat) :
    Lands (execStreamToken cube flue stream s) := by
  refine cubeEvent_lands h _ fun b hb => ?_
  split
  · exact streamToken_canonical hb ..
  · exact hb

theorem execCellFire_lands {s : State} (h : Canonical s) (cube flue cell : Nat) :
    Lands (execCellFire cube flue cell s) := by
  refine cubeEvent_lands h _ fun b hb => ?_
  split
  · exact hb.of_mem (by simp)
  · exact hb

theorem execKernelFinish_lands {s : State} (h : Canonical s) (cube flue : Nat) : Lands (execKernelFinish cube flue s) := by
  refine cubeEvent_lands h _ fun b hb => ?_
  split
  · exact hb.of_mem (by simp)
  · exact hb

theorem execTranslation_lands {s : State} (h : Canonical s) (core : Nat) (seg : BitVec 16) (off : Word)
    (k : AccessKind) : Lands (execTranslation core seg off k s) := by
  refine coreEvent_lands h _ fun b hb => ?_
  split
  · split
    · exact hb
    · exact hb.of_mem (by simp)
  · exact hb

theorem execPageTableWalk_lands {s : State} (h : Canonical s) (core : Nat) (seg : BitVec 16) (off : Word) :
    Lands (execPageTableWalk core seg off s) := by
  refine coreEvent_lands h _ fun b hb => ?_
  split
  · exact hb
  · split
    · exact hb
    · split
      · exact hb.of_mem (by simp)
      · exact hb

theorem execCheckpointCommit_lands {s : State} (h : Canonical s) (cube gang : Nat) :
    Lands (execCheckpointCommit cube gang s) := by
  refine cubeEvent_lands h _ fun b hb => ?_
  split
  · exact hb
  · exact Canonical.ite hb ((commitCkpts_canonical hb ..).of_mem (settle_mem ..))

theorem rolledBack_canonical {s : State} (h : Canonical s) : Canonical ((rollbackStep s).getD s) := by
  cases hr : rollbackStep s with
  | none => exact h
  | some t => exact rollbackStep_canonical h hr

theorem execCoreUncorrectable_lands {s : State} (h : Canonical s) (core : Nat) : Lands (execCoreUncorrectable core s) := by
  refine coreEvent_lands h _ fun b hb => Canonical.ite hb (rolledBack_canonical ?_)
  exact hb.of_mem (by simp [apply_ite State.mem])

theorem execMarkSpareCore_lands {s : State} (h : Canonical s) (core : Nat) : Lands (execMarkSpareCore core s) :=
  stoveCoreCommand_lands h _ _ _ fun _ hb => Canonical.ite hb (rolledBack_canonical hb)

theorem execPreempt_lands {s : State} (h : Canonical s) (cube gang : Nat) : Lands (execPreempt cube gang s) := by
  refine stoveCommand_lands h _ _ _ fun b t hb ht => ?_
  cases ht
  exact hb.of_mem (by simp)

theorem execStopThread_lands {s : State} (h : Canonical s) (core : Nat) : Lands (execStopThread core s) := by
  refine stoveCoreCommand_lands h _ _ _ fun b hb => ?_
  split
  · exact hb.of_mem (by simp)
  · exact hb

theorem execStepThread_lands {s : State} (h : Canonical s) (core : Nat) : Lands (execStepThread core s) :=
  stoveCoreCommand_lands h _ _ _ fun _ hb => hb.of_mem (by simp)

theorem execResumeThread_lands {s : State} (h : Canonical s) (core : Nat) : Lands (execResumeThread core s) :=
  stoveCoreCommand_lands h _ _ _ fun _ hb => hb.of_mem (by simp)

theorem execClearPerformanceCounters_lands {s : State} (h : Canonical s) (core : Nat) :
    Lands (execClearPerformanceCounters core s) :=
  stoveCoreCommand_lands h _ _ _ fun _ hb => hb.of_mem (by simp)

/-! ### Events of a cube -/

theorem execTaskPacket_lands {s : State} (h : Canonical s) (num : Nat) : Lands (execTaskPacket num s) := by
  refine requestEvent_lands h _ _ fun x b hb => ?_
  split
  · exact hb.of_mem (by simp)
  · exact hb

theorem execPifoAdmission_lands {s : State} (h : Canonical s) (cube : Nat) : Lands (execPifoAdmission cube s) := by
  refine cubeEvent_lands h _ fun b hb => ?_
  dsimp only
  split
  · exact hb.of_mem (by simp)
  · split
    · exact hb
    · split
      · exact hb.of_mem (by simp)
      · exact hb.of_mem (by simp)

theorem execDispatch_lands {s : State} (h : Canonical s) (cube h0 k0 : Nat) : Lands (execDispatch cube h0 k0 s) := by
  refine cubeEvent_lands h _ fun b hb => ?_
  dsimp only
  split
  · exact hb
  · refine Canonical.ite hb ?_
    split
    · next ht => exact (placeHead_canonical (hb.of_mem (by simp)) ht).of_mem (by simp)
    · exact hb
    · exact hb.of_mem (by simp)

theorem execNodeCompletion_lands {s : State} (h : Canonical s) (cube : Nat) : Lands (execNodeCompletion cube s) := by
  refine cubeEvent_lands h _ fun b hb => ?_
  cases hg : endedGang b cube with
  | none => exact walkerStep_canonical hb _
  | some t => exact endedGang_canonical hb hg

theorem execRefinementExit_lands {s : State} (h : Canonical s) (cube run : Nat) :
    Lands (execRefinementExit cube run s) := by
  refine cubeEvent_lands h _ fun b hb => ?_
  split
  · exact exitRun_canonical hb ..
  · exact hb

theorem execInstallRankProgram_lands {s : State} (h : Canonical s) (cube : Nat) (words : List (BitVec 32)) :
    Lands (execInstallRankProgram cube words s) := by
  refine stoveCommand_lands h _ _ _ fun b t hb ht => ?_
  obtain ⟨-, ht⟩ := Option.ite_none_right_eq_some.mp ht
  cases ht
  exact hb.of_mem (by simp)

theorem execSetQuantum_lands {s : State} (h : Canonical s) (cube quantum : Nat) :
    Lands (execSetQuantum cube quantum s) := by
  refine stoveCommand_lands h _ _ _ fun b t hb ht => ?_
  obtain ⟨-, ht⟩ := Option.ite_none_right_eq_some.mp ht
  cases ht
  exact hb.of_mem (by simp)

theorem execWithdrawPacket_lands {s : State} (h : Canonical s) (cube arrival : Nat) :
    Lands (execWithdrawPacket cube arrival s) := by
  refine stoveCommand_lands h _ _ _ fun b t hb ht => ?_
  dsimp only at ht
  split at ht
  · cases ht; exact hb.of_mem (by simp)
  · split at ht <;> cases ht
    exact hb.of_mem (by simp)

theorem execSetPowerLimit_lands {s : State} (h : Canonical s) (cube watts : Nat) :
    Lands (execSetPowerLimit cube watts s) := by
  refine stoveCommand_lands h _ _ _ fun b t hb ht => ?_
  obtain ⟨-, ht⟩ := Option.ite_none_right_eq_some.mp ht
  cases ht
  exact hb.of_mem (by simp)

theorem execWriteSegmentDescriptor_lands {s : State} (h : Canonical s) (cube : Nat) (asid seg : BitVec 16)
    (desc : BitVec 128) : Lands (execWriteSegmentDescriptor cube asid seg desc s) := by
  refine stoveCommand_lands h _ _ _ fun b t hb ht => ?_
  dsimp only at ht
  split at ht <;> cases ht
  exact hb.of_mem (by simp)

theorem execWritePageTableEntry_lands {s : State} (h : Canonical s) (addr : Nat) (v : BitVec 64) :
    Lands (execWritePageTableEntry addr v s) := by
  unfold execWritePageTableEntry
  refine cubeEvent_lands h _ fun b hb => ?_
  have refused : Canonical (answerCommand b (addr / 2 ^ 47) 2 0x0201 0x62) := hb.of_mem (by simp)
  refine Canonical.ite hb (Canonical.ite refused ?_)
  split
  · exact refused
  · refine Canonical.ite refused ?_
    split
    · next hw => exact (homeWrite_canonical hb hw).of_mem (by simp)
    · exact hb
    · exact refused

theorem execBumpAsidGeneration_lands {s : State} (h : Canonical s) (cube : Nat) (asid : BitVec 16)
    (reflect : Bool) : Lands (execBumpAsidGeneration cube asid reflect s) := by
  refine cubeEvent_lands h _ fun b hb => ?_
  dsimp only
  split
  · exact hb
  · exact hb.of_mem (by simp)

theorem execWriteTrapTableEntry_lands {s : State} (h : Canonical s) (cube : Nat) (asid : BitVec 16)
    (entry : BitVec 256) : Lands (execWriteTrapTableEntry cube asid entry s) := by
  refine stoveCommand_lands h _ _ _ fun b t hb ht => ?_
  obtain ⟨-, ht⟩ := Option.ite_none_left_eq_some.mp ht
  cases ht
  exact hb.of_mem (by simp)

theorem execRetireFlue_lands {s : State} (h : Canonical s) (cube flue : Nat) : Lands (execRetireFlue cube flue s) := by
  refine cubeEvent_lands h _ fun b hb => ?_
  dsimp only
  split
  · exact hb
  · split
    · exact hb.of_mem (by simp)
    · split
      · exact hb.of_mem (by simp)
      · split
        · exact hb
        · split
          · exact hb.of_mem (by simp)
          · split
            · exact hb.of_mem (by simp)
            · exact hb

theorem execRefresh_lands {s : State} (h : Canonical s) (cube flue bank : Nat) : Lands (execRefresh cube flue bank s) := by
  refine cubeEvent_lands h _ fun b hb => ?_
  split
  · exact hb
  · dsimp only
    split
    · exact hb.of_mem (by simp)
    · exact hb.of_mem (by simp)

theorem execRefreshEnd_lands {s : State} (h : Canonical s) (cube flue bank : Nat) :
    Lands (execRefreshEnd cube flue bank s) := by
  refine cubeEvent_lands h _ fun b hb => ?_
  split
  · exact hb
  · dsimp only
    split
    · exact hb.of_mem (by simp)
    · exact hb.of_mem (by simp)

theorem execRefreshRateChange_lands {s : State} (h : Canonical s) (cube : Nat) (hot : Bool) :
    Lands (execRefreshRateChange cube hot s) :=
  cubeEvent_lands h _ fun _ hb => hb.of_mem (by simp)

theorem execCxlMemRequest_lands {s : State} (h : Canonical s) (cube : Nat) (r : HostRequest) :
    Lands (execCxlMemRequest cube r s) := by
  refine cubeEvent_lands h _ fun b hb => Canonical.ite hb ?_
  match r with
  | .read a n => exact Canonical.ite (hb.of_mem (by simp)) hb
  | .write a bs =>
    refine Canonical.ite ?_ hb
    cases hw : hostWrites cube (hostAtoms (bs.length + 1) a bs) b with
    | none => exact hb
    | some t => exact hostWrites_canonical hb hw

theorem execBackinvResponse_lands {s : State} (h : Canonical s) (cube atom : Nat) :
    Lands (execBackinvResponse cube atom s) :=
  cubeEvent_lands h _ fun _ hb => hb.of_mem (by simp)

theorem execBackinvTimeout_lands {s : State} (h : Canonical s) (cube atom : Nat) :
    Lands (execBackinvTimeout cube atom s) := by
  refine cubeEvent_lands h _ fun b hb => ?_
  split
  · exact hb.of_mem (by simp)
  · exact hb

theorem execDoorbell_lands {s : State} (h : Canonical s) (cube : Nat) (v : BitVec 64) : Lands (execDoorbell cube v s) := by
  refine cubeEvent_lands h _ fun b hb => ?_
  dsimp only
  split
  · exact hb
  · split
    · exact hb.of_mem (by simp)
    · exact hb.of_mem (by simp)

theorem execRegisterWrite_lands {s : State} (h : Canonical s) (cube : Nat) (r : WindowReg) (v : BitVec 64) :
    Lands (execRegisterWrite cube r v s) := by
  refine cubeEvent_lands h _ fun b hb => ?_
  dsimp only
  split
  · split
    · exact hb
    · exact hb.of_mem (by simp)
  · split
    · exact hb
    · exact hb.of_mem (by simp)
  · split
    · exact hb
    · exact hb.of_mem (by simp)
  · split
    · exact hb.of_mem (by simp)
    · exact hb
  · exact hb
  · exact hb
  · exact hb
  · exact hb
  · exact hb

theorem execCoreClockCycle_lands {s : State} (h : Canonical s) (cube : Nat) : Lands (execCoreClockCycle cube s) :=
  cubeEvent_lands h _ fun _ hb => hb.of_mem (by simp)

theorem execThermalClamp_lands {s : State} (h : Canonical s) (cube : Nat) : Lands (execThermalClamp cube s) :=
  cubeEvent_lands h _ fun _ hb => hb.of_mem (by simp)

theorem execThermalClampEnd_lands {s : State} (h : Canonical s) (cube : Nat) : Lands (execThermalClampEnd cube s) :=
  cubeEvent_lands h _ fun _ hb => hb.of_mem (by simp)

theorem execCubeThermalTrip_lands {s : State} (h : Canonical s) (cube : Nat) : Lands (execCubeThermalTrip cube s) :=
  cubeEvent_lands h _ fun _ hb => hb.of_mem (by simp)

theorem execAttestationReport_lands {s : State} (h : Canonical s) (cube : Nat) (nonce : BitVec 256) :
    Lands (execAttestationReport cube nonce s) := by
  refine stoveCommand_lands h _ _ _ fun b t hb ht => ?_
  cases ht
  exact hb.of_mem (by simp)

theorem execPowerOnReset_lands {s : State} (h : Canonical s) (cube : Nat) (b : BootFlash) :
    Lands (execPowerOnReset cube b s) := by
  have held := holdCube_canonical (h.of_mem (State.focus_mem s (cube * 256))) cube
  unfold execPowerOnReset
  refine Lands.ite trivial (Lands.ite (held.of_mem (by simp)) (Lands.ite (held.of_mem (by simp)) ?_))
  exact Lands.ite (held.of_mem (by simp)) (Canonical.ite (held.of_mem (by simp)) (held.of_mem (by simp)))

theorem execRecoveryImageSupply_lands {s : State} (h : Canonical s) (cube : Nat) (image : FirmwareImage) :
    Lands (execRecoveryImageSupply cube image s) := by
  refine cubeEvent_lands h _ fun b hb => ?_
  split
  · exact hb
  · exact hb.of_mem (by simp)

theorem writeAit_lands {s : State} (h : Canonical s) (cube : Nat) (v : BitVec 16) : Lands (writeAit cube v s) := by
  refine cubeEvent_lands h _ fun b hb => ?_
  split
  · exact hb
  · exact hb.of_mem (by simp)

theorem clearError_lands {s : State} (h : Canonical s) (cube k : Nat) : Lands (clearError cube k s) := by
  refine cubeEvent_lands h _ fun b hb => ?_
  split
  · exact hb
  · exact hb.of_mem (by simp)

theorem writeAtom_lands {s : State} (h : Canonical s) (atom : Nat) (v : BitVec 256) : Lands (writeAtom atom v s) := by
  unfold writeAtom
  refine cubeEvent_lands h _ fun b hb => ?_
  refine Canonical.ite hb ?_
  split
  · exact hb
  · split
    · next hw => exact homeWrite_canonical hb hw
    · exact hb

theorem setExpander_lands {s : State} (h : Canonical s) (cube port : Nat) (on : Bool) :
    Lands (setExpander cube port on s) :=
  cubeEvent_lands h _ fun _ hb => hb.of_mem (by simp)

theorem dropHearthLine_lands {s : State} (h : Canonical s) (cube hearth addr : Nat) :
    Lands (dropHearthLine cube hearth addr s) :=
  cubeEvent_lands h _ fun _ hb => hb.of_mem (by simp)

theorem takeNotice_lands {s : State} (h : Canonical s) (cube core : Nat) : Lands (takeNotice cube core s) :=
  cubeEvent_lands h _ fun _ hb => hb.of_mem (by simp)

theorem createPacket_lands {s : State} (h : Canonical s) (cube : Nat) (p : BitVec 1024) :
    Lands (createPacket cube p s) := by
  refine cubeEvent_lands h _ fun b hb => ?_
  split
  · exact hb
  · split
    · exact hb
    · dsimp only
      split
      · exact hb
      · exact hb.of_mem (by simp)

end Sys2Proof.Machine
end

