-- ==== Sys2Proof/Proofs/CanonicalStep.lean ====
section
/-! The proof of O46: an instruction, an action, a turn and a step keep the canonical form of memory. -/

namespace Sys2Proof.Machine

open Sys2Proof Sys2Proof.Safety

/-! ### Instructions and actions -/

/-- Each instruction and each event lands well: its body ends well, or its event does. -/
theorem exec_lands {s : State} (h : Canonical s) : (i : Instr) → Lands (exec i s)
  | .add _ | .sub _ | .adds _ | .subs _ | .min _ | .max _ | .minu _ | .maxu _ | .and _ | .or _ | .xor _
    | .andn _ | .sll _ | .srl _ | .sra _ | .rol _ | .ceq _ | .cne _ | .clt _ | .cltu _ =>
      issue_lands _ _ (scalarTwo_ends h ..)
  | .sel _ => issue_lands _ _ (selBody_ends h ..)
  | .clz _ | .ctz _ | .popc _ => issue_lands _ _ (scalarOne_ends h ..)
  | .mul _ | .mulh _ | .mulhu _ | .div _ | .divu _ | .rem _ | .remu _ => issue_lands _ _ (scalarTwo_ends h ..)
  | .padd _ | .psub _ | .padds _ | .psubs _ | .pmul _ | .pmin _ | .pmax _ | .pavg _ =>
      issue_lands _ _ (packed_ends h ..)
  | .addi _ | .andi _ | .ori _ | .xori _ => issue_lands _ _ (immForm_ends h ..)
  | .li _ => issue_lands _ _ (liBody_ends h ..)
  | .slli _ | .srli _ | .srai _ | .clti _ | .cltui _ | .ceqi _ => issue_lands _ _ (immForm_ends h ..)
  | .lipc _ => issue_lands _ _ (lipcBody_ends h ..)
  | .b _ => issueTo_lands _ (bBody_ends h ..)
  | .bCond _ _ => issueTo_lands _ (bCondBody_ends h ..)
  | .call _ => issueTo_lands _ (callBody_ends h ..)
  | .callCond _ _ => issueTo_lands _ (callCondBody_ends h ..)
  | .ret _ => issueTo_lands _ (retBody_ends h ..)
  | .yield _ => finish_lands (yieldBody_ends h ..)
  | .halt _ => finish_lands (haltBody_ends h ..)
  | .trap _ => finish_lands (trapBody_ends h ..)
  | .follow _ => issue_lands _ _ (followBody_ends h ..)
  | .detach _ => issue_lands _ _ (detachBody_ends h ..)
  | .rejoin _ => issue_lands _ _ (rejoinBody_ends h ..)
  | .rfe _ => issueTo_lands _ (rfeBody_ends h ..)
  | .srd _ => issue_lands _ _ (srdBody_ends h ..)
  | .swr _ => issue_lands _ _ (swrBody_ends h ..)
  | .lpad _ => issue_lands (body := .ok) _ _ h
  | .jt _ => issueTo_lands _ (jtBody_ends h ..)
  | .rep _ _ _ => issueTo_lands _ (repBody_ends h ..)
  | .repg _ _ _ => issueTo_lands _ (repgBody_ends h ..)
  | .vaddI32 _ | .vsubI32 _ | .vaddsI32 _ | .vsubsI32 _ | .vminI32 _ | .vmaxI32 _ | .vmulI32 _ | .vmulhI32 _
    | .vand _ | .vor _ | .vxor _ | .vandn _ | .vsll _ | .vsrl _ | .vsra _ => issue_lands _ _ (vectorTwo_ends h ..)
  | .vsel _ => issue_lands _ _ (vselBody_ends h ..)
  | .vaddF32 _ | .vsubF32 _ | .vmulF32 _ => issue_lands _ _ (vectorTwo_ends h ..)
  | .vfmaF32 _ | .vfmsF32 _ => issue_lands _ _ (vectorAcc_ends h ..)
  | .vminF32 _ | .vmaxF32 _ | .vdivF32 _ | .vaddF64 _ | .vsubF64 _ | .vmulF64 _ => issue_lands _ _ (vectorTwo_ends h ..)
  | .vfmaF64 _ | .vfmsF64 _ => issue_lands _ _ (vectorAcc_ends h ..)
  | .vminF64 _ | .vmaxF64 _ | .vdivF64 _ => issue_lands _ _ (vectorTwo_ends h ..)
  | .vceqF32 _ | .vcltF32 _ | .vcleF32 _ | .vcunF32 _ | .vceqI32 _ | .vcltI32 _ | .vcltuI32 _ | .vcleI32 _ =>
      issue_lands _ _ (vectorCmp_ends h ..)
  | .mand _ | .mor _ | .mxor _ | .mandn _ => issue_lands _ _ (maskTwo_ends h ..)
  | .mpop _ => issue_lands _ _ (maskToScalar_ends h ..)
  | .mffs _ => issue_lands _ _ (mffsBody_ends h ..)
  | .mset _ => issue_lands _ _ (msetBody_ends h ..)
  | .mget _ => issue_lands _ _ (maskToScalar_ends h ..)
  | .vperm _ => issue_lands _ _ (vectorTwo_ends h ..)
  | .vshuf _ => issue_lands _ _ (vshufBody_ends h ..)
  | .vrsumF32 _ | .vrmaxF32 _ | .vrminF32 _ | .vrsumF64 _ | .vrsumI32 _ | .vrmaxI32 _ | .vrminI32 _ | .vmov _ =>
      issue_lands _ _ (vectorOne_ends h ..)
  | .vxget _ => issue_lands _ _ (vxgetBody_ends h ..)
  | .vxput _ => issue_lands _ _ (vxputBody_ends h ..)
  | .vins _ => issue_lands _ _ (vinsBody_ends h ..)
  | .vext _ => issue_lands _ _ (vextBody_ends h ..)
  | .vbcast _ => issue_lands _ _ (vbcastBody_ends h ..)
  | .vcvtF32I32 _ | .vcvtI32F32 _ | .vcvtF64F32 _ | .vcvtF32F64 _ | .vcvtBf16F32 _ | .vcvtF32Bf16 _
    | .vcvtF16F32 _ | .vcvtF32F16 _ => issue_lands _ _ (vcvt_ends h ..)
  | .vpkSx2 _ | .vpkSx4 _ | .vpkSx7 _ => issue_lands _ _ (vpk_ends h ..)
  | .vupkSx2 _ | .vupkSx4 _ | .vupkSx7 _ => issue_lands _ _ (vupk_ends h ..)
  | .vexp2 _ | .vrcp _ | .vrsqrt _ | .vlog2 _ => issue_lands _ _ (vectorOne_ends h ..)
  | .tcfg _ => issue_lands _ _ (tileForm_ends h ..)
  | .trowin _ | .trowout _ | .tcolin _ | .tcolout _ => issue_lands _ _ (transfer_ends h ..)
  | .tzero _ | .tfree _ | .tld _ | .tst _ | .tmmaBf16 _ | .tmmaSx7 _ | .tmmaSx4 _ | .tmmaSx2 _
    | .gissueBf16 _ | .gissueSx7 _ | .gissueSx4 _ | .gissueSx2 _ | .taccrd _ | .taccwr _ | .tacczero _ =>
      issue_lands _ _ (tileForm_ends h ..)
  | .ldI8 _ | .ldN8 _ | .ldI16 _ | .ldN16 _ | .ldI32 _ | .ldN32 _ | .ld64 _ => issue_lands _ _ (ld_ends h ..)
  | .st8 _ | .st16 _ | .st32 _ | .st64 _ => issue_lands _ _ (st_ends h ..)
  | .vld _ => issue_lands _ _ (vld_ends h ..)
  | .vst _ => issue_lands _ _ (vst_ends h ..)
  | .vldm _ => issue_lands _ _ (vld_ends h ..)
  | .vstm _ => issue_lands _ _ (vst_ends h ..)
  | .vlds _ => issue_lands _ _ (vlds_ends h ..)
  | .vsts _ => issue_lands _ _ (vsts_ends h ..)
  | .vgath _ => issue_lands _ _ (vgath_ends h ..)
  | .vscat _ => issue_lands _ _ (vscat_ends h ..)
  | .pref _ => issue_lands _ _ (pref_ends h ..)
  | .migrate _ => finish_lands (migrateBody_ends h ..)
  | .mapr _ => issue_lands _ _ (mapr_ends h ..)
  | .unmapr _ => issue_lands _ _ (unmapr_ends h ..)
  | .fence _ => issue_lands _ _ (fence_ends h ..)
  | .lda32 _ | .lda64 _ => issue_lands _ _ (lda_ends h ..)
  | .stl32 _ | .stl64 _ => issue_lands _ _ (stl_ends h ..)
  | .amoadd64 _ | .amoand64 _ | .amoor64 _ | .amoxor64 _ | .amomin64 _ | .amomax64 _ | .amoswap64 _
    | .amocas64 _ | .amoadd32 _ | .amoand32 _ | .amoor32 _ | .amoxor32 _ | .amomin32 _ | .amomax32 _
    | .amoswap32 _ | .amocas32 _ => issue_lands _ _ (amo_ends h ..)
  | .vamoAdd _ | .vamoAnd _ | .vamoOr _ | .vamoXor _ | .vamoMin _ | .vamoMax _ | .vamoFadd _ =>
      issue_lands _ _ (vamo_ends h ..)
  | .cpy _ | .cpym _ | .cpyf _ => issue_lands _ _ (cpyForm_ends h ..)
  | .propose _ | .dread _ | .dretire _ | .dinit _ => issue_lands _ _ (onceForm_ends h ..)
  | .fcfg _ | .fstart _ | .fstop _ | .fstat _ => issue_lands _ _ (flueForm_ends h ..)
  | .spawn f =>
      issue_lands (body := fun s => waitUncounted s (spawnBody f s)) _ _
      (waitUncounted_ends s (spawnBody_ends h f))
  | .send f =>
      issue_lands (body := fun s => waitUncounted s (sendBody f s)) _ _
      (waitUncounted_ends s (sendBody_ends h f))
  | .recv _ => issue_lands _ _ (recvBody_ends h ..)
  | .msgwait _ => issue_lands _ _ (msgwaitBody_ends h ..)
  | .fork _ => issue_lands _ _ (forkBody_ends h ..)
  | .rdv _ => issue_lands _ _ (rdvBody_ends h ..)
  | .glaunch _ => issue_lands _ _ (glaunchBody_ends h ..)
  | .nred _ => issue_lands _ _ (nredBody_ends h ..)
  | .dep _ => issue_lands _ _ (depBody_ends h ..)
  | .mbclr _ => issue_lands _ _ (mbclrBody_ends h ..)
  | .arrive _ => finish_lands (arriveBody_ends h ..)
  | .arrw _ => issue_lands _ _ (arrwBody_ends h ..)
  | .waitb _ => issue_lands _ _ (waitbBody_ends h ..)
  | .join _ => issue_lands _ _ (joinBody_ends h ..)
  | .leave _ => finish_lands (leaveBody_ends h ..)
  | .dswait _ => issue_lands _ _ (dswaitBody_ends h ..)
  | .dsset _ => issue_lands _ _ (dssetBody_ends h ..)
  | .cntrd _ => issue_lands _ _ (cntrdBody_ends h ..)
  | .cntadd _ => finish_lands (cntaddBody_ends h ..)
  | .rlaunch _ => issue_lands _ _ (rlaunchBody_ends h ..)
  | .rstat _ => issue_lands _ _ (rstatBody_ends h ..)
  | .powerOnReset _ _ => execPowerOnReset_lands h ..
  | .linkTraining _ _ _ _ _ => execLinkTraining_lands h ..
  | .flitReplay _ _ => execFlitReplay_lands h ..
  | .linkDown _ _ => execLinkDown_lands h ..
  | .packetHop _ _ => execPacketHop_lands h ..
  | .taskPacket _ => execTaskPacket_lands h ..
  | .pifoAdmission _ => execPifoAdmission_lands h ..
  | .dispatch _ _ _ => execDispatch_lands h ..
  | .nodeCompletion _ => execNodeCompletion_lands h ..
  | .quantumExpiry _ => execQuantumExpiry_lands h ..
  | .contextReturn _ _ => execContextReturn_lands h ..
  | .migrationContext _ => execMigrationContext_lands h ..
  | .migrateRetry _ => execMigrateRetry_lands h ..
  | .replyWithData _ => execReplyWithData_lands h ..
  | .acknowledgement _ => execAcknowledgement_lands h ..
  | .nack _ => execNack_lands h ..
  | .admissionReply _ => execAdmissionReply_lands h ..
  | .retryTimeout _ => execRetryTimeout_lands h ..
  | .read _ _ => execRead_lands h ..
  | .write _ _ => execWrite_lands h ..
  | .atomic _ => execAtomic_lands h ..
  | .decideOnceRequest _ => execDecideOnceRequest_lands h ..
  | .ownershipRequest _ => execOwnershipRequest_lands h ..
  | .ownershipRelease _ => execOwnershipRelease_lands h ..
  | .ownershipGrant _ => execOwnershipGrant_lands h ..
  | .correctedError _ _ => execCorrectedError_lands h ..
  | .deposit _ => execDeposit_lands h ..
  | .message _ => execMessage_lands h ..
  | .multicastData _ => execMulticastData_lands h ..
  | .reductionContribution _ => execReductionContribution_lands h ..
  | .barrierContribution _ => execBarrierContribution_lands h ..
  | .barrierRelease _ _ => execBarrierRelease_lands h ..
  | .barrierReleaseMulticast _ => execBarrierReleaseMulticast_lands h ..
  | .checkpointCommit _ _ => execCheckpointCommit_lands h ..
  | .coreUncorrectable _ => execCoreUncorrectable_lands h ..
  | .refresh _ _ _ => execRefresh_lands h ..
  | .refreshEnd _ _ _ => execRefreshEnd_lands h ..
  | .refreshRateChange _ _ => execRefreshRateChange_lands h ..
  | .thermalClamp _ => execThermalClamp_lands h ..
  | .cubeThermalTrip _ => execCubeThermalTrip_lands h ..
  | .fetchGrant _ => execFetchGrant_lands h ..
  | .forwardedInstruction _ => execForwardedInstruction_lands h ..
  | .waitWakeup _ => execWaitWakeup_lands h ..
  | .pollRetest _ => execPollRetest_lands h ..
  | .trapEntry _ _ => execTrapEntry_lands h ..
  | .contextSave _ => execContextSave_lands h ..
  | .trapReflection _ => execTrapReflection_lands h ..
  | .faultService _ => execFaultService_lands h ..
  | .interrupt _ => execInterrupt_lands h ..
  | .graphBusyRefusal _ => execGraphBusyRefusal_lands h ..
  | .matrixFormStart _ => execMatrixFormStart_lands h ..
  | .matrixFormComplete _ => execMatrixFormComplete_lands h ..
  | .gissueJointIssue _ => execGissueJointIssue_lands h ..
  | .copyCommandStart _ => execCopyCommandStart_lands h ..
  | .copyCommandComplete _ => execCopyCommandComplete_lands h ..
  | .flueEntryStart _ => execFlueEntryStart_lands h ..
  | .streamToken _ _ _ => execStreamToken_lands h ..
  | .cellFire _ _ _ => execCellFire_lands h ..
  | .kernelFinish _ _ => execKernelFinish_lands h ..
  | .translation _ _ _ _ => execTranslation_lands h ..
  | .pageTableWalk _ _ _ => execPageTableWalk_lands h ..
  | .requestRemap _ => execRequestRemap_lands h ..
  | .mapInstall _ _ => execMapInstall_lands h ..
  | .cxlMemRequest _ _ => execCxlMemRequest_lands h ..
  | .backinvResponse _ _ => execBackinvResponse_lands h ..
  | .backinvTimeout _ _ => execBackinvTimeout_lands h ..
  | .doorbell _ _ => execDoorbell_lands h ..
  | .registerWrite _ _ _ => execRegisterWrite_lands h ..
  | .refinementExit _ _ => execRefinementExit_lands h ..
  | .installRankProgram _ _ => execInstallRankProgram_lands h ..
  | .setQuantum _ _ => execSetQuantum_lands h ..
  | .preempt _ _ => execPreempt_lands h ..
  | .withdrawPacket _ _ => execWithdrawPacket_lands h ..
  | .writeSegmentDescriptor _ _ _ _ => execWriteSegmentDescriptor_lands h ..
  | .writePageTableEntry _ _ => execWritePageTableEntry_lands h ..
  | .bumpAsidGeneration _ _ _ => execBumpAsidGeneration_lands h ..
  | .replaceInterleaveMap _ _ => execReplaceInterleaveMap_lands h ..
  | .writeTrapTableEntry _ _ _ => execWriteTrapTableEntry_lands h ..
  | .retireFlue _ _ => execRetireFlue_lands h ..
  | .markSpareCore _ => execMarkSpareCore_lands h ..
  | .removeCube _ _ => execRemoveCube_lands h ..
  | .setRetryTime _ _ => execSetRetryTime_lands h ..
  | .setPowerLimit _ _ => execSetPowerLimit_lands h ..
  | .attestationReport _ _ => execAttestationReport_lands h ..
  | .stopThread _ => execStopThread_lands h ..
  | .stepThread _ => execStepThread_lands h ..
  | .resumeThread _ => execResumeThread_lands h ..
  | .clearPerformanceCounters _ => execClearPerformanceCounters_lands h ..
  | .thermalClampEnd _ => execThermalClampEnd_lands h ..
  | .coreClockCycle _ => execCoreClockCycle_lands h ..
  | .recoveryImageSupply _ _ => execRecoveryImageSupply_lands h ..

theorem performAction_lands {s : State} (h : Canonical s) (a : Action) : Lands (performAction a s) := by
  unfold performAction
  cases a with
  | writeAit => exact writeAit_lands h ..
  | clearError => exact clearError_lands h ..
  | stopForError =>
    exact coreEvent_lands h _ fun b hb => Canonical.ite (Canonical.of_mem hb (stopForError_mem ..)) hb
  | writeAtom => exact writeAtom_lands h ..
  | expander => exact setExpander_lands h ..
  | dropLine => exact coreEvent_lands h _ fun b hb => Canonical.of_mem (s := b) hb rfl
  | dropCopy => exact coreEvent_lands h _ fun b hb => Canonical.of_mem (s := b) hb rfl
  | dropFetched => exact dropHearthLine_lands h ..
  | takeNotice => exact takeNotice_lands h ..
  | giveUp => exact giveUpTrap_canonical h _
  | deface => exact Canonical.of_mem h (defacePacket_mem ..)
  | stray => exact Canonical.of_mem h (strayPacket_mem ..)
  | discard => exact Canonical.of_mem h (discardPacket_mem ..)
  | removal => exact removalStep_canonical h
  | flush => exact cubeEvent_lands h _ fun b hb => hb.of_mem (flushStation_mem ..)
  | writeGen => exact cubeEvent_lands h _ fun b hb => hb.of_mem (writeGeneration_mem ..)
  | refine =>
    refine cubeEvent_lands h _ fun b hb => ?_
    split
    · exact refineStep_canonical hb _
    · exact hb
  | createPacket => exact createPacket_lands h ..
  | damage => exact Canonical.of_mem h (damagePacket_mem ..)
  | readAhead => exact cubeEvent_lands h _ fun b hb => hb.of_mem (readNode_mem ..)
  | readRecord => exact coreEvent_lands h _ fun b hb => hb.of_mem (readRecord_mem ..)

/-! ### Turns and steps -/

theorem reload_lands {s : State} (h : Canonical s) (p : Pend) : Lands (reload p s) := by
  unfold reload
  split
  · exact finish_lands (r := .error _) h
  · exact h
  · exact h
  · exact Lands.ite h (Canonical.of_mem h (by simp))

theorem atBoundary_lands {s : State} (h : Canonical s) {o : Host.Outcome State Fault Refusal}
    (ho : atBoundary s = some o) : Lands o := by
  simp only [atBoundary] at ho
  split at ho
  · cases ho
  · split at ho
    · cases ho; exact reload_lands h _
    · split at ho
      · cases ho; exact execGraphBusyRefusal_lands h _
      · split at ho
        · cases ho; exact execInterrupt_lands h _
        · split at ho <;> cases ho
          exact execQuantumExpiry_lands h _

/-- A way to run an instruction under which every instruction lands well. -/
def Safe (run : Shape → State → Host.Outcome State Fault Refusal) : Prop :=
  ∀ (sh : Shape) (s : State), Canonical s → Lands (run sh s)

section Issue

variable {run : Shape → State → Host.Outcome State Fault Refusal} {s : State}

theorem runWords_lands (hr : Safe run) (h : Canonical s) (ws : List Word32) : Lands (runWords run ws s) := by
  unfold runWords
  split
  · exact finish_lands (trapHere_ends h _)
  · exact Lands.ite (hr _ _ h) (finish_lands (trapHere_ends h _))

theorem afterIssue_lands {o : Host.Outcome State Fault Refusal} (ho : Lands o) (b : State) (ws : List Word32) :
    Lands (afterIssue b ws o) := by
  match o, ho with
  | .next t, ho => exact Canonical.of_mem (s := t) ho (by simp [apply_ite State.mem])
  | .fault _, _ => trivial
  | .refused _, _ => trivial

theorem runNext_lands (hr : Safe run) (h : Canonical s) : Lands (runNext run s) := by
  have words := nextWords_ends h
  unfold runNext
  split
  · next e hw =>
    rw [hw] at words
    exact afterIssue_lands (finish_lands (r := .error e) words) ..
  · next ws t hw =>
    rw [hw] at words
    have ht : Canonical t := words
    exact afterIssue_lands (runWords_lands hr (ht.of_mem (t := { t with word := ws }) rfl) ws) ..

theorem useFetch_lands {o : Host.Outcome State Fault Refusal} (ho : Lands o) (b : State) : Lands (useFetch b o) := by
  match o, ho with
  | .next t, ho => exact Lands.ite ho (Canonical.of_mem (s := t) ho (by simp))
  | .fault _, _ => trivial
  | .refused _, _ => trivial

theorem issueTurn_lands (hr : Safe run) (h : Canonical s) (core : Nat) (e : Sequencer) (later l1 : Bool) :
    Lands (issueTurn run core e later l1 s) := by
  have begun : Canonical (turnOf core e later l1 s) := h.of_mem (by simp)
  refine Lands.ite trivial (Lands.ite begun ?_)
  split
  · next ho => exact atBoundary_lands begun ho
  · refine Lands.ite begun (Lands.ite (Canonical.of_mem begun (by simp)) ?_)
    exact useFetch_lands (runNext_lands hr (begun.of_mem (by simp))) _

end Issue

/-! ### What moves when the agenda is empty -/

/-- The moves of a list all land well. -/
def AllLand (l : List Move) : Prop := ∀ m ∈ l, Lands m.2

section Moves

variable {s : State}

theorem AllLand.nil : AllLand [] := List.forall_mem_nil _

theorem AllLand.cons {m : Move} {l : List Move} (hm : Lands m.2) (hl : AllLand l) : AllLand (m :: l) :=
  List.forall_mem_cons.mpr ⟨hm, hl⟩

theorem AllLand.one {m : Move} (hm : Lands m.2) : AllLand [m] := AllLand.cons hm AllLand.nil

theorem AllLand.append {l m : List Move} (hl : AllLand l) (hm : AllLand m) : AllLand (l ++ m) := fun x hx =>
  (List.mem_append.mp hx).elim (hl x) (hm x)

theorem AllLand.map {α : Type} {f : α → Move} (hf : ∀ a, Lands (f a).2) (l : List α) : AllLand (l.map f) := by
  simpa [AllLand] using fun a _ => hf a

theorem AllLand.flatMap {α : Type} {f : α → List Move} (hf : ∀ a, AllLand (f a)) (l : List α) :
    AllLand (l.flatMap f) := fun x hx =>
  have ⟨a, _, ha⟩ := List.mem_flatMap.mp hx
  hf a x ha

theorem AllLand.rotateLeft {l : List Move} (hl : AllLand l) (n : Nat) : AllLand (l.rotateLeft n) := fun x hx => by
  unfold List.rotateLeft at hx
  dsimp only at hx
  split at hx
  · exact hl x hx
  · rcases List.mem_append.mp hx with h | h
    · exact hl x (List.mem_of_mem_drop h)
    · exact hl x (List.mem_of_mem_take h)

theorem firstMove_lands {l : List Move} (hl : AllLand l) {o : Host.Outcome State Fault Refusal} (ho : Lands o) :
    Lands ((firstMove l).getD o) := by
  induction l with
  | nil => exact ho
  | cons m l ih =>
    unfold firstMove
    split
    · exact hl m List.mem_cons_self
    · exact ih fun x hx => hl x (List.mem_cons_of_mem _ hx)

theorem atCore_lands (h : Canonical s) (core : Nat) {f : State → Host.Outcome State Fault Refusal}
    (hf : ∀ b, Canonical b → Lands (f b)) : Lands (atCore s core f).2 :=
  hf _ (h.of_mem (State.focus_mem ..))

theorem replyMoves_land (h : Canonical s) (f : Flight) : AllLand (replyMoves s f) := by
  have hb : Canonical (focusSource s f) := h.of_mem (focusSource_mem ..)
  unfold replyMoves
  dsimp only
  split
  · exact AllLand.one (execReplyWithData_lands hb _)
  · exact AllLand.one (execReplyWithData_lands hb _)
  · exact AllLand.one (execReplyWithData_lands hb _)
  · exact AllLand.one (execAcknowledgement_lands hb _)
  · exact AllLand.one (execAcknowledgement_lands hb _)
  · exact AllLand.one (execNack_lands hb _)
  · exact AllLand.one (execAdmissionReply_lands hb _)
  · exact AllLand.one (execOwnershipGrant_lands hb _)
  · exact AllLand.nil

theorem performMove_land (h : Canonical s) (f : Flight) : AllLand (performMove s f) := by
  unfold performMove
  split
  · exact AllLand.one (execRead_lands h ..)
  · exact AllLand.one (execRead_lands h ..)
  · exact AllLand.one (execRead_lands h ..)
  · exact AllLand.one (execWrite_lands h ..)
  · exact AllLand.one (execAtomic_lands h _)
  · exact AllLand.one (execAtomic_lands h _)
  · exact AllLand.one (execDecideOnceRequest_lands h _)
  · exact AllLand.one (execOwnershipRequest_lands h _)
  · exact AllLand.one (execOwnershipRelease_lands h _)
  · exact AllLand.one (execMulticastData_lands h _)
  · exact AllLand.one (execDeposit_lands h _)
  · exact AllLand.one (execMessage_lands h _)
  · exact AllLand.one (execTaskPacket_lands h _)
  · exact AllLand.one (execMigrationContext_lands h _)
  · exact AllLand.one (execReductionContribution_lands h _)
  · exact AllLand.one (execReductionContribution_lands h _)
  · exact AllLand.one (execBarrierContribution_lands h _)
  · exact AllLand.one (execBarrierReleaseMulticast_lands h _)
  · exact AllLand.one (execReplyWithData_lands h _)
  · exact AllLand.nil

theorem snoopMoves_land (h : Canonical s) (f : Flight) : AllLand (snoopMoves s f) := by
  unfold snoopMoves
  split
  · exact AllLand.nil
  · exact AllLand.map (fun _ => atCore_lands h _ fun _ hb => execBackinvResponse_lands hb ..) _

theorem hopMoves_land (h : Canonical s) (f : Flight) : AllLand (hopMoves s f) := by
  unfold hopMoves
  split
  · split
    · exact AllLand.nil
    · exact AllLand.one (execRetryTimeout_lands (h.of_mem (focusSource_mem ..)) _)
  · exact AllLand.map (fun _ => execPacketHop_lands h ..) _

theorem discarded_lands (h : Canonical s) (num : Nat) : AllLand [(s, .next (discardPacket s num))] :=
  AllLand.one (h.of_mem (discardPacket_mem ..))

theorem backMoves_land (h : Canonical s) (f : Flight) : AllLand (backMoves s f) := by
  unfold backMoves
  split
  · exact hopMoves_land h f
  · split
    · exact discarded_lands h _
    · exact replyMoves_land h f

theorem lostMoves_land (h : Canonical s) : AllLand (lostMoves s) :=
  AllLand.map (fun _ => execRetryTimeout_lands (h.of_mem (focusSource_mem ..)) _) _

theorem requestMoves_land (h : Canonical s) (f : Flight) : AllLand (requestMoves s f) := by
  have hb : Canonical (focusSource s f) := h.of_mem (focusSource_mem ..)
  unfold requestMoves
  dsimp only
  split
  · exact hopMoves_land h f
  · split
    · exact discarded_lands h _
    · split
      · exact AllLand.one (execRetryTimeout_lands hb _)
      · exact ((performMove_land hb f).append (AllLand.one (execRequestRemap_lands hb _))).append (snoopMoves_land h f)

theorem dispatchMoves_land (h : Canonical s) (cube : Nat) : AllLand (dispatchMoves s cube) := by
  unfold dispatchMoves
  split
  · exact AllLand.nil
  · exact AllLand.one (atCore_lands h _ fun _ hb => execDispatch_lands hb ..)

theorem savedMoves_land (h : Canonical s) (cube : Nat) : AllLand (savedMoves s cube) := by
  refine AllLand.map (fun v => ?_) _
  split
  · exact atCore_lands h _ fun _ hb => execContextReturn_lands hb ..
  · split
    · exact atCore_lands h _ fun _ hb => execFaultService_lands hb _
    · exact atCore_lands h _ fun _ hb => execTrapReflection_lands hb _

theorem flueMoves_land (h : Canonical s) (cube : Nat) : AllLand (flueMoves s cube) := by
  refine AllLand.flatMap (fun f => (AllLand.append ?_ ?_).append ?_) _
  · exact AllLand.map (fun _ => atCore_lands h _ fun _ hb => execStreamToken_lands hb ..) _
  · exact AllLand.map (fun _ => atCore_lands h _ fun _ hb => execCellFire_lands hb ..) _
  · exact AllLand.one (atCore_lands h _ fun _ hb => execKernelFinish_lands hb ..)

theorem hostMoves_land (h : Canonical s) (cube : Nat) : AllLand (hostMoves s cube) := by
  unfold hostMoves
  dsimp only
  split
  · exact AllLand.nil
  · exact AllLand.map (fun _ => atCore_lands h _ fun _ hb => execBackinvResponse_lands hb ..) _

theorem stoveMoves_land (h : Canonical s) (cube : Nat) : AllLand (stoveMoves s cube) := by
  refine ((AllLand.append ?_ ?_).append ?_).append ?_
  · exact AllLand.map (fun _ => atCore_lands h _ fun _ hb => takeNotice_lands hb ..) _
  · exact AllLand.map (fun _ => atCore_lands h _ fun _ hb => execRetireFlue_lands hb ..) _
  · exact AllLand.map (fun _ => atCore_lands h _ fun _ hb => performAction_lands hb _) _
  · split
    · exact AllLand.nil
    · exact AllLand.map (fun _ => atCore_lands h _ fun _ hb => performAction_lands hb _) _

theorem removalMoves_land (h : Canonical s) : AllLand (removalMoves s) := by
  unfold removalMoves
  split
  · exact AllLand.nil
  · refine AllLand.cons (removalStep_canonical h) ?_
    split
    · exact AllLand.map (fun _ => atCore_lands h _ fun _ hb => execMapInstall_lands hb ..) _
    · exact AllLand.nil

theorem cubeMoves_land (h : Canonical s) (cube : Nat) : AllLand (cubeMoves s cube) := by
  have here {f : State → Host.Outcome State Fault Refusal} (hf : ∀ b, Canonical b → Lands (f b)) :
      Lands (atCore s (cube * 256) f).2 := atCore_lands h _ hf
  have admitted := AllLand.one (here fun _ hb => execPifoAdmission_lands hb cube)
  have completed := AllLand.one (here fun _ hb => execNodeCompletion_lands hb cube)
  have refined := AllLand.map (fun r : Run => here fun _ hb => performAction_lands hb (.refine cube r.id))
  have ended := AllLand.map (fun r : Run => here fun _ hb => execRefinementExit_lands hb cube r.id)
  have committed := AllLand.map (fun g : Gang => here fun _ hb => execCheckpointCommit_lands hb cube g.id)
  have released := AllLand.map (fun g : Group => here fun _ hb => execBarrierRelease_lands hb cube g.num)
  exact (((((((((admitted.append (dispatchMoves_land h cube)).append completed).append (refined _)).append
    (ended _)).append (committed _)).append (released _)).append (savedMoves_land h cube)).append
    (flueMoves_land h cube)).append (stoveMoves_land h cube)).append (hostMoves_land h cube)

theorem engineMoves_land (h : Canonical s) (core : Nat) : AllLand (engineMoves s core) := by
  have here {f : State → Host.Outcome State Fault Refusal} (hf : ∀ b, Canonical b → Lands (f b)) :
      Lands (atCore s core f).2 := atCore_lands h _ hf
  exact .cons (here fun _ hb => execContextSave_lands hb _) <|
    .cons (here fun _ hb => execMatrixFormComplete_lands hb _) <|
    .cons (here fun _ hb => execCopyCommandComplete_lands hb _) <|
    .cons (here fun _ hb => execMatrixFormStart_lands hb _) <|
    .cons (here fun _ hb => execGissueJointIssue_lands hb _) <|
    .cons (here fun _ hb => execCopyCommandStart_lands hb _) <|
    .one (here fun _ hb => execFlueEntryStart_lands hb _)

theorem issueMoves_land {run : Shape → State → Host.Outcome State Fault Refusal} (hr : Safe run) (h : Canonical s)
    (core : Nat) : AllLand (issueMoves run s core) := by
  refine AllLand.append (AllLand.map (fun e => ?_) _) ?_
  · exact issueTurn_lands hr (h.of_mem (turnOf_mem ..)) ..
  · split
    · exact AllLand.one (atCore_lands h _ fun _ hb => execMigrateRetry_lands hb _)
    · exact AllLand.nil

theorem idle_lands {run : Shape → State → Host.Outcome State Fault Refusal} (hr : Safe run) (h : Canonical s) :
    Lands (idle run s) := by
  unfold idle
  extract_lets t replies requests cubes engines issues agents issues'
  have ht : Canonical t := h
  have tick : Lands (.next (tickAll t)) := Canonical.of_mem ht (tickAll_mem t)
  have hreplies : AllLand replies := (AllLand.flatMap (fun f => backMoves_land ht f) _).append (lostMoves_land ht)
  have hrequests : AllLand requests := AllLand.flatMap (fun f => requestMoves_land ht f) _
  have hcubes : AllLand cubes := AllLand.flatMap (fun c => cubeMoves_land ht c) _
  have hengines : AllLand engines := AllLand.flatMap (fun c => engineMoves_land ht c) _
  have hagents : AllLand agents :=
    ((((hreplies.append hrequests).append hcubes).append hengines).append (removalMoves_land ht)).rotateLeft _
  have hissues : AllLand issues' := (AllLand.flatMap (fun c => issueMoves_land hr ht c) _).rotateLeft _
  split
  · exact firstMove_lands (hagents.append hissues) tick
  · exact firstMove_lands (hissues.append hagents) tick
  · exact tick

end Moves

/-! ### One step -/

theorem execHigh_lands {s : State} (h : Canonical s) (sh : Shape) : Lands (execHigh sh s) := by
  unfold execHigh
  split
  · exact exec_lands h (.arrive _)
  · exact exec_lands h (.arrw _)
  · exact exec_lands h (.waitb _)
  · exact exec_lands h (.join _)
  · exact exec_lands h (.leave _)
  · exact exec_lands h (.dswait _)
  · exact exec_lands h (.dsset _)
  · exact exec_lands h (.cntrd _)
  · exact exec_lands h (.cntadd _)
  · exact exec_lands h (.rlaunch _)
  · exact exec_lands h (.rstat _)
  · exact finish_lands (trapHere_ends h _)

theorem execShape_safe : Safe execShape := fun sh s h => by
  unfold execShape
  split
  · exact exec_lands h _
  · exact execHigh_lands h sh

theorem turn_lands {s : State} (h : Canonical s) : (t : Turn) → Lands (turn t s)
  | .event i => exec_lands h i
  | .act a => performAction_lands h a
  | .issue core e later l1 => issueTurn_lands execShape_safe h core e later l1

theorem step_lands {s : State} (h : Canonical s) : Lands (step s) := by
  unfold step
  split
  · next hr => exact rollbackStep_canonical h hr
  · split
    · next t l _ => exact turn_lands (h.of_mem (t := { s with agenda := l }) rfl) t
    · exact idle_lands execShape_safe h

end Sys2Proof.Machine

namespace Sys2Proof.Safety

/-- Settles O46: whatever moves in a step, an instruction, an event, an agent or a rollback, lands well from a state in
canonical form, since every write of memory goes through operations that keep its order. -/
theorem canonicalKeptByStep : Obligations.CanonicalKeptByStep := by
  intro s t h ht
  have lands := Machine.step_lands h
  rw [ht] at lands
  exact lands

end Sys2Proof.Safety
end

