-- ==== Sys2Proof/Proofs/DecodedTurn.lean ====
section
/-! SUPPORT and the proof of O43: a turn of a sequencer and the instruction that its words decode to (R30, R61, R66, R86). -/

namespace Sys2Proof

/-! ### Every assigned shape stands for an instruction -/

/-- A shape stands for an instruction that has it. -/
def Shape.stands (sh : Shape) : Prop := ∃ i, ofShape sh = some i ∧ i.shape = sh

theorem stands_of_rowA {op fn : Nat} (f : FmtA) (h : (rowA op fn).isSome = true) : (Shape.a op fn f).stands := by
  unfold rowA at h
  split at h
  all_goals (repeat' split at h)
  all_goals simp only [Option.isSome_some, Option.isSome_none, Bool.false_eq_true] at h
  any_goals exact ⟨_, rfl, rfl⟩
  all_goals
    rename_i hf
    have bound : fn < 8 := by grind
    interval_cases fn
  any_goals exact ⟨_, rfl, rfl⟩
  all_goals exact absurd hf (by decide)

theorem stands_of_rowM {op fn : Nat} (f : FmtM) (h : (rowM op fn).isSome = true) : (Shape.m op fn f).stands := by
  unfold rowM at h
  split at h
  all_goals (repeat' split at h)
  all_goals simp only [Option.isSome_some, Option.isSome_none, Bool.false_eq_true] at h
  any_goals exact ⟨_, rfl, rfl⟩
  all_goals
    rename_i hf
    have bound : fn < 8 := by omega
    interval_cases fn
  any_goals exact ⟨_, rfl, rfl⟩
  all_goals exact absurd hf (by decide)

theorem stands_of_rowT {op fn : Nat} (f : FmtT) (h : (rowT op fn).isSome = true) : (Shape.t op fn f).stands := by
  unfold rowT at h
  split at h
  all_goals (repeat' split at h)
  all_goals simp only [Option.isSome_some, Option.isSome_none, Bool.false_eq_true] at h
  all_goals
    rename_i hf
    interval_cases fn
  all_goals exact ⟨_, rfl, rfl⟩

theorem stands_of_rowL {op : Nat} (f : FmtL) (h : (rowL op).isSome = true) : (Shape.l op f).stands := by
  unfold rowL at h
  split at h
  · next range =>
    simp only [Bool.and_eq_true, decide_eq_true_eq] at range
    obtain ⟨low, high⟩ := range
    interval_cases op
    all_goals exact ⟨_, rfl, rfl⟩
  · split at h
    all_goals simp only [Option.isSome_some, Option.isSome_none, Bool.false_eq_true] at h
    all_goals exact ⟨_, rfl, rfl⟩

theorem stands_of_condition {op : Nat} {k : BitVec 3} (f : FmtB) (ho : op = 0x20 ∨ op = 0x21) (hk : k ≠ 7) :
    (Shape.b op k f).stands := by
  by_cases h6 : k = 6
  · subst h6
    rcases ho with rfl | rfl
    · exact ⟨.b f, rfl, rfl⟩
    · exact ⟨.call f, rfl, rfl⟩
  · rcases ho with rfl | rfl
    · exact ⟨.bCond k f, by simp only [ofShape, ofShapeLow, instrB, if_neg hk, if_neg h6], rfl⟩
    · exact ⟨.callCond k f, by simp only [ofShape, ofShapeLow, instrB, if_neg hk, if_neg h6], rfl⟩

theorem stands_of_assigned {sh : Shape} (h : sh.assigned = true) : sh.stands := by
  cases sh with
  | a op fn f => exact stands_of_rowA f h
  | l op f => exact stands_of_rowL f h
  | m op fn f => exact stands_of_rowM f h
  | b op k f =>
    simp only [Shape.assigned, Bool.and_eq_true, Bool.or_eq_true, beq_iff_eq, bne_iff_ne] at h
    exact stands_of_condition f h.1 h.2
  | t op fn f => exact stands_of_rowT f h
  | lpad l => exact ⟨_, rfl, rfl⟩
  | jt i => exact ⟨_, rfl, rfl⟩
  | rep n l t => exact ⟨_, rfl, rfl⟩
  | repg c l t => exact ⟨_, rfl, rfl⟩
  | event => exact nomatch h

theorem assigned_of_decodeShape {ps : List (BitVec 24)} {w : Word32} {sh : Shape} (h : decodeShape ps w = .ok sh) :
    sh.assigned = true := by
  unfold decodeShape at h
  split at h
  · exact nomatch h
  · dsimp only at h
    split at h
    · exact nomatch h
    · split at h
      · exact nomatch h
      · next reserved =>
        split at h
        · exact nomatch h
        · cases h
          simp only [Bool.or_eq_true, Bool.not_eq_true', not_or, Bool.not_eq_false] at reserved
          exact reserved.1.1

theorem assigned_of_decodeShapes {ws : List Word32} {sh : Shape} (h : decodeShapes ws = .ok sh) :
    sh.assigned = true := by
  unfold decodeShapes at h
  split at h
  · exact nomatch h
  · split at h
    · exact assigned_of_decodeShape h
    · split at h
      · exact nomatch h
      · split at h
        · exact assigned_of_decodeShape h
        · split at h
          · exact nomatch h
          · split at h
            · exact assigned_of_decodeShape h
            · exact nomatch h

end Sys2Proof

namespace Sys2Proof.Machine

open Sys2Proof

/-! ### The sequencer that moves stays through a fetch -/

/-- Every value of a meaning that does not stop is as asked. -/
def Yields {ε α : Type} (Q : α → Prop) : Except ε α → Prop
  | .ok a => Q a
  | .error _ => True

theorem Yields.any {ε α : Type} (x : Except ε α) : Yields Anything x := by
  cases x
  · trivial
  · trivial

theorem Yields.bind {ε α β : Type} {Q : α → Prop} {R : β → Prop} {x : Except ε α} {f : α → Except ε β}
    (hx : Yields Q x) (hf : ∀ a, Q a → Yields R (f a)) : Yields R (x >>= f) := by
  cases x with
  | ok a => exact hf a hx
  | error e => trivial

theorem Yields.join {ε α β : Type} {Q : α → Prop} {R : β → Prop} {c : Prop} [Decidable c] {x y : Except ε α}
    {f : α → Except ε β} (hx : Yields Q x) (hy : Yields Q y) (hf : ∀ a, Q a → Yields R (f a)) :
    Yields R (if c then x >>= f else y >>= f) := by
  split
  · exact hx.bind hf
  · exact hy.bind hf

theorem Yields.of_ok {ε α : Type} {Q : α → Prop} {x : Except ε α} {a : α} (h : Yields Q x) (e : x = .ok a) : Q a := by
  rw [e] at h
  exact h

section Seqr

variable {s : State} {e : Sequencer}

theorem fetchWord_seqr (h : s.seqr = e) (pc a : Word) : Yields (fun x => x.2.seqr = e) (fetchWord s pc a) := by
  unfold fetchWord
  split
  · split
    · trivial
    · trivial
  · split
    · trivial
    · dsimp only
      split
      · exact h
      · refine (Yields.any _).bind fun _ _ => ?_
        split
        · trivial
        · split
          · trivial
          · show (holdWord s _ _).seqr = e
            unfold holdWord
            split
            · exact h
            · exact h

theorem readInstr_seqr (h : s.seqr = e) (pc a : Word) : Yields (fun x => x.2.seqr = e) (readInstr s pc a) := by
  simp only [readInstr]
  refine (fetchWord_seqr h ..).bind fun x h1 => ?_
  split
  · exact h1
  · refine (fetchWord_seqr h1 ..).bind fun y h2 => ?_
    split
    · exact h2
    · exact (fetchWord_seqr h2 ..).bind fun z h3 => h3

theorem captureBody_seqr (h : s.seqr = e) (p : Word) (n : Nat) (a : Word) :
    Yields (fun x => x.2.seqr = e) (captureBody p n s a) := by
  induction n generalizing s a with
  | zero => exact h
  | succ n ih => exact (readInstr_seqr h ..).bind fun _ ht => (ih ht _).bind fun _ hu => hu

theorem captureFrame_seqr (h : s.seqr = e) (p : Word) (len stride : Nat) :
    Yields (fun x => x.2.seqr = e) (captureFrame s p len stride) := by
  simp only [captureFrame]
  refine (captureBody_seqr h ..).bind fun ⟨_, _⟩ h1 => ?_
  split
  · exact h1
  · trivial

theorem recapture_seqr (h : s.seqr = e) : Yields (fun t => t.seqr = e) (recapture s) := by
  unfold recapture
  dsimp only
  refine (fetchWord_seqr h ..).bind fun ⟨_, _⟩ h1 => ?_
  split
  · trivial
  · exact (captureFrame_seqr h1 ..).bind fun ⟨_, _⟩ h2 => (State.setPc_seqr ..).trans ((State.setFrame_seqr ..).trans h2)

theorem nextWords_seqr (h : s.seqr = e) : Yields (fun x => x.2.seqr = e) (nextWords s) := by
  unfold nextWords
  dsimp only
  split
  · have recaptured : Yields (fun t => t.seqr = e) (.ok (ε := Stop) s) := h
    refine Yields.join (recapture_seqr h) recaptured fun t ht => ?_
    split
    · trivial
    · split
      · trivial
      · exact ht
  · split
    · exact h
    · exact readInstr_seqr h ..

end Seqr

/-! ### What words hold -/

/-- What a sequencer does with words: the instruction that they hold, where its class allows it, or the trap of R66 or R32. -/
theorem runWords_decoded {ws : List Word32} {i : Instr} {n : Nat} (h : decodeWords ws = .ok (i, n)) (s : State) :
    runWords execShape ws s =
      if classAllows s.seqr i.shape then exec i s else finish (trapHere s .engineClass) := by
  unfold decodeWords at h
  split at h
  · exact nomatch h
  · next sh hd =>
    obtain ⟨j, hj, shape⟩ := stands_of_assigned (assigned_of_decodeShapes hd)
    rw [hj] at h
    cases h
    unfold runWords
    rw [hd, shape]
    dsimp only
    rw [execShape_eq hj]

theorem runWords_undecoded {ws : List Word32} {c : DecodeFault} (h : decodeWords ws = .error c) (s : State) :
    runWords execShape ws s = finish (trapHere s (DecodeFault.code c)) := by
  unfold decodeWords at h
  split at h
  · next hd =>
    cases h
    unfold runWords
    rw [hd]
  · next sh hd =>
    obtain ⟨j, hj, -⟩ := stands_of_assigned (assigned_of_decodeShapes hd)
    rw [hj] at h
    exact nomatch h

/-! ### A turn -/

theorem unhold_seqr (s : State) : (unhold s).seqr = s.seqr := by
  unfold unhold
  split
  · split
    · rfl
    · rfl
  · rfl

theorem step_of_agenda {s : State} {t : Turn} {l : List Turn} (hr : rollbackStep s = none) (ha : s.agenda = t :: l) :
    step s = turn t { s with agenda := l } := by
  unfold step
  rw [hr, ha]

/-- A turn of a sequencer that may issue and meets nothing at its boundary. -/
theorem issueTurn_issues {core : Nat} {e : Sequencer} {later l1 : Bool} {s : State} (hc : core < 163840)
    (may : mayIssue (turnOf core e later l1 s) = true) (clear : atBoundary (turnOf core e later l1 s) = none) :
    issueTurn execShape core e later l1 s =
      let b := turnOf core e later l1 s
      if b.hasFetch core e then useFetch b (runNext execShape (unhold b)) else .next (awaitFetch b core) := by
  have me : (turnOf core e later l1 s).me = core := by
    unfold turnOf State.focus
    split
    · next h => exact h.symm
    · rfl
  have runs : mayRun (turnOf core e later l1 s) core = true := by
    unfold mayIssue at may
    rw [me] at may
    simp only [Bool.and_eq_true] at may
    exact may.1.1
  unfold issueTurn
  rw [if_neg (by omega)]
  dsimp only
  rw [clear, runs, may]
  cases (turnOf core e later l1 s).hasFetch core e
  · rfl
  · rfl

end Sys2Proof.Machine

namespace Sys2Proof.Safety

open Sys2Proof Sys2Proof.Machine

/-- Settles O43: a turn runs what its words decode to, since every shape that the decoder accepts stands for an instruction,
and fetching leaves the sequencer that moves. -/
theorem stepRunsTheDecodedInstruction : Obligations.StepRunsTheDecodedInstruction := by
  intro s core e later l1 rest ws t hr ha hc b ends may clear
  have turned : step s = if b.hasFetch core e then useFetch b (runNext execShape (unhold b)) else .next (awaitFetch b core) :=
    (step_of_agenda hr ha).trans (issueTurn_issues hc may clear)
  refine ⟨fun ungranted => by rw [turned, ungranted]; rfl, fun granted words => ?_⟩
  have seqr : t.seqr = e := (nextWords_seqr (unhold_seqr b)).of_ok words
  have runs : ends (runWords execShape ws { t with word := ws }) := by
    change step s = _
    rw [turned, granted, if_pos rfl]
    unfold runNext
    rw [words]
  refine ⟨fun i n decoded allowed => ?_, fun i n decoded refused => ?_, fun c undecoded => ?_⟩
  · rw [runWords_decoded decoded, show classAllows t.seqr i.shape = true from seqr ▸ allowed] at runs
    exact runs
  · rw [runWords_decoded decoded, show classAllows t.seqr i.shape = false from seqr ▸ refused] at runs
    exact runs
  · rw [runWords_undecoded undecoded] at runs
    exact runs

end Sys2Proof.Safety
end

