-- ==== Sys2Proof/Proofs/RefinedCore.lean ====
section
/-! SUPPORT and the refutations of O52 and O53: a core in the gang of a refinement run takes no thread from its run list
(R419), which the clauses on a spent quantum (R26) and on the return of a context leave out of account. -/

namespace Sys2Proof.Machine

open Sys2Proof

/-- A refinement run whose gang is core 0. -/
def soleRun : Run where
  id := 0
  block := 0
  data := 0
  asid := 0
  segs := []
  cube := 0
  slot := 0
  node := 0
  by_ := none
  pc := 0
  note := (false, 0)
  cores := [0]
  group := 0
  prog := none
  rows := []
  elems := []
  due := none

/-- A thread of a name in a state of R27. -/
def namedThread (tid : Nat) (status : Status) : Ctx := { Ctx.reset with tid := tid, status := status }

/-- Core 0 in the gang of a run, and on it a thread whose quantum is spent while another is queued. -/
def spentOnRunCore : State :=
  { State.reset with
    core := { Core.reset with ctx := namedThread 1 .resident, runList := [namedThread 2 .queued] }
    cubes := [(0, { Cube.reset 0 with runs := [soleRun], stove := { Stove.reset with quantum := 0 } })] }

/-- A thread that the Stove may return to core 0. -/
def returnable : SavedCtx := { ctx := namedThread 1 .saved, core := 0, report := none, handled := true }

/-- Core 0 in the gang of a run, and a thread that the Stove may return to it. -/
def returnToRunCore : State :=
  { State.reset with
    cubes := [(0, { Cube.reset 0 with runs := [soleRun], stove := { Stove.reset with saved := [returnable] } })] }

end Sys2Proof.Machine

namespace Sys2Proof.Safety

open Sys2Proof Sys2Proof.Machine

/-- Refutes O52: at the end of its quantum the thread of a core in the gang of a refinement run goes to the run list, and no
other becomes resident (R419), so that the core does not hold the thread that was queued. -/
theorem not_threadEvents : ¬ Obligations.ThreadEvents := by
  intro h
  obtain ⟨-, -, -, -, -, -, -, -, expiry, -⟩ := h spentOnRunCore 0 ⟨by decide, rfl⟩
  obtain ⟨t, ht, next, -⟩ := expiry (namedThread 2 .queued) [] rfl rfl rfl (by decide) (by decide)
  have rotated : exec (.quantumExpiry 0) spentOnRunCore = .next (rotate spentOnRunCore 0) := rfl
  have empty : ((rotate spentOnRunCore 0).getCore 0).ctx.tid = 0 := rfl
  cases rotated.symm.trans ht
  exact absurd (empty.symm.trans next) (by decide)

/-- Refutes O53: a context that returns to a core in the gang of a refinement run stays on its run list (R419), although no
thread is on the core. -/
theorem not_savedThreadEvents : ¬ Obligations.SavedThreadEvents := by
  intro h
  obtain ⟨-, resident⟩ := h.1 returnToRunCore 1 0 returnable ⟨by decide, rfl⟩ rfl rfl rfl
  obtain ⟨t, ht, ctx, -⟩ := resident rfl rfl rfl
  have returned : exec (.contextReturn 1 0) returnToRunCore = .next (returnContext returnToRunCore 0 1 0) := rfl
  have empty : (returnContext returnToRunCore 0 1 0).core.ctx.status = .none := rfl
  cases returned.symm.trans ht
  rw [ctx] at empty
  exact nomatch empty

end Sys2Proof.Safety
end

