-- ==== Sys2Proof/Proofs/SenderEvents.lean ====
section
/-! SUPPORT and the proof of O55: replies, refusals and retries at the sender (R35, R291, R372, R380-R383, R390). -/

namespace Sys2Proof.Machine

open Sys2Proof Sys2Proof.Safety

/-! ### Flights -/

/-- What stands where a flight of a list was changed. -/
theorem mem_map_ite_of_mem {α : Type} {l : List α} {x : α} {c : α → Prop} [DecidablePred c] {f : α → α} (h : x ∈ l)
    (hc : c x) : f x ∈ l.map fun y => if c y then f y else y :=
  List.mem_map.mpr ⟨x, h, if_pos hc⟩

theorem State.request_mem {s : State} {num : Nat} {x : Flight} (h : s.request num = some x) : x ∈ s.flights :=
  List.mem_of_find?_eq_some h

theorem State.request_num {s : State} {num : Nat} {x : Flight} (h : s.request num = some x) : x.num = num := by
  have found := List.find?_some h
  simp only [Bool.and_eq_true, beq_iff_eq] at found
  exact found.1

theorem State.request_cls {s : State} {num : Nat} {x : Flight} (h : s.request num = some x) : x.cls ≠ .reply := by
  have found := List.find?_some h
  simp only [Bool.and_eq_true, bne_iff_ne] at found
  exact found.2

theorem State.modFlight_flights {s : State} {num : Nat} {x : Flight} (f : Flight → Flight) (h : x ∈ s.flights)
    (hn : x.num = num) : f x ∈ (s.modFlight num f).flights :=
  mem_map_ite_of_mem h hn

@[simp] theorem State.focus_flights (s : State) (i : Nat) : (s.focus i).flights = s.flights := by
  unfold State.focus
  split
  · rfl
  · rfl

@[simp] theorem State.focus_numCtr (s : State) (i : Nat) : (s.focus i).numCtr = s.numCtr := by
  unfold State.focus
  split
  · rfl
  · rfl

@[simp] theorem focusSource_flights (s : State) (f : Flight) : (focusSource s f).flights = s.flights := by
  unfold focusSource
  split
  · simp
  · simp

@[simp] theorem focusSource_numCtr (s : State) (f : Flight) : (focusSource s f).numCtr = s.numCtr := by
  unfold focusSource
  split
  · simp
  · simp

/-- An error counter of a cube after an error of its kind (R446). -/
theorem State.errCount_errs (s : State) (c : Nat) {k : Nat} (hk : k < 16) :
    ((s.errCount c k).cube c).errs[k]? =
      ((s.cube c).errs[k]?).map fun v => if v = BitVec.allOnes 48 then v else v + 1 := by
  rw [State.errCount, State.modCube_cube_same]
  simp [hk]

/-! ### Replies that are awaited -/

section Replied

variable {s b : State} {num : Nat} {x : Flight} {body : Body}

theorem replyEvent_awaited {kind : Body → Bool} (f : Flight → State → State) (h : Replied s num x body b)
    (hk : kind body = true) : replyEvent num kind f s = .next (f x b) := by
  obtain ⟨found, awaited, rfl, rfl⟩ := h
  unfold replyEvent
  rw [found]
  simp only [hk, awaited, Bool.not_true, Bool.false_eq_true, if_false, if_true]

theorem execReplyWithData_data (h : Replied s num x body b) (straight : forwardedTo s num = none) {bs : List Byte}
    {d : LoadDest} {req : Nat} {err : Option TrapReport} (hb : body = .data bs d req err)
    (ready : dataReady s x.src.place.2 x.tid req = true) :
    execReplyWithData num s = .next
      (settleMarkers (dataArrives ((s.consume num).focus x.src.place.2) x.src.place.2 x.tid bs d req err) x.tid) := by
  obtain ⟨found, awaited, hx, -⟩ := h
  unfold execReplyWithData
  simp only [straight, found, awaited, hx.trans hb, ready, Bool.not_true, Bool.false_eq_true, if_false]

theorem execReplyWithData_copyData (h : Replied s num x body b) (straight : forwardedTo s num = none) {bs : List Byte}
    {id p core : Nat} {bad : Option Word} (hb : body = .copyData bs id p bad) (hc : x.src.core = some core) :
    execReplyWithData num s = .next (copyArrive b core id p bs bad) := by
  obtain ⟨found, awaited, hx, rfl⟩ := h
  unfold execReplyWithData focusSource
  simp only [straight, found, awaited, hx.trans hb, hc, Bool.not_true, Bool.false_eq_true, if_false]

theorem execReplyWithData_onceData (h : Replied s num x body b) (straight : forwardedTo s num = none) {req : Nat}
    {a : OnceAnswer} (hb : body = .onceData req a) :
    execReplyWithData num s = .next (settleMarkers (answered b x.tid req a) x.tid) := by
  obtain ⟨found, awaited, hx, rfl⟩ := h
  unfold execReplyWithData
  simp only [straight, found, awaited, hx.trans hb, Bool.not_true, Bool.false_eq_true, if_false]

theorem execAcknowledgement_ack (h : Replied s num x body b) {n : Nat} {r : Option Word} (hb : body = .ack n r)
    (hc : x.src.core.isSome = true) : execAcknowledgement num s = .next (acknowledged b x.tid n r) := by
  obtain ⟨core, hc⟩ := Option.isSome_iff_exists.mp hc
  refine (replyEvent_awaited _ h (by rw [hb])).trans ?_
  rw [h.2.2.1, hb, hc]

theorem execAcknowledgement_copied (h : Replied s num x body b) {d id p core : Nat} {r : Option TrapCode}
    (hb : body = .copied d id p r) (hc : x.src.core = some core) :
    execAcknowledgement num s = .next (copyWritten b core id p d r) := by
  refine (replyEvent_awaited _ h (by rw [hb])).trans ?_
  rw [h.2.2.1, hb, hc]

theorem execAdmissionReply_admitted (h : Replied s num x body b) {place : Nat} (hb : body = .admission place) :
    execAdmissionReply num s = .next (packetAnswered b x (.inl place)) := by
  refine (replyEvent_awaited _ h (by rw [hb])).trans ?_
  rw [h.2.2.1, hb]

theorem execOwnershipGrant_grant (h : Replied s num x body b) {atom id p core : Nat} (hb : body = .grant atom id p)
    (hc : x.src.core = some core) :
    execOwnershipGrant num s = .next
      (copyGrant b core id p atom ((b.kept.find? fun k => k.reply.num == x.num).bind fun k => k.request.ilv)) := by
  refine (replyEvent_awaited _ h (by rw [hb])).trans ?_
  rw [h.2.2.1, hb, hc]

theorem packetAnswered_host {cube k place : Nat} (b : State) (hs : x.src = .host cube k) :
    packetAnswered b x (.inl place) = slotDone b cube k 0 := by
  unfold packetAnswered
  rw [hs]

theorem packetAnswered_main {core place : Nat} (b : State) (hs : x.src = .main core) :
    packetAnswered b x (.inl place) =
      if asksFor b x.tid x.ord then answered b x.tid x.ord ⟨0, place, none⟩ else acknowledged b x.tid 1 none := by
  unfold packetAnswered
  rw [hs]
  rfl

theorem slotDone_slotStat (s : State) (cube slot : Nat) (code : BitVec 16) :
    slotStat ((slotDone s cube slot code).cube cube) slot = BitVec.ofNat 18 (code.toNat + 2 ^ 17) := by
  unfold slotDone slotStat
  rw [State.modCube_cube_same, assoc_assocSet, if_pos rfl]
  rfl

theorem mem_of_replied (h : Replied s num x body b) : b.mem = s.mem := by
  obtain ⟨-, -, -, rfl⟩ := h
  simp

end Replied

/-! ### NACKs -/

section Nack

variable {s : State} {num : Nat} {x y : Flight} {code : Option (BitVec 16)}

theorem execNack_again (hx : s.replyOf num = some x) (hb : x.body = .nack code) (hy : s.request num = some y)
    (waits : y.waiting = true) (hc : code = none ∨ code = some codeCheckFailed) :
    execNack num s = .next (sendAgain ((focusSource s x).dropReply num) num) := by
  unfold execNack
  simp only [hx, hb, hy, waits, Bool.not_true, Bool.false_eq_true, if_false]
  rcases hc with rfl | rfl
  · rfl
  · exact if_pos rfl

theorem execNack_refused {c : BitVec 16} (hx : s.replyOf num = some x) (hb : x.body = .nack (some c))
    (hy : s.request num = some y) (waits : y.waiting = true) (hc : c ≠ codeCheckFailed) :
    let b := (focusSource s x).dropReply num
    (∀ p k v, y.body = .packet p k v → execNack num s = .next (packetAnswered (b.landRequest y) y (.inr c))) ∧
      ((∀ p k v, y.body ≠ .packet p k v) → execNack num s = .next (failRequest b y .peerLost)) := by
  unfold execNack
  simp only [hx, hb, hy, waits, if_neg hc, Bool.not_true, Bool.false_eq_true, if_false]
  refine ⟨fun p k v hp => by rw [hp], fun hp => ?_⟩
  split
  · next p k v e => exact absurd e (hp p k v)
  · rfl

/-- A request that is sent again at once sets out anew (R383). -/
theorem sendAgain_flights (s : State) (num : Nat) {f : Flight} (hf : f ∈ (sendAgain s num).flights) (hn : f.num = num)
    (hc : f.cls ≠ .reply) : f.waiting = false ∧ f.at_ = f.src.place.1 ∧ f.sends = 1 ∧ f.route = s.numCtr := by
  obtain ⟨z, -, rfl⟩ := List.mem_map.mp hf
  by_cases hz : z.num = num
  · by_cases hr : z.cls = .reply
    · simp [hz, hr] at hc
    · simp [hz, hr]
  · simp [hz] at hn

theorem sendAgain_errs (s : State) (num : Nat) :
    ((sendAgain s num).cube s.myCube).errs[8]? =
      ((s.cube s.myCube).errs[8]?).map fun v => if v = BitVec.allOnes 48 then v else v + 1 :=
  State.errCount_errs s s.myCube (by decide)

end Nack

/-! ### Loads at their thread -/

section Load

variable {c : Ctx} {req : Nat} {p : Pend}

theorem Ctx.loadDone_eq (h : c.pend.find? (fun z => z.num == req) = some p) (bs : List Byte) :
    c.loadDone req bs = { c with
      regs := c.regs.loaded p p.age bs
      unacked := if p.amo.isSome then c.unacked - 1 else c.unacked
      pend := (c.pend.filter fun q => q.num != req).map fun q => { q with undo := q.undo.map fun u => u.loaded p bs } } := by
  unfold Ctx.loadDone
  rw [h]

/-- The registers after the reply of a scalar load. -/
theorem Regs.loaded_scalar (hv : p.dest.vec = none) (r : Regs) (age : Nat) (bs : List Byte) :
    let y : Word := BitVec.ofNat 64 (natOfBytes bs)
    (r.loaded p age bs).v = r.v ∧
      (r.loaded p age bs).gq = (if age ≤ 16 then r.gq.set (age - 1) y else r.gq) ∧
      (r.loaded p age bs).g = (match p.dst with
        | some k => r.g.setIfInBounds k y
        | none => r.g) := by
  unfold Regs.loaded
  rw [hv]
  dsimp only
  cases p.dst with
  | none => split <;> exact ⟨rfl, rfl, rfl⟩
  | some k => split <;> exact ⟨rfl, rfl, rfl⟩

/-- The registers after the reply of a vector load. -/
theorem Regs.loaded_vector {l : LaneDest} (hv : p.dest.vec = some l) (r : Regs) (age : Nat) (bs : List Byte) :
    (r.loaded p age bs).g = r.g ∧ (r.loaded p age bs).gq = r.gq ∧
      (r.loaded p age bs).vq =
        (if age ≤ 16 then r.vq.modify (age - 1) fun v => putLanes v (laneValues l bs) else r.vq) ∧
      (r.loaded p age bs).v = (match l.reg with
        | some k => r.v.setIfInBounds k (putLanes ((r.v[k]?).getD 0) (laneValues l bs))
        | none => r.v) := by
  unfold Regs.loaded
  rw [hv]
  dsimp only
  cases l.reg with
  | none => split <;> exact ⟨rfl, rfl, rfl, rfl⟩
  | some k => split <;> exact ⟨rfl, rfl, rfl, rfl⟩

/-- A load that fails while nothing after it has had an effect outside the registers (R291). -/
theorem Ctx.loadFailed_undone (h : c.pend.find? (fun z => z.num == req) = some p) {u : Undo} (hu : p.undo = some u)
    (code : TrapCode) (away : Word) :
    let d := c.loadFailed req code away
    d.regs = u.back c.regs ∧ d.unacked = (if p.amo.isSome then c.unacked - 1 else c.unacked) ∧
      d.pend = c.pend.filterMap (fun q => (assoc u.ages q.num).map fun a => { q with age := a }) ∧
      d.trap = some { failedRead code (p.off + away) with
        pc := p.pc, epc := p.pc, seg := p.seg, kind := if p.amo.isSome then .atomic else .load } := by
  unfold Ctx.loadFailed
  rw [h]
  dsimp only
  rw [hu]
  exact ⟨rfl, rfl, rfl, rfl⟩

/-- A load that fails after what cannot be undone. -/
theorem Ctx.loadFailed_standing (h : c.pend.find? (fun z => z.num == req) = some p) (hu : p.undo = none)
    (code : TrapCode) (away : Word) :
    let d := c.loadFailed req code away
    d.regs = c.regs ∧ d.unacked = (if p.amo.isSome then c.unacked - 1 else c.unacked) ∧
      d.trap = some (c.trap.getD { failedRead code (p.off + away) with
        pc := p.pc, epc := p.pc, seg := p.seg, kind := if p.amo.isSome then .atomic else .load }) := by
  unfold Ctx.loadFailed
  rw [h]
  dsimp only
  rw [hu]
  exact ⟨rfl, rfl, rfl⟩

end Load

/-! ### Retries -/

section Retry

variable {s : State} {num : Nat} {x : Flight}

/-- What an unanswered request meets that no home has performed (R383). -/
theorem execRetryTimeout_unanswered (hx : s.request num = some x) (hk : s.keptOf x = none) (hs : x.sends ≠ 0) :
    execRetryTimeout num s =
      if (s.cube x.src.place.1).tripped then .next s
      else if 7 ≤ x.sends || (s.cube x.cube).removed then .next (giveUpOn s x)
      else
        let t := (focusSource s x).errCount x.src.place.1 8
        if x.waiting then .next (t.modFlight num fun y => if y.cls == .reply then y else y.resent s.numCtr)
        else .next ((t.modFlight num fun y =>
          if y.cls == .reply then y else { y with sends := y.sends + 1, retry := 2 * y.retry }).putFlights
            [x.resent s.numCtr]) := by
  unfold execRetryTimeout
  simp only [hx, hk, hs, decide_false, Bool.or_false, Bool.false_or]

/-- A request that has reached a cube with a newer map is resolved again (R390). -/
theorem execRequestRemap_older {i : Nat} {g : BitVec 16} (hx : s.request num = some x) (hk : s.keptOf x = none)
    (hs : x.sends ≠ 0) (hi : x.ilv = some (i, g)) (here : x.at_ = x.cube) (goes : x.waiting = false)
    (serves : (s.cube x.cube).tripped = false) (newer : g.toNat < (s.cube x.cube).imap.mgen.toNat)
    (first : behindPair s x = false) :
    execRequestRemap num s =
      let b := focusSource s x
      let m := (s.cube x.cube).imap
      let i := match x.body.addr with
        | some a => i / 4096 * 4096 + a % 4096
        | none => i
      match mapResolve m i with
      | none => .next (failRequest b x .addressRange)
      | some (e, l) =>
        if e.lost then .next (failRequest b x .peerLost)
        else match x.body.addr with
          | none => .next (b.modFlight num fun y => { y with
              cube := e.cube, home := stoveHome e.cube, ilv := some (i, m.mgen) })
          | some _ => match classify b e.cube l (some i) false with
            | .error c => .next (failRequest b x c)
            | .ok p =>
              if !x.body.mayTouch p then .next (failRequest b x .pageProtect)
              else .next (b.modFlight num fun y => { y with
                cube := e.cube, home := homeOf b p, ilv := some (i, m.mgen), body := y.body.withAddr p.addr }) := by
  have here' : (decide (x.at_ ≠ x.cube)) = false := by simp [here]
  have newer' : decide ((s.cube x.cube).imap.mgen.toNat ≤ g.toNat) = false := by simpa using newer
  unfold execRequestRemap
  simp only [hx, hi, hk, here', goes, hs, serves, newer', first, decide_false, Bool.or_false, Bool.false_eq_true, if_false]
    <;> rfl

end Retry

theorem behindPair_false {s : State} {x : Flight}
    (h : x.cls = .ordered → ∀ y ∈ s.flights, y.ord < x.ord → y.cls = .ordered → y.src.same x.src = true → x.home ∈ y.dests →
      (s.keptOf y).isSome = true) : behindPair s x = false := by
  unfold behindPair
  by_cases hc : x.cls = .ordered
  · rw [Bool.and_eq_false_iff, List.any_eq_false]
    refine .inr fun y hy => ?_
    simp only [Bool.and_eq_true, decide_eq_true_eq, beq_iff_eq, List.contains_iff_mem, Option.isNone_iff_eq_none, not_and]
    rintro ⟨⟨⟨ord, cls⟩, src⟩, home⟩ unanswered
    have answered := h hc y hy ord cls src home
    rw [unanswered] at answered
    exact nomatch answered
  · simp [hc]

end Sys2Proof.Machine

namespace Sys2Proof.Safety

open Sys2Proof Sys2Proof.Machine

/-! ### The parts of O55 -/

theorem loadDone_parts {c : Ctx} {req : Nat} {p : Pend} (h : c.pend.find? (fun z => z.num == req) = some p)
    (bs : List Byte) :
    let d := c.loadDone req bs
    (∀ z ∈ d.pend, z.num ≠ req) ∧ d.unacked = c.unacked - (if p.amo.isSome then 1 else 0) ∧
    (p.dest.vec = none →
      let y : Word := BitVec.ofNat 64 (natOfBytes bs)
      (∀ k, k < 32 → p.dst = some k → d.regs.g[k]? = some y) ∧
      (∀ k, p.dst ≠ some k → d.regs.g[k]? = c.regs.g[k]?) ∧ d.regs.v = c.regs.v ∧
      (1 ≤ p.age → p.age ≤ c.regs.gq.length → p.age ≤ 16 → d.regs.gq[p.age - 1]? = some y) ∧
      (16 < p.age → d.regs.gq = c.regs.gq)) ∧
    (∀ l, p.dest.vec = some l → d.regs.g = c.regs.g ∧ d.regs.gq = c.regs.gq ∧
      (∀ k v, l.reg = some k → c.regs.v[k]? = some v → d.regs.v[k]? = some (putLanes v (laneValues l bs))) ∧
      (∀ k, l.reg ≠ some k → d.regs.v[k]? = c.regs.v[k]?) ∧
      (∀ v, 1 ≤ p.age → p.age ≤ 16 → c.regs.vq[p.age - 1]? = some v →
        d.regs.vq[p.age - 1]? = some (putLanes v (laneValues l bs)))) := by
  intro d
  have hd := Ctx.loadDone_eq h bs
  have regs : d.regs = c.regs.loaded p p.age bs := congrArg Ctx.regs hd
  refine ⟨fun z hz => ?_, ?_, fun hv => ?_, fun l hv => ?_⟩
  · rw [show d.pend = _ from congrArg Ctx.pend hd] at hz
    obtain ⟨q, hq, rfl⟩ := List.mem_map.mp hz
    simpa using (List.mem_filter.mp hq).2
  · rw [show d.unacked = _ from congrArg Ctx.unacked hd]
    split
    · rfl
    · rfl
  · obtain ⟨v, gq, g⟩ := Regs.loaded_scalar hv c.regs p.age bs
    rw [regs]
    refine ⟨fun k hk hp => ?_, fun k hp => ?_, v, fun low len top => ?_, fun high => ?_⟩
    · rw [g, hp]
      exact Vector.getElem?_setIfInBounds_self_of_lt hk
    · rw [g]
      cases e : p.dst with
      | none => rfl
      | some j => exact getElem?_setIfInBounds_of_some_ne _ _ (e ▸ hp)
    · rw [gq, if_pos top]
      exact List.getElem?_set_self (by omega)
    · rw [gq, if_neg (by omega)]
  · obtain ⟨g, gq, vq, v⟩ := Regs.loaded_vector hv c.regs p.age bs
    rw [regs]
    refine ⟨g, gq, fun k w hl hw => ?_, fun k hl => ?_, fun w low top hw => ?_⟩
    · obtain ⟨hk, -⟩ := Vector.getElem?_eq_some_iff.mp hw
      rw [v, hl]
      dsimp only
      rw [hw]
      exact Vector.getElem?_setIfInBounds_self_of_lt hk
    · rw [v]
      cases e : l.reg with
      | none => rfl
      | some j => exact getElem?_setIfInBounds_of_some_ne _ _ (e ▸ hl)
    · rw [vq, if_pos top]
      simp [hw]

theorem loadFailed_parts {c : Ctx} {req : Nat} {p : Pend} (h : c.pend.find? (fun z => z.num == req) = some p)
    (code : TrapCode) (away : Word) :
    let d := c.loadFailed req code away
    let report := fun (t : TrapReport) => (t.code, t.addr, t.pc, t.source)
    d.unacked = c.unacked - (if p.amo.isSome then 1 else 0) ∧
    (∀ u, p.undo = some u → d.trap.map report = some (code, p.off + away, p.pc, 0) ∧ d.regs.pc = u.regs.pc ∧
      d.regs.g = u.regs.g ∧ d.regs.gq = u.regs.gq ∧ d.regs.v = u.regs.v ∧ d.regs.vq = u.regs.vq ∧ d.regs.m = u.regs.m ∧
      ∀ z ∈ d.pend, (assoc u.ages z.num).isSome = true) ∧
    (p.undo = none → d.regs = c.regs ∧ (c.trap = none → d.trap.map report = some (code, p.off + away, p.pc, 0))) := by
  intro d report
  have less (n : Nat) : (if p.amo.isSome then n - 1 else n) = n - (if p.amo.isSome then 1 else 0) := by
    split
    · rfl
    · rfl
  cases hu : p.undo with
  | none =>
    obtain ⟨regs, unacked, trap⟩ := Ctx.loadFailed_standing h hu code away
    refine ⟨unacked.trans (less _), fun _ e => (nomatch e), fun _ => ⟨regs, fun untrapped => ?_⟩⟩
    rw [show d.trap = _ from trap, untrapped]
    rfl
  | some u =>
    obtain ⟨regs, unacked, pend, trap⟩ := Ctx.loadFailed_undone h hu code away
    refine ⟨unacked.trans (less _), fun v e => ?_, fun e => (nomatch e)⟩
    cases e
    rw [show d.trap = _ from trap, show d.regs = _ from regs, show d.pend = _ from pend]
    refine ⟨rfl, rfl, rfl, rfl, rfl, rfl, rfl, fun z hz => ?_⟩
    obtain ⟨q, -, hq⟩ := List.mem_filterMap.mp hz
    obtain ⟨a, ha, rfl⟩ := Option.map_eq_some_iff.mp hq
    exact Option.isSome_of_eq_some ha

section Retry

variable {s : State} {num : Nat} {x : Flight}

theorem retryTimeout_sends (hx : s.request num = some x) (hk : s.keptOf x = none) (hs : x.sends ≠ 0)
    (serves : (s.cube x.src.place.1).tripped = false) (few : x.sends < 7) (stays : (s.cube x.cube).removed = false) :
    let again := x.resent s.numCtr
    (x.waiting = true → ∃ t, exec (.retryTimeout num) s = .next t ∧ t.mem = s.mem ∧ again ∈ t.flights) ∧
    (x.waiting = false → ∃ t, exec (.retryTimeout num) s = .next t ∧ t.mem = s.mem ∧
      { x with sends := x.sends + 1, retry := 2 * x.retry } ∈ t.flights ∧ { again with num := s.numCtr } ∈ t.flights) := by
  intro again
  have unanswered := execRetryTimeout_unanswered hx hk hs
  have goes : (decide (7 ≤ x.sends) || (s.cube x.cube).removed) = false := by simp [stays, few]
  simp only [serves, goes, Bool.false_eq_true, if_false] at unanswered
  have here : x ∈ ((focusSource s x).errCount x.src.place.1 8).flights := by simpa using State.request_mem hx
  have request : (x.cls == .reply) = false := by simpa using State.request_cls hx
  refine ⟨fun waits => ⟨_, unanswered.trans (if_pos waits), by simp, ?_⟩,
    fun runs => ⟨_, unanswered.trans (if_neg (by simp [runs])), by simp, ?_, ?_⟩⟩
  · simpa [request] using State.modFlight_flights
      (fun y => if y.cls == .reply then y else y.resent s.numCtr) here (State.request_num hx)
  · refine List.mem_append_left _ ?_
    simpa [request] using State.modFlight_flights
      (fun y => if y.cls == .reply then y else { y with sends := y.sends + 1, retry := 2 * y.retry }) here
      (State.request_num hx)
  · refine List.mem_append_right _ ?_
    simp [State.modFlight, again]

theorem requestRemap_resolves {i : Nat} {g : BitVec 16} (hx : s.request num = some x) (hk : s.keptOf x = none)
    (hs : x.sends ≠ 0) (hi : x.ilv = some (i, g)) (here : x.at_ = x.cube) (goes : x.waiting = false)
    (serves : (s.cube x.cube).tripped = false) (newer : g.toNat < (s.cube x.cube).imap.mgen.toNat)
    (first : behindPair s x = false) :
    let m := (s.cube x.cube).imap
    (∀ e l, x.body.addr = none → mapResolve m i = some (e, l) → e.lost = false →
      ∃ t, exec (.requestRemap num) s = .next t ∧ t.mem = s.mem ∧
        { x with cube := e.cube, home := stoveHome e.cube, ilv := some (i, m.mgen) } ∈ t.flights) ∧
    (∀ a e l p, x.body.addr = some a → mapResolve m (i / 4096 * 4096 + a % 4096) = some (e, l) → e.lost = false →
      classify (focusSource s x) e.cube l (some (i / 4096 * 4096 + a % 4096)) false = .ok p → x.body.mayTouch p = true →
      ∃ t, exec (.requestRemap num) s = .next t ∧ t.mem = s.mem ∧
        { x with cube := e.cube, home := homeOf (focusSource s x) p, ilv := some (i / 4096 * 4096 + a % 4096, m.mgen),
                 body := x.body.withAddr p.addr } ∈ t.flights) := by
  intro m
  have older := execRequestRemap_older hx hk hs hi here goes serves newer first
  have stands : x ∈ (focusSource s x).flights := by simpa using State.request_mem hx
  refine ⟨fun e l ha resolved kept => ⟨_, ?_, ?_, State.modFlight_flights (fun y => { y with
      cube := e.cube, home := stoveHome e.cube, ilv := some (i, m.mgen) }) stands (State.request_num hx)⟩,
    fun a e l p ha resolved kept classified touches =>
      ⟨_, ?_, ?_, State.modFlight_flights (fun y => { y with
        cube := e.cube, home := homeOf (focusSource s x) p, ilv := some (i / 4096 * 4096 + a % 4096, m.mgen)
        body := y.body.withAddr p.addr }) stands (State.request_num hx)⟩⟩
  · refine older.trans ?_
    simp only [ha, resolved, m, kept, Bool.false_eq_true, if_false]
  · exact focusSource_mem ..
  · refine older.trans ?_
    simp only [ha, resolved, m, kept, classified, touches, Bool.not_true, Bool.false_eq_true, if_false]
  · exact focusSource_mem ..

end Retry

theorem packetHop_moves {s : State} {num dir i : Nat} {x : Flight}
    (hi : (s.flights.findIdx? fun f => f.num == num && mayHop s f dir) = some i) (hx : s.flights[i]? = some x) :
    exec (.packetHop num dir) s = .next (hop s i dir x) := by
  change execPacketHop num dir s = _
  unfold execPacketHop
  rw [hi]
  dsimp only
  rw [hx]

theorem hop_single {s : State} {dir i : Nat} {x : Flight} (hx : s.flights[i]? = some x) (hm : x.members = []) :
    (hop s i dir x).flights = s.flights.set i { x with at_ := neighbourCube x.at_ dir } := by
  rw [hop, if_pos (by simp [hm])]
  simp [List.modify_eq_set_getElem?, hx]

/-- A packet to one place may take the fixed route (R380). -/
theorem mayHop_ordered {s : State} {dir : Nat} {x : Flight} (goes : x.waiting = false) (one : x.members = [])
    (away : x.at_ ≠ x.cube) (sent : x.sends ≠ 0) (serves : (s.cube x.at_).tripped = false)
    (route : orderedDir s x.route x.at_ x.cube = some dir) (carries : linkCarries s x dir = true) :
    mayHop s x dir = true := by
  simp [mayHop, goes, one, away, sent, serves, route, carries]

/-- Settles O55: what each reply, refusal and retry does at the sender, by the meaning of its event. -/
theorem senderEvents : Obligations.SenderEvents := by
  refine ⟨fun s num x body b h => ⟨fun straight => ⟨?_, ?_, ?_⟩, ?_, ?_, ?_, ?_⟩, ?_, fun c req bs p h => loadDone_parts h bs,
    fun c req code away p h => loadFailed_parts h code away, fun s num x hx hk hs => ⟨?_, ?_, ?_, ?_⟩,
    fun s num dir i x hi hx => ⟨fun hm => ?_, fun _ => packetHop_moves hi hx⟩,
    fun s dir x goes one away sent serves route carries => mayHop_ordered goes one away sent serves route carries⟩
  · exact fun bs d req err hb ready => execReplyWithData_data h straight hb ready
  · exact fun bs id p bad core hb hc => execReplyWithData_copyData h straight hb hc
  · exact fun req a hb => execReplyWithData_onceData h straight hb
  · exact fun n r hb hc => execAcknowledgement_ack h hb hc
  · exact fun d id p r core hb hc => execAcknowledgement_copied h hb hc
  · intro place hb
    have admitted := execAdmissionReply_admitted h hb
    refine ⟨fun cube k hs => ⟨_, admitted.trans (congrArg _ (packetAnswered_host b hs)), ?_, ?_⟩, fun core hs asks => ?_,
      fun core hs asks => ?_⟩
    · exact slotDone_slotStat ..
    · exact (slotDone_mem ..).trans (mem_of_replied h)
    · exact admitted.trans (by rw [packetAnswered_main b hs, if_pos asks])
    · exact admitted.trans (by rw [packetAnswered_main b hs, if_neg (by simp [asks])])
  · exact fun atom id p core hb hc => execOwnershipGrant_grant h hb hc
  · intro s num x y code hx hb hy waits b
    refine ⟨fun hc => ⟨_, execNack_again hx hb hy waits hc, by simp, sendAgain_errs b num, fun f hf hn hr =>
      sendAgain_flights b num hf hn hr⟩, fun c hc other => ?_⟩
    subst hc
    exact execNack_refused hx hb hy waits other
  · intro tripped
    exact (execRetryTimeout_unanswered hx hk hs).trans (if_pos tripped)
  · intro serves few stays again
    exact ⟨rfl, rfl, rfl, rfl, rfl, retryTimeout_sends hx hk hs serves few stays⟩
  · intro serves gives
    refine (execRetryTimeout_unanswered hx hk hs).trans ?_
    rw [if_neg (by simp [serves]), if_pos (by simpa using gives)]
  · intro i g hi here goes serves newer first
    exact requestRemap_resolves hx hk hs hi here goes serves newer (behindPair_false first)
  · refine ⟨_, packetHop_moves hi hx, ?_, ?_, hop_single hx hm⟩
    · simp
    · rw [hop, hm]
      rfl

end Sys2Proof.Safety
end

