-- ==== Sys2Proof/Proofs/StoveAnswers.lean ====
section
/-! SUPPORT. How a command of a Stove core is answered (R455), and what the operations of the commands leave of a cube. -/

namespace Sys2Proof.Machine

open Sys2Proof Sys2Proof.Safety

/-! ### Events of a cube and of a core in service -/

theorem cubeEvent_next {s : State} {cube : Nat} (h : InService s cube) (f : State → State) :
    cubeEvent cube f s = .next (f (s.focus (cube * 256))) := by
  obtain ⟨hc, serves⟩ := h
  unfold cubeEvent
  rw [if_neg (by omega), if_neg (by simp [serves])]

theorem coreEvent_next {s : State} {core : Nat} (h : CoreInService s core) (f : State → State) :
    coreEvent core f s = .next (f (s.focus core)) := by
  obtain ⟨hc, serves⟩ := h
  unfold coreEvent
  rw [if_neg (by omega), if_neg (by simp [serves])]

theorem coreInService_of_cube {s : State} {cube core : Nat} (h : InService s cube) (hc : core / 256 = cube) :
    CoreInService s core :=
  ⟨by have := h.1; omega, hc ▸ h.2⟩

@[simp] theorem State.modStove_cube_same (s : State) (c : Nat) (f : Stove → Stove) :
    (s.modStove c f).cube c = { s.cube c with stove := f (s.cube c).stove } :=
  State.modCube_cube_same ..

/-! ### Cubes after a change of every cube -/

theorem assoc_map {α β : Type} (g : α → β) (l : List (Nat × α)) (k : Nat) :
    assoc (l.map fun p => (p.1, g p.2)) k = (assoc l k).map g := by
  unfold assoc
  induction l with
  | nil => rfl
  | cons p l ih =>
    by_cases h : p.1 = k
    · simp [h]
    · simpa [h] using ih

/-- A cube after a change of every listed cube, which a cube after reset does not show. -/
theorem cube_of_map {s t : State} (g : Cube → Cube) (h : t.cubes = s.cubes.map fun p => (p.1, g p.2)) (c : Nat)
    (hg : g (Cube.reset c) = Cube.reset c) : t.cube c = g (s.cube c) := by
  unfold State.cube
  rw [h, assoc_map]
  cases assoc s.cubes c with
  | none => exact hg.symm
  | some q => rfl

/-! ### Answers -/

/-- A Stove whose mailboxes hold the commands of another. -/
def SameMail (a b : Stove) : Prop := b.unanswered = a.unanswered ∧ b.posted = a.posted

/-- How a Stove stands after the answer to what another held of a Stove core and a code (R455). -/
def Answers (q : Stove) (k code status : Nat) (v : Stove) : Prop :=
  match q.command k with
  | some w => if commandCode w = code then
      v.unanswered = q.unanswered.filter (fun j => j != k) ∧
        windowWord v.rsp k 0 = BitVec.ofNat 64 (status + (w.extractLsb' 16 16).toNat * 2 ^ 16)
    else v.unanswered = q.unanswered
  | none => v.unanswered = q.unanswered

/-- A cube with other contents of the mailbox windows. -/
def Cube.mailed (c : Cube) (x : List Nat) (p : List (Nat × List (BitVec 64))) (r : List (Nat × Nat × BitVec 64)) : Cube :=
  { c with stove := { c.stove with unanswered := x, posted := p, rsp := r } }

theorem windowWord_answered (l : List (Nat × Nat × BitVec 64)) (k : Nat) (v : BitVec 64) :
    windowWord ((l.filter fun r => r.1 != k) ++ [(k, 0, v)]) k 0 = v := by
  have gone : (l.filter fun r => r.1 != k).find? (fun r => r.1 == k && r.2.1 == 0) = none := by
    rw [List.find?_eq_none]
    intro r hr
    have other : r.1 ≠ k := by simpa using (List.mem_filter.mp hr).2
    simp [other]
  unfold windowWord
  rw [List.find?_append, gone]
  simp

section Answer

variable {s t : State} {cube k code status : Nat}

theorem answerPosted_cube (s : State) (cube k : Nat) (w : BitVec 64) (status : Nat) :
    ∃ x p r, (answerPosted s cube k w status).cube cube = (s.cube cube).mailed x p r :=
  ⟨_, _, _, State.modStove_cube_same ..⟩

theorem answerCommand_cube (s : State) (cube k code status : Nat) :
    ∃ x p r, (answerCommand s cube k code status).cube cube = (s.cube cube).mailed x p r := by
  unfold answerCommand
  split
  · split
    · exact answerPosted_cube ..
    · exact ⟨_, _, _, rfl⟩
  · exact ⟨_, _, _, rfl⟩

theorem SameMail.command {a b : Stove} (h : SameMail a b) (k : Nat) : b.command k = a.command k := by
  unfold Stove.command
  rw [h.1, h.2]

theorem answerCommand_answers {q : Stove} (h : SameMail q (t.cube cube).stove) (k code status : Nat) :
    Answers q k code status ((answerCommand t cube k code status).cube cube).stove := by
  unfold answerCommand Answers
  rw [h.command]
  cases q.command k with
  | none => exact h.1
  | some w =>
    dsimp only
    by_cases hw : commandCode w = code
    · rw [if_pos hw, if_pos hw, answerPosted, State.modStove_cube_same]
      exact ⟨congrArg _ h.1, windowWord_answered ..⟩
    · rw [if_neg hw, if_neg hw]
      exact h.1

@[simp] theorem answerCommand_core (s : State) (cube k code status : Nat) :
    (answerCommand s cube k code status).core = s.core := by
  unfold answerCommand
  split
  · split
    · rfl
    · rfl
  · rfl

@[simp] theorem answerCommand_removal (s : State) (cube k code status : Nat) :
    (answerCommand s cube k code status).removal = s.removal := by
  unfold answerCommand
  split
  · split
    · rfl
    · rfl
  · rfl

/-- A state that an answer completes: what holds of its cube whatever the mailbox windows hold, with the answer. -/
theorem answerCommand_gives {q : Stove} {P : Cube → Prop} (mail : SameMail q (t.cube cube).stove) (mem : t.mem = s.mem)
    (hP : ∀ x p r, P ((t.cube cube).mailed x p r)) :
    let u := answerCommand t cube k code status
    P (u.cube cube) ∧ u.mem = s.mem ∧ Answers q k code status (u.cube cube).stove := by
  obtain ⟨x, p, r, hc⟩ := answerCommand_cube t cube k code status
  exact ⟨hc ▸ hP x p r, (answerCommand_mem ..).trans mem, answerCommand_answers mail ..⟩

end Answer

/-! ### Commands -/

section Command

variable {s t : State} {cube k code : Nat} {f : State → Option State}

theorem commandOn_held (off : (s.cube cube).stove.performs k ≠ true) : commandOn cube k code f s = s := by
  unfold commandOn
  rw [if_pos (by simpa using off)]

theorem commandOn_performed (on : (s.cube cube).stove.performs k = true) (hf : f s = some t) :
    commandOn cube k code f s = answerCommand t cube k code 0 := by
  unfold commandOn
  rw [if_neg (by simp [on]), hf]

theorem commandOn_unsupported (on : (s.cube cube).stove.performs k = true) (hf : f s = none) :
    commandOn cube k code f s = answerCommand s cube k code 0x62 := by
  unfold commandOn
  rw [if_neg (by simp [on]), hf]

theorem stoveCommand_held (h : InService s cube) (off : (s.cube cube).stove.performs k ≠ true) :
    stoveCommand cube k code f s = .next (s.focus (cube * 256)) :=
  (cubeEvent_next h _).trans (congrArg _ (commandOn_held (by simpa using off)))

/-- A command that a released Stove core performs. -/
theorem stoveCommand_does {P : Cube → Prop} (h : InService s cube) (on : (s.cube cube).stove.performs k = true)
    (hf : f (s.focus (cube * 256)) = some t) (mem : t.mem = s.mem) (mail : SameMail (s.cube cube).stove (t.cube cube).stove)
    (hP : ∀ x p r, P ((t.cube cube).mailed x p r)) :
    ∃ u, stoveCommand cube k code f s = .next u ∧ P (u.cube cube) ∧ u.mem = s.mem ∧
      Answers (s.cube cube).stove k code 0 (u.cube cube).stove :=
  ⟨_, (cubeEvent_next h _).trans (congrArg _ (commandOn_performed (by simpa using on) hf)),
    answerCommand_gives mail mem hP⟩

/-- A command that a released Stove core does not support. -/
theorem stoveCommand_refuses {P : Cube → Prop} (h : InService s cube) (on : (s.cube cube).stove.performs k = true)
    (hf : f (s.focus (cube * 256)) = none) (hP : ∀ x p r, P ((s.cube cube).mailed x p r)) :
    ∃ u, stoveCommand cube k code f s = .next u ∧ P (u.cube cube) ∧ u.mem = s.mem ∧
      Answers (s.cube cube).stove k code 0x62 (u.cube cube).stove :=
  ⟨_, (cubeEvent_next h _).trans (congrArg _ (commandOn_unsupported (by simpa using on) hf)),
    answerCommand_gives (by simp [SameMail]) (State.focus_mem ..) (by simpa using hP)⟩

/-- A command of a released Stove core on a core. -/
theorem stoveCoreCommand_performed {core : Nat} {g : State → State} (h : CoreInService s core)
    (on : (s.cube (core / 256)).stove.performs k = true) :
    stoveCoreCommand core k code g s = .next (answerCommand (g (s.focus core)) (core / 256) k code 0) :=
  (coreEvent_next h _).trans (congrArg _ (commandOn_performed (by simpa using on) rfl))

end Command

/-! ### A write of DOOR -/

theorem Stove.post_frame (t : Stove) (n : Notice) :
    ∃ x y, t.post n = { t with notices := x, heldNotices := y } := by
  unfold Stove.post
  split
  · exact ⟨_, _, rfl⟩
  · exact ⟨_, _, rfl⟩

/-- The Stove when REQ k has been posted to the mailbox of a core that has no command. -/
theorem posted_stove (s : State) (cube k : Nat) (ws : List (BitVec 64)) :
    let v := (((s.notice cube k noticeCommand).modStove cube fun t => { t with
      unanswered := t.unanswered ++ [k], posted := assocSet t.posted k ws }).cube cube).stove
    v.unanswered = (s.cube cube).stove.unanswered ++ [k] ∧ assoc v.posted k = some ws ∧ v.rsp = (s.cube cube).stove.rsp := by
  obtain ⟨x, y, hp⟩ := (s.cube cube).stove.post_frame ⟨k, noticeCommand, 0⟩
  simp only [State.notice, State.noticeOf, State.modStove_cube_same, hp]
  exact ⟨trivial, by rw [assoc_assocSet, if_pos rfl], trivial⟩

/-- What a write of DOOR does to a core that has no command (R453, R455). -/
theorem ringDoor_results {s : State} {cube k : Nat} (free : k ∉ (s.cube cube).stove.unanswered) :
    let t := (s.cube cube).stove
    let ws := (List.range 8).map fun j => windowWord t.req k j
    let v := ((ringDoor s cube k).cube cube).stove
    ((t.recov && decide (k = 6) && !t.run.getLsbD 6 || (t.performs k && unsupportedNotice k ws)) = false →
      v.unanswered = t.unanswered ++ [k] ∧ assoc v.posted k = some ws) ∧
    ((t.recov && decide (k = 6) && !t.run.getLsbD 6 || (t.performs k && unsupportedNotice k ws)) = true →
      k ∉ v.unanswered ∧
        windowWord v.rsp k 0 = BitVec.ofNat 64 (0x62 + ((ws.headD 0).extractLsb' 16 16).toNat * 2 ^ 16)) := by
  intro t ws v
  obtain ⟨unanswered, posted, -⟩ := posted_stove s cube k ws
  have hv : v = ((ringDoor s cube k).cube cube).stove := rfl
  unfold ringDoor at hv
  rw [if_neg (by simpa using free)] at hv
  refine ⟨fun no => ?_, fun yes => ?_⟩
  · rw [hv, if_neg (by simpa using no)]
    exact ⟨unanswered, posted⟩
  · rw [hv, if_pos yes]
    unfold answerPosted
    rw [State.modStove_cube_same]
    exact ⟨by simp, windowWord_answered ..⟩

/-! ### What operations on threads leave of a cube -/

/-- What a change of saved contexts leaves of a cube, a change of a thread leaves. -/
theorem State.modThread_keeps {α : Type} {p : Cube → α}
    (h : ∀ q l, p { q with stove := { q.stove with saved := l } } = p q) (s : State) (tid : Nat) (f : Ctx → Ctx) (c : Nat) :
    p ((s.modThread tid f).cube c) = p (s.cube c) := by
  have changed : (s.modThread tid f).cube c = _ := cube_of_map (s := s) (fun q => { q with stove := { q.stove with
    saved := q.stove.saved.map fun v => { v with
      ctx := if v.ctx.tid = tid && v.ctx.present then f v.ctx else v.ctx } } }) rfl c rfl
  rw [changed, h]

theorem settleStops_keeps {α : Type} {p : Cube → α}
    (h : ∀ q l, p { q with stove := { q.stove with saved := l } } = p q) (s : State) (core c : Nat) :
    p ((settleStops s core).cube c) = p (s.cube c) := by
  unfold settleStops
  dsimp only
  split
  · rfl
  · refine (State.modCube_keeps (p := p) (by intro; exact h ..) ..).trans ?_
    rw [State.modCore_cube]

/-- A gang that is pre-empted is held, and its cube otherwise keeps what does not speak of saved contexts (R37). -/
theorem preempt_cube {α : Type} {p : Cube → α} (h : ∀ q l, p { q with stove := { q.stove with saved := l } } = p q)
    {s : State} {cube n : Nat} {g : Gang} (hg : (s.cube cube).gangs.find? (fun x => x.id == n) = some g) :
    ∃ q, p q = p (s.cube cube) ∧ (preempt s cube n).cube cube = { q with
      gangs := q.gangs.map fun x => if x.id = n then { x with held := true, moved := false } else x } := by
  unfold preempt
  rw [hg]
  dsimp only
  rw [modGang, State.modCube_cube_same]
  refine ⟨_, ?_, rfl⟩
  refine List.foldlRecOn (motive := fun t => p (State.cube t cube) = p (s.cube cube)) _ _ rfl fun t ht m _ => ?_
  split
  · exact ht
  · split
    · rw [State.modCore_cube, ht]
    · split
      · exact (settleStops_keeps h ..).trans ((State.modThread_keeps h ..).trans ht)
      · exact ht

theorem held_of_preempted {l : List Gang} {n : Nat} {g : Gang} (h : l.find? (fun x => x.id == n) = some g) :
    ((l.map fun x => if x.id = n then { x with held := true, moved := false } else x).find? fun x => x.id == n).map
      Gang.held = some true := by
  induction l with
  | nil => exact nomatch h
  | cons x l ih =>
    by_cases hx : x.id = n
    · simp [hx]
    · simpa [hx] using ih (by simpa [hx] using h)

/-! ### Stations -/

theorem dropStation_cube (s : State) (k c : Nat) :
    (dropStation s k).cube c = { s.cube c with stove := { (s.cube c).stove with
      stations := (s.cube c).stove.stations.filter fun e => e.station != k } } :=
  cube_of_map (fun q => { q with stove := { q.stove with
    stations := q.stove.stations.filter fun e => e.station != k } }) rfl c rfl

/-- A state in which no hearth holds a word (R252). -/
def State.wordless (s : State) : State := { s with cubes := s.cubes.map fun p => (p.1, { p.2 with icache := [] }) }

theorem State.wordless_cube (s : State) (c : Nat) : s.wordless.cube c = { s.cube c with icache := [] } :=
  cube_of_map (fun q => { q with icache := [] }) rfl c rfl

/-- The cube after the flush of the last station (R403). -/
theorem flushStation_last {s : State} {cube k : Nat} (h : (s.cube cube).stove.flushing = [k]) :
    ∃ t, flushStation s cube k = answerCommand t cube 2 0x0201 0 ∧ t.mem = s.mem ∧
      t.cube cube = { s.cube cube with
        icache := []
        stove := { (s.cube cube).stove with
          flushing := [], stations := (s.cube cube).stove.stations.filter fun e => e.station != k } } := by
  have flushed : ((dropStation s k).modStove cube fun t => { t with flushing := t.flushing.erase k }).cube cube =
      { s.cube cube with stove := { (s.cube cube).stove with
          flushing := [], stations := (s.cube cube).stove.stations.filter fun e => e.station != k } } := by
    rw [State.modStove_cube_same, dropStation_cube, h]
    simp
  refine ⟨((dropStation s k).modStove cube fun t => { t with flushing := t.flushing.erase k }).wordless, ?_, rfl,
    (State.wordless_cube ..).trans (by rw [flushed])⟩
  unfold flushStation
  rw [if_neg (by simp [h])]
  dsimp only
  rw [if_neg (by rw [flushed]; simp)]
  rfl

/-! ### The retirement of a flue -/

/-- A flue that is retired while fewer than eight are (R242). -/
theorem retire_cube {s : State} {cube flue : Nat} (few : retired (s.cube cube) < 8) :
    Logged { s.cube cube with
      fmap := (s.cube cube).fmap.map fun e => if e = .inl flue then .inr (retired (s.cube cube)) else e
      fgen := (s.cube cube).fgen + 1, flues := Vector.replicate 64 Flue.reset
      errs := ((retire s cube flue).cube cube).errs } ((retire s cube flue).cube cube) := by
  unfold retire
  dsimp only
  rw [if_neg (by omega)]
  generalize ht : s.modCube cube _ = t
  have logged := logError_logged ((rehome t).errCount cube 14) cube 0x70 sevDegraded flue cube
  have switched : ((rehome t).errCount cube 14).cube cube = { s.cube cube with
      fmap := (s.cube cube).fmap.map fun e => if e = .inl flue then .inr (retired (s.cube cube)) else e
      fgen := (s.cube cube).fgen + 1, flues := Vector.replicate 64 Flue.reset
      errs := (((rehome t).errCount cube 14).cube cube).errs } := by
    have stands : (rehome t).cube cube = t.cube cube := rfl
    rw [State.errCount, State.modCube_cube_same, stands, ← ht, State.modCube_cube_same]
  obtain ⟨x, hx, hq, hl⟩ := logged
  rw [hx]
  exact ⟨x, by rw [switched], by rw [hq, switched], by rw [hl, switched]⟩

end Sys2Proof.Machine
end

