-- ==== Sys2Proof/Proofs/StoveCommands.lean ====
section
/-! SUPPORT and the proof of O51: the commands of the Stove (R455). -/

namespace Sys2Proof.Machine

open Sys2Proof Sys2Proof.Safety

section Tables

variable {s : State} {cube : Nat}

@[simp] theorem State.focus_me (s : State) (i : Nat) : (s.focus i).me = i := by
  unfold State.focus
  split
  · next e => exact e.symm
  · rfl

@[simp] theorem State.focus_removal (s : State) (i : Nat) : (s.focus i).removal = s.removal := by
  unfold State.focus
  split <;> rfl

@[simp] theorem State.focus_cubes (s : State) (i : Nat) : (s.focus i).cubes = s.cubes := by
  unfold State.focus
  split <;> rfl

theorem find?_dropped {α : Type} (l : List α) (p : α → Bool) : (l.filter fun y => !p y).find? p = none :=
  List.find?_eq_none.mpr fun y hy => by simpa using (List.mem_filter.mp hy).2

/-- The entry that replaces those with a property is found first. -/
theorem find?_replaced {α : Type} (l : List α) (p : α → Bool) {x : α} (hx : p x = true) :
    ((l.filter fun y => !p y) ++ [x]).find? p = some x := by
  rw [List.find?_append, find?_dropped]
  simp [hx]

/-- A command that changes what a Stove holds besides its mailboxes. -/
theorem stoveCommand_writes {k code : Nat} {f : State → Option State} {P : Cube → Prop} (h : InService s cube)
    (on : (s.cube cube).stove.performs k = true) (g : Stove → Stove)
    (hf : f (s.focus (cube * 256)) = some ((s.focus (cube * 256)).modStove cube g)) (mail : ∀ t, SameMail t (g t))
    (hP : ∀ x p r, P (Cube.mailed { s.cube cube with stove := g (s.cube cube).stove } x p r)) :
    ∃ u, stoveCommand cube k code f s = .next u ∧ P (u.cube cube) ∧ u.mem = s.mem ∧
      Answers (s.cube cube).stove k code 0 (u.cube cube).stove := by
  have hc : ((s.focus (cube * 256)).modStove cube g).cube cube = { s.cube cube with stove := g (s.cube cube).stove } := by
    rw [State.modStove_cube_same, State.focus_cube]
  exact stoveCommand_does h on hf (State.focus_mem ..) (hc ▸ mail _) (hc ▸ hP)

/-! ### Each command in its order -/

/-- The boot ROM answers an open mailbox in recovery whose core does not run (R452). -/
theorem Stove.rom_iff {t : Stove} {k : Nat} (opens : t.recov = false ∨ k = 6) :
    (t.recov && decide (k = 6) && !t.run.getLsbD 6) = true ↔ t.recov = true ∧ ¬t.performs k = true := by
  unfold Stove.performs
  rcases opens with calm | rfl
  · simp [calm]
  · simp

/-- A write of DOOR of a mailbox that holds no command. -/
theorem registerWrite_door (h : InService s cube) {k : Nat} (hk : k < 8)
    (opens : (s.cube cube).stove.recov = false ∨ k = 6) (v : BitVec 64) :
    execRegisterWrite cube (.door k) v s = .next (ringDoor (s.focus (cube * 256)) cube k) := by
  refine (cubeEvent_next h _).trans ?_
  have allowed : (decide (k < 8) && (!((s.focus (cube * 256)).cube cube).stove.recov || decide (k = 6))) = true := by
    rcases opens with e | e
    · simp [hk, e]
    · simp [e]
  dsimp only
  rw [if_pos allowed]

/-- A write of a page-table entry at a home that performs it (R403). -/
theorem writePageTableEntry_written {a : Nat} (h : InService s (a / 2 ^ 47)) (v : BitVec 64) {p : Place} {t : State}
    (on : (s.cube (a / 2 ^ 47)).stove.performs 2 = true) (idle : (s.cube (a / 2 ^ 47)).stove.flushing = [])
    (ha : a % 8 = 0) (hp : classify (s.focus (a / 2 ^ 47 * 256)) (a / 2 ^ 47) (a % 2 ^ 47) none false = .ok p)
    (dram : p.region = .dram)
    (written : homeWrite (s.focus (a / 2 ^ 47 * 256)) (a / 2 ^ 47) none p.addr ((bytesOfNat 8 v.toNat).map some) 0 = .done t) :
    execWritePageTableEntry a v s = .next (t.modStove (a / 2 ^ 47) fun v => { v with flushing := List.range 16 }) := by
  unfold execWritePageTableEntry
  refine (cubeEvent_next h _).trans ?_
  simp only [State.focus_cube, on, idle, ha, hp, dram, written, List.isEmpty_nil, Bool.not_true, Bool.or_false,
    ne_eq, not_true_eq_false, Bool.false_eq_true, if_false]

/-- A segment descriptor that is written (R401). -/
theorem writeSegmentDescriptor_written (h : InService s cube) (on : (s.cube cube).stove.performs 2 = true)
    (asid seg : BitVec 16) {d : BitVec 128} (low : d.extractLsb' 1 16 = 0) (mid : d.extractLsb' 57 7 = 0)
    (high : d.extractLsb' 113 15 = 0) (small : (d.extractLsb' 64 49).toNat ≤ 2 ^ 48) (valid : d.getLsbD 0 = true) :
    ∃ t, execWriteSegmentDescriptor cube asid seg d s = .next t ∧
      (((t.cube cube).stove.segs.find? fun x => x.asid == asid && x.seg == seg) =
          some ⟨asid, seg, (d.extractLsb' 17 40).toNat * 2 ^ 17, (d.extractLsb' 64 49).toNat⟩ ∧
        ∀ x ∈ (t.cube cube).stove.stations, ¬(x.asid = asid ∧ x.seg = seg)) ∧
      t.mem = s.mem ∧ Answers (s.cube cube).stove 2 0x0201 0 (t.cube cube).stove := by
  have fits : decide (2 ^ 48 < (d.extractLsb' 64 49).toNat) = false := decide_eq_false (by omega)
  let g : Stove → Stove := fun t => { t with
    segs := (t.segs.filter fun x => !(x.asid == asid && x.seg == seg)) ++
      [⟨asid, seg, (d.extractLsb' 17 40).toNat * 2 ^ 17, (d.extractLsb' 64 49).toNat⟩]
    stations := t.stations.filter fun x => !(x.asid == asid && x.seg == seg) }
  have hc : (dropWords ((s.focus (cube * 256)).modStove cube g) cube).cube cube =
      { s.cube cube with icache := [], stove := g (s.cube cube).stove } := by
    rw [dropWords, State.modCube_cube_same, State.modStove_cube_same, State.focus_cube]
  refine stoveCommand_does (P := fun c => (c.stove.segs.find? fun x => x.asid == asid && x.seg == seg) =
      some ⟨asid, seg, (d.extractLsb' 17 40).toNat * 2 ^ 17, (d.extractLsb' 64 49).toNat⟩ ∧
      ∀ x ∈ c.stove.stations, ¬(x.asid = asid ∧ x.seg = seg)) h on
    (t := dropWords ((s.focus (cube * 256)).modStove cube g) cube) ?_ (State.focus_mem ..) (hc ▸ ⟨rfl, rfl⟩) fun x p r => ?_
  · dsimp only
    rw [if_neg (by simp only [low, mid, high, fits]; decide), valid]
    rfl
  · rw [hc]
    exact ⟨find?_replaced _ _ (by simp), fun x hx => by simpa [imp_iff_not_or] using (List.mem_filter.mp hx).2⟩

/-- The change of a generation begins (R256). -/
theorem bumpAsidGeneration_begins (h : InService s cube) (asid : BitVec 16) (r : Bool)
    (on : (s.cube cube).stove.performs 2 = true) (idle : (s.cube cube).stove.changing = none) :
    let q := s.cube cube
    let new := generation q asid + 1
    ∃ t, execBumpAsidGeneration cube asid r s = .next t ∧ t.mem = s.mem ∧
      t.cube cube = { q with stove := { q.stove with
        gens := (q.stove.gens.filter fun p => p.1 != asid) ++ (if new = 0 then [] else [(asid, new)])
        changing := some { asid := asid, old := generation q asid, new := new
                           flush := if new = 0 then List.range 16 else [], stations := List.range 16 }
        reflect := (q.stove.reflect.filter fun a => a != asid) ++ (if r then [asid] else []) } } := by
  intro q new
  refine ⟨(s.focus (cube * 256)).modStove cube fun t => { t with
      gens := (t.gens.filter fun p => p.1 != asid) ++ (if new = 0 then [] else [(asid, new)])
      changing := some { asid := asid, old := generation q asid, new := new
                         flush := if new = 0 then List.range 16 else [], stations := List.range 16 }
      reflect := (t.reflect.filter fun a => a != asid) ++ (if r then [asid] else []) },
    (cubeEvent_next h _).trans ?_, ?_, ?_⟩
  · simp only [State.focus_cube, on, idle, Option.isSome_none, Bool.not_true, Bool.or_false, Bool.false_eq_true, if_false]
    rfl
  · exact State.focus_mem ..
  · rw [State.modStove_cube_same, State.focus_cube]

theorem generation_replaced (q : Cube) (asid : BitVec 16) (g : BitVec 8) (x : Option GenChange) (l : List (BitVec 16)) :
    generation { q with stove := { q.stove with
      gens := (q.stove.gens.filter fun p => p.1 != asid) ++ (if g = 0 then [] else [(asid, g)])
      changing := x, reflect := l } } asid = g := by
  unfold generation
  dsimp only
  by_cases wraps : g = 0
  · have gone : (q.stove.gens.filter fun p => p.1 != asid).find? (fun p => p.1 == asid) = none := find?_dropped ..
    rw [if_pos wraps, List.append_nil, gone, wraps]
  · have new : ((q.stove.gens.filter fun p => p.1 != asid) ++ [(asid, g)]).find? (fun p => p.1 == asid) = some (asid, g) :=
      find?_replaced _ _ (beq_self_eq_true asid)
    rw [if_neg wraps, new]

/-- A station that flushes before a generation wraps (R256). -/
theorem writeGen_flushes (h : InService s cube) {g : GenChange} (hg : (s.cube cube).stove.changing = some g) {k : Nat}
    (mine : k ∈ g.flush) :
    performAction (.writeGen cube k) s = .next ((s.focus (cube * 256)).modStove cube fun t => { t with
      stations := t.stations.filter fun e => !(e.station == k && e.asid == g.asid)
      changing := some { g with flush := g.flush.erase k } }) := by
  refine (cubeEvent_next h fun t => writeGeneration t cube k).trans (congrArg _ ?_)
  unfold writeGeneration
  rw [State.focus_cube, hg]
  exact if_pos (by simpa using mine)

/-- The last station that writes a generation (R256). -/
theorem writeGen_ends (h : InService s cube) {g : GenChange} (hg : (s.cube cube).stove.changing = some g) {k : Nat}
    (flushed : g.flush = []) (last : g.stations = [k]) :
    performAction (.writeGen cube k) s = .next (answerCommand (dropWords ((s.focus (cube * 256)).modStove cube fun t => { t with
      changing := none }) cube) cube 2 0x0202 0) := by
  refine (cubeEvent_next h fun t => writeGeneration t cube k).trans (congrArg _ ?_)
  unfold writeGeneration
  rw [State.focus_cube, hg]
  simp [flushed, last]

/-! ### Retirements and removals -/

theorem retireFlue_next (h : InService s cube) (f : Nat) :
    let t := s.focus (cube * 256)
    let q := s.cube cube
    execRetireFlue cube f s = .next (
      if !q.stove.performs 3 then t
      else if !q.fmap.contains (.inl f) then answerCommand t cube 3 0x0302 0x62
      else if 8 ≤ retired q then answerCommand (retire t cube f) cube 3 0x0302 0x62
      else if !q.retiring.isEmpty && !q.retiring.contains f then t
      else if !kernelRuns q && !q.retiring.isEmpty then answerCommand (endRetire t cube f) cube 3 0x0302 0
      else if q.retiring.isEmpty then beginRetire t cube f else t) := by
  unfold execRetireFlue
  rw [cubeEvent_next h, State.focus_cube]

theorem askStop_asked (k : Core) (i : Interrupt) : i ∈ (askStop k i).ctx.pending := by
  unfold askStop
  split
  · next asked => exact List.contains_iff_mem.mp asked
  · simp

/-- A saved thread of a core when its stop has ended. -/
def SavedCtx.released (core : Nat) (f : Ctx → Ctx) (v : SavedCtx) : SavedCtx :=
  if v.core = core && v.report.isNone && !v.handled then { v with ctx := f v.ctx, handled := true } else v

theorem SavedCtx.released_handled {core : Nat} {f : Ctx → Ctx} {v : SavedCtx} (hc : (v.released core f).core = core)
    (hr : (v.released core f).report = none) : (v.released core f).handled = true := by
  unfold SavedCtx.released at *
  split at hc
  · next h => rw [if_pos h]
  · next h =>
    rw [if_neg h] at hr ⊢
    simpa [hc, hr] using h

theorem SavedCtx.released_waiting {core : Nat} (f : Ctx → Ctx) {v : SavedCtx} (hc : v.core = core) (hr : v.report = none)
    (hh : v.handled = false) : (v.released core f).ctx = f v.ctx := by
  unfold SavedCtx.released
  rw [if_pos (by simp [hc, hr, hh])]

theorem endStop_saved (s : State) (core : Nat) (f : Ctx → Ctx) :
    ((endStop s core f).cube (core / 256)).stove.saved = (s.cube (core / 256)).stove.saved.map (SavedCtx.released core f) := by
  unfold endStop
  rw [State.modStove_cube_same, State.modCore_cube]
  rfl

theorem endStop_core {s : State} {core : Nat} (me : s.me = core) {f : Ctx → Ctx} (hf : ∀ c, (f c).pending = c.pending) :
    .stop ∉ (endStop s core f).core.ctx.pending := by
  subst me
  have changed : (endStop s s.me f).core = if s.core.ctx.pending.contains .stop then { s.core with
      ctx := f { s.core.ctx with pending := s.core.ctx.pending.filter fun p => p != .stop } } else s.core := by
    simp [endStop, State.modStove, State.modCube, State.modCore, State.setCore, State.getCore]
  rw [changed]
  split
  · simp [hf]
  · next quiet => simpa using quiet

/-- A stop of a core's thread that a released Stove core ends (R455). -/
theorem endStop_results {core k code : Nat} {f : Ctx → Ctx} (h : CoreInService s core)
    (up : (s.cube (core / 256)).stove.performs k = true) (hf : ∀ c, (f c).pending = c.pending) :
    ∃ t, stoveCoreCommand core k code (fun b => endStop b core f) s = .next t ∧ .stop ∉ t.core.ctx.pending ∧
      (t.cube (core / 256)).stove.saved = (s.cube (core / 256)).stove.saved.map (SavedCtx.released core f) := by
  refine ⟨_, stoveCoreCommand_performed h up, ?_, ?_⟩
  · rw [answerCommand_core]
    exact endStop_core (State.focus_me ..) hf
  · obtain ⟨x, p, r, hc⟩ := answerCommand_cube (endStop (s.focus core) core f) (core / 256) k code 0
    rw [hc]
    exact (endStop_saved ..).trans (by rw [State.focus_cube])

theorem markSpareCore_marks {core : Nat} (h : CoreInService s core) (up : (s.cube (core / 256)).stove.performs 3 = true)
    (free : coreFree (s.focus core) (core / 256) core = true)
    (stuck : rollbackStep { s.focus core with core := { (s.focus core).core with spare := true } } = none) :
    execMarkSpareCore core s = .next (answerCommand { s.focus core with core := { (s.focus core).core with spare := true } }
      (core / 256) 3 0x0302 0) := by
  refine (stoveCoreCommand_performed h up).trans ?_
  rw [if_neg (by simp [free])]
  exact congrArg (fun t : Option State => Host.Outcome.next (answerCommand (t.getD _) _ _ _ _)) stuck

theorem stopThread_asks {core : Nat} (h : CoreInService s core) (up : (s.cube (core / 256)).stove.performs 7 = true)
    (live : (s.focus core).core.ctx.live = true) :
    execStopThread core s = .next (answerCommand { s.focus core with core := askStop (s.focus core).core .stop }
      (core / 256) 7 0x0701 0) := by
  refine (stoveCoreCommand_performed h up).trans ?_
  rw [if_pos (by simp [live])]

section Retire

variable {f : Nat} (h : InService s cube) (up : (s.cube cube).stove.performs 3 = true)
  (live : (s.cube cube).fmap.contains (.inl f) = true) (few : retired (s.cube cube) < 8)
include h up

theorem retireFlue_refused (dead : (s.cube cube).fmap.contains (.inl f) = false) :
    execRetireFlue cube f s = .next (answerCommand (s.focus (cube * 256)) cube 3 0x0302 0x62) :=
  (retireFlue_next h f).trans (by rw [up, dead]; rfl)

include live few

theorem retireFlue_begins (idle : (s.cube cube).retiring = []) :
    execRetireFlue cube f s = .next (beginRetire (s.focus (cube * 256)) cube f) :=
  (retireFlue_next h f).trans (by rw [up, live, idle, if_neg (c := 8 ≤ _) (by omega)]; simp)

theorem retireFlue_ends (mine : (s.cube cube).retiring = [f]) (quiet : kernelRuns (s.cube cube) = false) :
    execRetireFlue cube f s = .next (answerCommand (endRetire (s.focus (cube * 256)) cube f) cube 3 0x0302 0) :=
  (retireFlue_next h f).trans (by rw [up, live, mine, quiet, if_neg (c := 8 ≤ _) (by omega)]; simp)

end Retire

theorem removeCube_next (h : InService s cube) (m : InterleaveMap) :
    let t := s.focus (cube * 256)
    let old := (s.cube cube).imap
    execRemoveCube cube m s = .next (
      if !(s.cube cube).stove.performs 4 then t
      else if t.removal.isSome || !removalMap t old m cube then answerCommand t cube 4 0x0401 0x62
      else { t with removal := some { cube := cube, old := old, map := m, owned := false, installed := [] } }) := by
  unfold execRemoveCube
  rw [cubeEvent_next h, State.focus_cube]

section Remove

variable {m : InterleaveMap} (h : InService s cube) (up : (s.cube cube).stove.performs 4 = true)
include h up

theorem removeCube_begins (free : s.removal = none)
    (fits : removalMap (s.focus (cube * 256)) (s.cube cube).imap m cube = true) :
    execRemoveCube cube m s = .next { s.focus (cube * 256) with
      removal := some { cube := cube, old := (s.cube cube).imap, map := m, owned := false, installed := [] } } :=
  (removeCube_next h m).trans (by rw [up, State.focus_removal, free, fits]; rfl)

theorem removeCube_refused
    (refused : s.removal ≠ none ∨ removalMap (s.focus (cube * 256)) (s.cube cube).imap m cube = false) :
    execRemoveCube cube m s = .next (answerCommand (s.focus (cube * 256)) cube 4 0x0401 0x62) := by
  refine (removeCube_next h m).trans ?_
  rw [up, State.focus_removal]
  rcases refused with busy | misfit
  · simp [Option.isSome_iff_ne_none.mpr busy]
  · simp [misfit]

end Remove

/-- A retirement that ends (R242, R243). -/
theorem endRetire_cube {t : State} {f : Nat} (few : retired (t.cube cube) < 8) :
    Logged { t.cube cube with
      fmap := (t.cube cube).fmap.map fun e => if e = .inl f then .inr (retired (t.cube cube)) else e
      fgen := (t.cube cube).fgen + 1, flues := Vector.replicate 64 Flue.reset, retiring := []
      errs := ((endRetire t cube f).cube cube).errs } ((endRetire t cube f).cube cube) := by
  have := retire_cube (s := t.modCube cube fun q => { q with retiring := [] }) (cube := cube) (flue := f)
    (by rw [State.modCube_cube_same]; exact few)
  rw [State.modCube_cube_same] at this
  exact this

/-- A cube that is logged alone keeps its mailboxes. -/
theorem Logged.sameMail {a b : Cube} (h : Logged a b) : SameMail a.stove b.stove := by
  obtain ⟨x, rfl, hq, -⟩ := h
  exact ⟨(congrArg Stove.unanswered hq :), (congrArg Stove.posted hq :)⟩

end Tables

end Sys2Proof.Machine

namespace Sys2Proof.Safety

open Sys2Proof Sys2Proof.Machine

/-- Settles O51: every command runs as a change of its cube that keeps the mailboxes (`stoveCommand_does`), or is refused
(`stoveCommand_refuses`), and the answer changes the mailbox windows alone. -/
theorem stoveCommands : Obligations.StoveCommands := by
  intro s cube h b q on answer gives does
  have here : b.cube cube = q := State.focus_cube ..
  have same : SameMail q.stove (b.cube cube).stove := by rw [here]; exact ⟨rfl, rfl⟩
  refine ⟨?_, ?_, ?_, ?_, ?_, ?_, ?_, ?_, ?_, ?_, ?_, ?_, ?_, ?_, ?_, ?_, ?_, ?_, ?_, ?_, ?_, ?_⟩
  · intro k v hk opens free ws
    refine ⟨_, registerWrite_door h hk opens v, (ringDoor_mem ..).trans (State.focus_mem ..), ?_⟩
    obtain ⟨posts, refuses⟩ := ringDoor_results (s := b) (cube := cube) (k := k) (by rw [here]; exact free)
    rw [here] at posts refuses
    refine ⟨fun up ok => posts ?_, fun bad => refuses ?_⟩
    · refine Bool.or_eq_false_iff.mpr ⟨Bool.eq_false_iff.mpr fun rom => ?_, Bool.and_eq_false_imp.mpr ok⟩
      obtain ⟨rec, down⟩ := (Stove.rom_iff opens).mp rom
      exact up.elim down (by simp [rec])
    · exact Bool.or_eq_true_iff.mpr (bad.symm.imp (Stove.rom_iff opens).mpr Bool.and_eq_true_iff.mpr)
  · intro n m nonce
    refine ⟨fun off => stoveCommand_held h off, fun off => stoveCommand_held h off, fun off => ?_, fun off => ?_,
      fun off => stoveCommand_held h off, fun off => stoveCommand_held h off⟩
    · exact (retireFlue_next h n).trans (by rw [if_pos (by simpa [on, q] using off)])
    · exact (removeCube_next h m).trans (by rw [if_pos (by simpa [on, q] using off)])
  · intro ws
    refine ⟨fun full up => ?_, fun short up => ?_⟩
    · exact stoveCommand_writes (P := fun c => c.stove.rank = ws) h up _ (if_pos full) (fun _ => ⟨rfl, rfl⟩) fun _ _ _ => rfl
    · exact stoveCommand_refuses (P := fun c => c.stove.rank = q.stove.rank) h up (if_neg short) fun _ _ _ => rfl
  · intro n low high up
    exact stoveCommand_writes (P := fun c => c.stove.quantum = n) h up _ (if_pos (by simp; omega)) (fun _ => ⟨rfl, rfl⟩)
      fun _ _ _ => rfl
  · intro n out up
    exact stoveCommand_refuses (P := fun c => c.stove.quantum = q.stove.quantum) h up
      (if_neg (by simp; omega)) fun _ _ _ => rfl
  · intro n g hg up
    obtain ⟨c, keep, hc⟩ := preempt_cube (p := fun c => (c.gangs, c.stove.unanswered, c.stove.posted)) (fun _ _ => rfl)
      (s := b) (by rw [here]; exact hg)
    simp only [Prod.mk.injEq, here] at keep
    obtain ⟨gangs, unanswered, posted⟩ := keep
    refine stoveCommand_does (P := fun c => (c.gangs.find? fun x => x.id == n).map Gang.held = some true) h up rfl
      ((preempt_mem ..).trans (State.focus_mem ..)) ⟨by rw [hc]; exact unanswered, by rw [hc]; exact posted⟩ fun x p r => ?_
    rw [hc]
    exact held_of_preempted (gangs ▸ hg)
  · intro n e he up
    refine stoveCommand_does (P := fun c => c.stove.withdrawn = q.stove.withdrawn ++ [e] ∧ ∀ x ∈ c.pifo, x.arrival ≠ n) h up
      (t := (b.modCube cube fun q => { q with pifo := q.pifo.filter fun x => !(x.arrival == n) }).modStove cube
        fun t => { t with withdrawn := t.withdrawn ++ [e] }) ?_ (State.focus_mem ..) ?_ fun x p r => ?_
    · dsimp only [b]
      rw [State.focus_cube, he]
    · rw [State.modStove_cube_same, State.modCube_cube_same, here]
      exact ⟨rfl, rfl⟩
    · rw [State.modStove_cube_same, State.modCube_cube_same, here]
      exact ⟨rfl, fun x hx => by simpa using (List.mem_filter.mp hx).2⟩
  · intro n absent kept up
    refine stoveCommand_refuses (P := fun c => c.pifo = q.pifo) h up ?_ fun _ _ _ => rfl
    have waits : q.pifo.find? (fun e => e.arrival == n) = none := List.find?_eq_none.mpr (by simpa using absent)
    have held : q.stove.withdrawn.find? (fun e => e.arrival == n) = none := List.find?_eq_none.mpr (by simpa using kept)
    dsimp only
    rw [State.focus_cube, waits, held]
  · intro asid seg d z1 z2 z3 small valid up
    exact writeSegmentDescriptor_written h up asid seg z1 z2 z3 small valid
  · rintro a v p t rfl ha up idle hp dram written
    exact writePageTableEntry_written h v up idle ha hp dram written
  · intro k hk
    obtain ⟨t, ht, mem, hc⟩ := flushStation_last (s := b) (by rw [here]; exact hk)
    rw [here] at hc
    refine ⟨_, (cubeEvent_next h fun u => flushStation u cube k).trans (congrArg _ ht), ?_⟩
    obtain ⟨⟨empty, gone, dry⟩, mem', answers⟩ := answerCommand_gives (t := t) (k := 2) (code := 0x0201) (status := 0)
      (q := q.stove) (P := fun c => c.stove.flushing = [] ∧ (∀ e ∈ c.stove.stations, e.station ≠ k) ∧ c.icache = [])
      (by rw [hc]; exact ⟨rfl, rfl⟩) (mem.trans (State.focus_mem ..))
      fun x p r => by rw [hc]; exact ⟨rfl, fun e he => by simpa using (List.mem_filter.mp he).2, rfl⟩
    exact ⟨mem', empty, gone, dry, answers⟩
  · intro asid r up idle
    obtain ⟨t, ht, mem, hc⟩ := bumpAsidGeneration_begins h asid r up idle
    refine ⟨t, ht, mem, ?_⟩
    rw [hc]
    refine ⟨generation_replaced .., rfl, ?_, rfl⟩
    cases r <;> simp
  · intro g k hg
    refine ⟨fun mine => ?_, fun flushed last => ?_⟩
    · refine ⟨_, writeGen_flushes h hg mine, State.focus_mem .., ?_⟩
      rw [State.modStove_cube_same]
      exact ⟨rfl, fun e he => by simpa [imp_iff_not_or] using (List.mem_filter.mp he).2⟩
    · refine ⟨_, writeGen_ends h hg flushed last, ?_⟩
      obtain ⟨⟨empty, dry⟩, mem', answers⟩ := answerCommand_gives (k := 2) (code := 0x0202) (status := 0)
        (t := dropWords (b.modStove cube fun t => { t with changing := none }) cube)
        (q := q.stove) (P := fun c => c.stove.changing = none ∧ c.icache = [])
        (by rw [dropWords, State.modCube_cube_same, State.modStove_cube_same, here]; exact ⟨rfl, rfl⟩) (State.focus_mem ..)
        fun x p r => by rw [dropWords, State.modCube_cube_same, State.modStove_cube_same]; exact ⟨rfl, rfl⟩
      exact ⟨mem', empty, dry, answers⟩
  · intro m hm up
    have hc : (setMap b cube m).cube cube = { q with imap := m } := by rw [setMap, State.modCube_cube_same, here]
    exact stoveCommand_does (P := fun c => c.imap = m) h up (if_pos hm) (State.focus_mem ..) (hc ▸ ⟨rfl, rfl⟩)
      fun _ _ _ => congrArg Cube.imap hc
  · intro asid e z pc base nonzero up
    refine stoveCommand_writes (P := fun c => (c.stove.trapTable.find? fun x => x.1 == asid) = some (asid, e)) h up _
      (if_neg (by simp [z, pc, base])) (fun _ => ⟨rfl, rfl⟩) fun x p r => ?_
    dsimp only [Cube.mailed]
    rw [if_neg nonzero]
    exact find?_replaced _ _ (beq_self_eq_true asid)
  · intro f live few
    refine ⟨fun up idle => ?_, fun mine quiet up => ?_⟩
    · refine ⟨_, retireFlue_begins h up live few idle, ?_⟩
      rw [beginRetire, State.modCube_cube_same, State.focus_cube]
      exact ⟨rfl, rfl, rfl, rfl, State.focus_mem ..⟩
    · have logged := endRetire_cube (t := b) (cube := cube) (f := f) (by rw [here]; exact few)
      rw [here] at logged
      obtain ⟨v, hv, -, -⟩ := id logged
      refine ⟨_, retireFlue_ends h up live few mine quiet, answerCommand_gives (P := fun c => c.fgen = q.fgen + 1 ∧
        c.fmap = q.fmap.map (fun e => if e = .inl f then .inr (retired q) else e) ∧
        c.flues = Vector.replicate 64 Flue.reset ∧ c.retiring = [] ∧ c.marked = q.marked)
        logged.sameMail ((endRetire_mem ..).trans (State.focus_mem ..)) fun x p r => ?_⟩
      rw [hv]
      exact ⟨rfl, rfl, rfl, rfl, rfl⟩
  · intro f dead up
    exact ⟨_, retireFlue_refused h up dead, answerCommand_gives (P := fun c => c.fmap = q.fmap) same (State.focus_mem ..)
      fun _ _ _ => (congrArg Cube.fmap here :)⟩
  · intro m up
    refine ⟨fun free fits => ⟨_, removeCube_begins h up free fits, rfl, State.focus_mem .., State.focus_cubes ..⟩,
      fun refused => ?_⟩
    obtain ⟨keep, -, answers⟩ := answerCommand_gives (k := 4) (code := 0x0401) (status := 0x62) (P := fun c => c.imap = q.imap)
      same (State.focus_mem ..) fun _ _ _ => (congrArg Cube.imap here :)
    exact ⟨_, removeCube_refused h up refused, (answerCommand_removal ..).trans (State.focus_removal ..), keep, answers⟩
  · intro n low high up
    exact stoveCommand_writes (P := fun c => c.stove.retry = n) h up _ (if_pos (by simp; omega)) (fun _ => ⟨rfl, rfl⟩)
      fun _ _ _ => rfl
  · intro n low high up
    exact stoveCommand_writes (P := fun c => c.stove.power = n) h up _ (if_pos (by simp; omega)) (fun _ => ⟨rfl, rfl⟩)
      fun _ _ _ => rfl
  · intro nonce up
    refine stoveCommand_writes (P := fun c => ∃ r, c.stove.reports = q.stove.reports ++ [r] ∧
        r.nonce = nonce ∧ r.images = q.stove.images ∧ r.fgen = q.fgen ∧ r.retired = retired q ∧ r.spares = spareMask b cube ∧
        r.versions = q.links.toList.map Link.ver ∧ r.signature = Config.sm2Sign cube (Config.sm3 r.bytes)) h up
      (fun t => { t with reports := t.reports ++ [reportOf b cube nonce] }) ?_ (fun _ => ⟨rfl, rfl⟩)
      fun _ _ _ => ⟨reportOf b cube nonce, rfl, rfl, ?_⟩
    · rfl
    · simp only [reportOf, here]
      exact ⟨trivial, trivial, trivial, trivial, trivial, rfl⟩
  · rintro core rfl k
    have hc : CoreInService s core := coreInService_of_cube h rfl
    refine ⟨fun up => ⟨fun live => ?_, ?_, fun i hi => ?_⟩, fun up free stuck => ?_⟩
    · exact ⟨_, stopThread_asks hc up live, by rw [answerCommand_core]; exact askStop_asked ..,
        (answerCommand_mem ..).trans (State.focus_mem ..)⟩
    · exact ⟨_, stoveCoreCommand_performed hc up, by rw [answerCommand_core],
        (answerCommand_mem ..).trans (State.focus_mem ..)⟩
    · rcases List.mem_pair.mp hi with rfl | rfl
      · obtain ⟨t, ht, calm, saved⟩ := endStop_results (code := 0x0701) (f := fun c => { c with stepOne := true }) hc up
          fun _ => rfl
        refine ⟨t, ht, calm, ?_, fun _ v hv hcore hr hh => ?_⟩
        · simp only [saved, List.forall_mem_map]
          exact fun v _ => SavedCtx.released_handled
        · have waiting := SavedCtx.released_waiting (fun c => { c with stepOne := true }) hcore hr hh
          exact ⟨_, saved ▸ List.mem_map_of_mem hv, by rw [waiting], by rw [waiting]⟩
      · obtain ⟨t, ht, calm, saved⟩ := endStop_results (code := 0x0701) (f := id) hc up fun _ => rfl
        refine ⟨t, ht, calm, ?_, fun e => nomatch e⟩
        simp only [saved, List.forall_mem_map]
        exact fun v _ => SavedCtx.released_handled
    · exact ⟨_, markSpareCore_marks hc up free stuck, by rw [answerCommand_core],
        (answerCommand_mem ..).trans (State.focus_mem ..)⟩

end Sys2Proof.Safety
end

