-- ==== Sys2Proof/Proofs/TaskQueues.lean ====
section
/-! SUPPORT. What the walker and the queues of the task system leave and change of a cube (R353, R356, R358, R359). -/

namespace Sys2Proof.Machine

open Sys2Proof Sys2Proof.Safety

/-! ### Graph slots -/

section Graphs

variable {s t : State} {cube slot : Nat} {g : GraphSlot}

theorem State.graph_slot (h : s.graph cube slot = some g) : g.slot = slot :=
  by simpa using List.find?_some h

theorem State.graph_of_cube (h : (t.cube cube).graphs = (s.cube cube).graphs) : t.graph cube slot = s.graph cube slot :=
  congrArg (List.find? fun x : GraphSlot => x.slot == slot) h

theorem State.setGraph_graph (s : State) (cube : Nat) {g : GraphSlot} (h : g.slot = slot) :
    (s.setGraph cube g).graph cube slot = some g := by
  subst h
  have below : ((s.cube cube).graphs.filter fun x => x.slot < g.slot).find? (fun x => x.slot == g.slot) = none := by
    refine List.find?_eq_none.mpr fun x hx => ?_
    have lower : x.slot < g.slot := by simpa using (List.mem_filter.mp hx).2
    simpa using lower.ne
  unfold State.graph State.setGraph
  rw [State.modCube_cube_same, List.find?_append, below]
  simp

theorem State.freeGraph_graph (s : State) (cube slot : Nat) : (s.freeGraph cube slot).graph cube slot = none := by
  unfold State.graph State.freeGraph
  rw [State.modCube_cube_same]
  exact List.find?_eq_none.mpr fun x hx => by simpa using (List.mem_filter.mp hx).2

/-- What does not speak of graph slots stands after a write of one. -/
theorem State.setGraph_keeps {α : Type} {p : Cube → α} (h : ∀ q l, p { q with graphs := l } = p q) (s : State) (cube : Nat)
    (g : GraphSlot) (c : Nat) : p ((s.setGraph cube g).cube c) = p (s.cube c) :=
  State.modCube_keeps (by intro; exact h ..) ..

end Graphs

/-! ### Queues of packets -/

/-- A cube whose ingress queues, error counters and Stove differ from another's. -/
def Cube.queued (c : Cube) (v : Stove) (x : Vector (BitVec 48) 16) (i : List (PifoEntry × Option Flight)) (w : List PifoEntry) :
    Cube := { c with stove := v, errs := x, ingress := i, walked := w }

theorem rankPacket_cube (s : State) (cube : Nat) (p : BitVec 1024) :
    ∃ v x, (rankPacket s cube p).2.cube cube = (s.cube cube).queued v x (s.cube cube).ingress (s.cube cube).walked := by
  unfold rankPacket
  dsimp only
  split
  · exact ⟨_, _, rfl⟩
  · dsimp only [State.notice, State.noticeOf, State.modStove, State.errCount]
    rw [State.modCube_cube_same, State.modCube_cube_same]
    exact ⟨_, _, rfl⟩

/-- A packet that is ranked stands last in the ingress buffer. -/
theorem rankIn_cube (s : State) (cube : Nat) (e : PifoEntry) (f : Option Flight) :
    ∃ v x r, (rankIn s cube e f).cube cube =
      (s.cube cube).queued v x ((s.cube cube).ingress ++ [({ e with rank := r, arrival := 0 }, f)]) (s.cube cube).walked := by
  obtain ⟨v, x, h⟩ := rankPacket_cube s cube e.packet
  refine ⟨v, x, (rankPacket s cube e.packet).1, ?_⟩
  unfold rankIn
  dsimp only
  rw [State.modCube_cube_same, h]
  rfl

/-- What enters a cube's ingress queues stands there. -/
theorem enqueueIn_cube (s : State) (cube : Nat) (e : PifoEntry) :
    ∃ v x i w, (enqueueIn s cube e).cube cube = (s.cube cube).queued v x i w ∧
      ∃ y ∈ i.map Prod.fst ++ w, y.node = e.node := by
  unfold enqueueIn
  dsimp only
  split
  · obtain ⟨v, x, r, h⟩ := rankIn_cube s cube e none
    exact ⟨v, x, _, _, h, { e with rank := r, arrival := 0 }, by simp, rfl⟩
  · rw [State.modCube_cube_same]
    exact ⟨_, _, _, _, rfl, e, by simp, rfl⟩

theorem refill_cube (s : State) (cube : Nat) :
    ∃ v x i w, (refill s cube).cube cube = (s.cube cube).queued v x i w ∧
      ((s.cube cube).walked = [] → i = (s.cube cube).ingress) := by
  unfold refill
  split
  · exact ⟨_, _, _, _, rfl, fun _ => rfl⟩
  · next e l hw =>
    split
    · exact ⟨_, _, _, _, rfl, fun _ => rfl⟩
    · obtain ⟨v, x, r, h⟩ := rankIn_cube (s.modCube cube fun q => { q with walked := l }) cube e none
      rw [State.modCube_cube_same] at h
      exact ⟨v, x, _, _, h, fun none_ => by simp [none_] at hw⟩

theorem doneReading_keeps {α : Type} {p : Cube → α} (h : ∀ q l, p { q with early := l } = p q) (s : State) (cube : Nat)
    (e : PifoEntry) (c : Nat) : p ((doneReading s cube e).cube c) = p (s.cube c) := by
  unfold doneReading
  split
  · unfold dropEarly
    split
    · exact State.modCube_keeps (by intro; exact h ..) ..
    · rfl
  · rfl

/-! ### The head of the PIFO -/

/-- Whether an entry of the PIFO goes before another or is of its place (R353). -/
def PifoEntry.before (a b : PifoEntry) : Prop := a.rank < b.rank ∨ (a.rank = b.rank ∧ a.arrival ≤ b.arrival)

theorem PifoEntry.before_trans {a b c : PifoEntry} (h : a.before b) (k : b.before c) : a.before c := by
  unfold PifoEntry.before at *
  simp only [BitVec.lt_def, BitVec.toNat_eq] at *
  omega

/-- The earlier of the head so far and an entry. -/
def earlier (m : Option PifoEntry) (e : PifoEntry) : Option PifoEntry :=
  match m with
  | none => some e
  | some h => if e.rank < h.rank || (e.rank = h.rank && e.arrival < h.arrival) then some e else some h

theorem headOf_eq (q : Cube) : headOf q = q.pifo.foldl earlier none := rfl

theorem earlier_some (h e : PifoEntry) : ∃ x, earlier (some h) e = some x ∧ x.before h ∧ x.before e := by
  unfold earlier PifoEntry.before
  simp only [BitVec.lt_def, BitVec.toNat_eq]
  split
  · next c =>
    refine ⟨e, rfl, ?_, by omega⟩
    simp only [Bool.or_eq_true, Bool.and_eq_true, decide_eq_true_eq] at c
    omega
  · next c =>
    refine ⟨h, rfl, by omega, ?_⟩
    simp only [Bool.or_eq_true, Bool.and_eq_true, decide_eq_true_eq] at c
    omega

theorem foldl_earlier (l : List PifoEntry) (h : PifoEntry) :
    ∃ x, l.foldl earlier (some h) = some x ∧ x.before h ∧ ∀ y ∈ l, x.before y := by
  induction l generalizing h with
  | nil => exact ⟨h, rfl, .inr ⟨rfl, le_rfl⟩, fun y hy => nomatch hy⟩
  | cons e l ih =>
    obtain ⟨z, hz, zh, ze⟩ := earlier_some h e
    obtain ⟨x, hx, xz, xl⟩ := ih z
    refine ⟨x, by rw [List.foldl_cons, hz, hx], PifoEntry.before_trans xz zh, fun y hy => ?_⟩
    rcases List.mem_cons.mp hy with rfl | hy
    · exact PifoEntry.before_trans xz ze
    · exact xl y hy

/-- The head of the PIFO goes before every entry (R353). -/
theorem headOf_first {q : Cube} {e y : PifoEntry} (h : headOf q = some e) (hy : y ∈ q.pifo) : e.before y := by
  rw [headOf_eq] at h
  cases hq : q.pifo with
  | nil => rw [hq] at hy; exact nomatch hy
  | cons a l =>
    rw [hq] at h hy
    obtain ⟨x, hx, xa, xl⟩ := foldl_earlier l a
    have same : x = e := Option.some.inj (hx.symm.trans h)
    subst same
    rcases List.mem_cons.mp hy with rfl | hy
    · exact xa
    · exact xl y hy

/-! ### Notices -/

theorem Stove.post_posted (t : Stove) (n : Notice) : n ∈ (t.post n).notices ++ (t.post n).heldNotices := by
  unfold Stove.post
  split
  · simp
  · simp

/-- A head for which there is no place has its notice (R19). -/
theorem noticeHead_posts {s : State} {cube : Nat} {e : PifoEntry} (new : (s.cube cube).noticed ≠ some e.arrival) :
    ⟨1, noticePlacement, e.arrival⟩ ∈
        ((noticeHead s cube e).cube cube).stove.notices ++ ((noticeHead s cube e).cube cube).stove.heldNotices ∧
      ((noticeHead s cube e).cube cube).noticed = some e.arrival ∧
      ((noticeHead s cube e).cube cube).pifo = (s.cube cube).pifo ∧ (noticeHead s cube e).mem = s.mem := by
  unfold noticeHead
  rw [if_neg new, State.modCube_cube_same, State.noticeOf, State.modStove_cube_same]
  exact ⟨Stove.post_posted .., rfl, rfl, rfl⟩

/-! ### Nodes that are withdrawn -/

/-- The nodes of a slot that entries name. -/
def slotNodes (slot : Nat) (l : List PifoEntry) : List Nat :=
  l.filterMap fun e => e.node.bind fun z => if z.1 = slot then some z.2 else none

theorem filterMap_filter_node (slot : Nat) (l : List PifoEntry) :
    ((l.filter fun e => e.node.any fun x => x.1 == slot).filterMap fun e => e.node.map Prod.snd) = slotNodes slot l := by
  unfold slotNodes
  rw [List.filterMap_filter]
  refine List.filterMap_congr fun e _ => ?_
  cases e.node with
  | none => rfl
  | some z => by_cases h : z.1 = slot <;> simp [h]

/-- The entries that wait in a cube's queues or are withdrawn there. -/
def Cube.waiting (q : Cube) : List PifoEntry := q.pifo ++ q.ingress.map Prod.fst ++ q.walked ++ q.stove.withdrawn

/-- A cube without the NODE packets of a slot. -/
def Cube.without (q : Cube) (slot : Nat) : Cube :=
  let mine := fun (e : PifoEntry) => e.node.any fun x => x.1 == slot
  { q with
    pifo := q.pifo.filter fun e => !mine e
    ingress := q.ingress.filter fun x => !mine x.1
    walked := q.walked.filter fun e => !mine e
    stove := { q.stove with withdrawn := q.stove.withdrawn.filter fun e => !mine e } }

theorem Cube.without_waiting {q : Cube} {slot : Nat} {y : PifoEntry}
    (h : y ∈ (q.without slot).pifo ++ (q.without slot).ingress.map Prod.fst ++ (q.without slot).walked) :
    y.node.map Prod.fst ≠ some slot := by
  have other : (!y.node.any fun x => x.1 == slot) = true := by
    simp only [List.mem_append, List.mem_map, Cube.without, List.mem_filter] at h
    rcases h with (h | ⟨x, h, rfl⟩) | h
    · exact h.2
    · exact h.2
    · exact h.2
  cases hn : y.node with
  | none => simp
  | some z => simpa [hn] using other

theorem withdrawNodes_eq {s : State} {cube slot : Nat} {g : GraphSlot} (h : s.graph cube slot = some g) :
    withdrawNodes s cube slot = (s.modCube cube fun q => q.without slot).setGraph cube { g with
      active := g.active.filter fun j => !(slotNodes slot (s.cube cube).waiting).contains j } := by
  have stands : (s.modCube cube fun q => q.without slot).graph cube slot = some g := by
    rw [← h]
    exact State.graph_of_cube (by rw [State.modCube_cube_same]; rfl)
  rw [← filterMap_filter_node]
  unfold withdrawNodes
  dsimp only
  split
  · next x hx =>
    obtain rfl : x = g := Option.some.inj (hx.symm.trans stands)
    rfl
  · next hx => exact nomatch hx.symm.trans stands

/-- A launch that aborts: its status and node are recorded, and its NODE packets are gone (R359). -/
theorem abortLaunch_results {s : State} {cube slot k : Nat} {g : GraphSlot} {st : BitVec 16}
    (h : s.graph cube slot = some g) (calm : g.abort = none) :
    let t := abortLaunch s cube slot st k
    t.graph cube slot = some { g with
      abort := some (st, k)
      active := g.active.filter fun j => !(slotNodes slot (s.cube cube).waiting).contains j } ∧
    (t.cube cube).done = (s.cube cube).done ∧
    ∀ y ∈ (t.cube cube).pifo ++ (t.cube cube).ingress.map Prod.fst ++ (t.cube cube).walked, y.node.map Prod.fst ≠ some slot := by
  have slot_eq := State.graph_slot h
  have found : (s.setGraph cube { g with abort := some (st, k) }).graph cube slot = some { g with abort := some (st, k) } :=
    State.setGraph_graph s cube slot_eq
  have aborts : abortLaunch s cube slot st k =
      ((s.setGraph cube { g with abort := some (st, k) }).modCube cube fun q => q.without slot).setGraph cube { g with
        abort := some (st, k)
        active := g.active.filter fun j => !(slotNodes slot (s.cube cube).waiting).contains j } := by
    unfold abortLaunch
    rw [h]
    dsimp only
    rw [calm, Option.getD_none, withdrawNodes_eq found, State.setGraph_keeps (p := Cube.waiting) (fun _ _ => rfl)]
  rw [aborts]
  refine ⟨State.setGraph_graph _ _ slot_eq, ?_, fun y hy => ?_⟩
  · rw [State.setGraph_keeps (p := Cube.done) (fun _ _ => rfl), State.modCube_cube_same]
    exact State.setGraph_keeps (p := Cube.done) (fun _ _ => rfl) ..
  · rw [State.setGraph, State.modCube_cube_same, State.modCube_cube_same] at hy
    exact Cube.without_waiting hy

end Sys2Proof.Machine
end

