-- ==== Sys2Proof/Proofs/GraphWalker.lean ====
section
/-! SUPPORT. How the walker handles a completion (R358, R359), and how a run of a refinement exits (R412, R417). -/

namespace Sys2Proof.Machine

open Sys2Proof Sys2Proof.Safety

/-! ### Memory after a store of a number -/

theorem bytesOfNat_length (n v : Nat) : (bytesOfNat n v).length = n := by
  induction n generalizing v with
  | zero => rfl
  | succ n ih => simp [bytesOfNat, ih]

theorem natOfBytes_bytesOfNat (n v : Nat) : natOfBytes (bytesOfNat n v) = v % 256 ^ n := by
  induction n generalizing v with
  | zero => simp [bytesOfNat, natOfBytes, Nat.mod_one]
  | succ n ih =>
    rw [bytesOfNat, natOfBytes, ih, BitVec.toNat_ofNat, show 256 ^ (n + 1) = 256 * 256 ^ n from Nat.pow_succ']
    exact Nat.mod_mul.symm

/-- A number that is stored is read back, and no other byte changes (R3). -/
theorem State.store_number {s t : State} {a n : Nat} (v : Nat) (wf : Memory.wf s.mem = true)
    (h : t.mem = (s.store a (bytesOfNat n v)).mem) :
    natOfBytes (t.load a n) = v % 256 ^ n ∧ SameMemoryBut s t a n := by
  rw [State.store_mem] at h
  refine ⟨?_, fun x hx => ?_⟩
  · have back := memGetList_memSetList wf a (bytesOfNat n v)
    rw [bytesOfNat_length] at back
    rw [State.load, h, back, natOfBytes_bytesOfNat]
  · rw [h, memGet_memSetList wf, bytesOfNat_length, if_neg hx]

@[simp] theorem State.store_cube (s : State) (a : Nat) (bs : List Byte) (c : Nat) : (s.store a bs).cube c = s.cube c := by
  unfold State.store
  split
  · rfl
  · dsimp only
    unfold markLines
    split
    · rfl
    · exact State.modCore_cube ..

theorem writePieces_one (s : State) (n v : Nat) {p : Piece} (h : p.len = n) :
    writePieces s (bytesOfNat n v) [p] = s.store p.place.addr (bytesOfNat n v) := by
  have whole : (bytesOfNat n v).take p.len = bytesOfNat n v := List.take_of_length_le (by rw [bytesOfNat_length, h])
  unfold writePieces
  rw [whole]
  rfl

/-! ### Ends of launches -/

section Ends

variable {s : State} {cube slot : Nat} {g : GraphSlot}

theorem endLaunches_active (h : s.graph cube slot = some g) (busy : g.active ≠ []) (n : Nat) :
    endLaunches cube slot n s = s := by
  cases n with
  | zero => rfl
  | succ n =>
    unfold endLaunches
    rw [h]
    exact if_pos (by simp [busy])

theorem endLaunches_last (h : s.graph cube slot = some g) (started : g.started = true) (idle : g.active = [])
    (one : g.launches.length = 1) (n : Nat) :
    endLaunches cube slot (n + 1) s = (notifyLaunch s cube g).freeGraph cube slot := by
  obtain ⟨x, hx⟩ := List.length_eq_one_iff.mp one
  unfold endLaunches
  rw [h]
  dsimp only
  rw [if_neg (by simp [started, idle]), hx]
  rfl

/-- A notification of a packet's launch is on its way where the packet asks for one (R349, R358). -/
def Told (t : State) (cube : Nat) (p : BitVec 1024) (status node count : Nat) : Prop :=
  pNv p = true → pNcube p < 640 → ∃ fl ∈ t.flights, fl.cls = .ordered ∧ fl.cube = pNcube p ∧
    fl.body = .message (pNcube p * 256 + pNcore p)
      { tag := pNtag p, score := 0, scube := cube, sys := true
        payload := bytesOfNat 8 (status + node % 2 ^ 16 * 2 ^ 16 + count % 2 ^ 16 * 2 ^ 32) }

theorem notifyLaunch_told (s : State) (cube : Nat) {g : GraphSlot} {status : BitVec 16} {node : Nat}
    (h : g.abort.getD (statusOk, 0xFFFF) = (status, node)) :
    Told (notifyLaunch s cube g) cube g.packet status.toNat node g.done := by
  intro wanted inDomain
  unfold notifyLaunch
  dsimp only
  rw [if_neg (by simp [wanted]), h]
  unfold notify
  rw [if_neg (by omega)]
  exact ⟨_, List.mem_append_right _ (List.mem_singleton_self _), rfl, rfl, rfl⟩

end Ends

/-! ### A completion -/

/-- A completion is taken from the queue, and its node is active no more. -/
def completed (s : State) (cube : Nat) (l : List Completion) (g : GraphSlot) (k n : Nat) : State :=
  (s.modCube cube fun q => { q with done := l }).setGraph cube { g with active := g.active.filter (fun j => j != k), done := n }

section Completion

variable {s : State} {cube slot k : Nat} {st : BitVec 16} {l : List Completion} {g : GraphSlot}

theorem completed_graph (h : s.graph cube slot = some g) (n : Nat) :
    (completed s cube l g k n).graph cube slot = some { g with active := g.active.filter (fun j => j != k), done := n } :=
  State.setGraph_graph (g := { g with active := _, done := n }) _ _ (State.graph_slot h :)

theorem completed_waiting (n : Nat) : ((completed s cube l g k n).cube cube).waiting = (s.cube cube).waiting := by
  unfold completed State.setGraph
  rw [State.modCube_cube_same, State.modCube_cube_same]
  rfl

theorem completed_store_mem (n a : Nat) (bs : List Byte) : ((completed s cube l g k n).store a bs).mem = (s.store a bs).mem := by
  rw [State.store_mem, State.store_mem]
  rfl

theorem completed_done (n : Nat) : ((completed s cube l g k n).cube cube).done = l := by
  unfold completed State.setGraph
  rw [State.modCube_cube_same, State.modCube_cube_same]

variable (hd : (s.cube cube).done = ⟨.node slot k, st⟩ :: l) (hg : s.graph cube slot = some g)
  (free : completionHeld s cube (.node slot k) = false)
include hd hg free

/-- A completion of a slot, by what stands behind it. -/
theorem walkerStep_node :
    let ok := g.abort.isNone && st == statusOk
    let u := completed s cube l g k (if ok then g.done + 1 else g.done)
    walkerStep s cube = endLaunches cube slot 6 (
      if g.abort.isSome then u
      else if st ≠ statusOk then abortLaunch u cube slot st k
      else if g.job.isSome then u
      else match graphOf u cube g.packet with
        | none => abortLaunch u cube slot statusFaulted k
        | some (h, _, _) => match nodeEntry u g.packet h k with
          | none => abortLaunch u cube slot statusFaulted k
          | some e => successors cube slot g.packet h k (nodeSuccs e) (nodeSoff e) u) := by
  have stands : (s.modCube cube fun q => { q with done := l }).graph cube slot = some g := by
    rw [← hg]
    exact State.graph_of_cube (by rw [State.modCube_cube_same])
  unfold walkerStep
  rw [hd]
  dsimp only
  rw [if_neg (by simp [free]), stands]
  rfl

theorem walkerStep_aborted (aborted : g.abort.isSome = true) :
    walkerStep s cube = endLaunches cube slot 6 (completed s cube l g k g.done) := by
  have : g.abort.isNone = false := by simpa using aborted
  rw [walkerStep_node hd hg free, this, if_pos aborted]
  rfl

theorem walkerStep_failed (calm : g.abort = none) (bad : st ≠ statusOk) :
    walkerStep s cube = endLaunches cube slot 6 (abortLaunch (completed s cube l g k g.done) cube slot st k) := by
  have : (st == statusOk) = false := by simpa using bad
  rw [walkerStep_node hd hg free, this, calm, if_neg (by simp), if_pos bad, Bool.and_false, if_neg (by simp)]

theorem walkerStep_counts (calm : g.abort = none) (ok : st = statusOk) (graph : g.job = none) {h : GraphHeader}
    {z : Nat × List (Nat × Nat)} {e : Nat} (hh : graphOf (completed s cube l g k (g.done + 1)) cube g.packet = some (h, z))
    (he : nodeEntry (completed s cube l g k (g.done + 1)) g.packet h k = some e) :
    walkerStep s cube = endLaunches cube slot 6
      (successors cube slot g.packet h k (nodeSuccs e) (nodeSoff e) (completed s cube l g k (g.done + 1))) := by
  subst ok
  rw [walkerStep_node hd hg free, calm, graph, if_neg (by simp), if_neg (by simp), if_neg (by simp)]
  simp only [Option.isNone_none, beq_self_eq_true, Bool.and_self, if_true, hh, he]

end Completion

/-! ### A successor -/

/-- A node that becomes active: its NODE packet waits in the cube's queues (R358). -/
theorem enqueueNode_results {s : State} {cube slot : Nat} {g : GraphSlot} (h : s.graph cube slot = some g)
    (p : BitVec 1024) (prio k : Nat) :
    let t := enqueueNode s cube slot p prio k
    t.graph cube slot = some { g with active := g.active ++ [k] } ∧
    ∃ y ∈ (t.cube cube).ingress.map Prod.fst ++ (t.cube cube).walked, y.node = some (slot, k) := by
  intro t
  have ht : t = enqueueNode s cube slot p prio k := rfl
  have found : (s.setGraph cube { g with active := g.active ++ [k] }).graph cube slot =
      some { g with active := g.active ++ [k] } := State.setGraph_graph _ _ (State.graph_slot h :)
  unfold enqueueNode at ht
  rw [h] at ht
  dsimp only at ht
  obtain ⟨v, x, i, w, hc, y, hy, node⟩ := enqueueIn_cube (s.setGraph cube { g with active := g.active ++ [k] }) cube
    { packet := BitVec.ofNat 1024 (1 + 4 * 2 ^ 8 + (pAsid p).toNat * 2 ^ 32 + pTarget p * 2 ^ 64 +
        (slot + k % 2 ^ 16 * 2 ^ 16) * 2 ^ 128 + pf p 192 64 * 2 ^ 192 + prio * 2 ^ 288)
      rank := 0, arrival := 0, node := some (slot, k), auto := none }
  rw [← ht] at hc
  refine ⟨(State.graph_of_cube (by rw [hc]; rfl)).trans found, y, ?_, node⟩
  rw [hc]
  exact hy

section Successor

variable {u : State} {cube slot node j m v : Nat} {p : BitVec 1024} {h : GraphHeader} {q : Piece}

/-- The count of the one successor of a node falls; at zero the successor is enqueued (R358). -/
theorem successors_one (hm : succWord u p h j = some m) (hv : countOf u p h m = some v)
    (hp : dPieces u (dispatcherOf (pAsid p)) (pSegs p) h.counts (2 * m) 2 .store = .ok [q]) (len : q.len = 2)
    (clean : poisonIn u [q] = none) (inTable : m < h.n) (pos : v ≠ 0) :
    ∃ prio, successors cube slot p h node 1 j u =
      if v = 1 then enqueueNode (u.store q.place.addr (bytesOfNat 2 (v - 1))) cube slot p prio m
      else u.store q.place.addr (bytesOfNat 2 (v - 1)) := by
  have counted : setCount u p h m (v - 1) = some (u.store q.place.addr (bytesOfNat 2 (v - 1))) := by
    unfold setCount
    rw [hp]
    dsimp only
    rw [if_neg (by simp [clean]), writePieces_one _ _ _ len]
  refine ⟨((nodeEntry (u.store q.place.addr (bytesOfNat 2 (v - 1))) p h m).map nodePrio).getD 0, ?_⟩
  unfold successors successors
  rw [hm]
  dsimp only
  rw [hv]
  dsimp only
  rw [if_neg (by simp [pos]; omega), counted]

end Successor

/-! ### Runs of refinements -/

@[simp] theorem nextResident_cube (s : State) (core c : Nat) : (nextResident s core).cube c = s.cube c := by
  unfold nextResident
  dsimp only
  split
  · rfl
  · split
    · rfl
    · exact State.setCore_cube ..

theorem foldl_nextResident_cube (l : List Nat) (s : State) (c : Nat) : (l.foldl nextResident s).cube c = s.cube c := by
  induction l generalizing s with
  | nil => rfl
  | cons x l ih => exact (ih _).trans (nextResident_cube ..)

theorem unregister_keeps {α : Type} {p : Cube → α} (h : ∀ q l, p { q with graphs := l } = p q) (s : State) (r : Run) (c : Nat) :
    p ((unregister s r).cube c) = p (s.cube c) := by
  unfold unregister
  split
  · exact State.setGraph_keeps h ..
  · rfl

/-- A run that ends is gone, and the walker has its status (R417, R418). -/
theorem endRun_results (s : State) (r : Run) (e : Nat) :
    (∀ y ∈ ((endRun s r e).cube r.cube).runs, y.id ≠ r.id) ∧
    ⟨.node r.slot r.node, exitStatus e⟩ ∈ ((endRun s r e).cube r.cube).done := by
  have runs : ((endRun s r e).cube r.cube).runs = (s.cube r.cube).runs.filter fun x => x.id != r.id := by
    have freed : ((((unregister (s.modCube r.cube fun q => { q with runs := q.runs.filter fun x => x.id != r.id }) r).freeGroup
        r.cube r.group).cube r.cube).runs) = (s.cube r.cube).runs.filter fun x => x.id != r.id :=
      (State.modCube_keeps (p := Cube.runs) (by intro; rfl) ..).trans ((unregister_keeps (p := Cube.runs) (by intros; rfl) ..).trans
        (by rw [State.modCube_cube_same]))
    unfold endRun
    dsimp only [reportDone]
    rw [foldl_nextResident_cube, State.modCube_cube_same]
    dsimp only
    split
    · exact freed
    · exact (State.modThread_keeps (p := Cube.runs) (by intros; rfl) ..).trans freed
  refine ⟨fun y hy => ?_, ?_⟩
  · rw [runs] at hy
    simpa using (List.mem_filter.mp hy).2
  · unfold endRun
    dsimp only [reportDone]
    rw [foldl_nextResident_cube, State.modCube_cube_same]
    exact List.mem_append_right _ (List.mem_singleton_self _)

theorem find?_stopped {l : List Run} {r : Run} (e : Nat) (h : l.find? (fun y => y.id == r.id) = some r) :
    (l.map fun x => if x.id = r.id then { x with due := some e } else x).find? (fun y => y.id == r.id) =
      some { r with due := some e } := by
  induction l with
  | nil => exact nomatch h
  | cons x l ih =>
    by_cases hx : x.id = r.id
    · obtain rfl : x = r := by simpa [hx] using h
      simp
    · simpa [hx] using ih (by simpa [hx] using h)

/-- The fields of a status word (R412). -/
theorem refStatus_fields (st fmt e k esc : Nat) (sing limit : Bool) (hst : st < 8) :
    let w := refStatus st fmt e k esc sing limit
    getBits w 0 3 = st ∧ getBits w 3 3 = fmt % 8 ∧ w.testBit 6 = sing ∧ w.testBit 7 = limit ∧
      getBits w 16 16 = e % 2 ^ 16 ∧ getBits w 32 16 = k % 2 ^ 16 ∧ getBits w 48 3 = esc % 8 := by
  intro w
  have hw : w = refStatus st fmt e k esc sing limit := rfl
  unfold refStatus at hw
  simp only [getBits, Nat.testBit_eq_decide_div_mod_eq]
  cases sing <;> cases limit <;> simp at hw ⊢ <;> omega

/-- A status word is written to bytes 72-79 of its block alone (R412, R419). -/
theorem writeStatus_written {s t : State} {r : Run} {w : Nat} {p : Piece} (h : writeStatus s r w = .ok t)
    (hp : controlPieces s r r.block 72 8 = .ok [p]) (len : p.len = 8) (wf : Memory.wf s.mem = true) :
    natOfBytes (t.load p.place.addr 8) = w % 2 ^ 64 ∧ SameMemoryBut s t p.place.addr 8 := by
  have stored : t.mem = (s.store p.place.addr (bytesOfNat 8 w)).mem := by
    unfold writeStatus controlWrite at h
    rw [bytesOfNat_length, hp] at h
    simp only [bind, Except.bind, writePieces_one _ _ _ len] at h
    split at h
    · obtain rfl := Except.ok.inj h
      rfl
    · obtain rfl := Except.ok.inj h
      exact State.modCore_mem ..
  exact State.store_number w wf stored

end Sys2Proof.Machine
end

