-- ==== Sys2Proof/Proofs/TaskEvents.lean ====
section
/-! SUPPORT and the proof of O59: task packets, the PIFO, the walker and the exits of refinement runs (R348-R359, R412, R417). -/

namespace Sys2Proof.Machine

open Sys2Proof Sys2Proof.Safety

/-! ### Task packets (R348) -/

/-- A request that its home performs now. -/
theorem requestEvent_arrived {s b : State} {num : Nat} {x : Flight} {body : Body} {kind : Body → Bool}
    (f : Flight → State → State) (h : Arrived s num x body b) (hk : kind body = true) :
    requestEvent num kind f s = .next (f x b) := by
  obtain ⟨req, ready, unkept, answers, rfl, rfl⟩ := h
  unfold requestEvent
  rw [req]
  dsimp only
  rw [if_neg (by simp [hk, ready]), unkept]
  dsimp only
  rw [if_pos answers]

section Packet

variable {s b : State} {num : Nat} {x : Flight} {p : BitVec 1024} {slot : Option Nat} {v : Bool}

theorem focusSource_cubes (s : State) (f : Flight) : (focusSource s f).cubes = s.cubes := by
  unfold focusSource
  split
  · exact State.focus_cubes ..
  · exact State.focus_cubes ..

/-- A packet of a core is what its request carries; only the host's stands in a slot (R393). -/
theorem packetNow_core (hx : x.src.core.isSome = true) : packetNow b x p = p := by
  unfold packetNow
  cases hs : x.src with
  | host cube k => rw [hs] at hx; exact nomatch hx
  | _ => rfl

theorem taskPacket_received (h : Arrived s num x (.packet p slot v) b) :
    execTaskPacket num s = .next (receivePacket b x p v) := by
  unfold execTaskPacket
  refine (requestEvent_arrived _ h rfl).trans ?_
  obtain ⟨-, -, -, -, body, -⟩ := h
  rw [body]

section Received

variable (first : b.unadmitted (fun f => f.ord == x.ord) = none)
include first

theorem receivePacket_full (full : takesPackets b x.cube = true → 64 ≤ (b.cube x.cube).ingress.length) :
    receivePacket b x p v = refuseRoom b x := by
  have shut : (!takesPackets b x.cube || decide (64 ≤ (b.cube x.cube).ingress.length)) = true := by
    cases ht : takesPackets b x.cube with
    | false => rfl
    | true => simpa using full ht
  unfold receivePacket
  dsimp only
  rw [if_neg (by simp [first]), if_pos shut]

variable (takes : takesPackets b x.cube = true) (room : (b.cube x.cube).ingress.length < 64)
include takes room

theorem receivePacket_damaged : receivePacket b x p false = refuse_ (b.errCount x.cube 4) x (some codeCheckFailed) := by
  unfold receivePacket
  dsimp only
  rw [if_neg (by simp [first]), if_neg (by simp [takes, room]), if_pos (by rfl)]

variable (hx : x.src.core.isSome = true)
include hx

theorem receivePacket_waits (graph : pOp p = 2) (held : launchHeld b x.cube p = true) : receivePacket b x p true = b := by
  unfold receivePacket
  dsimp only
  rw [if_neg (by simp [first]), if_neg (by simp [takes, room]), if_neg (by simp), packetNow_core hx, if_pos (by simp [graph, held])]

variable (goes : pOp p ≠ 2 ∨ launchHeld b x.cube p = false)
include goes

theorem receivePacket_ranked {t : State} {place : Nat}
    (ok : validate b x.cube (ignoredBits (partnerIgnore b x)) p = .ok (t, place)) :
    receivePacket b x p true = rankIn (t.land x.num) x.cube { packet := p, rank := 0, arrival := 0, node := none, auto := none }
      (some { x with body := .admission place }) := by
  unfold receivePacket
  dsimp only
  rw [if_neg (by simp [first]), if_neg (by simp [takes, room]), if_neg (by simp), packetNow_core hx,
    if_neg (by simpa [imp_iff_not_or] using goes), ok]

theorem receivePacket_refused {c : BitVec 16} (bad : validate b x.cube (ignoredBits (partnerIgnore b x)) p = .error c) :
    receivePacket b x p true = refuse_ (notifyRefusal (b.errCount x.cube 4) x.cube p c) x (some c) := by
  unfold receivePacket
  dsimp only
  rw [if_neg (by simp [first]), if_neg (by simp [takes, room]), if_neg (by simp), packetNow_core hx,
    if_neg (by simpa [imp_iff_not_or] using goes), bad]

end Received

end Packet

/-! ### The PIFO (R353) and the dispatcher (R19) -/

/-- A packet moves from the ingress buffer to the PIFO. -/
def intoPifo (s : State) (cube : Nat) (e : PifoEntry) (l : List (PifoEntry × Option Flight)) : State :=
  (doneReading s cube e).modCube cube fun q => { q with ingress := l, pifo := q.pifo ++ [e], arrivals := q.arrivals + 1 }

/-- The sender of a packet, if it has one, is told of the admission (R353). -/
def senderTold (s : State) : Option Flight → State
  | some f => s.reply f f.body
  | none => s

@[simp] theorem senderTold_cube (s : State) (fl : Option Flight) (c : Nat) : (senderTold s fl).cube c = s.cube c := by
  cases fl with
  | none => rfl
  | some f => rfl

@[simp] theorem senderTold_mem (s : State) (fl : Option Flight) : (senderTold s fl).mem = s.mem := by
  cases fl with
  | none => rfl
  | some f => rfl

theorem senderTold_flights (s : State) (f : Flight) :
    ∃ r ∈ (senderTold s (some f)).flights, r.num = f.num ∧ r.cls = .reply ∧ r.body = f.body :=
  ⟨_, List.mem_append_right _ (List.mem_singleton_self _), rfl, rfl, rfl⟩

/-- What a dispatch makes of a state by the outcome of the head's placement (R19). -/
def Placed.outcome (s : State) (cube : Nat) (e : PifoEntry) : Placed → State
  | .done u => doneReading u cube e
  | .elsewhere => s
  | .waits => noticeHead s cube e

section Cube

variable {s : State} {cube : Nat} (hs : InService s cube)
include hs

theorem pifoAdmission_full {e : PifoEntry} {fl : Option Flight} {l : List (PifoEntry × Option Flight)}
    (hi : (s.cube cube).ingress = (e, fl) :: l) (full : 4096 ≤ (s.cube cube).pifo.length) :
    execPifoAdmission cube s = .next (s.focus (cube * 256)) := by
  refine (cubeEvent_next hs _).trans (congrArg _ ?_)
  dsimp only
  rw [State.focus_cube, hi]
  exact if_pos (by simp [full])

/-- A packet that the PIFO admits stands last in it, with the next arrival number (R353). -/
theorem pifoAdmission_admits {e : PifoEntry} {fl : Option Flight} {l : List (PifoEntry × Option Flight)}
    (hi : (s.cube cube).ingress = (e, fl) :: l) (room : (s.cube cube).pifo.length < 4096)
    (ready : e.node = none ∨ e.auto ≠ none ∨ entryHeld (s.focus (cube * 256)) cube e = false) :
    execPifoAdmission cube s = .next (senderTold (refill (intoPifo (s.focus (cube * 256)) cube { e with
      arrival := (s.cube cube).arrivals, auto := admitAuto (s.focus (cube * 256)) cube e } l) cube) fl) := by
  have free : ¬(decide (4096 ≤ (s.cube cube).pifo.length) ||
      (e.node.isSome && e.auto.isNone && entryHeld (s.focus (cube * 256)) cube e)) = true := by
    rw [Bool.or_eq_true, not_or]
    refine ⟨by simpa using room, ?_⟩
    rcases ready with h | h | h
    · simp [h]
    · simp [h]
    · simp [h]
  refine (cubeEvent_next hs _).trans (congrArg _ ?_)
  dsimp only
  rw [State.focus_cube, hi]
  refine (if_neg free).trans ?_
  cases fl with
  | none => rfl
  | some f => rfl

theorem dispatch_head {e : PifoEntry} (he : headOf (s.cube cube) = some e) (moves : dispatcherHeld (s.cube cube) = false)
    (free : entryHeld (s.focus (cube * 256)) cube e = false) (h0 k0 : Nat) {r : Placed}
    (hr : placeHead ((s.focus (cube * 256)).modCube cube fun y => { y with
      pifo := y.pifo.filter fun z => z.arrival != e.arrival }) cube h0 k0 e = r) :
    execDispatch cube h0 k0 s = .next (r.outcome (s.focus (cube * 256)) cube e) := by
  refine (cubeEvent_next hs _).trans (congrArg _ ?_)
  dsimp only
  rw [State.focus_cube, he]
  refine (if_neg (by simp [moves, free])).trans ?_
  rw [hr]
  cases r with
  | done u => rfl
  | elsewhere => rfl
  | waits => rfl

end Cube

/-! ### What an admission leaves of its cube -/

theorem intoPifo_cube (s : State) (cube : Nat) (e : PifoEntry) (l : List (PifoEntry × Option Flight)) :
    ∃ x, (intoPifo s cube e l).cube cube = { s.cube cube with
      early := x, ingress := l, pifo := (s.cube cube).pifo ++ [e], arrivals := (s.cube cube).arrivals + 1 } := by
  have stands : { (doneReading s cube e).cube cube with early := [] } = { s.cube cube with early := [] } :=
    doneReading_keeps (p := fun q => { q with early := [] }) (by intros; rfl) ..
  refine ⟨((doneReading s cube e).cube cube).early, ?_⟩
  rw [intoPifo, State.modCube_cube_same]
  exact congrArg (fun q : Cube => { q with
    early := ((doneReading s cube e).cube cube).early, ingress := l, pifo := q.pifo ++ [e], arrivals := q.arrivals + 1 }) stands

theorem intoPifo_refill_cube (s : State) (cube : Nat) (e : PifoEntry) (l : List (PifoEntry × Option Flight)) (fl : Option Flight) :
    let t := senderTold (refill (intoPifo s cube e l) cube) fl
    (t.cube cube).pifo = (s.cube cube).pifo ++ [e] ∧ (t.cube cube).arrivals = (s.cube cube).arrivals + 1 ∧
      ((s.cube cube).walked = [] → (t.cube cube).ingress = l) := by
  obtain ⟨x, hm⟩ := intoPifo_cube s cube e l
  obtain ⟨v, y, i, w, hr, still⟩ := refill_cube (intoPifo s cube e l) cube
  rw [hm] at hr still
  dsimp only
  rw [senderTold_cube, hr]
  exact ⟨rfl, rfl, still⟩

/-! ### The walker's states after a completion (R358, R359) -/

theorem nodeCompletion_ends {s t : State} {cube : Nat} (hs : InService s cube)
    (ht : endedGang (s.focus (cube * 256)) cube = some t) : execNodeCompletion cube s = .next t := by
  refine (cubeEvent_next hs _).trans ?_
  rw [ht]
  rfl

theorem nodeCompletion_walks {s : State} {cube : Nat} (hs : InService s cube)
    (calm : endedGang (s.focus (cube * 256)) cube = none) :
    execNodeCompletion cube s = .next (walkerStep (s.focus (cube * 256)) cube) :=
  (cubeEvent_next hs _).trans (congrArg (fun o => Host.Outcome.next (Option.getD o (walkerStep _ cube))) calm)

section Walk

variable {s : State} {cube slot k : Nat} {st : BitVec 16} {l : List Completion} {g : GraphSlot}
  (hd : (s.cube cube).done = ⟨.node slot k, st⟩ :: l) (hg : s.graph cube slot = some g)
  (free : completionHeld s cube (.node slot k) = false)
include hd hg free

theorem walked_aborted (aborted : g.abort.isSome = true) (busy : (g.active.filter fun j => j != k) ≠ []) :
    (walkerStep s cube).mem = s.mem ∧ ((walkerStep s cube).cube cube).done = l ∧
      (walkerStep s cube).graph cube slot = some { g with active := g.active.filter fun j => j != k } := by
  rw [walkerStep_aborted hd hg free aborted, endLaunches_active (completed_graph hg _) busy]
  exact ⟨rfl, completed_done _, completed_graph hg _⟩

section Failed

variable (calm : g.abort = none) (bad : st ≠ statusOk)
include calm bad

theorem walked_failed (left : List Nat)
    (hl : left = (g.active.filter fun j => j != k).filter fun j => !(slotNodes slot (s.cube cube).waiting).contains j)
    (busy : left ≠ []) :
    (walkerStep s cube).mem = s.mem ∧ ((walkerStep s cube).cube cube).done = l ∧
      (walkerStep s cube).graph cube slot = some { g with active := left, abort := some (st, k) } ∧
      ∀ y ∈ ((walkerStep s cube).cube cube).pifo ++ ((walkerStep s cube).cube cube).ingress.map Prod.fst ++
        ((walkerStep s cube).cube cube).walked, y.node.map Prod.fst ≠ some slot := by
  obtain ⟨graph, done, gone⟩ := abortLaunch_results (k := k) (st := st) (completed_graph (cube := cube) (l := l) hg g.done) calm
  rw [completed_waiting, ← hl] at graph
  rw [walkerStep_failed hd hg free calm bad, endLaunches_active graph busy]
  exact ⟨abortLaunch_mem .., done.trans (completed_done _), graph, gone⟩

theorem walked_failed_last (started : g.started = true)
    (idle : ((g.active.filter fun j => j != k).filter fun j => !(slotNodes slot (s.cube cube).waiting).contains j) = [])
    (one : g.launches.length = 1) :
    (walkerStep s cube).mem = s.mem ∧ (walkerStep s cube).graph cube slot = none ∧
      Told (walkerStep s cube) cube g.packet st.toNat k g.done := by
  obtain ⟨graph, -, -⟩ := abortLaunch_results (k := k) (st := st) (completed_graph (cube := cube) (l := l) hg g.done) calm
  rw [completed_waiting, idle] at graph
  rw [walkerStep_failed hd hg free calm bad, endLaunches_last graph started rfl one]
  exact ⟨(notifyLaunch_mem ..).trans (abortLaunch_mem ..), State.freeGraph_graph ..,
    notifyLaunch_told (g := { g with active := [], abort := some (st, k) }) _ _ rfl⟩

end Failed

section Counted

variable (calm : g.abort = none) (ok : st = statusOk) (graph : g.job = none) {h : GraphHeader}
  {z : Nat × List (Nat × Nat)} {e : Nat} (hh : graphOf (completed s cube l g k (g.done + 1)) cube g.packet = some (h, z))
  (he : nodeEntry (completed s cube l g k (g.done + 1)) g.packet h k = some e)
include calm ok graph hh he

theorem walked_leaf (leaf : nodeSuccs e = 0) (busy : (g.active.filter fun j => j != k) ≠ []) :
    (walkerStep s cube).mem = s.mem ∧ ((walkerStep s cube).cube cube).done = l ∧
      (walkerStep s cube).graph cube slot = some { g with active := g.active.filter fun j => j != k, done := g.done + 1 } := by
  rw [walkerStep_counts hd hg free calm ok graph hh he, leaf, successors, endLaunches_active (completed_graph hg _) busy]
  exact ⟨rfl, completed_done _, completed_graph hg _⟩

theorem walked_leaf_last (leaf : nodeSuccs e = 0) (started : g.started = true) (idle : (g.active.filter fun j => j != k) = [])
    (one : g.launches.length = 1) :
    (walkerStep s cube).mem = s.mem ∧ (walkerStep s cube).graph cube slot = none ∧
      Told (walkerStep s cube) cube g.packet 0 0xFFFF (g.done + 1) := by
  rw [walkerStep_counts hd hg free calm ok graph hh he, leaf, successors,
    endLaunches_last (completed_graph hg _) started idle one]
  exact ⟨notifyLaunch_mem .., State.freeGraph_graph .., notifyLaunch_told (status := statusOk)
    (g := { g with active := g.active.filter fun j => j != k, done := g.done + 1 }) _ _ (congrArg (Option.getD · _) calm)⟩

section Successor

variable {m v : Nat} {p : Piece} (one : nodeSuccs e = 1)
  (hm : succWord (completed s cube l g k (g.done + 1)) g.packet h (nodeSoff e) = some m)
  (hv : countOf (completed s cube l g k (g.done + 1)) g.packet h m = some v)
  (hp : dPieces (completed s cube l g k (g.done + 1)) (dispatcherOf (pAsid g.packet)) (pSegs g.packet) h.counts (2 * m) 2 .store =
    .ok [p])
  (len : p.len = 2) (clean : poisonIn (completed s cube l g k (g.done + 1)) [p] = none) (inTable : m < h.n)
  (wf : Memory.wf s.mem = true)
include one hm hv hp len clean inTable wf

theorem walked_counts (more : 2 ≤ v) (busy : (g.active.filter fun j => j != k) ≠ []) :
    (natOfBytes ((walkerStep s cube).load p.place.addr 2) = (v - 1) % 2 ^ 16 ∧
        SameMemoryBut s (walkerStep s cube) p.place.addr 2) ∧
      (walkerStep s cube).graph cube slot = some { g with active := g.active.filter fun j => j != k, done := g.done + 1 } := by
  obtain ⟨prio, hw⟩ := successors_one (cube := cube) (slot := slot) (node := k) hm hv hp len clean inTable (by omega)
  have found := completed_graph (k := k) (cube := cube) (l := l) hg (g.done + 1)
  have stands : ((completed s cube l g k (g.done + 1)).store p.place.addr (bytesOfNat 2 (v - 1))).graph cube slot = _ :=
    (State.graph_of_cube (by rw [State.store_cube])).trans found
  rw [walkerStep_counts hd hg free calm ok graph hh he, one, hw, if_neg (by omega), endLaunches_active stands busy]
  exact ⟨State.store_number (v - 1) wf (completed_store_mem ..), stands⟩

theorem walked_enqueues (last : v = 1) :
    (natOfBytes ((walkerStep s cube).load p.place.addr 2) = (v - 1) % 2 ^ 16 ∧
        SameMemoryBut s (walkerStep s cube) p.place.addr 2) ∧
      (walkerStep s cube).graph cube slot =
        some { g with active := (g.active.filter fun j => j != k) ++ [m], done := g.done + 1 } ∧
      ∃ y ∈ ((walkerStep s cube).cube cube).ingress.map Prod.fst ++ ((walkerStep s cube).cube cube).walked,
        y.node = some (slot, m) := by
  obtain ⟨prio, hw⟩ := successors_one (cube := cube) (slot := slot) (node := k) hm hv hp len clean inTable (by omega)
  have found := completed_graph (k := k) (cube := cube) (l := l) hg (g.done + 1)
  have stands : ((completed s cube l g k (g.done + 1)).store p.place.addr (bytesOfNat 2 (v - 1))).graph cube slot = _ :=
    (State.graph_of_cube (by rw [State.store_cube])).trans found
  obtain ⟨active, queued⟩ := enqueueNode_results stands g.packet prio m
  rw [walkerStep_counts hd hg free calm ok graph hh he, one, hw, if_pos last, endLaunches_active active (by simp)]
  exact ⟨State.store_number (v - 1) wf ((enqueueNode_mem ..).trans (completed_store_mem ..)), active, queued⟩

end Successor

end Counted

end Walk

/-! ### Exits of refinement runs (R417, R419) -/

section Exit

variable {s t : State} {r : Run} {e : Nat}

theorem refinementExit_runs {cube : Nat} (hs : InService s cube)
    (hr : (s.cube cube).runs.find? (fun y => y.id == r.id) = some r) :
    execRefinementExit cube r.id s = .next (exitRun (s.focus (cube * 256)) r) := by
  refine (cubeEvent_next hs _).trans (congrArg _ ?_)
  rw [State.focus_cube, hr]

theorem exitRun_idle (idle : r.due = none) : exitRun s r = s := by
  unfold exitRun
  rw [idle]

section Due

variable (due : r.due = some e)
include due

theorem exitRun_ends (h : writeExit s r e = .ok t) : exitRun s r = endRun t r e := by
  unfold exitRun
  rw [due]
  dsimp only
  rw [h]

theorem exitRun_waits (h : writeExit s r e = .error true) : exitRun s r = s := by
  unfold exitRun
  rw [due]
  dsimp only
  rw [h]

theorem exitRun_faults (h : writeExit s r e = .error false) (live : e ≠ exitFaulted) : exitRun s r = stopRun s r exitFaulted := by
  unfold exitRun
  rw [due]
  dsimp only
  rw [h]
  exact if_neg live

end Due

section Iterate

variable {g : Progress} (run : r.prog = some g)
include run

theorem writeExit_faulted (h : e = exitFaulted) :
    writeExit s r e = writeStatus s r (refStatus 3 g.fmt e g.k g.esc g.sing g.limit) := by
  unfold writeExit
  rw [run]
  exact if_pos h

/-- An exit with an iterate writes it, then its norms, and last its status word (R417). -/
theorem writeExit_iterate (h : e ≠ exitFaulted) :
    writeExit s r e = .ok t ↔ ∃ u v z, blurOutputs s r false = .ok u ∧
      controlWrite u r (rXadr r.data.toNat) 0 (g.best.flatMap (bytesOfNat 8)) = .ok v ∧
      controlWrite v r r.block 88 (bytesOfNat 8 g.bn ++ bytesOfNat 8 g.nk) = .ok z ∧
      writeStatus z r (refStatus 3 g.fmt e g.k g.esc g.sing g.limit) = .ok t := by
  have steps : writeExit s r e = (do
      let u ← blurOutputs s r false
      let v ← controlWrite u r (rXadr r.data.toNat) 0 (g.best.flatMap (bytesOfNat 8))
      let z ← controlWrite v r r.block 88 (bytesOfNat 8 g.bn ++ bytesOfNat 8 g.nk)
      writeStatus z r (refStatus 3 g.fmt e g.k g.esc g.sing g.limit)) := by
    unfold writeExit
    rw [run]
    exact if_neg h
  rw [steps]
  constructor
  · intro written
    obtain ⟨u, hu, written⟩ := exists_of_bind_ok written
    obtain ⟨v, hv, written⟩ := exists_of_bind_ok written
    obtain ⟨z, hz, written⟩ := exists_of_bind_ok written
    exact ⟨u, v, z, hu, hv, hz, written⟩
  · rintro ⟨u, v, z, hu, hv, hz, ht⟩
    simp only [hu, hv, hz, ht, bind, Except.bind]

end Iterate

end Exit

end Sys2Proof.Machine

namespace Sys2Proof.Safety

open Sys2Proof Sys2Proof.Machine

/-- Settles O59: a packet by the first check that it meets, the PIFO by its order, a completion by what stands behind it
(`walkerStep_node`), and a run's exit by the writes that its home lets it make. -/
theorem taskEvents : Obligations.TaskEvents := by
  refine ⟨?_, fun s cube hs => ?_, fun s r e => ?_⟩
  · intro s num x p slot v b h hx first q room
    obtain ⟨req, -, -, -, -, hb⟩ := id h
    obtain rfl : x.num = num := State.request_num req
    have cubes : b.cubes = s.cubes := hb ▸ focusSource_cubes ..
    have here : b.cube x.cube = q := congrArg (fun l => (assoc l x.cube).getD (Cube.reset x.cube)) cubes
    have received : exec (.taskPacket x.num) s = .next (receivePacket b x p v) := taskPacket_received h
    refine ⟨fun full => ?_, fun ⟨takes, free⟩ hv => ?_, fun ⟨takes, free⟩ hv op held => ?_, fun ⟨takes, free⟩ hv op => ?_⟩
    · rw [receivePacket_full first fun takes => by
        rw [here]; exact Nat.le_of_not_lt fun free => full ⟨takes, free⟩] at received
      exact ⟨_, _, received, List.mem_append_right _ (List.mem_singleton_self _), rfl, rfl, rfl, cubes, hb ▸ focusSource_mem ..⟩
    · subst hv
      exact received.trans (congrArg _ (receivePacket_damaged first takes (here ▸ free)))
    · subst hv
      exact received.trans (congrArg _ (receivePacket_waits first takes (here ▸ free) hx op held))
    · subst hv
      exact ⟨fun t place ok => received.trans (congrArg _ (receivePacket_ranked first takes (here ▸ free) hx op ok)),
        fun c bad => received.trans (congrArg _ (receivePacket_refused first takes (here ▸ free) hx op bad))⟩
  · intro b q
    have here : b.cube cube = q := State.focus_cube ..
    have mem : b.mem = s.mem := State.focus_mem ..
    refine ⟨fun e fl l hi => ⟨fun full => pifoAdmission_full hs hi full, fun room ready => ?_⟩, fun e he moves free h0 k0 => ?_,
      fun e he y hy => headOf_first he hy, fun t ht => ?_, fun calm idle => ?_, ?_, ?_⟩
    · obtain ⟨pifo, arrivals, ingress⟩ := intoPifo_refill_cube b cube { e with
        arrival := q.arrivals, auto := admitAuto b cube e } l fl
      rw [here] at pifo arrivals ingress
      refine ⟨_, pifoAdmission_admits hs hi room ready, pifo, arrivals, ingress, ?_, ?_⟩
      · exact (senderTold_mem ..).trans ((refill_mem ..).trans ((doneReading_mem ..).trans mem))
      · rintro f rfl
        exact senderTold_flights ..
    · intro t
      have outcome := fun r hr => dispatch_head (r := r) hs he moves free h0 k0 hr
      refine ⟨fun u hu => outcome _ hu, fun hu => outcome _ hu, fun hu told => ?_, fun hu new => ?_⟩
      · refine (outcome _ hu).trans (congrArg _ (if_pos ?_))
        rw [State.focus_cube]
        exact told
      · obtain ⟨notice, noticed, pifo, mem'⟩ := noticeHead_posts (s := b) (cube := cube) (e := e) (by rw [here]; exact new)
        exact ⟨_, outcome _ hu, notice, noticed, pifo.trans (congrArg Cube.pifo here), mem'.trans mem⟩
    · exact nodeCompletion_ends hs ht
    · refine (nodeCompletion_walks hs calm).trans (congrArg _ ?_)
      unfold walkerStep
      rw [State.focus_cube, idle]
    · intro slot k st l g calm hd hg started free rest mine told does
      have hd' : (b.cube cube).done = ⟨.node slot k, st⟩ :: l := (congrArg Cube.done here).trans hd
      have walks {P : State → Prop} (h : P (walkerStep b cube)) : does P := ⟨_, nodeCompletion_walks hs calm, h⟩
      have waiting : slotNodes slot (b.cube cube).waiting = mine := by rw [here]; rfl
      refine ⟨fun aborted busy => walks ?_, fun live bad => ?_, fun live ok graph => ?_⟩
      · exact mem ▸ walked_aborted hd' hg free aborted busy
      · intro left
        refine ⟨fun busy => walks ?_, fun idle one => walks ?_⟩
        · exact mem ▸ walked_failed hd' hg free live bad left (by rw [waiting]) busy
        · exact mem ▸ walked_failed_last hd' hg free live bad started (by rw [waiting]; exact idle) one
      · intro u h z e hh he
        refine ⟨fun leaf busy => walks ?_, fun leaf idle one => walks ?_, ?_⟩
        · exact mem ▸ walked_leaf hd' hg free live ok graph hh he leaf busy
        · exact mem ▸ walked_leaf_last hd' hg free live ok graph hh he leaf started idle one
        · intro m v p one hm hv hp len clean inTable wf counted
          have same {t : State} {a n : Nat} (h : SameMemoryBut b t a n) : SameMemoryBut s t a n :=
            fun x hx => (h x hx).trans (congrArg (memGet · x) mem)
          refine ⟨fun more busy => walks ?_, fun last => walks ?_⟩
          · obtain ⟨⟨count, rest⟩, active⟩ :=
              walked_counts hd' hg free live ok graph hh he one hm hv hp len clean inTable wf more busy
            exact ⟨⟨count, same rest⟩, active⟩
          · obtain ⟨⟨count, rest⟩, active, queued⟩ :=
              walked_enqueues hd' hg free live ok graph hh he one hm hv hp len clean inTable wf last
            exact ⟨⟨by rw [count, last], same rest⟩, active, queued⟩
    · rintro r hr rfl
      have exits : exec (.refinementExit r.cube r.id) s = .next (exitRun b r) := refinementExit_runs hs hr
      refine ⟨fun idle => exits.trans (congrArg _ (exitRun_idle idle)), fun e due => ⟨fun u hu => ?_, fun hw => ?_, fun bad live => ?_⟩⟩
      · obtain ⟨gone, told⟩ := endRun_results u r e
        exact ⟨_, exits.trans (congrArg _ (exitRun_ends due hu)), endRun_mem .., gone, told⟩
      · exact exits.trans (congrArg _ (exitRun_waits due hw))
      · refine ⟨_, exits.trans (congrArg _ (exitRun_faults due bad live)), mem, ?_⟩
        rw [stopRun, modRun, State.modCube_cube_same, here]
        exact find?_stopped exitFaulted hr
  · refine ⟨fun idle => ?_, fun g run => ?_, fun w t p written pieces len wf => writeStatus_written written pieces len wf⟩
    · unfold writeExit
      rw [idle]
    · intro w
      obtain ⟨state, fmt, sing, limit, exit_, iter, esc⟩ := refStatus_fields 3 g.fmt e g.k g.esc g.sing g.limit (by omega)
      exact ⟨state, fmt, sing, limit, exit_, iter, esc, writeExit_faulted run, fun other t => writeExit_iterate run other⟩

end Sys2Proof.Safety
end

