-- ==== Sys2Proof/Proofs/WordsOfInstructions.lean ====
section
/-! SUPPORT and the proofs of O45 and O44: the decoder on the words of a well-formed instruction, whatever words follow
them (R40-R49, R66, R75-R86), and on words written out from the encodings. -/

namespace Sys2Proof.Laws

open Sys2Proof

/-! ### Words that follow an instruction -/

/-- R86: the decoder reads no word behind the instruction that it has found. -/
theorem decodeShapes_append {ws : List Word32} {sh : Shape} (h : decodeShapes ws = .ok sh) (rest : List Word32) :
    decodeShapes (ws ++ rest) = .ok sh := by
  match ws with
  | [] => exact nomatch h
  | [w] =>
    by_cases last : majorOp w ≠ 0xFE
    · simpa only [decodeShapes, List.cons_append, if_pos last] using h
    · simp only [decodeShapes, if_neg last, reduceCtorEq] at h
  | [w, w1] =>
    by_cases last : majorOp w1 ≠ 0xFE
    · simpa only [decodeShapes, List.cons_append, if_pos last] using h
    · by_cases first : majorOp w ≠ 0xFE
      · simpa only [decodeShapes, List.cons_append, if_pos first] using h
      · simp only [decodeShapes, if_neg last, if_neg first, reduceCtorEq] at h
  | _ :: _ :: _ :: _ => exact h

/-! ### The shape of an instruction -/

/-- The opcode of a shape is one of its format, and its funct fits the format's field (R41-R46, R75). -/
def inFormat : Shape → Bool
  | .a op fn _ => op < 0xFE && fn < 8 && formatOf op == some .a
  | .l op _ => op < 0xFE && formatOf op == some .l
  | .m op fn _ => op < 0xFE && fn < 8 && formatOf op == some .m
  | .b op _ _ => op < 0xFE && formatOf op == some .b
  | .t op fn _ => op < 0xFE && fn < 16 && formatOf op == some .t
  | _ => true

theorem shape_inFormat (i : Instr) : inFormat i.shape = true := by cases i <;> rfl

/-- A legal shape is read back from its words. -/
theorem decodeShapes_shapeWords {sh : Shape} (fits : inFormat sh = true) (legal : Legal sh = true) :
    decodeShapes (shapeWords sh) = .ok sh := by
  cases sh with
  | event => exact nomatch legal
  | lpad l => exact round_lpad l
  | jt i => exact round_jt i legal
  | rep n l t => exact round_rep n l t
  | repg c l t => exact round_repg c l t legal
  | a op fn f =>
    simp only [inFormat, Bool.and_eq_true, decide_eq_true_eq, beq_iff_eq] at fits
    obtain ⟨⟨ho, hn⟩, hf⟩ := fits
    exact round_a op fn f ho hn hf legal
  | m op fn f =>
    simp only [inFormat, Bool.and_eq_true, decide_eq_true_eq, beq_iff_eq] at fits
    obtain ⟨⟨ho, hn⟩, hf⟩ := fits
    exact round_m op fn f ho hn hf legal
  | t op fn f =>
    simp only [inFormat, Bool.and_eq_true, decide_eq_true_eq, beq_iff_eq] at fits
    obtain ⟨⟨ho, hn⟩, hf⟩ := fits
    exact round_t op fn f ho hn hf legal
  | l op f =>
    simp only [inFormat, Bool.and_eq_true, decide_eq_true_eq, beq_iff_eq] at fits
    exact round_l op f fits.left fits.right legal
  | b op k f =>
    simp only [inFormat, Bool.and_eq_true, decide_eq_true_eq, beq_iff_eq] at fits
    exact round_b op k f fits.left fits.right legal

/-- A conditional form of B or CALL is told from the unconditional one by its condition (R45, R143, R144). -/
theorem instrB_of_condition {k : BitVec 3} (h : decide (k.toNat < 6) = true) (f : FmtB) :
    instrB 0x20 k f = some (.bCond k f) ∧ instrB 0x21 k f = some (.callCond k f) := by
  obtain ⟨h7, h6⟩ := cond_cases (of_decide_eq_true h)
  simp only [instrB, if_neg h7, if_neg h6, and_self]

/-- An instruction that has words is the one that its shape stands for. -/
theorem ofShape_shape {i : Instr} (cond : i.condOk = true) (assigned : i.shape.assigned = true) :
    ofShape i.shape = some i := by
  cases i
  case bCond k f => simp only [ofShape, Instr.shape, ofShapeLow, (instrB_of_condition cond f).1]
  case callCond k f => simp only [ofShape, Instr.shape, ofShapeLow, (instrB_of_condition cond f).2]
  any_goals rfl
  all_goals exact nomatch assigned

/-- Settles O45: the fields of an encoded word read back (`decodeShapes_shapeWords`), no word behind them is looked at
(`decodeShapes_append`), and an instruction is the one that its shape stands for (`ofShape_shape`). -/
theorem roundTripAll : Obligations.RoundTripAll := by
  unfold Obligations.RoundTripAll
  intro i rest wf
  have shape : decodeShapes (encode i ++ rest) = .ok i.shape :=
    decodeShapes_append (decodeShapes_shapeWords (shape_inFormat i) (legal_of_wf wf)) rest
  simp only [Instr.wf, Bool.and_eq_true] at wf
  obtain ⟨⟨⟨⟨assigned, cond⟩, -⟩, -⟩, -⟩ := wf
  simp only [decodeWords, shape, ofShape_shape cond assigned]

/-- Settles O44: each word is evaluated by the decoder. -/
theorem wordsDecode : Obligations.WordsDecode := by
  unfold Obligations.WordsDecode
  exact ⟨rfl, rfl, rfl, rfl, rfl, rfl, rfl, rfl, rfl, rfl, rfl, rfl, rfl, rfl, rfl, rfl, rfl, rfl, rfl⟩

end Sys2Proof.Laws
end

