-- ==== Sys2Proof/Proofs/RepeatFrame.lean ====
section
/-! SUPPORT and the proof of O12: the fields of TSW, the repeat state of the moving sequencer, and its advance past an
instruction (R59, R61, R97). -/

namespace Sys2Proof.Machine

open Sys2Proof

/-! ### Fields of a word -/

theorem getLsbD_setField (w : Word) (lo n v k : Nat) (h : lo + n ≤ 64) :
    (setField w lo n v).getLsbD k = if lo ≤ k ∧ k < lo + n then v.testBit (k - lo) else w.getLsbD k := by
  unfold setField
  simp only [BitVec.getLsbD_or, BitVec.getLsbD_and, BitVec.getLsbD_not, BitVec.getLsbD_ofNat, Nat.testBit_mul_two_pow,
    Nat.testBit_two_pow_sub_one, Nat.testBit_mod_two_pow]
  by_cases inside : lo ≤ k ∧ k < lo + n
  · obtain ⟨low, high⟩ := inside
    simp [low, high, show k - lo < n by omega, show k < 64 by omega]
  · have outside : ¬(lo ≤ k ∧ k - lo < n) := by omega
    by_cases hk : k < 64
    · by_cases hl : lo ≤ k
      · simp [hk, hl, show ¬(k - lo < n) by omega, show ¬(k < lo + n) by omega]
      · simp [hk, hl]
    · simp [hk, inside, BitVec.getLsbD_of_ge w k (by omega)]

theorem field_of_bits {w : Word} {lo n v : Nat} (hv : v < 2 ^ n) (bits : ∀ k, k < n → w.getLsbD (lo + k) = v.testBit k) :
    field w lo n = v := by
  have same : w.extractLsb' lo n = BitVec.ofNat n v := by
    refine BitVec.eq_of_getLsbD_eq fun k hk => ?_
    simp only [BitVec.getLsbD_extractLsb', BitVec.getLsbD_ofNat, hk, decide_true, Bool.true_and, bits k hk]
  rw [field, same, BitVec.toNat_ofNat, Nat.mod_eq_of_lt hv]

/-! ### The repeat state in TSW (R97) -/

theorem tswRa_tswRepeat (w : Word) (ra : Bool) (rit rpos : Nat) : tswRa (tswRepeat w ra rit rpos) = ra := by
  simp only [tswRa, tswRepeat, tswSet]
  rw [getLsbD_setField _ _ _ _ _ (by omega), if_neg (by omega), getLsbD_setField _ _ _ _ _ (by omega), if_neg (by omega),
    getLsbD_setField _ _ _ _ _ (by omega), if_pos (by omega)]
  cases ra <;> rfl

theorem tswRit_tswRepeat (w : Word) (ra : Bool) {rit : Nat} (rpos : Nat) (h : rit < 2 ^ 24) :
    tswRit (tswRepeat w ra rit rpos) = rit := by
  refine field_of_bits h fun k hk => ?_
  rw [tswRepeat, getLsbD_setField _ _ _ _ _ (by omega), if_neg (by omega), getLsbD_setField _ _ _ _ _ (by omega),
    if_pos (by omega), Nat.add_sub_cancel_left]

theorem tswRpos_tswRepeat (w : Word) (ra : Bool) (rit : Nat) {rpos : Nat} (h : rpos < 16) :
    tswRpos (tswRepeat w ra rit rpos) = rpos := by
  refine field_of_bits h fun k hk => ?_
  rw [tswRepeat, getLsbD_setField _ _ _ _ _ (by omega), if_pos (by omega), Nat.add_sub_cancel_left]

/-! ### The repeat state of the moving sequencer -/

theorem State.rep_setRep (s : State) (p : Rep) (hi : p.rit < 2 ^ 24) (hp : p.rpos < 16) : (s.setRep p).rep = p := by
  obtain ⟨ra, rit, rpos, base, cnt⟩ := p
  have engine : (BitVec.ofNat 24 rit).toNat = rit ∧ (BitVec.ofNat 4 rpos).toNat = rpos :=
    ⟨Nat.mod_eq_of_lt hi, Nat.mod_eq_of_lt hp⟩
  rcases s with ⟨_, q, _⟩
  cases q with
  | main =>
    simp only [State.rep, State.setRep, State.modRegs_seqr, State.modRegs_regs, tswRa_tswRepeat, tswRit_tswRepeat _ _ _ hi,
      tswRpos_tswRepeat _ _ _ hp]
  | matrix => exact congrArg₂ (fun y z => Rep.mk ra y z base cnt) engine.1 engine.2
  | copy => exact congrArg₂ (fun y z => Rep.mk ra y z base cnt) engine.1 engine.2
  | flue => exact congrArg₂ (fun y z => Rep.mk ra y z base cnt) engine.1 engine.2

@[simp] theorem State.rep_setPc (s : State) (pc : Word) : (s.setPc pc).rep = s.rep := by
  rcases s with ⟨_, q, _⟩
  cases q <;> rfl

@[simp] theorem State.curPc_setPc (s : State) (pc : Word) : (s.setPc pc).curPc = pc := by
  rcases s with ⟨_, q, _⟩
  cases q <;> rfl

@[simp] theorem State.rep_setFrame (s : State) (f : Option Frame) : (s.setFrame f).rep = s.rep := by
  rcases s with ⟨_, q, _⟩
  cases q <;> rfl

/-- The number of instructions in the captured body, or 1 before it is captured. -/
def State.bodyLength (s : State) : Nat :=
  match s.frame with
  | some f => f.body.length
  | none => 1

section Advance

variable {s : State} (w : Nat)

theorem State.advance_of_idle (h : s.rep.ra = false) : s.advance w = s.setPc (s.curPc + BitVec.ofNat 64 (4 * w)) := by
  simp [State.advance, h]

theorem State.advance_of_position (h : s.rep.ra = true) (inside : s.rep.rpos + 1 < s.bodyLength) :
    s.advance w =
      (s.setRep { s.rep with rpos := s.rep.rpos + 1 }).setPc (s.curPc + BitVec.ofNat 64 (4 * w)) := by
  simp only [State.advance, h]
  exact if_pos inside

theorem State.advance_of_iteration (h : s.rep.ra = true) (last : s.bodyLength ≤ s.rep.rpos + 1)
    (more : s.rep.rit + 1 < s.rep.cnt.toNat) :
    s.advance w = (s.setRep { s.rep with rit := s.rep.rit + 1, rpos := 0 }).setPc (s.rep.base + 4) := by
  simp only [State.advance, h]
  exact (if_neg (Nat.not_lt.mpr last)).trans (if_pos more)

theorem State.advance_of_end (h : s.rep.ra = true) (last : s.bodyLength ≤ s.rep.rpos + 1)
    (spent : s.rep.cnt.toNat ≤ s.rep.rit + 1) :
    s.advance w = ((s.setRep { s.rep with ra := false, rit := 0, rpos := 0 }).setFrame none).setPc
      (s.curPc + BitVec.ofNat 64 (4 * w)) := by
  simp only [State.advance, h]
  exact (if_neg (Nat.not_lt.mpr last)).trans (if_neg (Nat.not_lt.mpr spent))

end Advance

end Sys2Proof.Machine

namespace Sys2Proof.Safety

open Sys2Proof Sys2Proof.Machine

/-- Settles O12: `State.advance` has one equation for each case, and the repeat state that it sets is read back. -/
theorem advanceFollowsTheFrame : Obligations.AdvanceFollowsTheFrame := by
  unfold Obligations.AdvanceFollowsTheFrame
  intro s w next len p
  refine ⟨s.advance_of_idle w, fun active inside short rit => ?_, fun active last more count => ?_, fun active last spent => ?_⟩
  · rw [State.advance_of_position w active inside, State.rep_setPc, State.curPc_setPc]
    exact ⟨State.rep_setRep s _ rit (Nat.lt_of_lt_of_le inside short), rfl⟩
  · rw [State.advance_of_iteration w active last more, State.rep_setPc, State.curPc_setPc]
    exact ⟨State.rep_setRep s _ (Nat.lt_of_lt_of_le more count) (Nat.succ_pos 15), rfl⟩
  · rw [State.advance_of_end w active last spent, State.rep_setPc, State.curPc_setPc, State.rep_setFrame]
    exact ⟨State.rep_setRep s _ (Nat.two_pow_pos 24) (Nat.succ_pos 15), rfl⟩

end Sys2Proof.Safety
end

