-- ==== Sys2Proof/Proofs/JumpsAndFrames.lean ====
section
/-! SUPPORT and the proof of O15: landing pads, jump tables (R64, R65) and the start of a repeat frame (R58, R59). -/

namespace Sys2Proof.Machine

open Sys2Proof

theorem ok_bind {ε α β : Type} (a : α) (f : α → Except ε β) : (Except.ok a >>= f) = f a := rfl

/-! ### Bytes of a fetched word -/

theorem topByte_eq_zero (w : Word32) : w.extractLsb' 24 8 = 0 ↔ w.toNat / 2 ^ 24 = 0 := by
  rw [BitVec.toNat_eq, BitVec.extractLsb'_toNat, Nat.shiftRight_eq_div_pow]
  change w.toNat / 2 ^ 24 % 2 ^ 8 = 0 ↔ _
  omega

theorem lowByte_toNat (w : Word32) : (w.extractLsb' 0 8).toNat = w.toNat % 256 := by
  rw [BitVec.extractLsb'_toNat, Nat.shiftRight_zero]

/-- R64, R65: a landing pad with the label of a header whose top byte is 0. -/
theorem isPad_iff {hdr : Word32} (clear : hdr.toNat / 2 ^ 24 = 0) (w : Word32) :
    (w.extractLsb' 24 8 ≠ 0x3C || w.extractLsb' 8 16 ≠ hdr.extractLsb' 8 16) = false ↔
      w.toNat / 2 ^ 8 = 0x3C * 2 ^ 16 + hdr.toNat / 2 ^ 8 := by
  simp only [Bool.or_eq_false_iff, decide_eq_false_iff_not, not_not, BitVec.toNat_eq, BitVec.extractLsb'_toNat,
    Nat.shiftRight_eq_div_pow, BitVec.ofNat_eq_ofNat, BitVec.toNat_ofNat]
  omega

/-! ### Jump tables -/

/-- The entry that an index names in the table of a header (R65). -/
def tableEntry (hdr : Word32) (x : Word) : Nat := if x.toNat < hdr.toNat % 256 + 1 then x.toNat else 0

/-- What JT does behind its header: it fetches entry `k`, then its pad (R65). -/
def jtFrom (s t : State) (hdr : Word32) (k : Nat) : Except Stop (State × Word) := do
  let e := s.curPc + 4 + BitVec.ofNat 64 (4 + 4 * k)
  let (ent, u) ← fetchWord t s.curPc e
  if ent.extractLsb' 24 8 ≠ 0 then jtTrap s .jtInvalid e
  else do
    let dest := s.curPc + 4 + (ent.extractLsb' 0 24).signExtend 64 * 4
    let (w, v) ← fetchWord u s.curPc dest
    if w.extractLsb' 24 8 ≠ 0x3C || w.extractLsb' 8 16 ≠ hdr.extractLsb' 8 16 then jtTrap s .landingMismatch dest
    else .ok (v, dest)

section Table

variable {s t u v : State} {i : BitVec 6} {x : Word} {hdr ent w : Word32} {k : Nat}

theorem jtBody_of_badHeader (header : fetchWord s s.curPc (s.curPc + 4) = .ok (hdr, t)) (bad : hdr.toNat / 2 ^ 24 ≠ 0) :
    jtBody i s = jtTrap s .jtInvalid (s.curPc + 4) := by
  unfold jtBody
  simp only [header, ok_bind]
  exact if_pos (mt (topByte_eq_zero hdr).1 bad)

/-- Behind a header that is one, JT goes on at the entry that its index names, whether or not the table has others. -/
theorem jtBody_of_header (hx : readScalar s 0 i = .ok x) (header : fetchWord s s.curPc (s.curPc + 4) = .ok (hdr, t))
    (clear : hdr.toNat / 2 ^ 24 = 0) : jtBody i s = jtFrom s t hdr (tableEntry hdr x) := by
  have at_ (k : Nat) : s.curPc + 4 + 4 + BitVec.ofNat 64 (4 * k) = s.curPc + 4 + BitVec.ofNat 64 (4 + 4 * k) := by
    rw [BitVec.ofNat_add, BitVec.add_assoc (s.curPc + 4)]
    rfl
  unfold jtBody
  simp only [header, hx, ok_bind, Except.map, at_, lowByte_toNat]
  rw [if_neg (not_not.mpr ((topByte_eq_zero hdr).2 clear))]
  have entry : tableEntry hdr x = if hdr.toNat % 256 + 1 ≤ x.toNat then 0 else x.toNat := by
    unfold tableEntry
    split <;> split <;> omega
  by_cases one : hdr.toNat % 256 + 1 = 1
  · have zero : tableEntry hdr x = 0 := by
      unfold tableEntry
      split <;> omega
    rw [if_pos one, zero]
    rfl
  · rw [if_neg one, entry]
    rfl

theorem jtFrom_of_badEntry (entry : fetchWord t s.curPc (s.curPc + 4 + BitVec.ofNat 64 (4 + 4 * k)) = .ok (ent, u))
    (bad : ent.toNat / 2 ^ 24 ≠ 0) : jtFrom s t hdr k = jtTrap s .jtInvalid (s.curPc + 4 + BitVec.ofNat 64 (4 + 4 * k)) := by
  unfold jtFrom
  simp only [entry, ok_bind]
  exact if_pos (mt (topByte_eq_zero ent).1 bad)

theorem jtFrom_of_entry (entry : fetchWord t s.curPc (s.curPc + 4 + BitVec.ofNat 64 (4 + 4 * k)) = .ok (ent, u))
    (clear : ent.toNat / 2 ^ 24 = 0)
    (pad : fetchWord u s.curPc (s.curPc + 4 + (ent.extractLsb' 0 24).signExtend 64 * 4) = .ok (w, v)) :
    jtFrom s t hdr k =
      if w.extractLsb' 24 8 ≠ 0x3C || w.extractLsb' 8 16 ≠ hdr.extractLsb' 8 16 then
        jtTrap s .landingMismatch (s.curPc + 4 + (ent.extractLsb' 0 24).signExtend 64 * 4)
      else .ok (v, s.curPc + 4 + (ent.extractLsb' 0 24).signExtend 64 * 4) := by
  unfold jtFrom
  simp only [entry, ok_bind]
  rw [if_neg (not_not.mpr ((topByte_eq_zero ent).2 clear)), pad]
  rfl

end Table

/-! ### Repeat frames -/

section Frames

variable {s t : State} {len stride n : Nat} {count : Except Stop Nat} {f : Frame}

theorem repFrame_inside (active : s.rep.ra = true) : repFrame len stride count s = trapHere s .repInvalid := by
  unfold repFrame
  exact if_pos active

theorem repFrame_outside (idle : s.rep.ra = false) (captured : captureFrame s s.curPc len stride = .ok (f, t)) :
    repFrame len stride (.ok n) s =
      if 2 ^ 24 < n then trapHere s .repInvalid
      else if n = 0 then .ok (t, s.curPc + BitVec.ofNat 64 (4 + 4 * wordCount f.body))
      else .ok ((t.setRep ⟨true, 0, 0, s.curPc, BitVec.ofNat 25 n⟩).setFrame (some f), s.curPc + 4) := by
  unfold repFrame
  simp only [idle, captured, ok_bind]
  rfl

theorem repgBody_of_count {c : BitVec 6} {len : BitVec 4} {stride : BitVec 5} {x : Word} (hx : readScalar s 0 c = .ok x) :
    repgBody c len stride s = repFrame (len.toNat + 1) stride.toNat (.ok x.toNat) s := by
  unfold repgBody
  rw [hx]
  rfl

end Frames

end Sys2Proof.Machine

namespace Sys2Proof.Safety

open Sys2Proof Sys2Proof.Machine

/-- Settles O15: JT by the words that it fetches one after another, REP and REPG by the one operation that starts a frame. -/
theorem jumpTableAndRepeatResults : Obligations.JumpTableAndRepeatResults := by
  unfold Obligations.JumpTableAndRepeatResults
  refine ⟨fun i s t u v x hdr ent w => ⟨fun l => rfl, ?_⟩, fun n c len stride s t fr => ?_⟩
  · intro h k e dest index header
    refine ⟨fun bad => issueTo_trap (jtBody_of_badHeader header bad), fun clear entry => ?_⟩
    have body := jtBody_of_header index header clear
    refine ⟨fun bad => issueTo_trap (body.trans (jtFrom_of_badEntry entry bad)), fun clear' pad => ?_⟩
    have ends := body.trans (jtFrom_of_entry entry clear' pad)
    refine ⟨fun isPad => issueTo_ok (ends.trans (if_neg ?_)), fun notPad => issueTo_trap (ends.trans (if_pos ?_))⟩
    · exact Bool.not_eq_true _ ▸ (isPad_iff clear w).2 isPad
    · exact (Bool.not_eq_false _).mp (mt (isPad_iff clear w).1 notPad)
  · have small : ¬2 ^ 24 < n.toNat + 1 := by omega
    intro start
    refine ⟨fun active => issueTo_trap (repFrame_inside active), fun idle captured => ?_,
      fun active => issueTo_trap (repFrame_inside active), fun x count idle captured => ?_⟩
    · exact issueTo_ok ((repFrame_outside idle captured).trans ((if_neg small).trans (if_neg (Nat.succ_ne_zero _))))
    · have body := (repgBody_of_count (len := len) count).trans (repFrame_outside idle captured)
      refine ⟨fun large => issueTo_trap (body.trans (if_pos large)), fun zero => issueTo_ok (body.trans ?_),
        fun pos fits => issueTo_ok (body.trans ?_)⟩
      · rw [if_neg (by omega), if_pos zero]
      · rw [if_neg (by omega), if_neg (by omega)]

end Sys2Proof.Safety
end

