-- ==== Sys2Proof/Proofs/Reads.lean ====
section
/-! SUPPORT. Meanings that only read the state: where one of them stops, the state is the one that it began in (R36, R213). -/

namespace Sys2Proof.Machine

open Sys2Proof

/-- A meaning ends as asked: the state of a stop is of one kind, a value of another. -/
def EndsIn {α : Type} (P : State → Prop) (Q : α → Prop) : Except Stop α → Prop
  | .ok x => Q x
  | .error e => P e.state

/-- A meaning that stops in the state `s` alone. -/
def Reads {α : Type} (s : State) (x : Except Stop α) : Prop := EndsIn (· = s) Anything x

section Sequence

variable {α β : Type} {P : State → Prop} {Q : α → Prop} {R : β → Prop} {s : State}

theorem EndsIn.bind {x : Except Stop α} {f : α → Except Stop β} (hx : EndsIn P Q x) (hf : ∀ a, Q a → EndsIn P R (f a)) :
    EndsIn P R (x >>= f) := by
  cases x with
  | ok a => exact hf a hx
  | error e => exact hx

theorem EndsIn.ite {c : Prop} [Decidable c] {x y : Except Stop α} (hx : EndsIn P Q x) (hy : EndsIn P Q y) :
    EndsIn P Q (if c then x else y) := by
  split
  · exact hx
  · exact hy

/-- An `if` whose branches go on alike. -/
theorem EndsIn.join {c : Prop} [Decidable c] {x y : Except Stop α} {k : α → Except Stop β} (hx : EndsIn P Q x)
    (hy : EndsIn P Q y) (hk : ∀ a, Q a → EndsIn P R (k a)) : EndsIn P R (if c then x >>= k else y >>= k) :=
  .ite (hx.bind hk) (hy.bind hk)

theorem EndsIn.mono {P' : State → Prop} {Q' : α → Prop} {x : Except Stop α} (h : EndsIn P Q x) (hp : ∀ u, P u → P' u)
    (hq : ∀ a, Q a → Q' a) : EndsIn P' Q' x := by
  cases x with
  | ok a => exact hq a h
  | error e => exact hp _ h

/-- A read is followed by what the rest does in the same state. -/
theorem Reads.bind {x : Except Stop α} {f : α → Except Stop β} (hx : Reads s x) (hs : P s) (hf : ∀ a, EndsIn P R (f a)) :
    EndsIn P R (x >>= f) :=
  EndsIn.bind (EndsIn.mono hx (fun _ e => e ▸ hs) fun _ h => h) fun a _ => hf a

/-- The same, with the value that was read. -/
theorem Reads.bind_eq {x : Except Stop α} {f : α → Except Stop β} (hx : Reads s x) (hs : P s)
    (hf : ∀ a, x = .ok a → EndsIn P R (f a)) : EndsIn P R (x >>= f) := by
  cases x with
  | ok a => exact hf a rfl
  | error e =>
    obtain rfl : e.state = s := hx
    exact hs

theorem Reads.thenReads {x : Except Stop α} {f : α → Except Stop β} (hx : Reads s x) (hf : ∀ a, Reads s (f a)) :
    Reads s (x >>= f) :=
  hx.bind rfl hf

theorem Reads.map {x : Except Stop α} (hx : Reads s x) (f : α → β) : Reads s (x.map f) := by
  cases x with
  | ok a => trivial
  | error e => exact hx

theorem Reads.ite {c : Prop} [Decidable c] {x y : Except Stop α} (hx : Reads s x) (hy : Reads s y) :
    Reads s (if c then x else y) :=
  EndsIn.ite hx hy

theorem trapHere_reads (s : State) (c : TrapCode) : Reads s (trapHere s c : Except Stop α) := rfl

theorem trapAt_reads (s : State) (c : TrapCode) (a : Word) : Reads s (trapAt s c a : Except Stop α) := rfl

theorem trapAccess_reads (s : State) (c : TrapCode) (a : Word) (k : AccessKind) (seg : BitVec 16) :
    Reads s (trapAccess s c a k seg : Except Stop α) := rfl

theorem stall_reads (s : State) : Reads s (stall s : Except Stop α) := rfl

theorem ok_reads (s : State) (a : α) : Reads s (.ok a) := trivial

end Sequence

/-! ### Operands -/

section Operands

variable (s : State)

theorem readPlace_reads {α : Type} (x : Loc) (value open_ : α) : Reads s (readPlace s x value open_) := by
  unfold readPlace
  split
  · exact .ite (ok_reads ..) (.ite (trapHere_reads ..) (ok_reads ..))
  · exact ok_reads ..

theorem interlock_reads (dst age : Option Nat) : Reads s (interlock s dst age) :=
  .ite (stall_reads s) (ok_reads ..)

theorem interlockV_reads (reg age : Option Nat) : Reads s (interlockV s reg age) :=
  .ite (stall_reads s) (ok_reads ..)

theorem readScalar_reads (pos : Nat) (f : BitVec 6) : Reads s (readScalar s pos f) := by
  unfold readScalar
  refine .ite ((interlock_reads ..).thenReads fun _ => readPlace_reads ..)
    (.ite ((interlock_reads ..).thenReads fun _ => readPlace_reads ..) ?_)
  split
  case h_9 => exact trapHere_reads ..
  all_goals exact ok_reads ..

theorem readVector_reads (pos : Nat) (f : BitVec 6) : Reads s (readVector s pos f) := by
  unfold readVector
  refine .ite ((interlockV_reads ..).thenReads fun _ => readPlace_reads ..)
    (.ite ((interlockV_reads ..).thenReads fun _ => readPlace_reads ..) ?_)
  split
  case h_9 => exact trapHere_reads ..
  all_goals exact ok_reads ..

theorem readMask_reads (pos : Nat) (f : BitVec 6) : Reads s (readMask s pos f) := by
  unfold readMask
  refine .ite (readPlace_reads ..) ?_
  split
  case h_3 => exact trapHere_reads ..
  all_goals exact ok_reads ..

theorem readA1_reads (pos : Nat) : Reads s (readA1 s pos) := readScalar_reads ..

theorem readG_reads (pos k : Nat) : Reads s (readG s pos k) := readScalar_reads ..

theorem needUnused_reads (f : BitVec 6) : Reads s (needUnused s f) := .ite (ok_reads ..) (trapHere_reads ..)

theorem needDst_reads (f : BitVec 6) : Reads s (needDst s f) := .ite (ok_reads ..) (trapHere_reads ..)

theorem needDstReg_reads (f : BitVec 6) : Reads s (needDstReg s f) := .ite (ok_reads ..) (trapHere_reads ..)

theorem needMaskDst_reads (f : BitVec 6) : Reads s (needMaskDst s f) := .ite (ok_reads ..) (trapHere_reads ..)

theorem readB_reads (pos : Nat) (f : FmtA) (signed : Bool) : Reads s (readB s pos f signed) := by
  unfold readB
  split
  · exact readScalar_reads ..
  · exact ok_reads ..

theorem vectorB_reads (signed : Bool) (f : FmtA) : Reads s (vectorB signed f s) := by
  unfold vectorB
  split
  · exact readVector_reads ..
  · exact ok_reads ..

theorem readD_reads (f : FmtL) : Reads s (readD f s) :=
  (needDst_reads ..).thenReads fun _ => .ite (readScalar_reads ..) (ok_reads ..)

theorem eIndex_reads (i : Word) : Reads s (eIndex i s) := .ite (trapAt_reads ..) (ok_reads ..)

theorem readControl_reads (f : FmtA) (wantList : Bool) : Reads s (readControl f wantList s) := by
  refine .ite (ok_reads ..) (.ite (trapHere_reads ..) ((readScalar_reads ..).thenReads fun c => ?_))
  split
  · exact trapHere_reads ..
  · refine .ite (trapHere_reads ..) (.ite (ok_reads ..) ?_)
    dsimp only
    split
    · split
      · exact (readG_reads ..).thenReads fun _ => ok_reads ..
      · exact ok_reads ..
    · exact trapHere_reads ..

/-! ### Counters -/

theorem counterGroup_reads (idx : Nat) : Reads s (counterGroup s idx) := by
  unfold counterGroup
  split
  · exact trapHere_reads ..
  · exact .ite (ok_reads ..) (trapHere_reads ..)

theorem selector_reads (x : Word) : Reads s (selector s x) := .ite (trapHere_reads ..) (ok_reads ..)

end Operands

end Sys2Proof.Machine
end

