-- ==== Sys2Proof/Proofs/Onward.lean ====
section
/-! SUPPORT. What the step to the next instruction leaves: the advance and the retirement move the pc, the repeat state, a
clock and counters (R55, R57, R59, R61, R445). -/

namespace Sys2Proof.Safety

open Sys2Proof Sys2Proof.Machine

theorem SameTsw.trans {a b c : Word} (h : SameTsw a b) (k : SameTsw b c) : SameTsw a c := fun i h6 hr =>
  (k i h6 hr).trans (h i h6 hr)

theorem sameTsw_tswRepeat (w : Word) (ra : Bool) (rit rpos : Nat) : SameTsw w (tswRepeat w ra rit rpos) := by
  intro k h6 hr
  simp only [tswRepeat, tswSet]
  rw [getLsbD_setField _ _ _ _ _ (by omega), getLsbD_setField _ _ _ _ _ (by omega), getLsbD_setField _ _ _ _ _ (by omega),
    if_neg (by omega), if_neg (by omega), if_neg (by omega)]

/-- Of the registers only the pc and the repeat state differ. -/
def PastRegs (a b : Regs) : Prop :=
  ∃ pc tsw base count, b = { a with pc := pc, tsw := tsw, repbase := base, rcnt := count } ∧ SameTsw a.tsw tsw

theorem PastRegs.refl (a : Regs) : PastRegs a a := ⟨a.pc, a.tsw, a.repbase, a.rcnt, rfl, fun _ _ _ => rfl⟩

theorem PastRegs.trans {a b c : Regs} (h : PastRegs a b) (k : PastRegs b c) : PastRegs a c := by
  obtain ⟨_, _, _, _, rfl, hb⟩ := h
  obtain ⟨pc, tsw, base, count, rfl, hc⟩ := k
  exact ⟨pc, tsw, base, count, rfl, hb.trans hc⟩

/-- A step that moves the pc and the repeat state of the moving sequencer, a clock and counters. -/
structure Onward (s t : State) : Prop where
  outside : SameOutside s t
  regs : PastRegs s.regs t.regs

theorem Onward.trans {s t u : State} (h : Onward s t) (k : Onward t u) : Onward s u :=
  ⟨h.outside.trans k.outside, h.regs.trans k.regs⟩

theorem Onward.of_modCtx {s : State} {f : Ctx → Ctx} (regs : PastRegs s.regs (f s.core.ctx).regs)
    (tiles : (f s.core.ctx).tiles = s.core.ctx.tiles) (unacked : (f s.core.ctx).unacked = s.core.ctx.unacked) :
    Onward s (s.modCtx f) :=
  ⟨sameOutside_modCtx tiles unacked, regs⟩

theorem onward_modEngine (s : State) (e : Sequencer) (f : Engine → Engine) :
    Onward s (s.modCtx fun c => c.modEngine e f) := by
  cases e with
  | main => exact .of_modCtx (.refl _) rfl rfl
  | matrix => exact .of_modCtx (.refl _) rfl rfl
  | copy => exact .of_modCtx (.refl _) rfl rfl
  | flue => exact .of_modCtx (.refl _) rfl rfl

theorem onward_setPc (s : State) (pc : Word) : Onward s (s.setPc pc) := by
  unfold State.setPc
  split
  · exact .of_modCtx ⟨_, _, _, _, rfl, fun _ _ _ => rfl⟩ rfl rfl
  · exact onward_modEngine ..

theorem onward_setRep (s : State) (p : Machine.Rep) : Onward s (s.setRep p) := by
  unfold State.setRep
  split
  · exact .of_modCtx ⟨_, _, _, _, rfl, sameTsw_tswRepeat _ _ _ _⟩ rfl rfl
  · exact onward_modEngine ..

theorem onward_setFrame (s : State) (f : Option Frame) : Onward s (s.setFrame f) := by
  unfold State.setFrame
  split
  · exact .of_modCtx (.refl _) rfl rfl
  · exact onward_modEngine ..

theorem onward_advance (s : State) (words : Nat) : Onward s (s.advance words) := by
  cases active : s.rep.ra with
  | false =>
    rw [State.advance_of_idle _ active]
    exact onward_setPc ..
  | true =>
    rcases Nat.lt_or_ge (s.rep.rpos + 1) s.bodyLength with inside | last
    · rw [State.advance_of_position _ active inside]
      exact (onward_setRep ..).trans (onward_setPc ..)
    · rcases Nat.lt_or_ge (s.rep.rit + 1) s.rep.cnt.toNat with more | spent
      · rw [State.advance_of_iteration _ active last more]
        exact (onward_setRep ..).trans (onward_setPc ..)
      · rw [State.advance_of_end _ active last spent]
        exact ((onward_setRep ..).trans (onward_setFrame ..)).trans (onward_setPc ..)

@[simp] theorem retire_regs (s : State) (stall : Nat) : (s.retire stall).regs = s.regs := by
  rcases s with ⟨_, q, _⟩
  cases q <;> rfl

theorem retire_cube (s : State) (stall c : Nat) :
    (s.retire stall).cube c =
      (s.modCube s.myCube fun q => { q with clock := q.clock + BitVec.ofNat 64 (1 + stall) }).cube c := by
  rcases s with ⟨_, q, _⟩
  cases q <;> rfl

theorem onward_retire (s : State) (stall : Nat) : Onward s (s.retire stall) where
  regs := (retire_regs s stall).symm ▸ .refl _
  outside :=
    { me := State.retire_me ..
      seqr := State.retire_seqr ..
      cores := State.retire_cores ..
      memory := fun a => congrArg (memGet · a) (State.retire_mem ..)
      poison := State.retire_poison ..
      flights := State.retire_flights ..
      kept := State.retire_kept ..
      seqs := State.retire_seqs ..
      removal := State.retire_removal ..
      agenda := State.retire_agenda ..
      detours := State.retire_detours ..
      cubes := fun c => by
        rw [retire_cube, State.modCube_cube]
        split
        · next h => rw [h]
        · rfl
      runList := by rcases s with ⟨_, q, _⟩; cases q <;> rfl
      messages := by rcases s with ⟨_, q, _⟩; cases q <;> rfl
      maps := by rcases s with ⟨_, q, _⟩; cases q <;> rfl
      tiles := by rcases s with ⟨_, q, _⟩; cases q <;> rfl
      unacked := by rcases s with ⟨_, q, _⟩; cases q <;> rfl }

/-- What an instruction leaves beside its own effect. -/
theorem onward_completes (s : State) (words stall : Nat) : Onward s ((s.advance words).retire stall) :=
  (onward_advance ..).trans (onward_retire ..)

/-! ### The registers behind a completion -/

theorem SameSpecial.onward {a b c : Regs} (h : SameSpecial a b) (k : PastRegs b c) : SameSpecial a c := by
  obtain ⟨_, _, _, _, rfl, tsw⟩ := k
  exact ⟨h.tsw.trans tsw, h.fmt, h.mb, h.mbstat, h.seg, h.ras, h.rsp, h.rsl, h.asid, h.tdirty, h.rank⟩

theorem SameRegs.onward {a b c : Regs} {dg dv dm : Option Nat} (h : SameRegs a b dg dv dm) (k : PastRegs b c) :
    SameRegs a c dg dv dm := by
  obtain ⟨_, _, _, _, rfl, -⟩ := k
  exact ⟨h.g, h.v, h.m, h.e⟩

theorem PastRegs.gq {a b : Regs} (h : PastRegs a b) : b.gq = a.gq := by
  obtain ⟨_, _, _, _, rfl, -⟩ := h
  rfl

theorem PastRegs.vq {a b : Regs} (h : PastRegs a b) : b.vq = a.vq := by
  obtain ⟨_, _, _, _, rfl, -⟩ := h
  rfl

theorem SameSpecial.refl (a : Regs) : SameSpecial a a :=
  ⟨fun _ _ _ => rfl, rfl, rfl, rfl, rfl, rfl, rfl, rfl, rfl, rfl, rfl⟩

theorem SameRegs.refl (a : Regs) (dg dv dm : Option Nat) : SameRegs a a dg dv dm :=
  ⟨fun _ _ => rfl, fun _ _ => rfl, fun _ _ => rfl, rfl⟩

end Sys2Proof.Safety
end

