-- ==== Sys2Proof/Proofs/RegistersKept.lean ====
section
/-! SUPPORT. What leaves the registers of the moving thread alone: an equation `(f …).regs = s.regs` for each operation of an
access, and how the accesses at homes end (R266, R292). -/

namespace Sys2Proof.Machine

open Sys2Proof Sys2Proof.Safety

/-! ### Operations -/

theorem foldl_regs {α : Type} {f : State → α → State} (h : ∀ t x, (f t x).regs = t.regs) (l : List α) (s : State) :
    (l.foldl f s).regs = s.regs := by
  induction l generalizing s with
  | nil => rfl
  | cons x l ih => rw [List.foldl_cons, ih, h]

theorem State.modCore_regs {f : Core → Core} (h : ∀ k, (f k).ctx.regs = k.ctx.regs) (s : State) (i : Nat) :
    (s.modCore i f).regs = s.regs := by
  unfold State.modCore State.setCore State.getCore State.regs
  split
  · exact h _
  · rfl

@[simp] theorem markLines_regs (s : State) (a n : Nat) : (markLines s a n).regs = s.regs := by
  unfold markLines
  split
  · rfl
  · apply State.modCore_regs
    exact fun _ => rfl

@[simp] theorem State.store_regs (s : State) (a : Nat) (bs : List Byte) : (s.store a bs).regs = s.regs := by
  unfold State.store
  split
  · rfl
  · exact markLines_regs ..

@[simp] theorem storeEnabled_regs (s : State) (a : Nat) (bs : List (Option Byte)) : (storeEnabled s a bs).regs = s.regs := by
  unfold storeEnabled
  split
  · exact State.store_regs ..
  · refine foldl_regs (fun t x => ?_) ..
    split
    · exact State.store_regs ..
    · rfl

@[simp] theorem addElems_regs (s : State) (a n : Nat) (bs : List Byte) (k : Nat) : (addElems s a n bs k).regs = s.regs := by
  induction k generalizing s a bs with
  | zero => rfl
  | succ k ih => exact (ih ..).trans (State.store_regs ..)

@[simp] theorem l1DropAt_regs (s : State) (core : Option Nat) (a n : Nat) : (l1DropAt s core a n).regs = s.regs := by
  unfold l1DropAt
  split
  · rfl
  · apply State.modCore_regs
    exact fun _ => rfl

@[simp] theorem l1DropRange_regs (s : State) (a n : Nat) : (l1DropRange s a n).regs = s.regs := rfl

@[simp] theorem l1Merge_regs (s : State) (a : Nat) (bs : List (Option Byte)) (add : Nat) :
    (l1Merge s a bs add).regs = s.regs := by
  unfold l1Merge
  split
  · rfl
  · rfl

@[simp] theorem sendWrite_regs (s : State) (p : Place) (a : Nat) (bs : List (Option Byte)) (add : Nat) (off : Word) :
    (sendWrite s p a bs add off).regs = s.regs := rfl

@[simp] theorem bumpVersion_regs (s : State) (scope : Nat) : (bumpVersion s scope).regs = s.regs := by
  unfold bumpVersion
  split
  · rfl
  · rfl

@[simp] theorem acquire_regs (scope : Nat) (s : State) : (acquire scope s).regs = s.regs := bumpVersion_regs ..

@[simp] theorem countSent_regs (s : State) (parts : Nat) (t : State) : (countSent s parts t).regs = t.regs := by
  unfold countSent
  split
  · rfl
  · rfl

/-! ### Homes -/

theorem homeWrite_regs {s t : State} {cube : Nat} {who : Option Nat} {a : Nat} {bs : List (Option Byte)} {add : Nat}
    (h : homeWrite s cube who a bs add = .done t) : t.regs = s.regs := by
  simp only [homeWrite] at h
  repeat' split at h
  all_goals cases h
  · exact storeEnabled_regs ..
  · exact addElems_regs ..

theorem performNew_regs {s t : State} {f : Flight} (h : performNew s f = some t) : t.regs = s.regs := by
  unfold performNew at h
  split at h
  · split at h
    all_goals cases h
    · next done => exact (homeWrite_regs done :)
    · exact l1DropAt_regs ..
    · exact l1DropAt_regs ..
  · dsimp only at h
    split at h
    all_goals cases h
    · next done => exact (homeWrite_regs done :)
    · rfl
    · rfl
  · cases h
    rfl

theorem performStore_regs {s t : State} {f : Flight} (h : performStore s f = some t) : t.regs = s.regs := by
  unfold performStore at h
  split at h
  · cases h
    rfl
  · exact performNew_regs h

theorem performAll_regs {s t : State} {l : List Flight} (h : performAll s l = some t) : t.regs = s.regs := by
  induction l generalizing s with
  | nil =>
    cases h
    rfl
  | cons f l ih =>
    unfold performAll at h
    split at h
    · next one => exact (ih h).trans (performStore_regs one)
    · exact nomatch h

/-! ### Accesses that perform what was sent before -/

/-- The registers stand, and where no request was in flight none is and memory stands. -/
structure Served (s t : State) : Prop where
  regs : t.regs = s.regs
  calm : s.flights = [] → t.flights = [] ∧ t.mem = s.mem

theorem Served.refl (s : State) : Served s s := ⟨rfl, fun h => ⟨h, rfl⟩⟩

theorem Served.trans {s t u : State} (h : Served s t) (k : Served t u) : Served s u where
  regs := k.regs.trans h.regs
  calm none := ⟨(k.calm (h.calm none).1).1, (k.calm (h.calm none).1).2.trans (h.calm none).2⟩

theorem drainPair_serves (s : State) (home : Nat) : EndsIn (· = s) (Served s) (drainPair s home) := by
  simp only [drainPair]
  split
  · rfl
  · split
    · next done =>
      refine ⟨performAll_regs done, fun none => ?_⟩
      rw [none] at done
      cases done
      exact ⟨none, rfl⟩
    · rfl

section Checks

variable (s : State)

theorem settlePiece_reads (k : AccessKind) (seg : BitVec 16) (p : Piece) : Reads s (settlePiece s k seg p) := by
  unfold settlePiece
  split
  · exact ok_reads ..
  · exact stall_reads s
  · exact trapAccess_reads ..

theorem needRoom_reads (homes : List Nat) : Reads s (needRoom s homes) := .ite (ok_reads ..) (stall_reads s)

theorem release_reads : Reads s (release s) := .ite (ok_reads ..) (stall_reads s)

theorem needAligned_reads (seg : BitVec 16) (o : Word) (al : Nat) (k : AccessKind) : Reads s (needAligned s seg o al k) :=
  .ite (ok_reads ..) (trapAccess_reads ..)

theorem refuse_reads {α : Type} (seg : BitVec 16) (k : AccessKind) (e : Refused) : Reads s (refuse s seg k e : Except Stop α) := by
  unfold refuse
  split
  · exact stall_reads s
  · exact rfl

theorem place_reads (seg : BitVec 16) (o : Word) (n : Nat) (k : AccessKind) (allow : Region → Bool) :
    Reads s (place s seg o n k allow) := by
  unfold place
  split
  · exact .ite (stall_reads s) (ok_reads ..)
  · exact refuse_reads ..

theorem placeList_reads (seg : BitVec 16) (k : AccessKind) (allow : Region → Bool) (l : List (Word × Nat)) :
    Reads s (placeList s seg k allow l) := by
  unfold placeList
  split
  · exact .ite (stall_reads s) (ok_reads ..)
  · exact refuse_reads ..

end Checks

end Sys2Proof.Machine

namespace Sys2Proof.Safety

open Sys2Proof Sys2Proof.Machine

/-! ### Registers after a push -/

/-- The registers after a scalar result: its register, the queue and a dirty bit. -/
def ScalarPushed (d : BitVec 6) (a b : Regs) : Prop :=
  ∃ x y, b = { a with g := a.g.setIfInBounds d.toNat x, gq := (x :: a.gq).take 16, grpdirty := y }

/-- The registers after a vector result. -/
def VectorPushed (d : BitVec 6) (a b : Regs) : Prop :=
  ∃ x y, b = { a with v := a.v.setIfInBounds d.toNat x, vq := (x :: a.vq).take 16, grpdirty := y }

/-- The registers after a mask result. -/
def MaskPushed (d : BitVec 6) (a b : Regs) : Prop :=
  ∃ x y, b = { a with m := a.m.setIfInBounds d.toNat x, gq := (x :: a.gq).take 16, grpdirty := y }

/-- What a scalar result leaves of the registers. -/
def ScalarOnly (d : BitVec 6) (a b : Regs) : Prop :=
  SameRegs a b (some d.toNat) none none ∧ b.vq = a.vq ∧ b.gq.drop 1 = a.gq.take 15

/-- What a vector result leaves of the registers. -/
def VectorOnly (d : BitVec 6) (a b : Regs) : Prop :=
  SameRegs a b none (some d.toNat) none ∧ b.gq = a.gq ∧ b.vq.drop 1 = a.vq.take 15

/-- What a mask result leaves of the registers. -/
def MaskOnly (d : BitVec 6) (a b : Regs) : Prop :=
  SameRegs a b none none (some d.toNat) ∧ b.vq = a.vq ∧ b.gq.drop 1 = a.gq.take 15

section Pushed

variable {a b c : Regs} {d : BitVec 6}

theorem ScalarPushed.settles (h : ScalarPushed d a b) (k : PastRegs b c) : SameSpecial a c ∧ ScalarOnly d a c := by
  obtain ⟨x, y, rfl⟩ := h
  refine ⟨(sameSpecial_results ..).onward k, SameRegs.onward ?_ k, k.vq, by rw [k.gq]; rfl⟩
  exact ⟨fun _ hk => getElem?_setIfInBounds_of_some_ne a.g x hk, fun _ _ => rfl, fun _ _ => rfl, rfl⟩

theorem VectorPushed.settles (h : VectorPushed d a b) (k : PastRegs b c) : SameSpecial a c ∧ VectorOnly d a c := by
  obtain ⟨x, y, rfl⟩ := h
  refine ⟨(sameSpecial_results ..).onward k, SameRegs.onward ?_ k, k.gq, by rw [k.vq]; rfl⟩
  exact ⟨fun _ _ => rfl, fun _ hk => getElem?_setIfInBounds_of_some_ne a.v x hk, fun _ _ => rfl, rfl⟩

theorem MaskPushed.settles (h : MaskPushed d a b) (k : PastRegs b c) : SameSpecial a c ∧ MaskOnly d a c := by
  obtain ⟨x, y, rfl⟩ := h
  refine ⟨(sameSpecial_results ..).onward k, SameRegs.onward ?_ k, k.vq, by rw [k.gq]; rfl⟩
  exact ⟨fun _ _ => rfl, fun _ _ => rfl, fun _ hk => getElem?_setIfInBounds_of_some_ne a.m x hk, rfl⟩

theorem writeScalar_pushes {s : State} (lat : Nat) (x : Word) (h : s.regs = a) : ScalarPushed d a (writeScalar lat d x s).regs := by
  obtain ⟨y, e⟩ := writeScalar_regs lat d x s
  exact ⟨x, y, h ▸ e⟩

theorem writeVector_pushes {s : State} (lat : Nat) (x : Vec) (h : s.regs = a) : VectorPushed d a (writeVector lat d x s).regs := by
  obtain ⟨y, e⟩ := writeVector_regs lat d x s
  exact ⟨x, y, h ▸ e⟩

theorem writeMask_pushes {s : State} (lat : Nat) (x : Word) (h : s.regs = a) : MaskPushed d a (writeMask lat d x s).regs := by
  obtain ⟨y, e⟩ := writeMask_regs lat d x s
  exact ⟨x, y, h ▸ e⟩

end Pushed

end Sys2Proof.Safety
end

