-- ==== Sys2Proof/Proofs/RegisterFrame.lean ====
section
/-! SUPPORT and the proof of O40: the frame of the register instructions (R52, R55, R61, R162). -/

namespace Sys2Proof.Machine

open Sys2Proof

/-! ### The bodies of the register instructions -/

/-- A meaning that reads, and ends in one scalar result. -/
def YieldsScalar (d : BitVec 6) (s : State) : Except Stop State → Prop :=
  EndsIn (· = s) fun t => ∃ lat x, t = writeScalar lat d x s

/-- A meaning that reads, and ends in one vector result. -/
def YieldsVector (d : BitVec 6) (s : State) : Except Stop State → Prop :=
  EndsIn (· = s) fun t => ∃ lat x, t = writeVector lat d x s

/-- A meaning that reads, and ends in one mask result. -/
def YieldsMask (d : BitVec 6) (s : State) : Except Stop State → Prop :=
  EndsIn (· = s) fun t => ∃ lat x, t = writeMask lat d x s

section Bodies

variable (f : FmtA) (s : State)

theorem scalarTwo_yields (lat : Nat) (ext : Bool) (op : Word → Word → Word) :
    YieldsScalar f.d s (scalarTwo lat ext op f s) :=
  (needDst_reads ..).bind rfl fun _ => (readScalar_reads ..).bind rfl fun _ =>
    (readB_reads ..).bind rfl fun _ => ⟨_, _, rfl⟩

theorem selBody_yields : YieldsScalar f.d s (selBody f s) :=
  (readA1_reads ..).bind rfl fun _ => scalarTwo_yields ..

theorem scalarOne_yields (lat : Nat) (op : Word → Word) : YieldsScalar f.d s (scalarOne lat op f s) :=
  (needDst_reads ..).bind rfl fun _ => (needUnused_reads ..).bind rfl fun _ =>
    (readScalar_reads ..).bind rfl fun _ => ⟨_, _, rfl⟩

theorem packed_yields (lat : Nat) (op : Nat → Int → Int → Int) : YieldsScalar f.d s (packed lat op f s) :=
  scalarTwo_yields ..

theorem maskToScalar_yields (op : Word → Word) : YieldsScalar f.d s (maskToScalar op f s) :=
  (needDst_reads ..).bind rfl fun _ => (needUnused_reads ..).bind rfl fun _ =>
    (readMask_reads ..).bind rfl fun _ => ⟨_, _, rfl⟩

theorem vextBody_yields : YieldsScalar f.d s (vextBody f s) :=
  (needDst_reads ..).bind rfl fun _ => (readVector_reads ..).bind rfl fun _ =>
    (readScalar_reads ..).bind rfl fun _ => ⟨_, _, rfl⟩

theorem vectorTwo_yields (lat : Nat) (signed : Bool) (op : Vec → Vec → Vec) :
    YieldsVector f.d s (vectorTwo lat signed op f s) :=
  (needDst_reads ..).bind rfl fun _ => (readVector_reads ..).bind rfl fun _ =>
    (vectorB_reads ..).bind rfl fun _ => ⟨_, _, rfl⟩

theorem vselBody_yields : YieldsVector f.d s (vselBody f s) :=
  (readA1_reads ..).bind rfl fun _ => vectorTwo_yields ..

theorem vectorOne_yields (lat : Nat) (op : Vec → Vec) : YieldsVector f.d s (vectorOne lat op f s) :=
  (needDst_reads ..).bind rfl fun _ => (needUnused_reads ..).bind rfl fun _ =>
    (readVector_reads ..).bind rfl fun _ => ⟨_, _, rfl⟩

theorem vectorAcc_yields (lat : Nat) (op : Vec → Vec → Vec → Vec) : YieldsVector f.d s (vectorAcc lat op f s) :=
  (needDstReg_reads ..).bind rfl fun _ => (readVector_reads ..).bind rfl fun _ => (readVector_reads ..).bind rfl fun _ =>
    (readVector_reads ..).bind rfl fun _ => ⟨_, _, rfl⟩

theorem mffsBody_yields : YieldsVector f.d s (mffsBody f s) :=
  (needDst_reads ..).bind rfl fun _ => (needUnused_reads ..).bind rfl fun _ =>
    (readMask_reads ..).bind rfl fun _ => ⟨_, _, rfl⟩

theorem vshufBody_yields : YieldsVector f.d s (vshufBody f s) :=
  (needDst_reads ..).bind rfl fun _ => (readVector_reads ..).bind rfl fun _ =>
    (readScalar_reads ..).bind rfl fun _ => ⟨_, _, rfl⟩

theorem vxgetBody_yields : YieldsVector f.d s (vxgetBody f s) :=
  (needDst_reads ..).bind rfl fun _ => (needUnused_reads ..).bind rfl fun _ => (readScalar_reads ..).bind rfl fun _ =>
    (eIndex_reads ..).bind rfl fun _ => (readPlace_reads ..).bind rfl fun _ => ⟨_, _, rfl⟩

theorem vinsBody_yields : YieldsVector f.d s (vinsBody f s) :=
  (needDstReg_reads ..).bind rfl fun _ => (readScalar_reads ..).bind rfl fun _ => (readScalar_reads ..).bind rfl fun _ =>
    (readVector_reads ..).bind rfl fun _ => ⟨_, _, rfl⟩

theorem vbcastBody_yields : YieldsVector f.d s (vbcastBody f s) :=
  (needDst_reads ..).bind rfl fun _ => (needUnused_reads ..).bind rfl fun _ =>
    (readScalar_reads ..).bind rfl fun _ => ⟨_, _, rfl⟩

theorem vcvt_yields (op : Mode → Nat → (Nat → Nat) → Vec → Vec) : YieldsVector f.d s (vcvt op f s) := by
  refine (needDst_reads ..).bind rfl fun _ => (readVector_reads ..).bind rfl fun _ => (readScalar_reads ..).bind rfl fun _ => ?_
  split
  · exact rfl
  · exact ⟨_, _, rfl⟩

theorem vupk_yields (m : Nat) : YieldsVector f.d s (vupk m f s) :=
  (needDst_reads ..).bind rfl fun _ => (readVector_reads ..).bind rfl fun _ =>
    (readControl_reads ..).bind rfl fun _ => ⟨_, _, rfl⟩

theorem vectorCmp_yields (lat : Nat) (test : Word32 → Word32 → Bool) : YieldsMask f.d s (vectorCmp lat test f s) :=
  (needMaskDst_reads ..).bind rfl fun _ => (readVector_reads ..).bind rfl fun _ =>
    (readVector_reads ..).bind rfl fun _ => ⟨_, _, rfl⟩

theorem maskTwo_yields (op : Word → Word → Word) : YieldsMask f.d s (maskTwo op f s) :=
  (needMaskDst_reads ..).bind rfl fun _ => (readMask_reads ..).bind rfl fun _ =>
    (readMask_reads ..).bind rfl fun _ => ⟨_, _, rfl⟩

theorem msetBody_yields : YieldsMask f.d s (msetBody f s) :=
  (needMaskDst_reads ..).bind rfl fun _ => (needUnused_reads ..).bind rfl fun _ =>
    (readScalar_reads ..).bind rfl fun _ => ⟨_, _, rfl⟩

end Bodies

section Immediates

variable (f : FmtL) (s : State)

theorem immForm_yields (v : Word) (op : Word → Word → Word) : YieldsScalar f.d s (immForm v op f s) :=
  (readD_reads ..).bind rfl fun _ => ⟨_, _, rfl⟩

theorem liBody_yields : YieldsScalar f.d s (liBody f s) :=
  (needDst_reads ..).bind rfl fun _ => ⟨_, _, rfl⟩

theorem lipcBody_yields : YieldsScalar f.d s (lipcBody f s) :=
  (needDst_reads ..).bind rfl fun _ => ⟨_, _, rfl⟩

theorem srdBody_yields : YieldsScalar f.d s (srdBody f s) :=
  (needDst_reads ..).bind rfl fun _ => .ite rfl ⟨_, _, rfl⟩

end Immediates

/-! ### Meanings that may reach other homes -/

/-- A meaning that keeps every register where it stops, and changes them as `R` allows where it ends. -/
def Pushes (R : Regs → Regs → Prop) (s : State) : Except Stop State → Prop :=
  EndsIn (fun u => u.regs = s.regs) fun t => R s.regs t.regs

theorem counterValue_reads (s : State) {cls : Nat} (idx : Nat) (h : cls ≠ 3) :
    EndsIn (· = s) (fun x => x.2 = s) (counterValue s cls idx) := by
  unfold counterValue
  dsimp only
  split
  case h_4 => exact absurd rfl h
  case h_5 => exact (counterGroup_reads ..).bind rfl fun _ => rfl
  case h_10 => exact rfl
  all_goals exact .ite rfl rfl

theorem netBarrier_keeps (s : State) (g : Group) :
    EndsIn (fun u => u.regs = s.regs) (fun x => x.2.regs = s.regs) (netBarrier s g) := by
  refine .ite rfl (.ite ((needRoom_reads ..).bind rfl fun _ => rfl) ?_)
  exact ((drainPair_serves ..).mono (fun _ e => e ▸ rfl) fun _ h => h.regs).bind fun _ h => h

theorem barrierValue_keeps (s : State) (idx : Nat) :
    EndsIn (fun u => u.regs = s.regs) (fun x => x.2.regs = s.regs) (barrierValue s idx) := by
  unfold barrierValue
  split
  · exact rfl
  · unfold netAnswer
    dsimp only
    split
    · exact rfl
    · exact rfl
  · exact (counterGroup_reads ..).bind rfl fun _ => .ite (netBarrier_keeps ..) rfl

theorem counterValue_keeps (s : State) (cls idx : Nat) :
    EndsIn (fun u => u.regs = s.regs) (fun x => x.2.regs = s.regs) (counterValue s cls idx) := by
  by_cases h : cls = 3
  · subst h
    exact barrierValue_keeps ..
  · exact (counterValue_reads s idx h).mono (fun _ e => e ▸ rfl) fun _ e => e ▸ rfl

theorem appendWrite_keeps {s : State} (seg : BitVec 16) {t : State} (h : t.regs = s.regs)
    (l : List (Place × Nat × List (Option Byte) × Word)) :
    EndsIn (fun u => u.regs = s.regs) (fun u => u.regs = s.regs) (appendWrite s seg t l) := by
  induction l generalizing t with
  | nil => exact h
  | cons w l ih =>
    unfold appendWrite
    split
    · next done => exact ih ((homeWrite_regs done).trans h)
    · exact rfl
    · exact rfl
    · exact rfl

theorem appendOutliers_keeps (o : Word) (ents : List (Nat × Nat)) (s : State) :
    EndsIn (fun u => u.regs = s.regs) (fun u => u.regs = s.regs) (appendOutliers o ents s) := by
  refine .ite rfl ((place_reads ..).bind rfl fun ps => ?_)
  split
  · exact rfl
  · refine (settlePiece_reads ..).bind rfl fun p => ?_
    refine ((drainPair_serves ..).mono (fun _ e => e ▸ rfl) fun _ h => h.regs).bind fun t ht => ?_
    refine .ite ht (.ite ht (.ite ht ?_))
    split
    · exact ht
    · next pieces _ =>
      refine .ite ht (((appendWrite_keeps _ rfl _).mono (fun _ e => e.trans ht) fun _ e => e.trans ht).bind fun u hu => ?_)
      exact (foldl_regs (f := fun u q => l1DropRange u q.place.addr q.len) (fun _ _ => l1DropRange_regs ..) pieces u).trans hu

end Sys2Proof.Machine

namespace Sys2Proof.Safety

open Sys2Proof Sys2Proof.Machine

section Bodies

variable (f : FmtA) (s : State)

theorem cntrdBody_pushes : Pushes (ScalarPushed f.d) s (cntrdBody f s) := by
  refine (needDst_reads ..).bind rfl fun _ => (needUnused_reads ..).bind rfl fun _ => (readScalar_reads ..).bind rfl fun _ =>
    (selector_reads ..).bind rfl fun ⟨cls, idx⟩ => ?_
  exact (counterValue_keeps s cls idx).bind fun x hx => writeScalar_pushes _ _ hx

theorem cntrdBody_yields {x : Word} (hx : readScalar s 0 f.a = .ok x) (local_ : x.toNat / 2 ^ 16 % 16 ≠ 3) :
    YieldsScalar f.d s (cntrdBody f s) := by
  have cls : field x 16 4 ≠ 3 := by
    rwa [field, BitVec.extractLsb'_toNat, Nat.shiftRight_eq_div_pow]
  refine (needDst_reads ..).bind rfl fun _ => (needUnused_reads ..).bind rfl fun _ => ?_
  rw [hx, ok_bind]
  unfold selector
  split
  · exact rfl
  · refine (counterValue_reads s (field x 0 13) cls).bind fun y hy => ?_
    exact ⟨0, y.1, congrArg _ hy⟩

theorem vpk_pushes (m : Nat) : Pushes (VectorPushed f.d) s (vpk m f s) := by
  refine (needDst_reads ..).bind rfl fun _ => (readVector_reads ..).bind rfl fun _ => (readControl_reads ..).bind rfl fun c => ?_
  dsimp only
  split
  · exact writeVector_pushes _ _ rfl
  · exact .ite (writeVector_pushes _ _ rfl) ((appendOutliers_keeps ..).bind fun t ht => writeVector_pushes _ _ ht)

/-- VPK without a supplied scale appends nothing (R180). -/
theorem vpk_yields (m : Nat) {c : SxControl} (hc : readControl f true s = .ok c) (unscaled : c.sigma = none) :
    YieldsVector f.d s (vpk m f s) := by
  refine (needDst_reads ..).bind rfl fun _ => (readVector_reads ..).bind rfl fun _ => ?_
  rw [hc, ok_bind, unscaled]
  exact ⟨_, _, rfl⟩

end Bodies

/-! ### The frames -/

/-- An instruction that ends in `t` has changed nothing, or has trapped, or has changed the registers as `R` allows. -/
def Frames (s : State) (R : Regs → Regs → Prop) (t : State) : Prop :=
  t = s ∨ (∃ r, t = takeTrap r s) ∨ (SameOutside s t ∧ SameSpecial s.regs t.regs ∧ R s.regs t.regs)

/-- The same of the registers alone. -/
def FramesRegs (s : State) (R : Regs → Regs → Prop) (t : State) : Prop :=
  (∃ r u, t = takeTrap r u ∧ u.regs = s.regs) ∨ t.regs = s.regs ∨ (SameSpecial s.regs t.regs ∧ R s.regs t.regs)

section Results

variable {s t : State} {d : BitVec 6} {words stall : Nat} {body : State → Except Stop State}

theorem issue_frames {R : Regs → Regs → Prop} {Q : State → Prop} (h : EndsIn (· = s) Q (body s))
    (settle : ∀ u, Q u → ∀ t, Onward u t → SameOutside s t ∧ SameSpecial s.regs t.regs ∧ R s.regs t.regs)
    (run : issue words stall body s = .next t) : Frames s R t := by
  unfold issue at run
  match body s, h, run with
  | .ok u, h, run =>
    cases run
    exact .inr (.inr (settle u h _ (onward_completes ..)))
  | .error (.trap r _), rfl, run =>
    cases run
    exact .inr (.inl ⟨r, rfl⟩)
  | .error (.wait _), rfl, run =>
    cases run
    exact .inl rfl

theorem issue_scalar (h : YieldsScalar d s (body s)) (run : issue words stall body s = .next t) :
    Frames s (ScalarOnly d) t := by
  refine issue_frames h ?_ run
  rintro _ ⟨lat, x, rfl⟩ _ onward
  exact ⟨(writeScalar_outside ..).trans onward.outside, (writeScalar_pushes lat x rfl).settles onward.regs⟩

theorem issue_vector (h : YieldsVector d s (body s)) (run : issue words stall body s = .next t) :
    Frames s (VectorOnly d) t := by
  refine issue_frames h ?_ run
  rintro _ ⟨lat, x, rfl⟩ _ onward
  exact ⟨(writeVector_outside ..).trans onward.outside, (writeVector_pushes lat x rfl).settles onward.regs⟩

theorem issue_mask (h : YieldsMask d s (body s)) (run : issue words stall body s = .next t) :
    Frames s (MaskOnly d) t := by
  refine issue_frames h ?_ run
  rintro _ ⟨lat, x, rfl⟩ _ onward
  exact ⟨(writeMask_outside ..).trans onward.outside, (writeMask_pushes lat x rfl).settles onward.regs⟩

theorem issue_framesRegs {P R : Regs → Regs → Prop} (h : Pushes P s (body s))
    (settle : ∀ b c, P s.regs b → PastRegs b c → SameSpecial s.regs c ∧ R s.regs c)
    (run : issue words stall body s = .next t) : FramesRegs s R t := by
  unfold issue at run
  match body s, h, run with
  | .ok u, h, run =>
    cases run
    exact .inr (.inr (settle _ _ h (onward_completes ..).regs))
  | .error (.trap r u), h, run =>
    cases run
    exact .inl ⟨r, u, rfl, h⟩
  | .error (.wait u), h, run =>
    cases run
    exact .inr (.inl h)

end Results

/-- Settles O40: a register instruction reads, and where it does not stop it ends in one result (the lemmas `…_yields`); the
step to the next instruction moves the pc and the repeat state (`onward_completes`). -/
theorem registerFrame : Obligations.RegisterFrame := by
  unfold Obligations.RegisterFrame
  refine ⟨fun f s t => ?_, fun f s t => ?_⟩
  · have form {v op} := issue_scalar (t := t) (words := wordsP f.p) (stall := f.s.toNat) (immForm_yields f s v op)
    simp only [List.forall_mem_cons, List.not_mem_nil, IsEmpty.forall_iff, implies_true, and_true]
    exact ⟨issue_scalar (liBody_yields f s), issue_scalar (lipcBody_yields f s), form, form, form, form, form, form, form, form,
      form, form, issue_scalar (srdBody_yields f s)⟩
  · intro d ends keeps scalar vector
    simp only [List.forall_mem_cons, List.not_mem_nil, IsEmpty.forall_iff, implies_true, and_true]
    refine ⟨?scalars, ?counter, ?localCounter, ?vectors, ?packs, ?masks⟩
    case scalars =>
      have two {lat ext op} := issue_scalar (t := t) (words := wordsA f) (stall := f.s.toNat) (scalarTwo_yields f s lat ext op)
      have one {lat op} := issue_scalar (t := t) (words := wordsA f) (stall := f.s.toNat) (scalarOne_yields f s lat op)
      have pack {lat op} := issue_scalar (t := t) (words := wordsA f) (stall := f.s.toNat) (packed_yields f s lat op)
      have ofMask {op} := issue_scalar (t := t) (words := wordsA f) (stall := f.s.toNat) (maskToScalar_yields f s op)
      exact ⟨two, two, two, two, two, two, two, two, two, two, two, two, two, two, two, two, two, two, two, two, two, two, two,
         two, two, two, two, issue_scalar (selBody_yields f s), one, one, one, pack, pack, pack, pack, pack, pack, pack,
         pack, ofMask, ofMask, issue_scalar (vextBody_yields f s)⟩
    case counter => exact issue_framesRegs (cntrdBody_pushes f s) fun _ _ => ScalarPushed.settles
    case localCounter => exact fun x hx hc => issue_scalar (cntrdBody_yields f s hx hc)
    case vectors =>
      have two {lat signed op} := issue_vector (t := t) (words := wordsA f) (stall := f.s.toNat) (vectorTwo_yields f s lat signed op)
      have one {lat op} := issue_vector (t := t) (words := wordsA f) (stall := f.s.toNat) (vectorOne_yields f s lat op)
      have acc {lat op} := issue_vector (t := t) (words := wordsA f) (stall := f.s.toNat) (vectorAcc_yields f s lat op)
      have convert {op} := issue_vector (t := t) (words := wordsA f) (stall := f.s.toNat) (vcvt_yields f s op)
      have unpack {m} := issue_vector (t := t) (words := wordsA f) (stall := f.s.toNat) (vupk_yields f s m)
      exact ⟨two, two, two, two, two, two, two, two, two, two, two, two, two, two, two, issue_vector (vselBody_yields f s), two,
         two, two, two, two, two, acc, acc, two, two, two, two, two, two, acc, acc, two, issue_vector (vshufBody_yields f s),
         one, one, one, one, one, one, one, one, issue_vector (vxgetBody_yields f s), issue_vector (vinsBody_yields f s),
         issue_vector (vbcastBody_yields f s), issue_vector (mffsBody_yields f s), one, one, one, one, convert, convert,
         convert, convert, convert, convert, convert, convert, unpack, unpack, unpack⟩
    case packs =>
      have appends {m} := issue_framesRegs (t := t) (words := wordsA f) (stall := f.s.toNat) (vpk_pushes f s m)
        fun _ _ => VectorPushed.settles
      have unscaled {m} (c) (hc : readControl f true s = .ok c) (h : c.sigma = none) :=
        issue_vector (t := t) (words := wordsA f) (stall := f.s.toNat) (vpk_yields f s m hc h)
      exact ⟨⟨appends, unscaled⟩, ⟨appends, unscaled⟩, ⟨appends, unscaled⟩⟩
    case masks =>
      have compare {lat test} := issue_mask (t := t) (words := wordsA f) (stall := f.s.toNat) (vectorCmp_yields f s lat test)
      have two {op} := issue_mask (t := t) (words := wordsA f) (stall := f.s.toNat) (maskTwo_yields f s op)
      exact ⟨compare, compare, compare, compare, compare, compare, compare, compare, two, two, two, two,
         issue_mask (msetBody_yields f s)⟩

end Sys2Proof.Safety
end

