-- ==== Sys2Proof/Proofs/MemoryInstructionFrame.lean ====
section
/-! SUPPORT and the proof of O41: the frame of the memory instructions (R293, R295, R297, R300). -/

namespace Sys2Proof.Machine

open Sys2Proof Sys2Proof.Safety

/-! ### Loads that are answered at once -/

section Loads

variable {s t u : State}

theorem Served.of_eq (regs : t.regs = s.regs) (flights : t.flights = s.flights) (mem : t.mem = s.mem) : Served s t where
  regs := regs
  calm none := ⟨flights.trans none, mem⟩

theorem Reads.served {α : Type} {x : Except Stop α} (h : Reads t x) (ht : Served s t) : EndsIn (Served s) Anything x :=
  EndsIn.mono h (fun _ e => e ▸ ht) fun _ h => h

theorem EndsIn.served {α : Type} {f : α → State} {x : Except Stop α} (h : EndsIn (Served t) (fun a => Served t (f a)) x)
    (ht : Served s t) : EndsIn (Served s) (fun a => Served s (f a)) x :=
  h.mono (fun _ => ht.trans) fun _ => ht.trans

theorem readHome_serves (cached : Bool) (p : Piece) (s : State) :
    Served s (
      let s := l1DropRange s p.place.addr p.len
      let s := if cached && cacheable s p.place then { s with core := s.core.count 5 1 } else s
      if cached && s.useL1 && cacheable s p.place && p.place.addr % 64 + p.len ≤ 64 then l1Fill s p.place.addr else s) := by
  dsimp only
  split
  · split
    · exact .of_eq rfl rfl rfl
    · exact .of_eq rfl rfl rfl
  · split
    · exact .of_eq rfl rfl rfl
    · exact .of_eq rfl rfl rfl

theorem loadParts_serves (k : AccessKind) (seg : BitVec 16) (cached : Bool) (ps : List Piece) (s : State) :
    EndsIn (Served s) (fun x => Served s x.2) (loadParts s k seg cached ps) := by
  induction ps generalizing s with
  | nil => exact .refl s
  | cons p ps ih =>
    unfold loadParts
    refine (settlePiece_reads ..).bind (.refl s) fun p => ?_
    dsimp only
    split
    · exact EndsIn.bind (EndsIn.served (f := Prod.snd) (ih { s with core := s.core.count 4 1 }) (.of_eq rfl rfl rfl)) fun _ h => h
    · refine ((drainPair_serves ..).mono (fun _ e => e ▸ .refl s) fun _ h => h).bind fun t ht => ?_
      refine .ite ht ?_
      split
      · exact ht
      · exact (EndsIn.served (f := Prod.snd) (ih _) (ht.trans (readHome_serves cached p t))).bind fun ⟨_, _⟩ h => h

theorem loadPieces_serves (s : State) (k : AccessKind) (seg : BitVec 16) (cached : Bool) (ps : List Piece) :
    EndsIn (Served s) (fun x => Served s x.2) (loadPieces s k seg cached ps) :=
  loadParts_serves ..

theorem EndsIn.uncounted {α : Type} {Q : α → Prop} {x : Except Stop α} (h : EndsIn (Served s) Q x) :
    EndsIn (Served s) Q (waitUncounted s x) := by
  unfold waitUncounted
  split
  · exact ⟨h.regs, h.calm⟩
  · exact h

end Loads

/-! ### Requests -/

theorem sendWrites_keeps (s : State) (ps : List Piece) (bs : List (Option Byte)) (add : Nat) (one : Bool) :
    EndsIn (· = s) (fun t => t.regs = s.regs ∧ t.mem = s.mem) (sendWrites s ps bs add one) := by
  unfold sendWrites
  dsimp only
  split
  · exact ⟨rfl, rfl⟩
  · refine .ite ⟨rfl, rfl⟩ ((needRoom_reads ..).bind rfl fun _ => ?_)
    refine EndsIn.bind (Q := fun t => t.regs = s.regs ∧ t.mem = s.mem) (.ite rfl ⟨rfl, rfl⟩) fun t ht => ?_
    exact ⟨(foldl_regs (fun _ _ => (l1Merge_regs ..).trans (sendWrite_regs ..)) ..).trans ht.1,
      (foldl_mem (fun _ _ => (l1Merge_mem ..).trans (sendWrite_mem ..)) ..).trans ht.2⟩

theorem sendLoad_pushes {s : State} {a : Regs} (h : s.regs = a) (p : Piece) (seg : BitVec 16) (n : Nat) (signed : Bool)
    (d : BitVec 6) :
    ScalarPushed d a (sendLoad s p seg n signed d).regs := by
  unfold sendLoad
  refine writeScalar_pushes 0 _ ?_
  exact h

theorem sendAmo_pushes {s : State} {a : Regs} (h : s.regs = a) (p : Piece) (seg : BitVec 16) (n : Nat) (args : AmoArgs)
    (d : BitVec 6) :
    ScalarPushed d a (sendAmo s p seg n args d).regs := by
  unfold sendAmo
  refine writeScalar_pushes 0 _ ?_
  exact h

theorem foldl_fst_regs {α β : Type} {f : State × β → α → State × β} (h : ∀ x a, (f x a).1.regs = x.1.regs) (l : List α)
    (x : State × β) : (l.foldl f x).1.regs = x.1.regs := by
  induction l generalizing x with
  | nil => rfl
  | cons a l ih => rw [List.foldl_cons, ih, h]

theorem sendLanes_pushes {s : State} {a : Regs} (h : s.regs = a) (seg : BitVec 16) (w : LanePart → Nat) (d : BitVec 6)
    (l : List LanePart) :
    VectorPushed d a (sendLanes s seg w d l).regs := by
  refine writeVector_pushes 0 _ ((foldl_fst_regs (fun _ _ => ?_) ..).trans ?_)
  · rfl
  · exact h

/-! ### What a memory instruction leaves -/

/-- The registers stand, and memory is as `K` asks. -/
def RegsStand (s : State) (K : List Host.Cell → Prop) (u : State) : Prop := u.regs = s.regs ∧ K u.mem

/-- A meaning that keeps the registers where it stops and changes them as `R` allows where it ends, memory being as `K` asks. -/
def Leaves (R : Regs → Regs → Prop) (K : List Host.Cell → Prop) (s : State) : Except Stop State → Prop :=
  EndsIn (RegsStand s K) fun t => R s.regs t.regs ∧ K t.mem

/-- Memory as it stood, if no request was in flight. -/
def CalmSame (s : State) (m : List Host.Cell) : Prop := s.flights = [] → m = s.mem

/-- The registers stand, or a scalar result has been written. -/
def ScalarOrSame (d : BitVec 6) (a b : Regs) : Prop := b = a ∨ ScalarPushed d a b

/-- The registers stand, or a vector result has been written. -/
def VectorOrSame (d : BitVec 6) (a b : Regs) : Prop := b = a ∨ VectorPushed d a b

section Rules

variable {α : Type} {s t : State} {R : Regs → Regs → Prop} {K : List Host.Cell → Prop}

theorem regsStand_refl (h : K s.mem) : RegsStand s K s := ⟨rfl, h⟩

theorem CalmSame.refl (s : State) : CalmSame s s.mem := fun _ => rfl

theorem Served.calmSame (h : Served s t) : CalmSame s t.mem := fun none => (h.calm none).2

theorem Served.regsStand (h : Served s t) : RegsStand s (CalmSame s) t := ⟨h.regs, h.calmSame⟩

end Rules

section Instructions

variable (s : State)

theorem scalarLoad_leaves (n : Nat) (signed cached : Bool) (seg : BitVec 16) (o : Word) (d : BitVec 6) :
    Leaves (ScalarOrSame d) (CalmSame s) s (scalarLoad n signed cached seg o d s) := by
  have self := regsStand_refl (CalmSame.refl s)
  unfold scalarLoad
  refine (needAligned_reads ..).bind self fun _ => (place_reads ..).bind self fun ps => ?_
  split
  · exact ⟨.inl rfl, .refl s⟩
  · refine .ite ⟨.inr (writeScalar_pushes _ _ rfl), fun _ => writeScalar_mem ..⟩ (.ite ?_ ?_)
    · split
      · exact self
      · refine (needRoom_reads ..).bind self fun _ => ?_
        refine ⟨.inr (sendLoad_pushes ?_ ..), fun _ => (sendLoad_mem ..).trans ?_⟩
        · exact (apply_ite State.regs ..).trans (ite_self _)
        · exact (apply_ite State.mem ..).trans (ite_self _)
    · refine (((loadPieces_serves ..).uncounted).mono (fun _ => Served.regsStand) fun _ h => h).bind fun x hx => ?_
      exact ⟨.inr (writeScalar_pushes _ _ ((countSent_regs ..).trans hx.regs)),
        fun none => (writeScalar_mem ..).trans ((countSent_mem ..).trans (hx.calmSame none))⟩

theorem ld_leaves (n : Nat) (signed : Bool) (f : FmtM) : Leaves (ScalarOrSame f.d) (CalmSame s) s (ld n signed f s) :=
  have self := regsStand_refl (CalmSame.refl s)
  (needDst_reads ..).bind self fun _ => (readScalar_reads ..).bind self fun _ => scalarLoad_leaves ..

theorem lda_leaves (n : Nat) (f : FmtM) : Leaves (ScalarOrSame f.d) (CalmSame s) s (lda n f s) := by
  have self := regsStand_refl (CalmSame.refl s)
  refine (needDst_reads ..).bind self fun _ => (readScalar_reads ..).bind self fun _ =>
    (scalarLoad_leaves ..).bind fun t ht => ?_
  exact ⟨(acquire_regs ..).symm ▸ ht.1, (acquire_mem ..).symm ▸ ht.2⟩

theorem vld_leaves (masked : Bool) (f : FmtM) : Leaves (VectorOrSame f.d) (CalmSame s) s (vld masked f s) := by
  have self := regsStand_refl (CalmSame.refl s)
  unfold vld
  refine (needDst_reads ..).bind self fun _ => (readScalar_reads ..).bind self fun _ => ?_
  refine .join (Q := Anything) ((readA1_reads ..).mono (fun _ e => e ▸ self) fun _ h => h) trivial fun mask _ => ?_
  dsimp only
  split
  · exact ⟨.inr (writeVector_pushes _ _ rfl), fun _ => writeVector_mem ..⟩
  · refine (needAligned_reads ..).bind self fun _ => (placeList_reads ..).bind self fun ps => .ite ?_ ?_
    · split
      · exact self
      · refine (needRoom_reads ..).bind self fun _ => ?_
        refine ⟨.inr (sendLanes_pushes ?_ ..), fun _ => (sendLanes_mem ..).trans ?_⟩
        · exact (apply_ite State.regs ..).trans (ite_self _)
        · exact (apply_ite State.mem ..).trans (ite_self _)
    · refine (((loadPieces_serves ..).uncounted).mono (fun _ => Served.regsStand) fun _ h => h).bind fun x hx => ?_
      exact ⟨.inr (writeVector_pushes _ _ ((countSent_regs ..).trans hx.regs)),
        fun none => (writeVector_mem ..).trans ((countSent_mem ..).trans (hx.calmSame none))⟩

/-- What a store leaves: every register, and memory. -/
def Stores (s : State) : Except Stop State → Prop := Leaves (fun a b => b = a) (· = s.mem) s

theorem scalarStore_stores (n : Nat) (seg : BitVec 16) (o x : Word) : Stores s (scalarStore n seg o x s) :=
  have self := regsStand_refl (K := (· = s.mem)) rfl
  (needAligned_reads ..).bind self fun _ => (place_reads ..).bind self fun _ =>
    ((sendWrites_keeps ..).mono (fun _ e => e ▸ self) fun _ h => h).bind fun _ h => h

theorem st_stores (n : Nat) (f : FmtM) : Stores s (st n f s) :=
  have self := regsStand_refl (K := (· = s.mem)) rfl
  (readScalar_reads ..).bind self fun _ => (readScalar_reads ..).bind self fun _ => scalarStore_stores ..

theorem stl_stores (n : Nat) (f : FmtM) : Stores s (stl n f s) :=
  have self := regsStand_refl (K := (· = s.mem)) rfl
  (readScalar_reads ..).bind self fun _ => (readScalar_reads ..).bind self fun _ =>
    (scalarStore_stores ..).bind fun _ ht => (release_reads s).bind self fun _ => ht

theorem vst_stores (masked : Bool) (f : FmtM) : Stores s (vst masked f s) := by
  have self := regsStand_refl (K := (· = s.mem)) rfl
  unfold vst
  refine (readVector_reads ..).bind self fun _ => (readScalar_reads ..).bind self fun _ => ?_
  refine .join (Q := Anything) ((readA1_reads ..).mono (fun _ e => e ▸ self) fun _ h => h) trivial fun mask _ => ?_
  dsimp only
  split
  · exact ⟨rfl, rfl⟩
  · exact (needAligned_reads ..).bind self fun _ => (placeList_reads ..).bind self fun ps =>
      ((sendWrites_keeps ..).mono (fun _ e => e ▸ self) fun _ h => h).bind fun _ h => h

/-! ### Atomics -/

theorem homeWrite_mem_of_whole {t : State} {cube a : Nat} {who : Option Nat} {bs : List Byte}
    (h : homeWrite s cube who a (bs.map some) 0 = .done t) : t.mem = memSetList s.mem a bs := by
  simp only [homeWrite] at h
  split at h
  · exact nomatch h
  · split at h
    · exact nomatch h
    · split at h
      · exact nomatch h
      · cases h
        have whole : (bs.map some).all Option.isSome = true := by simp
        rw [storeEnabled, if_pos whole, State.store_mem, List.map_map]
        exact congrArg _ (List.map_id' bs)

/-- What an atomic of `n` bytes at a placed piece does to memory, if no request was in flight: its bytes at the piece's place,
as the home's map resolves it, are written. -/
def AtomicWrites (n : Nat) (seg : BitVec 16) (p : Piece) (m : List Host.Cell) : Prop :=
  ∃ q bs, settlePiece s .atomic seg p = .ok q ∧ bs.length = n ∧ m = memSetList s.mem q.place.addr bs

theorem atomicAt_ends_in (op : AtomicOp) (n v c : Nat) (seg : BitVec 16) (p : Piece) :
    EndsIn (RegsStand s (CalmSame s))
      (fun x => x.2.regs = s.regs ∧ (s.flights = [] → AtomicWrites s n seg p x.2.mem)) (atomicAt op n v c seg p s) := by
  refine Reads.bind_eq (settlePiece_reads ..) (regsStand_refl (CalmSame.refl s)) fun q hq => ?_
  refine ((drainPair_serves ..).mono (fun _ e => e.symm ▸ regsStand_refl (CalmSame.refl s)) fun _ h => h).bind fun t ht => ?_
  have dropped : Served s (l1Drop t q.place.addr) := ht.trans (.of_eq rfl rfl rfl)
  dsimp only
  split
  · next done =>
    refine ⟨(homeWrite_regs done).trans dropped.regs, fun calm =>
      ⟨q, _, hq, ?_, dropped.calmSame calm ▸ homeWrite_mem_of_whole _ done⟩⟩
    exact bytesOfNat_length ..
  · exact dropped.regsStand
  · exact dropped.regsStand
  · exact dropped.regsStand

/-- What an AMO leaves of memory: where no request was in flight, only the bytes at its address differ, as its home's map
resolves it. -/
def AmoMem (n : Nat) (f : FmtM) (m : List Host.Cell) : Prop :=
  s.flights = [] → ∀ b q qs, readScalar s 0 f.base = .ok b →
    place s (segOf s f.sg.toNat) (b + offAmo f * BitVec.ofNat 64 n) n .atomic atomicRegion = .ok (q :: qs) →
    match settlePiece s .atomic (segOf s f.sg.toNat) q with
      | .ok q' => ∀ x, ¬(q'.place.addr ≤ x ∧ x < q'.place.addr + n) → memGet m x = memGet s.mem x
      | .error _ => ∀ a, memGet m a = memGet s.mem a

variable {s}

theorem amoMem_of_same {n : Nat} {f : FmtM} {m : List Host.Cell} (h : CalmSame s m) : AmoMem s n f m := by
  intro calm b q qs _ _
  rw [h calm]
  split
  · exact fun _ _ => rfl
  · exact fun _ => rfl

theorem amoMem_of_writes {n : Nat} {f : FmtM} {m : List Host.Cell} (wf : Memory.wf s.mem = true) {b : Word} {p : Piece}
    {ps : List Piece} (hb : readScalar s 0 f.base = .ok b)
    (hp : place s (segOf s f.sg.toNat) (b + offAmo f * BitVec.ofNat 64 n) n .atomic atomicRegion = .ok (p :: ps))
    (h : s.flights = [] → AtomicWrites s n (segOf s f.sg.toNat) p m) : AmoMem s n f m := by
  intro calm b' q qs hb' hq
  obtain rfl : b = b' := Except.ok.inj (hb.symm.trans hb')
  obtain ⟨rfl, -⟩ := List.cons.inj (Except.ok.inj (hp.symm.trans hq))
  obtain ⟨q', bs, settled, len, rfl⟩ := h calm
  rw [settled]
  intro x far
  rw [memGet_memSetList wf, len, if_neg far]

theorem RegsStand.amo {n : Nat} {f : FmtM} {u : State} (h : RegsStand s (CalmSame s) u) : RegsStand s (AmoMem s n f) u :=
  ⟨h.1, amoMem_of_same h.2⟩

variable (s)

theorem amo_leaves (wf : Memory.wf s.mem = true) (op : AtomicOp) (n : Nat) (f : FmtM) :
    Leaves (ScalarOrSame f.d) (AmoMem s n f) s (amo op n f s) := by
  have same : AmoMem s n f s.mem := amoMem_of_same (.refl s)
  have self := regsStand_refl same
  unfold amo
  refine (needDst_reads ..).bind self fun _ => (readScalar_reads ..).bind self fun v =>
    Reads.bind_eq (readScalar_reads ..) self fun b hb => ?_
  refine .join (Q := Anything) ((readA1_reads ..).mono (fun _ e => e ▸ self) fun _ h => h) trivial fun c _ => ?_
  refine (needAligned_reads ..).bind self fun _ => Reads.bind_eq (place_reads ..) self fun ps hp => ?_
  refine .join (Q := Anything) ((release_reads s).mono (fun _ e => e ▸ self) fun _ h => h) trivial fun _ _ => ?_
  refine EndsIn.bind (Q := fun t => t.regs = s.regs ∧ t.mem = s.mem) (.ite self ⟨rfl, rfl⟩) fun counted hc => ?_
  split
  · exact ⟨.inl rfl, same⟩
  · refine .ite (.ite self ?_) ?_
    · split
      · exact self
      · refine (needRoom_reads ..).bind self fun _ => ?_
        exact ⟨.inr (sendAmo_pushes hc.1 ..), amoMem_of_same fun _ => (sendAmo_mem _ _ (segOf s f.sg.toNat) ..).trans hc.2⟩
    · refine ((atomicAt_ends_in ..).mono (fun _ => RegsStand.amo) fun _ h => h).bind fun ⟨old, t⟩ ⟨regs, mem⟩ => ?_
      have written := amoMem_of_writes wf hb hp mem
      have pushed := writeScalar_pushes (d := f.d) 0 (BitVec.ofNat 64 old) (s := { t with core := t.core.count 8 1 }) regs
      show ScalarOrSame _ _ (State.regs (ite _ _ _)) ∧ AmoMem _ _ _ (State.mem (ite _ _ _))
      split
      · rw [acquire_regs, acquire_mem, writeScalar_mem]
        exact ⟨.inr pushed, written⟩
      · rw [writeScalar_mem]
        exact ⟨.inr pushed, written⟩

end Instructions

end Sys2Proof.Machine

namespace Sys2Proof.Safety

open Sys2Proof Sys2Proof.Machine

/-! ### The frames -/

section Frames

variable {a b c : Regs} {d : BitVec 6}

/-- What a load or an AMO of a scalar leaves of the registers. -/
def ScalarLoaded (d : BitVec 6) (a b : Regs) : Prop :=
  SameRegs a b (some d.toNat) none none ∧ b.vq = a.vq ∧ (b.gq = a.gq ∨ b.gq.drop 1 = a.gq.take 15)

/-- What a load of a vector leaves of the registers. -/
def VectorLoaded (d : BitVec 6) (a b : Regs) : Prop :=
  SameRegs a b none (some d.toNat) none ∧ b.gq = a.gq ∧ (b.vq = a.vq ∨ b.vq.drop 1 = a.vq.take 15)

/-- What a store leaves of the registers. -/
def StoreOnly (a b : Regs) : Prop := SameRegs a b none none none ∧ b.gq = a.gq ∧ b.vq = a.vq

theorem PastRegs.stands (k : PastRegs a c) : SameSpecial a c ∧ (∀ dg dv dm, SameRegs a c dg dv dm) ∧ c.gq = a.gq ∧ c.vq = a.vq :=
  ⟨(SameSpecial.refl a).onward k, fun _ _ _ => (SameRegs.refl ..).onward k, k.gq, k.vq⟩

theorem ScalarOrSame.settles (h : ScalarOrSame d a b) (k : PastRegs b c) : SameSpecial a c ∧ ScalarLoaded d a c := by
  rcases h with rfl | pushed
  · obtain ⟨special, regs, gq, vq⟩ := k.stands
    exact ⟨special, regs .., vq, .inl gq⟩
  · obtain ⟨special, regs, vq, gq⟩ := pushed.settles k
    exact ⟨special, regs, vq, .inr gq⟩

theorem VectorOrSame.settles (h : VectorOrSame d a b) (k : PastRegs b c) : SameSpecial a c ∧ VectorLoaded d a c := by
  rcases h with rfl | pushed
  · obtain ⟨special, regs, gq, vq⟩ := k.stands
    exact ⟨special, regs .., gq, .inl vq⟩
  · obtain ⟨special, regs, gq, vq⟩ := pushed.settles k
    exact ⟨special, regs, gq, .inr vq⟩

theorem storeOnly_settles (h : b = a) (k : PastRegs b c) : SameSpecial a c ∧ StoreOnly a c := by
  subst h
  obtain ⟨special, regs, gq, vq⟩ := k.stands
  exact ⟨special, regs .., gq, vq⟩

variable {s t : State} {words stall : Nat} {body : State → Except Stop State}

theorem issue_leaves {R P : Regs → Regs → Prop} {K : List Host.Cell → Prop} (same : ∀ a, R a a)
    (settle : ∀ a b c, R a b → PastRegs b c → SameSpecial a c ∧ P a c) (h : Leaves R K s (body s))
    (run : issue words stall body s = .next t) :
    ((∃ r u, t = takeTrap r u ∧ u.regs = s.regs) ∨ (SameSpecial s.regs t.regs ∧ P s.regs t.regs)) ∧ K t.mem := by
  unfold issue at run
  match body s, h, run with
  | .ok u, ⟨regs, mem⟩, run =>
    cases run
    refine ⟨.inr (settle _ _ _ regs (onward_completes ..).regs), ?_⟩
    rwa [State.retire_mem, State.advance_mem]
  | .error (.trap r u), ⟨regs, mem⟩, run =>
    cases run
    exact ⟨.inl ⟨r, u, rfl, regs⟩, (takeTrap_mem ..).symm ▸ mem⟩
  | .error (.wait u), ⟨regs, mem⟩, run =>
    cases run
    exact ⟨.inr (settle _ _ _ (same _) (regs ▸ .refl _)), mem⟩

/-- A load of a scalar leaves memory as it is where no request is in flight. -/
theorem issue_load (h : Leaves (ScalarOrSame d) (CalmSame s) s (body s)) (run : issue words stall body s = .next t) :
    ((∃ r u, t = takeTrap r u ∧ u.regs = s.regs) ∨ (SameSpecial s.regs t.regs ∧ ScalarLoaded d s.regs t.regs)) ∧
      (s.flights = [] → SameMemory s t) := by
  obtain ⟨ends, mem⟩ := issue_leaves (fun _ => .inl rfl) (fun _ _ _ => ScalarOrSame.settles) h run
  exact ⟨ends, fun calm a => by rw [mem calm]⟩

/-- The same of a load of a vector. -/
theorem issue_vectorLoad (h : Leaves (VectorOrSame d) (CalmSame s) s (body s)) (run : issue words stall body s = .next t) :
    ((∃ r u, t = takeTrap r u ∧ u.regs = s.regs) ∨ (SameSpecial s.regs t.regs ∧ VectorLoaded d s.regs t.regs)) ∧
      (s.flights = [] → SameMemory s t) := by
  obtain ⟨ends, mem⟩ := issue_leaves (fun _ => .inl rfl) (fun _ _ _ => VectorOrSame.settles) h run
  exact ⟨ends, fun calm a => by rw [mem calm]⟩

theorem issue_store (h : Stores s (body s)) (run : issue words stall body s = .next t) :
    ((∃ r u, t = takeTrap r u ∧ u.regs = s.regs) ∨ (SameSpecial s.regs t.regs ∧ StoreOnly s.regs t.regs)) ∧ SameMemory s t := by
  obtain ⟨ends, mem⟩ := issue_leaves (R := fun a b => b = a) (P := StoreOnly) (fun _ => rfl) (fun _ _ _ => storeOnly_settles) h run
  exact ⟨ends, fun a => by rw [mem]⟩

theorem issue_amo {n : Nat} {f : FmtM} (h : Leaves (ScalarOrSame d) (AmoMem s n f) s (body s))
    (run : issue words stall body s = .next t) :
    ((∃ r u, t = takeTrap r u ∧ u.regs = s.regs) ∨ (SameSpecial s.regs t.regs ∧ ScalarLoaded d s.regs t.regs)) ∧
      AmoMem s n f t.mem :=
  issue_leaves (fun _ => .inl rfl) (fun _ _ _ => ScalarOrSame.settles) h run

end Frames

/-- Settles O41: where a memory instruction stops the registers stand, where it ends they stand or hold its result (`…_leaves`);
what it does to memory is nothing, or the write of an AMO at its home (`atomicAt_ends_in`). -/
theorem memoryFrame : Obligations.MemoryFrame := by
  unfold Obligations.MemoryFrame
  intro f s t wf
  dsimp only
  simp only [List.forall_mem_cons, List.not_mem_nil, IsEmpty.forall_iff, implies_true, and_true]
  have loads {n signed} := issue_load (t := t) (words := wordsP f.p) (stall := 0) (ld_leaves s n signed f)
  have acquires {n} := issue_load (t := t) (words := wordsP f.p) (stall := 0) (lda_leaves s n f)
  have vectors {masked} := issue_vectorLoad (t := t) (words := wordsP f.p) (stall := 0) (vld_leaves s masked f)
  have stores {n} := issue_store (t := t) (words := wordsP f.p) (stall := 0) (st_stores s n f)
  have releases {n} := issue_store (t := t) (words := wordsP f.p) (stall := 0) (stl_stores s n f)
  have vectorStores {masked} := issue_store (t := t) (words := wordsP f.p) (stall := 0) (vst_stores s masked f)
  have atomics {op n} := issue_amo (t := t) (words := wordsP f.p) (stall := 0) (amo_leaves s wf op n f)
  refine ⟨⟨loads, loads, loads, loads, loads, loads, loads, acquires, acquires⟩, ⟨vectors, vectors⟩,
    ⟨stores, stores, stores, stores, releases, releases, vectorStores, vectorStores⟩, ?_⟩
  exact ⟨atomics, atomics, atomics, atomics, atomics, atomics, atomics, atomics, atomics, atomics, atomics, atomics, atomics,
    atomics, atomics, atomics⟩

end Sys2Proof.Safety
end

