-- ==== Sys2Proof/Proofs/LinkEvents.lean ====
section
/-! SUPPORT. What links do to the cubes at their two ends (R376, R377, R380, R387). -/

namespace Sys2Proof.Machine

open Sys2Proof Sys2Proof.Safety

/-! ### A change of one link -/

/-- Changes one link of a cube, as `modLink` does at each of its ends (`modLink_eq`). -/
def Cube.modLink (q : Cube) (d : Nat) (f : Link → Link) : Cube :=
  { q with links := match q.links[d]? with
      | some l => q.links.setIfInBounds d (f l)
      | none => q.links }

theorem Cube.modLink_links (q : Cube) (d : Nat) (f : Link → Link) : (q.modLink d f).links[d]? = (q.links[d]?).map f := by
  unfold Cube.modLink
  dsimp only
  cases h : q.links[d]? with
  | none => exact h
  | some l =>
    have inBounds : d < 6 := (Vector.getElem?_eq_some_iff.mp h).1
    exact Vector.getElem?_setIfInBounds_self_of_lt inBounds

theorem modLink_eq (s : State) (c d : Nat) (f : Link → Link) : modLink s c d f =
    (s.modCube c fun q => q.modLink d f).modCube (neighbourCube c d) fun q => q.modLink (opposite d) f := rfl

theorem modLink_near (s : State) (c d : Nat) (f : Link → Link) :
    (modLink s c d f).cube c = (s.cube c).modLink d f := by
  rw [modLink_eq, State.modCube_cube_ne _ _ (neighbourCube_ne c d).symm, State.modCube_cube_same]

theorem modLink_far (s : State) (c d : Nat) (f : Link → Link) :
    (modLink s c d f).cube (neighbourCube c d) = (s.cube (neighbourCube c d)).modLink (opposite d) f := by
  rw [modLink_eq, State.modCube_cube_same, State.modCube_cube_ne _ _ (neighbourCube_ne c d)]

/-- Both ends of a link after a change of it. -/
theorem modLink_ends (s : State) (c d : Nat) (f : Link → Link) {e : Nat × Nat} (he : e ∈ linkEnds c d) :
    ((modLink s c d f).cube e.1).links[e.2]? = (((s.cube e.1).links)[e.2]?).map f := by
  simp only [linkEnds, List.mem_cons, List.not_mem_nil, or_false] at he
  rcases he with rfl | rfl
  · exact (congrArg (fun q : Cube => q.links[d]?) (modLink_near ..)).trans (Cube.modLink_links ..)
  · exact (congrArg (fun q : Cube => q.links[opposite d]?) (modLink_far ..)).trans (Cube.modLink_links ..)

/-- Each cube has a link in every direction. -/
theorem links_some (q : Cube) {d : Nat} (h : d < 6) : ∃ l, q.links[d]? = some l := ⟨_, Vector.getElem?_eq_getElem h⟩

theorem opposite_lt {d : Nat} (h : d < 6) : opposite d < 6 := by
  unfold opposite
  split
  · omega
  · omega

theorem near_mem_linkEnds (c d : Nat) : (c, d) ∈ linkEnds c d := List.mem_cons_self

theorem far_mem_linkEnds (c d : Nat) : (neighbourCube c d, opposite d) ∈ linkEnds c d :=
  List.mem_cons_of_mem _ List.mem_cons_self

/-! ### Records of the Stove -/

@[simp] theorem Stove.post_errlog (t : Stove) (n : Notice) : (t.post n).errlog = t.errlog := by
  unfold Stove.post
  split
  · rfl
  · rfl

/-- The code of the newest record of a cube's log (R457). -/
def newestCode (q : Cube) : Option (BitVec 16) := q.stove.errlog.head?.map fun x => x.extractLsb' 0 16

/-- The low 16 bits of a record's number are its code. -/
theorem record_code (code sev w t n : Nat) :
    (code + sev * 2 ^ 16 + w * 2 ^ 64 + t * 2 ^ 128 + n * 2 ^ 192) % 2 ^ 256 % 2 ^ 16 = code % 2 ^ 16 := by
  have apart : code + sev * 2 ^ 16 + w * 2 ^ 64 + t * 2 ^ 128 + n * 2 ^ 192 =
      code + 2 ^ 16 * (sev + w * 2 ^ 48 + t * 2 ^ 112 + n * 2 ^ 176) := by ring
  rw [Nat.mod_mod_of_dvd _ (Nat.pow_dvd_pow 2 (by decide)), apart, Nat.add_mul_mod_self_left]

theorem logError_newest (s : State) (c code sev where_ : Nat) :
    newestCode ((logError s c code sev where_).cube c) = some (BitVec.ofNat 16 code) := by
  unfold newestCode logError State.notice State.noticeOf State.errRecord
  rw [State.modStove_cube_same, State.modStove_cube_same]
  dsimp only
  rw [Stove.post_errlog]
  refine congrArg some (BitVec.eq_of_toNat_eq ?_)
  rw [BitVec.extractLsb'_toNat, BitVec.toNat_ofNat, BitVec.toNat_ofNat, Nat.shiftRight_zero]
  exact record_code ..

theorem reportLink_newest (s : State) (c link : Nat) : newestCode ((reportLink s c link).cube c) = some 0x72 :=
  logError_newest _ c 0x72 sevDegraded link

theorem reportLink_cube_ne (s : State) {c d : Nat} (link : Nat) (h : d ≠ c) : (reportLink s c link).cube d = s.cube d := by
  unfold reportLink logError State.notice State.noticeOf State.errRecord State.modStove
  rw [State.modCube_cube_ne _ _ h, State.modCube_cube_ne _ _ h, State.modCube_cube_ne _ _ h]

theorem Logged.links {a b : Cube} (h : Logged a b) : b.links = a.links := by
  obtain ⟨_, rfl, -⟩ := h
  rfl

/-! ### A link that goes down -/

/-- A link that is down. -/
def Link.shut (l : Link) : Link := { l with up := false, lanes := 0 }

theorem linkDown_eq (s : State) (c d : Nat) : linkDown s c d =
    reportLink (reportLink (closeLink (modLink s c d Link.shut) c d) c d) (neighbourCube c d) (opposite d) := rfl

theorem linkDown_links (s : State) (c d : Nat) {e : Nat × Nat} (he : e ∈ linkEnds c d) :
    ((linkDown s c d).cube e.1).links[e.2]? = ((s.cube e.1).links[e.2]?).map Link.shut := by
  have reported : ((linkDown s c d).cube e.1).links = ((modLink s c d Link.shut).cube e.1).links :=
    ((reportLink_logged ..).trans (reportLink_logged ..)).links
  rw [reported, modLink_ends s c d Link.shut he]

theorem linkDown_detours (s : State) (c d : Nat) {e : Nat × Nat} (he : e ∈ linkEnds c d) :
    ⟨e.1, e.2, s.numCtr + 1⟩ ∈ (linkDown s c d).detours :=
  List.mem_append_right _ (List.mem_map_of_mem (f := fun e => Detour.mk e.1 e.2 (s.numCtr + 1)) he)

theorem linkDown_newest (s : State) (c d : Nat) {e : Nat × Nat} (he : e ∈ linkEnds c d) :
    newestCode ((linkDown s c d).cube e.1) = some 0x72 := by
  rw [linkDown_eq]
  simp only [linkEnds, List.mem_cons, List.not_mem_nil, or_false] at he
  rcases he with rfl | rfl
  · rw [reportLink_cube_ne _ _ (neighbourCube_ne c d).symm]
    exact reportLink_newest ..
  · exact reportLink_newest ..

/-- A link that has gone down: closed, avoided and reported at both ends. -/
def LinkClosed (s : State) (cube link : Nat) (l : Link) (t : State) : Prop :=
  (t.cube cube).links[link]? = some { l with up := false, lanes := 0 } ∧ t.mem = s.mem ∧
    ∀ e ∈ linkEnds cube link, ((t.cube e.1).links[e.2]?).map Link.up ≠ some true ∧
      ⟨e.1, e.2, s.numCtr + 1⟩ ∈ t.detours ∧ (t.cube e.1).stove.errlog.head?.map (fun x => x.extractLsb' 0 16) = some 0x72

theorem linkDown_closes {s : State} {cube link : Nat} {l : Link} (hl : (s.cube cube).links[link]? = some l) :
    LinkClosed s cube link l (linkDown (s.focus (cube * 256)) cube link) := by
  refine ⟨?_, (linkDown_mem ..).trans (State.focus_mem ..), fun e he => ⟨?_, ?_, linkDown_newest _ _ _ he⟩⟩
  · have near := linkDown_links (s.focus (cube * 256)) cube link (near_mem_linkEnds cube link)
    rw [State.focus_cube, hl] at near
    exact near
  · rw [linkDown_links _ _ _ he, Option.map_map]
    intro up
    obtain ⟨_, -, up⟩ := Option.map_eq_some_iff.mp up
    exact Bool.false_ne_true up
  · have avoided := linkDown_detours (s.focus (cube * 256)) cube link he
    rwa [State.focus_numCtr] at avoided

/-! ### Training and replays -/

theorem openLink_detours (s : State) (c d : Nat) {x : Detour} (h : x ∈ (openLink s c d).detours) :
    (x.cube, x.dir) ∉ linkEnds c d := by
  have kept := (List.mem_filter.mp h).2
  simpa using kept

/-- A link that trained. -/
def Link.trained (n v : Nat) (l : Link) : Link := { l with up := true, lanes := n, ver := min 1 v, ignore := [] }

/-- The state after a link trained on `n` lanes. -/
def linkUp (s : State) (c d n v : Nat) (ig : List IgnoreEntry) : State :=
  openLink ((modLink s c d (Link.trained n v)).modCube c fun q => q.modLink d fun l => { l with ignore := ig.take 16 }) c d

@[simp] theorem openLink_cube (s : State) (c d k : Nat) : (openLink s c d).cube k = s.cube k := rfl

@[simp] theorem linkUp_mem (s : State) (c d n v : Nat) (ig : List IgnoreEntry) : (linkUp s c d n v ig).mem = s.mem := rfl

theorem linkUp_near (s : State) (c d n v : Nat) (ig : List IgnoreEntry) : ((linkUp s c d n v ig).cube c).links[d]? =
    ((s.cube c).links[d]?).map fun l => ⟨true, n, min 1 v, l.replay, ig.take 16⟩ := by
  unfold linkUp
  rw [openLink_cube, State.modCube_cube_same, modLink_near, Cube.modLink_links, Cube.modLink_links, Option.map_map]
  rfl

theorem linkUp_far (s : State) (c d n v : Nat) (ig : List IgnoreEntry) :
    ((linkUp s c d n v ig).cube (neighbourCube c d)).links[opposite d]? =
      ((s.cube (neighbourCube c d)).links[opposite d]?).map (Link.trained n v) := by
  unfold linkUp
  rw [openLink_cube, State.modCube_cube_ne _ _ (neighbourCube_ne c d)]
  exact modLink_ends s c d _ (far_mem_linkEnds c d)

theorem trains_focus (s : State) (i cube link : Nat) : trains (s.focus i) cube link = trains s cube link :=
  trains_congr (fun c => by rw [State.focus_cube]) ..

section Training

variable {s : State} {cube link : Nat} (h : InService s cube)
include h

theorem linkTraining_held (lanes v : Nat) (ig : List IgnoreEntry) (off : trains s cube link = false) :
    execLinkTraining cube link lanes v ig s = .next (s.focus (cube * 256)) := by
  refine (cubeEvent_next h _).trans ?_
  dsimp only
  rw [trains_focus, off, if_pos (by simp)]

theorem linkTraining_trains {lanes v : Nat} (ig : List IgnoreEntry) (inCube : link < 6) (on : trains s cube link = true)
    (hv : 0 < v) : execLinkTraining cube link lanes v ig s = .next (
      if trainedLanes lanes = 0 then linkDown (s.focus (cube * 256)) cube link
      else linkUp (s.focus (cube * 256)) cube link (trainedLanes lanes) v ig) := by
  refine (cubeEvent_next h _).trans ?_
  dsimp only
  rw [trains_focus, on, if_neg (by simp; omega)]
  rfl

end Training

end Sys2Proof.Machine
end

