-- ==== Sys2Proof/Proofs/CubeUnitEvents.lean ====
section
/-! SUPPORT and the proof of O50: the events of the links, the memories, refresh, the clock and the host port (R234, R257,
R258, R264, R286, R376, R377, R387, R389, R393, R394, R446, R452). -/

namespace Sys2Proof.Machine

open Sys2Proof Sys2Proof.Safety

/-! ### Lists of atoms, and fields of a packet -/

theorem mem_insertNat (l : List Nat) (k x : Nat) : x ∈ insertNat l k ↔ x = k ∨ x ∈ l := by
  induction l with
  | nil => simp [insertNat]
  | cons y l ih =>
    unfold insertNat
    split
    · simp
    · split
      · next e => simp [e]
      · rw [List.mem_cons, ih, List.mem_cons]
        tauto

theorem mem_foldl_insertNat (ks l : List Nat) (x : Nat) : x ∈ ks.foldl insertNat l ↔ x ∈ ks ∨ x ∈ l := by
  induction ks generalizing l with
  | nil => simp
  | cons k ks ih =>
    rw [List.foldl_cons, ih, mem_insertNat, List.mem_cons]
    tauto

theorem getLsbD_setPf (p : BitVec 1024) {lo n : Nat} (v : Nat) (fits : lo + n ≤ 1024) (i : Nat) :
    (setPf p lo n v).getLsbD i = if lo ≤ i ∧ i < lo + n then v.testBit (i - lo) else p.getLsbD i := by
  simp only [setPf, BitVec.getLsbD_or, BitVec.getLsbD_and, BitVec.getLsbD_not, BitVec.getLsbD_ofNat, Nat.testBit_mul_two_pow,
    Nat.testBit_two_pow_sub_one, Nat.testBit_mod_two_pow]
  by_cases inside : lo ≤ i ∧ i < lo + n
  · obtain ⟨low, high⟩ := inside
    have small : i < 1024 := by omega
    have near : i - lo < n := by omega
    simp [low, high, small, near]
  · rw [if_neg inside]
    by_cases low : lo ≤ i
    · have far : ¬i - lo < n := by omega
      simp only [low, far]
      rcases Nat.lt_or_ge i 1024 with small | big
      · simp [small]
      · simp [BitVec.getLsbD_of_ge _ _ big]
    · have small : i < 1024 := by omega
      simp [low, small]

theorem pf_setPf_same (p : BitVec 1024) {lo n : Nat} (v : BitVec n) (fits : lo + n ≤ 1024) :
    pf (setPf p lo n v.toNat) lo n = v.toNat := by
  refine congrArg BitVec.toNat (BitVec.eq_of_getLsbD_eq fun i hi => ?_)
  rw [BitVec.getLsbD_extractLsb', getLsbD_setPf _ _ fits, if_pos (by omega), Nat.add_sub_cancel_left]
  simp [hi, BitVec.getLsbD]

theorem pf_setPf_apart (p : BitVec 1024) {lo n a m : Nat} (v : Nat) (fits : lo + n ≤ 1024) (apart : a + m ≤ lo ∨ lo + n ≤ a) :
    pf (setPf p lo n v) a m = pf p a m := by
  refine congrArg BitVec.toNat (BitVec.eq_of_getLsbD_eq fun i hi => ?_)
  rw [BitVec.getLsbD_extractLsb', BitVec.getLsbD_extractLsb', getLsbD_setPf _ _ fits, if_neg (by omega)]

/-! ### Events of a cube in service -/

/-- The next value of a counter of errors, which stays at its greatest (R446). -/
def nextCount (v : BitVec 48) : BitVec 48 := if v = BitVec.allOnes 48 then v else v + 1

theorem errCount_errs (s : State) (c k : Nat) : ((s.errCount c k).cube c).errs[k]? = (((s.cube c).errs)[k]?).map nextCount := by
  unfold State.errCount
  rw [State.modCube_cube_same]
  dsimp only
  rcases Nat.lt_or_ge k 16 with small | big
  · rw [Vector.getElem?_setIfInBounds_self_of_lt small, Vector.getElem?_eq_getElem small]
    rfl
  · rw [Vector.getElem?_eq_none big, Vector.getElem?_eq_none big]
    rfl

/-- A link that replayed a flit. -/
def Link.replayed (l : Link) : Link :=
  { l with replay := if l.replay = BitVec.allOnes 32 then l.replay else l.replay + 1 }

/-- The state after a link of a cube replayed a flit. -/
def replayed (s : State) (cube link : Nat) : State :=
  (s.modCube cube fun q => q.modLink link Link.replayed).errCount cube 7

theorem errCount_links (s : State) (c k d : Nat) : ((s.errCount c k).cube d).links = (s.cube d).links :=
  State.modCube_keeps (p := Cube.links) (by intro; rfl) ..

theorem replayed_links (s : State) (cube link : Nat) :
    ((replayed s cube link).cube cube).links[link]? = ((s.cube cube).links[link]?).map Link.replayed := by
  unfold replayed
  rw [errCount_links, State.modCube_cube_same, Cube.modLink_links]

theorem replayed_errs (s : State) (cube link : Nat) :
    ((replayed s cube link).cube cube).errs[7]? = ((s.cube cube).errs[7]?).map nextCount := by
  unfold replayed
  rw [errCount_errs, State.modCube_cube_same]
  rfl

theorem freezeFlue_refreshing (t : State) (c f : Nat) (b : Bool) (d : Nat) :
    ((freezeFlue t c f b).cube d).refreshing = (t.cube d).refreshing := by
  unfold freezeFlue State.modFlue
  exact State.modCube_keeps (p := Cube.refreshing) (by intro; rfl) ..

/-! ### What the host takes, submits and supplies -/

theorem Logged.hosted {a b : Cube} (h : Logged a b) : b.hosted = a.hosted := by
  obtain ⟨_, rfl, -⟩ := h
  rfl

theorem errCount_hosted (s : State) (c k d : Nat) : ((s.errCount c k).cube d).hosted = (s.cube d).hosted :=
  State.modCube_keeps (p := Cube.hosted) (by intro; rfl) ..

theorem dropHosted_hosted (t : State) (c atom x : Nat) :
    x ∈ ((dropHosted t c atom).cube c).hosted ↔ x ∈ (t.cube c).hosted ∧ x ≠ atom := by
  rw [dropHosted, State.modCube_cube_same]
  simp

theorem mustWait_of_calm {q : Cube} (owned : q.owned = []) (moving : q.moving = []) (refreshing : q.refreshing = [])
    (who : Option Nat) (a n : Nat) : mustWait q who a n = false := by
  simp [mustWait, underRefresh, owned, moving, refreshing]

/-- A place of the host's two ranges, as a pair with its address. -/
def hostAtom (s : State) (cube x : Nat) : Option (Nat × Place) := (hostPlace s cube x).map fun p => (x, p)

/-- The atoms that a host read takes. -/
def hostTaken (s : State) (cube a n : Nat) : List (Nat × Place) :=
  (List.range ((a % 32 + n + 31) / 32)).filterMap fun k => hostAtom s cube (a / 32 * 32 + 32 * k)

theorem hostRead_eq (s : State) (cube a n : Nat) : hostRead s cube a n =
    if (hostTaken s cube a n).any fun x => mustWait (s.cube cube) none x.2.addr 32 then s
    else s.modCube cube fun q => { q with
      hosted := ((hostTaken s cube a n).map fun x => cube * 2 ^ 47 + x.1).foldl insertNat q.hosted } := rfl

theorem mem_hostTaken {t : State} {c a n x : Nat} {p : Place} (aligned : x % 32 = 0) (first : a < x + 32) (last : x < a + n)
    (hp : hostPlace t c x = some p) : (x, p) ∈ hostTaken t c a n := by
  refine List.mem_filterMap.mpr ⟨(x - a / 32 * 32) / 32, List.mem_range.mpr (by omega), ?_⟩
  have atom : a / 32 * 32 + 32 * ((x - a / 32 * 32) / 32) = x := by omega
  rw [atom, hostAtom, hp]
  rfl

theorem hostRead_keeps (t : State) (c a n x : Nat) (hx : x ∈ (t.cube c).hosted) : x ∈ ((hostRead t c a n).cube c).hosted := by
  rw [hostRead_eq]
  split
  · exact hx
  · rw [State.modCube_cube_same]
    exact (mem_foldl_insertNat ..).mpr (.inr hx)

theorem hostRead_takes {t : State} {c a n x : Nat} (owned : (t.cube c).owned = []) (moving : (t.cube c).moving = [])
    (refreshing : (t.cube c).refreshing = []) (aligned : x % 32 = 0) (first : a < x + 32) (last : x < a + n)
    (placed : hostPlace t c x ≠ none) : c * 2 ^ 47 + x ∈ ((hostRead t c a n).cube c).hosted := by
  obtain ⟨p, hp⟩ := Option.ne_none_iff_exists'.mp placed
  have free : ¬((hostTaken t c a n).any fun x => mustWait (t.cube c) none x.2.addr 32) = true := by
    simp [mustWait_of_calm owned moving refreshing]
  rw [hostRead_eq, if_neg free, State.modCube_cube_same]
  exact (mem_foldl_insertNat ..).mpr (.inl (List.mem_map.mpr ⟨(x, p), mem_hostTaken aligned first last hp, rfl⟩))

theorem submitSlot_sends {t : State} {c k at_ l : Nat} {i : Option Nat}
    (target : resolveGlobal t (pTarget ((assoc (t.cube c).slots k).getD 0)) = .ok (at_, l, i, false)) :
    slotStat ((submitSlot t c k).cube c) k = slotStat (t.cube c) k ||| 1#18 <<< 16 ∧
      ∃ fl, (submitSlot t c k).flights = t.flights ++ [fl] ∧ fl.src = .host c k ∧ fl.cube = at_ ∧
        fl.body = .packet ((assoc (t.cube c).slots k).getD 0) (some k) true := by
  unfold submitSlot
  dsimp only
  rw [target]
  dsimp only
  rw [if_neg Bool.false_ne_true]
  refine ⟨?_, _, rfl, rfl, rfl, rfl⟩
  show slotStat ((setSlotStat t c k _).cube c) k = _
  rw [setSlotStat, State.modCube_cube_same, slotStat, assoc_assocSet, if_pos rfl]
  rfl

theorem acknowledgeInstall_imap (t : State) (c : Nat) (m : InterleaveMap) :
    ((acknowledgeInstall (setMap t c m) c).cube c).imap = m := by
  show ((setMap t c m).cube c).imap = m
  rw [setMap, State.modCube_cube_same]

section Units

variable {s : State} {cube : Nat} (h : InService s cube)
include h

theorem flitReplay_counts {link : Nat} {l : Link} (hl : (s.cube cube).links[link]? = some l) :
    ∃ t, execFlitReplay cube link s = .next t ∧ (t.cube cube).links[link]? = some l.replayed ∧ t.mem = s.mem ∧
      t.flights = s.flights ∧ (t.cube cube).errs[7]? = ((s.cube cube).errs[7]?).map nextCount := by
  have inCube : link < 6 := (Vector.getElem?_eq_some_iff.mp hl).1
  refine ⟨replayed (s.focus (cube * 256)) cube link, ?_, ?_, State.focus_mem .., State.focus_flights .., ?_⟩
  · refine (cubeEvent_next h _).trans ?_
    rw [if_neg (by omega)]
    rfl
  · rw [replayed_links, State.focus_cube, hl]
    rfl
  · rw [replayed_errs, State.focus_cube]

theorem linkDown_results {link : Nat} {l : Link} (hl : (s.cube cube).links[link]? = some l) :
    execLinkDown cube link s = .next (if l.up then linkDown (s.focus (cube * 256)) cube link else s.focus (cube * 256)) := by
  refine (cubeEvent_next h _).trans ?_
  rw [State.focus_cube, hl]

theorem correctedError_counts {k : Nat} (hk : k < 3) :
    ∃ t, execCorrectedError cube k s = .next t ∧ (t.cube cube).errs[k]? = ((s.cube cube).errs[k]?).map nextCount ∧
      t.mem = s.mem := by
  refine ⟨_, cubeEvent_next h _, ?_⟩
  rw [if_pos hk, errCount_errs, State.focus_cube]
  exact ⟨rfl, State.focus_mem ..⟩

theorem refresh_begins {flue bank : Nat} (hf : flue < 64) (hb : bank < 256) :
    ∃ t, execRefresh cube flue bank s = .next t ∧ (flue, bank) ∈ (t.cube cube).refreshing ∧ t.mem = s.mem := by
  refine ⟨_, cubeEvent_next h _, ?_⟩
  dsimp only
  rw [State.focus_cube]
  by_cases already : (flue, bank) ∈ (s.cube cube).refreshing
  · rw [if_pos (by simp [already]), State.focus_cube]
    exact ⟨already, State.focus_mem ..⟩
  · have listed : (flue, bank) ∈ (((s.focus (cube * 256)).modCube cube fun q =>
        { q with refreshing := q.refreshing ++ [(flue, bank)] }).cube cube).refreshing := by
      rw [State.modCube_cube_same]
      exact List.mem_append_right _ List.mem_cons_self
    rw [if_neg (by simp [already]; omega)]
    split
    · rw [freezeFlue_refreshing]
      exact ⟨listed, State.focus_mem ..⟩
    · exact ⟨listed, State.focus_mem ..⟩

theorem refresh_ends {flue bank : Nat} (under : (flue, bank) ∈ (s.cube cube).refreshing) :
    ∃ t, execRefreshEnd cube flue bank s = .next t ∧ (flue, bank) ∉ (t.cube cube).refreshing ∧ t.mem = s.mem := by
  refine ⟨_, cubeEvent_next h _, ?_⟩
  dsimp only
  have gone : (flue, bank) ∉ (((s.focus (cube * 256)).modCube cube fun q =>
      { q with refreshing := q.refreshing.filter fun x => x != (flue, bank) }).cube cube).refreshing := by
    rw [State.modCube_cube_same]
    simp
  rw [State.focus_cube, if_neg (by simp [under])]
  split
  · exact ⟨gone, State.focus_mem ..⟩
  · rw [freezeFlue_refreshing]
    exact ⟨gone, State.focus_mem ..⟩

theorem refreshRate_changes (hot : Bool) :
    ∃ t, execRefreshRateChange cube hot s = .next t ∧ (t.cube cube).hot = hot ∧ t.mem = s.mem := by
  refine ⟨_, cubeEvent_next h _, ?_, State.focus_mem ..⟩
  rw [State.modCube_cube_same]

theorem coreClockCycle_ticks :
    ∃ t, execCoreClockCycle cube s = .next t ∧ (t.cube cube).clock = (s.cube cube).clock + 1 ∧ t.mem = s.mem := by
  refine ⟨_, cubeEvent_next h _, ?_, State.focus_mem ..⟩
  have ticked : (((s.focus (cube * 256)).modCube cube fun q => { q with clock := q.clock + 1 }).cube cube).clock =
      (s.cube cube).clock + 1 := by
    rw [State.modCube_cube_same, State.focus_cube]
  exact ticked

theorem backinvResponse_drops (atom : Nat) : ∃ t, execBackinvResponse cube atom s = .next t ∧
    ∀ x, x ∈ (t.cube cube).hosted ↔ x ∈ (s.cube cube).hosted ∧ x ≠ atom := by
  refine ⟨_, cubeEvent_next h _, fun x => ?_⟩
  rw [dropHosted_hosted, State.focus_cube]

theorem backinvTimeout_drops {atom : Nat} (held : atom ∈ (s.cube cube).hosted) :
    ∃ t, execBackinvTimeout cube atom s = .next t ∧ atom ∉ (t.cube cube).hosted := by
  refine ⟨_, cubeEvent_next h _, ?_⟩
  rw [State.focus_cube, if_pos (by simpa using held)]
  rw [(logError_logged ..).hosted, errCount_hosted, dropHosted_hosted]
  exact fun standing => standing.2 rfl

theorem cxlRead_next {a n : Nat} (ready : (s.cube cube).stove.ready = true) (fits : a + n ≤ 2 ^ 47) :
    execCxlMemRequest cube (.read a n) s = .next (hostRead (s.focus (cube * 256)) cube a n) := by
  refine (cubeEvent_next h _).trans ?_
  rw [State.focus_cube, ready]
  exact congrArg _ (if_pos fits)

theorem cxlWrite_next {a : Nat} {bs : List Byte} {t : State} (ready : (s.cube cube).stove.ready = true)
    (fits : a + bs.length ≤ 2 ^ 47)
    (written : hostWrites cube (hostAtoms (bs.length + 1) a bs) (s.focus (cube * 256)) = some t) :
    execCxlMemRequest cube (.write a bs) s = .next t := by
  refine (cubeEvent_next h _).trans ?_
  rw [State.focus_cube, ready]
  refine congrArg _ ((if_pos fits).trans ?_)
  rw [written]
  rfl

theorem doorbell_ignored {v : BitVec 64} (closed : (s.cube cube).stove.ready = false ∨ 256 ≤ v.toNat ∨
      (slotStat (s.cube cube) (v.toNat % 256)).getLsbD 16 = true) :
    ∃ t, execDoorbell cube v s = .next t ∧ t.flights = s.flights := by
  refine ⟨_, cubeEvent_next h _, ?_⟩
  dsimp only
  rw [State.focus_cube]
  split
  · exact State.focus_flights ..
  · rw [if_pos (by simpa [or_assoc] using closed)]
    exact State.focus_flights ..

theorem doorbell_submits {v : BitVec 64} (ready : (s.cube cube).stove.ready = true) (hv : v.toNat < 256)
    (free : (slotStat (s.cube cube) (v.toNat % 256)).getLsbD 16 = false) (calm : mapHeld (s.focus (cube * 256)) = false) :
    execDoorbell cube v s = .next (submitSlot (s.focus (cube * 256)) cube (v.toNat % 256)) := by
  refine (cubeEvent_next h _).trans ?_
  dsimp only
  rw [State.focus_cube, calm, Bool.and_false, if_neg Bool.false_ne_true, ready, free,
    if_neg (by simp [hv])]

theorem slotWord_written {k w : Nat} (v : BitVec 64) (ready : (s.cube cube).stove.ready = true) (hk : k < 256) (hw : w < 16) :
    ∃ t, execRegisterWrite cube (.slotWord k w) v s = .next t ∧
      (assoc (t.cube cube).slots k).getD 0 = setPf ((assoc (s.cube cube).slots k).getD 0) (64 * w) 64 v.toNat := by
  refine ⟨_, cubeEvent_next h _, ?_⟩
  dsimp only
  rw [State.focus_cube, if_neg (by simp [ready]; omega), State.modCube_cube_same, assoc_assocSet, if_pos rfl]
  rfl

theorem recoveryImage_kept (image : FirmwareImage) (recov : (s.cube cube).stove.recov = true) :
    ∃ t, execRecoveryImageSupply cube image s = .next t ∧ assoc (t.cube cube).supplied (imgCore image) = some image := by
  refine ⟨_, cubeEvent_next h _, ?_⟩
  rw [State.focus_cube, recov, if_neg (by decide), State.modCube_cube_same]
  exact (assoc_assocSet ..).trans (if_pos rfl)

theorem mapInstall_next (m : InterleaveMap) (ok : mapOk m = true) : execMapInstall cube m s = .next (
    if installsNow (s.focus (cube * 256)) m && !holdsOld (s.focus (cube * 256)) cube m.mgen then
      acknowledgeInstall (setMap (s.focus (cube * 256)) cube m) cube
    else s.focus (cube * 256)) := by
  refine (cubeEvent_next h _).trans ?_
  rw [ok, Bool.true_and]

end Units

end Sys2Proof.Machine

namespace Sys2Proof.Safety

open Sys2Proof Sys2Proof.Machine

section Clauses

variable {s : State} {cube : Nat} (h : InService s cube)
include h

theorem linkTraining_opens {link lanes v : Nat} (ig : List IgnoreEntry) {l : Link} (inCube : link < 6)
    (hl : (s.cube cube).links[link]? = some l) (on : trains s cube link = true) (hv : 0 < v) (wide : 8 ≤ lanes) :
    ∃ t, exec (.linkTraining cube link lanes v ig) s = .next t ∧
      (t.cube cube).links[link]? = some ⟨true, if 16 ≤ lanes then 16 else 8, min 1 v, l.replay, ig.take 16⟩ ∧ t.mem = s.mem ∧
      ((t.cube (neighbourCube cube link)).links[opposite link]?).map (fun x => (x.up, x.lanes, x.ver)) =
        some (true, if 16 ≤ lanes then 16 else 8, min 1 v) ∧
      ∀ d ∈ t.detours, (d.cube, d.dir) ∉ linkEnds cube link := by
  have width : trainedLanes lanes = if 16 ≤ lanes then 16 else 8 := by
    unfold trainedLanes
    rw [if_pos wide]
  have some_ : trainedLanes lanes ≠ 0 := by
    rw [width]
    split
    · decide
    · decide
  obtain ⟨far, hfar⟩ := links_some (s.cube (neighbourCube cube link)) (opposite_lt inCube)
  refine ⟨_, (linkTraining_trains h ig inCube on hv).trans (congrArg _ (if_neg some_)), ?_,
    (linkUp_mem ..).trans (State.focus_mem ..), ?_, fun d hd => openLink_detours _ _ _ hd⟩
  · rw [linkUp_near, State.focus_cube, hl, width]
    rfl
  · rw [linkUp_far, State.focus_cube, hfar, width]
    rfl

theorem linkTraining_closes {link lanes v : Nat} (ig : List IgnoreEntry) {l : Link} (inCube : link < 6)
    (hl : (s.cube cube).links[link]? = some l) (on : trains s cube link = true) (hv : 0 < v) (narrow : lanes < 8) :
    ∃ t, exec (.linkTraining cube link lanes v ig) s = .next t ∧ LinkClosed s cube link l t := by
  have none_ : trainedLanes lanes = 0 := by
    unfold trainedLanes
    rw [if_neg (by omega), if_neg (by omega)]
  exact ⟨_, (linkTraining_trains h ig inCube on hv).trans (congrArg _ (if_pos none_)), linkDown_closes hl⟩

theorem cxlRead_sets {a n : Nat} (ready : (s.cube cube).stove.ready = true) (fits : a + n ≤ 2 ^ 47) :
    ∃ t, exec (.cxlMemRequest cube (.read a n)) s = .next t ∧ t.mem = s.mem ∧
      (∀ x ∈ (s.cube cube).hosted, x ∈ (t.cube cube).hosted) ∧
      ((s.cube cube).owned = [] → (s.cube cube).moving = [] → (s.cube cube).refreshing = [] →
        ∀ x, x % 32 = 0 → a < x + 32 → x < a + n → hostPlace (s.focus (cube * 256)) cube x ≠ none →
          cube * 2 ^ 47 + x ∈ (t.cube cube).hosted) := by
  refine ⟨_, cxlRead_next h ready fits, (hostRead_mem ..).trans (State.focus_mem ..), fun x hx => ?_, ?_⟩
  · exact hostRead_keeps _ _ _ _ _ ((State.focus_cube ..).symm ▸ hx)
  · intro owned moving refreshing x aligned first last placed
    exact hostRead_takes (by rwa [State.focus_cube]) (by rwa [State.focus_cube]) (by rwa [State.focus_cube]) aligned first
      last placed

theorem doorbell_sends {v : BitVec 64} {c l : Nat} {i : Option Nat} (ready : (s.cube cube).stove.ready = true)
    (hv : v.toNat < 256) (free : (slotStat (s.cube cube) (v.toNat % 256)).getLsbD 16 = false)
    (target : resolveGlobal (s.focus (cube * 256)) (pTarget ((assoc (s.cube cube).slots (v.toNat % 256)).getD 0)) =
      .ok (c, l, i, false))
    (calm : mapHeld (s.focus (cube * 256)) = false) :
    ∃ t, exec (.doorbell cube v) s = .next t ∧
      slotStat (t.cube cube) (v.toNat % 256) = slotStat (s.cube cube) (v.toNat % 256) ||| 1#18 <<< 16 ∧
      ∃ fl, t.flights = s.flights ++ [fl] ∧ fl.src = .host cube (v.toNat % 256) ∧ fl.cube = c ∧
        fl.body = .packet ((assoc (s.cube cube).slots (v.toNat % 256)).getD 0) (some (v.toNat % 256)) true := by
  rw [← State.focus_cube s (cube * 256)] at target
  have sent := submitSlot_sends target
  rw [State.focus_cube, State.focus_flights] at sent
  exact ⟨_, doorbell_submits h ready hv free calm, sent⟩

theorem slotWord_fields {k w : Nat} (v : BitVec 64) (ready : (s.cube cube).stove.ready = true) (hk : k < 256) (hw : w < 16) :
    ∃ t, exec (.registerWrite cube (.slotWord k w) v) s = .next t ∧
      pf ((assoc (t.cube cube).slots k).getD 0) (64 * w) 64 = v.toNat ∧
      ∀ j, j < 16 → j ≠ w →
        pf ((assoc (t.cube cube).slots k).getD 0) (64 * j) 64 = pf ((assoc (s.cube cube).slots k).getD 0) (64 * j) 64 := by
  obtain ⟨t, run, slot⟩ := slotWord_written h v ready hk hw
  refine ⟨t, run, ?_, fun j _ apart => ?_⟩
  · rw [slot]
    exact pf_setPf_same _ v (by omega)
  · rw [slot]
    exact pf_setPf_apart _ _ (by omega) (by omega)

theorem mapInstall_installs {m : InterleaveMap} (ok : mapOk m = true)
    (drained : holdsOld (s.focus (cube * 256)) cube m.mgen = false)
    (now : installsNow (s.focus (cube * 256)) m = true) :
    ∃ t, exec (.mapInstall cube m) s = .next t ∧ (t.cube cube).imap = m ∧ t.mem = s.mem := by
  have ready : (installsNow (s.focus (cube * 256)) m && !holdsOld (s.focus (cube * 256)) cube m.mgen) = true := by
    rw [now, drained]
    rfl
  exact ⟨_, (mapInstall_next h m ok).trans (congrArg _ (if_pos ready)), acknowledgeInstall_imap .., State.focus_mem ..⟩

theorem mapInstall_held {m : InterleaveMap} (ok : mapOk m = true)
    (held : holdsOld (s.focus (cube * 256)) cube m.mgen = true ∨ installsNow (s.focus (cube * 256)) m = false) :
    exec (.mapInstall cube m) s = .next (s.focus (cube * 256)) := by
  have waits : ¬(installsNow (s.focus (cube * 256)) m && !holdsOld (s.focus (cube * 256)) cube m.mgen) = true := by
    rcases held with old | early
    · simp [old]
    · simp [early]
  exact (mapInstall_next h m ok).trans (congrArg _ (if_neg waits))

end Clauses

/-- Settles O50: each event of a cube in service takes effect on the state with the event's core at the front (`cubeEvent_next`);
a link's event changes the cubes at both of its ends (`linkDown_closes`, `linkUp_near`, `linkUp_far`). -/
theorem cubeUnitEvents : Obligations.CubeUnitEvents := by
  unfold Obligations.CubeUnitEvents
  intro s cube h
  refine ⟨?training, ?links, ?corrected, ?refresh, fun hot => refreshRate_changes h hot, coreClockCycle_ticks h, ?copies, ?reads,
    ?writes, ?doorbell, ?slotWord, ?images, ?maps⟩
  case training =>
    exact fun link lanes v ig l inCube hl => ⟨linkTraining_opens h ig inCube hl, linkTraining_closes h ig inCube hl,
      linkTraining_held h lanes v ig⟩
  case links =>
    exact fun link l hl => ⟨flitReplay_counts h hl,
      fun up => ⟨_, (linkDown_results h hl).trans (congrArg _ (if_pos up)), linkDown_closes hl⟩,
      fun down => (linkDown_results h hl).trans (congrArg _ (if_neg (Bool.not_eq_true _ ▸ down)))⟩
  case corrected => exact fun k hk => correctedError_counts h hk
  case refresh => exact fun flue bank hf hb => ⟨refresh_begins h hf hb, refresh_ends h⟩
  case copies => exact fun atom => ⟨backinvResponse_drops h atom, backinvTimeout_drops h⟩
  case reads => exact fun a n ready fits => cxlRead_sets h ready fits
  case writes => exact fun a bs t ready fits written => cxlWrite_next h ready fits written
  case doorbell =>
    exact fun v => ⟨doorbell_ignored h, fun c l i ready hv free target calm => doorbell_sends h ready hv free target calm⟩
  case slotWord => exact fun k w v ready hk hw => slotWord_fields h v ready hk hw
  case images => exact fun image recov => recoveryImage_kept h image recov
  case maps => exact fun m ok => ⟨fun drained now => mapInstall_installs h ok drained now, fun held => mapInstall_held h ok held⟩

end Sys2Proof.Safety
end

