-- ==== Sys2Proof/Proofs/ResetState.lean ====
section
/-! SUPPORT and the proof of O47: the machine after reset (R88 and the rules that give a unit's reset values). -/

namespace Sys2Proof.Machine

open Sys2Proof

theorem replicate_getElem?_getD {α : Type} (n k : Nat) (x : α) : (Vector.replicate n x)[k]?.getD x = x := by
  rw [Vector.getElem?_replicate]
  split
  · rfl
  · rfl

/-- A cube that is not listed is as after reset. -/
theorem State.reset_cube (c : Nat) : State.reset.cube c = Cube.reset c := rfl

/-- Every flue is IDLE after reset (R330). -/
theorem State.reset_flue (c f : Nat) : State.reset.flue c f = Flue.reset := replicate_getElem?_getD 64 f Flue.reset

/-- Every tile is zero, without a shape, after reset (R88, R93). -/
theorem TileRegs.reset_tile (k : Nat) : TileRegs.reset.bits k = 0 ∧ TileRegs.reset.shapeOf k = 0 := by
  unfold TileRegs.bits TileRegs.shapeOf TileRegs.reset
  rw [replicate_getElem?_getD, replicate_getElem?_getD]
  exact ⟨BitVec.toNat_zero .., rfl⟩

end Sys2Proof.Machine

namespace Sys2Proof.Safety

open Sys2Proof Sys2Proof.Machine

open Vector (getElem?_replicate_of_lt)

/-- Settles O47: each register file, each list of counters or links is a `Vector.replicate` of its reset value, no cube is listed
(`State.reset_cube`), and the rest is what the reset states write out. -/
theorem resetState : Obligations.ResetState := by
  unfold Obligations.ResetState
  refine ⟨rfl, ?scalarsVectors, ?elements, ?masks, rfl, rfl, rfl, ?depositsSegments, rfl, rfl, rfl, rfl, rfl, rfl, rfl, rfl, rfl, rfl,
    rfl, ?tiles, rfl, rfl, rfl, rfl, rfl, rfl, ?counters, rfl, fun c => ?cube⟩
  case scalarsVectors => exact fun k hk => ⟨getElem?_replicate_of_lt hk, getElem?_replicate_of_lt hk⟩
  case elements => exact fun k hk => getElem?_replicate_of_lt hk
  case masks => exact fun k hk => getElem?_replicate_of_lt hk
  case depositsSegments => exact fun k hk => ⟨getElem?_replicate_of_lt hk, getElem?_replicate_of_lt hk⟩
  case tiles => exact fun k _ => TileRegs.reset_tile k
  case counters => exact fun k hk => getElem?_replicate_of_lt hk
  case cube =>
    rw [State.reset_cube]
    refine ⟨rfl, rfl, rfl, rfl, rfl, ?errors, ?flues, ?links, rfl, rfl, rfl, rfl, rfl, rfl, rfl⟩
    case errors => exact fun k hk => getElem?_replicate_of_lt hk
    case flues => exact fun f _ => congrArg Flue.st (State.reset_flue c f)
    case links => exact fun d hd => getElem?_replicate_of_lt hd

end Sys2Proof.Safety
end

