-- ==== Sys2Proof/Proofs/HomeReplies.lean ====
section
/-! SUPPORT. What the operations of a home do to the state: the reply that sets out, the write that it performs, the atom that
is released, and the registers of a deposit (R95, R96, R233, R235, R283, R357, R372, R383). -/

namespace Sys2Proof.Machine

open Sys2Proof

/-! ### Replies -/

/-- A reply to request `num` with a body has set out. -/
def State.Answers (t : State) (num : Nat) (r : Body) : Prop := ∃ fl ∈ t.flights, fl.num = num ∧ fl.cls = .reply ∧ fl.body = r

/-- Of request `num` nothing but replies is in flight. -/
def State.Gone (t : State) (num : Nat) : Prop := ∀ fl ∈ t.flights, fl.num = num → fl.cls = .reply

theorem State.performed_answers (s : State) (f : Flight) (r : Body) : (s.performed f r).Answers f.num r :=
  ⟨_, List.mem_append_right _ (List.mem_singleton_self _), rfl, rfl, rfl⟩

theorem State.performed_gone (s : State) (f : Flight) (r : Body) : (s.performed f r).Gone f.num := by
  intro fl hfl same
  rcases List.mem_append.mp hfl with other | reply
  · have apart : fl.num ≠ f.num := by simpa using (List.mem_filter.mp other).2
    exact absurd same apart
  · rw [List.mem_singleton.mp reply]
    rfl

/-- A refusal for lack of room answers with a NACK without a code (R383). -/
theorem refuseRoom_answers (s : State) (f : Flight) : (refuseRoom s f).Answers f.num (.nack none) :=
  ⟨_, List.mem_append_right _ (List.mem_singleton_self _), rfl, rfl, rfl⟩

@[simp] theorem State.performed_cube (s : State) (f : Flight) (r : Body) (c : Nat) : (s.performed f r).cube c = s.cube c := rfl

@[simp] theorem State.performed_getCore (s : State) (f : Flight) (r : Body) (i : Nat) :
    (s.performed f r).getCore i = s.getCore i := rfl

@[simp] theorem refuseRoom_getCore (s : State) (f : Flight) (i : Nat) : (refuseRoom s f).getCore i = s.getCore i := rfl

theorem State.modCore_getCore_same (s : State) (i : Nat) (f : Core → Core) : (s.modCore i f).getCore i = f (s.getCore i) := by
  rw [State.modCore_getCore, if_pos rfl]

@[simp] theorem focusSource_kept (s : State) (f : Flight) : (focusSource s f).kept = s.kept := by
  unfold focusSource State.focus
  split
  · split
    · rfl
    · rfl
  · split
    · rfl
    · rfl

/-! ### Writes at a home (R233, R235, R357) -/

theorem storeEnabled_whole (s : State) (a : Nat) (bs : List Byte) : storeEnabled s a (bs.map some) = s.store a bs := by
  have whole : (bs.map some).all Option.isSome = true := by simp
  rw [storeEnabled, if_pos whole, List.map_map]
  exact congrArg _ (List.map_id' bs)

section HomeWrite

variable {s : State} {cube a add : Nat} {who : Option Nat}

theorem homeWrite_busy {bs : List (Option Byte)} (inTable : registered s cube a bs.length = true) :
    homeWrite s cube who a bs add = .busy := if_pos inTable

theorem homeWrite_poisoned {bs : List (Option Byte)} (outside : registered s cube a bs.length = false)
    (free : mustWait (s.cube cube) who a bs.length = false) (alone : hostedIn s cube a bs.length = false)
    (bad : (s.poisoned a bs.length).isSome = true) (part : ¬(bs.length = 32 ∧ bs.all Option.isSome = true)) :
    homeWrite s cube who a bs 0 = .poisoned := by
  have notWhole : (decide (bs.length = 32) && bs.all Option.isSome) = false := by
    rw [Bool.eq_false_iff]
    simpa using part
  simp only [homeWrite, outside, free, alone, bad, Bool.and_assoc, notWhole]
  rfl

theorem homeWrite_stores {bs : List Byte} {n : Nat} (len : bs.length = n) (outside : registered s cube a n = false)
    (free : mustWait (s.cube cube) who a n = false) (alone : hostedIn s cube a n = false) (clean : s.poison = []) :
    homeWrite s cube who a (bs.map some) 0 = .done (s.store a bs) := by
  subst len
  have good : s.poisoned a bs.length = none := by rw [State.poisoned, clean, List.find?_nil]
  simp only [homeWrite, List.length_map, outside, free, alone, good, storeEnabled_whole]
  rfl

end HomeWrite

/-- A request that its home has not performed before is performed. -/
theorem storeAtHome_unkept {b : State} {x : Flight} (fresh : b.keptOf x = none) : storeAtHome x b = (performNew b x).getD b := by
  unfold storeAtHome performStore
  rw [fresh]

/-! ### Ownership (R283) -/

theorem disownOnce_owned (s : State) (cube atom core id : Nat) :
    ((disownOnce s cube atom core id).cube cube).owned = (s.cube cube).owned.erase (atom, core, id) := by
  rw [disownOnce, State.modCube_cube_same]

/-! ### Deposits (R95, R96, R222) -/

theorem absent_not_resident {k : Core} (absent : k.ctx.live = false ∨ k.lost = true) : ¬(k.ctx.live && !k.lost) = true := by
  rcases absent with gone | lost
  · simp [gone]
  · simp [lost]

section Deposit

variable (r : Regs) {d : Deposit} (same : Bool)

theorem Regs.deposit_other {j : Nat} (h : j ≠ d.reg) : (r.deposit d same).mb[j]? = r.mb[j]? :=
  Vector.getElem?_setIfInBounds_ne (Ne.symm h)

/-- The bits of MBSTAT that a deposit to mb k sets: FULL, OVR where FULL was set, and COL where a local write met it (R95,
R96). -/
theorem depositBits : ∀ k < 4, ∀ full same : Bool,
    let bits : BitVec 12 := BitVec.ofNat 12 (2 ^ k + (if full then 2 ^ (4 + k) else 0) +
      (if same && (same || full) then 2 ^ (8 + k) else 0))
    bits.getLsbD k = true ∧ (full = true → bits.getLsbD (4 + k) = true) ∧ (same = true → bits.getLsbD (8 + k) = true) := by
  decide

variable (small : d.reg < 4)
include small

theorem Regs.deposit_value : (r.deposit d same).mb[d.reg]? = some d.val :=
  Vector.getElem?_setIfInBounds_self_of_lt small

theorem Regs.deposit_full : (r.deposit d same).mbstat.getLsbD d.reg = true := by
  obtain ⟨full, -, -⟩ := depositBits d.reg small (r.mbstat.getLsbD d.reg) same
  exact (BitVec.getLsbD_or ..).trans (Bool.or_eq_true_iff.mpr (.inr full))

theorem Regs.deposit_overrun (was : r.mbstat.getLsbD d.reg = true) :
    (r.deposit d same).mbstat.getLsbD (4 + d.reg) = true := by
  obtain ⟨-, ovr, -⟩ := depositBits d.reg small (r.mbstat.getLsbD d.reg) same
  exact (BitVec.getLsbD_or ..).trans (Bool.or_eq_true_iff.mpr (.inr (ovr was)))

theorem Regs.deposit_collision (meets : same = true) : (r.deposit d same).mbstat.getLsbD (8 + d.reg) = true := by
  obtain ⟨-, -, met⟩ := depositBits d.reg small (r.mbstat.getLsbD d.reg) same
  exact (BitVec.getLsbD_or ..).trans (Bool.or_eq_true_iff.mpr (.inr (met meets)))

end Deposit

end Sys2Proof.Machine
end

