-- ==== Sys2Proof/Proofs/HomeRequests.lean ====
section
/-! SUPPORT. What a home makes of a request that it performs now: its reply, and its effect (R95, R233, R262, R264, R279, R281,
R283, R307, R313, R357, R361, R383). -/

namespace Sys2Proof.Safety

open Sys2Proof Sys2Proof.Machine

/-! ### The state in which a request is performed -/

section Arrived

variable {s b : State} {num : Nat} {x : Flight} {body : Body} (h : Arrived s num x body b)
include h

theorem Arrived.num_eq : x.num = num := by
  obtain ⟨req, -⟩ := h
  exact State.request_num req

theorem Arrived.body_eq : x.body = body := by
  obtain ⟨-, -, -, -, carries, -⟩ := h
  exact carries

theorem Arrived.mem_eq : b.mem = s.mem := by
  obtain ⟨-, -, -, -, -, rfl⟩ := h
  exact focusSource_mem ..

/-- The home has not performed it before (R382). -/
theorem Arrived.unkept : b.keptOf x = none := by
  obtain ⟨-, -, fresh, -, -, rfl⟩ := h
  unfold State.keptOf
  rw [focusSource_kept]
  exact fresh

/-- A performed request is answered under its number, and has left the network. -/
theorem Arrived.performed (t : State) (r : Body) : (t.performed x r).Answers num r ∧ (t.performed x r).Gone num := by
  obtain rfl := h.num_eq
  exact ⟨State.performed_answers t x r, State.performed_gone t x r⟩

/-- A request that finds no room is answered under its number. -/
theorem Arrived.refused (t : State) : (refuseRoom t x).Answers num (.nack none) := by
  obtain rfl := h.num_eq
  exact refuseRoom_answers ..

end Arrived

/-! ### Reads (R262, R309, R444) -/

section Read

variable {s b : State} {num : Nat} {x : Flight} {a w : Nat} {d : LoadDest}

theorem execRead_waits (h : Arrived s num x (.read a w d) b)
    (held : mustWait (b.cube x.cube) none a (readLen w d) = true) : execRead num false s = .next b := by
  refine (requestEvent_arrived _ h rfl).trans (congrArg _ ?_)
  rw [h.body_eq]
  exact if_pos held

theorem execRead_loads (h : Arrived s num x (.read a w d) b)
    (free : mustWait (b.cube x.cube) none a (readLen w d) = false) (clean : b.poisoned a (readLen w d) = none) :
    execRead num false s =
      .next (b.performed x (.data (readReply w d (b.load a (readLen w d))) d x.ord none)) := by
  refine (requestEvent_arrived _ h rfl).trans (congrArg _ ?_)
  rw [h.body_eq]
  simp only [free, clean, Bool.false_eq_true, if_false]

theorem execRead_poisoned {q : Nat} (h : Arrived s num x (.read a w d) b)
    (free : mustWait (b.cube x.cube) none a (readLen w d) = false) (bad : b.poisoned a (readLen w d) = some q) :
    execRead num false s = .next (b.performed x
      (.data [] d x.ord (some (failedRead .memUncorrectable (BitVec.ofNat 64 q - BitVec.ofNat 64 a))))) := by
  refine (requestEvent_arrived _ h rfl).trans (congrArg _ ?_)
  rw [h.body_eq]
  simp only [free, bad, Bool.false_eq_true, if_false]

theorem execRead_barrier {n : Nat} (h : Arrived s num x (.barrierRead n) b) :
    execRead num false s = .next (b.performed x (.onceData x.ord ⟨0, ((b.group 0 n).map barrierHome).getD 0, none⟩)) := by
  refine (requestEvent_arrived _ h rfl).trans (congrArg _ ?_)
  rw [h.body_eq]

theorem execRead_copies {n id p : Nat} (h : Arrived s num x (.copyRead a n id p) b)
    (free : underRefresh (b.cube x.cube) a = false) (clean : b.poisoned a n = none) :
    execRead num false s = .next (b.performed x (.copyData (b.load a n) id p none)) := by
  refine (requestEvent_arrived _ h rfl).trans (congrArg _ ?_)
  rw [h.body_eq]
  simp only [free, clean, Bool.false_eq_true, if_false]

end Read

/-! ### Stores (R233, R235, R357) -/

/-- What a home makes of a store, by how it answers the write: the gang of a thread whose store meets a poisoned atom goes
back (R228, R235). -/
def storeEnds (b : State) (x : Flight) (a n : Nat) (o : Word) : WriteResult → State
  | .done t => t.performed x (.ack 1 none)
  | .wait => b
  | .busy => (l1DropAt b x.src.core a n).performed x (.ack 1 (some o))
  | .poisoned => ((l1DropAt b x.src.core a n).modCube b.myCube fun q => { q with rollbacks := q.rollbacks ++ [x.tid] }).performed x
      (.ack 1 none)

theorem storeEnds_rollbacks (b : State) (x : Flight) (a n : Nat) (o : Word) :
    x.tid ∈ ((storeEnds b x a n o .poisoned).cube b.myCube).rollbacks := by
  rw [storeEnds, State.performed_cube, State.modCube_cube_same]
  exact List.mem_append_right _ (List.mem_singleton_self _)

section Write

variable {s b : State} {num : Nat} {x : Flight} {a : Nat} {bs : List (Option Byte)} {o : Word}

theorem execWrite_next {add : Nat} {w : WriteResult} (h : Arrived s num x (.write a bs add o) b)
    (answer : homeWrite b x.cube none a bs add = w) : execWrite num false s = .next (storeEnds b x a bs.length o w) := by
  refine (requestEvent_arrived _ h rfl).trans (congrArg _ ?_)
  rw [h.body_eq]
  refine (storeAtHome_unkept h.unkept).trans ?_
  unfold performNew
  rw [h.body_eq, ← answer]
  dsimp only
  cases homeWrite b x.cube none a bs add with
  | done t => rfl
  | wait => rfl
  | busy => rfl
  | poisoned => rfl

end Write

/-! ### Atomics (R279, R300) -/

section Atomic

variable {s b : State} {num : Nat} {x : Flight} {a : Nat}

theorem execAtomic_lane {t : State} {op : AtomicOp} {v : Word32} {o : Word} (h : Arrived s num x (.atomic op a v o) b)
    (done : homeWrite b x.cube none a
      ((bytesOfNat 4 (atomicNew op 32 (natOfBytes (b.load a 4)) v.toNat 0)).map some) 0 = .done t) :
    execAtomic num s = .next (t.performed x (.ack 1 none)) := by
  refine (requestEvent_arrived _ h rfl).trans (congrArg _ ?_)
  rw [h.body_eq]
  refine (storeAtHome_unkept h.unkept).trans ?_
  unfold performNew
  rw [h.body_eq]
  simp only [done]
  rfl

theorem execAtomic_amo {t : State} {g : AmoArgs} {d : LoadDest} (h : Arrived s num x (.amo g a d) b)
    (done : homeWrite b x.cube none a
      ((bytesOfNat d.size (atomicNew g.op (8 * d.size) (natOfBytes (b.load a d.size)) g.v g.c)).map some) 0 = .done t) :
    execAtomic num s = .next (t.performed x (.data (bytesOfNat 8 (natOfBytes (b.load a d.size))) d x.ord none)) := by
  refine (requestEvent_arrived _ h rfl).trans (congrArg _ ?_)
  rw [h.body_eq]
  simp only [amoAtHome, done]

end Atomic

/-! ### Decide-once requests, ownership and the data of copies (R281, R283, R307, R313) -/

/-- What a home makes of a decide-once request by what it has decided, if it could. -/
def onceEnds (b : State) (x : Flight) : Option (State × OnceAnswer) → State
  | some (t, r) => t.performed x (.onceData x.ord r)
  | none => b

/-- What a home makes of the data of a copy, by how it answers the write: the engine's hold of the atom ends with the answer. -/
def copyEnds (b : State) (x : Flight) (d id p core : Nat) : WriteResult → State
  | .done t => (disownOnce t x.cube (d / 32 * 32) core id).performed x (.copied d id p none)
  | .wait => b
  | .busy => (disownOnce b x.cube (d / 32 * 32) core id).performed x (.copied d id p (some .graphBusy))
  | .poisoned => (disownOnce b x.cube (d / 32 * 32) core id).performed x (.copied d id p (some .memUncorrectable))

section Owned

variable {s b : State} {num : Nat} {x : Flight} {atom id core : Nat}

theorem execDecideOnceRequest_next {fn a g p : Nat} {o : Option (State × OnceAnswer)} (h : Arrived s num x (.once fn a g p) b)
    (decided : performOnce b x.cube fn a g p = o) : execDecideOnceRequest num s = .next (onceEnds b x o) := by
  refine (requestEvent_arrived _ h rfl).trans (congrArg _ ?_)
  rw [h.body_eq, ← decided]
  rfl

theorem execOwnershipRequest_waits {p : Nat} (h : Arrived s num x (.ownRequest atom id p) b) (from_ : x.src.core = some core)
    (held : mustWait (b.cube x.cube) (some core) atom 32 = true) : execOwnershipRequest num s = .next b := by
  refine (requestEvent_arrived _ h rfl).trans (congrArg _ ?_)
  rw [h.body_eq, from_]
  exact if_pos held

theorem execOwnershipRequest_grants {p : Nat} (h : Arrived s num x (.ownRequest atom id p) b) (from_ : x.src.core = some core)
    (free : mustWait (b.cube x.cube) (some core) atom 32 = false) :
    execOwnershipRequest num s = .next ((b.modCube x.cube fun q => { q with owned := q.owned ++ [(atom, core, id)] }).performed x
      (.grant atom id p)) := by
  refine (requestEvent_arrived _ h rfl).trans (congrArg _ ?_)
  rw [h.body_eq, from_]
  exact if_neg (by simp [free])

theorem execOwnershipRelease_next (h : Arrived s num x (.ownRelease atom id) b) (from_ : x.src.core = some core) :
    execOwnershipRelease num s = .next ((disownOnce b x.cube atom core id).performed x (.ack 0 none)) := by
  refine (requestEvent_arrived _ h rfl).trans (congrArg _ ?_)
  rw [h.body_eq, from_]

theorem execMulticastData_next {d p : Nat} {bs : List Byte} {w : WriteResult} (h : Arrived s num x (.multicast d bs id p) b)
    (from_ : x.src.core = some core) (answer : homeWrite b x.cube (some core) d (bs.map some) 0 = w) :
    execMulticastData num s = .next (copyEnds b x d id p core w) := by
  refine (requestEvent_arrived _ h rfl).trans (congrArg _ ?_)
  rw [h.body_eq, from_, ← answer]
  rfl

end Owned

/-! ### Deposits (R95, R96) -/

section Deposited

variable {s b : State} {num : Nat} {x : Flight} {core : Nat} {d : Deposit} (h : Arrived s num x (.deposit core d) b)
include h

theorem execDeposit_performed (live : (b.getCore core).ctx.live = true) (here : (b.getCore core).lost = false) :
    execDeposit num s = .next
      ((b.modCore core fun k => { k with ctx := k.ctx.deposit d (meetsWrite b core d) }).performed x (.ack 1 none)) := by
  refine (requestEvent_arrived _ h rfl).trans (congrArg _ ?_)
  rw [h.body_eq]
  exact if_pos (by simp [live, here])

section Absent

variable (absent : (b.getCore core).ctx.live = false ∨ (b.getCore core).lost = true)
include absent

theorem execDeposit_holds (room : (b.getCore core).held.length < 4) :
    execDeposit num s = .next ((b.modCore core fun k => { k with held := k.held ++ [d] }).performed x (.ack 1 none)) := by
  refine (requestEvent_arrived _ h rfl).trans (congrArg _ ?_)
  rw [h.body_eq]
  exact (if_neg (absent_not_resident absent)).trans (if_pos room)

theorem execDeposit_refused (full : 4 ≤ (b.getCore core).held.length) : execDeposit num s = .next (refuseRoom b x) := by
  refine (requestEvent_arrived _ h rfl).trans (congrArg _ ?_)
  rw [h.body_eq]
  exact (if_neg (absent_not_resident absent)).trans (if_neg (by omega))

end Absent

end Deposited

/-! ### Messages (R361) -/

section Message

variable {s b : State} {num : Nat} {x : Flight} {core : Nat} {m : Msg} (h : Arrived s num x (.message core m) b)
include h

theorem execMessage_enters (room : msgRoom (b.getCore core) m = true) :
    execMessage num s = .next ((b.modCore core fun k => { k with msgs := k.msgs ++ [m] }).performed x (.ack 1 none)) := by
  refine (requestEvent_arrived _ h rfl).trans (congrArg _ ?_)
  rw [h.body_eq]
  exact if_pos room

theorem execMessage_refused (full : msgRoom (b.getCore core) m = false) : execMessage num s = .next (refuseRoom b x) := by
  refine (requestEvent_arrived _ h rfl).trans (congrArg _ ?_)
  rw [h.body_eq]
  exact if_neg (by simp [full])

end Message

end Sys2Proof.Safety
end

