-- ==== Sys2Proof/Proofs/HomeEvents.lean ====
section
/-! The proof of O54: a request is performed at its home and answered (R95, R222, R233, R262, R279, R281, R283, R300, R307, R313,
R357, R361). -/

namespace Sys2Proof.Safety

open Sys2Proof Sys2Proof.Machine

section Clauses

variable {s b : State} {num : Nat} {x : Flight}

theorem read_answers {a w : Nat} {d : LoadDest} (h : Arrived s num x (.read a w d) b)
    (free : mustWait (b.cube x.cube) none a (readLen w d) = false) (clean : b.poisoned a (readLen w d) = none) :
    ∃ t, exec (.read num false) s = .next t ∧ t.mem = s.mem ∧
      t.Answers num (.data (readReply w d (b.load a (readLen w d))) d x.ord none) ∧ t.Gone num :=
  ⟨_, execRead_loads h free clean, h.mem_eq, h.performed _ _⟩

theorem read_reports_poison {a w q : Nat} {d : LoadDest} (h : Arrived s num x (.read a w d) b)
    (free : mustWait (b.cube x.cube) none a (readLen w d) = false) (bad : b.poisoned a (readLen w d) = some q) :
    ∃ t, exec (.read num false) s = .next t ∧ t.mem = s.mem ∧ t.Gone num ∧
      t.Answers num (.data [] d x.ord (some (failedRead .memUncorrectable (BitVec.ofNat 64 q - BitVec.ofNat 64 a)))) :=
  ⟨_, execRead_poisoned h free bad, h.mem_eq, (h.performed _ _).symm⟩

theorem barrierRead_answers {n : Nat} (h : Arrived s num x (.barrierRead n) b) :
    ∃ t, exec (.read num false) s = .next t ∧ t.mem = s.mem ∧ t.Gone num ∧
      t.Answers num (.onceData x.ord ⟨0, ((b.group 0 n).map barrierHome).getD 0, none⟩) :=
  ⟨_, execRead_barrier h, h.mem_eq, (h.performed _ _).symm⟩

theorem copyRead_answers {a n id p : Nat} (h : Arrived s num x (.copyRead a n id p) b)
    (free : underRefresh (b.cube x.cube) a = false) (clean : b.poisoned a n = none) :
    ∃ t, exec (.read num false) s = .next t ∧ t.mem = s.mem ∧ t.Answers num (.copyData (b.load a n) id p none) ∧
      t.Gone num :=
  ⟨_, execRead_copies h free clean, h.mem_eq, h.performed _ _⟩

/-- Bytes stored at a home are read back, and no other byte changes (R233). -/
theorem stored_load (wf : Memory.wf s.mem = true) (mem : b.mem = s.mem) {t : State} {a : Nat} {bs : List Byte}
    (stored : t.mem = (b.store a bs).mem) : t.load a bs.length = bs ∧ SameMemoryBut s t a bs.length := by
  rw [State.store_mem, mem] at stored
  refine ⟨?_, fun y outside => ?_⟩
  · rw [State.load, stored, memGetList_memSetList wf]
  · rw [stored, memGet_memSetList wf, if_neg outside]

/-- A number stored at a home is read back, and no other byte changes. -/
theorem stored_number (wf : Memory.wf s.mem = true) (mem : b.mem = s.mem) {t : State} {a n v : Nat}
    (stored : t.mem = (b.store a (bytesOfNat n v)).mem) :
    natOfBytes (t.load a n) = v % 256 ^ n ∧ SameMemoryBut s t a n :=
  State.store_number v wf (by rw [stored, State.store_mem, State.store_mem, mem])

section Home

variable {a : Nat} (wf : Memory.wf s.mem = true) (clean : b.poison = [])
include wf clean

theorem write_stores {bs : List Byte} {o : Word} (h : Arrived s num x (.write a (bs.map some) 0 o) b)
    (outside : registered b x.cube a bs.length = false) (free : mustWait (b.cube x.cube) none a bs.length = false)
    (alone : hostedIn b x.cube a bs.length = false) :
    ∃ t, exec (.write num false) s = .next t ∧ t.load a bs.length = bs ∧ SameMemoryBut s t a bs.length ∧
      t.Answers num (.ack 1 none) ∧ t.Gone num := by
  obtain ⟨back, rest⟩ := stored_load wf h.mem_eq (t := (b.store a bs).performed x (.ack 1 none)) rfl
  exact ⟨_, execWrite_next h (homeWrite_stores rfl outside free alone clean), back, rest, h.performed _ _⟩

theorem atomic_updates {op : AtomicOp} {v : Word32} {o : Word} (h : Arrived s num x (.atomic op a v o) b)
    (outside : registered b x.cube a 4 = false) (free : mustWait (b.cube x.cube) none a 4 = false)
    (alone : hostedIn b x.cube a 4 = false) :
    ∃ t, exec (.atomic num) s = .next t ∧
      natOfBytes (t.load a 4) = atomicNew op 32 (natOfBytes (b.load a 4)) v.toNat 0 % 2 ^ 32 ∧
      SameMemoryBut s t a 4 ∧ t.Answers num (.ack 1 none) ∧ t.Gone num := by
  have done := homeWrite_stores (who := none) (bytesOfNat_length 4 (atomicNew op 32 (natOfBytes (b.load a 4)) v.toNat 0))
    outside free alone clean
  obtain ⟨value, rest⟩ := stored_number wf h.mem_eq (t := (State.store b a _).performed x (.ack 1 none)) rfl
  exact ⟨_, execAtomic_lane h done, value, rest, h.performed _ _⟩

theorem amo_updates {g : AmoArgs} {d : LoadDest} (h : Arrived s num x (.amo g a d) b)
    (outside : registered b x.cube a d.size = false) (free : mustWait (b.cube x.cube) none a d.size = false)
    (alone : hostedIn b x.cube a d.size = false) :
    let old := natOfBytes (b.load a d.size)
    ∃ t, exec (.atomic num) s = .next t ∧
      natOfBytes (t.load a d.size) = atomicNew g.op (8 * d.size) old g.v g.c % 2 ^ (8 * d.size) ∧
      SameMemoryBut s t a d.size ∧ t.Answers num (.data (bytesOfNat 8 old) d x.ord none) ∧ t.Gone num := by
  intro old
  have done := homeWrite_stores (who := none) (bytesOfNat_length d.size (atomicNew g.op (8 * d.size) old g.v g.c))
    outside free alone clean
  obtain ⟨value, rest⟩ := stored_number wf h.mem_eq
    (t := (State.store b a _).performed x (.data (bytesOfNat 8 old) d x.ord none)) rfl
  refine ⟨_, execAtomic_amo h done, ?_, rest, h.performed _ _⟩
  rw [value, Nat.pow_mul]

end Home

theorem write_refused {a : Nat} {bs : List Byte} {o : Word} (h : Arrived s num x (.write a (bs.map some) 0 o) b)
    (inTable : registered b x.cube a bs.length = true) :
    ∃ t, exec (.write num false) s = .next t ∧ t.mem = s.mem ∧ t.Answers num (.ack 1 (some o)) ∧ t.Gone num :=
  ⟨_, execWrite_next h (homeWrite_busy (by rwa [List.length_map])), (l1DropAt_mem ..).trans h.mem_eq, h.performed _ _⟩

theorem write_rolls_back {a : Nat} {bs : List (Option Byte)} {o : Word} (h : Arrived s num x (.write a bs 0 o) b)
    (outside : registered b x.cube a bs.length = false) (bad : (b.poisoned a bs.length).isSome = true)
    (free : mustWait (b.cube x.cube) none a bs.length = false) (alone : hostedIn b x.cube a bs.length = false)
    (part : ¬(bs.length = 32 ∧ bs.all Option.isSome = true)) :
    ∃ t, exec (.write num false) s = .next t ∧ t.mem = s.mem ∧ t.Answers num (.ack 1 none) ∧ t.Gone num ∧
      x.tid ∈ (t.cube b.myCube).rollbacks := by
  obtain ⟨answers, gone⟩ := h.performed ((l1DropAt b x.src.core a bs.length).modCube b.myCube fun q =>
    { q with rollbacks := q.rollbacks ++ [x.tid] }) (.ack 1 none)
  exact ⟨_, execWrite_next h (homeWrite_poisoned outside free alone bad part), (l1DropAt_mem ..).trans h.mem_eq, answers, gone,
    storeEnds_rollbacks ..⟩

theorem ownRequest_granted {atom id p core : Nat} (h : Arrived s num x (.ownRequest atom id p) b)
    (from_ : x.src.core = some core) (free : mustWait (b.cube x.cube) (some core) atom 32 = false) :
    ∃ t, exec (.ownershipRequest num) s = .next t ∧
      (t.cube x.cube).owned = (b.cube x.cube).owned ++ [(atom, core, id)] ∧ t.Answers num (.grant atom id p) ∧
      t.mem = s.mem := by
  obtain ⟨answers, -⟩ := h.performed (b.modCube x.cube fun q => { q with owned := q.owned ++ [(atom, core, id)] })
    (.grant atom id p)
  refine ⟨_, execOwnershipRequest_grants h from_ free, ?_, answers, h.mem_eq⟩
  rw [State.performed_cube, State.modCube_cube_same]

theorem ownRelease_answered {atom id core : Nat} (h : Arrived s num x (.ownRelease atom id) b)
    (from_ : x.src.core = some core) :
    ∃ t, exec (.ownershipRelease num) s = .next t ∧
      (t.cube x.cube).owned = (b.cube x.cube).owned.erase (atom, core, id) ∧ t.Answers num (.ack 0 none) ∧ t.mem = s.mem := by
  obtain ⟨answers, -⟩ := h.performed (disownOnce b x.cube atom core id) (.ack 0 none)
  exact ⟨_, execOwnershipRelease_next h from_, disownOnce_owned .., answers, h.mem_eq⟩

section Deposited

variable {core : Nat} {d : Deposit} (h : Arrived s num x (.deposit core d) b)
include h

theorem deposit_lands (small : d.reg < 4) (live : (b.getCore core).ctx.live = true) (here : (b.getCore core).lost = false) :
    let k := b.getCore core
    ∃ t, exec (.deposit num) s = .next t ∧
      (t.getCore core).ctx.regs.mb[d.reg]? = some d.val ∧ (t.getCore core).ctx.regs.mbstat.getLsbD d.reg = true ∧
      (k.ctx.regs.mbstat.getLsbD d.reg = true → (t.getCore core).ctx.regs.mbstat.getLsbD (4 + d.reg) = true) ∧
      (meetsWrite b core d = true → (t.getCore core).ctx.regs.mbstat.getLsbD (8 + d.reg) = true) ∧
      (∀ j, j ≠ d.reg → (t.getCore core).ctx.regs.mb[j]? = k.ctx.regs.mb[j]?) ∧ t.Answers num (.ack 1 none) := by
  intro k
  let r := k.ctx.regs
  let same := meetsWrite b core d
  obtain ⟨answers, -⟩ := h.performed (b.modCore core fun k => { k with ctx := k.ctx.deposit d same }) (.ack 1 none)
  refine ⟨_, execDeposit_performed h live here, ?_⟩
  rw [State.performed_getCore, State.modCore_getCore_same]
  exact ⟨r.deposit_value same small, r.deposit_full same small, r.deposit_overrun same small, r.deposit_collision same small,
    fun j other => r.deposit_other same other, answers⟩

section Absent

variable (absent : (b.getCore core).ctx.live = false ∨ (b.getCore core).lost = true)
include absent

theorem deposit_held (room : (b.getCore core).held.length < 4) :
    ∃ t, exec (.deposit num) s = .next t ∧ (t.getCore core).held = (b.getCore core).held ++ [d] ∧
      t.Answers num (.ack 1 none) := by
  obtain ⟨answers, -⟩ := h.performed (b.modCore core fun k => { k with held := k.held ++ [d] }) (.ack 1 none)
  refine ⟨_, execDeposit_holds h absent room, ?_, answers⟩
  rw [State.performed_getCore, State.modCore_getCore_same]

theorem deposit_refused (full : 4 ≤ (b.getCore core).held.length) :
    ∃ t, exec (.deposit num) s = .next t ∧ (t.getCore core).held = (b.getCore core).held ∧ t.Answers num (.nack none) :=
  ⟨_, execDeposit_refused h absent full, congrArg Core.held (refuseRoom_getCore ..), h.refused b⟩

end Absent

end Deposited

section Message

variable {core : Nat} {m : Msg} (h : Arrived s num x (.message core m) b)
include h

theorem message_enters (room : msgRoom (b.getCore core) m = true) :
    ∃ t, exec (.message num) s = .next t ∧ (t.getCore core).msgs = (b.getCore core).msgs ++ [m] ∧
      t.Answers num (.ack 1 none) ∧ t.mem = s.mem := by
  obtain ⟨answers, -⟩ := h.performed (b.modCore core fun k => { k with msgs := k.msgs ++ [m] }) (.ack 1 none)
  refine ⟨_, execMessage_enters h room, ?_, answers, (State.modCore_mem ..).trans h.mem_eq⟩
  rw [State.performed_getCore, State.modCore_getCore_same]

theorem message_refused (full : msgRoom (b.getCore core) m = false) :
    ∃ t, exec (.message num) s = .next t ∧ (t.getCore core).msgs = (b.getCore core).msgs ∧
      t.Answers num (.nack none) ∧ t.mem = s.mem :=
  ⟨_, execMessage_refused h full, congrArg Core.msgs (refuseRoom_getCore ..), h.refused b, h.mem_eq⟩

end Message

end Clauses

/-- Settles O54: a home runs the event's meaning on the state with the source's core at the front (`requestEvent_arrived`), and a
request that it performs leaves the network as its reply sets out (`Arrived.performed`). -/
theorem homeEvents : Obligations.HomeEvents := by
  unfold Obligations.HomeEvents
  intro s num x body b h
  refine ⟨?loads, ?waits, ?poisonedLoads, ?barriers, ?copySources, ?stores, ?refusedStores, ?poisonedStores, ?lanes, ?amos, ?once,
    ?requests, ?releases, ?deposits, ?messages, ?copies⟩
  case loads => rintro a w d rfl free clean; exact read_answers h free clean
  case waits => rintro a w d rfl held; exact execRead_waits h held
  case poisonedLoads => rintro a w d q rfl free bad; exact read_reports_poison h free bad
  case barriers => rintro n rfl; exact barrierRead_answers h
  case copySources => rintro a n id p rfl free clean; exact copyRead_answers h free clean
  case stores =>
    rintro a bs o rfl wf outside ⟨free, alone, clean⟩
    exact write_stores wf clean h outside free alone
  case refusedStores => rintro a bs o rfl inTable; exact write_refused h inTable
  case poisonedStores =>
    rintro a bs o rfl outside bad free alone part
    exact write_rolls_back h outside bad free alone part
  case lanes =>
    rintro op a v o rfl wf outside ⟨free, alone, clean⟩
    exact atomic_updates wf clean h outside free alone
  case amos =>
    rintro g a d rfl wf outside ⟨free, alone, clean⟩
    exact amo_updates wf clean h outside free alone
  case once =>
    rintro fn a g p rfl
    exact ⟨fun _ _ => execDecideOnceRequest_next h, execDecideOnceRequest_next h⟩
  case requests =>
    rintro atom id p core rfl from_
    exact ⟨execOwnershipRequest_waits h from_, ownRequest_granted h from_⟩
  case releases => rintro atom id core rfl from_; exact ownRelease_answered h from_
  case deposits =>
    rintro core d rfl small
    exact ⟨deposit_lands h small, deposit_held h, deposit_refused h⟩
  case messages => rintro core m rfl; exact ⟨message_enters h, message_refused h⟩
  case copies =>
    rintro d bs id p core rfl from_
    exact ⟨fun _ => execMulticastData_next h from_, execMulticastData_next h from_, execMulticastData_next h from_,
      execMulticastData_next h from_⟩

end Sys2Proof.Safety
end

