-- ==== Sys2Proof/Proofs/AccumulateWindow.lean ====
section
/-! SUPPORT and the proof of O30: what a product of tiles leaves in acc (R128, R129, R201). -/

namespace Sys2Proof.Machine

open Sys2Proof Sys2Proof.Safety

/-! ### Fields of a number -/

theorem testBit_getBits (x lo n k : Nat) : (getBits x lo n).testBit k = (decide (k < n) && x.testBit (lo + k)) := by
  rw [getBits, Nat.testBit_mod_two_pow, Nat.testBit_div_two_pow, Nat.add_comm]

/-- `putBits` as the parts above, in and below the field. -/
theorem putBits_eq (x lo n v : Nat) :
    putBits x lo n v = 2 ^ lo * (2 ^ n * (x / 2 ^ lo / 2 ^ n) + v % 2 ^ n) + x % 2 ^ lo := by
  have whole : x = 2 ^ lo * (2 ^ n * (x / 2 ^ lo / 2 ^ n)) + x / 2 ^ lo % 2 ^ n * 2 ^ lo + x % 2 ^ lo := by
    rw [Nat.mul_comm _ (2 ^ lo), ← Nat.mul_add, Nat.div_add_mod, Nat.div_add_mod]
  rw [putBits, Nat.mul_add, Nat.mul_comm (v % 2 ^ n)]
  omega

theorem testBit_putBits (x lo n v k : Nat) :
    (putBits x lo n v).testBit k = if lo ≤ k ∧ k < lo + n then v.testBit (k - lo) else x.testBit k := by
  rw [putBits_eq, Nat.testBit_two_pow_mul_add _ (Nat.mod_lt _ (Nat.two_pow_pos lo))]
  by_cases below : k < lo
  · rw [if_pos below, if_neg (by omega), Nat.testBit_mod_two_pow, decide_eq_true below, Bool.true_and]
  · rw [if_neg below, Nat.testBit_two_pow_mul_add _ (Nat.mod_lt _ (Nat.two_pow_pos n))]
    by_cases within : k - lo < n
    · rw [if_pos within, if_pos (by omega), Nat.testBit_mod_two_pow, decide_eq_true within, Bool.true_and]
    · rw [if_neg within, if_neg (by omega), Nat.testBit_div_two_pow, Nat.testBit_div_two_pow]
      congr 1
      omega

theorem getBits_putBits_same (x lo n v : Nat) : getBits (putBits x lo n v) lo n = v % 2 ^ n := by
  refine Nat.eq_of_testBit_eq fun k => ?_
  rw [testBit_getBits, testBit_putBits, Nat.testBit_mod_two_pow]
  by_cases inside : k < n
  · rw [if_pos (by omega), Nat.add_sub_cancel_left]
  · rw [decide_eq_false inside, Bool.false_and, Bool.false_and]

theorem getBits_putBits_apart {lo n lo' m : Nat} (x v : Nat) (apart : lo + n ≤ lo' ∨ lo' + m ≤ lo) :
    getBits (putBits x lo n v) lo' m = getBits x lo' m := by
  refine Nat.eq_of_testBit_eq fun k => ?_
  rw [testBit_getBits, testBit_getBits, testBit_putBits]
  by_cases inside : k < m
  · rw [if_neg (by omega)]
  · rw [decide_eq_false inside, Bool.false_and, Bool.false_and]

/-- A field of a field. -/
theorem getBits_getBits {n lo' m : Nat} (x lo : Nat) (inside : lo' + m ≤ n) :
    getBits (getBits x lo n) lo' m = getBits x (lo + lo') m := by
  refine Nat.eq_of_testBit_eq fun k => ?_
  rw [testBit_getBits, testBit_getBits, testBit_getBits, Nat.add_assoc]
  by_cases h : k < m
  · rw [decide_eq_true (show lo' + k < n by omega), Bool.true_and]
  · rw [decide_eq_false h, Bool.false_and, Bool.false_and]

/-- A field below `n` of a number kept modulo `2 ^ n`. -/
theorem getBits_mod {n lo m : Nat} (x : Nat) (inside : lo + m ≤ n) : getBits (x % 2 ^ n) lo m = getBits x lo m := by
  have whole : x % 2 ^ n = getBits x 0 n := by rw [getBits, Nat.pow_zero, Nat.div_one]
  rw [whole, getBits_getBits x 0 inside, Nat.zero_add]

theorem getBits_ofNat {w lo m : Nat} (x : Nat) (inside : lo + m ≤ w) :
    getBits (BitVec.ofNat w x).toNat lo m = getBits x lo m := by
  rw [BitVec.toNat_ofNat, getBits_mod x inside]

theorem toNat_extractLsb'_eq_getBits {w : Nat} (x : BitVec w) (lo n : Nat) :
    (x.extractLsb' lo n).toNat = getBits x.toNat lo n := by
  rw [BitVec.extractLsb'_toNat, Nat.shiftRight_eq_div_pow, getBits]

theorem elemNat_eq_getBits (w x k : Nat) : elemNat w x k = getBits x (w * k) w := rfl

/-- An element of `w` bits replaced: it alone changes. -/
theorem elemNat_putBits (w x c v j : Nat) :
    elemNat w (putBits x (w * c) w v) j = if j = c then v % 2 ^ w else elemNat w x j := by
  rw [elemNat_eq_getBits, elemNat_eq_getBits]
  split
  next same => rw [same, getBits_putBits_same]
  next other =>
    apply getBits_putBits_apart
    rw [← Nat.mul_succ, ← Nat.mul_succ]
    rcases Nat.lt_or_gt_of_ne other with below | above
    · exact .inr (Nat.mul_le_mul_left w below)
    · exact .inl (Nat.mul_le_mul_left w above)

/-! ### Elements and rows of acc (R94) -/

theorem accRow_eq_getBits (acc : BitVec 983040) (i : Nat) : accRow acc i = getBits acc.toNat (2560 * i) 2560 :=
  toNat_extractLsb'_eq_getBits acc _ _

theorem accElem_eq_getBits (acc : BitVec 983040) (i j : Nat) :
    accElem acc i j = getBits acc.toNat (2560 * i + 32 * j) 32 :=
  toNat_extractLsb'_eq_getBits acc _ _

theorem elemNat_accRow (acc : BitVec 983040) (i : Nat) {j : Nat} (hj : j < 80) :
    elemNat 32 (accRow acc i) j = accElem acc i j := by
  have inside : 32 * j + 32 ≤ 2560 := by omega
  rw [elemNat_eq_getBits, accRow_eq_getBits, accElem_eq_getBits, getBits_getBits _ _ inside]

/-- A row of acc replaced: its elements are the new row's, and every other row stands. -/
theorem accElem_setAccRow (acc : BitVec 983040) (r row : Nat) {i j : Nat} (hi : i < 384) (hj : j < 80) :
    accElem (setAccRow acc r row) i j = if i = r then elemNat 32 row j else accElem acc i j := by
  have inAcc : 2560 * i + 32 * j + 32 ≤ 983040 := by omega
  have inRow : 32 * j + 32 ≤ 2560 := by omega
  rw [accElem_eq_getBits, setAccRow, getBits_ofNat _ inAcc]
  split
  next same =>
    rw [same, ← getBits_getBits _ _ inRow, getBits_putBits_same, getBits_mod _ inRow, elemNat_eq_getBits]
  next other => rw [getBits_putBits_apart _ _ (by omega), accElem_eq_getBits]

/-! ### A window updated place by place -/

/-- A list is put into a store, its entry `k` at place `base + k`. Where putting one entry updates what place `i` reads as
exactly if the entry's place is `i`, putting all of them updates it exactly if `i` lies in the list's window, and by the
entry of that place. -/
theorem foldl_zipIdx_window {σ α β : Type} {read : σ → β} {put : σ → α × Nat → σ} {upd : α → β → β} {base i : Nat}
    (one : ∀ s x k, read (put s (x, k)) = if i = base + k then upd x (read s) else read s)
    (d : α) (l : List α) (m : Nat) (s : σ) :
    read ((l.zipIdx m).foldl put s) =
      if base + m ≤ i ∧ i < base + m + l.length then upd (l.getD (i - (base + m)) d) (read s) else read s := by
  induction l generalizing m s with
  | nil => rw [if_neg (by simp)]; rfl
  | cons x l ih =>
    rw [List.zipIdx_cons, List.foldl_cons, ih, one, List.length_cons]
    by_cases first : i = base + m
    · rw [if_neg (by omega), if_pos first, if_pos (by omega), first, Nat.sub_self, List.getD_cons_zero]
    · rw [if_neg first]
      by_cases later : base + (m + 1) ≤ i ∧ i < base + (m + 1) + l.length
      · have shift : i - (base + m) = i - (base + (m + 1)) + 1 := by omega
        rw [if_pos later, if_pos (by omega), shift, List.getD_cons_succ]
      · rw [if_neg later, if_neg (by omega)]

/-! ### Products (R128, R129, R201) -/

/-- A row of acc with a row of A, in blocks `xs`, multiplied into it: element `col0 + k` by row `k` of B, in blocks. -/
def productRow (sc : List FVal) (xs : List (List FVal)) (bs : List (List (List FVal))) (col0 row : Nat) : Nat :=
  bs.zipIdx.foldl (fun row y =>
    putBits row (32 * (col0 + y.2)) 32 (updateElem (sc.zip (xs.zip y.1)) (elemNat 32 row (col0 + y.2)))) row

theorem elemNat_productRow (sc : List FVal) (xs : List (List FVal)) (bs : List (List (List FVal))) (d : List (List FVal))
    (col0 row j : Nat) :
    elemNat 32 (productRow sc xs bs col0 row) j =
      if col0 ≤ j ∧ j < col0 + bs.length then
        updateElem (sc.zip (xs.zip (bs.getD (j - col0) d))) (elemNat 32 row j) % 2 ^ 32
      else elemNat 32 row j := by
  refine foldl_zipIdx_window (upd := fun ys c => updateElem (sc.zip (xs.zip ys)) c % 2 ^ 32) (base := col0)
    (read := fun row => elemNat 32 row j) (fun row ys k => ?_) d bs 0 row
  rw [elemNat_putBits]
  split
  next here => rw [here]
  next => rfl

/-- The scales of a product's blocks of depth (R128). -/
def blockScales (nb : Nat) (sa sb : List FVal) : List FVal :=
  (List.range nb).map fun k => (sa.getD k (.fin false 1 0)).mul (sb.getD k (.fin false 1 0))

theorem mulInto_eq (acc : BitVec 983040) (row0 col0 depth : Nat) (a b : List (List FVal)) (sa sb : List FVal) :
    mulInto acc row0 col0 depth a b sa sb =
      a.zipIdx.foldl (fun acc r => setAccRow acc (row0 + r.2)
        (productRow (blockScales (blocksOf depth) sa sb) (blocks16 (blocksOf depth) r.1)
          (b.map (blocks16 (blocksOf depth))) col0 (accRow acc (row0 + r.2)))) acc := rfl

/-- An element of acc after a product: updated where the window covers it, and else as before. -/
theorem accElem_mulInto (acc : BitVec 983040) (row0 col0 depth : Nat) (a b : List (List FVal)) (sa sb : List FVal)
    {i j : Nat} (hi : i < 384) (hj : j < 80) :
    accElem (mulInto acc row0 col0 depth a b sa sb) i j =
      if row0 ≤ i ∧ i < row0 + a.length then
        if col0 ≤ j ∧ j < col0 + b.length then
          updateElem ((blockScales (blocksOf depth) sa sb).zip
            ((blocks16 (blocksOf depth) (a.getD (i - row0) [])).zip (blocks16 (blocksOf depth) (b.getD (j - col0) []))))
            (accElem acc i j) % 2 ^ 32
        else accElem acc i j
      else accElem acc i j := by
  rw [mulInto_eq]
  refine foldl_zipIdx_window (read := fun acc => accElem acc i j) (base := row0)
    (upd := fun x c => if col0 ≤ j ∧ j < col0 + b.length then
        updateElem ((blockScales (blocksOf depth) sa sb).zip
          ((blocks16 (blocksOf depth) x).zip (blocks16 (blocksOf depth) (b.getD (j - col0) [])))) c % 2 ^ 32
      else c) (fun acc x k => ?_) [] a 0 acc
  rw [accElem_setAccRow _ _ _ hi hj]
  split
  next here =>
    rw [← here, elemNat_productRow _ _ _ (blocks16 (blocksOf depth) []), List.length_map, List.getD_map,
      elemNat_accRow acc i hj]
  next => rfl

end Sys2Proof.Machine

namespace Sys2Proof.Safety

open Sys2Proof Sys2Proof.Machine

/-- Settles O30: row by row of A, and in each row by row of B, one element is updated and every other stands
(`foldl_zipIdx_window`). -/
theorem accumulateWindow : Obligations.AccumulateWindow := by
  unfold Obligations.AccumulateWindow
  intro acc row0 col0 depth a b sa sb i j hi hj _ _ nb sc
  rw [accElem_mulInto _ _ _ _ _ _ _ _ hi hj, ← ite_and]
  simp only [and_assoc]
  rfl

end Sys2Proof.Safety
end

