-- ==== Sys2Proof/Proofs/ScalarValues.lean ====
section
/-! SUPPORT. The results of the scalar instructions as the statements write them: clamps, shifts, quotients, bit counts and
packed elements (R109, R110, R135-R141). -/

namespace Sys2Proof.Machine

open Sys2Proof

/-! ### Clamps and choices (R109, R135) -/

theorem satS_eq (w : Nat) (n : Int) : satS w n = max (-2 ^ (w - 1)) (min (2 ^ (w - 1) - 1) n) := by
  have pos : (0 : Int) < 2 ^ (w - 1) := by positivity
  unfold satS
  generalize (2 ^ (w - 1) : Int) = m at pos ⊢
  split
  · omega
  · split <;> omega

theorem ite_lt_eq_min (a b : Int) : (if b < a then b else a) = min a b := by
  split <;> omega

theorem ite_lt_eq_max (a b : Int) : (if a < b then b else a) = max a b := by
  split <;> omega

/-- Of two branches the second stands first under the opposite order. -/
theorem ite_lt_eq_ite_le {α β : Type} [LinearOrder α] (a b : α) (x y : β) :
    (if b < a then y else x) = if a ≤ b then x else y := by
  simp only [← not_le, ite_not]

/-! ### Shifts (R137) -/

theorem shiftLeft_eq_ofNat (x : Word) (k : Nat) : x <<< k = BitVec.ofNat 64 (x.toNat * 2 ^ k) := by
  apply BitVec.eq_of_toNat_eq
  rw [BitVec.toNat_shiftLeft, BitVec.toNat_ofNat, Nat.shiftLeft_eq]

theorem ushiftRight_eq_ofNat (x : Word) (k : Nat) : x >>> k = BitVec.ofNat 64 (x.toNat / 2 ^ k) := by
  apply BitVec.eq_of_toNat_eq
  rw [BitVec.toNat_ushiftRight, BitVec.toNat_ofNat, Nat.shiftRight_eq_div_pow,
    Nat.mod_eq_of_lt (Nat.lt_of_le_of_lt (Nat.div_le_self ..) x.isLt)]

theorem sshiftRight_eq_ofInt (x : Word) (k : Nat) : x.sshiftRight k = BitVec.ofInt 64 (x.toInt / 2 ^ k) := by
  rw [BitVec.sshiftRight, Int.shiftRight_eq_div_pow]
  push_cast
  rfl

theorem shiftAmt_lt (y : Word) : shiftAmt y < 64 := Nat.mod_lt _ (by decide)

theorem rotateLeft_shiftAmt (x y : Word) :
    x.rotateLeft (shiftAmt y) = x <<< shiftAmt y ||| x >>> (64 - shiftAmt y) :=
  BitVec.rotateLeft_eq_rotateLeftAux_of_lt (shiftAmt_lt y)

/-! ### Products and quotients (R136, R110) -/

theorem mul_eq_ofNat (x y : Word) : x * y = BitVec.ofNat 64 (x.toNat * y.toNat) := by
  apply BitVec.eq_of_toNat_eq
  rw [BitVec.toNat_mul, BitVec.toNat_ofNat]

theorem highHalf_eq (p : Int) : (BitVec.ofInt 128 p).extractLsb' 64 64 = BitVec.ofInt 64 (p / 2 ^ 64) := by
  apply BitVec.eq_of_toNat_eq
  rw [BitVec.extractLsb'_toNat, Nat.shiftRight_eq_div_pow, BitVec.toNat_ofInt, BitVec.toNat_ofInt]
  push_cast
  omega

theorem divS_eq (x y : Word) : divS x y = if y = 0 then BitVec.allOnes 64 else x.sdiv y := by
  have quotient : BitVec.ofInt 64 (x.toInt.tdiv y.toInt) = x.sdiv y := by
    apply BitVec.eq_of_toInt_eq
    rw [BitVec.toInt_sdiv, BitVec.toInt_ofInt]
  rw [divS, quotient]

theorem remS_eq (x y : Word) : remS x y = if y = 0 then x else x.srem y := by
  rw [remS, ← BitVec.toInt_srem, BitVec.ofInt_toInt]

theorem divU_eq (x y : Word) : divU x y = if y = 0 then BitVec.allOnes 64 else x / y := by
  rw [divU, BitVec.udiv_def]

theorem remU_eq (x y : Word) : remU x y = if y = 0 then x else x % y := by
  rw [remU, BitVec.umod_def]

/-- R110: the minimum divided by -1 is the minimum. -/
theorem divS_intMin : divS (BitVec.intMin 64) (BitVec.allOnes 64) = BitVec.intMin 64 := by decide

/-- R110: its remainder is 0. -/
theorem remS_intMin : remS (BitVec.intMin 64) (BitVec.allOnes 64) = 0 := by decide

/-! ### Bit counts (R138) -/

theorem clzFrom_le (x : Word) (k : Nat) : clzFrom x k ≤ k := by
  induction k with
  | zero => exact Nat.le_refl 0
  | succ k ih =>
    unfold clzFrom
    split <;> omega

/-- Below bit `k` the bits that the count passes are clear. -/
theorem clzFrom_clear (x : Word) (k : Nat) {j : Nat} (low : k - clzFrom x k ≤ j) (high : j < k) : x.getLsbD j = false := by
  induction k with
  | zero => omega
  | succ k ih =>
    unfold clzFrom at low
    split at low
    · omega
    · next clear =>
      rcases Nat.lt_or_ge j k with below | top
      · exact ih (by omega) below
      · obtain rfl : j = k := by omega
        exact Bool.eq_false_iff.mpr clear

/-- The bit at which the count ends is set. -/
theorem clzFrom_set (x : Word) (k : Nat) (h : clzFrom x k < k) : x.getLsbD (k - 1 - clzFrom x k) = true := by
  induction k with
  | zero => omega
  | succ k ih =>
    unfold clzFrom at h ⊢
    split
    · assumption
    · next clear =>
      rw [if_neg clear] at h
      have one : k + 1 - 1 - (1 + clzFrom x k) = k - 1 - clzFrom x k := by omega
      exact one ▸ ih (by omega)

theorem toNat_lt_of_clz (x : Word) : x.toNat < 2 ^ (64 - clzFrom x 64) := by
  refine Nat.lt_pow_two_of_testBit _ fun j hj => ?_
  rcases Nat.lt_or_ge j 64 with inside | above
  · exact clzFrom_clear x 64 hj inside
  · exact BitVec.getLsbD_of_ge x j above

theorem ctzFrom_le (x : Word) (k : Nat) : ctzFrom x k ≤ k := by
  induction k with
  | zero => exact Nat.le_refl 0
  | succ k ih =>
    unfold ctzFrom
    split <;> omega

/-- From bit 64 - `k` on the bits that the count passes are clear. -/
theorem ctzFrom_clear (x : Word) {k : Nat} (hk : k ≤ 64) {j : Nat} (low : 64 - k ≤ j) (high : j < 64 - k + ctzFrom x k) :
    x.getLsbD j = false := by
  induction k with
  | zero => exact absurd high (by unfold ctzFrom; omega)
  | succ k ih =>
    unfold ctzFrom at high
    split at high
    · omega
    · next clear =>
      rcases Nat.lt_or_ge j (64 - k) with first | later
      · obtain rfl : j = 63 - k := by omega
        exact Bool.eq_false_iff.mpr clear
      · exact ih (by omega) later (by omega)

/-- The bit at which the count ends is set. -/
theorem ctzFrom_set (x : Word) {k : Nat} (hk : k ≤ 64) (h : ctzFrom x k < k) : x.getLsbD (64 - k + ctzFrom x k) = true := by
  induction k with
  | zero => omega
  | succ k ih =>
    have first : 64 - (k + 1) = 63 - k := by omega
    unfold ctzFrom at h ⊢
    split
    · next set => rwa [first]
    · next clear =>
      rw [if_neg clear] at h
      have later : 64 - (k + 1) + (1 + ctzFrom x k) = 64 - k + ctzFrom x k := by omega
      exact later ▸ ih (by omega) (by omega)

theorem popcount_eq (x : Word) : popcount x = (List.range 64).countP fun k => x.getLsbD k := by
  unfold popcount
  induction List.range 64 with
  | nil => rfl
  | cons k l ih => rw [List.map_cons, List.sum_cons, ih, List.countP_cons, Nat.add_comm]

/-! ### Packed elements (R140) -/

theorem packWidth_cases (fmt : BitVec 2) :
    packWidth fmt = 8 ∨ packWidth fmt = 16 ∨ packWidth fmt = 32 ∨ packWidth fmt = 64 := by
  revert fmt
  decide

/-- An element of a packed result is the operation's value of the elements, modulo the element's width. -/
theorem elemNat_packOp {w : Nat} (fits : w * (64 / w) = 64) (op : Int → Int → Int) (x y : Word) {e : Nat} (he : e < 64 / w) :
    (elemNat w (packOp w op x y).toNat e : Int) =
      op (signedElem w (elemNat w x.toNat e)) (signedElem w (elemNat w y.toNat e)) % 2 ^ w := by
  have pos : (0 : Int) < 2 ^ w := by positivity
  let elem := fun e => (op (signedElem w (elemNat w x.toNat e)) (signedElem w (elemNat w y.toNat e)) % (2 : Int) ^ w).toNat
  have inWord : packNat w ((List.range (64 / w)).map elem) < 2 ^ 64 := by
    have := packNat_lt w ((List.range (64 / w)).map elem)
    rwa [List.length_map, List.length_range, fits] at this
  have value : elemNat w (packOp w op x y).toNat e = elem e % 2 ^ w := by
    rw [packOp, BitVec.toNat_ofNat, Nat.mod_eq_of_lt inWord, elemNat_packNat]
    simp only [List.getD_eq_getElem?_getD, List.getElem?_map, List.getElem?_range he, Option.map_some, Option.getD_some]
  rw [value]
  have nonneg := Int.emod_nonneg (op (signedElem w (elemNat w x.toNat e)) (signedElem w (elemNat w y.toNat e))) pos.ne'
  push_cast [elem, Int.toNat_of_nonneg nonneg]
  exact Int.emod_emod_of_dvd _ (dvd_refl _)

end Sys2Proof.Machine
end

