-- ==== Sys2Proof/Proofs/ScalarResults.lean ====
section
/-! The proofs of O1, O2, O3 and O4: how the scalar instructions and the immediate forms complete (R135-R141). -/

namespace Sys2Proof.Safety

open Sys2Proof Sys2Proof.Machine

theorem bit01_decide (P : Prop) [Decidable P] : bit01 (decide P) = if P then 1 else 0 := by
  simp only [bit01, decide_eq_true_eq]

section Forms

variable {i : Instr} {f : FmtA} {s : State} {lat : Nat} {x y r : Word}

theorem scalarTwo_ok {ext : Bool} (op : Word → Word → Word) (dst : DstOk f.d) (hx : readScalar s 0 f.a = .ok x)
    (hy : readB s 1 f ext = .ok y) : scalarTwo lat ext op f s = .ok (writeScalar lat f.d (op x y) s) := by
  rw [scalarTwo, needDst_ok dst, hx, scalarB, hy]
  rfl

/-- An instruction of two sources completes with the value of its operation. -/
theorem completes_of_scalarTwo {ext : Bool} {op : Word → Word → Word} (dst : DstOk f.d) (hx : readScalar s 0 f.a = .ok x)
    (hy : readB s 1 f ext = .ok y) (meaning : exec i s = issueA f (scalarTwo lat ext op f) s) (value : op x y = r) :
    Completes i s (wordsA f) f.s.toNat (writeScalar lat f.d r s) := by
  exact meaning.trans (issue_ok (value ▸ scalarTwo_ok op dst hx hy))

/-- An instruction of one source completes with the value of its operation. -/
theorem completes_of_scalarOne {op : Word → Word} (dst : DstOk f.d) (unused : f.b.toNat = 48)
    (hx : readScalar s 0 f.a = .ok x) (meaning : exec i s = issueA f (scalarOne lat op f) s) (value : op x = r) :
    Completes i s (wordsA f) f.s.toNat (writeScalar lat f.d r s) := by
  refine meaning.trans (issue_ok ?_)
  rw [scalarOne, needDst_ok dst, needUnused_ok unused, hx, ← value]
  rfl

/-- SEL completes with the choice that scalar age a1 makes. -/
theorem completes_sel {q : Word} (dst : DstOk f.d) (hx : readScalar s 0 f.a = .ok x) (hy : readB s 1 f true = .ok y)
    (hq : readScalar s 2 32 = .ok q) : Completes (.sel f) s (wordsA f) f.s.toNat (writeScalar 1 f.d (if q = 0 then y else x) s) := by
  refine issue_ok (body := selBody f) ?_
  rw [selBody, readA1, hq, ok_bind]
  exact scalarTwo_ok _ dst hx hy

/-- A packed instruction completes with a word whose elements are the operation's values. -/
theorem completes_of_packed {op : Nat → Int → Int → Int} {op' : Int → Int → Int} (dst : DstOk f.d)
    (hx : readScalar s 0 f.a = .ok x) (hy : readB s 1 f true = .ok y)
    (meaning : exec i s = issueA f (packed lat op f) s)
    (value : ∀ a b, op (packWidth s.regs.fmt) a b = op' a b) :
    ∃ r, Completes i s (wordsA f) f.s.toNat (writeScalar lat f.d r s) ∧
      ∀ e, e < 64 / packWidth s.regs.fmt → (elemNat (packWidth s.regs.fmt) r.toNat e : Int) =
        op' (signedElem (packWidth s.regs.fmt) (elemNat (packWidth s.regs.fmt) x.toNat e))
          (signedElem (packWidth s.regs.fmt) (elemNat (packWidth s.regs.fmt) y.toNat e)) % 2 ^ packWidth s.regs.fmt := by
  have fits : packWidth s.regs.fmt * (64 / packWidth s.regs.fmt) = 64 := by
    rcases packWidth_cases s.regs.fmt with h | h | h | h <;> rw [h]
  refine ⟨_, meaning.trans (issue_ok (body := packed lat op f) (scalarTwo_ok _ dst hx hy)), fun e he => ?_⟩
  rw [elemNat_packOp fits _ x y he, value]

end Forms

section Immediates

variable {i : Instr} {f : FmtL} {s : State} {d v r : Word}

theorem readD_of_value (dst : DstOk f.d) (hd : DValue f s d) : readD f s = .ok d := by
  unfold readD
  rw [needDst_ok dst, ok_bind]
  rcases hd with ⟨register, hd⟩ | ⟨queue, rfl⟩
  · rw [if_pos register, hd]
  · rw [if_neg (by omega)]

/-- An immediate form completes with the value of its operation. -/
theorem completes_of_immForm {op : Word → Word → Word} (dst : DstOk f.d) (hd : DValue f s d)
    (meaning : exec i s = issueL f (immForm v op f) s) (value : op d v = r) :
    Completes i s (1 + f.p.length) f.s.toNat (writeScalar 1 f.d r s) := by
  refine meaning.trans (issue_ok ?_)
  rw [immForm, readD_of_value dst hd, ← value]
  rfl

end Immediates

/-- Settles O1: each instruction is one operation on its sources (`completes_of_scalarTwo`, `completes_of_scalarOne`), whose
value is that of its table. -/
theorem scalarResults : Obligations.ScalarResults := by
  unfold Obligations.ScalarResults
  refine ⟨⟨fun f s x y z dst hx hy hz => ?int, fun f s x y dst hx hy => ?log⟩, fun f s x y z dst hx hy hz => ?cmp⟩
  case int =>
    have signed {i op r} := completes_of_scalarTwo (i := i) (lat := 1) (op := op) (r := r) dst hx hy
    have unsigned {i op r} := completes_of_scalarTwo (i := i) (lat := 1) (op := op) (r := r) dst hx hz
    exact ⟨signed rfl rfl, signed rfl rfl, signed rfl (congrArg _ (satS_eq 64 _)), signed rfl (congrArg _ (satS_eq 64 _)),
      signed rfl (ite_lt_eq_ite_le ..), signed rfl (ite_lt_eq_ite_le ..), unsigned rfl (ite_lt_eq_ite_le ..),
      unsigned rfl (ite_lt_eq_ite_le ..)⟩
  case log =>
    have two {i op r} := completes_of_scalarTwo (i := i) (lat := 1) (op := op) (r := r) dst hx hy
    exact ⟨two rfl rfl, two rfl rfl, two rfl rfl, two rfl rfl, two rfl (shiftLeft_eq_ofNat ..), two rfl (ushiftRight_eq_ofNat ..),
      two rfl (sshiftRight_eq_ofInt ..), two rfl (rotateLeft_shiftAmt ..)⟩
  case cmp =>
    have signed {i op r} := completes_of_scalarTwo (i := i) (lat := 1) (op := op) (r := r) dst hx hy
    have unsigned {i op r} := completes_of_scalarTwo (i := i) (lat := 1) (op := op) (r := r) dst hx hz
    refine ⟨signed rfl ?_, signed rfl ?_, signed rfl (bit01_decide _), unsigned rfl (bit01_decide _),
      fun q hq => completes_sel dst hx hy hq, fun unused => ?_⟩
    · exact bit01_decide (x = y)
    · simp only [bit01, bne_iff_ne, ne_eq, ite_not]
    · have one {i op r} := completes_of_scalarOne (i := i) (lat := 1) (op := op) (r := r) dst unused hx
      refine ⟨⟨_, clzFrom_le x 64, one rfl rfl, toNat_lt_of_clz x, clzFrom_set x 64⟩,
        ⟨_, ctzFrom_le x 64, one rfl rfl, fun k hk => ?_, fun some => ?_⟩, one rfl (congrArg _ (popcount_eq x))⟩
      · exact ctzFrom_clear x (Nat.le_refl 64) (by omega) (by have := ctzFrom_le x 64; omega)
      · simpa using ctzFrom_set x (Nat.le_refl 64) some

/-- Settles O2: products, quotients and remainders are those of the library's words; the corner of R110 is evaluated. -/
theorem muldResults : Obligations.MuldResults := by
  unfold Obligations.MuldResults
  intro f s x y z dst hx hy hz
  have signed {i lat op r} := completes_of_scalarTwo (i := i) (lat := lat) (op := op) (r := r) dst hx hy
  have unsigned {i lat op r} := completes_of_scalarTwo (i := i) (lat := lat) (op := op) (r := r) dst hx hz
  refine ⟨signed rfl (mul_eq_ofNat ..), signed rfl (highHalf_eq _), unsigned rfl rfl, signed rfl (divS_eq ..),
    unsigned rfl (divU_eq ..), signed rfl (remS_eq ..), unsigned rfl (remU_eq ..), ?_⟩
  rintro rfl rfl
  exact ⟨signed rfl divS_intMin, signed rfl remS_intMin⟩

/-- Settles O3: the elements of a packed word are read back one by one (`elemNat_packOp`). -/
theorem packResults : Obligations.PackResults := by
  unfold Obligations.PackResults
  intro f s x y dst hx hy w el sg clamp done
  have pack {i lat} {op' : Int → Int → Int} (op : Nat → Int → Int → Int) (meaning : exec i s = issueA f (packed lat op f) s)
      (value : ∀ a b, op w a b = op' a b) : done i lat op' := completes_of_packed dst hx hy meaning value
  exact ⟨pack (fun _ a b => a + b) rfl fun _ _ => rfl, pack (fun _ a b => a - b) rfl fun _ _ => rfl,
    pack (fun w a b => satS w (a + b)) rfl fun _ _ => satS_eq .., pack (fun w a b => satS w (a - b)) rfl fun _ _ => satS_eq ..,
    pack (fun _ a b => a * b) rfl fun _ _ => rfl, pack (fun _ a b => if b < a then b else a) rfl ite_lt_eq_min,
    pack (fun _ a b => if a < b then b else a) rfl ite_lt_eq_max, pack (fun _ a b => (a + b + 1) / 2) rfl fun _ _ => rfl⟩

/-- Settles O4: each immediate form is one operation on d and the immediate (`completes_of_immForm`); LI and LIPC read no
register. -/
theorem immediateResults : Obligations.ImmediateResults := by
  unfold Obligations.ImmediateResults
  intro f s dst
  refine ⟨issue_ok (body := liBody f) ?_, issue_ok (body := lipcBody f) ?_, fun d hd => ?_⟩
  · rw [liBody, needDst_ok dst]
    rfl
  · rw [lipcBody, needDst_ok dst]
    rfl
  · have form {i v op r} := completes_of_immForm (i := i) (v := v) (op := op) (r := r) dst hd
    exact ⟨form rfl rfl, form rfl rfl, form rfl rfl, form rfl rfl, form rfl (shiftLeft_eq_ofNat ..),
      form rfl (ushiftRight_eq_ofNat ..), form rfl (sshiftRight_eq_ofInt ..), form rfl (bit01_decide _), form rfl (bit01_decide _),
      form rfl (bit01_decide (d = immS f))⟩

end Sys2Proof.Safety
end

