-- ==== Sys2Proof/Proofs/Branches.lean ====
section
/-! SUPPORT and the proof of O13: branches and their conditions (R45, R143). -/

namespace Sys2Proof.Machine

open Sys2Proof

/-! ### Branches -/

theorem needUnused_trap {s : State} {d : BitVec 6} (h : d.toNat ≠ 48) : needUnused s d = trapHere s .illegalOperand := by
  unfold needUnused
  rw [if_neg h]

section Branch

variable {f : FmtB} {s : State} {k : BitVec 3} {x : Word}

theorem condOf_ok (assigned : k ≠ 7) (hx : readScalar s 0 f.c = .ok x) : condOf k f s = .ok (condHolds k x) := by
  rw [condOf, if_neg assigned, hx]
  rfl

theorem bCondBody_ok (assigned : k ≠ 7) (hx : readScalar s 0 f.c = .ok x) :
    bCondBody k f s = .ok (s, if condHolds k x then targetB f s else s.after (wordsP f.p)) := by
  rw [bCondBody, condOf_ok assigned hx]
  rfl

end Branch

end Sys2Proof.Machine

namespace Sys2Proof.Safety

open Sys2Proof Sys2Proof.Machine

theorem jumps_bCond {f : FmtB} {s : State} {k : BitVec 3} {x pc : Word} (assigned : k ≠ 7) (hx : readScalar s 0 f.c = .ok x)
    (value : (if condHolds k x then targetB f s else s.after (wordsP f.p)) = pc) : Jumps (.bCond k f) s 0 s pc :=
  issueTo_ok (value ▸ bCondBody_ok assigned hx)

/-- Settles O13: a conditional branch goes where its condition sends it (`jumps_bCond`), and each condition is a comparison of c
with 0. -/
theorem branchResults : Obligations.BranchResults := by
  unfold Obligations.BranchResults
  intro f s target after
  refine ⟨fun unused => issueTo_ok (body := bBody f) ?_, fun used => issueTo_trap (stall := 0) (body := bBody f) ?_,
    issueTo_trap (stall := 0) (body := bCondBody 7 f) rfl, fun x hx => ?_⟩
  · rw [bBody, needUnused_ok unused]
    rfl
  · rw [bBody, needUnused_trap used]
    rfl
  · have goes {k pc} (assigned : k ≠ 7) (value : (if condHolds k x then target else after) = pc) : Jumps (.bCond k f) s 0 s pc :=
      jumps_bCond assigned hx value
    refine ⟨goes (by decide) ?_, goes (by decide) ?_, goes (by decide) ?_, goes (by decide) ?_, goes (by decide) ?_,
      goes (by decide) ?_, goes (by decide) rfl⟩
    · simp [condHolds]
    · simp [condHolds]
    · simp [condHolds]
    · simp [condHolds, ← ite_lt_eq_ite_le]
    · simp [condHolds]
    · simp [condHolds, ← ite_lt_eq_ite_le]

end Sys2Proof.Safety
end

