-- ==== Sys2Proof/Proofs/SpillsAndYields.lean ====
section
/-! SUPPORT and the refutations of O14 and O16: a spill of the return-address store is counted (R445), and a core in the gang of a
refinement run takes no thread from its run list at a YIELD (R419); the statements leave both out of account. -/

namespace Sys2Proof.Machine

open Sys2Proof

/-! ### A full return-address store (R101, R102) -/

/-- What a spill and its CALL leave: the store that went out, the new entry, the moved pointer and a counted spill (R445). -/
def spilled (s t : State) : State :=
  { t with core := t.core.count 7 1 }.modRegs fun r =>
    { r with ras := r.ras.dropLast, rsp := BitVec.ofNat 64 (spillSlot s.regs + 8) }

theorem spillOldest_of_room {s t : State} {ps : List Piece} (full : 16 ≤ s.regs.ras.length)
    (above : (spillBounds s.regs).1 ≤ spillSlot s.regs) (below : spillSlot s.regs + 8 ≤ (spillBounds s.regs).2)
    (hps : place s (segOf s 0) (BitVec.ofNat 64 (spillSlot s.regs)) 8 .store rawRegion = .ok ps)
    (ht : sendWrites s ps ((bytesOfNat 8 (s.regs.ras.getLastD 0).toNat).map some) 0 false = .ok t) :
    spillOldest s = .ok (spilled s t) := by
  unfold spillOldest
  rw [if_neg (by omega)]
  dsimp only
  rw [if_neg (by simp only [Bool.or_eq_true, decide_eq_true_eq]; omega), hps, ok_bind, ht]
  rfl

theorem callBody_of_room {f : FmtB} {s t : State} (unused : f.c.toNat = 48) (spill : spillOldest s = .ok t) :
    callBody f s = .ok (t.modRegs fun r => { r with ras := s.after (wordsP f.p) :: r.ras }, targetB f s) := by
  rw [callBody, needUnused_ok unused, ok_bind, callTo, spill]
  rfl

theorem Core.count_perf_ne (c : Core) {k j : Nat} (n : Nat) (h : k ≠ j) : (c.count k n).perf[j]? = c.perf[j]? :=
  Vector.getElem?_setIfInBounds_ne h

/-- An instruction that names the next pc counts in the counters 0, 1 and 2 alone. -/
theorem jumped_perf (s : State) (pc : Word) (stall : Nat) {k : Nat} (h : 3 ≤ k) :
    ((s.setPc pc).retire stall).core.perf[k]? = s.core.perf[k]? := by
  rcases s with ⟨_, q, _⟩
  cases q with
  | main =>
    exact (Core.count_perf_ne _ _ (by omega)).trans
      ((Core.count_perf_ne _ _ (by omega)).trans (Core.count_perf_ne _ _ (by omega)))
  | matrix => rfl
  | copy => rfl
  | flue => rfl

/-- A thread in the local segment with a full return-address store, and room in its spill area for the oldest entry. -/
def fullStore : State :=
  State.reset.modRegs fun r =>
    { r with seg := Vector.replicate 4 0xFFFF, rsl := 0x20003, rsp := 0x20018, ras := List.replicate 16 0x40 }

end Sys2Proof.Machine

namespace Sys2Proof.Safety

open Sys2Proof Sys2Proof.Machine

/-- Refutes O14: a CALL with a full return-address store whose oldest entry goes to the spill area counts a spill in performance
counter 7 (R445), which the statement's next state leaves as it was. -/
theorem not_callAndReturnResults : ¬ Obligations.CallAndReturnResults := by
  intro h
  obtain ⟨ps, t, hps, ht⟩ : ∃ ps t, place fullStore (segOf fullStore 0) (BitVec.ofNat 64 0x20018) 8 .store rawRegion = .ok ps ∧
      sendWrites fullStore ps ((bytesOfNat 8 0x40).map some) 0 false = .ok t := ⟨_, _, rfl, rfl⟩
  obtain ⟨taken, -⟩ := h.1 ⟨48, 0, []⟩ fullStore
  obtain ⟨-, -, spills⟩ := taken rfl
  have claimed := spills (by decide) (by decide) (by decide) ps t hps ht
  have spill : spillOldest fullStore = .ok (spilled fullStore t) :=
    spillOldest_of_room (by decide) (by decide) (by decide) hps ht
  have runs := issueTo_ok (stall := 0) (callBody_of_room (f := ⟨48, 0, []⟩) rfl spill)
  have same := Host.Outcome.next.inj (runs.symm.trans claimed)
  have counted := congrArg (fun u : State => u.core.perf[7]?) same
  simp only [jumped_perf _ _ _ (show 3 ≤ 7 by decide)] at counted
  simp [spilled, Core.count] at counted

/-- Refutes O16: at a YIELD the thread of a core in the gang of a refinement run goes to the run list, and no other becomes
resident (R419), so that the core does not hold the thread that was queued. -/
theorem not_yieldHaltTrapResults : ¬ Obligations.YieldHaltTrapResults := by
  intro h
  obtain ⟨-, control⟩ := h ⟨48, 48, 48, 0, none⟩ spentOnRunCore rfl rfl
  obtain ⟨-, yields, -⟩ := control rfl
  obtain ⟨t, ht, -, next, -⟩ := yields (namedThread 2 .queued) [] rfl rfl rfl rfl
  have rotated : exec (.yield ⟨48, 48, 48, 0, none⟩) spentOnRunCore = .next (rotate (spentOnRunCore.past 1 0) 0) := rfl
  have empty : (rotate (spentOnRunCore.past 1 0) 0).core.ctx.tid = 0 := rfl
  cases rotated.symm.trans ht
  exact absurd (empty.symm.trans next) (by decide)

end Sys2Proof.Safety
end

