-- ==== Sys2Proof/Proofs/ReturnFromTrap.lean ====
section
/-! SUPPORT and the proof of O18: fields of TSW that RFE and SWR write (R97, R98, R156), and the return from a trap (R155). -/

namespace Sys2Proof.Machine

open Sys2Proof

/-! ### Fields of TSW -/

theorem field_lt (w : Word) (lo n : Nat) : field w lo n < 2 ^ n := BitVec.isLt _

theorem testBit_field (w : Word) (lo : Nat) {n k : Nat} (h : k < n) : (field w lo n).testBit k = w.getLsbD (lo + k) := by
  change (w.extractLsb' lo n).getLsbD k = _
  rw [BitVec.getLsbD_extractLsb', decide_eq_true h, Bool.true_and]

theorem lowTwo_eq (w : Word) : field w 0 2 = w.toNat % 4 := by
  rw [field, BitVec.extractLsb'_toNat, Nat.shiftRight_zero]

/-- The mode bits of `w` in place of those of `old` (R98, R156). -/
def tswModes (old w : Word) : Word := setField old 0 4 (field w 0 4)

theorem getLsbD_tswModes (old w : Word) (k : Nat) : (tswModes old w).getLsbD k = if k < 4 then w.getLsbD k else old.getLsbD k := by
  rw [tswModes, getLsbD_setField _ _ _ _ _ (by decide)]
  simp only [Nat.zero_le, true_and, Nat.zero_add, Nat.sub_zero]
  split
  · next low => rw [testBit_field w 0 low, Nat.zero_add]
  · rfl

theorem rfeTsw_eq (old w : Word) : rfeTsw old w =
    tswRepeat (tswModes old w) (tswRa w) (if tswRa w then tswRit w else 0) (if tswRa w then tswRpos w else 0) := rfl

theorem tswRa_rfeTsw (old w : Word) : tswRa (rfeTsw old w) = tswRa w := tswRa_tswRepeat ..

theorem tswRit_rfeTsw (old w : Word) : tswRit (rfeTsw old w) = if tswRa w then tswRit w else 0 := by
  refine tswRit_tswRepeat _ _ _ ?_
  split
  · exact field_lt ..
  · decide

theorem tswRpos_rfeTsw (old w : Word) : tswRpos (rfeTsw old w) = if tswRa w then tswRpos w else 0 := by
  refine tswRpos_tswRepeat _ _ _ ?_
  split
  · exact field_lt ..
  · decide

/-! ### The return from a trap (R155, R156) -/

theorem ctlOperand_ok {f : FmtA} {s : State} {x : Word} (hd : f.d.toNat = 48) (hb : f.b.toNat = 48)
    (hx : readScalar s 0 f.a = .ok x) : ctlOperand f s = .ok x := by
  rw [ctlOperand, needUnused_ok hd, needUnused_ok hb]
  exact hx

theorem needPriv_ok {s : State} (h : s.priv = true) : needPriv s = .ok () := by
  rw [needPriv, if_pos h]

theorem needPriv_trap {s : State} (h : s.priv = false) : needPriv s = trapHere s .privileged := by
  unfold needPriv
  rw [if_neg (by simp [h])]

/-- What a return record `n` restores (R156). -/
def restored (t : State) (n : Nat) : State :=
  (t.modRegs fun r => { r with
    tsw := rfeTsw r.tsw (BitVec.ofNat 64 (n / 2 ^ 64))
    repbase := if tswRa (BitVec.ofNat 64 (n / 2 ^ 64)) then BitVec.ofNat 64 (n / 2 ^ 128) else r.repbase
    rcnt := if tswRa (BitVec.ofNat 64 (n / 2 ^ 64)) then BitVec.ofNat 25 (n / 2 ^ 213) else r.rcnt }).modCtx fun c =>
      { c with frame := none, board := [] }

section Record

variable {f : FmtA} {s t : State} {o : Word} {bs : List Byte}

theorem rfeBody_unprivileged (user : s.priv = false) : rfeBody f s = trapHere s .privileged := by
  rw [rfeBody, needPriv_trap user]
  rfl

theorem rfeBody_misaligned (priv : s.priv = true) (operand : ctlOperand f s = .ok o) (odd : o.toNat % 32 ≠ 0) :
    rfeBody f s = trapAccess s .misaligned o .load (segOf s 0) := by
  rw [rfeBody, needPriv_ok priv, ok_bind, operand, ok_bind, if_pos odd]

theorem rfeBody_ok (priv : s.priv = true) (operand : ctlOperand f s = .ok o) (aligned : o.toNat % 32 = 0)
    (record : loadRaw s (segOf s 0) o 32 = .ok (bs, t)) (words : (BitVec.ofNat 64 (natOfBytes bs)).toNat % 4 = 0) :
    rfeBody f s = .ok (restored t (natOfBytes bs), BitVec.ofNat 64 (natOfBytes bs)) := by
  have first : BitVec.ofNat 64 (natOfBytes bs / 2 ^ (64 * 0)) = BitVec.ofNat 64 (natOfBytes bs) := by
    rw [Nat.mul_zero, Nat.pow_zero, Nat.div_one]
  rw [rfeBody, needPriv_ok priv, ok_bind, operand, ok_bind, if_neg (not_not.mpr aligned), record, ok_bind]
  have low : field (BitVec.ofNat 64 (natOfBytes bs / 2 ^ (64 * 0))) 0 2 = 0 := by rw [first, lowTwo_eq, words]
  exact (if_neg (not_not.mpr low)).trans (congrArg (fun pc => Except.ok (restored t (natOfBytes bs), pc)) first)

end Record

end Sys2Proof.Machine

namespace Sys2Proof.Safety

open Sys2Proof Sys2Proof.Machine

/-- The bits of TSW after a return (R156): the record's mode bits, and below the repeat state the thread's own. -/
theorem getLsbD_rfeTsw (old w : Word) {k : Nat} (h6 : k ≠ 6) (h : k < 24) :
    (rfeTsw old w).getLsbD k = if k < 4 then w.getLsbD k else old.getLsbD k := by
  rw [rfeTsw_eq, sameTsw_tswRepeat _ _ _ _ k h6 (by omega), getLsbD_tswModes]

/-- Settles O18: the record's words are those that `restored` puts back, and each field of TSW is read through
`tswRepeat`. -/
theorem returnFromTrap : Obligations.ReturnFromTrap := by
  unfold Obligations.ReturnFromTrap
  intro f s
  refine ⟨fun user => issueTo_trap (rfeBody_unprivileged user), fun priv hd hb o ho => ?_⟩
  have operand := ctlOperand_ok hd hb ho
  refine ⟨fun odd => issueTo_trap (rfeBody_misaligned priv operand odd), fun aligned bs t record _ => ?_⟩
  intro rec_ pc w words
  refine ⟨restored t rec_, issueTo_ok (rfeBody_ok priv operand aligned record words), fun k low => ?_,
    tswRa_rfeTsw _ w, fun k kept => ?_, fun active => ?_, fun idle => ?_, rfl⟩
  · exact (getLsbD_rfeTsw _ w (by omega) (by omega)).trans (if_pos low)
  · exact (getLsbD_rfeTsw _ w (by omega) (by omega)).trans (if_neg (by omega))
  · exact ⟨(tswRit_rfeTsw _ w).trans (if_pos active), (tswRpos_rfeTsw _ w).trans (if_pos active), if_pos active, if_pos active⟩
  · have clear : ¬tswRa w = true := Bool.eq_false_iff.mp idle
    exact ⟨(tswRit_rfeTsw _ w).trans (if_neg clear), (tswRpos_rfeTsw _ w).trans (if_neg clear), if_neg clear, if_neg clear⟩

end Sys2Proof.Safety
end

