-- ==== Sys2Proof/Proofs/SpecialRegisters.lean ====
section
/-! SUPPORT and the proof of O19: SRD and SWR of the special registers (R106, R107, R154). -/

namespace Sys2Proof.Machine

open Sys2Proof

/-! ### What SRD reads -/

/-- Four halves packed are their concatenation, element 0 lowest (R89). -/
theorem ofNat_packNat_four (a b c d : BitVec 16) :
    BitVec.ofNat 64 (packNat 16 [a.toNat, b.toNat, c.toNat, d.toNat]) = (d ++ c ++ b ++ a : BitVec 64) := by
  have joined {n : Nat} (x : BitVec n) (y : BitVec 16) : (x ++ y).toNat = x.toNat * 2 ^ 16 + y.toNat := by
    rw [BitVec.toNat_append, ← Nat.shiftLeft_add_eq_or_of_lt y.isLt, Nat.shiftLeft_eq]
  apply BitVec.eq_of_toNat_eq
  simp only [packNat, BitVec.toNat_ofNat, joined]
  omega

/-! ### Which registers SWR writes (R106, R107) -/

theorem swrOk_eq_false {n : Nat} (h : n = 1 ∨ n = 2 ∨ n = 8 ∨ n = 9 ∨ 21 ≤ n) : swrOk n = false := by
  rw [Bool.eq_false_iff]
  simp only [swrOk, Bool.and_eq_true, decide_eq_true_eq, bne_iff_ne, ne_eq]
  omega

theorem swrOk_of_data {n : Nat} (h : 13 ≤ n ∧ n < 21) : swrOk n = true := by
  simp only [swrOk, Bool.and_eq_true, decide_eq_true_eq, bne_iff_ne, ne_eq]
  omega

theorem swrPriv_of_data {n : Nat} (h : 13 ≤ n) : ¬swrPriv n = true := by
  simp only [swrPriv, Bool.and_eq_true, Bool.or_eq_true, decide_eq_true_eq, beq_iff_eq]
  omega

/-- The registers that ask for PRIV may be written. -/
theorem swr_of_priv {n : Nat} (h : n = 0 ∨ (3 ≤ n ∧ n ≤ 6) ∨ n = 10 ∨ n = 11) : swrOk n = true ∧ swrPriv n = true := by
  simp only [swrOk, swrPriv, Bool.and_eq_true, Bool.or_eq_true, decide_eq_true_eq, bne_iff_ne, ne_eq, beq_iff_eq]
  omega

section Special

variable {f : FmtL} {s : State} {x : Word}

theorem srdBody_ok (dst : f.d.toNat < 32 ∨ f.d.toNat = 48) (assigned : f.immNat < 21) :
    srdBody f s = .ok (writeScalar 0 f.d (readSpecial s f.immNat (wordsP f.p)) s) := by
  rw [srdBody, needDst_ok dst, ok_bind, if_neg (by simpa [srdOk] using assigned)]

theorem srdBody_unassigned (dst : f.d.toNat < 32 ∨ f.d.toNat = 48) (unassigned : 21 ≤ f.immNat) :
    srdBody f s = trapHere s .illegalFunct := by
  rw [srdBody, needDst_ok dst, ok_bind, if_pos (by simpa [srdOk] using unassigned)]

/-! ### What SWR writes -/

theorem swrBody_refused (readOnly : swrOk f.immNat = false) : swrBody f s = trapHere s .illegalFunct := by
  rw [swrBody, readOnly]
  rfl

theorem swrBody_unprivileged (writable : swrOk f.immNat = true) (asks : swrPriv f.immNat = true) (user : s.priv = false) :
    swrBody f s = trapHere s .privileged := by
  rw [swrBody, writable, asks, needPriv_trap user]
  rfl

theorem swrBody_ok (writable : swrOk f.immNat = true) (may : swrPriv f.immNat = true → s.priv = true)
    (hx : readScalar s 0 f.d = .ok x) : swrBody f s = .ok (writeSpecial s f.immNat f.s.toNat x) := by
  rw [swrBody, writable, hx]
  cases asks : swrPriv f.immNat with
  | true =>
    rw [needPriv_ok (may asks)]
    rfl
  | false => rfl

/-- A write of a special register leaves memory, the scalar registers and their queue. -/
theorem writeSpecial_keeps (s : State) (n stall : Nat) (x : Word) :
    (writeSpecial s n stall x).mem = s.mem ∧ (writeSpecial s n stall x).regs.g = s.regs.g ∧
      (writeSpecial s n stall x).regs.gq = s.regs.gq := by
  unfold writeSpecial
  split
  · exact ⟨rfl, rfl, rfl⟩
  · split
    · exact ⟨rfl, rfl, rfl⟩
    · split
      · dsimp only
        split <;> exact ⟨rfl, rfl, rfl⟩
      all_goals exact ⟨rfl, rfl, rfl⟩

theorem writeSpecial_tsw (s : State) (stall : Nat) (x : Word) :
    (writeSpecial s 0 stall x).regs.tsw = tswWrite s.regs.tsw x := by
  have write : writeSpecial s 0 stall x =
      if tswRa (tswWrite s.regs.tsw x) then s.modRegs fun r => { r with tsw := tswWrite r.tsw x }
      else (s.modRegs fun r => { r with tsw := tswWrite r.tsw x }).modCtx fun c => { c with frame := none } := rfl
  rw [write]
  split <;> rfl

end Special

theorem writeSpecial_ait {s : State} (stall : Nat) (x : Word)
    (free : (s.cube s.myCube).aitStove ≠ some (s.cube s.myCube).clock) :
    ((writeSpecial s 6 stall x).cube s.myCube).ait = x.setWidth 16 := by
  have write : writeSpecial s 6 stall x = s.modCube s.myCube fun q =>
      if q.aitStove = some q.clock then q else { q with ait := x.setWidth 16 } := rfl
  rw [write, State.modCube_cube_same, if_neg free]

theorem writeSpecial_mb {k : Nat} (hk : k < 4) (s : State) (stall : Nat) (x : Word) :
    (writeSpecial s (13 + k) stall x).regs.mb = s.regs.mb.setIfInBounds k x := by
  unfold writeSpecial
  rw [if_pos (by simp; omega), Nat.add_sub_cancel_left]
  rfl

theorem writeSpecial_seg {k : Nat} (hk : k < 4) (s : State) (stall : Nat) (x : Word) :
    (writeSpecial s (17 + k) stall x).regs.seg = s.regs.seg.setIfInBounds k (x.setWidth 16) := by
  unfold writeSpecial
  rw [if_neg (by simp; omega), if_pos (by simp; omega), Nat.add_sub_cancel_left]
  rfl

/-! ### TSW as SWR stores it (R97, R98, R107) -/

theorem tswWrite_eq (old new : Word) : tswWrite old new =
    if tswRa old && !tswRa new then tswRepeat (tswModes old new) false 0 0 else tswModes old new := rfl

theorem tswRa_tswWrite (old new : Word) : tswRa (tswWrite old new) = (tswRa old && tswRa new) := by
  have kept : tswRa (tswModes old new) = tswRa old := getLsbD_tswModes old new 6
  rw [tswWrite_eq]
  cases ho : tswRa old <;> cases hn : tswRa new <;> simp [tswRa_tswRepeat, kept, ho]

end Sys2Proof.Machine

namespace Sys2Proof.Safety

open Sys2Proof Sys2Proof.Machine

theorem getLsbD_tswWrite (old new : Word) {k : Nat} (h6 : k ≠ 6) (h : ¬(24 ≤ k ∧ k < 52)) :
    (tswWrite old new).getLsbD k = if k < 4 then new.getLsbD k else old.getLsbD k := by
  rw [tswWrite_eq, ← getLsbD_tswModes]
  split
  · exact sameTsw_tswRepeat _ _ _ _ k h6 h
  · rfl

section Transfers

variable {f : FmtL} {s : State} {x : Word} {n : Nat}

theorem completes_srd (dst : DstOk f.d) (assigned : n < 21) (value : readSpecial s n (wordsP f.p) = x) (hn : f.immNat = n) :
    Completes (.srd f) s (1 + f.p.length) f.s.toNat (writeScalar 0 f.d x s) := by
  subst hn value
  exact issue_ok (srdBody_ok dst assigned)

/-- SWR of a writable register completes with what `writeSpecial` leaves. -/
theorem completes_swr {P : Prop} {new : State → Prop} (hx : readScalar s 0 f.d = .ok x) (writable : swrOk n = true)
    (may : P → swrPriv n = true → s.priv = true) (value : P → new (writeSpecial s n f.s.toNat x)) (hn : f.immNat = n) (hp : P) :
    ∃ t, Completes (.swr f) s (1 + f.p.length) f.s.toNat t ∧ new t ∧ SameMemory s t ∧ t.regs.g = s.regs.g ∧
      t.regs.gq = s.regs.gq := by
  subst hn
  obtain ⟨mem, g, gq⟩ := writeSpecial_keeps s f.immNat f.s.toNat x
  exact ⟨_, issue_ok (swrBody_ok writable (may hp) hx), value hp, fun a => congrArg (memGet · a) mem, g, gq⟩

end Transfers

/-- Settles O19: SRD by what `readSpecial` reads, SWR by what `writeSpecial` writes, TSW field by field. -/
theorem specialRegisterResults : Obligations.SpecialRegisterResults := by
  unfold Obligations.SpecialRegisterResults
  refine ⟨?srd, ?swr⟩
  case srd =>
    intro f s dst r shapes reads
    have read {n x} (assigned : n < 21) (value : readSpecial s n (wordsP f.p) = x) : reads n x := completes_srd dst assigned value
    exact ⟨read (by decide) rfl, read (by decide) rfl, read (by decide) rfl, read (by decide) rfl, read (by decide) rfl,
      read (by decide) rfl, read (by decide) rfl, read (by decide) rfl, read (by decide) (ofNat_packNat_four ..),
      read (by decide) (ofNat_packNat_four ..), read (by decide) rfl, read (by decide) rfl, read (by decide) rfl,
      read (by decide) rfl, read (by decide) rfl, read (by decide) rfl, read (by decide) rfl, read (by decide) rfl,
      read (by decide) rfl, read (by decide) rfl, read (by decide) rfl,
      fun unassigned => issue_trap (srdBody_unassigned dst unassigned)⟩
  case swr =>
    intro f s x hx wide n writes
    have write {P : Prop} {k : Nat} {new : State → Prop} (writable : swrOk k = true) (may : P → swrPriv k = true → s.priv = true)
      (value : P → new (writeSpecial s k f.s.toNat x)) : writes P k new := completes_swr hx writable may value
    have low : setField x 0 3 0 = x &&& ~~~7 := by simp [setField]
    refine ⟨fun refused => issue_trap (swrBody_refused (swrOk_eq_false refused)), fun user asks => ?priv,
      write rfl (fun may _ => may) fun _ => ?tsw, write rfl (fun may _ => may) fun _ => low,
      write rfl (fun may _ => may) fun _ => rfl, write rfl (fun may _ => may) fun _ => rfl,
      write rfl (fun ⟨may, _⟩ _ => may) fun ⟨_, free⟩ => writeSpecial_ait _ _ free, write rfl nofun fun _ => rfl,
      write rfl (fun may _ => may) fun _ => rfl, write rfl (fun may _ => may) fun _ => rfl, write rfl nofun fun _ => rfl,
      fun k hk => write (swrOk_of_data (by omega)) (fun _ asks => absurd asks (swrPriv_of_data (by omega))) fun _ => ?mb,
      fun k hk => write (swrOk_of_data (by omega)) (fun _ asks => absurd asks (swrPriv_of_data (by omega))) fun _ => ?seg⟩
    case priv =>
      obtain ⟨writable, asks⟩ := swr_of_priv asks
      exact issue_trap (swrBody_unprivileged writable asks user)
    case tsw =>
      refine ⟨fun k low => ?_, ?_, fun k high h6 hr => ?_⟩
      · rw [writeSpecial_tsw, getLsbD_tswWrite _ _ (by omega) (by omega), if_pos low]
      · rw [writeSpecial_tsw, tswRa_tswWrite]
      · rw [writeSpecial_tsw, getLsbD_tswWrite _ _ h6 hr, if_neg (by omega)]
    case mb =>
      rw [writeSpecial_mb hk]
      exact Vector.getElem?_setIfInBounds_self_of_lt hk
    case seg =>
      rw [writeSpecial_seg hk]
      exact Vector.getElem?_setIfInBounds_self_of_lt hk

end Sys2Proof.Safety
end

