-- ==== Sys2Proof/Proofs/FollowerSets.lean ====
section
/-! SUPPORT. Fields of TSW beside one that is written (R97), cores after a change of the moving one, and the set of a leader
(R28-R31). -/

namespace Sys2Proof.Machine

open Sys2Proof

/-! ### A field beside one that is written -/

theorem field_setField_same (w : Word) (lo n v : Nat) (h : lo + n ≤ 64) : field (setField w lo n v) lo n = v % 2 ^ n := by
  refine field_of_bits (Nat.mod_lt _ (by positivity)) fun k hk => ?_
  rw [getLsbD_setField _ _ _ _ _ h, if_pos (by omega), Nat.add_sub_cancel_left, Nat.testBit_mod_two_pow, decide_eq_true hk,
    Bool.true_and]

theorem field_setField_apart (w : Word) {lo n v lo' n' : Nat} (h : lo + n ≤ 64) (apart : lo' + n' ≤ lo ∨ lo + n ≤ lo') :
    field (setField w lo n v) lo' n' = field w lo' n' := by
  refine field_of_bits (field_lt ..) fun k hk => ?_
  rw [getLsbD_setField _ _ _ _ _ h, if_neg (by omega), testBit_field _ _ hk]

theorem getLsbD_tswSet_same (w : Word) {k : Nat} (b : Bool) (h : k < 64) : (tswSet w k b).getLsbD k = b := by
  rw [tswSet, getLsbD_setField _ _ _ _ _ h, if_pos (by omega), Nat.sub_self]
  cases b <;> rfl

theorem getLsbD_tswSet_ne (w : Word) {k j : Nat} (b : Bool) (h : k < 64) (apart : j ≠ k) :
    (tswSet w k b).getLsbD j = w.getLsbD j := by
  rw [tswSet, getLsbD_setField _ _ _ _ _ h, if_neg (by omega)]

/-! ### Cores -/

@[simp] theorem State.getCore_me (s : State) : s.getCore s.me = s.core := if_pos rfl

theorem State.getCore_of_me {s : State} {i : Nat} (h : s.me = i) : s.getCore i = s.core := if_pos h.symm

theorem State.modCtx_getCore_ne (s : State) (f : Ctx → Ctx) {i : Nat} (h : i ≠ s.me) : (s.modCtx f).getCore i = s.getCore i := by
  unfold State.getCore
  rw [if_neg h, if_neg (by exact h)]
  rfl

@[simp] theorem State.modStove_getCore (s : State) (c : Nat) (f : Stove → Stove) (i : Nat) :
    (s.modStove c f).getCore i = s.getCore i := rfl

@[simp] theorem State.modCore_me (s : State) (i : Nat) (f : Core → Core) : (s.modCore i f).me = s.me := by
  unfold State.modCore State.setCore
  split <;> rfl

theorem assoc_assocErase {α : Type} (l : List (Nat × α)) (k j : Nat) :
    assoc (assocErase l k) j = if j = k then none else assoc l j := by
  unfold assocErase
  induction l with
  | nil => simp [assoc]
  | cons p l ih =>
    rw [List.filter_cons]
    split
    · next other =>
      have hp : p.1 ≠ k := by simpa using other
      rw [assoc_cons, assoc_cons, ih]
      grind
    · next same =>
      have hp : p.1 = k := by simpa using same
      rw [assoc_cons, ih]
      grind

/-- To make another core the moving one changes none. -/
@[simp] theorem State.focus_getCore (s : State) (i j : Nat) : (s.focus i).getCore j = s.getCore j := by
  unfold State.focus
  split
  · rfl
  · next away =>
    unfold State.getCore
    dsimp only
    rw [assoc_assocErase, assoc_assocSet]
    by_cases moved : j = i
    · rw [if_pos moved, if_neg (moved ▸ away), moved]
    · rw [if_neg moved, if_neg moved]
      split
      · rfl
      · rfl

theorem State.focus_core (s : State) (i : Nat) : (s.focus i).core = s.getCore i := by
  rw [← State.focus_getCore s i i, State.getCore_of_me (State.focus_me s i)]

/-! ### The set of a leader (R28-R31) -/

@[simp] theorem leaveLed_me (s : State) (core : Nat) (c : Ctx) : (leaveLed s core c).me = s.me := by
  unfold leaveLed
  split
  · rfl
  · exact State.modCore_me ..

@[simp] theorem leaveSet_me (s : State) (core : Nat) : (leaveSet s core).me = s.me := by
  simp only [leaveSet]
  split
  · rfl
  · exact (State.modCore_me ..).trans (leaveLed_me ..)

/-- A core that is neither the follower nor its leader stands as the follower leaves. -/
theorem leaveSet_getCore (s : State) {core i : Nat} (other : i ≠ core)
    (notLed : tswFol (s.getCore core).ctx.regs.tsw = true → leaderOf core (s.getCore core).ctx ≠ i) :
    (leaveSet s core).getCore i = s.getCore i := by
  simp only [leaveSet]
  split
  · rfl
  · next follows =>
    rw [Bool.not_eq_true', Bool.not_eq_false] at follows
    rw [State.modCore_getCore, if_neg other, leaveLed, if_neg (by simp [follows])]
    exact (State.modStove_getCore ..).trans ((State.modCore_getCore ..).trans (if_neg (notLed follows).symm))

theorem followersOf_congr {s t : State} {core : Nat} (h : t.getCore core = s.getCore core) :
    followersOf t core = followersOf s core := by
  simp only [followersOf, h]

theorem ne_of_mem_followersOf {s : State} {core g : Nat} (h : g ∈ followersOf s core) : g ≠ core := by
  simp only [followersOf, List.mem_filter, Bool.and_eq_true, bne_iff_ne] at h
  exact h.2.1

/-- The hops that the members of a set hold (R28). -/
def hopsHeld (s : State) (core : Nat) : List Nat :=
  (followersOf s core).filterMap fun f =>
    ((contextsOf s f).find? fun c => tswFol c.regs.tsw && leaderOf f c == core).map fun c => tswHop c.regs.tsw

theorem freeHop_eq (s : State) (core : Nat) :
    freeHop s core = [1, 2, 3, 4, 5, 6, 7].find? fun h => !(hopsHeld s core).contains h := rfl

/-- A set of fewer than seven has a hop that no member holds (R28). -/
theorem exists_freeHop {s : State} {core : Nat} (few : (followersOf s core).length < 7) :
    ∃ k, freeHop s core = some k ∧ 1 ≤ k ∧ k ≤ 7 := by
  cases hop : freeHop s core with
  | some k =>
    have among := List.mem_of_find?_eq_some hop
    simp only [List.mem_cons, List.not_mem_nil, or_false] at among
    exact ⟨k, rfl, by omega, by omega⟩
  | none =>
    rw [freeHop_eq, List.find?_eq_none] at hop
    have taken : [1, 2, 3, 4, 5, 6, 7] ⊆ hopsHeld s core := fun k hk => by simpa using hop k hk
    have seven : 7 ≤ (hopsHeld s core).length := (List.subperm_of_subset (by decide) taken).length_le
    exact absurd (seven.trans (List.length_filterMap_le ..)) (Nat.not_le_of_lt few)

end Sys2Proof.Machine
end

