-- ==== Sys2Proof/Proofs/Following.lean ====
section
/-! SUPPORT and the proof of O17: FOLLOW, DETACH and REJOIN (R28-R31, R151-R153). -/

namespace Sys2Proof.Machine

open Sys2Proof

theorem needNone_ok {f : FmtA} {s : State} (hd : f.d.toNat = 48) (ha : f.a.toNat = 48) (hb : f.b.toNat = 48) :
    needNone f s = .ok () := by
  rw [needNone, needUnused_ok hd, needUnused_ok ha, needUnused_ok hb]
  rfl

/-! ### FOLLOW (R151) -/

/-- A core that leaves its leader's set and joins that of core `l`, detached, at hop `h`. -/
def joined (s : State) (l x h : Nat) : State :=
  (modTsw (leaveSet s s.me) l fun w => setField w (16 + (leaveSet s s.me).me % 8) 1 1).modRegs fun r =>
    { r with tsw := setField (setField (setField r.tsw 4 2 3) 8 3 x) 11 3 h }

/-- A leader that FOLLOW accepts is another core, and has room in its set. -/
theorem room_of_followBad {s : State} {x : Word} (h : followBad s x = false) :
    s.myCube * 256 + x.toNat ≠ s.me ∧ (followersOf s (s.myCube * 256 + x.toNat)).length < 7 := by
  simp only [followBad, Bool.or_eq_false_iff, decide_eq_false_iff_not, not_not, not_le] at h
  obtain ⟨⟨⟨⟨⟨⟨⟨-, other⟩, -⟩, -⟩, -⟩, -⟩, -⟩, room⟩ := h
  refine ⟨?_, room⟩
  unfold State.myCore at other
  unfold State.myCube
  omega

section Follow

variable {f : FmtA} {s : State} {x : Word}

theorem followBody_refused (operand : ctlOperand f s = .ok x) (bad : followBad s x = true) :
    followBody f s = trapAt s .followInvalid x := by
  rw [followBody, operand, ok_bind, if_pos bad]

theorem followBody_again (operand : ctlOperand f s = .ok x) (good : followBad s x = false) (follows : tswFol s.regs.tsw = true)
    (same : leaderOf s.me s.core.ctx = s.myCube * 256 + x.toNat) : followBody f s = .ok s := by
  rw [followBody, operand, ok_bind, if_neg (by simp [good])]
  exact if_pos (by simp [follows, same])

theorem followBody_joins {h : Nat} (operand : ctlOperand f s = .ok x) (good : followBad s x = false)
    (other : tswFol s.regs.tsw = true → leaderOf s.me s.core.ctx ≠ s.myCube * 256 + x.toNat)
    (hop : freeHop (leaveSet s s.me) (s.myCube * 256 + x.toNat) = some h) :
    followBody f s = .ok (joined s (s.myCube * 256 + x.toNat) x.toNat h) := by
  rw [followBody, operand, ok_bind, if_neg (by simp [good])]
  refine (if_neg (by simpa using other)).trans ?_
  dsimp only
  rw [hop]
  rfl

/-- The set of a new leader has room also once the core has left its old leader's. -/
theorem exists_hop_of_followBad (good : followBad s x = false)
    (other : tswFol s.regs.tsw = true → leaderOf s.me s.core.ctx ≠ s.myCube * 256 + x.toNat) :
    ∃ h, freeHop (leaveSet s s.me) (s.myCube * 256 + x.toNat) = some h ∧ 1 ≤ h ∧ h ≤ 7 := by
  obtain ⟨away, room⟩ := room_of_followBad good
  have kept := leaveSet_getCore s away (by rwa [State.getCore_me])
  exact exists_freeHop (by rwa [followersOf_congr kept])

end Follow

section Joined

variable (s : State) (l x h : Nat)

theorem joined_tsw : ∃ w, (joined s l x h).regs.tsw = setField (setField (setField w 4 2 3) 8 3 x) 11 3 h := ⟨_, rfl⟩

theorem joined_fol : tswFol (joined s l x h).regs.tsw = true := by
  obtain ⟨w, e⟩ := joined_tsw s l x h
  rw [e, tswFol, getLsbD_setField _ _ _ _ _ (by decide), getLsbD_setField _ _ _ _ _ (by decide),
    getLsbD_setField _ _ _ _ _ (by decide)]
  rfl

theorem joined_det : tswDet (joined s l x h).regs.tsw = true := by
  obtain ⟨w, e⟩ := joined_tsw s l x h
  rw [e, tswDet, getLsbD_setField _ _ _ _ _ (by decide), getLsbD_setField _ _ _ _ _ (by decide),
    getLsbD_setField _ _ _ _ _ (by decide)]
  rfl

theorem joined_lead : tswLead (joined s l x h).regs.tsw = x % 8 := by
  obtain ⟨w, e⟩ := joined_tsw s l x h
  rw [e, tswLead, field_setField_apart _ (by decide) (by decide)]
  exact field_setField_same _ _ _ _ (by decide)

theorem joined_hop : tswHop (joined s l x h).regs.tsw = h % 8 := by
  obtain ⟨w, e⟩ := joined_tsw s l x h
  rw [e]
  exact field_setField_same _ _ _ _ (by decide)

/-- The new leader's set holds the core. -/
theorem joined_leads (away : l ≠ s.me) : ((joined s l x h).getCore l).ctx.leads s.me = true := by
  have me : (modTsw (leaveSet s s.me) l fun w => setField w (16 + (leaveSet s s.me).me % 8) 1 1).me = s.me :=
    (State.modCore_me ..).trans (leaveSet_me ..)
  have core : (joined s l x h).getCore l = _ := (State.modCtx_getCore_ne _ _ (fun e => away (e.trans me))).trans (State.modCore_getCore_same ..)
  rw [core, leaveSet_me, Ctx.leads, tswFset, testBit_field _ _ (Nat.mod_lt _ (by decide)),
    getLsbD_setField _ _ _ _ _ (by omega), if_pos (by omega), Nat.sub_self]
  rfl

end Joined

/-! ### DETACH (R152) -/

theorem Core.detach_of_attached {k : Core} (h : k.ctx.attached = true) :
    k.detach = { k with
      ctx := { k.ctx with regs := { k.ctx.regs with tsw := tswSet k.ctx.regs.tsw 4 true } }, chain := [] } := if_pos h

theorem Core.detach_of_not_attached {k : Core} (h : k.ctx.attached = false) : k.detach = k :=
  if_neg (Bool.eq_false_iff.mp h)

/-! ### REJOIN (R31, R153) -/

/-- The followers for which a leader's REJOIN waits. -/
def awayFollowers (s : State) : List Nat :=
  (followersOf s s.me).filter fun f =>
    !((s.getCore f).ctx.attached && (tswFol (s.getCore f).ctx.regs.tsw && leaderOf f (s.getCore f).ctx == s.me))

section Rejoin

variable {f : FmtA} {s : State}

theorem rejoinBody_attached (none : needNone f s = .ok ()) (attached : s.core.ctx.attached = true) : rejoinBody f s = .ok s := by
  have follows : tswFol s.core.ctx.regs.tsw = true := (Bool.and_eq_true_iff.mp attached).1
  rw [rejoinBody, none, ok_bind]
  exact (if_pos follows).trans (if_pos attached)

theorem rejoinBody_unled (none : needNone f s = .ok ()) (follows : tswFol s.regs.tsw = true)
    (unled : ∀ c ∈ contextsOf s (leaderOf s.me s.core.ctx), c.leads s.me = false) : rejoinBody f s = .ok s := by
  rw [rejoinBody, none, ok_bind]
  refine (if_pos follows).trans ?_
  split
  · rfl
  · exact if_neg (by simpa using unled)

theorem rejoinBody_waits (none : needNone f s = .ok ()) (follows : tswFol s.regs.tsw = true)
    (detached : s.core.ctx.attached = false) (led : ∃ c ∈ contextsOf s (leaderOf s.me s.core.ctx), c.leads s.me = true) :
    rejoinBody f s = .error (.wait (s.setWait (.rejoin f.s.toNat))) := by
  rw [rejoinBody, none, ok_bind]
  exact (if_pos follows).trans ((if_neg (Bool.eq_false_iff.mp detached)).trans (if_pos (List.any_eq_true.mpr led)))

/-- A leader's REJOIN completes where each follower that is away waits at its own. -/
theorem rejoinBody_leader (none : needNone f s = .ok ()) (leads : tswFol s.regs.tsw = false)
    (ready : ∀ g ∈ awayFollowers s, (s.getCore g).ctx.wait.rejoins = true ∧ tswFol (s.getCore g).ctx.regs.tsw = true ∧
      leaderOf g (s.getCore g).ctx = s.me) :
    rejoinBody f s = .ok ((awayFollowers s).foldl (rejoinFollower s.curPc) s) := by
  rw [rejoinBody, none, ok_bind]
  refine (if_neg (Bool.eq_false_iff.mp leads)).trans (if_pos ?_)
  exact List.all_eq_true.mpr fun g hg => by simpa using ready g hg

theorem awayFollowers_eq_nil
    (present : ∀ g ∈ followersOf s s.me, (s.getCore g).ctx.attached = true ∧ tswFol (s.getCore g).ctx.regs.tsw = true ∧
      leaderOf g (s.getCore g).ctx = s.me) : awayFollowers s = [] := by
  simp only [awayFollowers, List.filter_eq_nil_iff]
  intro g hg
  simpa using present g hg

theorem awayFollowers_eq_singleton {g : Nat} (one : followersOf s s.me = [g]) (detached : (s.getCore g).ctx.attached = false) :
    awayFollowers s = [g] := by
  simp [awayFollowers, one, detached]

end Rejoin

/-! ### A follower behind its REJOIN -/

/-- An instruction of one word of a main sequencer outside a repeat frame moves the pc, and no wait is left. -/
theorem past_main {s : State} (main : s.seqr = .main) (idle : tswRa s.regs.tsw = false) (stall : Nat) :
    (s.past 1 stall).regs = { s.regs with pc := s.regs.pc + 4 } ∧ (s.past 1 stall).core.ctx.wait = .none ∧
      (s.past 1 stall).me = s.me := by
  have notActive : s.rep.ra = false := by
    rw [State.rep, main]
    exact idle
  rw [State.past, State.advance_of_idle _ notActive]
  rcases s with ⟨_, q, _⟩
  obtain rfl : q = .main := main
  exact ⟨rfl, rfl, rfl⟩

/-- A follower's core, the moving one, behind its REJOIN. -/
def pastRejoin (pc : Word) (t : State) (stall : Nat) : State :=
  (t.past 1 stall).modRegs fun r => { r with tsw := if t.regs.pc == pc then tswSet r.tsw 4 false else r.tsw }

theorem rejoinFollower_eq (pc : Word) (s : State) (g : Nat) : ∃ t stall, t = pastRejoin pc { s.focus g with seqr := .main } stall ∧
    rejoinFollower pc s g = { { t with core := { t.core with chain := [] } }.focus s.me with seqr := s.seqr } := ⟨_, _, rfl, rfl⟩

/-- A follower that its leader's REJOIN takes past its own: its pc has moved, no wait is left, and where its address was `pc` it
is attached. -/
theorem rejoinFollower_getCore {s : State} {g : Nat} (pc : Word) (idle : tswRa (s.getCore g).ctx.regs.tsw = false) :
    let r := (s.getCore g).ctx.regs
    let c := ((rejoinFollower pc s g).getCore g).ctx
    c.regs = { r with pc := r.pc + 4, tsw := if r.pc == pc then tswSet r.tsw 4 false else r.tsw } ∧ c.wait = .none := by
  have regs : ({ s.focus g with seqr := .main } : State).regs = (s.getCore g).ctx.regs :=
    congrArg (fun k : Core => k.ctx.regs) (State.focus_core s g)
  obtain ⟨t, stall, ht, ends⟩ := rejoinFollower_eq pc s g
  obtain ⟨past, awake, me⟩ := past_main (s := { s.focus g with seqr := .main }) rfl (regs ▸ idle) stall
  have core : ((rejoinFollower pc s g).getCore g) = { t.core with chain := [] } := by
    rw [ends]
    refine (State.focus_getCore _ s.me g).trans (State.getCore_of_me ?_)
    exact ht ▸ me.trans (State.focus_me s g)
  intro r c
  have ctx : c = t.core.ctx := (congrArg Core.ctx core :)
  rw [ctx, ht]
  change (pastRejoin _ _ _).regs = _ ∧ _
  rw [pastRejoin, State.modRegs_regs, State.modRegs_ctx_wait, past, regs]
  exact ⟨rfl, awake⟩

theorem attached_tswSet (c : Ctx) (r : Regs) (follows : tswFol r.tsw = true) (h : c.regs.tsw = tswSet r.tsw 4 false) :
    c.attached = true := by
  rw [Ctx.attached, h, tswFol, tswDet, getLsbD_tswSet_ne _ _ (by decide) (by decide), getLsbD_tswSet_same _ _ (by decide)]
  simpa [tswFol] using follows

end Sys2Proof.Machine

namespace Sys2Proof.Safety

open Sys2Proof Sys2Proof.Machine

section Rejoin

variable {f : FmtA} {s : State} {g : Nat}

/-- A leader whose one follower is away, and waits at its REJOIN, takes the follower past it. -/
theorem rejoin_of_follower (none : needNone f s = .ok ()) (leads : tswFol s.regs.tsw = false) (one : followersOf s s.me = [g])
    (led : tswFol (s.getCore g).ctx.regs.tsw = true ∧ leaderOf g (s.getCore g).ctx = s.me)
    (detached : (s.getCore g).ctx.attached = false) (waits : (s.getCore g).ctx.wait.rejoins = true)
    (idle : tswRa (s.getCore g).ctx.regs.tsw = false) :
    ∃ t, Completes (.rejoin f) s (wordsA f) f.s.toNat t ∧
      (t.getCore g).ctx.regs.pc = (s.getCore g).ctx.regs.pc + 4 ∧ (t.getCore g).ctx.wait = .none ∧
      ((s.getCore g).ctx.regs.pc = s.curPc → (t.getCore g).ctx.attached = true) ∧
      ((s.getCore g).ctx.regs.pc ≠ s.curPc → (t.getCore g).ctx.attached = false) := by
  have away := awayFollowers_eq_singleton one detached
  have body := rejoinBody_leader none leads (by simpa [away] using ⟨waits, led⟩)
  rw [away] at body
  obtain ⟨regs, wait⟩ := rejoinFollower_getCore s.curPc idle
  refine ⟨rejoinFollower s.curPc s g, issue_ok body, by rw [regs], wait, fun same => ?_, fun apart => ?_⟩
  · refine attached_tswSet _ (s.getCore g).ctx.regs led.1 ?_
    rw [regs]
    exact if_pos (by simpa using same)
  · have tsw : ((rejoinFollower s.curPc s g).getCore g).ctx.regs.tsw = (s.getCore g).ctx.regs.tsw := by
      rw [regs]
      exact if_neg (by simpa using apart)
    rw [Ctx.attached, tsw]
    exact detached

end Rejoin

/-- Settles O17: FOLLOW finds a free hop among seven (`exists_hop_of_followBad`), DETACH is `Core.detach`, and REJOIN goes by the
followers that are away (`rejoinBody_leader`). -/
theorem followResults : Obligations.FollowResults := by
  unfold Obligations.FollowResults
  intro f s hd hb
  refine ⟨fun x hx => ?follow, fun ha => ?_⟩
  case follow =>
    have operand := ctlOperand_ok hd hb hx
    refine ⟨fun bad => issue_trap (followBody_refused operand bad), fun good => ?_⟩
    refine ⟨fun follows same => issue_ok (followBody_again operand good follows same), fun other => ?_⟩
    obtain ⟨h, hop, low, high⟩ := exists_hop_of_followBad good other
    exact ⟨h, joined s _ x.toNat h, low, high, hop, issue_ok (followBody_joins operand good other hop), joined_fol .., joined_det ..,
      joined_lead .., (joined_hop ..).trans (Nat.mod_eq_of_lt (by omega)), joined_leads _ _ _ _ (room_of_followBad good).1⟩
  have none := needNone_ok (s := s) hd ha hb
  have detaches : detachBody f s = .ok { s with core := s.core.detach } := by
    rw [detachBody, none]
    rfl
  have completes (body : rejoinBody f s = .ok s) : Completes (.rejoin f) s (wordsA f) f.s.toNat s := issue_ok body
  intro det done led
  refine ⟨fun attached => ?_, fun detached => ?_, fun leads alone => ?_, fun attached => completes (rejoinBody_attached none attached),
    fun follows unled => completes (rejoinBody_unled none follows unled),
    fun follows detached member => issue_wait (rejoinBody_waits none follows detached member), fun leads present => ?_,
    fun _ => rejoin_of_follower none⟩
  · rw [Core.detach_of_attached attached] at detaches
    exact issue_ok detaches
  · rw [Core.detach_of_not_attached detached] at detaches
    exact issue_ok detaches
  · have away : awayFollowers s = [] := awayFollowers_eq_nil (by simp [alone])
    exact completes ((rejoinBody_leader none leads (by simp [away])).trans (by rw [away]; rfl))
  · have away : awayFollowers s = [] := awayFollowers_eq_nil present
    exact completes ((rejoinBody_leader none leads (by simp [away])).trans (by rw [away]; rfl))

end Sys2Proof.Safety
end

