-- ==== Sys2Proof/Proofs/VectorValues.lean ====
section
/-! SUPPORT. The lanes, pairs, masks, halves and steps of the vector instructions as the statements write them (R89, R109, R131,
R165-R178). -/

namespace Sys2Proof.Machine

open Sys2Proof Sys2Proof.Safety

/-! ### Lanes (R89) -/

@[simp] theorem lane_mapLanes (op : Word32 → Word32 → Word32) (x y : Vec) (k : Nat) (h : k < 64) :
    lane (mapLanes op x y) k = op (lane x k) (lane y k) := lane_ofLanes _ k h

@[simp] theorem pair_mapPairs (op : Nat → Nat → Nat) (x y : Vec) (j : Nat) (h : j < 32) :
    pair (mapPairs op x y) j = BitVec.ofNat 64 (op (pair x j).toNat (pair y j).toNat) := pair_ofPairs _ j h

theorem lane_and (x y : Vec) (k : Nat) : lane (x &&& y) k = lane x k &&& lane y k := BitVec.extractLsb'_and

theorem lane_or (x y : Vec) (k : Nat) : lane (x ||| y) k = lane x k ||| lane y k := BitVec.extractLsb'_or

theorem lane_xor (x y : Vec) (k : Nat) : lane (x ^^^ y) k = lane x k ^^^ lane y k := BitVec.extractLsb'_xor

theorem lane_not (x : Vec) {k : Nat} (h : k < 64) : lane (~~~x) k = ~~~lane x k := by
  refine BitVec.eq_of_getLsbD_eq fun i hi => ?_
  have inside : 32 * k + i < 2048 := by omega
  simp [lane, hi, inside]

/-- An element of `w` bits of a vector that holds one value in its lowest element. -/
theorem extract_lowest (w n v k : Nat) (fits : w ≤ n) :
    (BitVec.ofNat n (v % 2 ^ w)).extractLsb' (w * k) w = if k = 0 then BitVec.ofNat w v else 0 := by
  have one : v % 2 ^ w = packNat w [v] := by simp [packNat]
  rw [one, extract_packNat w n k [v] (by simpa using fits)]
  cases k with
  | zero => rfl
  | succ k => rfl

/-! ### Shifts and products (R165, R166) -/

theorem shl_eq_ofNat {w : Nat} (x : BitVec w) (k : Nat) : x <<< k = BitVec.ofNat w (x.toNat * 2 ^ k) := by
  apply BitVec.eq_of_toNat_eq
  rw [BitVec.toNat_shiftLeft, BitVec.toNat_ofNat, Nat.shiftLeft_eq]

theorem shr_eq_ofNat {w : Nat} (x : BitVec w) (k : Nat) : x >>> k = BitVec.ofNat w (x.toNat / 2 ^ k) := by
  apply BitVec.eq_of_toNat_eq
  rw [BitVec.toNat_ushiftRight, BitVec.toNat_ofNat, Nat.shiftRight_eq_div_pow,
    Nat.mod_eq_of_lt (Nat.lt_of_le_of_lt (Nat.div_le_self ..) x.isLt)]

theorem sshr_eq_ofInt {w : Nat} (x : BitVec w) (k : Nat) : x.sshiftRight k = BitVec.ofInt w (x.toInt / 2 ^ k) := by
  rw [BitVec.sshiftRight, Int.shiftRight_eq_div_pow]
  push_cast
  rfl

theorem highHalf32_eq (p : Int) : (BitVec.ofInt 64 p).extractLsb' 32 32 = BitVec.ofInt 32 (p / 2 ^ 32) := by
  apply BitVec.eq_of_toNat_eq
  rw [BitVec.extractLsb'_toNat, Nat.shiftRight_eq_div_pow, BitVec.toNat_ofInt, BitVec.toNat_ofInt]
  push_cast
  omega

theorem field_eq_div (w : Word) (lo n : Nat) : field w lo n = w.toNat / 2 ^ lo % 2 ^ n := by
  rw [field, BitVec.extractLsb'_toNat, Nat.shiftRight_eq_div_pow]

/-! ### Bits of a mask (R172) -/

theorem onesOf_eq (p : Word) : onesOf p = (List.range 64).countP fun k => p.getLsbD k := popcount_eq p

theorem firstOne_le (p : Word) : firstOne p ≤ 64 := by
  unfold firstOne
  cases first : (List.range 64).find? fun k => p.getLsbD k with
  | none => exact Nat.le_refl 64
  | some n =>
    obtain ⟨-, inside, -⟩ := List.find?_range_eq_some.mp first
    exact (List.mem_range.mp inside).le

theorem firstOne_clear {p : Word} {k : Nat} (below : k < firstOne p) : p.getLsbD k = false := by
  unfold firstOne at below
  cases first : (List.range 64).find? fun k => p.getLsbD k with
  | none =>
    rw [first] at below
    simpa using List.find?_range_eq_none.mp first k below
  | some n =>
    obtain ⟨-, -, clear⟩ := List.find?_range_eq_some.mp first
    rw [first] at below
    simpa using clear k below

theorem firstOne_set {p : Word} (some : firstOne p < 64) : p.getLsbD (firstOne p) = true := by
  unfold firstOne at some ⊢
  cases first : (List.range 64).find? fun k => p.getLsbD k with
  | none =>
    rw [first] at some
    exact absurd some (Nat.lt_irrefl 64)
  | some n =>
    obtain ⟨set, -, -⟩ := List.find?_range_eq_some.mp first
    exact set

/-! ### Source lanes of VSHUF (R173) -/

theorem shufSource_elim (x : Vec) {kind : Nat} (small : kind < 4) (w k : Nat) : (shufSource kind w k).elim 0 (lane x) =
    if kind = 0 then lane x ((k + w) % 64)
    else if kind = 1 then lane x (k ^^^ w)
    else if kind = 2 then (if k + w ≤ 63 then lane x (k + w) else 0)
    else if w ≤ k then lane x (k - w) else 0 := by
  match kind, small with
  | 0, _ => rfl
  | 1, _ => rfl
  | 2, _ => exact apply_ite (Option.elim · 0 (lane x)) ..
  | 3, _ => exact apply_ite (Option.elim · 0 (lane x)) ..

/-! ### Reductions (R131) -/

theorem reduceStep_range {α : Type} (op : α → α → α) (g : Nat → α) (w : Nat) :
    reduceStep op w ((List.range (2 * w)).map g) = (List.range w).map fun k => op (g k) (g (k + w)) := by
  refine List.ext_getElem (by simp [reduceStep]; omega) fun k _ _ => ?_
  simp [reduceStep, Nat.add_comm]

/-- The steps of R131 from the list of the values after `j` of them on: `n` more leave one value. -/
theorem reduceList_treeValue (op : Nat → Nat → Nat) (x : Nat → Nat) (top n : Nat) {j : Nat}
    (left : top / 2 ^ j * 2 = 2 ^ n) :
    reduceList op ((List.range n).reverse.map (2 ^ ·)) ((List.range (2 ^ n)).map (treeValue op x top j)) =
      some (treeValue op x top (j + n) 0) := by
  induction n generalizing j with
  | zero => omega
  | succ n ih =>
    have half : top / 2 ^ j = 2 ^ n := by omega
    have values : (List.range (2 ^ n)).map (fun k => op (treeValue op x top j k) (treeValue op x top j (k + 2 ^ n))) =
        (List.range (2 ^ n)).map (treeValue op x top (j + 1)) := by
      rw [← half]
      rfl
    rw [List.range_succ, List.reverse_append, List.reverse_singleton, List.singleton_append, List.map_cons, Nat.pow_succ',
      reduceList, reduceStep_range, values]
    cases n with
    | zero => rfl
    | succ n =>
      have next : top / 2 ^ (j + 1) * 2 = 2 ^ (n + 1) := by
        rw [Nat.pow_succ, ← Nat.div_div_eq_div_mul, half]
        omega
      rw [ih next, show j + 1 + (n + 1) = j + (n + 1 + 1) by omega]

theorem reduceList_64 (op : Nat → Nat → Nat) (x : Nat → Nat) :
    reduceList op [32, 16, 8, 4, 2, 1] ((List.range 64).map x) = some (treeValue op x 32 6 0) :=
  reduceList_treeValue op x 32 6 (j := 0) rfl

theorem reduceList_32 (op : Nat → Nat → Nat) (x : Nat → Nat) :
    reduceList op [16, 8, 4, 2, 1] ((List.range 32).map x) = some (treeValue op x 16 5 0) :=
  reduceList_treeValue op x 16 5 (j := 0) rfl

theorem lane_reduceLanes (op : Nat → Nat → Nat) (x : Vec) (k : Nat) : lane (reduceLanes op x) k =
    if k = 0 then BitVec.ofNat 32 (treeValue op (fun k => (lane x k).toNat) 32 6 0) else 0 := by
  rw [reduceLanes, reduceList_64]
  exact extract_lowest 32 2048 _ k (by decide)

theorem pair_reducePairs (op : Nat → Nat → Nat) (x : Vec) (j : Nat) : pair (reducePairs op x) j =
    if j = 0 then BitVec.ofNat 64 (treeValue op (fun j => (pair x j).toNat) 16 5 0) else 0 := by
  rw [reducePairs, reduceList_32]
  exact extract_lowest 64 2048 _ j (by decide)

/-! ### Halves (R178) -/

/-- Elements behind `n` elements of zero. -/
theorem packNat_replicate_zero (w n : Nat) (l : List Nat) : packNat w (List.replicate n 0 ++ l) = packNat w l * 2 ^ (w * n) := by
  induction n with
  | zero => simp
  | succ n ih =>
    rw [List.replicate_succ, List.cons_append, packNat, ih, Nat.zero_mod, Nat.zero_add, Nat.mul_succ, Nat.pow_add]
    ring

/-- Half `j` of a vector of which half `h` holds the elements of `g`. -/
theorem halfElem_ofHalf (g : Nat → Nat) {h j e : Nat} (hh : h < 2) (hj : j < 2) (he : e < 64) :
    halfElem (ofHalf h g) j e = if j = h then g e % 2 ^ 16 else 0 := by
  have place : 1024 * j + 16 * e = 16 * (64 * j + e) := by omega
  have shape : ofHalf h g = BitVec.ofNat 2048 (packNat 16 (List.replicate (64 * h) 0 ++ (List.range 64).map g)) := by
    rw [ofHalf, packNat_replicate_zero, show 16 * (64 * h) = 1024 * h by omega]
  rw [halfElem, place, shape, extract_packNat 16 2048 _ _ (by simp; omega), BitVec.toNat_ofNat, List.getD_eq_getElem?_getD]
  rcases Nat.lt_or_ge (64 * j + e) (64 * h) with before | behind
  · have other : j ≠ h := by omega
    rw [List.getElem?_append_left (by simpa using before)]
    simp [before, other]
  · rw [List.getElem?_append_right (by simpa using behind), List.length_replicate, List.getElem?_map]
    rcases Nat.lt_or_ge h j with after | same
    · have past : 64 ≤ 64 * j + e - 64 * h := by omega
      have other : j ≠ h := by omega
      simp [past, other]
    · obtain rfl : h = j := by omega
      simp [he]

end Sys2Proof.Machine
end

