-- ==== Sys2Proof/Proofs/Rounding.lean ====
section
/-! SUPPORT. What rounding gives: an encoding of the format's width, and the same one for every way to write the fraction that is
rounded (R111, R115, R116). -/

namespace Sys2Proof.Machine

open Sys2Proof

/-! ### The width of an encoding -/

/-- Infinity stands below the sign bit. -/
theorem Fmt.infinity_lt (f : Fmt) : (2 ^ f.ew - 1) * 2 ^ f.mw < 2 ^ (f.ew + f.mw) := by
  rw [Nat.pow_add]
  exact Nat.mul_lt_mul_of_pos_right (Nat.sub_lt (Nat.two_pow_pos _) (by decide)) (Nat.two_pow_pos _)

theorem Fmt.round_lt (f : Fmt) (mode : Mode) (draw : Nat) (neg : Bool) (n d : Nat) (e : Int) :
    f.round mode draw neg n d e < 2 ^ (f.ew + f.mw + 1) := by
  have top := f.infinity_lt
  have sign : (if neg then 2 ^ (f.ew + f.mw) else 0) ≤ 2 ^ (f.ew + f.mw) := by
    split <;> omega
  rw [Nat.pow_succ, Fmt.round]
  dsimp only
  generalize (if neg then 2 ^ (f.ew + f.mw) else 0) = sgn at sign ⊢
  split
  · omega
  · split
    · omega
    · cases mode <;> cases neg <;> simp <;> omega

theorem Fmt.ofVal_lt (f : Fmt) (mode : Mode) (draw : Nat) (x : FVal) : f.ofVal mode draw x < 2 ^ (f.ew + f.mw + 1) := by
  have top := f.infinity_lt
  cases x with
  | nan =>
    have quiet : 2 ^ (f.mw - 1) ≤ 2 ^ (f.ew + f.mw) := Nat.pow_le_pow_right (by decide) (by omega)
    rw [Fmt.ofVal, Fmt.nan, Nat.pow_succ]
    omega
  | inf neg =>
    rw [Fmt.ofVal, Fmt.inf, Nat.pow_succ]
    split <;> omega
  | fin neg m e => exact f.round_lt ..

/-! ### Equal fractions -/

theorem roundMag_mul (mode : Mode) (draw : Nat) (neg : Bool) (n d : Nat) {c : Nat} (pos : 0 < c) :
    roundMag mode draw neg (n * c) (d * c) = roundMag mode draw neg n d := by
  have quotient : n * c / (d * c) = n / d := Nat.mul_div_mul_right n d pos
  have rest : n * c % (d * c) = n % d * c := Nat.mul_mod_mul_right c n d
  have twice : 2 * (n % d * c) = 2 * (n % d) * c := (Nat.mul_assoc ..).symm
  have scaled : n % d * c * 2 ^ 32 / (d * c) = n % d * 2 ^ 32 / d := by
    rw [Nat.mul_right_comm, Nat.mul_div_mul_right _ _ pos]
  have none : n % d * c ≠ 0 ↔ n % d ≠ 0 := by simp [pos.ne']
  unfold roundMag
  rw [quotient, rest]
  cases mode with
  | rne => simp only [twice, Nat.mul_lt_mul_right pos, Nat.mul_left_inj pos.ne']
  | rtz => rfl
  | rup => simp only [bne_iff_ne, Bool.and_eq_true, none]
  | rdn => simp only [bne_iff_ne, Bool.and_eq_true, none]
  | rsr => simp only [scaled]

theorem log2_mul_two_pow {n : Nat} (pos : n ≠ 0) (k : Nat) : (n * 2 ^ k).log2 = n.log2 + k := by
  induction k with
  | zero => simp
  | succ k ih =>
    rw [Nat.pow_succ, ← Nat.mul_assoc, Nat.mul_comm, Nat.log2_two_mul (by positivity), ih, Nat.add_assoc]

theorem ratLog_mul_two_pow {n : Nat} (pos : n ≠ 0) (d k : Nat) : ratLog (n * 2 ^ k) d = ratLog n d + k := by
  have same : (if d.log2 ≤ n.log2 + k then d * 2 ^ (n.log2 + k - d.log2) ≤ n * 2 ^ k
        else d ≤ n * 2 ^ k * 2 ^ (d.log2 - (n.log2 + k))) ↔
      if d.log2 ≤ n.log2 then d * 2 ^ (n.log2 - d.log2) ≤ n else d ≤ n * 2 ^ (d.log2 - n.log2) := by
    generalize n.log2 = a
    generalize d.log2 = b
    have two (i : Nat) : 0 < 2 ^ i := Nat.two_pow_pos i
    by_cases first : b ≤ a
    · rw [if_pos first, if_pos (by omega), show a + k - b = a - b + k by omega, Nat.pow_add, ← Nat.mul_assoc,
        Nat.mul_le_mul_right_iff (two k)]
    · rw [if_neg first]
      by_cases second : b ≤ a + k
      · rw [if_pos second, show (2 : Nat) ^ k = 2 ^ (b - a) * 2 ^ (a + k - b) by rw [← Nat.pow_add]; congr 1; omega,
          ← Nat.mul_assoc, Nat.mul_le_mul_right_iff (two _)]
      · rw [if_neg second, Nat.mul_assoc, ← Nat.pow_add, show k + (b - (a + k)) = b - a by omega]
  unfold ratLog
  simp only [log2_mul_two_pow pos, same]
  split <;> push_cast <;> omega

/-- A factor of the numerator that its exponent takes back changes nothing. -/
theorem Fmt.round_mul_two_pow (f : Fmt) (mode : Mode) (draw : Nat) (neg : Bool) {n : Nat} (pos : n ≠ 0) (d k : Nat) (e : Int) :
    f.round mode draw neg (n * 2 ^ k) d (e - k) = f.round mode draw neg n d e := by
  have exponent : ratLog (n * 2 ^ k) d + (e - k) = ratLog n d + e := by
    rw [ratLog_mul_two_pow pos]
    omega
  have fraction (q : Int) : roundMag mode draw neg (scaleUp (n * 2 ^ k) (e - k - q)) (scaleUp d (q - (e - k))) =
      roundMag mode draw neg (scaleUp n (e - q)) (scaleUp d (q - e)) := by
    have up : scaleUp (n * 2 ^ k) (e - k - q) = scaleUp n (e - q) * 2 ^ (k + (e - k - q).toNat - (e - q).toNat) := by
      rw [scaleUp, scaleUp, Nat.mul_assoc, Nat.mul_assoc, ← Nat.pow_add, ← Nat.pow_add]
      congr 2
      omega
    have down : scaleUp d (q - (e - k)) = scaleUp d (q - e) * 2 ^ (k + (e - k - q).toNat - (e - q).toNat) := by
      rw [scaleUp, scaleUp, Nat.mul_assoc, ← Nat.pow_add]
      congr 2
      omega
    rw [up, down, roundMag_mul _ _ _ _ _ (Nat.two_pow_pos _)]
  have nonzero : n * 2 ^ k ≠ 0 := by positivity
  unfold Fmt.round
  simp only [exponent, fraction, if_neg pos, if_neg nonzero]

/-- The quotient of 1, however 1 is written (R183). -/
theorem Fmt.div_one (f : Fmt) (mode : Mode) (k : Nat) (y : FVal) :
    f.div mode (.fin false 1 0) y = f.div mode (.fin false (2 ^ k) (-k)) y := by
  cases y with
  | nan => rfl
  | inf neg => rfl
  | fin neg m e =>
    have scaled := f.round_mul_two_pow mode 0 (false != neg) (n := 1) (by decide) m k (0 - e)
    rw [Nat.one_mul, show (0 - e - k : Int) = -k - e by omega] at scaled
    have nonzero : 2 ^ k ≠ 0 := by positivity
    simp only [Fmt.div, scaled, if_neg nonzero, if_neg Nat.one_ne_zero]

end Sys2Proof.Machine
end

