-- ==== Sys2Proof/Proofs/VectorResults.lean ====
section
/-! The proofs of O5, O6, O7, O8, O9 and O10: how the vector and mask instructions complete (R165-R178, R183). -/

namespace Sys2Proof.Safety

open Sys2Proof Sys2Proof.Machine

section Forms

variable {i : Instr} {f : FmtA} {s : State} {lat : Nat} {x y z : Vec}

/-! ### The shapes of vector instructions (R160, R169, R171) -/

/-- An instruction of two vector sources completes with the value of its operation. -/
theorem completes_of_vectorTwo {signed : Bool} {op : Vec → Vec → Vec} (dst : DstOk f.d) (hx : readVector s 0 f.a = .ok x)
    (hy : vectorB signed f s = .ok y) (meaning : exec i s = issueA f (vectorTwo lat signed op f) s) :
    Completes i s (wordsA f) f.s.toNat (writeVector lat f.d (op x y) s) := by
  refine meaning.trans (issue_ok ?_)
  rw [vectorTwo, needDst_ok dst, hx, hy]
  rfl

/-- An instruction of one vector source completes with the value of its operation. -/
theorem completes_of_vectorOne {op : Vec → Vec} (dst : DstOk f.d) (unused : f.b.toNat = 48) (hx : readVector s 0 f.a = .ok x)
    (meaning : exec i s = issueA f (vectorOne lat op f) s) :
    Completes i s (wordsA f) f.s.toNat (writeVector lat f.d (op x) s) := by
  refine meaning.trans (issue_ok ?_)
  rw [vectorOne, needDst_ok dst, needUnused_ok unused, hx]
  rfl

/-- An instruction that adds to register d completes with the value of its operation. -/
theorem completes_of_vectorAcc {op : Vec → Vec → Vec → Vec} (dst : f.d.toNat < 32) (hx : readVector s 0 f.a = .ok x)
    (hy : readVector s 1 f.b = .ok y) (hz : readVector s 2 f.d = .ok z)
    (meaning : exec i s = issueA f (vectorAcc lat op f) s) :
    Completes i s (wordsA f) f.s.toNat (writeVector lat f.d (op x y z) s) := by
  refine meaning.trans (issue_ok ?_)
  rw [vectorAcc, needDstReg_ok dst, hx, hy, hz]
  rfl

/-- An instruction that adds to d traps where d names no register (R169). -/
theorem traps_of_vectorAcc {op : Vec → Vec → Vec → Vec} (dst : f.d.toNat = 48)
    (meaning : exec i s = issueA f (vectorAcc lat op f) s) : Traps i s .illegalOperand := by
  refine meaning.trans (issue_trap ?_)
  rw [vectorAcc, needDstReg, if_neg (by omega)]
  rfl

/-- A compare completes with the mask of the lanes that pass its test. -/
theorem maskIs_of_vectorCmp {test : Word32 → Word32 → Bool} {holds : Word32 → Word32 → Prop} (dst : MaskDstOk f.d)
    (hx : readVector s 0 f.a = .ok x) (hy : readVector s 1 f.b = .ok y)
    (meaning : exec i s = issueA f (vectorCmp lat test f) s) (value : ∀ a b, test a b = true ↔ holds a b) :
    MaskIs i s f lat fun k => holds (lane x k) (lane y k) := by
  refine ⟨BitVec.ofNat 64 (maskOf 64 fun k => test (lane x k) (lane y k)), meaning.trans (issue_ok ?_), fun k hk => ?_⟩
  · rw [vectorCmp, needMaskDst_ok dst, hx, hy]
    rfl
  · rw [getLsbD_maskOf _ k hk, value]

/-- A mask instruction of two masks completes bit by bit. -/
theorem maskIs_of_maskTwo {op : Word → Word → Word} {v : Nat → Prop} {p q : Word} (dst : MaskDstOk f.d)
    (hp : readMask s 0 f.a = .ok p) (hq : readMask s 1 f.b = .ok q) (meaning : exec i s = issueA f (maskTwo op f) s)
    (value : ∀ k, k < 64 → ((op p q).getLsbD k = true ↔ v k)) : MaskIs i s f 2 v := by
  refine ⟨op p q, meaning.trans (issue_ok ?_), value⟩
  rw [maskTwo, needMaskDst_ok dst, hp, hq]
  rfl

/-- A scalar result of a mask completes with the value of its operation. -/
theorem completes_of_maskToScalar {op : Word → Word} {p r : Word} (dst : DstOk f.d) (unused : f.b.toNat = 48)
    (hp : readMask s 0 f.a = .ok p) (meaning : exec i s = issueA f (maskToScalar op f) s) (value : op p = r) :
    Completes i s (wordsA f) f.s.toNat (writeScalar 2 f.d r s) := by
  refine meaning.trans (issue_ok ?_)
  rw [maskToScalar, needDst_ok dst, needUnused_ok unused, hp, ← value]
  rfl

/-- A conversion completes with the value of its operation in the mode that its operand names (R177). -/
theorem completes_of_vcvt {op : Mode → Nat → (Nat → Nat) → Vec → Vec} {b : Word} {m : Mode} (dst : DstOk f.d)
    (hx : readVector s 0 f.a = .ok x) (hb : readScalar s 1 f.b = .ok b) (mode : modeOf (b.toNat % 8) = some m)
    (meaning : exec i s = issueA f (vcvt op f) s) :
    Completes i s (wordsA f) f.s.toNat (writeVector 4 f.d (op m (b.toNat / 8 % 2) (drawOf s) x) s) := by
  refine meaning.trans (issue_ok ?_)
  have code : modeOf (field b 0 3) = some m := by rw [field_eq_div, Nat.pow_zero, Nat.div_one]; exact mode
  rw [vcvt, needDst_ok dst, hx, hb, ok_bind, ok_bind, ok_bind, code, field_eq_div]
  rfl

/-- A conversion traps where its operand's mode is reserved (R115, R177). -/
theorem traps_of_vcvt {op : Mode → Nat → (Nat → Nat) → Vec → Vec} {b : Word} (dst : DstOk f.d)
    (hx : readVector s 0 f.a = .ok x) (hb : readScalar s 1 f.b = .ok b) (reserved : modeOf (b.toNat % 8) = none)
    (meaning : exec i s = issueA f (vcvt op f) s) : Traps i s .illegalFunct := by
  refine meaning.trans (issue_trap ?_)
  have code : modeOf (field b 0 3) = none := by rw [field_eq_div, Nat.pow_zero, Nat.div_one]; exact reserved
  rw [vcvt, needDst_ok dst, hx, hb, ok_bind, ok_bind, ok_bind, code]
  rfl

end Forms

/-! ### Integers and logic -/

/-- Settles O5: each instruction is one operation on two vectors (`completes_of_vectorTwo`), whose lanes are those of its
table. -/
theorem vectorIntegerResults : Obligations.VectorIntegerResults := by
  unfold Obligations.VectorIntegerResults
  intro f s x y z dst hx hy hz
  have lanes {i signed y v} {op : Vec → Vec → Vec} (hy : vectorB signed f s = .ok y)
      (meaning : exec i s = issueA f (vectorTwo 2 signed op f) s) (value : ∀ k, k < 64 → lane (op x y) k = v k) :
      LanesAre i s f 2 v := ⟨_, completes_of_vectorTwo dst hx hy meaning, value⟩
  have each {i signed y v} {op : Word32 → Word32 → Word32} (hy : vectorB signed f s = .ok y)
      (meaning : exec i s = issueA f (vectorTwo 2 signed (mapLanes op) f) s) (value : ∀ k, op (lane x k) (lane y k) = v k) :
      LanesAre i s f 2 v := lanes hy meaning fun k hk => (lane_mapLanes op x y k hk).trans (value k)
  refine ⟨each hy rfl ?add, each hy rfl ?sub, each hy rfl ?adds, each hy rfl ?subs, each hy rfl ?min, each hy rfl ?max,
    each hy rfl ?mul, each hy rfl ?mulh, lanes hz rfl ?and, lanes hz rfl ?or, lanes hz rfl ?xor, lanes hz rfl ?andn,
    each hz rfl ?sll, each hz rfl ?srl, each hz rfl ?sra, fun q hq => ?sel⟩
  case add | sub | mul => exact fun _ => rfl
  case adds | subs => exact fun _ => congrArg _ (satS_eq 32 _)
  case min | max => exact fun _ => ite_lt_eq_ite_le ..
  case mulh => exact fun _ => highHalf32_eq _
  case and => exact fun k _ => lane_and x z k
  case or => exact fun k _ => lane_or x z k
  case xor => exact fun k _ => lane_xor x z k
  case andn => exact fun k hk => (lane_and ..).trans (congrArg _ (lane_not z hk))
  case sll => exact fun _ => shl_eq_ofNat ..
  case srl => exact fun _ => shr_eq_ofNat ..
  case sra => exact fun _ => sshr_eq_ofInt ..
  case sel =>
    refine ⟨selectLanes q x y, issue_ok (body := vselBody f) ?_, fun k hk => lane_ofLanes _ k hk⟩
    rw [vselBody, readA1, hq, ok_bind, vectorTwo, needDst_ok dst, hx, hy]
    rfl

/-! ### Floating point -/

/-- Settles O6: the lanes and pairs of `mapLanes`, `mapPairs` and their forms of three vectors are the rounded values. -/
theorem vectorFloatResults : Obligations.VectorFloatResults := by
  unfold Obligations.VectorFloatResults
  intro f s x y dst plain hx hy one two neg
  have hb : vectorB true f s = .ok y := by rw [vectorB, plain]; exact hy
  have lanes {i lat} {op : Nat → Nat → Nat} (meaning : exec i s = issueA f (vectorTwo lat true (mapLanes (laneNat op)) f) s) :
      one i lat op := ⟨_, completes_of_vectorTwo dst hx hb meaning, lane_mapLanes _ x y⟩
  have pairs {i lat} {op : Nat → Nat → Nat} (meaning : exec i s = issueA f (vectorTwo lat true (mapPairs op) f) s) :
      two i lat op := ⟨_, completes_of_vectorTwo dst hx hb meaning, pair_mapPairs _ x y⟩
  refine ⟨lanes rfl, lanes rfl, lanes (op := f32.sub) rfl, lanes rfl, lanes rfl, lanes (op := divEnc f32) rfl,
    pairs rfl, pairs rfl, pairs (op := f64.sub) rfl, pairs rfl, pairs rfl, pairs (op := divEnc f64) rfl,
    fun queue => ?_, fun z register hz => ?_⟩
  · have traps {i lat op} := traps_of_vectorAcc (i := i) (s := s) (lat := lat) (op := op) queue
    exact ⟨traps rfl, traps rfl, traps rfl, traps rfl⟩
  · have acc {i lat op} := completes_of_vectorAcc (i := i) (lat := lat) (op := op) register hx hy hz
    exact ⟨⟨_, acc rfl, lane_ofLanes _⟩, ⟨_, acc rfl, lane_ofLanes _⟩, ⟨_, acc rfl, pair_ofPairs _⟩,
      ⟨_, acc rfl, pair_ofPairs _⟩⟩

/-! ### Compares and masks -/

/-- Settles O7: bit k of a compare is its test of lane k (`maskIs_of_vectorCmp`); a mask of two masks is taken bit by bit, and
MPOP and MFFS count as `onesOf_eq` and the lemmas of `firstOne` say. -/
theorem vectorCompareAndMaskResults : Obligations.VectorCompareAndMaskResults := by
  unfold Obligations.VectorCompareAndMaskResults
  refine ⟨fun f s x y dst hx hy => ?cmp, fun f s p hp => ⟨fun q dst hq => ?masks, fun dst unused => ?scalars⟩⟩
  case cmp =>
    have cmp {i lat test holds} := maskIs_of_vectorCmp (i := i) (lat := lat) (test := test) (holds := holds) dst hx hy
    let float := fun (v : Word32) => f32.decode v.toNat
    exact ⟨cmp (holds := fun a b => (float a).eq (float b) = true) rfl fun _ _ => .rfl,
      cmp (holds := fun a b => (float a).lt (float b) = true) rfl fun _ _ => .rfl,
      cmp (holds := fun a b => (float a).lt (float b) = true ∨ (float a).eq (float b) = true) rfl fun _ _ => Bool.or_eq_true_iff,
      cmp (holds := fun a b => float a = .nan ∨ float b = .nan) rfl fun _ _ => by simp [testF, float],
      cmp (holds := fun a b => a = b) rfl fun _ _ => beq_iff_eq,
      cmp (holds := fun a b => a.toInt < b.toInt) rfl fun _ _ => decide_eq_true_iff,
      cmp (holds := fun a b => a.toNat < b.toNat) rfl fun _ _ => decide_eq_true_iff,
      cmp (holds := fun a b => a.toInt ≤ b.toInt) rfl fun _ _ => decide_eq_true_iff⟩
  case masks =>
    have two {i op v} := maskIs_of_maskTwo (i := i) (op := op) (v := v) dst hp hq
    exact ⟨two rfl fun k _ => by simp, two rfl fun k _ => by simp, two rfl fun k _ => by simp,
      two rfl fun k hk => by simp [hk]⟩
  case scalars =>
    have scalar {i op r} := completes_of_maskToScalar (i := i) (op := op) (r := r) dst unused hp
    refine ⟨scalar rfl (congrArg _ (onesOf_eq p)), scalar rfl rfl, firstOne p, firstOne_le p, fun _ => firstOne_clear,
      firstOne_set, _, issue_ok (body := mffsBody f) ?_, lane_ofLanes _⟩
    rw [mffsBody, needDst_ok dst, needUnused_ok unused, hp]
    rfl

/-! ### Permutes and reductions -/

/-- Settles O8: a permute names the source lane of each lane; a reduction is the tree of R131 (`lane_reduceLanes`,
`pair_reducePairs`). -/
theorem permuteAndReductionResults : Obligations.PermuteAndReductionResults := by
  unfold Obligations.PermuteAndReductionResults
  refine ⟨fun f s x dst plain hx => ⟨fun y hy => ?perm, fun b hb => ?shuf⟩, fun f s x dst unused hx => ?red⟩
  case perm =>
    have hy' : vectorB true f s = .ok y := by rw [vectorB, plain]; exact hy
    exact ⟨_, completes_of_vectorTwo dst hx hy' rfl, lane_ofLanes _⟩
  case shuf =>
    refine ⟨ofLanes fun k => (shufSource (field b 6 2) (field b 0 6) k).elim 0 (lane x), issue_ok (body := vshufBody f) ?_,
      fun k hk => ?_⟩
    · rw [vshufBody, needDst_ok dst, hx, hb]
      refine congrArg (fun r => Except.ok (writeVector 3 f.d (ofLanes r) s)) (funext fun k => ?_)
      cases shufSource (field b 6 2) (field b 0 6) k with
      | none => rfl
      | some j => rfl
    · rw [lane_ofLanes _ k hk, shufSource_elim x (field_lt b 6 2), field_eq_div, field_eq_div, Nat.pow_zero, Nat.div_one]
      rfl
  case red =>
    intro el one sgn
    have red {i op} := completes_of_vectorOne (i := i) (lat := 8) (op := op) dst unused hx
    have lanes {i} {op : Nat → Nat → Nat} (meaning : exec i s = issueA f (vectorOne 8 (reduceLanes op) f) s) : one i op :=
      ⟨_, red meaning, fun k _ => lane_reduceLanes op x k⟩
    have greater : (fun a b => if ltS32 a b then b else a) = fun a b => if sgn a < sgn b then b else a := by
      simp [ltS32, sgn]
    have less : (fun a b => if ltS32 b a then b else a) = fun a b => if sgn b < sgn a then b else a := by
      simp [ltS32, sgn]
    exact ⟨lanes rfl, lanes rfl, lanes rfl, ⟨_, red rfl, fun j _ => pair_reducePairs f64.add x j⟩,
      lanes (op := fun a b => (a + b) % 2 ^ 32) rfl, greater ▸ lanes rfl, less ▸ lanes rfl⟩

/-! ### Moves -/

section Moves

variable {f : FmtA} {s : State} {x : Word}

theorem eIndex_ok (h : x.toNat ≤ 191) : eIndex x s = .ok x.toNat := if_neg (by omega)

theorem eIndex_trap (h : 191 < x.toNat) : eIndex x s = trapAt s .illegalOperand x := if_pos h

/-- What VXPUT leaves: e_i, its dirty bit and its distance alone have changed (R105, R175). -/
theorem vxputBody_ok {v : Vec} (unused : f.d.toNat = 48) (hx : readScalar s 0 f.a = .ok x) (hv : readVector s 1 f.b = .ok v)
    (h : x.toNat ≤ 191) : vxputBody f s = .ok (s.modCtx fun c => { c with
      regs := dirtyGrp { c.regs with e := c.regs.e.setIfInBounds x.toNat v } (2 + x.toNat / 64)
      board := boardPut c.board (.e x.toNat) 2 }) := by
  rw [vxputBody, needUnused_ok unused, hx, hv, ok_bind, ok_bind, ok_bind, eIndex_ok h]
  rfl

end Moves

/-- Settles O9: each move reads its sources and writes one result; VXGET and VXPUT go by `eIndex`. -/
theorem moveResults : Obligations.MoveResults := by
  unfold Obligations.MoveResults
  refine fun f s => ⟨fun x dst unused hx => ?vmov, fun x b dst hx hb => ?vext, fun x hx => ⟨fun dst unused => ?mset,
    fun dst unused => ?vbcast, fun b z register hb hz => ?vins, fun v dst unused small hv => ?vxget, fun dst unused large => ?noGet,
    fun v unused hv => ⟨fun large => ?noPut, fun small => ?vxput⟩⟩⟩
  case vmov => exact ⟨_, completes_of_vectorOne dst unused hx rfl, fun _ _ => rfl⟩
  case vext =>
    refine issue_ok (body := vextBody f) ?_
    rw [vextBody, needDst_ok dst, hx, hb]
    rfl
  case mset =>
    refine issue_ok (body := msetBody f) ?_
    rw [msetBody, needMaskDst_ok dst, needUnused_ok unused, hx]
    rfl
  case vbcast =>
    refine ⟨_, issue_ok (body := vbcastBody f) ?_, lane_ofLanes _⟩
    rw [vbcastBody, needDst_ok dst, needUnused_ok unused, hx]
    rfl
  case vins =>
    refine ⟨_, issue_ok (body := vinsBody f) ?_, lane_ofLanes _⟩
    rw [vinsBody, needDstReg_ok register, hx, hb, hz]
    rfl
  case vxget =>
    refine ⟨v, issue_ok (body := vxgetBody f) ?_, fun _ _ => rfl⟩
    rw [vxgetBody, needDst_ok dst, needUnused_ok unused, hx, ok_bind, ok_bind, ok_bind, eIndex_ok small, ok_bind, hv]
    rfl
  case noGet =>
    refine issue_trap (body := vxgetBody f) ?_
    rw [vxgetBody, needDst_ok dst, needUnused_ok unused, hx, ok_bind, ok_bind, ok_bind, eIndex_trap large]
    rfl
  case noPut =>
    refine issue_trap (body := vxputBody f) ?_
    rw [vxputBody, needUnused_ok unused, hx, hv, ok_bind, ok_bind, ok_bind, eIndex_trap large]
    rfl
  case vxput =>
    refine ⟨_, issue_ok (vxputBody_ok unused hx hv small), ?_⟩
    exact ⟨Vector.getElem?_setIfInBounds_self_of_lt (by omega), fun k other => Vector.getElem?_setIfInBounds_ne (Ne.symm other),
      rfl, rfl, rfl, rfl, rfl, sameOutside_modCtx rfl rfl⟩

/-! ### Conversions and approximations -/

theorem modeOf_reserved {n : Nat} (h : 5 ≤ n) : modeOf n = none := by
  obtain ⟨n, rfl⟩ := Nat.exists_eq_add_of_le' h
  rfl

/-- Settles O10: the elements of a conversion are those of its table, an encoding of 16 bits fits its element
(`Fmt.ofVal_lt`), and 1 may be written as any power of two times its inverse (`Fmt.div_one`). -/
theorem conversionAndApproximationResults : Obligations.ConversionAndApproximationResults := by
  unfold Obligations.ConversionAndApproximationResults
  refine ⟨fun f s x b dst hx hb => ?conversions, fun f s x dst unused hx => ?approximations⟩
  case conversions =>
    intro h d el half halves
    refine ⟨fun reserved => ?_, fun m mode => ?_⟩
    · have traps {i op} := traps_of_vcvt (i := i) (op := op) dst hx hb (modeOf_reserved reserved)
      simp only [List.forall_mem_cons]
      exact ⟨traps rfl, traps rfl, traps rfl, traps rfl, traps rfl, traps rfl, traps rfl, traps rfl, fun _ none => nomatch none⟩
    · have done {i op} := completes_of_vcvt (i := i) (op := op) dst hx hb mode
      have narrow {i} {g : Fmt} (width : g.ew + g.mw + 1 = 16)
          (meaning : exec i s = issueA f (vcvt (fun m h d x => ofHalf h fun e => convert f32 g m (d e) (lane x e).toNat) f) s) :
          halves i g m := by
        have two : h < 2 := Nat.mod_lt _ (by decide)
        refine ⟨_, done meaning, fun e he => ⟨?_, ?_⟩⟩
        · have fits : convert f32 g m (d e) (el e) < 2 ^ 16 := width ▸ g.ofVal_lt ..
          exact (halfElem_ofHalf _ two two he).trans ((if_pos rfl).trans (Nat.mod_eq_of_lt fits))
        · exact (halfElem_ofHalf _ two (by omega) he).trans (if_neg (by omega))
      exact ⟨⟨_, done rfl, lane_ofLanes _⟩, ⟨_, done rfl, lane_ofLanes _⟩, ⟨_, done rfl, pair_ofPairs _⟩,
        ⟨_, done rfl, lane_ofLanes _⟩, ⟨_, done rfl, lane_ofLanes _⟩, ⟨_, done rfl, lane_ofLanes _⟩, narrow rfl rfl,
        narrow rfl rfl⟩
  case approximations =>
    have one {i op} := completes_of_vectorOne (i := i) (lat := 6) (op := op) dst unused hx
    refine ⟨⟨_, one rfl, lane_ofLanes _⟩, ⟨_, one rfl, fun k hk => ?_⟩, ⟨_, one rfl, lane_ofLanes _⟩,
      ⟨_, one rfl, lane_ofLanes _⟩⟩
    have unit : f32.decode 0x3F800000 = .fin false (2 ^ 23) (-23) := rfl
    rw [mapLane1, lane_ofLanes _ k hk, f32.div_one .rne 23, unit]
    rfl

end Sys2Proof.Safety
end

