-- ==== Sys2Proof/Proofs/OutlierList.lean ====
section
/-! SUPPORT. A write of optional bytes over memory, cut into the atoms that it touches, and the append to an outlier list whose home
is at rest (R127, R181, R233, R408). -/

namespace Sys2Proof.Machine

open Sys2Proof Sys2Proof.Safety

/-! ### Optional bytes -/

/-- The byte that a list of optional bytes from address `a` on enables at an address. -/
def enabledAt (a : Nat) (bs : List (Option Byte)) (y : Nat) : Option Byte := if a ≤ y then (bs[y - a]?).join else none

theorem enabledAt_nil (a y : Nat) : enabledAt a [] y = none := by simp [enabledAt]

theorem enabledAt_append (a : Nat) (bs cs : List (Option Byte)) (y : Nat) :
    enabledAt a (bs ++ cs) y = if y < a + bs.length then enabledAt a bs y else enabledAt (a + bs.length) cs y := by
  unfold enabledAt
  by_cases low : a ≤ y
  · by_cases first : y < a + bs.length
    · rw [if_pos low, if_pos first, if_pos low, List.getElem?_append_left (by omega)]
    · rw [if_pos low, if_neg first, if_pos (by omega), List.getElem?_append_right (by omega), Nat.sub_sub]
  · rw [if_neg low, if_pos (by omega), if_neg low]

theorem enabledAt_of_ge {a y : Nat} {bs : List (Option Byte)} (past : a + bs.length ≤ y) : enabledAt a bs y = none := by
  rw [enabledAt, if_pos (by omega), List.getElem?_eq_none (by omega), Option.join_none]

theorem enabledAt_of_lt {a y : Nat} (bs : List (Option Byte)) (before : y < a) : enabledAt a bs y = none := if_neg (by omega)

/-- A list without an enabled byte enables none. -/
theorem enabledAt_of_none {a : Nat} {bs : List (Option Byte)} (dark : ∀ b ∈ bs, b = none) (y : Nat) :
    enabledAt a bs y = none := by
  unfold enabledAt
  split
  · cases found : bs[y - a]? with
    | none => rfl
    | some b => exact congrArg Option.join (congrArg some (dark b (List.mem_of_getElem? found)))
  · rfl

theorem enabledAt_map_some (a : Nat) (bs : List Byte) {k : Nat} (h : k < bs.length) :
    enabledAt a (bs.map some) (a + k) = some bs[k] := by
  rw [enabledAt, if_pos (Nat.le_add_right ..), Nat.add_sub_cancel_left, List.getElem?_map, List.getElem?_eq_getElem h]
  rfl

/-- Bytes that are not enabled may be left out in front. -/
theorem enabledAt_behind_none (a : Nat) {front : List (Option Byte)} (back : List (Option Byte)) (dark : ∀ b ∈ front, b = none)
    (y : Nat) : enabledAt (a + front.length) back y = enabledAt a (front ++ back) y := by
  rw [enabledAt_append]
  split
  · next first => rw [enabledAt_of_lt back first, enabledAt_of_none dark]
  · rfl

theorem enabledAt_trim (a : Nat) (bs : List (Option Byte)) (y : Nat) :
    enabledAt (a + (bs.takeWhile Option.isNone).length) (bs.drop (bs.takeWhile Option.isNone).length) y = enabledAt a bs y := by
  have dark : ∀ b ∈ bs.takeWhile Option.isNone, b = none := fun b hb => by simpa using List.mem_takeWhile_imp hb
  have split : bs.takeWhile Option.isNone ++ bs.dropWhile Option.isNone = bs := List.takeWhile_append_dropWhile
  have rest : bs.drop (bs.takeWhile Option.isNone).length = bs.dropWhile Option.isNone :=
    (congrArg (List.drop _) split.symm).trans List.drop_left
  rw [rest, enabledAt_behind_none a _ dark, split]

/-! ### Memory after a write of optional bytes -/

/-- Memory has the enabled bytes of a list from `a` on, and every other byte as before; the cube's units stand, and nothing is
poisoned. -/
structure Overlaid (cube : Nat) (s t : State) (a : Nat) (bs : List (Option Byte)) : Prop where
  cube : t.cube cube = s.cube cube
  poison : t.poison = []
  wf : Memory.wf t.mem = true
  bytes : ∀ y, memGet t.mem y = (enabledAt a bs y).getD (memGet s.mem y)

section Overlay

variable {cube a b : Nat} {s t u : State} {bs cs : List (Option Byte)}

theorem Overlaid.refl (poison : s.poison = []) (wf : Memory.wf s.mem = true) (dark : ∀ y, enabledAt a bs y = none) :
    Overlaid cube s s a bs :=
  ⟨rfl, poison, wf, fun y => by rw [dark y]; rfl⟩

theorem Overlaid.congr (h : Overlaid cube s t a bs) (same : ∀ y, enabledAt b cs y = enabledAt a bs y) : Overlaid cube s t b cs :=
  ⟨h.cube, h.poison, h.wf, fun y => by rw [same]; exact h.bytes y⟩

/-- A list is written part by part. -/
theorem Overlaid.append (h : Overlaid cube s t a bs) (k : Overlaid cube t u (a + bs.length) cs) :
    Overlaid cube s u a (bs ++ cs) where
  cube := k.cube.trans h.cube
  poison := k.poison
  wf := k.wf
  bytes y := by
    rw [k.bytes, h.bytes, enabledAt_append]
    split
    · next first => rw [enabledAt_of_lt cs first]; rfl
    · next past => rw [enabledAt_of_ge (Nat.le_of_not_lt past)]; rfl

/-- The same, where a list is cut at a length that it may not reach. -/
theorem Overlaid.append_cut {k : Nat} (h : Overlaid cube s t a (bs.take k)) (l : Overlaid cube t u (a + k) (bs.drop k)) :
    Overlaid cube s u a bs := by
  have rest : Overlaid cube t u (a + (bs.take k).length) (bs.drop k) := by
    rcases Nat.le_total k bs.length with reached | short
    · rwa [List.length_take, Nat.min_eq_left reached]
    · rw [List.drop_eq_nil_of_le short] at l ⊢
      exact l.congr fun y => by rw [enabledAt_nil, enabledAt_nil]
  exact List.take_append_drop k bs ▸ h.append rest

theorem State.store_poison_of_nil (s : State) (a : Nat) (bs : List Byte) (h : s.poison = []) : (s.store a bs).poison = [] := by
  unfold State.store
  split
  · exact h
  · have marked : (markLines { s with mem := memSetList s.mem a bs } a bs.length).poison = [] := by
      unfold markLines
      split
      · exact h
      · unfold State.modCore State.setCore
        split
        · exact h
        · exact h
    simp [marked]

theorem store_overlays (poison : s.poison = []) (wf : Memory.wf s.mem = true) (a : Nat) (bs : List Byte) :
    Overlaid cube s (s.store a bs) a (bs.map some) where
  cube := State.store_cube ..
  poison := s.store_poison_of_nil a bs poison
  wf := State.store_wf s a bs wf
  bytes y := by
    rw [State.store_mem, memGet_memSetList wf]
    split
    · next inside =>
      obtain ⟨k, rfl⟩ := Nat.exists_eq_add_of_le inside.1
      have short : k < bs.length := by omega
      rw [enabledAt_map_some a bs short, Nat.add_sub_cancel_left, List.getD_eq_getElem _ _ short]
      rfl
    · next outside =>
      rcases Nat.lt_or_ge y a with before | behind
      · rw [enabledAt_of_lt _ before]
        rfl
      · rw [enabledAt_of_ge (by rw [List.length_map]; omega)]
        rfl

/-- Steps that store the enabled bytes of a list one by one. -/
theorem foldl_store_overlays {f : State → Option Byte × Nat → State} (hsome : ∀ t b n, f t (some b, n) = t.store (a + n) [b])
    (hnone : ∀ t n, f t (none, n) = t) (poison : s.poison = []) (wf : Memory.wf s.mem = true) (n : Nat) :
    Overlaid cube s ((bs.zipIdx n).foldl f s) (a + n) bs := by
  induction bs generalizing s n with
  | nil => exact .refl poison wf (enabledAt_nil _)
  | cons b bs ih =>
    rw [List.zipIdx_cons, List.foldl_cons]
    have first : Overlaid cube s (f s (b, n)) (a + n) [b] := by
      cases b with
      | none => exact (hnone s n).symm ▸ .refl poison wf (enabledAt_of_none (by simp))
      | some b => exact (hsome s b n).symm ▸ store_overlays poison wf (a + n) [b]
    exact first.append (ih first.poison first.wf (n + 1))

theorem storeEnabled_overlays (poison : s.poison = []) (wf : Memory.wf s.mem = true) (a : Nat) (bs : List (Option Byte)) :
    Overlaid cube s (storeEnabled s a bs) a bs := by
  unfold storeEnabled
  split
  · next whole =>
    have same : bs = (bs.map fun b => b.getD 0).map some := by
      rw [List.map_map]
      refine (List.map_id' bs).symm.trans (List.map_congr_left fun b hb => ?_)
      obtain ⟨v, rfl⟩ := Option.isSome_iff_exists.mp (List.all_eq_true.mp whole b hb)
      rfl
    exact (store_overlays poison wf a _).congr fun y => congrArg (enabledAt a · y) same
  · exact foldl_store_overlays (fun _ _ _ => rfl) (fun _ _ => rfl) poison wf 0

/-- Bytes that are written behind others are read back. -/
theorem Overlaid.load_behind {front back : List (Option Byte)} {bs : List Byte}
    (h : Overlaid cube s t a (front ++ bs.map some ++ back)) {n : Nat} (len : bs.length = n) : t.load (a + front.length) n = bs := by
  subst len
  refine List.ext_getElem (memGetList_length ..) fun k _ hk => ?_
  have here : enabledAt a (front ++ bs.map some ++ back) (a + front.length + k) = some bs[k] := by
    rw [List.append_assoc, enabledAt_append, if_neg (by omega), enabledAt_append, if_pos (by simpa using hk),
      enabledAt_map_some _ _ hk]
  refine (memGetList_getElem ..).trans ?_
  rw [h.bytes, here]
  rfl

end Overlay

/-! ### A write at a home at rest -/

/-- Nothing holds the memory of a cube. -/
structure AtRest (q : Cube) : Prop where
  graphs : q.graphs = []
  owned : q.owned = []
  moving : q.moving = []
  hosted : q.hosted = []
  refreshing : q.refreshing = []

theorem atRest_of_calm {s : State} {cube : Nat} (h : Calm s cube) : AtRest (s.cube cube) :=
  ⟨h.graphs, h.owned, h.moving, h.hosted, h.refreshing⟩

theorem AtRest.mustWait {q : Cube} (h : AtRest q) (who : Option Nat) (a n : Nat) : mustWait q who a n = false :=
  mustWait_of_calm h.owned h.moving h.refreshing who a n

section HomeAtRest

variable {cube a : Nat} {s t : State} {bs : List (Option Byte)}

theorem homeWrite_atRest (rest : AtRest (t.cube cube)) (poison : t.poison = []) (who : Option Nat) (a : Nat)
    (bs : List (Option Byte)) : homeWrite t cube who a bs 0 = .done (storeEnabled t a bs) := by
  have outside : registered t cube a bs.length = false := by simp [registered, rest.graphs]
  have alone : hostedIn t cube a bs.length = false := by simp [hostedIn, rest.hosted]
  have clean : t.poisoned a bs.length = none := by rw [State.poisoned, poison, List.find?_nil]
  simp only [homeWrite, outside, rest.mustWait, alone, clean]
  rfl

/-- One write of an append: where the bytes of a part are written without those in front that are not enabled. -/
theorem appendWrite_trimmed {seg : BitVec 16} {p : Place} (rest : AtRest (t.cube p.cube)) (poison : t.poison = [])
    (wf : Memory.wf t.mem = true) (a : Nat) (bs : List (Option Byte)) (off : Word) :
    ∃ u, Overlaid p.cube t u a bs ∧ ∀ l, appendWrite s seg t (trimWrite (p, a, bs, off) :: l) = appendWrite s seg u l := by
  refine ⟨_, (storeEnabled_overlays poison wf _ _).congr fun y => (enabledAt_trim a bs y).symm, fun l => ?_⟩
  rw [trimWrite, appendWrite, homeWrite_atRest rest poison]

/-- The writes of an append, at a home at rest: all are performed, part by part. -/
theorem appendWrite_atomParts {seg : BitVec 16} {p : Place} (rest : AtRest (t.cube p.cube)) (poison : t.poison = [])
    (wf : Memory.wf t.mem = true) (off : Nat → Word) (fuel : Nat) (fits : bs.length + a % 32 ≤ 32 * fuel) :
    ∃ u, appendWrite s seg t (((atomParts fuel a bs).map fun x => (p, x.1, x.2, off x.1)).map trimWrite) = .ok u ∧
      Overlaid p.cube t u a bs := by
  induction fuel generalizing t a bs with
  | zero =>
    obtain rfl : bs = [] := List.eq_nil_of_length_eq_zero (by omega)
    exact ⟨t, rfl, .refl poison wf (enabledAt_nil _)⟩
  | succ fuel ih =>
    unfold atomParts
    split
    · next empty =>
      obtain rfl : bs = [] := List.isEmpty_iff.mp empty
      exact ⟨t, rfl, .refl poison wf (enabledAt_nil _)⟩
    · generalize cut : 32 - a % 32 = k
      dsimp only
      have after {u} (first : Overlaid p.cube t u a (bs.take k)) : ∃ v, appendWrite s seg u
          (((atomParts fuel (a + k) (bs.drop k)).map fun x => (p, x.1, x.2, off x.1)).map trimWrite) = .ok v ∧
          Overlaid p.cube t v a bs := by
        obtain ⟨v, done, later⟩ := ih (t := u) (a := a + k) (bs := bs.drop k) (first.cube ▸ rest) first.poison first.wf
          (by rw [List.length_drop]; omega)
        exact ⟨v, done, first.append_cut later⟩
      split
      · obtain ⟨u, first, goes⟩ := appendWrite_trimmed (s := s) (seg := seg) rest poison wf a (bs.take k) (off a)
        rw [List.map_cons, List.map_cons, goes]
        exact after first
      · next dark =>
        refine after (.refl poison wf (enabledAt_of_none fun b hb => ?_))
        simpa using fun set => dark (List.any_eq_true.mpr ⟨b, hb, set⟩)

end HomeAtRest


/-! ### The append to an outlier list (R127, R408) -/

/-- The bytes of an append from the start of its list on: the new count, then, behind the header and the entries that were
there, the new entries. -/
def listBytes (count : Nat) (ents : List (Nat × Nat)) : List (Option Byte) :=
  (bytesOfNat 4 (count + ents.length)).map some ++ List.replicate (28 + 8 * count) none ++ (entryBytes ents).map some

theorem entryBytes_length (ents : List (Nat × Nat)) : (entryBytes ents).length = 8 * ents.length := by
  induction ents with
  | nil => rfl
  | cons e ents ih =>
    rw [entryBytes] at ih ⊢
    rw [List.flatMap_cons, List.length_append, List.length_append, ih, bytesOfNat_length, bytesOfNat_length, List.length_cons]
    omega

theorem listBytes_length (count : Nat) (ents : List (Nat × Nat)) :
    (listBytes count ents).length = 32 + 8 * count + 8 * ents.length := by
  simp only [listBytes, List.length_append, List.length_map, List.length_replicate, bytesOfNat_length, entryBytes_length]
  omega

section Append

variable {s : State} {o : Word} {q z : Piece} {qs : List Piece}

/-- Where no request of a thread is in flight, nothing is performed before an access. -/
theorem drainPair_of_no_flights (idle : s.flights = []) (home : Nat) : drainPair s home = .ok s := by
  unfold drainPair
  rw [idle]
  rfl

theorem appendOutliers_misaligned (ents : List (Nat × Nat)) (unaligned : o.toNat % 32 ≠ 0) :
    appendOutliers o ents s = trapAccess s .misaligned o .atomic (segOf s 0) := by
  unfold appendOutliers
  exact if_pos unaligned

/-- An append to a list in stacked DRAM at a home at rest goes by the list's header and the block that it lies in. -/
theorem appendOutliers_atRest (ents : List (Nat × Nat)) (aligned : o.toNat % 32 = 0)
    (placed : place s (segOf s 0) o 32 .atomic listRegion = .ok (q :: qs))
    (settled : settlePiece s .atomic (segOf s 0) q = .ok z) (dram : z.place.region = .dram) (calm : Calm s z.place.cube)
    {count cap : Nat} (hcount : natOfBytes (s.load z.place.addr 4) = count) (hcap : natOfBytes (s.load (z.place.addr + 4) 4) = cap) :
    appendOutliers o ents s =
      if 508 < cap ∨ cap < count then trapAccess s .outlierFull o .atomic (segOf s 0)
      else if 4096 < o.toNat % 4096 + (32 + 8 * cap) then trapAccess s .addressRange o .atomic (segOf s 0)
      else if cap < count + ents.length then trapAccess s .outlierFull o .atomic (segOf s 0)
      else (appendWrite s (segOf s 0) s ((writesOf (listBytes count ents) [⟨z.place, o, 32 + 8 * cap⟩]).map trimWrite)).map
        fun t => l1DropRange t z.place.addr (32 + 8 * cap) := by
  subst hcount hcap
  have free : mustWait (s.cube z.place.cube) none z.place.addr 32 = false := (atRest_of_calm calm).mustWait ..
  have clean : s.poisoned z.place.addr 32 = none := by rw [State.poisoned, calm.poison, List.find?_nil]
  unfold segOf at placed settled ⊢
  have inBlock (n : Nat) : listPieces s z.place (s.regs.seg[0]?.getD 0) o n =
      if o.toNat % 4096 + n ≤ 4096 then some [⟨z.place, o, n⟩] else none := by
    unfold listPieces
    rw [dram]
  simp only [appendOutliers, if_neg (not_not_intro aligned), placed, ok_bind, settled, drainPair_of_no_flights calm.flights, free,
    clean, inBlock]
  refine (if_neg Bool.false_ne_true).trans ((if_neg (by simp)).trans (if_congr (by simp) rfl ?_))
  rcases Nat.lt_or_ge 4096 (o.toNat % 4096 + (32 + 8 * natOfBytes (s.load (z.place.addr + 4) 4))) with crosses | inside
  · rw [if_pos crosses, if_neg (Nat.not_le_of_lt crosses)]
  · rw [if_pos inside, if_neg (Nat.not_lt_of_le inside)]
    dsimp only
    rw [listBytes]
    generalize appendWrite s _ s _ = written
    cases written with
    | ok t => rfl
    | error e => rfl

/-- An append of entries for which there is room: the list's bytes are written, and the registers stand. -/
theorem appendOutliers_done {ents : List (Nat × Nat)} (aligned : o.toNat % 32 = 0)
    (placed : place s (segOf s 0) o 32 .atomic listRegion = .ok (q :: qs))
    (settled : settlePiece s .atomic (segOf s 0) q = .ok z) (dram : z.place.region = .dram) (calm : Calm s z.place.cube)
    (wf : Memory.wf s.mem = true) {count cap : Nat} (hcount : natOfBytes (s.load z.place.addr 4) = count)
    (hcap : natOfBytes (s.load (z.place.addr + 4) 4) = cap) (small : cap ≤ 508) (inBlock : o.toNat % 4096 + 32 + 8 * cap ≤ 4096)
    (room : count + ents.length ≤ cap) :
    ∃ t, appendOutliers o ents s = .ok t ∧ Overlaid z.place.cube s t z.place.addr (listBytes count ents) ∧ t.regs = s.regs := by
  obtain ⟨u, done, bytes⟩ := appendWrite_atomParts (s := s) (seg := segOf s 0) (atRest_of_calm calm) calm.poison wf
    (a := z.place.addr) (bs := listBytes count ents) (fun x => o + BitVec.ofNat 64 (x - z.place.addr)) ((32 + 8 * cap) / 32 + 2)
    (by rw [listBytes_length]; omega)
  have appended : appendOutliers o ents s = .ok (l1DropRange u z.place.addr (32 + 8 * cap)) := by
    have whole : (listBytes count ents).take (32 + 8 * cap) = listBytes count ents :=
      List.take_of_length_le (by rw [listBytes_length]; omega)
    rw [appendOutliers_atRest ents aligned placed settled dram calm hcount hcap, if_neg (by omega), if_neg (by omega),
      if_neg (by omega), writesOf, writesOf, List.append_nil, whole, done]
    rfl
  have kept := appendOutliers_keeps o ents s
  rw [appended] at kept
  exact ⟨_, appended, ⟨bytes.cube, bytes.poison, bytes.wf, bytes.bytes⟩, kept⟩

end Append

section Appended

variable {cube a count : Nat} {s t : State} {ents : List (Nat × Nat)} (h : Overlaid cube s t a (listBytes count ents))
include h

theorem Overlaid.list_count (small : count + ents.length < 2 ^ 32) : natOfBytes (t.load a 4) = count + ents.length := by
  have first := Overlaid.load_behind (front := []) (bs := bytesOfNat 4 (count + ents.length)) (n := 4)
    (back := List.replicate (28 + 8 * count) none ++ (entryBytes ents).map some) (by rwa [List.nil_append, ← List.append_assoc])
    (bytesOfNat_length ..)
  rw [List.length_nil, Nat.add_zero] at first
  rw [first, natOfBytes_bytesOfNat, Nat.mod_eq_of_lt (by omega)]

theorem Overlaid.list_entries : t.load (a + 32 + 8 * count) (8 * ents.length) = entryBytes ents := by
  have last := Overlaid.load_behind (back := []) (by rwa [List.append_nil]) (entryBytes_length ents)
  rwa [List.length_append, List.length_map, List.length_replicate, bytesOfNat_length,
    show a + (4 + (28 + 8 * count)) = a + 32 + 8 * count by omega] at last

theorem Overlaid.list_others {y : Nat} (notCount : ¬(a ≤ y ∧ y < a + 4))
    (notEntry : ¬(a + 32 + 8 * count ≤ y ∧ y < a + 32 + 8 * count + 8 * ents.length)) : memGet t.mem y = memGet s.mem y := by
  have outside : enabledAt a (listBytes count ents) y = none := by
    rw [listBytes, List.append_assoc, enabledAt_append, enabledAt_append]
    simp only [List.length_map, List.length_replicate, bytesOfNat_length]
    split
    · exact enabledAt_of_lt _ (by omega)
    · split
      · exact enabledAt_of_none (fun b hb => List.eq_of_mem_replicate hb) y
      · exact enabledAt_of_ge (by rw [List.length_map, entryBytes_length]; omega)
  rw [h.bytes, outside]
  rfl

end Appended

end Sys2Proof.Machine
end

