-- ==== Sys2Proof/Proofs/SharedExponent.lean ====
section
/-! SUPPORT and the proof of O11: shared-exponent packs and unpacks (R127, R178-R182, R408). -/

namespace Sys2Proof.Machine

open Sys2Proof Sys2Proof.Safety

/-! ### Blocks of a register (R178, R180) -/

section Blocks

variable {m : Nat} {l : List Nat} (fits : 8 * sxBytes m * l.length ≤ 2048)
include fits

theorem ofBlocks_toNat : (ofBlocks m l).toNat = packNat (8 * sxBytes m) l := by
  rw [ofBlocks, BitVec.toNat_ofNat,
    Nat.mod_eq_of_lt (Nat.lt_of_lt_of_le (packNat_lt ..) (Nat.pow_le_pow_right (by decide) fits))]

theorem blockOf_ofBlocks (n : Nat) : blockOf m (ofBlocks m l) n = l.getD n 0 % 2 ^ (8 * sxBytes m) := by
  rw [blockOf, ofBlocks_toNat fits, ← Nat.mul_assoc, Nat.mul_right_comm]
  exact elemNat_packNat ..

end Blocks

/-! ### What VPK packs (R180) -/

/-- Block `n` of a pack with a supplied scale: its number, and the positions of its outliers (R126). -/
def scaledBlock (m : Nat) (c : SxControl) (sig : FVal) (s : State) (x : Vec) (n : Nat) : Nat × List Nat :=
  sxPackScaled m c.mode (fun i => drawOf s (16 * n + i)) sig (packLanes x n)

/-- The lanes of the outliers, in ascending order. -/
def outlierLanes (m : Nat) (c : SxControl) (sig : FVal) (s : State) (x : Vec) : List Nat :=
  (List.range 4).flatMap fun n => (scaledBlock m c sig s x n).2.map fun i => 16 * n + i

/-- The register of a pack with a supplied scale. -/
def scaledBlocks (m : Nat) (c : SxControl) (sig : FVal) (s : State) (x : Vec) : Vec :=
  ofBlocks m ((List.range 4).map fun n => (scaledBlock m c sig s x n).1)

/-- The entries that a pack appends (R181, R408). -/
def outlierEntries (c : SxControl) (x : Vec) (lanes : List Nat) : List (Nat × Nat) :=
  lanes.map fun k => (c.obase + k, (lane x k).toNat)

section Pack

variable {m : Nat} {f : FmtA} {s : State} {x : Vec} {c : SxControl} {sig : FVal} (dst : DstOk f.d)
  (hx : readVector s 0 f.a = .ok x) (hc : readControl f true s = .ok c)
include dst hx hc

theorem vpk_unscaled (unscaled : c.sigma = none) : vpk m f s = .ok (writeVector 8 f.d
    (ofBlocks m ((List.range 4).map fun n => sxPack m c.mode (fun i => drawOf s (16 * n + i)) (packLanes x n))) s) := by
  rw [vpk, needDst_ok dst, hx, hc, ok_bind, ok_bind, ok_bind, unscaled]

theorem vpk_scaled (scaled : c.sigma = some sig) : vpk m f s =
    if (outlierLanes m c sig s x).isEmpty then .ok (writeVector 8 f.d (scaledBlocks m c sig s x) s)
    else (appendOutliers c.list (outlierEntries c x (outlierLanes m c sig s x)) s).map
      (writeVector 0 f.d (scaledBlocks m c sig s x)) := by
  rw [vpk, needDst_ok dst, hx, hc, ok_bind, ok_bind, ok_bind, scaled]
  rfl

end Pack

end Sys2Proof.Machine

namespace Sys2Proof.Safety

open Sys2Proof Sys2Proof.Machine

section Results

variable {i : Instr} {m : Nat} {f : FmtA} {s : State} {x : Vec} {c : SxControl} {sig : FVal} (dst : DstOk f.d)
  (hx : readVector s 0 f.a = .ok x)
include dst hx

/-- VUPK completes with the elements of four blocks, scaled where the control supplies a scale (R182). -/
theorem lanesAre_of_vupk (hc : readControl f false s = .ok c) (meaning : exec i s = issueA f (vupk m f) s) {v : Nat → Word32}
    (value : ∀ k, BitVec.ofNat 32 (c.sigma.elim (f32.ofVal .rne 0 (sxElem m (blockOf m x (k / 16)) (k % 16)))
      fun sig => sxScaled c.mode (drawOf s k) sig (sxElem m (blockOf m x (k / 16)) (k % 16))) = v k) : LanesAre i s f 8 v := by
  refine ⟨ofLanes v, meaning.trans (issue_ok ?_), lane_ofLanes v⟩
  rw [vupk, needDst_ok dst, hx, hc]
  refine congrArg (fun r => Except.ok (writeVector 8 f.d (ofLanes r) s)) (funext fun k => ?_)
  rw [← value]
  cases c.sigma with
  | none => rfl
  | some sig => rfl

variable (hc : readControl f true s = .ok c) (scaled : c.sigma = some sig) (meaning : exec i s = issueA f (vpk m f) s)
include hc scaled meaning

/-- VPK that collects no outlier appends nothing (R180). -/
theorem completes_of_no_outliers (empty : outlierLanes m c sig s x = []) :
    Completes i s (wordsA f) f.s.toNat (writeVector 8 f.d (scaledBlocks m c sig s x) s) := by
  refine meaning.trans (issue_ok ?_)
  rw [vpk_scaled dst hx hc scaled, empty]
  rfl

/-- VPK that collects outliers traps where the append traps (R181). -/
theorem traps_of_append (outliers : outlierLanes m c sig s x ≠ []) {code : TrapCode} {o : Word} {k : AccessKind} {seg : BitVec 16}
    (refused : appendOutliers c.list (outlierEntries c x (outlierLanes m c sig s x)) s = trapAccess s code o k seg) :
    TrapsAccess i s code o k seg := by
  refine meaning.trans (issue_trap ?_)
  rw [vpk_scaled dst hx hc scaled, if_neg (by simpa using outliers), refused]
  rfl

/-- VPK that collects outliers completes where the append does, interlocked (R181). -/
theorem completes_of_append (outliers : outlierLanes m c sig s x ≠ []) {t : State}
    (done : appendOutliers c.list (outlierEntries c x (outlierLanes m c sig s x)) s = .ok t) :
    Completes i s (wordsA f) f.s.toNat (writeVector 0 f.d (scaledBlocks m c sig s x) t) := by
  refine meaning.trans (issue_ok ?_)
  rw [vpk_scaled dst hx hc scaled, if_neg (by simpa using outliers), done]
  rfl

end Results

/-- Settles O11: a pack and an unpack go block by block (`blockOf_ofBlocks`); a pack that collects outliers goes by its append,
whose header decides (`appendOutliers_atRest`) and whose bytes are those of its list (`appendOutliers_done`,
`Overlaid.list_entries`). -/
theorem sharedExponentResults : Obligations.SharedExponentResults := by
  unfold Obligations.SharedExponentResults
  intro f s x dst hx p hp m blk xs
  obtain ⟨unpacks, packs, fits⟩ : exec p.2.1 s = issueA f (vupk m f) s ∧ exec p.2.2 s = issueA f (vpk m f) s ∧
      8 * sxBytes m * 4 ≤ 2048 := by
    simp only [List.mem_cons, List.not_mem_nil, or_false] at hp
    rcases hp with rfl | rfl | rfl
    · exact ⟨rfl, rfl, show 8 * sxBytes 2 * 4 ≤ 2048 by decide⟩
    · exact ⟨rfl, rfl, show 8 * sxBytes 4 * 4 ≤ 2048 by decide⟩
    · exact ⟨rfl, rfl, show 8 * sxBytes 7 * 4 ≤ 2048 by decide⟩
  have block {g : Nat → Nat} {n : Nat} (hn : n < 4) : blk (ofBlocks m ((List.range 4).map g)) n = g n % 2 ^ (8 * sxBytes m) := by
    refine (blockOf_ofBlocks (by simpa using fits) n).trans ?_
    simp [hn]
  refine ⟨fun c hc => ?unpack, fun c hc unscaled => ?plain, fun c sig hc scaled => ?inside, fun c sig hc scaled => ?outside⟩
  case unpack =>
    refine lanesAre_of_vupk dst hx hc unpacks fun k => ?_
    cases c.sigma with
    | none => rfl
    | some sig => rfl
  case plain =>
    refine ⟨_, packs.trans (issue_ok (vpk_unscaled dst hx hc unscaled)), ?_, fun n hn => block hn⟩
    rw [ofBlocks_toNat (by simpa using fits)]
    refine Nat.lt_of_lt_of_le (packNat_lt ..) (Nat.pow_le_pow_right (by decide) ?_)
    simp only [List.length_map, List.length_range]
    omega
  case inside =>
    intro empty
    refine ⟨_, completes_of_no_outliers dst hx hc scaled packs ?_, fun n hn => block hn⟩
    rw [outlierLanes, List.flatMap_eq_nil_iff]
    exact fun n hn => List.map_eq_nil_iff.mpr (empty n (List.mem_range.mp hn))
  case outside =>
    intro rs outs seg outliers
    have traps {code} := traps_of_append (code := code) (o := c.list) (k := .atomic) (seg := seg) dst hx hc scaled packs outliers
    refine ⟨fun unaligned => traps (appendOutliers_misaligned _ unaligned), ?_⟩
    intro q qs z aligned placed settled dram calm wf a count cap behind
    have number : (outlierEntries c x outs).length = outs.length := List.length_map ..
    have header := appendOutliers_atRest (outlierEntries c x outs) aligned placed settled dram calm (count := count) (cap := cap)
      rfl rfl
    rw [number] at header
    refine ⟨fun malformed => traps (header.trans (if_pos malformed)), fun small counted => ⟨fun crosses => traps ?_,
      fun inBlock => ⟨fun full => traps ?_, fun room => ?_⟩⟩⟩
    · exact header.trans ((if_neg (by omega)).trans (if_pos (by omega)))
    · exact header.trans ((if_neg (by omega)).trans ((if_neg (by omega)).trans (if_pos (by omega))))
    · obtain ⟨t, done, bytes, regs⟩ := appendOutliers_done (ents := outlierEntries c x outs) aligned placed settled dram calm wf
        (count := count) (cap := cap) rfl rfl small inBlock (number ▸ room)
      refine ⟨_, t, completes_of_append dst hx hc scaled packs outliers done, fun n hn => block hn, ?_, ?_,
        fun y notCount notEntry => ?_, regs⟩
      · exact number ▸ bytes.list_count (by omega)
      · rw [← number, bytes.list_entries, entryBytes, outlierEntries, List.flatMap_map]
      · exact bytes.list_others notCount (number ▸ notEntry)

end Sys2Proof.Safety
end

