-- ==== Sys2Proof/Proofs/QueueFields.lean ====
section
/-! SUPPORT. What the operations on an engine's queue leave of the thread, field by field (R189-R191, R309). -/

namespace Sys2Proof.Machine

open Sys2Proof

section Fields

variable (c : Ctx) (e : Sequencer)

@[simp] theorem Ctx.setQueue_regs (q : List Entry) : (c.setQueue e q).regs = c.regs := by cases e <;> rfl
@[simp] theorem Ctx.setQueue_tiles (q : List Entry) : (c.setQueue e q).tiles = c.tiles := by cases e <;> rfl
@[simp] theorem Ctx.setQueue_unacked (q : List Entry) : (c.setQueue e q).unacked = c.unacked := by cases e <;> rfl
@[simp] theorem Ctx.setQueue_counted (q : List Entry) : (c.setQueue e q).counted = c.counted := by cases e <;> rfl

/-- The main sequencer has no queue to set. -/
theorem Ctx.setQueue_queue {e : Sequencer} (engine : e ≠ .main) (q : List Entry) : (c.setQueue e q).queue e = q := by
  cases e with
  | main => exact absurd rfl engine
  | matrix => rfl
  | copy => rfl
  | flue => rfl

variable (slot : Nat)

@[simp] theorem Ctx.mark_regs : (c.mark slot e).regs = c.regs := by unfold Ctx.mark; split <;> rfl
@[simp] theorem Ctx.mark_tiles : (c.mark slot e).tiles = c.tiles := by unfold Ctx.mark; split <;> rfl
@[simp] theorem Ctx.mark_unacked : (c.mark slot e).unacked = c.unacked := by unfold Ctx.mark; split <;> rfl
@[simp] theorem Ctx.mark_queue (e' : Sequencer) : (c.mark slot e).queue e' = c.queue e' := by
  unfold Ctx.mark
  split
  · rfl
  · cases e' <;> rfl

@[simp] theorem Ctx.mark_marked : (c.mark slot e).marked slot = true := by
  have inside : ⟨slot, e⟩ ∈ (c.mark slot e).marks := by
    unfold Ctx.mark
    split
    · next h => exact List.contains_iff_mem.mp h
    · exact List.mem_append_right _ (List.mem_singleton_self _)
  exact List.any_eq_true.mpr ⟨_, inside, beq_self_eq_true slot⟩

/-- Keeping a command behind a copy fault changes the list of kept commands alone (R309). -/
theorem Ctx.keep_eq (x : Entry) : ∃ l, c.keep e x = { c with kept := l } := by
  unfold Ctx.keep
  split
  · split
    · exact ⟨_, rfl⟩
    · exact ⟨_, rfl⟩
  · exact ⟨_, rfl⟩

end Fields

end Sys2Proof.Machine
end

