-- ==== Sys2Proof/Proofs/EngineForms.lean ====
section
/-! The proof of O28: how an engine form enters the queue of its engine (R189-R192, R306, R331, R360, R440). -/

namespace Sys2Proof.Safety

open Sys2Proof Sys2Proof.Machine

/-! ### Entering a queue -/

/-- The entry that an instruction which issues now puts into its engine's queue (R92, R104). -/
def enteringEntry (w : Work) (slot : Nat) (wait : BitVec 8) (s : State) : Entry :=
  { id := s.numCtr, work := w, pc := s.curPc, own := s.seqr != .main, slot := slot, wait := wait, asid := s.regs.asid
    seg := s.regs.seg.toList, priv := s.priv, origin := none }

section Enqueue

variable {e : Sequencer} {slot : Nat} {s : State} (w : Work) (wait : BitVec 8)

theorem enqueue_stalls (full : queueDepth e ≤ queueLen s.core e ∨ 255 ≤ s.core.ctx.slotCount slot) :
    enqueue e w slot wait s = .error (.wait s) := if_pos (by simpa using full)

variable (room : queueLen s.core e < queueDepth e) (free : s.core.ctx.slotCount slot < 255)
include room free

theorem enqueue_room : (decide (queueDepth e ≤ queueLen s.core e) || decide (255 ≤ s.core.ctx.slotCount slot)) ≠ true := by
  simp [room, free]

theorem enqueue_discards (stopped : (s.core.ctx.engine e).stopped = true) :
    enqueue e w slot wait s = .ok (({ s with numCtr := s.numCtr + 1 } : State).modCtx fun c =>
      (c.mark slot e).keep e (enteringEntry w slot wait s)) :=
  (if_neg (enqueue_room room free)).trans (if_pos stopped)

theorem enqueue_enters (runs : (s.core.ctx.engine e).stopped = false) :
    enqueue e w slot wait s = .ok (({ s with numCtr := s.numCtr + 1 } : State).modCtx fun c =>
      { c.setQueue e (c.queue e ++ [enteringEntry w slot wait s]) with
        counted := c.counted ++ [⟨slot, s.numCtr⟩] }) :=
  (if_neg (enqueue_room room free)).trans (if_neg (by simp [runs]))

end Enqueue

/-- A fresh issue number is bookkeeping: nothing outside the thread sees it. -/
theorem sameOutside_numbered (s : State) (n : Nat) : SameOutside s { s with numCtr := n } where
  me := rfl
  seqr := rfl
  cores := rfl
  memory _ := rfl
  poison := rfl
  flights := rfl
  kept := rfl
  seqs := rfl
  removal := rfl
  agenda := rfl
  detours := rfl
  cubes _ := rfl
  runList := rfl
  messages := rfl
  maps := rfl
  tiles := rfl
  unacked := rfl

/-- An instruction whose body ends in `enqueue` issues as R189 and R191 say. -/
theorem enqueues_of_body {i : Instr} {s : State} {words stall : Nat} {body : State → Except Stop State} {e : Sequencer} {w : Work}
    {slot : Nat} {wait : BitVec 8} (engine : e ≠ .main) (meaning : exec i s = issue words stall body s)
    (issues : body s = enqueue e w slot wait s) : Enqueues i s words stall e w slot wait := by
  refine ⟨fun full => meaning.trans (issue_wait (issues.trans (enqueue_stalls w wait full))), fun room free => ⟨?discarded, ?entered⟩⟩
  case discarded =>
    intro stopped
    obtain ⟨l, kept⟩ := (s.core.ctx.mark slot e).keep_eq e (enteringEntry w slot wait s)
    refine ⟨_, meaning.trans (issue_ok (issues.trans (enqueue_discards w wait room free stopped))), ?_, ?_, ?_,
      (sameOutside_numbered s _).trans (sameOutside_modCtx ?_ ?_)⟩
    · exact (congrArg (Ctx.marked · slot) kept).trans (s.core.ctx.mark_marked e slot)
    · exact (congrArg (Ctx.queue · e) kept).trans ((by cases e <;> rfl : _ = (s.core.ctx.mark slot e).queue e).trans (by simp))
    · exact (congrArg Ctx.regs kept).trans (by simp [State.regs])
    · exact (congrArg Ctx.tiles kept).trans (by simp)
    · exact (congrArg Ctx.unacked kept).trans (by simp)
  case entered =>
    intro runs
    refine ⟨_, enteringEntry w slot wait s, meaning.trans (issue_ok (issues.trans (enqueue_enters w wait room free runs))), ?_,
      rfl, rfl, rfl, rfl, rfl, rfl, rfl, rfl, ?_, ?_, (sameOutside_numbered s _).trans (sameOutside_modCtx ?_ ?_)⟩
    · exact (by cases e <;> rfl : _ = (s.core.ctx.setQueue e _).queue e).trans (s.core.ctx.setQueue_queue engine _)
    · simp [Ctx.slotCount]
    · exact s.core.ctx.setQueue_regs ..
    · simp
    · simp

/-! ### The forms -/

theorem enqueues_tileForm {i : Instr} {f : FmtT} {s : State} {op fn : Nat} {g : List Word}
    (meaning : exec i s = issueT f (tileForm op fn f) s) (due : deliver f.wait.toNat [] s = .ok ())
    (operands : tileOperands op fn f s = .ok g) :
    Enqueues i s (if f.p.isSome then 2 else 1) 0 .matrix (.tile op fn f g) f.set.toNat f.wait :=
  enqueues_of_body nofun meaning (by rw [tileForm, operands, ok_bind, due, ok_bind])

theorem field_eq_div_mod (w : Word) (lo n : Nat) : field w lo n = w.toNat / 2 ^ lo % 2 ^ n := by
  simp [field, Nat.shiftRight_eq_div_pow]

section Descriptors

variable {i : Instr} {f : FmtA} {s : State} {g : Nat → Word} (hd : f.d.toNat = 48) (hb : f.b.toNat = 48)
include hd hb

theorem traps_cpyForm {form : CopyForm} (meaning : exec i s = issueA f (cpyForm form f) s) (past : 28 < f.a.toNat) :
    Traps i s .illegalOperand :=
  meaning.trans (issue_trap (by rw [cpyForm, needUnused_ok hd, needUnused_ok hb]; exact if_pos past))

theorem traps_flueForm {fn : Nat} (meaning : exec i s = issueA f (flueForm fn f) s) (past : 29 < f.a.toNat) :
    Traps i s .illegalOperand :=
  meaning.trans (issue_trap (by rw [flueForm, needUnused_ok hd, needUnused_ok hb]; exact if_pos past))

variable (reads : ∀ k, k < 4 → f.a.toNat + k < 32 → readG s k (f.a.toNat + k) = .ok (g k))
include reads

theorem enqueues_cpyForm {form : CopyForm} (meaning : exec i s = issueA f (cpyForm form f) s) (fits : f.a.toNat ≤ 28)
    (due : deliver ((g 3).toNat / 8 % 256) [] s = .ok ()) :
    let c := copyOf form s (g 0) (g 1) (g 2) (g 3)
    Enqueues i s (wordsA f) f.s.toNat .copy (.copy { c with grp := copyGroup s c.grp }) ((g 3).toNat % 8)
      (BitVec.ofNat 8 ((g 3).toNat / 8 % 256)) := by
  refine enqueues_of_body nofun meaning ?_
  have slot : field (g 3) 0 3 = (g 3).toNat % 8 := by simp [field_eq_div_mod]
  have wait : field (g 3) 3 8 = (g 3).toNat / 8 % 256 := field_eq_div_mod ..
  have first : readG s 0 f.a.toNat = .ok (g 0) := reads 0 (by omega) (by omega)
  rw [cpyForm, needUnused_ok hd, needUnused_ok hb, ok_bind, ok_bind, if_neg (by omega), first, ok_bind,
    reads 1 (by omega) (by omega), ok_bind, reads 2 (by omega) (by omega), ok_bind, reads 3 (by omega) (by omega), ok_bind, slot,
    wait, due, ok_bind]

theorem enqueues_flueForm {fn : Nat} (meaning : exec i s = issueA f (flueForm fn f) s) (fits : f.a.toNat ≤ 29)
    (due : deliver ((g 2).toNat / 8 % 256) [] s = .ok ()) :
    Enqueues i s (wordsA f) f.s.toNat .flue (.flue fn (g 0) (g 1) false) ((g 2).toNat % 8)
      (BitVec.ofNat 8 ((g 2).toNat / 8 % 256)) := by
  refine enqueues_of_body nofun meaning ?_
  have slot : field (g 2) 0 3 = (g 2).toNat % 8 := by simp [field_eq_div_mod]
  have wait : field (g 2) 3 8 = (g 2).toNat / 8 % 256 := field_eq_div_mod ..
  have first : readG s 0 f.a.toNat = .ok (g 0) := reads 0 (by omega) (by omega)
  rw [flueForm, needUnused_ok hd, needUnused_ok hb, ok_bind, ok_bind, if_neg (by omega), first, ok_bind,
    reads 1 (by omega) (by omega), ok_bind, reads 2 (by omega) (by omega), ok_bind, slot, wait, due, ok_bind]

end Descriptors

/-- Settles O28: every form's body ends in `enqueue`, after its operands or its descriptor have been read. -/
theorem engineFormsEnqueue : Obligations.EngineFormsEnqueue := by
  unfold Obligations.EngineFormsEnqueue
  refine ⟨fun f s g due => ?tile, fun f s g hd hb reads => ⟨?copy, ?flue⟩⟩
  case tile =>
    simp only [List.forall_mem_cons]
    have enters {i op fn} (meaning : exec i s = issueT f (tileForm op fn f) s) := enqueues_tileForm (g := g) meaning due
    exact ⟨enters rfl, enters rfl, enters rfl, enters rfl, enters rfl, enters rfl, enters rfl, enters rfl, enters rfl, enters rfl,
      enters rfl, enters rfl, enters rfl, enters rfl, enters rfl, enters rfl, fun _ none => nomatch none⟩
  case copy =>
    simp only [List.forall_mem_cons]
    have enters {i form} (meaning : exec i s = issueA f (cpyForm form f) s) :=
      And.intro (traps_cpyForm hd hb meaning) (enqueues_cpyForm hd hb reads meaning)
    exact ⟨enters rfl, enters rfl, enters rfl, fun _ none => nomatch none⟩
  case flue =>
    simp only [List.forall_mem_cons]
    have enters {i fn} (meaning : exec i s = issueA f (flueForm fn f) s) :=
      And.intro (traps_flueForm hd hb meaning) (enqueues_flueForm hd hb reads meaning)
    exact ⟨enters rfl, enters rfl, enters rfl, enters rfl, fun _ none => nomatch none⟩

end Sys2Proof.Safety
end

