-- ==== Sys2Proof/Proofs/TileTransfers.lean ====
section
/-! The proof of O29: rows and columns of a tile as windows of its contents, and the transfer forms over them (R186, R189, R196). -/

namespace Sys2Proof.Machine

open Sys2Proof

/-! ### Elements of a row-major array -/

section Cells

variable {i j i' j' r c : Nat} (w x v : Nat)

theorem cell_index_inj (hj : j < c) (hj' : j' < c) (same : i * c + j = i' * c + j') : i = i' ∧ j = j' := by
  have pos : 0 < c := by omega
  obtain ⟨row, col⟩ := (Nat.div_mod_unique pos).mpr ⟨Nat.add_comm .. |>.trans (congrArg (· + j) (Nat.mul_comm ..)), hj⟩
  obtain ⟨row', col'⟩ := (Nat.div_mod_unique pos).mpr ⟨Nat.add_comm .. |>.trans (congrArg (· + j') (Nat.mul_comm ..)), hj'⟩
  exact ⟨row.symm.trans ((congrArg (· / c) same).trans row'), col.symm.trans ((congrArg (· % c) same).trans col')⟩

theorem cell_end_le (hi : i < r) (hj : j < c) : (i * c + j) * w + w ≤ r * c * w := by
  have inside : i * c + j + 1 ≤ r * c := calc
    i * c + j + 1 ≤ (i + 1) * c := by rw [Nat.succ_mul]; omega
    _ ≤ r * c := Nat.mul_le_mul_right c hi
  rw [← Nat.succ_mul]
  exact Nat.mul_le_mul_right w inside

theorem element_end_le (hj : j < c) : w * j + w ≤ c * w := by
  rw [← Nat.mul_succ, Nat.mul_comm]
  exact Nat.mul_le_mul_right w hj

/-- An element of a row, as the row's window holds it. -/
theorem getBits_row (i : Nat) (hj : j < c) : getBits (getBits x (i * c * w) (c * w)) (w * j) w = getBits x ((i * c + j) * w) w := by
  rw [getBits_getBits _ _ (element_end_le w hj), Nat.add_mul, Nat.mul_comm w]

/-- A row replaced: its elements alone change. -/
theorem getBits_putRow (i' : Nat) (hj : j < c) :
    getBits (putBits x (i * c * w) (c * w) v) ((i' * c + j) * w) w =
      if i' = i then elemNat w v j else getBits x ((i' * c + j) * w) w := by
  split
  next same => rw [same, ← getBits_row _ _ _ hj, getBits_putBits_same, getBits_mod _ (element_end_le w hj), elemNat_eq_getBits]
  next other =>
    apply getBits_putBits_apart
    rcases Nat.lt_or_gt_of_ne other with below | above
    · exact .inr (cell_end_le w below hj)
    · have rows : (i + 1) * c * w ≤ i' * c * w := Nat.mul_le_mul_right w (Nat.mul_le_mul_right c above)
      rw [Nat.succ_mul, Nat.add_mul] at rows
      exact .inl (rows.trans (Nat.mul_le_mul_right w (Nat.le_add_right ..)))

/-- A column replaced: its elements alone change. -/
theorem getBits_putColumn (hj : j < c) (hj' : j' < c) :
    getBits ((List.range r).foldl (fun x i => putBits x ((i * c + j) * w) w (elemNat w v i)) x) ((i' * c + j') * w) w =
      if i' < r ∧ j' = j then elemNat w v i' else getBits x ((i' * c + j') * w) w := by
  induction r with
  | zero => simp
  | succ r ih =>
    rw [List.range_succ, List.foldl_append, List.foldl_cons, List.foldl_nil, Nat.mul_comm _ w, Nat.mul_comm _ w,
      ← elemNat_eq_getBits, elemNat_putBits]
    split
    next same =>
      obtain ⟨rfl, rfl⟩ := cell_index_inj hj' hj same
      rw [if_pos ⟨Nat.lt_succ_self i', rfl⟩, elemNat, Nat.mod_mod]
    next other =>
      have row : i' = r → j' ≠ j := fun hi hj => other (by rw [hi, hj])
      rw [elemNat_eq_getBits, Nat.mul_comm w, ih, Nat.mul_comm _ w]
      exact if_congr (by omega) rfl rfl

end Cells

/-! ### Tiles -/

theorem TileRegs.setBits_bits (t : TileRegs) {k : Nat} (hk : k < 8) (x : Nat) :
    (t.setBits k x).bits k = (BitVec.ofNat 131072 x).toNat := by
  rw [TileRegs.setBits, TileRegs.bits]
  exact congrArg (fun o : Option (BitVec 131072) => (o.getD 0).toNat) (Vector.getElem?_setIfInBounds_self_of_lt hk)

theorem shapeRows_le (sh : BitVec 16) : shapeRows sh ≤ 64 := Nat.succ_le_of_lt (BitVec.isLt _)
theorem shapeCols_le (sh : BitVec 16) : shapeCols sh ≤ 64 := Nat.succ_le_of_lt (BitVec.isLt _)
theorem fmtBits_le (fmt : Nat) : fmtBits fmt ≤ 32 := by unfold fmtBits; split <;> decide

/-! ### Transfer forms -/

/-- With nothing queued and nothing counted a transfer form moves its row or column at once (R189, R190). -/
theorem transfer_now {fn : Nat} {f : FmtT} {s : State} {q : BitVec 24} {v : Vec} {ix : Word} (hp : f.p = some q)
    (hv : readVector s 0 (q.extractLsb' 0 6) = .ok v) (hx : readScalar s 1 (q.extractLsb' 6 6) = .ok ix)
    (empty : s.core.ctx.mq = []) (uncounted : s.core.ctx.counted = []) (due : deliver f.wait.toNat [.matrix] s = .ok ()) :
    transfer fn f s = moveTile fn f ix (if fn = 1 ∨ fn = 3 then v else 0) s := by
  have clear : s.core.ctx.slotsClear f.wait.toNat s.numCtr = true := by rw [Ctx.slotsClear, uncounted]; rfl
  simp only [transfer, hp, Option.getD_some, hx, ok_bind, empty, List.find?_nil, List.isEmpty_nil, if_true, due, clear,
    Bool.and_true, Bool.or_eq_true, decide_eq_true_eq]
  split
  · rw [hv, ok_bind]
  · rfl

section Moves

variable {fn : Nat} {f : FmtT} {ix : Word} {v : Vec} {s : State}

theorem moveTile_unconfigured (h : shapeV (s.core.ctx.tiles.shapeOf f.td.toNat) = false) :
    moveTile fn f ix v s = trapHere s .tileUnconfigured := if_pos (by rw [h]; rfl)

variable (configured : shapeV (s.core.ctx.tiles.shapeOf f.td.toNat) = true)
include configured

theorem moveTile_format (h : (fmtSx (shapeFmt (s.core.ctx.tiles.shapeOf f.td.toNat))).isSome = true) :
    moveTile fn f ix v s = trapHere s .tileFormat := (if_neg (by rw [configured]; decide)).trans (if_pos h)

variable (plain : fmtSx (shapeFmt (s.core.ctx.tiles.shapeOf f.td.toNat)) = none)
include plain

theorem moveTile_shape (h : (if fn = 1 ∨ fn = 2 then shapeRows (s.core.ctx.tiles.shapeOf f.td.toNat)
      else shapeCols (s.core.ctx.tiles.shapeOf f.td.toNat)) ≤ ix.toNat) :
    moveTile fn f ix v s = trapHere s .tileShape :=
  (if_neg (by rw [configured]; decide)).trans ((if_neg (by rw [plain]; decide)).trans (if_pos (by simpa using h)))

theorem moveTile_rowIn (h : ix.toNat < shapeRows (s.core.ctx.tiles.shapeOf f.td.toNat)) :
    let sh := s.core.ctx.tiles.shapeOf f.td.toNat
    let w := fmtBits (shapeFmt sh)
    moveTile 1 f ix v s = .ok (setTile s f.td.toNat fun t => t.setBits f.td.toNat
      (putBits (s.core.ctx.tiles.bits f.td.toNat) (ix.toNat * shapeCols sh * w) (shapeCols sh * w) v.toNat)) := by
  simp [moveTile, configured, plain, h]

theorem moveTile_rowOut (h : ix.toNat < shapeRows (s.core.ctx.tiles.shapeOf f.td.toNat)) :
    let sh := s.core.ctx.tiles.shapeOf f.td.toNat
    let w := fmtBits (shapeFmt sh)
    moveTile 2 f ix v s = .ok (writeVector 0 ((f.p.getD 0).extractLsb' 0 6) (BitVec.ofNat 2048
      (getBits (s.core.ctx.tiles.bits f.td.toNat) (ix.toNat * shapeCols sh * w) (shapeCols sh * w))) s) := by
  simp [moveTile, configured, plain, h]

theorem moveTile_columnIn (h : ix.toNat < shapeCols (s.core.ctx.tiles.shapeOf f.td.toNat)) :
    let sh := s.core.ctx.tiles.shapeOf f.td.toNat
    let w := fmtBits (shapeFmt sh)
    moveTile 3 f ix v s = .ok (setTile s f.td.toNat fun t => t.setBits f.td.toNat
      ((List.range (shapeRows sh)).foldl (fun x j => putBits x ((j * shapeCols sh + ix.toNat) * w) w (elemNat w v.toNat j))
        (s.core.ctx.tiles.bits f.td.toNat))) := by
  simp [moveTile, configured, plain, h]

theorem moveTile_columnOut (h : ix.toNat < shapeCols (s.core.ctx.tiles.shapeOf f.td.toNat)) :
    let sh := s.core.ctx.tiles.shapeOf f.td.toNat
    let w := fmtBits (shapeFmt sh)
    moveTile 4 f ix v s = .ok (writeVector 0 ((f.p.getD 0).extractLsb' 0 6) (BitVec.ofNat 2048
      (packNat w ((List.range (shapeRows sh)).map fun j =>
        getBits (s.core.ctx.tiles.bits f.td.toNat) ((j * shapeCols sh + ix.toNat) * w) w))) s) := by
  simp [moveTile, configured, plain, h]

end Moves

end Sys2Proof.Machine

namespace Sys2Proof.Safety

open Sys2Proof Sys2Proof.Machine

/-- Settles O29: the checks come first, then a row or a column of the tile's contents is replaced (`getBits_putRow`,
`getBits_putColumn`) or delivered. -/
theorem transferResults : Obligations.TransferResults := by
  unfold Obligations.TransferResults
  intro f s q v ix hp hv hx empty uncounted due k t0 sh w c el vl all
  have traps {i fn code} (meaning : exec i s = issueT f (transfer fn f) s)
      (refused : ∀ v, moveTile fn f ix v s = trapHere s code) : Traps i s code :=
    meaning.trans (issue_trap ((transfer_now hp hv hx empty uncounted due).trans (refused _)))
  have done {i fn t} (meaning : exec i s = issueT f (transfer fn f) s)
      (moved : moveTile fn f ix (if fn = 1 ∨ fn = 3 then v else 0) s = .ok t) : Completes i s 2 0 t := by
    have ended := issue_ok (words := if f.p.isSome then 2 else 1) (stall := 0)
      ((transfer_now hp hv hx empty uncounted due).trans moved)
    rw [hp] at ended
    exact (meaning.trans (by rw [issueT, hp])).trans ended
  have every {code} (refused : ∀ fn v, moveTile fn f ix v s = trapHere s code) : ∀ i ∈ all, Traps i s code := by
    simp only [all, List.forall_mem_cons]
    exact ⟨traps rfl (refused 1), traps rfl (refused 2), traps rfl (refused 3), traps rfl (refused 4), fun _ none => nomatch none⟩
  have td : k < 8 := f.td.isLt
  have wide : c * w ≤ 2048 := Nat.mul_le_mul (shapeCols_le sh) (fmtBits_le _)
  have tall : shapeRows sh * w ≤ 2048 := Nat.mul_le_mul (shapeRows_le sh) (fmtBits_le _)
  refine ⟨fun off => every fun _ _ => moveTile_unconfigured off, fun on sx => every fun _ _ => moveTile_format on sx,
    fun on plain fits => ⟨fun past => ?_, fun past => ?_, fun inside => ⟨?rowIn, ?rowOut⟩, fun inside => ⟨?columnIn, ?columnOut⟩⟩⟩
  · exact ⟨traps rfl fun _ => moveTile_shape on plain past, traps rfl fun _ => moveTile_shape on plain past⟩
  · exact ⟨traps rfl fun _ => moveTile_shape on plain past, traps rfl fun _ => moveTile_shape on plain past⟩
  case rowIn =>
    refine ⟨_, done rfl ((congrArg (moveTile 1 f ix · s) (if_pos (.inl rfl))).trans (moveTile_rowIn on plain inside)),
      fun i j hi hj => ?_⟩
    refine (congrArg (getBits · ((i * c + j) * w) w) (t0.setBits_bits td _)).trans ?_
    exact (getBits_ofNat _ ((cell_end_le w hi hj).trans fits)).trans (getBits_putRow w _ _ i hj)
  case rowOut =>
    refine ⟨_, done rfl ((moveTile_rowOut on plain inside).trans (by rw [hp]; rfl)), fun j hj => ?_⟩
    exact (getBits_ofNat _ ((element_end_le w hj).trans wide)).trans (getBits_row w _ _ hj)
  case columnIn =>
    refine ⟨_, done rfl ((congrArg (moveTile 3 f ix · s) (if_pos (.inr rfl))).trans (moveTile_columnIn on plain inside)),
      fun i j hi hj => ?_⟩
    refine (congrArg (getBits · ((i * c + j) * w) w) (t0.setBits_bits td _)).trans ?_
    refine (getBits_ofNat _ ((cell_end_le w hi hj).trans fits)).trans ((getBits_putColumn w _ _ inside hj).trans ?_)
    exact if_congr (and_iff_right hi) rfl rfl
  case columnOut =>
    refine ⟨_, done rfl ((moveTile_columnOut on plain inside).trans (by rw [hp]; rfl)), fun i hi => ?_⟩
    refine (getBits_ofNat _ ((element_end_le w hi).trans tall)).trans ((elemNat_packNat w _ i).trans ?_)
    rw [List.getD_eq_getElem?_getD, List.getElem?_map, List.getElem?_range hi]
    exact Nat.mod_mod ..

end Sys2Proof.Safety
end

