-- ==== Sys2Proof/Proofs/CopyEngine.lean ====
section
/-! SUPPORT. The steps of a copy engine that holds one command: its start, its parts and its end (R307-R309, R354). -/

namespace Sys2Proof.Machine

open Sys2Proof Sys2Proof.Safety

/-! ### Changes of the moving core -/

/-- A change of the core that moves, as an update of the state. -/
theorem State.modCore_of_me {s : State} {i : Nat} (h : s.me = i) (f : Core → Core) : s.modCore i f = { s with core := f s.core } := by
  rw [State.modCore, State.setCore, if_pos h.symm, State.getCore_of_me h]

theorem Ctx.live_iff (c : Ctx) : c.live = (c.status == .resident || c.status == .waiting) := rfl

/-- What lets a thread's engines start work lets it run: it is on its core. -/
theorem live_of_enginesMay {s : State} {core : Nat} (h : enginesMay s core = true) : (s.getCore core).ctx.live = true := by
  simp only [enginesMay, mayRun, Bool.and_eq_true] at h
  exact h.1.1.1.1.1.1.1.1

/-- A command whose start gives its targets, or a fault. -/
def copyStarted (s : State) (core : Nat) (x : Entry) : Except TrapReport (List Nat) → State
  | .error t => copyFault s core x 0 t
  | .ok ts => s.modCore core fun c => modCmd c x.id fun c => { c with started := true, targets := ts }

/-! ### A thread's queue of one command -/

section Single

variable {s : State} {core : Nat} {x : Entry} {k : CopyCmd}

theorem copyQueue_single {c : Core} (live : c.ctx.live = true) (cq : c.ctx.cq = [x]) (dq : c.dq = []) : copyQueue c = [x] := by
  rw [Ctx.live_iff] at live
  rw [copyQueue, if_pos live, cq, dq]
  rfl

theorem copyQueue_node {c : Core} (cq : c.ctx.cq = []) (dq : c.dq = [x]) : copyQueue c = [x] := by
  rw [copyQueue, cq, dq, ite_self]
  rfl

theorem isNode_of_empty {c : Core} (dq : c.dq = []) (id : Nat) : isNode c id = false := by rw [isNode, dq]; rfl

theorem Entry.copyCmd_of_work (work : x.work = .copy k) : x.copyCmd = some k := by rw [Entry.copyCmd, work]

theorem copyEntry_single {c : Core} (cq : c.ctx.cq = [x]) (dq : c.dq = []) (work : x.work = .copy k) :
    copyEntry c x.id = some (x, k) := by
  simp [copyEntry, cq, dq, Entry.copyCmd_of_work work]

/-- A change of the one command, as the queue shows it. -/
theorem modCmd_single {c : Core} (cq : c.ctx.cq = [x]) (work : x.work = .copy k) (f : CopyCmd → CopyCmd) :
    (modCmd c x.id f).ctx.cq.map Entry.copyCmd = [some (f k)] := by
  simp [modCmd, modCopy, cq, work, Entry.copyCmd]

theorem copyHead_single {c : Core} (queue : copyQueue c = [x]) (work : x.work = .copy k) (unsent : k.sent = false) :
    copyHead c = some x := by
  simp [copyHead, queue, Entry.copyCmd_of_work work, unsent]

theorem copySettled_of_sent (c : Core) (work : x.work = .copy k) (sent : k.sent = true) (idle : k.atoms = []) :
    copySettled c x = true := by
  simp [copySettled, work, sent, idle]

/-- A command with no part open has nothing to write. -/
theorem copyWrites_idle (entry : copyEntry (s.getCore core) x.id = some (x, k)) (idle : k.atoms = []) :
    copyWrites s core x.id = s := by
  simp [copyWrites, entry, idle]

variable (me : s.me = core) (cq : s.core.ctx.cq = [x]) (dq : s.core.dq = []) (work : x.work = .copy k)
  (idle : k.atoms = [])
include me cq dq work idle

/-- With one command, unsent, the engine does what that command asks for. -/
theorem copyStart_single (may : enginesMay s core = true) (unsent : k.sent = false) {r : Except TrapReport (List Nat)}
    (targets : startCopy s core x k = r) :
    copyStart core s = if k.started then copySend s core x k
      else if !s.core.ctx.slotsClear x.wait.toNat x.id then s else copyStarted s core x r := by
  have here : s.getCore core = s.core := State.getCore_of_me me
  have queue := copyQueue_single (here ▸ live_of_enginesMay may) cq dq
  have written : copyWrites s core x.id = s := copyWrites_idle (here ▸ copyEntry_single cq dq work) idle
  have head := copyHead_single queue work unsent
  have cmd := Entry.copyCmd_of_work work
  cases r with
  | error t => simp [copyStart, here, queue, written, head, cmd, isNode_of_empty dq, targets, copyStarted]
  | ok ts => simp [copyStart, here, queue, written, head, cmd, isNode_of_empty dq, targets, copyStarted]

end Single

/-! ### Requests that are sent in turn -/

/-- Requests sent one after another stand behind those in flight, in order; what each keeps, all keep. -/
theorem foldl_sends {α β : Type} {put : State → α → State} {shows : Flight → β} {g : α → β} {keeps : State → Prop}
    (one : ∀ t a, keeps t → keeps (put t a) ∧ ∃ f, (put t a).flights = t.flights ++ [f] ∧ shows f = g a) (l : List α) (t : State)
    (h : keeps t) :
    keeps (l.foldl put t) ∧ ∃ fs, (l.foldl put t).flights = t.flights ++ fs ∧ fs.map shows = l.map g := by
  induction l generalizing t with
  | nil => exact ⟨h, [], (List.append_nil _).symm, rfl⟩
  | cons a l ih =>
    obtain ⟨kept, f, sent, shown⟩ := one t a h
    obtain ⟨all, fs, rest, shows⟩ := ih _ kept
    refine ⟨all, f :: fs, ?_, ?_⟩
    · rw [List.foldl_cons, rest, sent, List.append_assoc, List.singleton_append]
    · rw [List.map_cons, shown, shows, List.map_cons]

/-! ### A part of a command (R307, R309) -/

section Part

variable {s : State} {core : Nat} {x : Entry} {k : CopyCmd}

theorem copySend_passes {d : Nat × Nat} (done : k.done = [d]) (begun : d.1 ≤ k.pos) (inside : k.pos < d.1 + d.2) :
    copySend s core x k = s.modCore core fun c => modCmd c x.id fun c => { c with pos := min c.len (d.1 + d.2) } := by
  simp [copySend, done, begun, inside]

/-- The cube and the home of a destination atom: those of the destination's place, or for one of several targets those of its
scratchpad. -/
def destHome (s : State) (d : Option Place) (a : Nat) : Nat × Nat :=
  match d with
  | some q => (q.cube, homeOf s q)
  | none => (a / 2 ^ 47, (spadOf a).elim 0 Prod.fst)

/-- The bytes of a part as it is sent: those that its source gives, or those of the pattern. -/
def partBytes (s : State) (core : Nat) (x : Entry) (k : CopyCmd) (ps : List Piece) : Nat :=
  if k.form = .cpyf then copyPart s (copyRequester s core x) k else (ps.map Piece.len).sum

/-- The atoms of a part of `n` bytes. -/
def partAtoms (s : State) (core : Nat) (k : CopyCmd) (d : Option Place) (n : Nat) : List CopyAtom :=
  (copyDests k k.pos d).map fun a =>
    ⟨k.pos, a, n, false, if k.form = .cpyf then (patternBytes k k.pos n).map some else List.replicate n none, false,
      d.bind fun q => q.ilv.map fun i => (i, (s.cube (core / 256)).imap.mgen)⟩

/-- The command goes on behind a part of `n` bytes, and an ownership request for each of its atoms is in flight. -/
def askedPart (s : State) (core : Nat) (x : Entry) (k : CopyCmd) (d : Option Place) (n : Nat) : State :=
  (copyDests k k.pos d).foldl (fun t a => t.send (.engine core .copy) ((copyTid (s.getCore core) x).getD 0) .ordered (core / 256)
      (destHome s d a).1 (destHome s d a).2 (d.bind fun q => q.ilv.map fun i => (i, (s.cube (core / 256)).imap.mgen))
      (.ownRequest (a / 32 * 32) x.id k.pos))
    (s.modCore core fun c => modCmd c x.id fun c => { c with pos := k.pos + n, atoms := c.atoms ++ partAtoms s core k d n })

/-- What the engine sends for a part whose destination stands at `d`, if it is one place, and whose source at `ps`. -/
def sentPart (s : State) (core : Nat) (x : Entry) (k : CopyCmd) (d : Option Place) (ps : List Piece) : State :=
  ps.foldl (fun t q => t.send (.engine core .copy) ((copyTid (s.getCore core) x).getD 0) .adaptive (core / 256) q.place.cube
      (homeOf t q.place) (q.place.ilv.map fun i => (i, (s.cube (core / 256)).imap.mgen))
      (.copyRead q.place.addr q.len x.id (k.pos + (q.off - (k.src + BitVec.ofNat 64 k.pos)).toNat)))
    (askedPart s core x k d (partBytes s core x k ps))

variable (done : k.done = [])
include done

theorem copySend_dstFault {e : Refused} (one : k.form ≠ .cpym) (refused : placeOf s (copyRequester s core x) k.dstSeg
      (k.dst + BitVec.ofNat 64 k.pos) .copyDst rawRegion = .error e) :
    copySend s core x k = if e.held then s else copyFault s core x k.pos (x.refusal e .copyDst k.dstSeg) := by
  cases held : e.held <;> simp [copySend, done, one, refused, held]

variable {d : Option Place}
  (placed : k.form ≠ .cpym → ∃ q, d = some q ∧ placeOf s (copyRequester s core x) k.dstSeg (k.dst + BitVec.ofNat 64 k.pos)
    .copyDst rawRegion = .ok q)
include placed

theorem copySend_srcFault {e : Refused} (reads : k.form ≠ .cpyf)
    (refused : sourceRuns s (copyRequester s core x) k.srcSeg
      (runs 2 (k.src + BitVec.ofNat 64 k.pos) (copyPart s (copyRequester s core x) k)) = .error e) :
    copySend s core x k = if e.held then s else copyFault s core x k.pos (x.refusal e .copySrc k.srcSeg) := by
  by_cases form : k.form = .cpym
  · cases held : e.held <;> simp [copySend, done, form, refused, held]
  · obtain ⟨q, -, hq⟩ := placed form
    cases held : e.held <;> simp [copySend, done, form, reads, hq, refused, held]

theorem copySend_sends {ps : List Piece} (many : k.form = .cpym → d = none) (fills : k.form = .cpyf → ps = [])
    (reads : k.form ≠ .cpyf → sourceRuns s (copyRequester s core x) k.srcSeg
      (runs 2 (k.src + BitVec.ofNat 64 k.pos) (copyPart s (copyRequester s core x) k)) = .ok ps)
    (free : mapHeld (s.focus core) = false)
    (owns : ∀ a ∈ copyDests k k.pos d, s.mayRequest (.engine core .copy) (destHome s d a).2 .ordered 1 = true)
    (fetches : ∀ q ∈ ps, s.mayRequest (.engine core .copy) (homeOf s q.place) .adaptive 2 = true) :
    copySend s core x k = sentPart s core x k d ps := by
  have owned := List.all_eq_true.mpr owns
  have room := List.all_eq_true.mpr fetches
  simp only [destHome] at owned
  cases form : k.form with
  | cpy =>
    obtain ⟨q, rfl, hq⟩ := placed (by simp [form])
    simp [copySend, done, form, hq, reads, free, owned, room, sentPart, askedPart, partAtoms, partBytes, destHome]
  | cpym =>
    obtain rfl := many form
    simp [copySend, done, form, reads, free, owned, room, sentPart, askedPart, partAtoms, partBytes, destHome]
  | cpyf =>
    obtain ⟨q, rfl, hq⟩ := placed (by simp [form])
    obtain rfl := fills form
    simp [copySend, done, form, hq, free, owned, room, sentPart, askedPart, partAtoms, partBytes, destHome]

omit done placed

section Sent

variable (me : s.me = core)
include me

/-- The ownership requests of a part: one for each destination atom. -/
theorem askedPart_results (n : Nat) :
    let t := askedPart s core x k d n
    (t.mem = s.mem ∧ t.core = modCmd s.core x.id fun c => { c with pos := k.pos + n, atoms := c.atoms ++ partAtoms s core k d n }) ∧
    ∃ fs, t.flights = s.flights ++ fs ∧ fs.map (fun (y : Flight) => (y.src, y.cls, y.cube, y.body)) =
      (copyDests k k.pos d).map fun a =>
        (Agent.engine core .copy, Class.ordered, (destHome s d a).1, Body.ownRequest (a / 32 * 32) x.id k.pos) := by
  unfold askedPart
  rw [State.modCore_of_me me]
  refine foldl_sends (keeps := fun u : State => u.mem = s.mem ∧
    u.core = modCmd s.core x.id fun c => { c with pos := k.pos + n, atoms := c.atoms ++ partAtoms s core k d n }) ?_ _ _ ⟨rfl, rfl⟩
  exact fun u a h => ⟨h, _, rfl, rfl⟩

/-- Behind them, the reads of its source. -/
theorem sentPart_results (ps : List Piece) :
    let t := sentPart s core x k d ps
    let n := partBytes s core x k ps
    (t.mem = s.mem ∧ t.core = modCmd s.core x.id fun c => { c with pos := k.pos + n, atoms := c.atoms ++ partAtoms s core k d n }) ∧
    ∃ fs, t.flights = s.flights ++ fs ∧ fs.map (fun (y : Flight) => (y.src, y.cls, y.cube, y.body)) =
      ((copyDests k k.pos d).map fun a =>
        (Agent.engine core .copy, Class.ordered, (destHome s d a).1, Body.ownRequest (a / 32 * 32) x.id k.pos)) ++
      ps.map fun q => (Agent.engine core .copy, Class.adaptive, q.place.cube,
        Body.copyRead q.place.addr q.len x.id (k.pos + (q.off - (k.src + BitVec.ofNat 64 k.pos)).toNat)) := by
  intro t n
  obtain ⟨kept, fs, asks, asked⟩ := askedPart_results (x := x) (k := k) (d := d) me n
  have sends := foldl_sends (shows := fun (y : Flight) => (y.src, y.cls, y.cube, y.body))
    (g := fun q : Piece => (Agent.engine core .copy, Class.adaptive, q.place.cube,
      Body.copyRead q.place.addr q.len x.id (k.pos + (q.off - (k.src + BitVec.ofNat 64 k.pos)).toNat)))
    (put := fun (t : State) (q : Piece) => t.send (.engine core .copy) ((copyTid (s.getCore core) x).getD 0) .adaptive (core / 256)
      q.place.cube (homeOf t q.place) (q.place.ilv.map fun i => (i, (s.cube (core / 256)).imap.mgen))
      (.copyRead q.place.addr q.len x.id (k.pos + (q.off - (k.src + BitVec.ofNat 64 k.pos)).toNat)))
    (keeps := fun u : State => u.mem = s.mem ∧
      u.core = modCmd s.core x.id fun c => { c with pos := k.pos + n, atoms := c.atoms ++ partAtoms s core k d n })
    (fun u a h => ⟨h, _, rfl, rfl⟩) ps _ kept
  obtain ⟨kept, gs, reads, read⟩ := sends
  refine ⟨kept, fs ++ gs, ?_, ?_⟩
  · rw [← List.append_assoc, ← asks]
    exact reads
  · rw [List.map_append, asked, read]

end Sent

end Part

end Sys2Proof.Machine
end

