-- ==== Sys2Proof/Proofs/FlueEngine.lean ====
section
/-! SUPPORT. The flues after each flue instruction, and the status words that FSTAT writes (R333-R338). -/

namespace Sys2Proof.Machine

open Sys2Proof Sys2Proof.Safety

/-! ### Flues after a change of some -/

section Flues

variable (s : State) (c : Nat)

theorem State.flue_of_cube {s t : State} {c : Nat} (h : (t.cube c).flues = (s.cube c).flues) (j : Nat) : t.flue c j = s.flue c j := by
  rw [State.flue, State.flue, h]

@[simp] theorem State.modCore_flue (i : Nat) (f : Core → Core) (j : Nat) : (s.modCore i f).flue c j = s.flue c j :=
  State.flue_of_cube (by rw [State.modCore_cube]) j

theorem State.modFlue_flue (f : Nat) (g : Flue → Flue) {j : Nat} (inside : j < 64) :
    (s.modFlue c f g).flue c j = if j = f then g (s.flue c j) else s.flue c j := by
  simp only [State.flue, State.modFlue, State.modCube_cube_same, Vector.getElem?_setIfInBounds]
  by_cases same : j = f
  · subst same
    simp [inside]
  · simp [same, Ne.symm same]

/-- Changes of the flues of a list, each the same when made again. -/
theorem foldl_modFlue {g : Nat → Flue → Flue} (again : ∀ f u, g f (g f u) = g f u) (l : List Nat) {j : Nat} (inside : j < 64) :
    (l.foldl (fun t f => t.modFlue c f (g f)) s).flue c j = if j ∈ l then g j (s.flue c j) else s.flue c j := by
  induction l generalizing s with
  | nil => rfl
  | cons f l ih =>
    rw [List.foldl_cons, ih, State.modFlue_flue s c f _ inside]
    by_cases same : j = f
    · subst same
      simp [again]
    · simp [same]

@[simp] theorem dropEarly_flue (cube key j : Nat) : (dropEarly s cube key).flue c j = s.flue c j := by
  unfold dropEarly
  split
  · exact State.flue_of_cube (State.modCube_keeps (p := Cube.flues) (by intro; rfl) ..) j
  · rfl

@[simp] theorem dropEarly_me (key : Nat) : (dropEarly s c key).me = s.me := by unfold dropEarly; split <;> rfl

@[simp] theorem dropEarly_core (key : Nat) : (dropEarly s c key).core = s.core := by unfold dropEarly; split <;> rfl

theorem loadImage_flue (owner : Nat) (img : List (BitVec 64)) (set : List Nat) {j : Nat} (inside : j < 64) :
    (loadImage s c owner img set).flue c j =
      if j ∈ set then { s.flue c j with st := .configured, owner := owner, image := img } else s.flue c j :=
  foldl_modFlue s c (g := fun _ u => { u with st := .configured, owner := owner, image := img }) (fun _ _ => rfl) set inside

theorem loadImage_me (owner : Nat) (img : List (BitVec 64)) (set : List Nat) : (loadImage s c owner img set).me = s.me :=
  List.foldlRecOn (motive := fun t => State.me t = s.me) _ _ rfl fun _ h _ _ => h

end Flues

/-! ### The end of a kernel (R335, R337) -/

section Ends

variable (s : State) (c : Nat)

theorem notify_cubes (from_ core cube : Nat) (tag : BitVec 32) (status : BitVec 16) (node count : Nat) :
    (notify s from_ core cube tag status node count).cubes = s.cubes := by unfold notify; split <;> rfl

@[simp] theorem notify_me (from_ core cube : Nat) (tag : BitVec 32) (status : BitVec 16) (node count : Nat) :
    (notify s from_ core cube tag status node count).me = s.me := by unfold notify; split <;> rfl

@[simp] theorem reportDone_me (o : Option WorkOrigin) (status : BitVec 16) : (reportDone s c o status).me = s.me := by
  unfold reportDone
  split
  · rfl
  · split
    · exact notify_me ..
    · rfl
  · rfl

@[simp] theorem reportDone_flue (o : Option WorkOrigin) (status : BitVec 16) (j : Nat) :
    (reportDone s c o status).flue c j = s.flue c j := by
  unfold reportDone
  split
  · rfl
  · split
    · exact State.flue_of_cube (by rw [State.cube, notify_cubes, ← State.cube]) j
    · rfl
  · exact State.flue_of_cube (State.modCube_keeps (p := Cube.flues) (by intro; rfl) ..) j

@[simp] theorem State.modThread_flue (tid : Nat) (f : Ctx → Ctx) (j : Nat) : (s.modThread tid f).flue c j = s.flue c j :=
  State.flue_of_cube (State.modThread_keeps (p := Cube.flues) (fun _ _ => rfl) ..) j

/-- The flues that an FSTART had are freed of it where none of them runs. -/
def freeServed (s : State) (c : Nat) (fs : List Nat) : State :=
  fs.foldl (fun t f => t.modFlue c f fun u => { u with by_ := none, origin := none }) s

theorem freeServed_flue (fs : List Nat) {j : Nat} (inside : j < 64) :
    (freeServed s c fs).flue c j = if j ∈ fs then { s.flue c j with by_ := none, origin := none } else s.flue c j :=
  foldl_modFlue s c (g := fun _ u => { u with by_ := none, origin := none }) (fun _ _ => rfl) fs inside

theorem freeServed_me (fs : List Nat) : (freeServed s c fs).me = s.me :=
  List.foldlRecOn (motive := fun t => State.me t = s.me) _ _ rfl fun _ h _ _ => h

theorem settleStart_runs {y : Option Nat × Nat} (runs : anyRunning s c (servedBy s c y) = true) : settleStart s c y = s := by
  simp only [settleStart, runs, if_true]

/-- What a settled FSTART leaves of the flues, whoever gave it out. -/
theorem settleStart_flue {y : Option Nat × Nat} (ended : anyRunning s c (servedBy s c y) = false) (j : Nat) :
    (settleStart s c y).flue c j = (freeServed s c (servedBy s c y)).flue c j := by
  simp only [settleStart, ended, freeServed, Bool.false_eq_true, if_false]
  split
  · exact reportDone_flue ..
  · exact State.modThread_flue ..

theorem settleStart_frees {y : Option Nat × Nat} (ended : anyRunning s c (servedBy s c y) = false) {j : Nat}
    (mine : j ∈ servedBy s c y) :
    ((settleStart s c y).flue c j).by_ = none := by
  have inside : j < 64 := List.mem_range.mp (List.mem_filter.mp mine).1
  rw [settleStart_flue s c ended, freeServed_flue s c _ inside, if_pos mine]

@[simp] theorem settleStart_me (y : Option Nat × Nat) : (settleStart s c y).me = s.me := by
  have freed := freeServed_me s c (servedBy s c y)
  unfold freeServed at freed
  simp only [settleStart]
  split
  · rfl
  · split
    · exact (reportDone_me ..).trans freed
    · exact freed

/-- What a flue shows: its state, its image and its owner. -/
def Flue.face (u : Flue) : FlueStatus × List (BitVec 64) × Nat := (u.st, u.image, u.owner)

theorem settleStart_face (y : Option Nat × Nat) {j : Nat} (inside : j < 64) :
    ((settleStart s c y).flue c j).face = (s.flue c j).face := by
  cases runs : anyRunning s c (servedBy s c y) with
  | true => rw [settleStart_runs s c runs]
  | false =>
    rw [settleStart_flue s c runs, freeServed_flue s c _ inside]
    split <;> rfl

theorem endFlue_face (f : Nat) (st : FlueStatus) (code : BitVec 16) (w : Option StreamUnit) {j : Nat} (inside : j < 64) :
    ((endFlue s c f st code w).flue c j).face = if j = f then (st, (s.flue c j).face.2) else (s.flue c j).face := by
  have changed (g : Flue → Flue) (h : ∀ u, (g u).face = (st, u.face.2)) :
      ((s.modFlue c f g).flue c j).face = if j = f then (st, (s.flue c j).face.2) else (s.flue c j).face := by
    rw [State.modFlue_flue s c f g inside]
    split
    · exact h _
    · rfl
  unfold endFlue
  dsimp only
  split
  · exact (settleStart_face _ _ _ inside).trans (changed _ fun _ => rfl)
  · exact changed _ fun _ => rfl

@[simp] theorem endFlue_me (f : Nat) (st : FlueStatus) (code : BitVec 16) (w : Option StreamUnit) :
    (endFlue s c f st code w).me = s.me := by
  unfold endFlue
  dsimp only
  split
  · exact settleStart_me ..
  · rfl

theorem stopFlues_me (l : List Nat) : (stopFlues s c l).me = s.me :=
  List.foldlRecOn (motive := fun t => State.me t = s.me) _ _ rfl fun t h f _ => by
    split
    · exact (endFlue_me ..).trans h
    · exact h

/-- FSTOP stops what runs of its flues and leaves the rest of what they show (R337). -/
theorem stopFlues_face (l : List Nat) {j : Nat} (inside : j < 64) :
    ((stopFlues s c l).flue c j).face =
      (if j ∈ l ∧ (s.flue c j).st = .running then .stopped else (s.flue c j).st, (s.flue c j).face.2) := by
  induction l generalizing s with
  | nil => simp [stopFlues, Flue.face]
  | cons f l ih =>
    have rest (t : State) (h : (t.flue c j).face = (if j = f ∧ (s.flue c j).st = .running then .stopped else (s.flue c j).st,
        (s.flue c j).face.2)) : ((stopFlues t c l).flue c j).face =
        (if j ∈ f :: l ∧ (s.flue c j).st = .running then .stopped else (s.flue c j).st, (s.flue c j).face.2) := by
      have st : (t.flue c j).st = _ := congrArg Prod.fst h
      rw [ih t, h, st]
      by_cases same : j = f
      · subst same
        by_cases runs : (s.flue c j).st = .running
        · simp [runs]
        · simp [runs]
      · simp [same]
    rw [stopFlues, List.foldl_cons]
    by_cases runs : (s.flue c f).st = .running
    · rw [if_pos runs]
      refine rest _ ((endFlue_face s c f .stopped 0 none inside).trans ?_)
      by_cases same : j = f
      · subst same
        rw [if_pos rfl, if_pos ⟨rfl, runs⟩]
      · simp [same, Flue.face]
    · rw [if_neg runs]
      refine rest s ?_
      rw [if_neg fun h : j = f ∧ _ => runs (h.1 ▸ h.2)]
      rfl

end Ends

/-! ### FSTART (R335) -/

/-- A kernel starts on some flues of the set, each not IDLE, not running and of the owner; the others stay. -/
theorem startKernel_flue {s u : State} {c owner : Nat} {r : Requester} {pc : Word} {segs : List (BitVec 16)} {rc : Record}
    {table : List Byte} {y : Option Nat × Nat} {origin : Option WorkOrigin}
    (ok : startKernel s c r pc segs owner rc table y origin = .ok u) {j : Nat} (inside : j < 64) :
    u.flue c j = s.flue c j ∨ (j ∈ flueSet (s.cube c) rc ∧ (s.flue c j).st ≠ .idle ∧ (s.flue c j).st ≠ .running ∧
      (s.flue c j).owner = owner ∧ ∃ lists spans, u.flue c j = startFlue y origin lists spans (s.flue c j)) := by
  simp only [startKernel] at ok
  split at ok
  · exact nomatch ok
  · split at ok
    · exact nomatch ok
    · next checked =>
      cases ok
      rw [foldl_modFlue s c (g := fun f => startFlue y origin _ _) (fun _ _ => rfl) _ inside]
      split
      · next narrow =>
        simp only [Bool.or_eq_true, not_or, Bool.not_eq_true', Bool.not_eq_false, List.all_eq_true, Bool.and_eq_true, bne_iff_ne,
          beq_iff_eq] at checked
        obtain ⟨⟨awake, still⟩, own⟩ := checked.1 j narrow
        exact .inr ⟨(List.mem_filter.mp narrow).1, awake, still, own, _, _, rfl⟩
      · exact .inl rfl

/-! ### FSTAT (R338) -/

theorem statusWord_lt (u : Flue) : statusWord u < 2 ^ 64 := by
  have code := u.code.isLt
  unfold statusWord
  cases u.st <;> cases u.frozen <;> simp only [Bool.false_eq_true, if_false, if_true] <;> omega

theorem homeWrite_stored {s t : State} {cube a : Nat} {who : Option Nat} {bs : List Byte}
    (h : homeWrite s cube who a (bs.map some) 0 = .done t) : t = s.store a bs := by
  simp only [homeWrite] at h
  split at h
  · exact nomatch h
  · split at h
    · exact nomatch h
    · split at h
      · exact nomatch h
      · cases h
        exact storeEnabled_whole ..

@[simp] theorem State.store_me (s : State) (a : Nat) (bs : List Byte) : (s.store a bs).me = s.me := by
  unfold State.store
  split
  · rfl
  · unfold markLines
    split
    · rfl
    · exact State.modCore_me ..

@[simp] theorem State.store_flue (s : State) (a : Nat) (bs : List Byte) (c j : Nat) : (s.store a bs).flue c j = s.flue c j :=
  State.flue_of_cube (by rw [State.store_cube]) j

/-- Bytes that two memories share are read as the same. -/
theorem memGetList_congr {l m : List Host.Cell} {a n : Nat} (same : ∀ x, a ≤ x → x < a + n → memGet l x = memGet m x) :
    memGetList l a n = memGetList m a n := by
  refine List.ext_getElem (by rw [memGetList_length, memGetList_length]) fun k h _ => ?_
  rw [memGetList_getElem, memGetList_getElem]
  rw [memGetList_length] at h
  exact same _ (Nat.le_add_right ..) (by omega)

/-- The status words of a list of flues, each written at its place; nothing else of memory and no flue changes. -/
theorem statWrites_words {s u : State} {c core : Nat} {p : Piece} {l : List Nat} (room : ∀ j ∈ l, 8 * j < p.len)
    (wf : Memory.wf s.mem = true) (ok : statWrites s c core [p] l = .ok u) :
    u.me = s.me ∧
    (∀ j ∈ l, natOfBytes (u.load (p.place.addr + 8 * j) 8) = statusWord (s.flue c j)) ∧
    ∀ a, (∀ j ∈ l, ¬(p.place.addr + 8 * j ≤ a ∧ a < p.place.addr + 8 * j + 8)) → memGet u.mem a = memGet s.mem a := by
  induction l generalizing s with
  | nil =>
    cases ok
    exact ⟨rfl, nofun, fun _ _ => rfl⟩
  | cons f l ih =>
    have at_ : pieceByte [p] (8 * f) = p.place.addr + 8 * f := if_pos (room f List.mem_cons_self)
    simp only [statWrites, at_] at ok
    split at ok
    · next t written =>
      obtain rfl := homeWrite_stored written
      set bs := bytesOfNat 8 (statusWord (s.flue c f)) with hbs
      have len : bs.length = 8 := bytesOfNat_length ..
      obtain ⟨me, words, rest⟩ := ih (fun j h => room j (List.mem_cons_of_mem _ h))
        (by rw [State.modCore_mem, State.store_mem]; exact memSetList_wf _ _ wf) ok
      simp only [State.modCore_flue, State.store_flue] at words
      rw [State.modCore_mem, State.store_mem] at rest
      refine ⟨me.trans (by rw [State.modCore_me, State.store_me]), fun j h => ?_, fun a apart => ?_⟩
      · by_cases later : j ∈ l
        · exact words j later
        · obtain rfl := (List.mem_cons.mp h).resolve_right later
          have own := memGetList_memSetList wf (p.place.addr + 8 * j) bs
          rw [len] at own
          have kept : u.load (p.place.addr + 8 * j) 8 = bs := by
            refine (memGetList_congr fun x lo hi => rest x fun k hk => ?_).trans own
            have other : k ≠ j := fun e => later (e ▸ hk)
            omega
          rw [kept, hbs, natOfBytes_bytesOfNat]
          exact Nat.mod_eq_of_lt (statusWord_lt _)
      · rw [rest a fun j h => apart j (List.mem_cons_of_mem _ h), memGet_memSetList wf, len,
          if_neg (apart f List.mem_cons_self)]
    all_goals exact nomatch ok

/-! ### The flue-request engine (R332) -/

section Entries

variable {s : State} {core : Nat} {x : Entry} {fn : Nat} {o r : Word}

theorem flueEntry_waits (common : flueCommon s (core / 256) x.key (x.requester core) x.pc x.seg fn o r = .error none) (tid : Nat) :
    flueEntry s core x tid fn o r = .wait := by rw [flueEntry, common]

theorem flueEntry_faults {t : TrapReport}
    (common : flueCommon s (core / 256) x.key (x.requester core) x.pc x.seg fn o r = .error (some t)) (tid : Nat) :
    flueEntry s core x tid fn o r = .fault t := by rw [flueEntry, common]

section Common

variable {rc : Record} {bs : List Byte}
  (common : flueCommon s (core / 256) x.key (x.requester core) x.pc x.seg fn o r = .ok (rc, bs)) (tid : Nat)
include common

theorem flueEntry_loads (config : fn = 0) : flueEntry s core x tid fn o r =
    if imageOk (imageWords bs) then
      if anyRunning s (core / 256) (flueSet (s.cube (core / 256)) rc) then .wait
      else .done (loadImage s (core / 256) (core % 256) (imageWords bs) (flueSet (s.cube (core / 256)) rc))
    else .fault (x.report .flueInvalid x.pc .none 0) := by
  subst config
  cases ok : imageOk (imageWords bs) <;> simp [flueEntry, common, ok]

theorem flueEntry_held (start : fn = 1) (retires : (s.cube (core / 256)).retiring ≠ []) :
    flueEntry s core x tid fn o r = .wait := by
  subst start
  simp [flueEntry, common, retires]

section Start

variable (start : fn = 1) (calm : (s.cube (core / 256)).retiring = [])
include start calm

theorem flueEntry_startWaits (k : startKernel s (core / 256) (x.requester core) x.pc x.seg (core % 256) rc bs (some tid, x.id) none =
    .error none) : flueEntry s core x tid fn o r = .wait := by
  subst start
  simp [flueEntry, common, calm, k]

theorem flueEntry_startFaults {t : TrapReport} (k : startKernel s (core / 256) (x.requester core) x.pc x.seg (core % 256) rc bs
    (some tid, x.id) none = .error (some t)) : flueEntry s core x tid fn o r = .fault t := by
  subst start
  simp [flueEntry, common, calm, k]

theorem flueEntry_starts {u : State} (k : startKernel s (core / 256) (x.requester core) x.pc x.seg (core % 256) rc bs
    (some tid, x.id) none = .ok u) : flueEntry s core x tid fn o r = .done u := by
  subst start
  simp [flueEntry, common, calm, k]

end Start

theorem flueEntry_stops (stop : fn = 2) :
    flueEntry s core x tid fn o r = .done (stopFlues s (core / 256) (flueSet (s.cube (core / 256)) rc)) := by
  subst stop
  simp only [flueEntry, common]

theorem flueEntry_stats (stat : fn = 3) : flueEntry s core x tid fn o r = flueStat s core x rc o := by
  subst stat
  simp only [flueEntry, common]

end Common

/-- Where an FSTAT may write: stacked DRAM, or a scratchpad in its RAW window (R333). -/
def statRegion (a : Region) : Bool :=
  a = .dram || match a with
    | .spad _ w => w == 0
    | _ => false

theorem footprint_statRegion {seg : BitVec 16} {a : Word} {e : Except Refused (List Piece)}
    (placed : footprint s (x.requester core) seg a 512 .store statRegion = e) {f : Region → Bool}
    (same : ∀ r, f r = statRegion r) : footprint s (x.requester core) seg a 512 .store f = e := by
  rw [funext same, placed]

/-- A scratchpad of its own in the RAW window is one in the RAW window. -/
theorem statRegion_own (core : Nat) (a : Region) : (statRegion a || decide (a = .spad core 0)) = statRegion a := by
  by_cases own : a = .spad core 0
  · subst own
    simp [statRegion]
  · simp [own]

theorem flueStat_place (rc : Record) {e : Refused} (placed : footprint s (x.requester core) (segIn x.seg o).1 (segIn x.seg o).2 512
    .store statRegion = .error e) :
    flueStat s core x rc o = if e.held then .wait else .fault (x.refusal e .store (segIn x.seg o).1) := by
  simp only [flueStat]
  rw [footprint_statRegion placed fun a => ?_]
  exact (Bool.or_right_comm ..).trans (statRegion_own core a)

theorem flueStat_writes {rc : Record} {ps qs : List Piece} {u : State} (placed : footprint s (x.requester core) (segIn x.seg o).1
    (segIn x.seg o).2 512 .store statRegion = .ok ps) (here : waitsMap s ps = false) (landed : landPieces s ps = .ok qs)
    (written : statWrites s (core / 256) core qs (flueSet (s.cube (core / 256)) rc) = .ok u) :
    flueStat s core x rc o = .done u := by
  simp only [flueStat]
  rw [footprint_statRegion placed fun a => ?_]
  · simp [here, landed, written]
  · exact (Bool.or_right_comm ..).trans (statRegion_own core a)

end Entries

section Engine

variable {s : State} {core : Nat} {h x : Entry} {l : List Entry} {fn : Nat} {o r : Word}
  (me : s.me = core) (live : s.core.ctx.live = true) (fq : s.core.ctx.fq = h :: l) (first : h.work ≠ .marker)
  (next : s.core.ctx.fq.find? (fun y => !y.accepted && y.work != .marker) = some x) (work : x.work = .flue fn o r false)
  (clear : s.core.ctx.slotsClear x.wait.toNat x.id = true)
include me live fq first next work clear

theorem flueStart_waits (e : flueEntry s core x s.core.ctx.tid fn o r = .wait) : flueStart core s = s := by
  rw [Ctx.live_iff] at live
  rw [fq] at next
  simp [flueStart, State.getCore_of_me me, live, fq, first, next, work, clear, e]

theorem flueStart_faults {t : TrapReport} (e : flueEntry s core x s.core.ctx.tid fn o r = .fault t) :
    flueStart core s =
      (dropEarly s (core / 256) x.key).modCore core fun k => { k with ctx := flueFaultCtx k.ctx x t } := by
  rw [Ctx.live_iff] at live
  rw [fq] at next
  simp [flueStart, State.getCore_of_me me, live, fq, first, next, work, clear, e]

theorem flueStart_does {t : State} (other : fn ≠ 1) (e : flueEntry s core x s.core.ctx.tid fn o r = .done t) :
    flueStart core s =
      (dropEarly t (core / 256) x.key).modCore core fun k => { k with ctx := k.ctx.completeEntry .flue x.id } := by
  rw [Ctx.live_iff] at live
  rw [fq] at next
  simp [flueStart, State.getCore_of_me me, live, fq, first, next, work, clear, e, other]

theorem flueStart_starts {t : State} (start : fn = 1) (e : flueEntry s core x s.core.ctx.tid fn o r = .done t) :
    flueStart core s = settleStart ((dropEarly t (core / 256) x.key).modCore core fun k => { k with
      ctx := k.ctx.modEntry .flue x.id fun y => { y with work := .flue fn o r true } }) (core / 256) (some s.core.ctx.tid, x.id) := by
  subst start
  rw [Ctx.live_iff] at live
  rw [fq] at next
  simp [flueStart, State.getCore_of_me me, live, fq, first, next, work, clear, e]

end Engine

end Sys2Proof.Machine
end

