-- ==== Sys2Proof/Proofs/EngineEvents.lean ====
section
/-! The proof of O57: the steps of the matrix, copy and flue engines. -/

namespace Sys2Proof.Machine

open Sys2Proof Sys2Proof.Safety

/-! ### An entry completes (R190) -/

section Complete

variable (c : Ctx) (e : Sequencer) (id : Nat)

theorem Ctx.completeEntry_queue {e : Sequencer} (engine : e ≠ .main) :
    (c.completeEntry e id).queue e = (c.queue e).filter fun x => x.id != id := by
  cases e with
  | main => exact absurd rfl engine
  | matrix => rfl
  | copy => rfl
  | flue => rfl

theorem Ctx.not_counted_completeEntry {y : Counted} (counted : y ∈ (c.completeEntry e id).counted) : y.id ≠ id := by
  simpa using (List.mem_filter.mp counted).2

theorem Ctx.completeEntry_regs : (c.completeEntry e id).regs = c.regs := Ctx.setQueue_regs ..

theorem Ctx.completeForm_none (idle : c.formed = none) : c.completeForm = c := by rw [Ctx.completeForm, idle]

theorem Ctx.completeForm_some {y : Formed} (formed : c.formed = some y) :
    c.completeForm = { c with
      regs := { c.regs with tdirty := c.regs.tdirty ||| y.dirty }, tiles := { c.tiles with shape := y.shape }, formed := none } := by
  rw [Ctx.completeForm, formed]

/-- A form that completes changes neither the g file nor acc, nor the queue and what is counted. -/
theorem Ctx.completeForm_keeps : c.completeForm.regs.g = c.regs.g ∧ c.completeForm.tiles.acc = c.tiles.acc ∧
    c.completeForm.mq = c.mq := by
  unfold Ctx.completeForm
  split
  · exact ⟨rfl, rfl, rfl⟩
  · exact ⟨rfl, rfl, rfl⟩

end Complete

/-! ### The matrix engine -/

section Matrix

variable {s : State} {x : Entry} {l : List Entry} (mq : s.core.ctx.mq = x :: l) (work : x.work = .marker)
include mq work

theorem matrixComplete_waits (busy : engineBusy s s.me .matrix s.core.ctx.tid = true) : matrixComplete s = s := by
  simp only [matrixComplete, mq, work, busy, if_true]

theorem matrixComplete_completes (idle : engineBusy s s.me .matrix s.core.ctx.tid = false) :
    matrixComplete s = s.modCtx fun c => c.completeForm.completeEntry .matrix x.id := by
  simp only [matrixComplete, mq, work, idle, Bool.false_eq_true, if_false]

/-- A form that was performed completes, and TSHAPE and TDIRTY show it (R190, R209). -/
theorem matrixComplete_results (idle : engineBusy s s.me .matrix s.core.ctx.tid = false) :
    let t := matrixComplete s
    t.core.ctx.mq = (x :: l).filter (fun y => y.id != x.id) ∧ (∀ y ∈ t.core.ctx.counted, y.id ≠ x.id) ∧ t.mem = s.mem ∧
      t.regs.g = s.regs.g ∧ t.core.ctx.tiles.acc = s.core.ctx.tiles.acc ∧
      (s.core.ctx.formed = none → t.regs = s.regs ∧ t.core.ctx.tiles = s.core.ctx.tiles) ∧
      (∀ y, s.core.ctx.formed = some y →
        t.regs.tdirty = s.regs.tdirty ||| y.dirty ∧ t.core.ctx.tiles.shape = y.shape) := by
  rw [matrixComplete_completes mq work idle]
  obtain ⟨g, acc, queue⟩ := s.core.ctx.completeForm_keeps
  refine ⟨?_, fun y => Ctx.not_counted_completeEntry _ _ _, rfl, g, acc, fun none => ?_, fun y formed => ?_⟩
  · exact (Ctx.completeEntry_queue _ x.id (e := .matrix) nofun).trans (by rw [Ctx.queue, queue, mq])
  · have regs := congrArg Ctx.regs (Ctx.completeForm_none _ none)
    have tiles := congrArg Ctx.tiles (Ctx.completeForm_none _ none)
    exact ⟨regs, tiles⟩
  · have dirty := congrArg (·.regs.tdirty) (Ctx.completeForm_some _ formed)
    have shape := congrArg (·.tiles.shape) (Ctx.completeForm_some _ formed)
    exact ⟨dirty, shape⟩

end Matrix

/-! ### The copy engine completes a command (R308, R354) -/

section Copy

variable {s : State} {core : Nat} {x : Entry} {k : CopyCmd} (me : s.me = core) (work : x.work = .copy k) (idle : k.atoms = [])
  (sent : k.sent = true)
include me work idle sent

theorem copyComplete_thread (live : s.core.ctx.live = true) (cq : s.core.ctx.cq = [x]) (dq : s.core.dq = []) (clean : k.fault = none) :
    copyComplete core s = s.modCore core fun k => { k with ctx := k.ctx.completeEntry .copy x.id } := by
  simp [copyComplete, State.getCore_of_me me, copyQueue_single live cq dq, copySettled_of_sent s.core work sent idle,
    isNode_of_empty dq, Entry.copyCmd_of_work work, clean]

/-- A thread's command that has settled leaves the queue and what is counted (R308). -/
theorem copyComplete_results (live : s.core.ctx.live = true) (cq : s.core.ctx.cq = [x]) (dq : s.core.dq = []) (clean : k.fault = none) :
    let t := copyComplete core s
    t.core.ctx.cq = [] ∧ (∀ y ∈ t.core.ctx.counted, y.id ≠ x.id) ∧ t.mem = s.mem ∧ t.regs = s.regs := by
  rw [copyComplete_thread me work idle sent live cq dq clean, State.modCore_of_me me]
  refine ⟨?_, fun y => Ctx.not_counted_completeEntry _ _ _, rfl, Ctx.completeEntry_regs ..⟩
  show (s.core.ctx.completeEntry .copy x.id).queue .copy = []
  rw [Ctx.completeEntry_queue _ x.id (e := .copy) nofun]
  simp [Ctx.queue, cq]

theorem copyComplete_node (cq : s.core.ctx.cq = []) (dq : s.core.dq = [x]) :
    copyComplete core s = reportFrom (s.modCore core fun k => { k with dq := [] }) x.origin
      (if k.fault.isSome then statusFaulted else statusOk) := by
  have node : isNode s.core x.id = true := by simp [isNode, dq]
  simp [copyComplete, State.getCore_of_me me, copyQueue_node cq dq, copySettled_of_sent s.core work sent idle, node,
    Entry.copyCmd_of_work work, State.modCore_of_me me, dq]

end Copy

/-! ### The flue-request engine's entries (R334, R335, R337, R338) -/

section Flue

variable {s : State} {core : Nat} {h x : Entry} {l : List Entry} {fn : Nat} {o r : Word}

variable (live : s.core.ctx.live = true) (me : s.me = core) (fq : s.core.ctx.fq = h :: l)
  (first : h.work ≠ .marker) (next : s.core.ctx.fq.find? (fun y => !y.accepted && y.work != .marker) = some x)
  (work : x.work = .flue fn o r false) (clear : s.core.ctx.slotsClear x.wait.toNat x.id = true)
include live me fq first next work clear

/-- An entry that completes when it starts: it leaves the queue and what is counted, and what it did to memory and the flues
stands. -/
theorem flueStart_completes (other : fn ≠ 1) {t : State}
    (e : flueEntry s core x s.core.ctx.tid fn o r = .done t) (stands : t.me = core) :
    let u := flueStart core s
    u.mem = t.mem ∧ (∀ j, u.flue (core / 256) j = t.flue (core / 256) j) ∧ (∀ y ∈ u.core.ctx.fq, y.id ≠ x.id) ∧
      ∀ y ∈ u.core.ctx.counted, y.id ≠ x.id := by
  intro u
  have made := flueStart_does me live fq first next work clear other e
  have here : u.core.ctx = (dropEarly t (core / 256) x.key).core.ctx.completeEntry .flue x.id := by
    unfold u
    rw [made, State.modCore_of_me ((dropEarly_me ..).trans stands)]
  refine ⟨?_, fun j => ?_, fun y mem => ?_, fun y mem => ?_⟩
  · simp [u, made]
  · simp [u, made]
  · have queue := Ctx.completeEntry_queue (dropEarly t (core / 256) x.key).core.ctx x.id (e := .flue) nofun
    rw [← here] at queue
    have left := queue.subst (motive := fun q => y ∈ q) mem
    simpa using (List.mem_filter.mp left).2
  · exact Ctx.not_counted_completeEntry _ _ _ (here ▸ mem)

/-- What holds of the state that an entry leaves: `shows` of its memory and flues, and the entry is gone. -/
def FlueDoes (t : State) (x : Entry) (shows : Prop) : Prop :=
  shows ∧ (∀ y ∈ t.core.ctx.fq, y.id ≠ x.id) ∧ ∀ y ∈ t.core.ctx.counted, y.id ≠ x.id

section Common

variable {rc : Record} {bs : List Byte}
  (common : flueCommon s (core / 256) x.key (x.requester core) x.pc x.seg fn o r = .ok (rc, bs))
include common

/-- FCFG loads its image into the flues of its set (R334). -/
theorem flueStart_loads (config : fn = 0) (good : imageOk (imageWords bs) = true)
    (still : anyRunning s (core / 256) (flueSet (s.cube (core / 256)) rc) = false) :
    let t := flueStart core s
    FlueDoes t x (t.mem = s.mem ∧ ∀ j, j < 64 → t.flue (core / 256) j = if j ∈ flueSet (s.cube (core / 256)) rc then
      { s.flue (core / 256) j with st := .configured, owner := core % 256, image := imageWords bs } else s.flue (core / 256) j) := by
  have e := flueEntry_loads common s.core.ctx.tid config
  rw [if_pos good, still] at e
  obtain ⟨kept, flues, gone⟩ :=
    flueStart_completes live me fq first next work clear (by omega) e ((loadImage_me ..).trans me)
  refine ⟨⟨?_, fun j inside => ?_⟩, gone⟩
  · rw [kept, loadImage_mem]
  · rw [flues, loadImage_flue s _ _ _ _ inside]

/-- FSTOP stops what runs of its set (R337). -/
theorem flueStart_stops (stop : fn = 2) :
    let t := flueStart core s
    FlueDoes t x (t.mem = s.mem ∧ ∀ j, j < 64 → (t.flue (core / 256) j).face =
      (if j ∈ flueSet (s.cube (core / 256)) rc ∧ (s.flue (core / 256) j).st = .running then .stopped
        else (s.flue (core / 256) j).st, (s.flue (core / 256) j).face.2)) := by
  obtain ⟨kept, flues, gone⟩ := flueStart_completes live me fq first next work clear (by omega)
    (flueEntry_stops common _ stop) ((stopFlues_me ..).trans me)
  refine ⟨⟨?_, fun j inside => ?_⟩, gone⟩
  · rw [kept, stopFlues_mem]
  · rw [flues, stopFlues_face s _ _ inside]

/-- FSTAT writes the status word of each flue of its set (R338). -/
theorem flueStart_stats (stat : fn = 3) {p : Piece} {u : State} (e : flueStat s core x rc o = .done u) {set : List Nat}
    (written : statWrites s (core / 256) core [p] set = .ok u) (one : p.len = 512) (small : ∀ j ∈ set, j < 64)
    (wf : Memory.wf s.mem = true) :
    let t := flueStart core s
    FlueDoes t x ((∀ j ∈ set, natOfBytes (t.load (p.place.addr + 8 * j) 8) = statusWord (s.flue (core / 256) j)) ∧
      ∀ a, (∀ j ∈ set, ¬(p.place.addr + 8 * j ≤ a ∧ a < p.place.addr + 8 * j + 8)) → memGet t.mem a = memGet s.mem a) := by
  obtain ⟨here, words, rest⟩ := statWrites_words (fun j of => by have := small j of; omega) wf written
  obtain ⟨kept, -, gone⟩ := flueStart_completes live me fq first next work clear (by omega)
    ((flueEntry_stats common _ stat).trans e) (here.trans me)
  refine ⟨⟨fun j of => ?_, fun a apart => ?_⟩, gone⟩
  · rw [State.load, kept]
    exact words j of
  · rw [kept, rest a apart]

end Common

end Flue

/-! ### The copy engine's next step (R307, R309) -/

section CopyStep

variable {s : State} {core : Nat} {x : Entry} {k : CopyCmd}

theorem CopyCmd.unsent {k : CopyCmd} (clean : k.fault = none) (more : k.pos < k.len) : k.sent = false := by
  simp [CopyCmd.sent, clean, more]

theorem copyCommandStart_next (h : CoreInService s core) (may : enginesMay (s.focus core) core = true) :
    exec (.copyCommandStart core) s = .next (copyStart core (s.focus core)) := by
  show execCopyCommandStart core s = _
  rw [execCopyCommandStart, coreEvent_next h]
  simp [may]

variable (me : s.me = core) (cq : s.core.ctx.cq = [x]) (dq : s.core.dq = []) (work : x.work = .copy k) (idle : k.atoms = [])
  (may : enginesMay s core = true) (unsent : k.sent = false)
include me cq dq work idle may unsent

theorem copyStart_sends (begun : k.started = true) : copyStart core s = copySend s core x k := by
  rw [copyStart_single me cq dq work idle may unsent rfl, if_pos begun]

theorem copyStart_waits (fresh : k.started = false) (blocked : s.core.ctx.slotsClear x.wait.toNat x.id = false) :
    copyStart core s = s := by
  simp [copyStart_single me cq dq work idle may unsent rfl, fresh, blocked]

/-- A part that the engine may send: the command goes on behind it, and its requests are in flight. -/
theorem copyStart_sent (begun : k.started = true) {d : Option Place} {ps : List Piece}
    (sent : copySend s core x k = sentPart s core x k d ps) :
    let t := copyStart core s
    let n := partBytes s core x k ps
    t.mem = s.mem ∧ t.regs = s.regs ∧
      t.core.ctx.cq.map Entry.copyCmd = [some { k with pos := k.pos + n, atoms := partAtoms s core k d n }] ∧
      ∃ fs, t.flights = s.flights ++ fs ∧ fs.map (fun (y : Flight) => (y.src, y.cls, y.cube, y.body)) =
        ((copyDests k k.pos d).map fun a =>
          (Agent.engine core .copy, Class.ordered, (destHome s d a).1, Body.ownRequest (a / 32 * 32) x.id k.pos)) ++
        ps.map fun q => (Agent.engine core .copy, Class.adaptive, q.place.cube,
          Body.copyRead q.place.addr q.len x.id (k.pos + (q.off - (k.src + BitVec.ofNat 64 k.pos)).toNat)) := by
  rw [copyStart_sends me cq dq work idle may unsent begun, sent]
  obtain ⟨⟨kept, moved⟩, flights⟩ := sentPart_results (x := x) (k := k) (d := d) me ps
  refine ⟨kept, ?_, ?_, flights⟩
  · rw [State.regs, moved]
    rfl
  · rw [moved, modCmd_single cq work]
    simp only [idle, List.nil_append]

section Starts

variable (fresh : k.started = false) (clear : s.core.ctx.slotsClear x.wait.toNat x.id = true)
include fresh clear

theorem copyStart_starts {ts : List Nat} (ok : startCopy s core x k = .ok ts) :
    copyStart core s = s.modCore core fun c => modCmd c x.id fun c => { c with started := true, targets := ts } := by
  simp [copyStart_single me cq dq work idle may unsent ok, fresh, clear, copyStarted]

theorem copyStart_faults {t : TrapReport} (bad : startCopy s core x k = .error t) : copyStart core s = copyFault s core x 0 t := by
  simp [copyStart_single me cq dq work idle may unsent bad, fresh, clear, copyStarted]

end Starts

end CopyStep

theorem flueEntryStart_next {s : State} {core : Nat} (h : CoreInService s core) (may : enginesMay (s.focus core) core = true) :
    exec (.flueEntryStart core) s = .next (flueStart core (s.focus core)) := by
  show execFlueEntryStart core s = _
  rw [execFlueEntryStart, coreEvent_next h, if_pos may]

/-- Settles O57: each step of an engine, from what its queue's head asks for. -/
theorem engineEvents : Obligations.EngineEvents := by
  unfold Obligations.EngineEvents
  intro s core h b c
  have me : b.me = core := State.focus_me s core
  have mem : b.mem = s.mem := State.focus_mem s core
  have here : b.getCore core = b.core := State.getCore_of_me me
  have next (f : State → State) : coreEvent core f s = .next (f b) := coreEvent_next h f
  have regsOf (f : Core → Core) : (b.modCore core f).core = f b.core := by rw [State.modCore_of_me me]
  refine ⟨fun x l mq work => ⟨fun busy => ?_, fun idle => ?_⟩, fun x k cq dq work idle clean may more => ?_,
    fun x k cq dq live work idle clean sent => ?_, fun x k cq dq work idle sent => ?_, ?_,
    fun y => ⟨settleStart_runs b (core / 256), fun ended j => settleStart_frees b (core / 256) ended⟩⟩
  · exact (next _).trans (congrArg _ (matrixComplete_waits mq work busy))
  · obtain ⟨queue, counted, kept, g, acc, stood, shown⟩ := matrixComplete_results mq work idle
    exact ⟨_, next _, queue, counted, kept.trans mem, g, acc, stood, shown⟩
  · have unsent := CopyCmd.unsent clean more
    have step := copyCommandStart_next h may
    have cmds (f : CopyCmd → CopyCmd) : ((b.modCore core fun c => modCmd c x.id f).core.ctx.cq.map Entry.copyCmd) = [some (f k)] := by
      rw [regsOf, modCmd_single cq work]
    refine ⟨fun fresh blocked => ?_, fun fresh clear => ⟨fun ts ok => ?_, fun r bad => ?_⟩, fun d begun done lo hi => ?_,
      fun begun done => ⟨fun e one refused => ?_, fun d many placed => ⟨fun e reads refused => ?_,
        fun ps fills reads free owns fetches => ?_⟩⟩⟩
    · rw [step, copyStart_waits me cq dq work idle may unsent fresh blocked]
    · rw [step, copyStart_starts me cq dq work idle may unsent fresh clear ok]
      exact ⟨_, rfl, cmds _, (State.modCore_mem ..).trans mem⟩
    · rw [step, copyStart_faults me cq dq work idle may unsent fresh clear bad]
    · rw [step, copyStart_sends me cq dq work idle may unsent begun, copySend_passes done lo hi]
      exact ⟨_, rfl, cmds _, by rw [State.modCore_of_me me], (State.modCore_mem ..).trans mem⟩
    · rw [step, copyStart_sends me cq dq work idle may unsent begun, copySend_dstFault done one refused]
    · rw [step, copyStart_sends me cq dq work idle may unsent begun, copySend_srcFault done placed reads refused]
    · have calm : mapHeld (b.focus core) = false := by rwa [State.focus, if_pos me.symm]
      have sent := copySend_sends done placed many fills reads calm owns fetches
      obtain ⟨kept, regs, cmd, fs, flights, shown⟩ := copyStart_sent me cq dq work idle may unsent begun sent
      exact ⟨_, fs, step, kept.trans mem, regs, cmd, flights, shown⟩
  · obtain ⟨queue, counted, kept, regs⟩ := copyComplete_results me work idle sent live cq dq clean
    exact ⟨_, next _, queue, counted, kept.trans mem, regs⟩
  · exact (next _).trans (congrArg _ (copyComplete_node me work idle sent cq dq))
  · intro hd l x fn o r fq first pick work clear may
    have live : b.core.ctx.live = true := here ▸ live_of_enginesMay may
    have step := flueEntryStart_next h may
    have waits (e : flueEntry b core x c.tid fn o r = .wait) : exec (.flueEntryStart core) s = .next b := by
      rw [step, flueStart_waits me live fq first pick work clear e]
    have faults {t : TrapReport} (e : flueEntry b core x c.tid fn o r = .fault t) := step.trans
      (congrArg Host.Outcome.next (flueStart_faults me live fq first pick work clear e))
    refine ⟨fun bad => waits (flueEntry_waits bad _), fun t bad => faults (flueEntry_faults bad _), fun rc bs common =>
      ⟨fun config => ⟨fun bad => ?_, fun good running => ?_, fun good still => ?_⟩, fun start => ⟨fun retires => ?_, fun calm =>
        ⟨fun k => ?_, fun t k => ?_, fun u k => ⟨?_, fun j inside => ?_, ?_⟩⟩⟩, fun stop => ?_,
        fun stat => ⟨fun e placed => ?_, fun ps p u placed landed one len small wf written => ?_⟩⟩⟩
    · exact faults (by rw [flueEntry_loads common _ config, bad]; rfl)
    · exact waits (by rw [flueEntry_loads common _ config, if_pos good, if_pos running])
    · exact ⟨_, step, mem ▸ flueStart_loads live me fq first pick work clear common config good still⟩
    · exact waits (flueEntry_held common _ start retires)
    · exact waits (flueEntry_startWaits common _ start calm k)
    · exact faults (flueEntry_startFaults common _ start calm k)
    · exact startKernel_mem k
    · refine (startKernel_flue k inside).imp_right ?_
      rintro ⟨of, awake, still, own, lists, spans, begun⟩
      rw [begun]
      exact ⟨of, awake, still, own, rfl, rfl, rfl, rfl, rfl, rfl, rfl⟩
    · rw [step, flueStart_starts me live fq first pick work clear start (flueEntry_starts common _ start calm k)]
    · obtain ⟨⟨kept, faces⟩, gone⟩ := flueStart_stops live me fq first pick work clear common stop
      refine ⟨_, step, ⟨kept.trans mem, fun j inside => ?_⟩, gone⟩
      exact ⟨congrArg (·.2.1) (faces j inside), congrArg (·.2.2) (faces j inside), congrArg (·.1) (faces j inside)⟩
    · have e' := (flueEntry_stats common c.tid stat).trans (flueStat_place rc placed)
      split
      · next held => exact waits (e'.trans (if_pos held))
      · next held => exact faults (e'.trans (if_neg held))
    · have e := flueStat_writes placed landed one written
      exact ⟨_, step, mem ▸ flueStart_stats live me fq first pick work clear common stat e written len small wf⟩

end Sys2Proof.Machine
end

