-- ==== Sys2Proof/Proofs/MatrixForms.lean ====
section
/-! SUPPORT. The matrix engine starts a form, and what the forms on tile registers and acc leave (R189-R202, R209). -/

namespace Sys2Proof.Machine

open Sys2Proof Sys2Proof.Safety

/-! ### The start of a form (R189, R190, R191) -/

/-- The state in which a core's matrix engine starts a form. -/
def formState (s : State) (core : Nat) : State := { s.focus core with seqr := .main }

theorem formState_me (s : State) (core : Nat) : (formState s core).me = core := State.focus_me s core

/-- A form that the engine has performed: it leaves `u`, and its entry stays as a marker (R190). -/
def performedForm (b : State) (x : Entry) (u : State) : State :=
  { u with core := u.core.count 9 1 }.modCtx fun c => (b.core.ctx.started c).modEntry .matrix x.id fun y => { y with work := .marker }

section Start

variable {b : State} {x : Entry} {l : List Entry} {op fn : Nat} {f : FmtT} {g : List Word} (mq : b.core.ctx.mq = x :: l)
  (work : x.work = .tile op fn f g) (own : isTransfer x = false) (clear : b.core.ctx.slotsClear x.wait.toNat x.id = true)
include mq work own clear

section Alone

variable (alone : op ≠ 0x63)
include alone

theorem matrixStart_performs {u : State} (start : startForm x (b.modCtx Ctx.undirtied) = .done u) :
    matrixStart b = performedForm b x u := by
  simp [matrixStart, mq, own, clear, work, alone, start, performedForm]

theorem matrixStart_faults {r : TrapReport} (start : startForm x (b.modCtx Ctx.undirtied) = .fault r) :
    matrixStart b = b.modCtx fun c => entryFault c .matrix x r := by
  simp [matrixStart, mq, own, clear, work, alone, start]

theorem matrixStart_waits (start : startForm x (b.modCtx Ctx.undirtied) = .wait) : matrixStart b = b := by
  simp [matrixStart, mq, own, clear, work, alone, start]

end Alone

section Joint

variable (joint : op = 0x63)
include joint

theorem matrixStart_joins {u : State} (start : startForm x b = .done u) : matrixStart b = { u with core := u.core.count 9 1 } := by
  subst joint
  simp [matrixStart, mq, own, clear, work, start]

theorem matrixStart_jointFaults {r : TrapReport} (start : startForm x b = .fault r) :
    matrixStart b = b.modCtx fun c => entryFault c .matrix x r := by
  subst joint
  simp [matrixStart, mq, own, clear, work, start]

theorem matrixStart_jointWaits (start : startForm x b = .wait) : matrixStart b = b := by
  subst joint
  simp [matrixStart, mq, own, clear, work, start]

end Joint

end Start

section Events

variable {s : State} {core : Nat} {x : Entry} {l : List Entry} {op fn : Nat} {f : FmtT} {g : List Word} 
theorem headIsJoint_of_work {c : Ctx} (mq : c.mq = x :: l) (work : x.work = .tile op fn f g) : headIsJoint c = (op == 0x63) := by
  simp [headIsJoint, mq, work]

variable (h : CoreInService s core) (may : enginesMay (formState s core) core = true)
  (mq : (formState s core).core.ctx.mq = x :: l) (work : x.work = .tile op fn f g)
include h may mq work

theorem matrixFormStart_next (alone : op ≠ 0x63) : exec (.matrixFormStart core) s = .next (matrixStart (formState s core)) := by
  have head := headIsJoint_of_work mq work
  rw [beq_eq_false_iff_ne.mpr alone] at head
  show execMatrixFormStart core s = _
  rw [execMatrixFormStart, coreEvent_next h]
  exact congrArg _ (if_pos (Bool.and_eq_true_iff.mpr ⟨may, by rw [Bool.not_eq_true']; exact head⟩))

theorem gissueJointIssue_next (joint : op = 0x63) : exec (.gissueJointIssue core) s = .next (matrixStart (formState s core)) := by
  have head := headIsJoint_of_work mq work
  rw [beq_iff_eq.mpr joint] at head
  show execGissueJointIssue core s = _
  rw [execGissueJointIssue, coreEvent_next h]
  exact congrArg _ (if_pos (Bool.and_eq_true_iff.mpr ⟨may, head⟩))

end Events

/-! ### What TSHAPE and TDIRTY show (R209) -/

/-- A form started in `c` that leaves `d`, as it stands as a marker and once it completes. -/
theorem completeForm_started (c d : Ctx) (id : Nat) (f : Entry → Entry) :
    let e := (c.started d).modEntry .matrix id f
    e.completeForm.tiles = d.tiles ∧ e.completeForm.regs = { d.regs with tdirty := c.regs.tdirty ||| d.regs.tdirty } ∧
      e.tiles.shape = c.tiles.shape ∧ e.regs.tdirty = c.regs.tdirty ∧ e.regs.g = d.regs.g ∧ e.regs.gq = d.regs.gq :=
  ⟨rfl, rfl, rfl, rfl, rfl, rfl⟩

/-- What a form leaves in the tile registers, TSW and TDIRTY is what it shows once it completes. -/
theorem performedForm_shows {b u : State} {w : Word} {k : Nat} (x : Entry)
    (regs : u.regs = dirtyTile { b.core.ctx.undirtied.regs with tsw := w } k) (mem : u.mem = b.mem) :
    let t := performedForm b x u
    t.core.ctx.completeForm.tiles = u.core.ctx.tiles ∧ t.core.ctx.completeForm.regs = dirtyTile { b.regs with tsw := w } k ∧
      t.core.ctx.tiles.shape = b.core.ctx.tiles.shape ∧ t.regs.tdirty = b.regs.tdirty ∧ t.mem = b.mem ∧ t.regs.g = b.regs.g ∧
      t.regs.gq = b.regs.gq := by
  obtain ⟨shown, left, shape, dirty, g, gq⟩ := completeForm_started b.core.ctx u.core.ctx x.id fun y => { y with work := .marker }
  have keptG := congrArg Regs.g regs
  have keptQ := congrArg Regs.gq regs
  refine ⟨shown, left.trans ?_, shape, dirty, mem, g.trans keptG, gq.trans keptQ⟩
  rw [State.regs] at regs
  rw [regs]
  exact congrArg (fun y : BitVec 9 => ({ b.regs with tsw := w, tdirty := b.regs.tdirty ||| y } : Regs)) BitVec.zero_or

/-- What a form that the engine starts leaves in the tile registers and the registers, seen once it completes; TSHAPE and TDIRTY
stand until then. -/
def FormDoes (s : State) (core : Nat) (P : TileRegs → Regs → Prop) : Prop :=
  ∃ t, exec (.matrixFormStart core) s = .next t ∧ P t.core.ctx.completeForm.tiles t.core.ctx.completeForm.regs ∧
    t.core.ctx.tiles.shape = (formState s core).core.ctx.tiles.shape ∧ t.regs.tdirty = (formState s core).regs.tdirty ∧
    t.mem = (formState s core).mem ∧ t.regs.g = (formState s core).regs.g ∧ t.regs.gq = (formState s core).regs.gq

/-- The state from which a form is started: no TDIRTY bit is set. -/
def cleanState (s : State) (core : Nat) : State := (formState s core).modCtx Ctx.undirtied

section Does

variable {s : State} {core : Nat} {x : Entry} {l : List Entry} {op fn : Nat} {f : FmtT} {g : List Word} (h : CoreInService s core)
  (may : enginesMay (formState s core) core = true) (mq : (formState s core).core.ctx.mq = x :: l) (work : x.work = .tile op fn f g)
  (own : isTransfer x = false) (clear : (formState s core).core.ctx.slotsClear x.wait.toNat x.id = true) (alone : op ≠ 0x63)
  {P : TileRegs → Regs → Prop}
include h may mq work own clear alone

theorem form_does {u : State} {w : Word} {k : Nat} (start : startForm x (cleanState s core) = .done u)
    (regs : u.regs = dirtyTile { (cleanState s core).regs with tsw := w } k) (mem : u.mem = (formState s core).mem)
    (shows : P u.core.ctx.tiles (dirtyTile { (formState s core).regs with tsw := w } k)) : FormDoes s core P := by
  have next := matrixFormStart_next h may mq work alone
  rw [matrixStart_performs mq work own clear alone start] at next
  obtain ⟨tiles, left, rest⟩ := performedForm_shows x regs mem
  exact ⟨_, next, by rwa [tiles, left], rest⟩

/-- A form that changes a tile register. -/
theorem tile_does {k : Nat} {F : TileRegs → TileRegs} (start : startForm x (cleanState s core) = .done (setTile (cleanState s core) k F))
    (shows : P (F (formState s core).core.ctx.tiles) (dirtyTile (formState s core).regs k)) : FormDoes s core P :=
  form_does h may mq work own clear alone (w := (formState s core).regs.tsw) start rfl rfl shows

/-- A form that writes acc. -/
theorem acc_does {A : Ctx → BitVec 983040}
    (start : startForm x (cleanState s core) = .done ((cleanState s core).modCtx fun c => c.setAcc (A c)))
    (shows : P { (formState s core).core.ctx.tiles with acc := A (cleanState s core).core.ctx }
      (dirtyTile { (formState s core).regs with tsw := tswSet (formState s core).regs.tsw 7 true } 8)) : FormDoes s core P :=
  form_does h may mq work own clear alone start rfl rfl shows

end Does

/-! ### Tiles -/

section Tiles

variable (t : TileRegs) {k : Nat} (x : Nat) (sh : BitVec 16) (n sc : Nat)

theorem TileRegs.setBits_bits_ne {j : Nat} (other : j ≠ k) : (t.setBits k x).bits j = t.bits j := by
  rw [TileRegs.bits, TileRegs.setBits]
  exact congrArg (fun o : Option (BitVec 131072) => (o.getD 0).toNat) (Vector.getElem?_setIfInBounds_ne other.symm)

theorem TileRegs.config_bits_ne {j : Nat} (other : j ≠ k) : (t.config k sh n sc).bits j = t.bits j :=
  t.setBits_bits_ne 0 other

theorem TileRegs.config_shapeOf_ne {j : Nat} (other : j ≠ k) : (t.config k sh n sc).shapeOf j = t.shapeOf j := by
  rw [TileRegs.shapeOf, TileRegs.config, Vector.getElem?_setIfInBounds_ne other.symm]
  rfl

variable (inside : k < 8)
include inside

theorem TileRegs.setBits_zero : (t.setBits k 0).bits k = 0 := (t.setBits_bits inside 0).trans BitVec.toNat_zero

theorem TileRegs.config_bits : (t.config k sh n sc).bits k = 0 := t.setBits_zero inside

theorem TileRegs.config_shapeOf : (t.config k sh n sc).shapeOf k = sh := by
  rw [TileRegs.shapeOf, TileRegs.config, Vector.getElem?_setIfInBounds_self_of_lt inside]
  rfl

theorem TileRegs.config_scnt : (t.config k sh n sc).scnt[k]? = some (BitVec.ofNat 8 n) := by
  rw [TileRegs.config, Vector.getElem?_setIfInBounds_self_of_lt inside]

theorem TileRegs.config_scaleList : (t.config k sh n sc).scaleList k = List.replicate 4 (sc % 2 ^ 32) := by
  have stored : (BitVec.ofNat 128 (packNat 32 (List.replicate 4 sc))).toNat = packNat 32 (List.replicate 4 sc) :=
    Nat.mod_eq_of_lt (packNat_lt 32 (List.replicate 4 sc))
  rw [TileRegs.scaleList, TileRegs.config, Vector.getElem?_setIfInBounds_self_of_lt inside]
  simp only [Option.getD_some, stored, elemNat_packNat]
  rfl

end Tiles

/-! ### TCFG, TZERO and TFREE (R194) -/

section Config

variable {x : Entry} {f : FmtT} {s : State}

/-- The shape that a TCFG gives. -/
def cfgShape (q : BitVec 24) : BitVec 16 := (1#1 ++ q.extractLsb' 0 15 : BitVec 16)

/-- Whether it names an SX format. -/
def cfgSx (q : BitVec 24) : Bool := (fmtSx (shapeFmt (cfgShape q))).isSome

/-- Tile k as a TCFG leaves it: in an SX format with a scale of 1 for every block. -/
def TileRegs.configured (t : TileRegs) (k : Nat) (q : BitVec 24) : TileRegs :=
  t.config k (cfgShape q) (if cfgSx q then blocksOf (shapeCols (cfgShape q)) else 0) (if cfgSx q then 0x3F800000 else 0)

theorem TileRegs.configured_sx (t : TileRegs) {k : Nat} (q : BitVec 24) (inside : k < 8)
    (sx : (fmtSx (shapeFmt ((t.configured k q).shapeOf k))).isSome = true) :
    (t.configured k q).scnt[k]? = some (BitVec.ofNat 8 (blocksOf (shapeCols ((t.configured k q).shapeOf k)))) ∧
      (t.configured k q).scaleList k = List.replicate 4 0x3F800000 := by
  unfold TileRegs.configured at sx ⊢
  rw [t.config_shapeOf _ _ _ inside] at sx ⊢
  have named : cfgSx q = true := sx
  rw [if_pos named, if_pos named]
  exact ⟨t.config_scnt _ _ _ inside, t.config_scaleList _ _ _ inside⟩

theorem tileConfig_configures {q : BitVec 24} (p : f.p = some q) : tileConfig 0 x f s = .done (setTile s f.td.toNat fun t =>
    t.configured f.td.toNat q) := by
  rw [tileConfig, p]
  rfl

theorem tileConfig_zeroes (v : shapeV (s.core.ctx.tiles.shapeOf f.td.toNat) = true) :
    tileConfig 5 x f s = .done (setTile s f.td.toNat fun t => t.setBits f.td.toNat 0) := by
  simp [tileConfig, v]

theorem tileConfig_unconfigured (v : shapeV (s.core.ctx.tiles.shapeOf f.td.toNat) = false) :
    tileConfig 5 x f s = .fault (x.report .tileUnconfigured x.pc .none 0) := by
  simp [tileConfig, v]

theorem tileConfig_frees : tileConfig 6 x f s = .done (setTile s f.td.toNat fun t => t.config f.td.toNat 0 0 0) := rfl

end Config

/-! ### TACCRD, TACCWR and TACCZERO (R202) -/

section Acc

variable {fn j : Nat} {x : Entry} {f : FmtT} {g : List Word} {s : State}

theorem tileAcc_zeroes : tileAcc 2 x f g s = .done (s.modCtx fun c => { c with
    regs := dirtyTile { c.regs with tsw := tswSet c.regs.tsw 7 false } 8 }) := rfl

section Window

variable (moves : fn ≤ 1) (tile : (if fn = 0 then f.td.toNat else f.ta.toNat) = j)
include moves tile

theorem tileAcc_unconfigured (v : shapeV (s.core.ctx.tiles.shapeOf j) = false) :
    tileAcc fn x f g s = .fault (x.report .tileUnconfigured x.pc .none 0) := by
  have other : fn ≠ 2 := by omega
  simp [tileAcc, other, tile, v]

variable (v : shapeV (s.core.ctx.tiles.shapeOf j) = true)
include v

theorem tileAcc_format (odd : shapeFmt (s.core.ctx.tiles.shapeOf j) ≠ 0) :
    tileAcc fn x f g s = .fault (x.report .tileFormat x.pc .none 0) := by
  have other : fn ≠ 2 := by omega
  simp [tileAcc, other, tile, v, odd]

variable (fp32 : shapeFmt (s.core.ctx.tiles.shapeOf j) = 0)
include fp32

theorem tileAcc_range (past : 384 < originRow (g.headD 0) + shapeRows (s.core.ctx.tiles.shapeOf j) ∨
      80 < originCol (g.headD 0) + shapeCols (s.core.ctx.tiles.shapeOf j)) :
    tileAcc fn x f g s = .fault (x.report .accRange x.pc .none 0) := by
  have other : fn ≠ 2 := by omega
  unfold tileAcc
  generalize g.headD 0 = w at past ⊢
  simp [other, tile, v, fp32, past]

variable (rows : originRow (g.headD 0) + shapeRows (s.core.ctx.tiles.shapeOf j) ≤ 384)
  (cols : originCol (g.headD 0) + shapeCols (s.core.ctx.tiles.shapeOf j) ≤ 80)
include rows cols

theorem tileAcc_reads (read : fn = 0) : tileAcc fn x f g s = .done (setTile s j fun t => t.setBits j
    (packNat (32 * shapeCols (s.core.ctx.tiles.shapeOf j)) ((List.range (shapeRows (s.core.ctx.tiles.shapeOf j))).map fun i =>
      getBits (accRow (accOf s.core.ctx) (originRow (g.headD 0) + i)) (32 * originCol (g.headD 0))
        (32 * shapeCols (s.core.ctx.tiles.shapeOf j))))) := by
  subst read
  rw [if_pos rfl] at tile
  unfold tileAcc
  generalize g.headD 0 = w at rows cols ⊢
  simp [tile, v, fp32, rows, cols]

theorem tileAcc_writes (write : fn = 1) : tileAcc fn x f g s = .done (s.modCtx fun c => c.setAcc
    ((List.range (shapeRows (s.core.ctx.tiles.shapeOf j))).foldl (fun acc i => setAccRow acc (originRow (g.headD 0) + i)
      (putBits (accRow acc (originRow (g.headD 0) + i)) (32 * originCol (g.headD 0)) (32 * shapeCols (s.core.ctx.tiles.shapeOf j))
        (s.core.ctx.tiles.row j i))) (accOf c))) := by
  subst write
  rw [if_neg Nat.one_ne_zero] at tile
  unfold tileAcc
  generalize g.headD 0 = w at rows cols ⊢
  simp [tile, v, fp32, rows, cols]

end Window

end Acc

/-! ### TMMA (R201) -/

section Mul

variable {fn : Nat} {x : Entry} {f : FmtT} {g : List Word} {s : State}

theorem tileMul_unconfigured (v : shapeV (s.core.ctx.tiles.shapeOf f.ta.toNat) = false ∨
    shapeV (s.core.ctx.tiles.shapeOf f.tb.toNat) = false) :
    tileMul fn x f g s = .fault (x.report .tileUnconfigured x.pc .none 0) := by
  simp [tileMul, v]

variable (va : shapeV (s.core.ctx.tiles.shapeOf f.ta.toNat) = true) (vb : shapeV (s.core.ctx.tiles.shapeOf f.tb.toNat) = true)
include va vb

theorem tileMul_format (odd : shapeFmt (s.core.ctx.tiles.shapeOf f.ta.toNat) ≠ mulFmt fn ∨
    shapeFmt (s.core.ctx.tiles.shapeOf f.tb.toNat) ≠ mulFmt fn) :
    tileMul fn x f g s = .fault (x.report .tileFormat x.pc .none 0) := by
  simp [tileMul, va, vb, odd]

variable (fa : shapeFmt (s.core.ctx.tiles.shapeOf f.ta.toNat) = mulFmt fn)
  (fb : shapeFmt (s.core.ctx.tiles.shapeOf f.tb.toNat) = mulFmt fn)
include fa fb

theorem tileMul_shape (odd : shapeCols (s.core.ctx.tiles.shapeOf f.tb.toNat) ≠ shapeCols (s.core.ctx.tiles.shapeOf f.ta.toNat)) :
    tileMul fn x f g s = .fault (x.report .tileShape x.pc .none 0) := by
  simp [tileMul, va, vb, fa, fb, odd]

variable (depth : shapeCols (s.core.ctx.tiles.shapeOf f.tb.toNat) = shapeCols (s.core.ctx.tiles.shapeOf f.ta.toNat))
include depth

theorem tileMul_range (past : 384 < originRow (g.headD 0) + shapeRows (s.core.ctx.tiles.shapeOf f.ta.toNat) ∨
    80 < originCol (g.headD 0) + shapeRows (s.core.ctx.tiles.shapeOf f.tb.toNat)) :
    tileMul fn x f g s = .fault (x.report .accRange x.pc .none 0) := by
  unfold tileMul
  generalize g.headD 0 = w at past ⊢
  simp [va, vb, fa, fb, depth, past]

theorem tileMul_multiplies (rows : originRow (g.headD 0) + shapeRows (s.core.ctx.tiles.shapeOf f.ta.toNat) ≤ 384)
    (cols : originCol (g.headD 0) + shapeRows (s.core.ctx.tiles.shapeOf f.tb.toNat) ≤ 80)
    (scales : scaleCheck (mulFmt fn) (shapeCols (s.core.ctx.tiles.shapeOf f.ta.toNat)) (s.core.ctx.tiles.scnt[f.ta.toNat]?.getD 0).toNat
      (s.core.ctx.tiles.scnt[f.tb.toNat]?.getD 0).toNat (s.core.ctx.tiles.scaleList f.ta.toNat)
      (s.core.ctx.tiles.scaleList f.tb.toNat) = none) :
    tileMul fn x f g s = .done (s.modCtx fun c => c.setAcc (mulInto (accOf c) (originRow (g.headD 0)) (originCol (g.headD 0))
      (shapeCols (s.core.ctx.tiles.shapeOf f.ta.toNat))
      ((List.range (shapeRows (s.core.ctx.tiles.shapeOf f.ta.toNat))).map fun i =>
        rowVals (mulFmt fn) (shapeCols (s.core.ctx.tiles.shapeOf f.ta.toNat)) (s.core.ctx.tiles.row f.ta.toNat i))
      ((List.range (shapeRows (s.core.ctx.tiles.shapeOf f.tb.toNat))).map fun i =>
        rowVals (mulFmt fn) (shapeCols (s.core.ctx.tiles.shapeOf f.ta.toNat)) (s.core.ctx.tiles.row f.tb.toNat i))
      (scaleVals (mulFmt fn) (s.core.ctx.tiles.scaleList f.ta.toNat))
      (scaleVals (mulFmt fn) (s.core.ctx.tiles.scaleList f.tb.toNat)))) := by
  unfold tileMul
  generalize g.headD 0 = w at rows cols ⊢
  simp only [BitVec.ofNat_eq_ofNat] at scales
  simp [va, vb, fa, fb, depth, rows, cols, scales]

end Mul

end Sys2Proof.Machine
end

