-- ==== Sys2Proof/Proofs/TileMemory.lean ====
section
/-! SUPPORT. What TLD and TST check, read and send (R197-R199). -/

namespace Sys2Proof.Machine

open Sys2Proof Sys2Proof.Safety

/-! ### The image of a tile in memory (R197, R198) -/

/-- Whether a shape names an SX format. -/
def shapeSx (sh : BitVec 16) : Bool := (fmtSx (shapeFmt sh)).isSome

/-- What the address of an image must be a multiple of. -/
def tileUnit (sh : BitVec 16) : Nat := if shapeSx sh then 32 else if shapeFmt sh = 0 then 4 else 2

/-- What its stride must be a multiple of. -/
def strideUnit (sh : BitVec 16) : Nat := if shapeSx sh then 2 else tileUnit sh

/-- The segment value of a form, and the stride that it names. -/
def tileSeg (x : Entry) (f : FmtT) : BitVec 16 := x.seg.getD ((f.p.getD 0).extractLsb' 6 2).toNat 0
def tileStride (f : FmtT) : Nat := ((f.p.getD 0).extractLsb' 8 16).toNat

/-- The kind of access of TLD and of TST. -/
def tileKind (fn : Nat) : AccessKind := if fn = 0 then .load else .store

/-- The parts of an image: its header, where it has one, and its rows. -/
def tileParts (a : Word) (sh : BitVec 16) (stride : Nat) : List (Word × Nat) :=
  (if shapeSx sh then [(a, 32)] else []) ++ imageRows a (shapeFmt sh) (shapeRows sh) (shapeCols sh) stride

theorem tileParts_cons (a : Word) (sh : BitVec 16) (stride : Nat) : tileParts a sh stride =
    if shapeSx sh then (a, 32) :: imageRows a (shapeFmt sh) (shapeRows sh) (shapeCols sh) stride
    else imageRows a (shapeFmt sh) (shapeRows sh) (shapeCols sh) stride := by
  unfold tileParts
  split <;> rfl

/-- What TLD and TST do once their image is placed, or refused. -/
def placedForm (fn : Nat) (x : Entry) (f : FmtT) (s : State) : Except Refused (List (List Piece)) → EngineResult
  | .error e => if e.held then .wait else .fault (x.refusal e (tileKind fn) (tileSeg x f))
  | .ok parts => if fn = 0 then tileLoad x f parts (tileSeg x f) s else tileStore x f parts (tileStride f) (tileSeg x f) s

section Checks

variable {fn core : Nat} {x : Entry} {f : FmtT} {g : List Word} {s : State}

theorem tileMem_unconfigured (v : shapeV (s.core.ctx.tiles.shapeOf f.td.toNat) = false) :
    tileMem fn x f g s = .fault (x.report .tileUnconfigured x.pc .none 0) := by
  simp [tileMem, v]

variable (v : shapeV (s.core.ctx.tiles.shapeOf f.td.toNat) = true)
include v

theorem tileMem_misaligned (off : (g.headD 0).toNat % tileUnit (s.core.ctx.tiles.shapeOf f.td.toNat) ≠ 0 ∨
      tileStride f % strideUnit (s.core.ctx.tiles.shapeOf f.td.toNat) ≠ 0) :
    tileMem fn x f g s = .fault (x.report .misaligned (g.headD 0) (tileKind fn) (tileSeg x f)) := by
  unfold tileMem
  generalize g.headD 0 = a at off ⊢
  rw [if_neg (by simp [v])]
  exact if_pos (by rwa [Bool.or_eq_true, decide_eq_true_eq, decide_eq_true_eq])

variable (base : (g.headD 0).toNat % tileUnit (s.core.ctx.tiles.shapeOf f.td.toNat) = 0)
  (step : tileStride f % strideUnit (s.core.ctx.tiles.shapeOf f.td.toNat) = 0)
include base step

/-- An image that is aligned is placed, part by part. -/
theorem tileMem_aligned (me : s.me = core) {r : Except Refused (List (List Piece))} (placed : placeParts s (x.requester core)
      (tileSeg x f) (tileKind fn) (tileParts (g.headD 0) (s.core.ctx.tiles.shapeOf f.td.toNat) (tileStride f)) = r) :
    tileMem fn x f g s = placedForm fn x f s r := by
  subst me
  have even : ¬((g.headD 0).toNat % tileUnit (s.core.ctx.tiles.shapeOf f.td.toNat) ≠ 0 ||
      tileStride f % strideUnit (s.core.ctx.tiles.shapeOf f.td.toNat) ≠ 0) = true := by
    rw [Bool.or_eq_true, decide_eq_true_eq, decide_eq_true_eq, not_or]
    exact ⟨not_not.mpr base, not_not.mpr step⟩
  rw [tileParts_cons] at placed
  unfold tileMem
  generalize g.headD 0 = a at even placed ⊢
  rw [if_neg (by simp [v])]
  refine (if_neg even).trans ?_
  unfold shapeSx at placed
  simp only [tileKind, tileSeg, tileStride] at placed ⊢
  rw [placed]
  cases r <;> rfl

end Checks

/-! ### TLD (R198) -/

/-- The tile registers with the parts of an image loaded into tile k. -/
def TileRegs.loaded (t : TileRegs) (k : Nat) (bytes : List (List Byte)) : TileRegs :=
  let sh := t.shapeOf k
  let rows := fun (l : List (List Byte)) => packNat (8 * rowBytes (shapeFmt sh) (shapeCols sh)) (l.map natOfBytes)
  if shapeSx sh then { t.setBits k (rows bytes.tail) with
      scnt := t.scnt.setIfInBounds k ((bytes.headD []).getD 0 0)
      scales := t.scales.setIfInBounds k (BitVec.ofNat 128 (natOfBytes (((bytes.headD []).drop 8).take 16))) }
  else t.setBits k (rows bytes)

section Loaded

variable (t : TileRegs) {k : Nat} (bytes : List (List Byte))

theorem TileRegs.loaded_shape : (t.loaded k bytes).shape = t.shape := by
  unfold TileRegs.loaded
  dsimp only
  split <;> rfl
theorem TileRegs.loaded_acc : (t.loaded k bytes).acc = t.acc := by
  unfold TileRegs.loaded
  dsimp only
  split <;> rfl

theorem TileRegs.loaded_bits_ne {j : Nat} (other : j ≠ k) : (t.loaded k bytes).bits j = t.bits j := by
  unfold TileRegs.loaded
  dsimp only
  split
  · exact t.setBits_bits_ne _ other
  · exact t.setBits_bits_ne _ other

theorem TileRegs.loaded_plain (plain : shapeSx (t.shapeOf k) = false) :
    (t.loaded k bytes).scnt = t.scnt ∧ (t.loaded k bytes).scales = t.scales := by
  simp only [TileRegs.loaded, plain, Bool.false_eq_true, if_false]
  exact ⟨rfl, rfl⟩

variable (inside : k < 8)
include inside

theorem TileRegs.loaded_data : (t.loaded k bytes).data[k]? = some (BitVec.ofNat 131072
    (packNat (8 * rowBytes (shapeFmt (t.shapeOf k)) (shapeCols (t.shapeOf k)))
      ((if shapeSx (t.shapeOf k) then bytes.tail else bytes).map natOfBytes))) := by
  unfold TileRegs.loaded
  dsimp only
  split
  · exact Vector.getElem?_setIfInBounds_self_of_lt inside
  · exact Vector.getElem?_setIfInBounds_self_of_lt inside

theorem TileRegs.loaded_header (sx : shapeSx (t.shapeOf k) = true) :
    (t.loaded k bytes).scnt[k]? = some ((bytes.headD []).getD 0 0) ∧
      (t.loaded k bytes).scales[k]? = some (BitVec.ofNat 128 (natOfBytes (((bytes.headD []).drop 8).take 16))) := by
  simp only [TileRegs.loaded, sx, if_true]
  exact ⟨Vector.getElem?_setIfInBounds_self_of_lt inside, Vector.getElem?_setIfInBounds_self_of_lt inside⟩

end Loaded

section Load

variable {x : Entry} {f : FmtT} {parts ls : List (List Piece)} {seg : BitVec 16} {s : State}
  (lands : (parts.mapM fun p => p.mapM (landed s)) = some ls) (free : ownedPieces s ls.flatten = false)
include lands free

theorem tileLoad_poisoned {off : Word} (bad : poisonIn s ls.flatten = some off) :
    tileLoad x f parts seg s = .fault (x.report .memUncorrectable off .load seg) := by
  simp [tileLoad, lands, free, bad]

theorem tileLoad_loads (clean : poisonIn s ls.flatten = none) :
    tileLoad x f parts seg s = .done (setTile s f.td.toNat fun t => t.loaded f.td.toNat (ls.map (readPieces s))) := by
  cases sx : shapeSx (s.core.ctx.tiles.shapeOf f.td.toNat) with
  | true =>
    have header : imageHeader (shapeFmt (s.core.ctx.tiles.shapeOf f.td.toNat)) = 32 := if_pos sx
    simp [tileLoad, lands, free, clean, header, setTile, State.modCtx, TileRegs.loaded, sx, TileRegs.setBits]
  | false =>
    have header : imageHeader (shapeFmt (s.core.ctx.tiles.shapeOf f.td.toNat)) = 0 := if_neg (by simpa [shapeSx] using sx)
    simp [tileLoad, lands, free, clean, header, setTile, State.modCtx, TileRegs.loaded, sx]

end Load

/-! ### TST (R198, R199) -/

/-- The writes that a TST sends for the placed parts of its image. -/
def tileWrites (t : TileRegs) (k stride : Nat) (parts : List (List Piece)) : List (Place × Nat × List (Option Byte) × Word) :=
  (parts.zip (imageBytes t k stride)).flatMap fun p => mergeAtoms (writesOf (p.2.map some) (clipPieces p.2.length p.1))

section Store

variable {x : Entry} {f : FmtT} {parts : List (List Piece)} {stride : Nat} {seg : BitVec 16} {s : State}
  {ws : List (Place × Nat × List (Option Byte) × Word)} (writes : tileWrites s.core.ctx.tiles f.td.toNat stride parts = ws)
include writes

theorem tileStore_busy {w : Place × Nat × List (Option Byte) × Word}
    (busy : (ws.find? fun w => registered s w.1.cube w.2.1 w.2.2.1.length) = some w) :
    tileStore x f parts stride seg s = .fault (x.report .graphBusy w.2.2.2 .store seg) := by
  subst writes
  unfold tileWrites at busy
  simp only [tileStore, busy]

/-- The writes leave in order, and the thread counts them. -/
theorem tileStore_sends (free : (ws.any fun w => registered s w.1.cube w.2.1 w.2.2.1.length) = false)
    (room : s.core.ctx.unacked + ws.length ≤ 1023) :
    ∃ u fs, tileStore x f parts stride seg s = .done u ∧
      (u.mem = s.mem ∧ u.core.ctx = { s.core.ctx with unacked := s.core.ctx.unacked + ws.length }) ∧
      u.flights = s.flights ++ fs ∧ fs.map (fun (y : Flight) => (y.cls, y.cube, y.tid, y.body)) =
        ws.map fun w => (Class.adaptive, w.1.cube, s.core.ctx.tid, Body.write w.2.1 w.2.2.1 0 w.2.2.2) := by
  have none : (ws.find? fun w => registered s w.1.cube w.2.1 w.2.2.1.length) = none :=
    List.find?_eq_none.mpr fun w mem busy => by
      rw [List.any_eq_false] at free
      exact free w mem busy
  subst writes
  obtain ⟨kept, fs, sent, shown⟩ := foldl_sends (shows := fun (y : Flight) => (y.cls, y.cube, y.tid, y.body))
    (g := fun w : Place × Nat × List (Option Byte) × Word =>
      (Class.adaptive, w.1.cube, s.core.ctx.tid, Body.write w.2.1 w.2.2.1 0 w.2.2.2))
    (keeps := fun t : State => t.mem = s.mem ∧ t.core.ctx = { s.core.ctx with
      unacked := s.core.ctx.unacked + (tileWrites s.core.ctx.tiles f.td.toNat stride parts).length })
    (put := fun (t : State) w => (l1Drop t w.2.1).send (.engine t.me .matrix) t.core.ctx.tid .adaptive t.myCube w.1.cube
      (homeOf t w.1) (w.1.ilv.map fun i => (i, (s.cube s.myCube).imap.mgen)) (.write w.2.1 w.2.2.1 0 w.2.2.2))
    (fun t w keeps => ⟨keeps, _, rfl, by rw [keeps.2]⟩)
    (tileWrites s.core.ctx.tiles f.td.toNat stride parts)
    (s.modCtx fun c => { c with unacked := c.unacked + (tileWrites s.core.ctx.tiles f.td.toNat stride parts).length }) ⟨rfl, rfl⟩
  refine ⟨_, fs, ?_, kept, sent, shown⟩
  unfold tileWrites at none room
  simp only [tileStore, none, if_neg (Nat.not_lt.mpr room)]
  rfl

end Store

end Sys2Proof.Machine
end

