-- ==== Sys2Proof/Proofs/JointIssue.lean ====
section
/-! SUPPORT. What a joint issue checks, and what it leaves of each participant (R203-R206). -/

namespace Sys2Proof.Machine

open Sys2Proof Sys2Proof.Safety

/-! ### Changes of several cores -/

section Cores

variable {α : Type} {at_ : α → Nat} {change : α → Core → Core}

theorem foldl_modCore_mem (l : List α) (s : State) : (l.foldl (fun u p => u.modCore (at_ p) (change p)) s).mem = s.mem :=
  List.foldlRecOn (motive := fun u => State.mem u = s.mem) _ _ rfl fun _ h _ _ => (State.modCore_mem ..).trans h

theorem foldl_modCore_getCore_ne {l : List α} {i : Nat} (apart : i ∉ l.map at_) (s : State) :
    (l.foldl (fun u p => u.modCore (at_ p) (change p)) s).getCore i = s.getCore i := by
  induction l generalizing s with
  | nil => rfl
  | cons p l ih =>
    rw [List.map_cons, List.mem_cons, not_or] at apart
    rw [List.foldl_cons, ih apart.2, State.modCore_getCore, if_neg apart.1]

/-- Changes of cores of which no two are the same: each core is changed once. -/
theorem foldl_modCore_getCore {l : List α} (once : (l.map at_).Nodup) (s : State) {p : α} (mem : p ∈ l) :
    (l.foldl (fun u p => u.modCore (at_ p) (change p)) s).getCore (at_ p) = change p (s.getCore (at_ p)) := by
  induction l generalizing s with
  | nil => exact nomatch mem
  | cons q l ih =>
    rw [List.map_cons, List.nodup_cons] at once
    rw [List.foldl_cons]
    rcases List.mem_cons.mp mem with rfl | later
    · rw [foldl_modCore_getCore_ne once.1, State.modCore_getCore, if_pos rfl]
    · have other : at_ p ≠ at_ q := fun e => once.1 (e ▸ List.mem_map_of_mem later)
      rw [ih once.2 _ later, State.modCore_getCore, if_neg other]

end Cores

/-- A counter of the moving core says nothing of a thread. -/
theorem getCore_counted_ctx (u : State) (k n i : Nat) :
    (State.getCore { u with core := u.core.count k n } i).ctx = (u.getCore i).ctx := by
  unfold State.getCore
  split <;> rfl

/-! ### The checks of a joint issue (R203, R205) -/

section Checks

variable {x : Entry} {f : FmtT} {s : State} {core rank : Nat} {gang : Gang}

theorem giJoint_noGang (alone : s.myGang = none) : giJoint x f s = .fault (x.report .gissueInvalid x.pc .none 0) := by
  rw [giJoint, alone]

variable (me : s.me = core) (mine : s.myGang = some gang) (placed : gridPlace gang core = some rank)
include me mine placed

theorem giJoint_column (bad : giColOk gang f = false) : giJoint x f s = .fault (x.report .gissueInvalid x.pc .none 0) := by
  subst me
  simp [giJoint, mine, placed, bad]

variable (column : giColOk gang f = true) {row : List (Nat × Nat × Nat)} (members : rowMembers s gang rank = row)
  {ps : List Participant} (heads : row.filterMap (fun m => giHead s gang m.2.2 m.2.1) = ps)
include column members heads

theorem giJoint_waits (absent : ps.length ≠ row.length) : giJoint x f s = .wait := by
  subst me members heads
  simp [giJoint, mine, placed, column, absent]

variable (all : ps.length = row.length)
include all

theorem giJoint_fails {r : TrapReport} (bad : ps.findSome? giCheck = some r) : giJoint x f s = .done (giFault s ps r) := by
  subst me members heads
  simp [giJoint, mine, placed, column, all, bad]

variable (good : ps.findSome? giCheck = none)
include good

/-- Whether the participants of a joint issue ask for the same product of the same source (R205). -/
def giAlike (f : FmtT) (ps : List Participant) : Bool :=
  ps.all fun p => giCol p.f = giCol f && ps.all fun q => q.fn = p.fn && giA q.g = giA p.g && giM q.g = giM p.g && giK q.g = giK p.g

theorem giJoint_mismatch (unlike : giAlike f ps = false) :
    giJoint x f s = .done (giFault s ps (x.report .gissueMismatch x.pc .none 0)) := by
  unfold giAlike at unlike
  subst me members heads
  simp only [giJoint, mine, placed, column, all, good, unlike]
  simp

theorem giJoint_performs (alike : giAlike f ps = true) {source : Nat}
    (from_ : ((row.find? fun m => m.1 % gang.cols == giCol f - gang.k0).map fun m => m.2.2) = some source)
    (free : (ps.any fun p => giHeld s p source) = false) : giJoint x f s = .done (giPerform s ps source) := by
  unfold giAlike at alike
  subst me members heads
  simp only [giJoint, mine, placed, column, all, good, alike, from_, Option.getD_some, free]
  simp

end Checks

/-! ### What a joint issue leaves (R205, R206) -/

section Results

variable {s : State} {ps : List Participant}

/-- Every participant records the one fault. -/
theorem giFault_results (once : (ps.map Participant.core).Nodup) (r : TrapReport) :
    (giFault s ps r).mem = s.mem ∧
      ∀ p ∈ ps, ((giFault s ps r).getCore p.core).ctx = entryFault (s.getCore p.core).ctx .matrix p.entry r :=
  ⟨foldl_modCore_mem .., fun _ mem => congrArg Core.ctx (foldl_modCore_getCore once s mem)⟩

/-- The bytes of a tile image in a core's scratchpad (R204). -/
def jointImage (s : State) (m n core off rows : Nat) : List Byte := s.load (spadAddr core off) (imageLen m rows n)

/-- The scales and the rows of values of an image. -/
def imageScales (bs : List Byte) : List Nat := (List.range 4).map fun i => elemNat 32 (natOfBytes ((bs.drop 8).take 16)) i
def imageVals (m n : Nat) (bs : List Byte) (rows : Nat) : List (List FVal) :=
  (chunk (rowBytes m n) rows (bs.drop (imageHeader m))).map fun r => rowVals m n (natOfBytes r)

/-- The acc of a participant after the product of A's image `ia` with its own `ib`. -/
def jointAcc (c : Ctx) (m n rows : Nat) (ia ib : List Byte) (p : Participant) : BitVec 983040 :=
  mulInto (accOf c) (originRow (p.g.getD 3 0)) (originCol (p.g.getD 3 0)) n (imageVals m n ia rows) (imageVals m n ib (giN p.g))
    (scaleVals m (imageScales ia)) (scaleVals m (imageScales ib))

/-- The thread of a participant once its GISSUE has been performed. -/
def jointCtx (c : Ctx) (acc : BitVec 983040) (p : Participant) : Ctx :=
  (c.started (c.undirtied.setAcc acc)).modEntry .matrix p.entry.id fun x => { x with work := .marker }

/-- What a participant shows once its GISSUE completes. -/
theorem jointCtx_completes (c : Ctx) (acc : BitVec 983040) (p : Participant) :
    let d := (jointCtx c acc p).completeForm
    d.tiles.acc = acc ∧ d.tiles.data = c.tiles.data ∧ d.tiles.shape = c.tiles.shape ∧ tswAccv d.regs.tsw = true ∧
      d.regs.tdirty = c.regs.tdirty ||| BitVec.ofNat 9 (2 ^ 8) ∧ d.regs.g = c.regs.g ∧ d.regs.gq = c.regs.gq := by
  refine ⟨rfl, rfl, rfl, getLsbD_tswSet_same _ true (by decide), congrArg (c.regs.tdirty ||| ·) BitVec.zero_or, rfl, rfl⟩

variable {fn a rows n source : Nat}
  (same : ∀ p ∈ ps, p.fn = fn ∧ giA p.g = a ∧ giM p.g = rows ∧ giK p.g = n)
  (clean : ∀ p ∈ ps, s.poisoned (spadAddr source a) (imageLen (mulFmt fn) rows n) = none ∧
    s.poisoned (spadAddr p.core (giB p.g)) (imageLen (mulFmt fn) (giN p.g) n) = none ∧
    let ia := jointImage s (mulFmt fn) n source a rows
    let ib := jointImage s (mulFmt fn) n p.core (giB p.g) (giN p.g)
    scaleCheck (mulFmt fn) n (ia.headD 0).toNat (ib.headD 0).toNat (imageScales ia) (imageScales ib) = none)
include same clean

/-- A joint issue whose images are sound updates the acc of every participant. -/
theorem giPerform_results (once : (ps.map Participant.core).Nodup) :
    (giPerform s ps source).mem = s.mem ∧ ∀ p ∈ ps, ((giPerform s ps source).getCore p.core).ctx =
      jointCtx (s.getCore p.core).ctx (jointAcc (s.getCore p.core).ctx (mulFmt fn) n rows (jointImage s (mulFmt fn) n source a rows)
        (jointImage s (mulFmt fn) n p.core (giB p.g) (giN p.g)) p) p := by
  cases ps with
  | nil => exact ⟨rfl, fun _ none => nomatch none⟩
  | cons p0 l =>
    obtain ⟨rfl, rfl, rfl, rfl⟩ := same p0 List.mem_cons_self
    unfold giPerform
    dsimp only
    split
    · next r bad =>
      exfalso
      obtain ⟨p, mem, bad⟩ := List.exists_of_findSome?_eq_some bad
      obtain ⟨soundA, soundB, scales⟩ := clean p mem
      obtain ⟨-, sameA, -, -⟩ := same p mem
      simp only [sameA, soundA, soundB] at bad
      exact nomatch (congrArg (Option.map _) scales).symm.trans bad
    · exact ⟨foldl_modCore_mem .., fun _ mem => congrArg Core.ctx (foldl_modCore_getCore once s mem)⟩

end Results

end Sys2Proof.Machine
end

