-- ==== Sys2Proof/Proofs/TileFormResults.lean ====
section
/-! The proof of O48: what the matrix engine does with the form at its queue's head. -/

namespace Sys2Proof.Machine

open Sys2Proof Sys2Proof.Safety

/-! ### The form that a work names -/

section Forms

variable {x : Entry} {fn : Nat} {f : FmtT} {g : List Word}

theorem startForm_config (work : x.work = .tile 0x60 fn f g) (s : State) : startForm x s = tileConfig fn x f s := by
  simp only [startForm, work]
theorem startForm_tileMem (work : x.work = .tile 0x61 fn f g) (s : State) : startForm x s = tileMem fn x f g s := by
  simp only [startForm, work]
theorem startForm_mul (work : x.work = .tile 0x62 fn f g) (s : State) : startForm x s = tileMul fn x f g s := by
  simp only [startForm, work]
theorem startForm_joint (work : x.work = .tile 0x63 fn f g) (s : State) : startForm x s = giJoint x f s := by
  simp only [startForm, work]
theorem startForm_acc (work : x.work = .tile 0x64 fn f g) (s : State) : startForm x s = tileAcc fn x f g s := by
  simp only [startForm, work]

end Forms

/-- Settles O48: the engine's step for each result of the start of its form, and the start of each form from its own rules. -/
theorem tileFormResults : Obligations.TileFormResults := by
  unfold Obligations.TileFormResults
  intro s core x l op fn f g h b k tl may mq work own clear clean after does
  have me : b.me = core := formState_me s core
  have inside : k < 8 := f.td.isLt
  have origin (w : Word) : originRow w = w.toNat % 2 ^ 9 ∧ originCol w = w.toNat / 2 ^ 16 % 2 ^ 7 :=
    ⟨by rw [originRow, field_eq_div_mod, Nat.pow_zero, Nat.div_one], by rw [originCol, field_eq_div_mod]⟩
  have as_ (P : TileRegs → Regs → Prop) (d : FormDoes s core P) : does P := d
  clear_value does
  refine ⟨fun alone => ?_, fun joint => ?_, fun joint => ?_, fun config fn0 q pay => ?_, fun config fn5 => ?_, fun config fn6 => ?_,
    fun acc fn2 => ?_, fun acc moves => ?_, fun image fn01 => ?_, fun mul fn4 => ?_⟩
  · have next := matrixFormStart_next h may mq work alone
    exact ⟨fun u start => next.trans (congrArg _ (matrixStart_performs mq work own clear alone start)),
      fun r start => next.trans (congrArg _ (matrixStart_faults mq work own clear alone start)),
      fun start => next.trans (congrArg _ (matrixStart_waits mq work own clear alone start))⟩
  · have next := gissueJointIssue_next h may mq work joint
    refine ⟨fun u start => next.trans (congrArg _ (matrixStart_joins mq work own clear joint start)), fun alone => ?_⟩
    subst joint
    exact next.trans (congrArg _ (matrixStart_jointFaults mq work own clear rfl
      ((startForm_joint work b).trans (giJoint_noGang alone))))
  · subst joint
    intro gang rank mine placed row ps o fault
    have next := gissueJointIssue_next h may mq work rfl
    have joins {u : State} (start : giJoint x f b = .done u) :=
      next.trans (congrArg Host.Outcome.next (matrixStart_joins mq work own clear rfl ((startForm_joint work b).trans start)))
    have faults (once : (ps.map Participant.core).Nodup) {r : TrapReport} (start : giJoint x f b = .done (giFault b ps r)) : fault r :=
      have ⟨kept, recorded⟩ := giFault_results once r
      ⟨_, joins start, kept, fun p mem => (getCore_counted_ctx ..).trans (recorded p mem)⟩
    refine ⟨fun outside => ?_, fun column absent => ?_, fun column all once => ⟨fun r bad => ?_, fun good => ⟨fun unlike => ?_,
      fun alike source from_ free same sound => ?_⟩⟩⟩
    · exact next.trans (congrArg _ (matrixStart_jointFaults mq work own clear rfl
        ((startForm_joint work b).trans (giJoint_column me mine placed outside))))
    · exact next.trans (congrArg _ (matrixStart_jointWaits mq work own clear rfl
        ((startForm_joint work b).trans (giJoint_waits me mine placed column rfl rfl absent))))
    · exact faults once (giJoint_fails me mine placed column rfl rfl all bad)
    · exact faults once (giJoint_mismatch me mine placed column rfl rfl all good unlike)
    · obtain ⟨kept, left⟩ := giPerform_results same sound once
      refine ⟨_, joins (giJoint_performs me mine placed column rfl rfl all good alike from_ free), kept, fun p mem => ?_⟩
      have shown := jointCtx_completes (b.getCore p.core).ctx (jointAcc (b.getCore p.core).ctx (mulFmt fn) (giK g)
        (giM g) (jointImage b (mulFmt fn) (giK g) source (giA g) (giM g))
        (jointImage b (mulFmt fn) (giK g) p.core (giB p.g) (giN p.g)) p) p
      rw [← left p mem, ← getCore_counted_ctx _ 9 1] at shown
      exact shown
  · subst config fn0
    refine as_ _ (tile_does h may mq work own clear (by decide) ((startForm_config work _).trans (tileConfig_configures pay)) ?_)
    exact ⟨tl.config_bits _ _ _ inside, tl.config_shapeOf _ _ _ inside, tl.configured_sx q inside, rfl, rfl,
      fun j other => ⟨tl.config_bits_ne _ _ _ other, tl.config_shapeOf_ne _ _ _ other⟩⟩
  · subst config fn5
    have start := startForm_config work clean
    refine ⟨fun v => as_ _ (tile_does h may mq work own clear (by decide) (start.trans (tileConfig_zeroes v)) ?_),
      fun v => start.trans (tileConfig_unconfigured v)⟩
    exact ⟨tl.setBits_zero inside, rfl, rfl, rfl, fun j other => tl.setBits_bits_ne _ other⟩
  · subst config fn6
    refine as_ _ (tile_does h may mq work own clear (by decide) ((startForm_config work _).trans tileConfig_frees) ?_)
    exact ⟨tl.config_bits _ _ _ inside, tl.config_shapeOf _ _ _ inside, tl.config_scnt _ _ _ inside, rfl,
      fun j other => ⟨tl.config_bits_ne _ _ _ other, tl.config_shapeOf_ne _ _ _ other⟩⟩
  · subst acc fn2
    refine as_ _ (form_does h may mq work own clear (by decide) ((startForm_acc work _).trans tileAcc_zeroes) rfl rfl ?_)
    exact ⟨getLsbD_tswSet_same _ false (by decide), rfl, rfl⟩
  · subst acc
    obtain ⟨row0, col0⟩ := origin (g.headD 0)
    have start := startForm_acc work clean
    refine ⟨fun v => start.trans (tileAcc_unconfigured moves rfl v), fun v => ⟨fun odd => start.trans (tileAcc_format moves rfl v odd),
      fun fp32 => ⟨fun past => ?_, fun rows cols => ⟨fun read => ?_, fun write => ?_⟩⟩⟩⟩
    · rw [← row0, ← col0] at past
      exact start.trans (tileAcc_range moves rfl v fp32 past)
    · rw [← row0] at rows ⊢
      rw [← col0] at cols ⊢
      have reads := start.trans (tileAcc_reads moves rfl v fp32 rows cols read)
      subst read
      refine as_ _ (tile_does h may mq work own clear (by decide) reads ?_)
      exact ⟨rfl, rfl, rfl, rfl, fun i other => tl.setBits_bits_ne _ other, Vector.getElem?_setIfInBounds_self_of_lt inside⟩
    · rw [← row0] at rows ⊢
      rw [← col0] at cols ⊢
      have writes := start.trans (tileAcc_writes moves rfl v fp32 rows cols write)
      refine as_ _ (acc_does h may mq work own clear (by decide) writes ?_)
      exact ⟨rfl, rfl, getLsbD_tswSet_same _ true (by decide), rfl, rfl⟩
  · subst image
    have start := startForm_tileMem work clean
    have aligned := fun v base step r placed => start.trans
      (tileMem_aligned (core := core) (s := clean) (x := x) (fn := fn) (f := f) (g := g) v base step me (r := r) placed)
    refine ⟨fun v => start.trans (tileMem_unconfigured v), fun v off => start.trans (tileMem_misaligned v off), fun v base step =>
      ⟨fun e refused now => ?_, fun ps placed => ⟨fun ls load lands free => ⟨fun off bad => ?_, fun sound => ?_⟩, fun store =>
        ⟨fun w busy => ?_, fun free room => ?_⟩⟩⟩⟩
    · exact (aligned v base step _ refused).trans (if_neg (by rw [now]; decide))
    · exact (aligned v base step _ placed).trans ((if_pos load).trans (tileLoad_poisoned lands free bad))
    · have loads := (aligned v base step _ placed).trans ((if_pos load).trans (tileLoad_loads lands free sound))
      refine as_ _ (tile_does h may mq work own clear (by decide) loads ?_)
      exact ⟨tl.loaded_acc _, tl.loaded_shape _, rfl, fun i other => tl.loaded_bits_ne _ other, tl.loaded_data _ inside,
        tl.loaded_header _ inside, tl.loaded_plain _⟩
    · exact (aligned v base step _ placed).trans
        ((if_neg (by omega)).trans (tileStore_busy rfl busy))
    · obtain ⟨u, fs, sends, ⟨kept, left⟩, flights, shown⟩ := tileStore_sends (x := x) (seg := tileSeg x f) (s := clean)
        (parts := ps) (f := f) (stride := tileStride f) rfl free room
      have sent := (aligned v base step _ placed).trans ((if_neg (by omega)).trans sends)
      have next := (matrixFormStart_next h may mq work (by decide)).trans
        (congrArg Host.Outcome.next (matrixStart_performs mq work own clear (by decide) sent))
      have tiles := congrArg (fun d : Ctx => ({ d.tiles with shape := tl.shape } : TileRegs)) left
      have counted := congrArg Ctx.unacked left
      exact ⟨_, fs, next, kept, tiles, counted, flights, shown⟩
  · subst mul
    obtain ⟨row0, col0⟩ := origin (g.headD 0)
    have start := startForm_mul work clean
    refine ⟨fun v => start.trans (tileMul_unconfigured v), fun va vb => ⟨fun odd => start.trans (tileMul_format va vb odd),
      fun fa fb => ⟨fun odd => start.trans (tileMul_shape va vb fa fb odd),
        fun depth => ⟨fun past => ?_, fun rows cols scales => ?_⟩⟩⟩⟩
    · rw [← row0, ← col0] at past
      exact start.trans (tileMul_range va vb fa fb depth past)
    · rw [← row0] at rows ⊢
      rw [← col0] at cols ⊢
      have multiplies := start.trans (tileMul_multiplies va vb fa fb depth rows cols scales)
      refine as_ _ (acc_does h may mq work own clear (by decide) multiplies ?_)
      exact ⟨rfl, rfl, getLsbD_tswSet_same _ true (by decide), rfl⟩

end Sys2Proof.Machine
end
